-- ==== Sys2Proof/Word.lean ====
section
/-! DEFINITION. Word.lean: the widths of the KY-8's data: bytes, 32-bit registers and 64-bit words. -/
namespace Sys2Proof

/-- One byte. -/
abbrev Byte := BitVec 8
/-- A control-space register (R5). -/
abbrev Word := BitVec 32
/-- A 64-bit quantity: a memory word with check bits (R187, R198), a turn number, the FSW. -/
abbrev Word64 := BitVec 64
/-- Bytes in ascending address order. -/
abbrev Bytes := List Byte

end Sys2Proof
end

