-- ==== Sys2Proof/Syntax.lean ====
section
/-! DEFINITION. Syntax.lean: the commands of the KY-8 (opcode_table.json), one constructor per row, with what each brings from outside:
operands that the spec's event carries, and the physical findings (errors found by a read, measured values, signature verdicts) that
come from outside the modelled block (log 2). -/
namespace Sys2Proof

/-- Any die: 0 the headstock die, 1–7 CD1–CD7 (R9). -/
abbrev Die := Fin 8
/-- A compute die: `i` is CD(i + 1). -/
abbrev CDie := Fin 7
/-- A physical core C0–C8 of a compute die. -/
abbrev CoreIx := Fin 9
/-- A partition P0–P3 (R31). -/
abbrev Part := Fin 4
/-- A station number: die × 128 + the local index that the Carver uses (R10, R67). -/
abbrev Stn := Fin 1024
/-- A queue number: die × 1,024 + local index (R11). -/
abbrev QNum := Fin 8192
/-- A sensor port SP0–SP23. -/
abbrev SPort := Fin 24
/-- An Ethernet port: 0–7 EP0–EP7, 8 and 9 XP0 and XP1. -/
abbrev EPort := Fin 10
/-- A lidar stream (R314). -/
abbrev Lidar := Fin 8
/-- A job number (R35). -/
abbrev JobIx := Fin 64
/-- A task table entry (R174). -/
abbrev TaskIx := Fin 256
/-- A Fault Status Word bit (R376). -/
abbrev FswBit := Fin 64
/-- A lockstep unit: 0 the Turner, d the Carver of CDd (R398). -/
abbrev Unit8 := Fin 8
/-- A TS pin (R311, R312). -/
abbrev Pin := Fin 4
/-- A management session 4–7, as 0–3 (R452). -/
abbrev MSess := Fin 4

/-- An error that a read finds in the memory word at device address `addr`, or in its DDR5 block's check line (`chk`): correctable, or uncorrectable
(`ue`) (R188, R189, R202, R203). -/
structure Upset where
  addr : BitVec 48
  ue : Bool
  chk : Bool
  deriving DecidableEq, Repr

/-- The errors that the reads of one command find. -/
abbrev Upsets := List Upset

/-- A fault of a matrix array at one row write: `flip` inverts bits of the lane's output before the checks, or, with `acc`, of the row's
accumulated value (R99, R100). -/
structure LaneFault where
  arr : Fin 4
  lane : Fin 64
  flip : BitVec 32
  acc : Bool
  deriving DecidableEq, Repr

abbrev LaneFaults := List LaneFault

/-- A fault of a VX lane (R151): the element whose result it falsifies, by its place in payload order, the stage of a chain (5 the pool division), and what is added to the exact result. -/
structure LaneSlip where
  elem : Nat
  stage : Fin 6
  delta : Int
  deriving DecidableEq, Repr

/-- The lane fault of this command, if any. -/
abbrev OptLane := Option LaneSlip

/-- A byte that one read of a tile brings in wrong, past the memory's own check: its offset in the payload and the bits inverted (R368). -/
abbrev ReadFault := Option (Nat × BitVec 8)

/-- One end of a die-to-die link module: the die and its module 0–4; on the headstock die the far compute die 1–7 (R246). -/
structure Lnk where
  die : Die
  mod : Fin 8
  deriving DecidableEq, Repr

/-- A digest trailer's payload (R232). -/
structure Trailer where
  crc64 : BitVec 64
  isum : BitVec 64
  bytes : BitVec 64
  tiles : BitVec 32
  isumValid : Bool
  deriving DecidableEq, Repr

/-- Who makes a request to a DDR5 controller (R217, R222). -/
inductive DdrWho where
  | task (p : Part) (j : JobIx)
  | ingest (p : Part)
  | firmware
  deriving DecidableEq, Repr

/-- A read of `len` bytes or a write of `data` at a usable local address of the die, within one line (R200). -/
structure DdrReq where
  addr : BitVec 35
  len : Fin 65
  data : Option Bytes
  who : DdrWho
  deriving DecidableEq, Repr

/-- Who makes a register access or a control request (R67, R494): a firmware processor, the Turner pair, the debug port, an authorised
management session, or anyone else. -/
inductive Src where
  | firmware
  | turner
  | debug
  | mgmt (s : MSess)
  | other (n : Fin 4)
  deriving DecidableEq, Repr

/-- What a time capture brings from its clock domain: the interpolator's quarter of the tick, and the largest extension, in sixteenths of the nominal period, of
the three island cycles before it (R300, R309). -/
structure Capture where
  phase : Fin 4
  ext : Fin 9
  deriving DecidableEq, Repr

/-- Verdict of the ECC in a CSI-2 packet header (R252). -/
inductive HdrEcc where
  | ok
  | corrected
  | bad
  deriving DecidableEq, Repr

/-- An Ethernet frame at a port: its bytes from the destination address to the end of the payload, the verdict of the FCS, that of MACsec (of an MKA frame: whether it verifies under the
port's CAK), and the MACsec packet number that it carries (R289). -/
structure EthFrame where
  bytes : Bytes
  fcsOk : Bool
  macsecOk : Bool
  pn : Nat
  deriving DecidableEq, Repr

/-- A mailbox datagram as received: the UDP payload, the port, and the addresses its frame carried (R446). -/
structure Dgram where
  port : EPort
  srcMac : BitVec 48
  srcIp : BitVec 32
  srcUdp : BitVec 16
  dstUdp : BitVec 16
  body : Bytes
  deriving DecidableEq, Repr

/-- Outcome of a self-test segment (R330, R332): pass, or the element that fails: a DPU of an array, a row of a buffer's bank (0 core buffer, 1 drain store), or any
other unit of the core. -/
inductive SegVerdict where
  | pass
  | dpu (arr : Fin 4) (lane : Fin 64)
  | row (buf : Fin 2) (bank : Fin 64) (row : BitVec 16)
  | other
  deriving DecidableEq, Repr

/-- Verdict of the lockstep diagnostic (R391), 1–5. -/
inductive LsVerdict where
  | first
  | second
  | bothPassed
  | bothFailed
  | notComplete
  deriving DecidableEq, Repr

/-- A power domain in the switch-on order of R496: AON, FWC, HSX, NET, SNS, then MEM, BUF, ARR of each of CD1–CD7. -/
abbrev Dom := Fin 26

/-- An SI station's local index: SP0–SP23, EP0–EP7 and XP0–XP1 (R26). -/
abbrev SiPort := Fin 34

/-- Extension counts read from an island's clock generator (R498). -/
abbrev ExtRead := BitVec 32

/-- What the boundary takes from the monitors: by die, the junction temperature now and the highest in the turn, in 1/8 °C, and the mean power of the turn in mW
(R478, R479, R512, R513). -/
structure BoundaryEnv where
  tjNow : List (BitVec 16)
  tjMax : List (BitVec 16)
  power : List (BitVec 32)
  deriving DecidableEq, Repr

/-- The readings of one PMBus device that answers at address 0x40 + `addr`: READ_VOUT, READ_IOUT and READ_TEMPERATURE_1 (R535). -/
structure PmRead where
  addr : Fin 16
  volt : BitVec 16
  curr : BitVec 16
  temp : BitVec 16
  deriving DecidableEq, Repr

abbrev PmReads := List PmRead

/-- What identifies a flash part at its port (R422): whether it has SFDP and an 8D-8D-8D read mode, its JEDEC id and its size in MiB. -/
structure FlashFind where
  ok : Bool
  jedec : BitVec 32
  mib : Nat
  deriving DecidableEq, Repr

/-- A firmware image that a valid boot descriptor names and whose signature verifies: version, security version and length. The spec gives no layout of the boot descriptor
or of the firmware image's header (R422). -/
structure FwFind where
  version : BitVec 32
  svn : Fin 65
  len : Nat
  deriving DecidableEq, Repr

/-- An SRAM row that fails: buffer 0 core buffer, 1 drain store, 2 die or headstock buffer, physical core, bank and row (R166, R435). -/
structure RowFind where
  buf : Fin 3
  core : Fin 9
  bank : Fin 64
  row : BitVec 16
  deriving DecidableEq, Repr

/-- A DPU that fails: physical core, array and DPU, 64 and 65 the spares and 66 the checksum DPU (R104). -/
structure DpuFind where
  core : Fin 9
  arr : Fin 4
  lane : Fin 67
  deriving DecidableEq, Repr

/-- A UCIe lane that fails its test: module, direction (1 receive) and lane (R228). -/
structure LaneFind where
  mod : Fin 5
  rx : Fin 2
  lane : Fin 16
  deriving DecidableEq, Repr

/-- Lanes of a module that a test finds failing in one direction (R228). -/
abbrev Lanes := List (Fin 16)

/-- What a start finds at one compute die: subchannel, ranks and density code as measured, the RAAIMT and RAAMMT that its components report, subchannels that fail training, oscillator counts at
training by 2 × subchannel + rank, modules that are down, failing lanes, broken Carver copies, broken cores, broken DPUs and failing rows (R104, R166, R194, R196, R209, R210, R228, R392). A
subchannel without an entry is fitted as the DDR record says, and a die without an entry has none of the rest. -/
structure DieFind where
  die : CDie
  fit : List (Fin 2 × Fin 4 × Fin 3)
  rfm : BitVec 16 × BitVec 16
  untrained : Fin 4
  osc : List (BitVec 16)
  down : Fin 32
  lanes : List LaneFind
  copies : Fin 8
  cores : Fin 512
  dpus : List DpuFind
  rows : List RowFind
  deriving DecidableEq, Repr

/-- What a start finds at a sensor or Ethernet port, by SI index (R26, R248, R273, R287): link up, whether the partner requires an option that R248 does not name, highest gear, CSI-2 adaptation,
virtual channels, round trip in 2^−16 ns, load in mA, whether every write of the initialisation script was acknowledged, cable 0 good, 1 open, 2 short, and length or fault distance in 0.1 m. A port without an entry is as its record expects. -/
structure PortFind where
  port : SiPort
  up : Bool
  foreign : Bool
  gear : Fin 8
  csi : Bool
  vcs : Fin 17
  rtt : Nat
  load : BitVec 10
  script : Bool
  cable : Fin 3
  length : BitVec 16
  deriving DecidableEq, Repr

/-- What a start finds and measures outside the block (R422, R430–R438): rail levels in mV by row of R515 (a rail without an entry is nominal), the flash parts, the firmware image (none: ROM
recovery), whether the configuration image's signature verifies and its KEYS records unwrap, programs whose signature fails, package slots whose signature verifies, broken Turner copies, failing
rows of the headstock buffer, dies and ports. -/
structure Findings where
  rails : List (Fin 17 × BitVec 16)
  fl0 : FlashFind
  fl1 : FlashFind
  fw : Option FwFind
  cfgSig : Bool
  keysOk : Bool
  badProgs : List (Fin 1024)
  pkgs : Fin 4
  turner : Fin 8
  rows : List RowFind
  dies : List DieFind
  ports : List PortFind
  deriving DecidableEq, Repr

/-- An element of the headstock periodic tests that fails, if any: its FSW bit (R337, R343). -/
abbrev HsElem := Option (Fin 8)

/-- What the debug port's scan network reads (R492): a register, an SRAM word, or entry `i` of the handshake FIFO of a crossing, die and unit, toward the fabric or from it (`out`). -/
inductive ScanTarget where
  | reg (d : Die) (off : BitVec 24)
  | sram (addr : BitVec 48)
  | fifo (kind : Fin 7) (d : Die) (u : Fin 64) (out : Bool) (i : Fin 32)
  deriving DecidableEq, Repr

/-- The commands of the KY-8, one constructor per row of opcode_table.json, in the table's order. -/
inductive Instr where
  /-- MX_PASS (R82) -/
  | mxPass (d : CDie) (c : CoreIx)
  /-- MX_PASS_BEGIN (R85) -/
  | mxPassBegin (d : CDie) (c : CoreIx) (ups : Upsets)
  /-- WEIGHT_LOAD_DONE (R85) -/
  | weightLoadDone (d : CDie) (c : CoreIx)
  /-- MX_VECTOR_ISSUE (R72) -/
  | mxVectorIssue (d : CDie) (c : CoreIx)
  /-- MX_ROW_WRITE (R95) -/
  | mxRowWrite (d : CDie) (c : CoreIx) (flts : LaneFaults)
  /-- WF_CONV (R110) -/
  | wfConv (d : CDie) (c : CoreIx)
  /-- WF_POOL (R120) -/
  | wfPool (d : CDie) (c : CoreIx)
  /-- WF_VECTOR_DELIVER (R540) -/
  | wfVectorDeliver (d : CDie) (c : CoreIx) (ups : Upsets)
  /-- VX_CHAIN (R138) -/
  | vxChain (d : CDie) (c : CoreIx) (res : OptLane) (ups : Upsets)
  /-- VX_ROW (R146) -/
  | vxRow (d : CDie) (c : CoreIx) (ups : Upsets)
  /-- VX_REDUCE (R147) -/
  | vxReduce (d : CDie) (c : CoreIx) (res : OptLane)
  /-- VX_GATHER (R149) -/
  | vxGather (d : CDie) (c : CoreIx) (ups : Upsets)
  /-- VX_SCATTER (R149) -/
  | vxScatter (d : CDie) (c : CoreIx)
  /-- VX_SCATADD (R150) -/
  | vxScatadd (d : CDie) (c : CoreIx) (res : OptLane)
  /-- VX_BLANKCMP (R153) -/
  | vxBlankcmp (d : CDie) (c : CoreIx)
  /-- VX_DRAIN_READ (R97) -/
  | vxDrainRead (d : CDie) (c : CoreIx) (ups : Upsets)
  /-- DM_COPY (R154) -/
  | dmCopy (st : Stn) (ups : Upsets)
  /-- DM_LOAD (R156) -/
  | dmLoad (st : Stn) (ups : Upsets)
  /-- DM_STORE (R158) -/
  | dmStore (st : Stn)
  /-- BX_NMS (R126) -/
  | bxNms (d : CDie)
  /-- XD_PUT (R240) -/
  | xdPut (d : CDie) (p : Part) (ups : Upsets)
  /-- XD_GET (R240) -/
  | xdGet (d : CDie) (p : Part)
  /-- XD_BCAST (R240) -/
  | xdBcast (d : CDie) (p : Part)
  /-- XD_ALLGATHER (R240) -/
  | xdAllgather (d : CDie) (p : Part)
  /-- XD_REDSCAT (R240) -/
  | xdRedscat (d : CDie) (p : Part) (ord : List (Fin 7)) (flt : Option (Nat × BitVec 32))
  /-- XD_ALLREDUCE (R240) -/
  | xdAllreduce (d : CDie) (p : Part) (ord : List (Fin 7)) (flt : Option (Nat × BitVec 32))
  /-- XD_WOPEN (R178) -/
  | xdWopen (d : CDie) (p : Part)
  /-- XD_WCLOSE (R182) -/
  | xdWclose (d : CDie) (p : Part)
  /-- XD_WCLOSE_COMPLETE (R182) -/
  | xdWcloseComplete (d : CDie) (p : Part)
  /-- SI_RUN (R253) -/
  | siRun (pt : SiPort)
  /-- EG_MSG (R360) -/
  | egMsg (p : Part) (bad : ReadFault)
  /-- SO_FRAME (R275) -/
  | soFrame (sp : SPort)
  /-- SO_FRAME_START (R277) -/
  | soFrameStart (sp : SPort)
  /-- COMMAND_START (R63) -/
  | commandStart (st : Stn) (p : Part) (ups : Upsets)
  /-- COMMAND_COMPLETE (R63) -/
  | commandComplete (st : Stn) (p : Part)
  /-- SLOT_CLAIM (R50) -/
  | slotClaim (q : QNum)
  /-- SLOT_FULL (R41) -/
  | slotFull (q : QNum) (ups : Upsets)
  /-- SLOT_ACQUIRE (R47) -/
  | slotAcquire (q : QNum) (ups : Upsets)
  /-- SLOT_RELEASE (R50) -/
  | slotRelease (q : QNum)
  /-- CREDIT_FLIT_SEND (R52) -/
  | creditFlitSend (q : QNum)
  /-- CREDIT_FLIT_ARRIVE (R52) -/
  | creditFlitArrive (q : QNum) (n : Nat)
  /-- PLAIN_STORE_ACCEPT (R56) -/
  | plainStoreAccept (st : Stn) (p : Part) (ups : Upsets)
  /-- SRAM_CE_WRITEBACK (R188) -/
  | sramCeWriteback (d : Die)
  /-- SRAM_SCRUB_READ (R190) -/
  | sramScrubRead (d : Die) (buf : Fin 19) (ups : Upsets)
  /-- SRAM_SCRUB_FORCED (R190) -/
  | sramScrubForced (d : Die) (buf : Fin 19) (ups : Upsets)
  /-- REMOTE_REQUEST_ARRIVE (R184) -/
  | remoteRequestArrive (st : Stn) (p : Part) (ups : Upsets)
  /-- REMOTE_STATUS_RETURN (R185) -/
  | remoteStatusReturn (st : Stn) (p : Part)
  /-- DDR_REQUEST (R200) -/
  | ddrRequest (d : CDie) (r : DdrReq) (ups : Upsets)
  /-- DDR_REFRESH_DUE (R208) -/
  | ddrRefreshDue (d : CDie) (sub : Fin 2) (rank : Fin 2)
  /-- MR4_READ (R208) -/
  | mr4Read (d : CDie) (sub : Fin 2) (rank : Fin 2) (code : Fin 8) (hot : Bool)
  /-- RFM_ISSUE (R209) -/
  | rfmIssue (d : CDie) (sub : Fin 2) (bank : Fin 32)
  /-- DQS_OSC_CHECK (R210) -/
  | dqsOscCheck (d : CDie) (sub : Fin 2) (rank : Fin 2) (count : BitVec 16) (marginOk : Bool)
  /-- DDR_PATROL_SCRUB (R206) -/
  | ddrPatrolScrub (d : CDie) (sub : Fin 2) (ups : Upsets)
  /-- RES_WINDOW_END (R218) -/
  | resWindowEnd (d : CDie) (waiting : Fin 16)
  /-- FLIT_RECEIVE (R226) -/
  | flitReceive (l : Lnk) (flit : Bytes)
  /-- ACK_TIMER (R226) -/
  | ackTimer (l : Lnk)
  /-- NAK_RECEIVE (R226) -/
  | nakReceive (l : Lnk) (sq : Fin 4096)
  /-- MODULE_RETRAIN (R227) -/
  | moduleRetrain (l : Lnk)
  /-- RETRAIN_DONE (R227) -/
  | retrainDone (l : Lnk) (badTx : Lanes) (badRx : Lanes)
  /-- DIGEST_TRAILER_ARRIVE (R233) -/
  | digestTrailerArrive (d : Die) (src : Die) (num : Fin 8192) (tr : Trailer)
  /-- TALLY_ARRIVE (R234) -/
  | tallyArrive (d : Die) (src : Die) (p : Part) (count : Nat)
  /-- FRAME_START_PACKET (R266) -/
  | frameStartPacket (sp : SPort) (vc : Fin 4) (frameNo : BitVec 16) (retx : Nat) (hdr : HdrEcc) (cap : Capture)
  /-- CSI_LINE_PACKET (R263) -/
  | csiLinePacket (sp : SPort) (vc : Fin 4) (dt : Fin 64) (data : Bytes) (hdr : HdrEcc) (crcOk : Bool) (retx : Nat)
  /-- EMBEDDED_DATA_PACKET (R252) -/
  | embeddedDataPacket (sp : SPort) (vc : Fin 4) (data : Bytes) (hdr : HdrEcc) (crcOk : Bool) (retx : Nat)
  /-- FRAME_END_PACKET (R264) -/
  | frameEndPacket (sp : SPort) (vc : Fin 4) (hdr : HdrEcc) (retx : Nat)
  /-- INGEST_WRITE (R263) -/
  | ingestWrite (sp : SPort) (vc : Fin 4)
  /-- ENTRY_WRITTEN (R258) -/
  | entryWritten (sp : SPort) (vc : Fin 4)
  /-- FRAME_SYNC_LAUNCH (R268) -/
  | frameSyncLaunch (sp : SPort) (off : Nat)
  /-- POC_SAMPLE (R272) -/
  | pocSample (sp : SPort) (ma : BitVec 16)
  /-- POC_RETRY (R272) -/
  | pocRetry (sp : SPort)
  /-- EYE_MARGIN_CHECK (R335) -/
  | eyeMarginCheck (sp : SPort) (low : Bool)
  /-- ETH_FRAME_RECEIVE (R286) -/
  | ethFrameReceive (ep : EPort) (f : EthFrame) (cap : Capture)
  /-- LIDAR_WINDOW_END (R296) -/
  | lidarWindowEnd (l : Lidar)
  /-- TQ_FRAME_START (R290) -/
  | tqFrameStart (ep : EPort)
  /-- TQ1_LAUNCH (R291) -/
  | tq1Launch (ep : EPort)
  /-- MACSEC_REKEY (R289) -/
  | macsecRekey (ep : EPort)
  /-- SQI_READ (R288) -/
  | sqiRead (ep : EPort) (v : Fin 8)
  /-- LINK_DROP (R288) -/
  | linkDrop (ep : EPort)
  /-- PTP_SYNC_RECEIVE (R303) -/
  | ptpSyncReceive (ep : EPort) (off : Int) (ppm : Int)
  /-- ADJ_SLEW (R303) -/
  | adjSlew
  /-- SYNC_TIMEOUT (R305) -/
  | syncTimeout
  /-- PTP_SYNC_SEND (R302) -/
  | ptpSyncSend (ep : EPort)
  /-- PDELAY_EXCHANGE (R302) -/
  | pdelayExchange (ep : EPort) (mpd : Nat)
  /-- ANNOUNCE_SEND (R302) -/
  | announceSend (ep : EPort)
  /-- TS_IN_EDGE (R311) -/
  | tsInEdge (pin : Pin) (rising : Bool) (phase : Fin 4) (pulse : Nat)
  /-- TSIN_DATA_LO_READ (R311) -/
  | tsinDataLoRead (pin : Pin) (who : Src)
  /-- TS_OUT_EDGE (R312) -/
  | tsOutEdge (pin : Pin)
  /-- PPS_EDGE (R312) -/
  | ppsEdge
  /-- TURN_BOUNDARY (R324) -/
  | turnBoundary (env : BoundaryEnv)
  /-- TASK_RELEASE (R323) -/
  | taskRelease (j : JobIx)
  /-- BLANK_SLOT_START (R325) -/
  | blankSlotStart
  /-- BLANK_SLOT_END (R325) -/
  | blankSlotEnd
  /-- BLANK_VERDICT (R347) -/
  | blankVerdict (d : CDie)
  /-- BUDGET_EXPIRY (R327) -/
  | budgetExpiry (d : Die) (k : TaskIx)
  /-- DEADLINE_EXPIRY (R327) -/
  | deadlineExpiry (j : JobIx)
  /-- STATION_RESET_BY_CARVER (R509) -/
  | stationResetByCarver (st : Stn) (p : Part)
  /-- SELFTEST_SEGMENT_DONE (R330) -/
  | selftestSegmentDone (d : CDie) (c : CoreIx) (v : SegVerdict)
  /-- CLOCK_WINDOW (R336) -/
  | clockWindow (d : CDie) (isl : Fin 14) (cycles : Nat) (ext : ExtRead)
  /-- GATE_DECISION (R362) -/
  | gateDecision (p : Part)
  /-- RESULT_LAUNCH (R362) -/
  | resultLaunch (p : Part)
  /-- ERROR_LINE_LATCH (R374) -/
  | errorLineLatch (b : FswBit) (phase : Fin 4)
  /-- FAULT_RECORD_WRITTEN (R382) -/
  | faultRecordWritten
  /-- REPORT_RESEND (R382) -/
  | reportResend
  /-- FC_ESCALATE (R378) -/
  | fcEscalate (b : FswBit) (cause : BitVec 8) (who : Src)
  /-- FSW_CLEAR (R380) -/
  | fswClear (mask : BitVec 64) (who : Src)
  /-- FLT_READBACK (R384) -/
  | fltReadback (n : Bool) (p : Bool)
  /-- LOCKSTEP_MISMATCH (R389) -/
  | lockstepMismatch (u : Unit8)
  /-- LOCKSTEP_VERDICT (R391) -/
  | lockstepVerdict (u : Unit8) (v : LsVerdict)
  /-- AGREEMENT_READ (R390) -/
  | agreementRead (u : Unit8) (a : BitVec 32) (b : BitVec 32)
  /-- DEBUG_HALT (R389) -/
  | debugHalt (u : Unit8)
  /-- SSP_CS_FALL (R385) -/
  | sspCsFall
  /-- SSP_CHALLENGE (R387) -/
  | sspChallenge (mosi : Bytes)
  /-- WD_RESPONSE_READY (R388) -/
  | wdResponseReady
  /-- POWER_ON_RESET (R430) -/
  | powerOnReset (byPin : Bool) (lowNs : Nat) (f : Findings)
  /-- WARM_RESET (R507) -/
  | warmReset (lowNs : Nat) (f : Findings)
  /-- START_TURNS (R430) -/
  | startTurns
  /-- HELLO (R456) -/
  | hello (m : Dgram)
  /-- BYE (R465) -/
  | bye (m : Dgram)
  /-- MGMT_OPEN (R452) -/
  | mgmtOpen (m : Dgram)
  /-- MGMT_AUTH (R452) -/
  | mgmtAuth (m : Dgram) (sigOk : Bool)
  /-- MGMT_AUTH_TIMEOUT (R452) -/
  | mgmtAuthTimeout (ms : MSess)
  /-- MGMT_SESSION_TIMEOUT (R452) -/
  | mgmtSessionTimeout (ms : MSess)
  /-- COUNTER_READ_STATION (R481) -/
  | counterReadStation (m : Dgram)
  /-- COUNTER_READ_SHADOW (R481) -/
  | counterReadShadow (m : Dgram)
  /-- COUNTER_READ_ALWAYS_ON (R481) -/
  | counterReadAlwaysOn (m : Dgram)
  /-- TRACE_SUBSCRIBE (R486) -/
  | traceSubscribe (m : Dgram)
  /-- TRACE_STOP (R486) -/
  | traceStop (m : Dgram)
  /-- TRACE_RECORDS_SEND (R486) -/
  | traceRecordsSend
  /-- REG_READ (R465) -/
  | regRead (m : Dgram) (ups : Upsets)
  /-- REG_WRITE (R465) -/
  | regWrite (m : Dgram)
  /-- FAULT_CLEAR (R466) -/
  | faultClear (m : Dgram)
  /-- TIME_STEP (R306) -/
  | timeStep (m : Dgram)
  /-- POC_SWITCH (R465) -/
  | pocSwitch (m : Dgram)
  /-- DUMP_REQ (R487) -/
  | dumpReq (m : Dgram)
  /-- DUMP_SEND (R489) -/
  | dumpSend (p : Part)
  /-- XFER_BEGIN (R467) -/
  | xferBegin (m : Dgram)
  /-- XFER_DATA (R467) -/
  | xferData (m : Dgram)
  /-- XFER_END (R439) -/
  | xferEnd (m : Dgram) (sigOk : Bool)
  /-- ATTEST_REQ (R420) -/
  | attestReq (m : Dgram)
  /-- KEY_REVOKE (R418) -/
  | keyRevoke (m : Dgram) (sigOk : Bool)
  /-- RECORD_ACK (R393) -/
  | recordAck (m : Dgram)
  /-- PWR_REQ_IDLE (R503) -/
  | pwrReqIdle (who : Src)
  /-- PWR_REQ_PARK (R505) -/
  | pwrReqPark (who : Src)
  /-- PWR_REQ_ACTIVE (R506) -/
  | pwrReqActive (who : Src)
  /-- DOMAIN_GOOD_TIMEOUT (R496) -/
  | domainGoodTimeout (dom : Dom)
  /-- RST_REQ_PARTITION (R508) -/
  | rstReqPartition (p : Part) (who : Src)
  /-- RST_REQ_STATION (R509) -/
  | rstReqStation (st : Stn) (who : Src)
  /-- UNDERVOLTAGE (R499) -/
  | undervoltage (dom : Dom)
  /-- OVERVOLTAGE (R499) -/
  | overvoltage (dom : Dom)
  /-- REFCLK_FAIL (R499) -/
  | refclkFail
  /-- ISLAND_CLOCK_FAIL (R499) -/
  | islandClockFail (d : Die) (isl : Fin 14)
  /-- THERMAL_TRIP (R499) -/
  | thermalTrip (d : Die) (sensor : Fin 4)
  /-- THERMAL_WARNING (R499) -/
  | thermalWarning (d : Die) (sensor : Fin 4)
  /-- AGEING_READ (R501) -/
  | ageingRead (d : CDie) (isl : Fin 14) (count : Nat)
  /-- PMBUS_POLL (R535) -/
  | pmbusPoll (reads : PmReads)
  /-- PM_ALERT (R535) -/
  | pmAlert (fault : Bool)
  /-- SPLOCK_PIN (R490) -/
  | splockPin (lowNs : Nat)
  /-- SPL_ARM_AT_TURN (R494) -/
  | splArmAtTurn (turn : BitVec 64) (who : Src)
  /-- SPL_ARM_ON_BIT (R494) -/
  | splArmOnBit (b : FswBit) (who : Src)
  /-- SPL_ARM_NOW (R494) -/
  | splArmNow (who : Src)
  /-- DEBUG_SCAN_READ (R492) -/
  | debugScanRead (tgt : ScanTarget)
  /-- QDESC_WRITE (R69) -/
  | qdescWrite (d : Die) (q : Fin 1024) (w : Fin 4) (v : BitVec 32) (who : Src)
  /-- ST_CMD_REG_WRITE (R68) -/
  | stCmdRegWrite (st : Stn) (r : Fin 3) (v : BitVec 32) (who : Src)
  /-- MX_INJECT (R106) -/
  | mxInject (d : CDie) (c : CoreIx) (v : BitVec 32) (who : Src)
  /-- DPU_MAP_WRITE (R106) -/
  | dpuMapWrite (d : CDie) (c : CoreIx) (hi : Bool) (v : BitVec 32) (who : Src)
  /-- TASK_ENTRY_WRITE (R174) -/
  | taskEntryWrite (d : Die) (k : TaskIx) (w : Fin 16) (v : BitVec 32) (who : Src)
  /-- W1C_STATUS_CLEAR (R6) -/
  | w1cStatusClear (d : Die) (off : BitVec 24) (v : BitVec 32) (who : Src)
  /-- LOW_WORD_READ (R5) -/
  | lowWordRead (d : Die) (off : BitVec 24) (width : Nat) (who : Src)
  /-- DRAIN_STORE_FW_READ (R171) -/
  | drainStoreFwRead (d : CDie) (c : CoreIx) (off : BitVec 24) (who : Src) (ups : Upsets)
  /-- REGISTER_WRITE (R6) -/
  | registerWrite (d : Die) (off : BitVec 24) (v : BitVec 32) (width : Nat) (who : Src)
  /-- HEADSTOCK_PERIODIC_TEST (R337) -/
  | headstockPeriodicTest (bad : HsElem)
  /-- SENSOR_LINK_LOST (R264) -/
  | sensorLinkLost (sp : SPort)
  /-- LINK_UP (R288) -/
  | linkUp (ep : EPort)
  /-- THERMAL_WARNING_END (R512) -/
  | thermalWarningEnd (d : Die)
  /-- UPDATE_WRITTEN (R439) -/
  | updateWritten (ok : Bool)
  /-- STATE_MOVE_END (R503) -/
  | stateMoveEnd (f : Findings)
  /-- DEBUG_UNLOCK (R490) -/
  | debugUnlock (ok : Bool)
  deriving DecidableEq, Repr

end Sys2Proof
end

