-- ==== Sys2Proof/Machine/Bits.lean ====
section
/-! DEFINITION. Machine/Bits.lean: bit fields `[high:low]`, sign extension and little-endian byte order (R3). -/
namespace Sys2Proof.Machine

/-- The field `[hi:lo]` of `x`. -/
def bits (x hi lo : Nat) : Nat := (x >>> lo) % 2 ^ (hi + 1 - lo)

/-- Bit `i` of `x`. -/
def bit (x i : Nat) : Bool := x.testBit i

/-- A flag as a 1-bit number. -/
def b2n (b : Bool) : Nat := if b then 1 else 0

/-- `x` with the field `[hi:lo]` replaced by `v`. -/
def putBits (x hi lo v : Nat) : Nat :=
  let w := 2 ^ (hi + 1 - lo)
  x - (bits x hi lo) <<< lo + (v % w) <<< lo

/-- The two's-complement value of the low `w` bits of `x`. -/
def sext (w x : Nat) : Int :=
  let y := x % 2 ^ w
  if y < 2 ^ (w - 1) then (y : Int) else (y : Int) - (2 ^ w : Nat)

/-- An integer modulo 2^`w`. -/
def wrap (w : Nat) (x : Int) : Nat := (x % (2 ^ w : Nat)).toNat

/-- Least and greatest value of a saturation. -/
def clampInt (lo hi x : Int) : Int := if x < lo then lo else if hi < x then hi else x

/-- Addition that stops at `m`. -/
def satAdd (m a b : Nat) : Nat := min m (a + b)

/-- The `n` little-endian bytes of `x` (R3). -/
def toLE : Nat → Nat → Bytes
  | 0, _ => []
  | n + 1, x => BitVec.ofNat 8 x :: toLE n (x / 256)

/-- The number spelled by little-endian bytes (R3). -/
def fromLE : Bytes → Nat
  | [] => 0
  | b :: t => b.toNat + 256 * fromLE t

/-- The number spelled by big-endian bytes (fields of a published standard keep its order, R3). -/
def fromBE (b : Bytes) : Nat := fromLE b.reverse

/-- The `n` big-endian bytes of `x`. -/
def toBE (n x : Nat) : Bytes := (toLE n x).reverse

/-- Bytes `[off, off + n)` of `b`, short where `b` ends. -/
def slice (b : Bytes) (off n : Nat) : Bytes := (b.drop off).take n

/-- The little-endian number in bytes `[off, off + n)` of `b`. -/
def leAt (b : Bytes) (off n : Nat) : Nat := fromLE (slice b off n)

/-- Exactly `n` bytes: `b` cut, or padded with zeros. -/
def padTo (n : Nat) (b : Bytes) : Bytes := b.take n ++ List.replicate (n - b.length) 0#8

/-- The quotient rounded up. -/
def cdiv (a b : Nat) : Nat := (a + b - 1) / b

/-- Number of set bits among the low `n` bits of `x`. -/
def popcount : Nat → Nat → Nat
  | 0, _ => 0
  | n + 1, x => x % 2 + popcount n (x / 2)

/-- The positions of the set bits of `x` below `n`, ascending. -/
def bitList (n x : Nat) : List Nat := (List.range n).filter (fun i => x.testBit i)

/-- The first `k` elements' sum of a list of integers, exact. -/
def sumInt (l : List Int) : Int := l.foldl (· + ·) 0

/-- Sum of `f` over a list. -/
def sumOver {α : Type} (l : List α) (f : α → Nat) : Nat := l.foldl (fun n x => n + f x) 0

/-- The number whose set bits are `l`. -/
def maskOf (l : List Nat) : Nat := l.foldl (fun m i => m ||| (1 <<< i)) 0

/-- Split into consecutive pieces of `n` elements; the last may be shorter. `fuel` bounds the pieces. -/
def chunksAux {α : Type} (n : Nat) : Nat → List α → List (List α)
  | 0, _ => []
  | _ + 1, [] => []
  | f + 1, l => l.take n :: chunksAux n f (l.drop n)

/-- Consecutive pieces of `n` elements. -/
def chunks {α : Type} (n : Nat) (l : List α) : List (List α) := chunksAux n l.length l

end Sys2Proof.Machine
end

