-- ==== Sys2Proof/Machine/Crc.lean ====
section
/-! DEFINITION. Machine/Crc.lean: the CRC-16 of R40, the CRC-32C of R225 and the CRC-64 of R232. -/
namespace Sys2Proof.Machine

/-- One bit step of a left-shifting CRC of width `w`. -/
def crcBit (w poly r : Nat) : Nat :=
  if r.testBit (w - 1) then ((r <<< 1) % 2 ^ w) ^^^ poly else (r <<< 1) % 2 ^ w

/-- `n` bit steps. -/
def crcBits (w poly : Nat) : Nat → Nat → Nat
  | 0, r => r
  | n + 1, r => crcBits w poly n (crcBit w poly r)

/-- A CRC without reflection over bytes in ascending order. -/
def crcPlain (w poly : Nat) (init : Nat) (b : Bytes) : Nat :=
  b.foldl (fun r x => crcBits w poly 8 (r ^^^ (x.toNat <<< (w - 8)))) init

/-- CRC-16: polynomial 0x1021, initial 0xFFFF, no reflection, no final XOR (R40). -/
def crc16 (b : Bytes) : Nat := crcPlain 16 0x1021 0xFFFF b

/-- CRC-64: ECMA-182 polynomial, no reflection, initial and final XOR all ones (R232). -/
def crc64 (b : Bytes) : Nat :=
  (crcPlain 64 0x42F0E1EBA9EA3693 0xFFFFFFFFFFFFFFFF b) ^^^ 0xFFFFFFFFFFFFFFFF

/-- One bit step of a reflected CRC-32C: 0x82F6_3B78 is 0x1EDC_6F41 with its bits reversed. -/
def crcRefBit (r : Nat) : Nat := if r.testBit 0 then (r >>> 1) ^^^ 0x82F63B78 else r >>> 1

/-- `n` reflected bit steps. -/
def crcRefBits : Nat → Nat → Nat
  | 0, r => r
  | n + 1, r => crcRefBits n (crcRefBit r)

/-- CRC-32C: polynomial 0x1EDC_6F41, reflected, initial and final XOR all ones (R225). -/
def crc32c (b : Bytes) : Nat :=
  (b.foldl (fun r x => crcRefBits 8 (r ^^^ x.toNat)) 0xFFFFFFFF) ^^^ 0xFFFFFFFF

end Sys2Proof.Machine
end

