-- ==== Sys2Proof/Config.lean ====
section
/-! DEFINITION. Config.lean: the values the spec leaves open. Each is an opaque constant: nothing can evaluate it, so a
statement about it holds for every value (log 3). -/
namespace Sys2Proof.Config

/-- Sign and payload bits of a NaN that a VX, BX or XD operation forms from operands `a` and `b`: the spec says only that the
result is a NaN (R140, R244; the arrays' NaN is stated in R75). Log 4. -/
opaque nanBits (a b : Nat) : BitVec 32

/-- Result of the class T stage `stage` on the finite FP32 bits `a`, of which the model takes only values within the spec's 2 ulp (R140). Log 5. -/
opaque classT (stage a : Nat) : BitVec 32

/-- exp of a BX decode or score, of which the model takes only values within 1 ulp (R128). Log 5. -/
opaque expBits (a : Nat) : BitVec 32

/-- sin of a box's yaw, of which the model takes only values within 1 ulp (R128). Log 5. -/
opaque sinBits (a : Nat) : BitVec 32

/-- cos of a box's yaw, of which the model takes only values within 1 ulp (R128). Log 5. -/
opaque cosBits (a : Nat) : BitVec 32

/-- Raw bits that a word with an uncorrectable error returns: the data is only marked poisoned (R189, R203). Log 6. -/
opaque poisonedData (n addr : Nat) : BitVec 8

/-- The 8 check bits of the SRAM word `w` as stored, its data with bit 64 set when it is poisoned: the spec names a SEC-DED code and a reserved poison syndrome and gives
neither (R187). Log 3. -/
opaque checkBits (w data : Nat) : BitVec 8

/-- An ECDSA signature that the device makes: r and then s; key and nonce are not in the spec (R396, R417). Log 35. -/
opaque signature (n : Nat) : BitVec 768

/-- Any other value that the spec leaves open, drawn with the counter `State.chip.free`: `n` is the draw. Log 3. -/
opaque freeWord (n : Nat) : BitVec 64

end Sys2Proof.Config
end

