-- ==== Sys2Proof/Machine/Float.lean ====
section
/-! DEFINITION. Machine/Float.lean: exact dyadic arithmetic, the element encodings of R75 and the roundings of R92, R142 and R143. -/
namespace Sys2Proof.Machine

/-- The exact number `m * 2^e`. -/
structure Dy where
  m : Int
  e : Int
  deriving DecidableEq, Repr

/-- A decoded element: NaN, an infinity, or a finite value with its sign (a zero keeps its sign). -/
inductive Fv where
  | nan
  | inf (neg : Bool)
  | fin (neg : Bool) (m : Nat) (e : Int)
  deriving DecidableEq, Repr

/-- The exact value of a finite element; 0 for the others. -/
def fvDy : Fv → Dy
  | .fin neg m e => ⟨if neg then -(m : Int) else m, e⟩
  | _ => ⟨0, 0⟩

/-- Whether an element is finite. -/
def fvFinite : Fv → Bool
  | .fin .. => true
  | _ => false

/-- `x * 2^k` for a `k` at or above 0. -/
def ishl (x : Int) (k : Nat) : Int := x * (2 ^ k : Nat)

/-- `d` written with the exponent `e`, which is at most `d.e`. -/
def dyAt (d : Dy) (e : Int) : Int := ishl d.m (d.e - e).toNat

/-- Exact sum. -/
def dyAdd (a b : Dy) : Dy :=
  let e := min a.e b.e
  ⟨dyAt a e + dyAt b e, e⟩

/-- Exact negation. -/
def dyNeg (a : Dy) : Dy := ⟨-a.m, a.e⟩

/-- Exact product. -/
def dyMul (a b : Dy) : Dy := ⟨a.m * b.m, a.e + b.e⟩

/-- Exact magnitude. -/
def dyAbs (a : Dy) : Dy := ⟨(a.m.natAbs : Int), a.e⟩

/-- Exact comparison `a < b`. -/
def dyLt (a b : Dy) : Bool :=
  let e := min a.e b.e
  decide (dyAt a e < dyAt b e)

/-- `⌊log2 |d|⌋` of a non-zero number. -/
def dyLog2 (d : Dy) : Int := (Nat.log2 d.m.natAbs : Int) + d.e

/-- `d` truncated toward zero to a multiple of `2^q`, as a count of `2^q`. -/
def dyTrunc (d : Dy) (q : Int) : Int :=
  if q ≤ d.e then dyAt d q
  else
    let k := 2 ^ (q - d.e).toNat
    if d.m < 0 then -((d.m.natAbs / k : Nat) : Int) else ((d.m.natAbs / k : Nat) : Int)

/-- tsum of R92: 0 when every term is 0; otherwise every term truncated toward zero to a multiple of 2^(E − 39), summed exactly. -/
def tsum (l : List Dy) : Dy :=
  let nz := l.filter (fun d => d.m ≠ 0)
  match nz with
  | [] => ⟨0, 0⟩
  | d :: t =>
    let E := t.foldl (fun a x => max a (dyLog2 x)) (dyLog2 d)
    ⟨sumInt (nz.map (fun x => dyTrunc x (E - 39))), E - 39⟩

/-- A natural quotient rounded to nearest, ties to even. -/
def divRne (n d : Nat) : Nat :=
  let q := n / d
  let r := 2 * (n % d)
  if r < d then q else if d < r then q + 1 else q + q % 2

/-- Magnitude code of `m * 2^e`, `m > 0`, in a format of `mb` mantissa bits whose smallest subnormal is `2^qmin`, rounded to nearest with
ties to even and not yet limited to the format's range. -/
def encMag (mb : Nat) (qmin : Int) (m : Nat) (e : Int) : Nat :=
  if m = 0 then 0 else
  let q := max ((Nat.log2 m : Int) + e - mb) qmin
  let r := if q ≤ e then m * 2 ^ (e - q).toNat else divRne m (2 ^ (q - e).toNat)
  r + (q - qmin).toNat * 2 ^ mb

/-- The same toward zero (`up = false`) or away from zero (`up = true`). -/
def encMagDir (up : Bool) (mb : Nat) (qmin : Int) (m : Nat) (e : Int) : Nat :=
  if m = 0 then 0 else
  let q := max ((Nat.log2 m : Int) + e - mb) qmin
  let r := if q ≤ e then m * 2 ^ (e - q).toNat
    else
      let d := 2 ^ (q - e).toNat
      m / d + (if up && m % d ≠ 0 then 1 else 0)
  r + (q - qmin).toNat * 2 ^ mb

/-- FP32 bits of a signed magnitude, RNE, overflow to infinity (rne32 of R92). A zero takes the sign `neg`. -/
def rne32s (neg : Bool) (m : Nat) (e : Int) : Nat :=
  (b2n neg) <<< 31 ||| min (encMag 23 (-149) m e) 0x7F800000

/-- rne32 of an exact number; an exact zero is +0. -/
def rne32 (d : Dy) : Nat := rne32s (decide (d.m < 0)) d.m.natAbs d.e

/-- A magnitude rounded to FP32 toward +∞ (MXCHK_DIFF, R106). -/
def up32 (d : Dy) : Nat := min (encMagDir true 23 (-149) d.m.natAbs d.e) 0x7F800000

/-- A magnitude rounded to FP32 toward −∞ (MXCHK_BAND, R106). -/
def down32 (d : Dy) : Nat := min (encMagDir false 23 (-149) d.m.natAbs d.e) 0x7F7FFFFF

/-- An IEEE binary format with infinities: `eb` exponent bits, `mb` mantissa bits. -/
def decIeee (eb mb x : Nat) : Fv :=
  let neg := x.testBit (eb + mb)
  let ex := bits x (eb + mb - 1) mb
  let ma := x % 2 ^ mb
  let bias : Int := (2 ^ (eb - 1) : Nat) - 1
  if ex = 2 ^ eb - 1 then (if ma = 0 then .inf neg else .nan)
  else if ex = 0 then .fin neg ma (1 - bias - mb)
  else .fin neg (ma + 2 ^ mb) ((ex : Int) - bias - mb)

/-- FP32. -/
def decF32 (x : Nat) : Fv := decIeee 8 23 x
/-- FP16. -/
def decF16 (x : Nat) : Fv := decIeee 5 10 x
/-- BF16: the upper 16 bits of FP32. -/
def decBf16 (x : Nat) : Fv := decIeee 8 7 x
/-- FP8 E5M2. -/
def decE5M2 (x : Nat) : Fv := decIeee 5 2 x

/-- FP8 E4M3: S.1111.111 is NaN, no infinity (R75). -/
def decE4M3 (x : Nat) : Fv :=
  let neg := x.testBit 7
  let ex := bits x 6 3
  let ma := x % 8
  if ex = 15 ∧ ma = 7 then .nan
  else if ex = 0 then .fin neg ma (-9)
  else .fin neg (ma + 8) ((ex : Int) - 10)

/-- E2M1, the MXFP4 element (R75). -/
def decE2M1 (x : Nat) : Fv :=
  let neg := x.testBit 3
  let ex := bits x 2 1
  let ma := x % 2
  if ex = 0 then .fin neg ma (-1) else .fin neg (ma + 2) ((ex : Int) - 2)

/-- An element scaled by the E8M0 byte `X` (R77). -/
def fvScale (X : Nat) (v : Fv) : Fv :=
  if X = 255 then .nan
  else match v with
    | .fin neg m e => .fin neg m (e + (X : Int) - 127)
    | w => w

/-- The NaN that the arrays generate (R75). -/
def arrayNaN : Nat := 0x7FC00000

/-- A NaN that a VX, BX or XD operation forms: quiet, sign and payload free. -/
def freeNaN (a b : Nat) : Nat := ((Config.nanBits a b) ||| 0x7FC00000#32).toNat

/-- Whether FP32 bits are a NaN. -/
def isNaN32 (x : Nat) : Bool := decide (0x7F800000 < x % 2 ^ 31)
/-- Whether FP32 bits are an infinity. -/
def isInf32 (x : Nat) : Bool := decide (x % 2 ^ 31 = 0x7F800000)
/-- Whether FP32 bits are finite. -/
def isFin32 (x : Nat) : Bool := decide (x % 2 ^ 31 < 0x7F800000)
/-- Sign bit of FP32 bits. -/
def neg32 (x : Nat) : Bool := x.testBit 31
/-- Infinity of a sign. -/
def inf32 (neg : Bool) : Nat := (b2n neg) <<< 31 ||| 0x7F800000
/-- Zero of a sign. -/
def zero32 (neg : Bool) : Nat := (b2n neg) <<< 31

/-- Exact value of finite FP32 bits. -/
def dy32 (x : Nat) : Dy := fvDy (decF32 x)

/-- Numeric order key of non-NaN FP32 bits: −0 and +0 are equal. -/
def key32 (x : Nat) : Int := if neg32 x then -((x % 2 ^ 31 : Nat) : Int) else ((x % 2 ^ 31 : Nat) : Int)

/-- `a < b` in FP32; false when either is NaN. -/
def lt32 (a b : Nat) : Bool := !isNaN32 a && !isNaN32 b && decide (key32 a < key32 b)
/-- `a ≥ b` in FP32; false when either is NaN. -/
def ge32 (a b : Nat) : Bool := !isNaN32 a && !isNaN32 b && decide (key32 b ≤ key32 a)

/-- FP32 negation. -/
def fneg (a : Nat) : Nat := (a % 2 ^ 32) ^^^ 0x80000000
/-- FP32 magnitude. -/
def fabs (a : Nat) : Nat := a % 2 ^ 31

/-- FP32 addition, RNE (IEEE 754), a generated NaN being `nan`. -/
def faddN (nan a b : Nat) : Nat :=
  if isNaN32 a || isNaN32 b then nan
  else if isInf32 a then (if isInf32 b && neg32 a != neg32 b then nan else inf32 (neg32 a))
  else if isInf32 b then inf32 (neg32 b)
  else
    let s := dyAdd (dy32 a) (dy32 b)
    if s.m = 0 then zero32 (neg32 a && neg32 b) else rne32 s

/-- FP32 addition of a VX, BX or XD. -/
def fadd (a b : Nat) : Nat := faddN (freeNaN a b) a b
/-- FP32 subtraction. -/
def fsub (a b : Nat) : Nat := fadd a (fneg b)

/-- FP32 multiplication, RNE. -/
def fmul (a b : Nat) : Nat :=
  let neg := neg32 a != neg32 b
  if isNaN32 a || isNaN32 b then freeNaN a b
  else if isInf32 a || isInf32 b then
    (if fabs a = 0 || fabs b = 0 then freeNaN a b else inf32 neg)
  else
    let p := dyMul (dy32 a) (dy32 b)
    rne32s neg p.m.natAbs p.e

/-- Quotient of magnitudes with a sticky bit, 64 bits below the point: enough for one correct rounding to FP32. -/
def quoSticky (m n : Nat) : Nat :=
  let k := 64 + Nat.log2 (n + 1)
  let q := (m <<< k) / n
  2 * q + (if (m <<< k) % n = 0 then 0 else 1)

/-- FP32 division, RNE. -/
def fdiv (a b : Nat) : Nat :=
  let neg := neg32 a != neg32 b
  if isNaN32 a || isNaN32 b then freeNaN a b
  else if isInf32 a then (if isInf32 b then freeNaN a b else inf32 neg)
  else if isInf32 b then zero32 neg
  else if fabs b = 0 then (if fabs a = 0 then freeNaN a b else inf32 neg)
  else
    let x := dy32 a
    let y := dy32 b
    let n := y.m.natAbs
    rne32s neg (quoSticky x.m.natAbs n) (x.e - y.e - 65 - (Nat.log2 (n + 1) : Int))

/-- Newton's integer square root, `fuel` halvings. -/
def isqrtAux : Nat → Nat → Nat → Nat
  | 0, _, r => r
  | f + 1, n, r =>
    let s := (r + n / r) / 2
    if s < r then isqrtAux f n s else r

/-- `⌊√n⌋`. -/
def isqrt (n : Nat) : Nat := if n = 0 then 0 else isqrtAux (Nat.log2 n + 8) n (2 ^ (Nat.log2 n / 2 + 1))

/-- FP32 square root, RNE. -/
def fsqrt (a : Nat) : Nat :=
  if isNaN32 a then freeNaN a 0
  else if fabs a = 0 then a
  else if neg32 a then freeNaN a 0
  else if isInf32 a then inf32 false
  else
    let x := dy32 a
    -- an even exponent and 128 extra bits: √(M·2^(2k)) = √M·2^k
    let odd := x.e % 2 ≠ 0
    let M := (x.m.natAbs <<< (if odd then 1 else 0)) <<< 128
    let k := ((if odd then x.e - 1 else x.e) - 128) / 2
    let r := isqrt M
    rne32s false (2 * r + (if r * r = M then 0 else 1)) (k - 1)

/-- 1 / a, RNE. -/
def frecip (a : Nat) : Nat := fdiv 0x3F800000 a

/-- 1 / √a, RNE of the exact value: the quotient of 1 by √a with a sticky bit. -/
def frsqrt (a : Nat) : Nat :=
  if isNaN32 a then freeNaN a 0
  else if fabs a = 0 then inf32 (neg32 a)
  else if neg32 a then freeNaN a 0
  else if isInf32 a then 0
  else
    let x := dy32 a
    let odd := x.e % 2 ≠ 0
    let m := x.m.natAbs <<< (if odd then 1 else 0)
    let k := (if odd then x.e - 1 else x.e) / 2
    -- 2^128/√m = √(2^256/m)
    let N := 2 ^ 256 / m
    let r := isqrt N
    let exact := r * r = N ∧ 2 ^ 256 % m = 0
    rne32s false (2 * r + (if exact then 0 else 1)) (-128 - k - 1)

/-- MAX of R140: NaN if either is NaN; +0 ranks above −0. -/
def fmax (a b : Nat) : Nat :=
  if isNaN32 a || isNaN32 b then freeNaN a b
  else if key32 a = key32 b then (if neg32 a then b else a)
  else if key32 a < key32 b then b else a

/-- MIN of R140: NaN if either is NaN; +0 ranks above −0. -/
def fmin (a b : Nat) : Nat :=
  if isNaN32 a || isNaN32 b then freeNaN a b
  else if key32 a = key32 b then (if neg32 a then a else b)
  else if key32 a < key32 b then a else b

/-- An exact quotient `x / d`, `d > 0`, rounded by mode `rnd` of R142: 0 nearest even, 1 nearest away, 2 toward zero, 3 toward −∞. -/
def roundDiv (rnd : Nat) (x : Int) (d : Nat) : Int :=
  let a := x.natAbs
  let q := a / d
  let r := a % d
  let sgn := fun (n : Nat) => if x < 0 then -(n : Int) else (n : Int)
  match rnd with
  | 0 => sgn (divRne a d)
  | 1 => sgn (if 2 * r < d then q else q + 1)
  | 2 => sgn q
  | _ => if x < 0 ∧ r ≠ 0 then -(q : Int) - 1 else sgn q

/-- An exact dyadic rounded to an integer by mode `rnd`. -/
def roundDy (rnd : Nat) (d : Dy) : Int :=
  if 0 ≤ d.e then ishl d.m d.e.toNat else roundDiv rnd d.m (2 ^ (-d.e).toNat)

/-- FP32 bits of an integer times `2^k`, RNE. -/
def intToF32 (x : Int) (k : Int) : Nat := rne32 ⟨x, k⟩

/-- FP16 of FP32 bits, RNE, overflow to infinity, NaN 0x7E00 (R143). -/
def toF16 (x : Nat) : Nat :=
  if isNaN32 x then 0x7E00
  else if isInf32 x then (b2n (neg32 x)) <<< 15 ||| 0x7C00
  else
    let d := dy32 x
    (b2n (neg32 x)) <<< 15 ||| min (encMag 10 (-24) d.m.natAbs d.e) 0x7C00

/-- BF16 of FP32 bits, RNE, overflow to infinity, NaN 0x7FC0 (R143). -/
def toBf16 (x : Nat) : Nat :=
  if isNaN32 x then 0x7FC0
  else if isInf32 x then (b2n (neg32 x)) <<< 15 ||| 0x7F80
  else
    let d := dy32 x
    (b2n (neg32 x)) <<< 15 ||| min (encMag 7 (-133) d.m.natAbs d.e) 0x7F80

/-- FP8 E4M3 of FP32 bits, RNE then saturated to ±448, NaN 0x7F (R143). -/
def toE4M3 (x : Nat) : Nat :=
  if isNaN32 x then 0x7F
  else if isInf32 x then (b2n (neg32 x)) <<< 7 ||| 0x7E
  else
    let d := dy32 x
    (b2n (neg32 x)) <<< 7 ||| min (encMag 3 (-9) d.m.natAbs d.e) 0x7E

/-- FP8 E5M2 of FP32 bits, RNE then saturated to ±57,344, NaN 0x7F (R143). -/
def toE5M2 (x : Nat) : Nat :=
  if isNaN32 x then 0x7F
  else if isInf32 x then (b2n (neg32 x)) <<< 7 ||| 0x7B
  else
    let d := dy32 x
    (b2n (neg32 x)) <<< 7 ||| min (encMag 2 (-16) d.m.natAbs d.e) 0x7B

/-- Exact comparison of two FP32 values, `|a − b| ≤ t` with the differences exact (R153); a NaN or an unequal infinity fails. -/
def withinF32 (a b t : Nat) : Bool :=
  if isNaN32 a && isNaN32 b then true
  else if isInf32 a && isInf32 b && neg32 a == neg32 b then true
  else if isFin32 a && isFin32 b then
    (if isInf32 t && !neg32 t then true
     else isFin32 t && !dyLt (dy32 t) (dyAbs (dyAdd (dy32 a) (dyNeg (dy32 b)))))
  else false

/-- Element `x` of an MX block as a value: its element format (0x0A E4M3, 0x0B E5M2, 0x0C E2M1) and scale byte (R77); an MXINT8 element is
n × 2^−6 × 2^(X − 127) (R75, R140). -/
def decMx (fmt x X : Nat) : Fv :=
  match fmt with
  | 0x0A => fvScale X (decE4M3 x)
  | 0x0B => fvScale X (decE5M2 x)
  | 0x0C => fvScale X (decE2M1 x)
  | _ => fvScale X (let n := sext 8 x; .fin (decide (n < 0)) n.natAbs (-6))

/-- A decoded value as FP32 bits, RNE; a NaN is `nan`. -/
def fvToF32 (nan : Nat) : Fv → Nat
  | .nan => nan
  | .inf neg => inf32 neg
  | .fin neg m e => rne32s neg m e

/-- Scale and elements of one MX block of FP32 values (R144), and the number of infinities that took the largest element. -/
def mxBlock (fmt : Nat) (vs : List Nat) : Nat × List Nat × Nat :=
  if vs.any isNaN32 then (255, vs.map (fun _ => 0), 0) else
  let emax : Int := match fmt with | 0x0A => 8 | 0x0B => 15 | 0x0C => 2 | _ => 0
  let fs := (vs.filter isFin32).map fabs
  let amax := fs.foldl max 0
  let X : Nat := if amax = 0 then 127 else (clampInt 0 254 (dyLog2 (dy32 amax) - emax + 127)).toNat
  let enc := fun v =>
    let s := b2n (neg32 v)
    let d := dy32 v
    let u : Dy := ⟨d.m, d.e - ((X : Int) - 127)⟩
    match fmt with
    | 0x0A => s <<< 7 ||| (if isInf32 v then 0x7E else min (encMag 3 (-9) u.m.natAbs u.e) 0x7E)
    | 0x0B => s <<< 7 ||| (if isInf32 v then 0x7B else min (encMag 2 (-16) u.m.natAbs u.e) 0x7B)
    | 0x0C => s <<< 3 ||| (if isInf32 v then 7 else min (encMag 1 (-1) u.m.natAbs u.e) 7)
    | _ =>
      if isInf32 v then wrap 8 (if neg32 v then -127 else 127)
      else wrap 8 (clampInt (-127) 127 (roundDy 0 ⟨u.m, u.e + 6⟩))
  (X, vs.map enc, (vs.filter isInf32).length)

end Sys2Proof.Machine
end

