-- ==== Sys2Proof/Machine/Operands.lean ====
section
/-! DEFINITION. Machine/Operands.lean: command descriptors (R60), tile headers (R39), element formats and layouts (R42, R43, R75, R76, R109), and the
zero-compressed form (R123). -/
namespace Sys2Proof.Machine

/-! ### Command descriptors -/

/-- Opcode (R60). -/
def dOp (d : Nat) : Nat := bits d 7 0
/-- Station type code (R38). -/
def dType (d : Nat) : Nat := bits d 11 8
/-- Layer identifier (R62). -/
def dLayer (d : Nat) : Nat := bits d 31 16
/-- Operator identifier (R62). -/
def dOpId (d : Nat) : Nat := bits d 47 32
/-- Output index of out_q0. -/
def dOutIx (d : Nat) : Nat := bits d 55 48
/-- FENCE (R63). -/
def dFence (d : Nat) : Bool := bit d 64
/-- EOS: write an EOS marker after the last tile. -/
def dEos (d : Nat) : Bool := bit d 65
/-- Input queues used. -/
def dNin (d : Nat) : Nat := bits d 73 72
/-- Output queues used. -/
def dNout (d : Nat) : Nat := bits d 75 74
/-- tile_count. -/
def dTiles (d : Nat) : Nat := bits d 95 80
/-- Queue number of in_q`k`. -/
def dInQ (d k : Nat) : Nat := bits d (108 + 16 * k) (96 + 16 * k)
/-- Queue number of out_q`k`. -/
def dOutQ (d k : Nat) : Nat := bits d (156 + 16 * k) (144 + 16 * k)

/-! ### Formats and layouts -/

/-- Bits of an element of a format (R42, R75); a box record is 32 B. -/
def elemBits (f : Nat) : Nat :=
  match f with
  | 0x01 | 0x0C => 4
  | 0x04 | 0x05 | 0x10 | 0x11 => 16
  | 0x06 | 0x12 | 0x21 => 32
  | 0x20 => 256
  | _ => 8

/-- Whether a format code is allowed (R42). -/
def fmtOk (f : Nat) : Bool :=
  decide (f ≤ 0x06) || (decide (0x08 ≤ f) && decide (f ≤ 0x0D)) || (decide (0x10 ≤ f) && decide (f ≤ 0x12)) || f == 0x20 || f == 0x21

/-- Whether a format is an OCP MX format. -/
def isMx (f : Nat) : Bool := decide (0x0A ≤ f) && decide (f ≤ 0x0D)

/-- Whether a format is an integer format, whose elements enter as INT32 (R140). -/
def isIntFmt (f : Nat) : Bool := decide (1 ≤ f) && decide (f ≤ 6)

/-- Whether a format's elements are worked on as INT32: the integer formats and the index format (R140; log 17). -/
def workInt (f : Nat) : Bool := isIntFmt f || f == 0x21

/-- Whether a format is floating or MX, whose elements enter as FP32 (R140). -/
def isFpFmt (f : Nat) : Bool := f == 8 || f == 9 || isMx f || f == 0x10 || f == 0x11 || f == 0x12

/-- Whether a layout code is allowed with a format (R43). -/
def layOk (lay f : Nat) : Bool :=
  match lay with
  | 0 => true
  | 1 => elemBits f == 16
  | 2 => f != 0 && elemBits f ≤ 8
  | 3 => f == 0x20
  | 4 => f == 0x21
  | _ => false

/-- Channels of one pixel block of a blocked layout (R109). -/
def blockC (lay : Nat) : Nat := if lay = 1 then 16 else 32

/-- Bytes of one pixel block (R109). -/
def blockRun (lay f : Nat) : Nat := blockC lay * elemBits f / 8 + b2n (isMx f)

/-- Bytes of one run of `c` elements in layout 0 of an MX format (R76). -/
def mxRun (f c : Nat) : Nat := c * elemBits f / 8 + c / 32

/-- Packed size of n × h × w × c elements (R44, R76, R109). -/
def packedSize (f lay h w c n : Nat) : Nat :=
  if lay = 1 ∨ lay = 2 then n * cdiv c (blockC lay) * h * w * blockRun lay f
  else if isMx f then n * h * w * mxRun f c
  else cdiv (n * h * w * c * elemBits f) 8

/-- An element's place: n, h, w, c. -/
structure Coord where
  n : Nat
  h : Nat
  w : Nat
  c : Nat
  deriving DecidableEq, Repr

/-- Coordinates of a tile's elements in payload order (R43, R109). -/
def coords (lay h w c n : Nat) : List Coord :=
  (List.range n).flatMap fun a =>
    if lay = 1 ∨ lay = 2 then
      (List.range (cdiv c (blockC lay))).flatMap fun b =>
        (List.range h).flatMap fun y => (List.range w).flatMap fun x =>
          ((List.range (blockC lay)).map (fun k => b * blockC lay + k)).filterMap fun k =>
            if k < c then some ⟨a, y, x, k⟩ else none
    else
      (List.range h).flatMap fun y => (List.range w).flatMap fun x => (List.range c).map fun k => ⟨a, y, x, k⟩

/-- Byte offset and bit offset in that byte of an element's code. -/
def elemPos (f lay h w c : Nat) (p : Coord) : Nat × Nat :=
  let eb := elemBits f
  if lay = 1 ∨ lay = 2 then
    let b := blockC lay
    let pix := ((p.n * cdiv c b + p.c / b) * h + p.h) * w + p.w
    (pix * blockRun lay f + (p.c % b) * eb / 8, (p.c % b) * eb % 8)
  else
    let i := (p.n * h + p.h) * w + p.w
    if isMx f then (i * mxRun f c + p.c * eb / 8, p.c * eb % 8)
    else ((i * c + p.c) * eb / 8, (i * c + p.c) * eb % 8)

/-- Byte offset of the scale of an element's MX block (R76). -/
def scalePos (f lay h w c : Nat) (p : Coord) : Nat :=
  if lay = 1 ∨ lay = 2 then
    let b := blockC lay
    let pix := ((p.n * cdiv c b + p.c / b) * h + p.h) * w + p.w
    pix * blockRun lay f + blockRun lay f - 1
  else
    let i := (p.n * h + p.h) * w + p.w
    i * mxRun f c + c * elemBits f / 8 + p.c / 32

/-- Code of `eb` bits at a byte and bit offset. -/
def codeAt (a : Array Byte) (eb : Nat) (pos : Nat × Nat) : Nat :=
  if eb < 8 then ((a.getD pos.1 0#8).toNat >>> pos.2) % 2 ^ eb
  else (List.range (eb / 8)).foldr (fun i r => (a.getD (pos.1 + i) 0#8).toNat + 256 * r) 0

/-- Code and scale of every element of a tile, in payload order; the scale of a format without one is 127. -/
def unpack (f lay h w c n : Nat) (b : Bytes) : List (Coord × Nat × Nat) :=
  let a := b.toArray
  (coords lay h w c n).map fun p =>
    (p, codeAt a (elemBits f) (elemPos f lay h w c p),
      if isMx f then (a.getD (scalePos f lay h w c p) 0#8).toNat else 127)

/-- Codes of `eb` bits packed into bytes; of a byte's two 4-bit codes the first lies in [3:0] (R75). -/
def packCodes (eb : Nat) : List Nat → Bytes
  | [] => []
  | x :: t =>
    if eb = 4 then
      match t with
      | [] => [BitVec.ofNat 8 (x % 16)]
      | y :: u => BitVec.ofNat 8 (x % 16 + 16 * (y % 16)) :: packCodes eb u
    else toLE (eb / 8) x ++ packCodes eb t

/-- A payload from the codes of its elements in the order n, h, w, c, and for an MX format the scale of each block of 32 in the same order. -/
def pack (f lay h w c n : Nat) (codes scales : List Nat) : Bytes :=
  let a := codes.toArray
  let s := scales.toArray
  let nb := cdiv c 32
  let eb := elemBits f
  if lay = 1 ∨ lay = 2 then
    let b := blockC lay
    (List.range n).flatMap fun i => (List.range (cdiv c b)).flatMap fun j =>
      (List.range h).flatMap fun y => (List.range w).flatMap fun x =>
        let pix := (i * h + y) * w + x
        packCodes eb ((List.range b).map fun k => if j * b + k < c then a.getD (pix * c + j * b + k) 0 else 0)
          ++ (if isMx f then [BitVec.ofNat 8 (s.getD (pix * nb + j) 127)] else [])
  else if isMx f then
    (List.range (n * h * w)).flatMap fun pix =>
      packCodes eb ((List.range c).map fun k => a.getD (pix * c + k) 0)
        ++ (List.range (c / 32)).map fun j => BitVec.ofNat 8 (s.getD (pix * nb + j) 127)
  else packCodes eb codes

/-- The coordinates of a tile in the order n, h, w, c. -/
def rowMajor (h w c n : Nat) : List Coord := coords 0 h w c n

/-! ### Tile headers -/

/-- The fields a header is built from (R39). -/
structure Hdr where
  job : Nat
  fmt : Nat
  lay : Nat
  pois : Bool
  prov : Bool
  eos : Bool
  zcomp : Bool
  turn : Nat
  layer : Nat
  op : Nat
  seq : Nat
  outIx : Nat
  h : Nat
  w : Nat
  c : Nat
  n : Nat
  len : Nat
  part : Nat
  contrib : Nat
  deriving DecidableEq, Repr

/-- A header's 240 bits without hcrc (R39). -/
def hdrBody (x : Hdr) : Nat :=
  1 + (x.job % 256) <<< 8 + (x.fmt % 256) <<< 16 + (x.lay % 16) <<< 24 + (b2n x.pois) <<< 28 + (b2n x.prov) <<< 29
    + (b2n x.eos) <<< 30 + (b2n x.zcomp) <<< 31 + (x.turn % 2 ^ 32) <<< 32 + (x.layer % 65536) <<< 64
    + (x.op % 65536) <<< 80 + (x.seq % 2 ^ 24) <<< 96 + (x.outIx % 256) <<< 120 + (x.h % 65536) <<< 128
    + (x.w % 65536) <<< 144 + (x.c % 65536) <<< 160 + (x.n % 65536) <<< 176 + (x.len % 2 ^ 20) <<< 192
    + (x.part % 4) <<< 212 + (x.contrib % 65536) <<< 216

/-- hcrc over header bytes 0–29 (R40). -/
def hdrCrc (h : Nat) : Nat := crc16 (toLE 30 h)

/-- The header with its hcrc (R39). -/
def sealHdr (h : Nat) : Nat := h % 2 ^ 240 + (hdrCrc (h % 2 ^ 240)) <<< 240

/-- A complete header. -/
def mkHdr (x : Hdr) : Nat := sealHdr (hdrBody x)

/-- job of a header. -/
def hJob (h : Nat) : Nat := bits h 15 8
/-- format of a header. -/
def hFmt (h : Nat) : Nat := bits h 23 16
/-- layout of a header. -/
def hLay (h : Nat) : Nat := bits h 27 24
/-- POISON of a header. -/
def hPois (h : Nat) : Bool := bit h 28
/-- PROVISIONAL of a header. -/
def hProv (h : Nat) : Bool := bit h 29
/-- EOS of a header. -/
def hEos (h : Nat) : Bool := bit h 30
/-- ZCOMP of a header. -/
def hZcomp (h : Nat) : Bool := bit h 31
/-- turn of a header. -/
def hTurn (h : Nat) : Nat := bits h 63 32
/-- seq of a header. -/
def hSeq (h : Nat) : Nat := bits h 119 96
/-- out_index of a header. -/
def hOutIx (h : Nat) : Nat := bits h 127 120
/-- dim_h of a header. -/
def hH (h : Nat) : Nat := bits h 143 128
/-- dim_w of a header. -/
def hW (h : Nat) : Nat := bits h 159 144
/-- dim_c of a header. -/
def hC (h : Nat) : Nat := bits h 175 160
/-- dim_n of a header. -/
def hN (h : Nat) : Nat := bits h 191 176
/-- payload_len of a header. -/
def hLen (h : Nat) : Nat := bits h 211 192
/-- part of a header. -/
def hPart (h : Nat) : Nat := bits h 213 212
/-- contrib_id of a header. -/
def hContrib (h : Nat) : Nat := bits h 231 216

/-- Packed size that a header's dims give. -/
def hPacked (h : Nat) : Nat := packedSize (hFmt h) (hLay h) (hH h) (hW h) (hC h) (hN h)

/-- R44: payload_len against the dims, and the fields of an EOS marker; an MX tile has dim_c a multiple of 32 (R76). -/
def shapeOk (h : Nat) : Bool :=
  if hEos h then
    hLen h == 0 && hH h == 0 && hW h == 0 && hC h == 0 && hN h == 0 && !hPois h && !hZcomp h
  else
    decide (1 ≤ hH h) && decide (1 ≤ hW h) && decide (1 ≤ hC h) && decide (1 ≤ hN h)
      && (if hZcomp h then decide (hLen h ≤ hPacked h) && decide (1 ≤ hLen h) && decide (hLay h ≤ 2) else hLen h == hPacked h)
      && (!isMx (hFmt h) || hC h % 32 == 0)

/-- The checks of R47 that need no queue: hcrc, reserved fields, hdr_version, format, layout and R44. -/
def hdrSelfOk (h : Nat) : Bool :=
  bits h 255 240 == hdrCrc (h % 2 ^ 240) && bits h 215 214 == 0 && bits h 239 232 == 0 && bits h 7 0 == 1
    && fmtOk (hFmt h) && layOk (hLay h) (hFmt h) && shapeOk h

/-! ### Zero-compressed storage (R123) -/

/-- The record of one 64-byte line: a u64 mask of its non-zero bytes, then those bytes. -/
def zRecord (line : Bytes) : Bytes :=
  let l := padTo 64 line
  toLE 8 (maskOf ((List.range 64).filter (fun i => l.getD i 0#8 ≠ 0#8))) ++ l.filter (fun b => b ≠ 0#8)

/-- The offsets of each record, from `off`. -/
def zOffsets : Nat → List Bytes → List Nat
  | _, [] => []
  | off, r :: t => off :: zOffsets (off + r.length) t

/-- A payload in zero-compressed form. -/
def zCompress (b : Bytes) : Bytes :=
  let recs := (chunks 64 b).map zRecord
  let dirLen := 4 * cdiv recs.length 8
  let offs := zOffsets dirLen recs
  let dir := (List.range (cdiv recs.length 8)).flatMap fun g => toLE 4 (offs.getD (8 * g) 0)
  dir ++ recs.flatMap id

/-- One line expanded from the records at `b`: the line and what follows its record. -/
def zLine (b : Bytes) : Bytes × Bytes :=
  let m := leAt b 0 8
  let body := b.drop 8
  let idx := bitList 64 m
  let vals := (body.take idx.length).toArray
  ((List.range 64).map (fun i => if m.testBit i then vals.getD (popcount i m) 0#8 else 0#8), body.drop idx.length)

/-- `n` lines expanded one after another. -/
def zLines : Nat → Bytes → Bytes
  | 0, _ => []
  | n + 1, b => let r := zLine b; r.1 ++ zLines n r.2

/-- A zero-compressed payload expanded to `size` bytes. -/
def zExpand (size : Nat) (b : Bytes) : Bytes :=
  let L := cdiv size 64
  (zLines L (b.drop (4 * cdiv L 8))).take size

/-- A payload compressed where that is no longer than the packed size (R124), and its ZCOMP. -/
def zTry (b : Bytes) : Bytes × Bool :=
  let z := zCompress b
  if z.length ≤ b.length then (z, true) else (b, false)

end Sys2Proof.Machine
end

