-- ==== Sys2Proof/Machine/Flags.lean ====
section
/-! DEFINITION. Machine/Flags.lean: the flags that an output tile inherits (R45), the sums that closing checks compare (R98–R100, R232, R245), and the
status codes of R65. -/
namespace Sys2Proof.Machine

/-- Command status codes (R65). -/
def stOk : Nat := 0
/-- Ended by an EOS marker. -/
def stEosEarly : Nat := 1
/-- Ended under R46. -/
def stPoisoned : Nat := 2
/-- A remote write met a closed window. -/
def stWindowClosed : Nat := 3
/-- The job was terminated by another station's fault. -/
def stAborted : Nat := 4
/-- An access passed a task bound. -/
def stBound : Nat := 5
/-- Ended under R56. -/
def stSlotViolation : Nat := 6
/-- Ended under R47. -/
def stHdrError : Nat := 7
/-- Ended under R55. -/
def stTimeout : Nat := 8

/-- Whether an integer format is signed for isum (R232): UINT8, UINT16 and index formats are not. -/
def isumSigned (f : Nat) : Bool := !(f == 3 || f == 5 || f == 0x21)

/-- Whether a format's elements enter isum (R232). -/
def isumFmt (f : Nat) : Bool := isIntFmt f || f == 0x0D || f == 0x21

/-- isum of one tile: the sum modulo 2^64 of every element, scale bytes excluded (R232). -/
def isumTile (f lay h w c n : Nat) (payload : Bytes) : Nat :=
  let eb := elemBits f
  (unpack f lay h w c n payload).foldl (fun s x =>
    wrap 64 ((s : Int) + (if isumSigned f then sext eb x.2.1 else (x.2.1 : Int)))) 0

/-- CRC-64 continued over more bytes, before the final XOR (R232). -/
def crc64Step (r : Nat) (b : Bytes) : Nat := crcPlain 64 0x42F0E1EBA9EA3693 r b

/-- CRC-64 closed. -/
def crc64Done (r : Nat) : Nat := r ^^^ 0xFFFFFFFFFFFFFFFF

end Sys2Proof.Machine
end

