-- ==== Sys2Proof/Machine/RegMap.lean ====
section
/-! DEFINITION. Machine/RegMap.lean: the offsets of the control-space register blocks. -/
namespace Sys2Proof.Machine

/-- QDESC[q] word w (R69). -/
def qdescOff (q w : Nat) : Nat := 0x10000 + 0x10 * q + 4 * w
/-- QSTAT0[q] (R69); QSTAT1[q] follows it. -/
def qstatOff (q : Nat) : Nat := 0x20000 + 8 * q
/-- QERR_STATUS (R69). -/
def qerrStatus : Nat := 0x30000
/-- QERR_DETAIL (R69). -/
def qerrDetail : Nat := 0x30004
/-- Station block of local station s (R67). -/
def stBlk (s : Nat) : Nat := 0x40000 + 0x40 * s
/-- MX block of core c (R106). -/
def mxBlk (c : Nat) : Nat := 0x50000 + 0x40 * c
/-- BX block (R135). -/
def bxBlk : Nat := 0x60000
/-- WF block of core c (R135). -/
def wfBlk (c : Nat) : Nat := 0x60100 + 0x40 * c
/-- VX block of core c (R163). -/
def vxBlk (c : Nat) : Nat := 0x70000 + 0x40 * c
/-- DM block of core c, or of headstock data mover c (R163). -/
def dmBlk (c : Nat) : Nat := 0x70400 + 0x40 * c
/-- Task table entry k (R174). -/
def taskBlk (k : Nat) : Nat := 0x80000 + 0x40 * k
/-- Window table entry w (R186). -/
def winBlk (w : Nat) : Nat := 0x90000 + 0x20 * w
/-- SRAM error and bound block (R192). -/
def sramBlk : Nat := 0xA0000
/-- DDR block of subchannel s (R222). -/
def ddrBlk (s : Nat) : Nat := 0xB0000 + 0x100 * s
/-- XD and link block; on the headstock die 0x40 × d is added for the link to CDd (R246). -/
def xdBlk : Nat := 0xC0000
/-- Sensor port block (R281). -/
def spBlk (p : Nat) : Nat := 0xD0000 + 0x80 * p
/-- Ethernet port block (R317). -/
def epBlk (n : Nat) : Nat := 0xE0000 + 0x80 * n
/-- LD_STAT[l] (R317). -/
def ldStat (l : Nat) : Nat := 0xE0800 + 4 * l
/-- Time unit block (R318). -/
def timeBlk : Nat := 0xF0000
/-- Turn block of a compute die (R340) and of the headstock die (R341). -/
def tsBlk : Nat := 0x100000
/-- Blank block of a compute die (R358). -/
def blkBlk : Nat := 0x110000
/-- Gate block of partition p on the headstock die (R366). -/
def gateBlk (p : Nat) : Nat := 0x110000 + 0x40 * p
/-- Collector block on the headstock die (R398), concentrator block on a compute die (R399). -/
def fcBlk : Nat := 0x120000
/-- Start block (R445). -/
def startBlk : Nat := 0x130000
/-- Mailbox block (R468). -/
def mbBlk : Nat := 0x140000
/-- Counter block of local station s (R475). -/
def cntBlk (s : Nat) : Nat := 0x150000 + 0x200 * s
/-- Observation block (R494). -/
def obsBlk : Nat := 0x160000
/-- Power block (R512) or island block (R513). -/
def pwrBlk : Nat := 0x170000

/-- First device address of a die (R9). -/
def dieBase (d : Nat) : Nat := d <<< 44
/-- Die buffer or headstock buffer (R28, R30). -/
def dbBase : Nat := 0x80000000000
/-- Core buffer of core c (R28). -/
def cbBase (c : Nat) : Nat := 0x80100000000 + c * 0x400000
/-- Drain store of core c (R28). -/
def dsBase (c : Nat) : Nat := 0x80200000000 + c * 0x100000
/-- Control space (R28). -/
def ctlBase : Nat := 0xF0000000000

/-- What a device address names (R28–R30). -/
inductive Target where
  | ddr (die addr : Nat)
  | db (die off : Nat)
  | cb (die core off : Nat)
  | ds (die core off : Nat)
  | ctl (die off : Nat)
  | unlisted
  deriving DecidableEq, Repr

/-- The target of a 48-bit device address; `usable` is the die's usable DDR5 capacity (R29). -/
def decodeAddr (usable : Nat → Nat) (a : Nat) : Target :=
  let d := a >>> 44
  let l := a % 2 ^ 44
  if 8 ≤ d then .unlisted
  else if ctlBase ≤ l ∧ l < ctlBase + 0x1000000 then .ctl d (l - ctlBase)
  else if dbBase ≤ l ∧ l < dbBase + (if d = 0 then 0x1000000 else 0x2000000) then .db d (l - dbBase)
  else if d = 0 then .unlisted
  else if cbBase 0 ≤ l ∧ l < cbBase 9 then .cb d ((l - cbBase 0) / 0x400000) ((l - cbBase 0) % 0x400000)
  else if dsBase 0 ≤ l ∧ l < dsBase 9 then .ds d ((l - dsBase 0) / 0x100000) ((l - dsBase 0) % 0x100000)
  else if l < usable d then .ddr d l
  else .unlisted

/-- Where row r of array a of core c lies (R94). -/
def rowAddr (d c a r : Nat) : Nat := dieBase d + dsBase c + a * 0x40000 + r * 0x100

/-- The FSW bit whose line bit `i` of the status register at `off` of die `d` raises, if any (R541). -/
def lineBit (d off i : Nat) : Option Nat :=
  if d = 0 then
    if off = sramBlk then (if i = 0 ∨ i = 1 ∨ i = 2 ∨ i = 4 then some 7 else none)
    else if off = qerrStatus then (if i = 1 ∨ i = 2 then some 7 else none)
    else if off = tsBlk + 0x1C then (if i < 2 then some 7 else none)
    else if gateBlk 0 ≤ off ∧ off < gateBlk 4 ∧ off % 0x40 = 0 then (if i = 4 then some 7 else none)
    else if spBlk 0 ≤ off ∧ off < spBlk 24 ∧ off % 0x80 = 4 then (if i < 4 then some 4 else none)
    else if epBlk 0 ≤ off ∧ off < epBlk 10 ∧ off % 0x80 = 4 then (if i < 5 then some 5 else none)
    else if off = timeBlk + 0x1C then (if i < 2 then some 5 else none)
    else if xdBlk + 0x40 ≤ off ∧ off < xdBlk + 0x200 ∧ off % 0x40 = 0 then
      (if i < 7 ∧ i ≠ 2 then some (8 * ((off - xdBlk) / 0x40) + 4) else none)
    else none
  else
    if mxBlk 0 ≤ off ∧ off < mxBlk 9 ∧ off % 0x40 = 0 then (if i < 8 then some (8 * d) else none)
    else if vxBlk 0 ≤ off ∧ off < vxBlk 9 ∧ off % 0x40 = 0 then (if i = 0 then some (8 * d) else none)
    else if off = xdBlk then
      (if i = 2 then some (8 * d) else if i < 7 then some (8 * d + 4) else none)
    else if off = blkBlk then (if i < 2 then some (8 * d + 1) else none)
    else if off = sramBlk then
      (if i < 3 then some (8 * d + 3) else if i = 4 then some (8 * d + 2) else none)
    else if off = ddrBlk 0 ∨ off = ddrBlk 1 then none
    else if off = ddrBlk 0 + 4 ∨ off = ddrBlk 1 + 4 then
      (if i = 5 then some (8 * d + 7) else if i < 8 then some (8 * d + 3) else none)
    else if off = qerrStatus then (if i = 1 ∨ i = 2 then some (8 * d + 4) else none)
    else if off = tsBlk then
      (if i = 3 then some (8 * d) else if i = 0 ∨ i = 1 ∨ i = 2 ∨ i = 4 then some (8 * d + 6) else none)
    else none

/-- The W1C error status registers of a die (R541). -/
def statusRegs (d : Nat) : List Nat :=
  if d = 0 then
    [qerrStatus, sramBlk, tsBlk + 0x1C, timeBlk + 0x1C]
      ++ (List.range 4).map gateBlk ++ (List.range 24).map (fun p => spBlk p + 4)
      ++ (List.range 10).map (fun n => epBlk n + 4) ++ (List.range 7).map (fun k => xdBlk + 0x40 * (k + 1))
  else
    [qerrStatus, sramBlk, ddrBlk 0 + 4, ddrBlk 1 + 4, xdBlk, tsBlk, blkBlk]
      ++ (List.range 9).map mxBlk ++ (List.range 9).map vxBlk

/-- The concentrator source of a status register (R399). -/
def srcOf (d off : Nat) : Nat :=
  if d = 0 then 0
  else if mxBlk 0 ≤ off ∧ off < mxBlk 9 then (off - mxBlk 0) / 0x40
  else if vxBlk 0 ≤ off ∧ off < vxBlk 9 then (off - vxBlk 0) / 0x40
  else if off = xdBlk ∨ off = qerrStatus then 10
  else if off = sramBlk then 11
  else if off = ddrBlk 0 + 4 then 12
  else if off = ddrBlk 1 + 4 then 13
  else if off = tsBlk then 15
  else 14

end Sys2Proof.Machine
end

