-- ==== Sys2Proof/Machine/Tab.lean ====
section
/-! DEFINITION. Machine/Tab.lean: a sparse table, keys strictly rising and no entry at the default: equal tables are equal lists. -/
namespace Sys2Proof.Machine

/-- Sparse data by key. -/
abbrev Tab (α : Type) := List (Nat × α)

variable {α : Type}

/-- The value at `i`; an unlisted key holds the default `d`. -/
def tabGet (d : α) : Tab α → Nat → α
  | [], _ => d
  | (k, v) :: t, i => if i = k then v else tabGet d t i

/-- The table with an entry `v` at `i`, in its place by key. -/
def tabPut : Tab α → Nat → α → Tab α
  | [], i, v => [(i, v)]
  | (k, w) :: t, i, v => if i < k then (i, v) :: (k, w) :: t else if i = k then (i, v) :: t else (k, w) :: tabPut t i v

/-- The table with `v` at `i`; the default removes the entry. -/
def tabSet [DecidableEq α] (d : α) (t : Tab α) (i : Nat) (v : α) : Tab α :=
  if v = d then t.filter (fun kv => kv.1 != i) else tabPut t i v

/-- Every key is at least `lo`, keys rise strictly and no entry is the default. -/
def tabWfFrom [DecidableEq α] (d : α) : Nat → Tab α → Bool
  | _, [] => true
  | lo, (k, v) :: t => decide (lo ≤ k) && decide (v ≠ d) && tabWfFrom d (k + 1) t

/-- The canonical form of a table. -/
def tabWf [DecidableEq α] (d : α) (t : Tab α) : Bool := tabWfFrom d 0 t

/-- The table with `f` applied at `i`. -/
def tabMod [DecidableEq α] (d : α) (t : Tab α) (i : Nat) (f : α → α) : Tab α :=
  tabSet d t i (f (tabGet d t i))

/-- `f` on every listed entry; an entry that becomes the default is removed. -/
def tabMap [DecidableEq α] (d : α) (f : Nat → α → α) (t : Tab α) : Tab α :=
  t.filterMap (fun kv => let w := f kv.1 kv.2; if w = d then none else some (kv.1, w))

/-- The entries whose keys satisfy `p`. -/
def tabKeep (p : Nat → Bool) (t : Tab α) : Tab α := t.filter (fun kv => p kv.1)

end Sys2Proof.Machine
end

