-- ==== Sys2Proof/Machine/State.lean ====
section
/-! DEFINITION. Machine/State.lean: the state of the KY-8 as plain data, its faults and refusals, and the state after reset.
A field's default is its value at reset. -/
namespace Sys2Proof.Machine

/-- A slot's state (R50). -/
inductive SlotSt where
  | empty
  | filling
  | full
  | draining
  deriving DecidableEq, Repr

/-- What the fabric keeps with a slot beside the tile in memory: its state, PROVISIONAL of the header as sent (R235) and the verified crc64
that the digest engine stores beside an EG slot (R367). -/
structure SlotInfo where
  st : SlotSt := .empty
  sentProv : Bool := false
  crc : Nat := 0
  deriving DecidableEq, Repr

/-- A queue's flow state (R50–R53, R58, R59, R69) and the job whose program emitted its descriptor (R49), 255 for a firmware queue. -/
structure Queue where
  job : Nat := 255
  slots : Tab SlotInfo := []
  claimIx : Nat := 0
  acqIx : Nat := 0
  credits : Nat := 0
  gathered : Nat := 0
  flight : Nat := 0
  pseq : Nat := 0
  cseq : Nat := 0
  eos : Bool := false
  pwait : Bool := false
  cwait : Bool := false
  left : Nat := 0
  frozen : Bool := false
  deriving DecidableEq, Repr

/-- A tile that a station holds in DRAINING (R50): its queue and slot, the input it came from and its place there, its header as acquired, its flags and
whether the command has issued its last payload read. -/
structure InTile where
  q : Nat
  slot : Nat
  inp : Nat
  ord : Nat
  hdr : Nat
  pois : Bool
  prov : Bool
  used : Bool := false
  deriving DecidableEq, Repr

/-- A tile that a command has formed and not yet written into a slot: output queue 0 or 1, header fields (R39), payload, the contributions whose data it
holds (R235), the contrib_id that a collective writes (R243) and the offsets of poisoned payload bytes that a collective sends on (R225). -/
structure OutTile where
  k : Nat
  fmt : Nat := 0
  lay : Nat := 0
  h : Nat := 0
  w : Nat := 0
  c : Nat := 0
  n : Nat := 0
  zcomp : Bool := false
  eos : Bool := false
  pois : Bool := false
  prov : Bool := false
  outIx : Nat := 0
  data : Bytes := []
  cids : List Nat := []
  contrib : Nat := 0
  badAt : List Nat := []
  deriving DecidableEq, Repr

/-- A plain store issued and not yet accepted (R56): device address, bytes, the offsets of poisoned bytes; `add` is a scatter-add element
(R150) and `bad` the element whose residue check failed (R152). -/
structure Store where
  addr : Nat
  data : Bytes
  pois : List Nat := []
  add : Bool := false
  bad : Bool := false
  deriving DecidableEq, Repr

/-- A remote request of at most 256 B (R184): the owning die, window and offset, the length, the data of a write with its poisoned offsets, the place of a
read's data among the bytes that the command reads remotely, and the contribution it belongs to (its key + 1, 0 for none yet). -/
structure WReq where
  die : Nat
  win : Nat
  off : Nat
  len : Nat
  wr : Bool
  data : Bytes := []
  pois : List Nat := []
  place : Nat := 0
  cid : Nat := 0
  deriving DecidableEq, Repr

/-- A request's status on its way back to the sender, with the data of a read (R184, R185). -/
structure WRet where
  req : WReq
  status : Nat
  data : Bytes := []
  pois : List Nat := []
  region : Nat := 0
  deriving DecidableEq, Repr

/-- A command in progress at a station (R63): its 64-byte descriptor, list index and task entry, the tiles taken from each input, the header of the first tile of input 0 + 1, the units of work done
(`made`) and positions seen (`pos`), the
bytes read remotely, what it holds and has formed, and the status it will end with. -/
structure Run where
  desc : Nat
  ix : Nat
  task : Nat
  begun : Bool := false
  inDone : Bool := false
  taken : Nat := 0
  taken1 : Nat := 0
  taken2 : Nat := 0
  hdr0 : Nat := 0
  made : Nat := 0
  pos : Nat := 0
  ins : List InTile := []
  outs : List OutTile := []
  claims0 : Nat := 0
  claims1 : Nat := 0
  stores : List Store := []
  reqs : List WReq := []
  rets : List WRet := []
  buf : Bytes := []
  bufPois : List Nat := []
  asked : Bool := false
  status : Nat := 0
  closed : Bool := false
  pois : Bool := false
  prov : Bool := false
  acc : List Nat := []
  acc2 : List Nat := []
  cids : List Nat := []
  deriving DecidableEq, Repr

/-- A station's place in its command list: commands in progress, oldest first, the next list index, the job of the last started command and
whether ST_STATUS already names a failed command; while it runs a test blank, the blank's descriptors (R325). -/
structure Station where
  runs : List Run := []
  next : Nat := 0
  lastJob : Nat := 0
  bad : Bool := false
  blank : Option (List Nat) := none
  deriving DecidableEq, Repr

/-- Queues, stations, the work held during the test-blank slot and the XD lists of partitions 1–3. -/
structure Fab where
  queues : Tab Queue := []
  stations : Tab Station := []
  held : List (Nat × Station) := []
  xdBase : Tab Nat := []
  xdCount : Tab Nat := []
  deriving DecidableEq, Repr

/-- A drain-store row's state (R94). -/
inductive RowSt where
  | free
  | accum
  | done
  deriving DecidableEq, Repr

/-- State and flags of a drain-store row (R94, R95). -/
structure Row where
  st : RowSt := .free
  chkfail : Bool := false
  pois : Bool := false
  prov : Bool := false
  deriving DecidableEq, Repr

/-- A vector on the wire from a WF (R84, R120, R540): the job it serves, elements and block scales, side-band fields, and for pooling the lane values and counts. -/
structure Vec where
  job : Nat := 0
  tag : Nat := 0
  first : Bool := false
  last : Bool := false
  pois : Bool := false
  prov : Bool := false
  elems : List Nat := []
  scales : List Nat := []
  pool : Bool := false
  area : Nat := 0
  inside : Nat := 0
  deriving DecidableEq, Repr

/-- What an array holds for a pass: its weight tile's payload and weight flags (R80, R95). -/
structure Weights where
  arr : Nat
  data : Bytes
  pois : Bool := false
  prov : Bool := false
  deriving DecidableEq, Repr

/-- A pass: its descriptor, the lane weights of its arrays and the vectors it has still to issue (R82, R85). -/
structure Pass where
  desc : Nat
  wts : List Weights := []
  left : Nat := 0
  loading : Bool := false
  deriving DecidableEq, Repr

/-- A vector in an MX pipeline with the pass whose weights it uses (R86, R89). -/
structure Flight where
  vec : Vec
  pass : Pass
  deriving DecidableEq, Repr

/-- An MX station's arrays: the pass loaded and the vectors in the pipeline, oldest first. -/
structure Mx where
  pass : Option Pass := none
  pipe : List Flight := []
  deriving DecidableEq, Repr

/-- A WF's progress: the next vector of its command and the vector buffer of 4 entries (R115, R540). -/
structure Wf where
  pos : Nat := 0
  buf : List Vec := []
  deriving DecidableEq, Repr

/-- Matrix arrays, window feeders and drain-store rows, and the arrays and feeders as the test-blank slot found them (R325). -/
structure Cmp where
  rows : Tab Row := []
  mx : Tab Mx := []
  wf : Tab Wf := []
  heldMx : Tab Mx := []
  heldWf : Tab Wf := []
  deriving DecidableEq, Repr

/-- An entry of the repair record in FL0 (R435). -/
structure Repair where
  kind : Nat
  die : Nat
  unit : Nat
  spare : Nat
  index : Nat
  deriving DecidableEq, Repr

/-- An entry of the row-retirement list in FL0 (R212): the DRAM row, whether it is HARD, whether hPPR has repaired it (R214), and whether the last start
repaired it by sPPR or hPPR. -/
structure RowEnt where
  die : Nat
  sub : Nat
  row : Nat
  hard : Bool := false
  fixed : Bool := false
  applied : Bool := false
  deriving DecidableEq, Repr

/-- Words with the poison syndrome, corrected words awaiting write-back, rows that gave corrected errors with turn + 1 (R187–R189, R198, R202),
passes × 2^20 + position of each buffer's scrub engine by die × 32 + buffer (R190), check lines in each controller's cache with their dirty flag (R198), bytes served to
die × 4 + partition in the current metering window (R218), oscillator counts of the last training by rank (R210), ranks checked in their die's first full-load turn (R211), the
RAAIMT and RAAMMT that a die's components report, rolling activation counts and open rows + 1 by bank (R209), refreshes of each rank modulo 4 (R208), the repair store of FL0 (R435), the entries of the handshake FIFOs,
oldest first (R23), and the bytes of core buffers and drain stores written in this turn (R18). -/
structure Ecc where
  poison : Tab Bool := []
  wb : Tab Bool := []
  ceRows : Tab Nat := []
  ddrRows : Tab Nat := []
  scrub : Tab Nat := []
  checks : Tab (List (Nat × Bool)) := []
  served : Tab Nat := []
  osc : Tab Nat := []
  reval : Tab Bool := []
  rfm : Tab (Nat × Nat) := []
  raa : Tab Nat := []
  rows : Tab Nat := []
  refs : Tab Nat := []
  hs : Tab (List Bytes) := []
  live : Tab Bool := []
  repair : List Repair := []
  rowList : List RowEnt := []
  deriving DecidableEq, Repr

/-- A contribution's state at its receiver (R233). -/
inductive CSt where
  | pending
  | verified
  | failed
  deriving DecidableEq, Repr

/-- A contribution as its receive engine knows it: partition and job, running CRC-64, integer sum, bytes and tiles, the slots that hold its
tiles, the ingest image it closes, and whether an XD's command list sends it (R229–R236). -/
structure Contrib where
  part : Nat := 0
  job : Nat := 0
  crc : Nat := 0xFFFFFFFFFFFFFFFF
  isum : Nat := 0
  isumOk : Bool := true
  bytes : Nat := 0
  tiles : Nat := 0
  st : CSt := .pending
  slots : List (Nat × Nat) := []
  ingest : Nat := 0
  xd : Bool := false
  deriving DecidableEq, Repr

/-- One end of a link module: link layer of R226–R228; `out` is its last ack or nak. -/
structure Link where
  out : Option Bytes := none
  txSeq : Nat := 0
  rxSeq : Nat := 0
  unacked : Nat := 0
  replay : List Bytes := []
  nakSeq : Nat := 4096
  nakRun : Nat := 0
  replays : Nat := 0
  retraining : Bool := false
  down : Bool := false
  waiting : List Bytes := []
  deriving DecidableEq, Repr

/-- A tile of a collective that has reached member `dst` (R243): its sender, the job and coll_id, the output slot that it belongs to, the phase of an
XD_ALLREDUCE (1 data to reduce, 2 a reduced tile, 3 a reduced tile that its own member still sends), its contribution (key + 1, 0 when local) and the tile. -/
structure CollMsg where
  dst : Nat
  src : Nat
  job : Nat
  coll : Nat
  phase : Nat
  slot : Nat
  cid : Nat
  tile : OutTile
  deriving DecidableEq, Repr

/-- Links and exchange engines. -/
structure Lnks where
  links : Tab Link := []
  contribs : Tab Contrib := []
  txNum : Tab Nat := []
  txTo : Tab Nat := []
  tallies : Tab Nat := []
  sent : Tab Bool := []
  clean : Tab Bool := []
  coll : List CollMsg := []
  deriving DecidableEq, Repr

/-- A job in the current turn: launched, the R464 code of the first cause of its end, poison consumed, messages of its that were released. -/
structure JobSt where
  launched : Bool := false
  code : Nat := 0
  consumed : Bool := false
  msgs : Nat := 0
  deriving DecidableEq, Repr

/-- A task in the current turn: released and ended (R327), and its budget in µs (R436). -/
structure TaskSt where
  released : Bool := false
  ended : Bool := false
  budget : Nat := 0
  deriving DecidableEq, Repr

/-- A result datagram in staging (R360): message and fragment, the job whose message it is, and the bytes between header and trailer. -/
structure Dgm where
  msg : Nat
  frag : Nat
  job : Nat
  body : Bytes
  deriving DecidableEq, Repr

/-- A command list in a firmware region (R66, R436): the key of its station as a program names it, its job, where it lies and how many descriptors it holds. -/
structure ListEnt where
  key : Nat
  job : Nat
  addr : Nat
  n : Nat
  deriving DecidableEq, Repr

/-- A partition: whether it was started (R432) and is held back by a partition reset (R508); of the current turn its bound faults, datagrams in staging, the
latest of its ends in ns (R362), its first failed gate condition and the message that met it (R361), inputs present (R463); and its runs of consecutive
turns with poison consumed and with missed jobs, with what the current turn adds (R205, R329). -/
structure PartSt where
  started : Bool := false
  reset : Nat := 0
  bounds : Nat := 0
  staged : List Dgm := []
  endNs : Nat := 0
  fail : Nat := 0
  failMsg : Nat := 0
  failDie : Nat := 0
  sent : Nat := 0
  streams : Nat := 0
  lidars : Nat := 0
  poisRun : Nat := 0
  poisNow : Bool := false
  missNow : Nat := 0
  missBit : Nat := 0
  deriving DecidableEq, Repr

/-- An island's sustained clock (R336): cycles of its last eight windows, newest first, consecutive windows at 776 MHz or more since CLOCK_LOW was raised
(101 while it may be raised), and the cycles counted in this turn. -/
structure ClkSt where
  win : List Nat := []
  good : Nat := 101
  cycles : Nat := 0
  deriving DecidableEq, Repr

/-- A core's self-test (R330–R334): the turn in which the rest with its current full test began + 1, and whether SELFTEST_LATE was raised for that test. -/
structure TestSt where
  since : Nat := 0
  late : Bool := false
  deriving DecidableEq, Repr

/-- Jobs, tasks and partitions of the turn; the dies that each job declares to send to which, bit src × 8 + dst (R234); the turn records by
turn × 4 + partition: 0 PENDING, 1 VERIFIED, 2 FAILED (R236); gate decisions by the same key: 1 released, 2 withheld (R361); blank verdicts by die:
1 passed, 2 failed, and dies with a failed comparison (R347); the windows that HSD jobs declare, as XD_WOPEN descriptors (R180); the command lists in the firmware
regions (R66); starts of the last turns in ns + 1; self-tests by die × 16 +
core; clock windows by die × 16 + island; TS_STATUS bits set in this turn by die; each die's first full-load turn + 1 (R335); the start of the blank slot in ns; the grid instant at which turn 0, or the first turn after a resume, starts. -/
structure Wrk where
  jobs : Tab JobSt := []
  tasks : Tab TaskSt := []
  parts : Tab PartSt := []
  sends : Tab Nat := []
  records : Tab Nat := []
  gates : Tab Nat := []
  verdicts : Tab Nat := []
  blankBad : Tab Bool := []
  hsdWins : List Nat := []
  lists : List ListEnt := []
  starts : Tab Nat := []
  tests : Tab TestSt := []
  clks : Tab ClkSt := []
  tsSet : Tab Nat := []
  full : Tab Nat := []
  slotNs : Nat := 0
  firstNs : Nat := 0
  deriving DecidableEq, Repr

/-- A rise of an error or escalation line that the collector has not yet latched: FSW bit, cause (R395), die, concentrator source (R399),
whether a rule drives it to the safe state, a class that a rule names (0 none, 1 A, 2 B, 3 C), and the status register whose bit raised it (0 none)
(R373, R377). -/
structure Rise where
  bit : Nat
  cause : Nat
  die : Nat
  src : Nat
  esc : Bool := false
  cls : Nat := 0
  stat : Nat := 0
  deriving DecidableEq, Repr

/-- A later class A event of a running sequence (R383): bit, cause, µs after the first. -/
structure Later where
  bit : Nat
  cause : Nat
  us : Nat
  deriving DecidableEq, Repr

/-- The class A sequence (R382, R394): its first event with time, FSW and detail registers, the later events, the record once composed, and the report with
the number of copies sent. -/
structure Seq where
  bit : Nat
  cause : Nat
  ns : Nat
  frac : Nat
  turn : Nat
  fsw : Nat
  det : List Nat := []
  later : List Later := []
  record : Bytes := []
  report : Bytes := []
  copies : Nat := 0
  deriving DecidableEq, Repr

/-- A lockstep unit (R389–R392): halted by a mismatch, halted by the debug port, the value that its last agreement read returned and the bits that either copy then saw pending. -/
structure Lock where
  halted : Bool := false
  debug : Bool := false
  value : Nat := 0
  pending : Nat := 0
  deriving DecidableEq, Repr

/-- The Safety Status Port (R385–R388): the frozen frame, transactions modulo 256, accepted challenges, the last accepted sequence number + 1, the instant at
which the response of an accepted challenge is ready while it is not yet published, and whether one is published. -/
structure Ssp where
  frame : Bytes := []
  count : Nat := 0
  accepted : Nat := 0
  last : Nat := 0
  due : Option Nat := none
  valid : Bool := false
  deriving DecidableEq, Repr

/-- Fault collection (R372–R397): rises not yet latched, whether turns have been started so that the pins may leave fault level (R384), the class A sequence,
turn + 1 of the last class B report of each bit, successive equal reads of the FLT balls, the lockstep units and the Safety Status Port. -/
structure Flt where
  rises : List Rise := []
  armed : Bool := false
  seq : Option Seq := none
  told : Tab Nat := []
  equal : Nat := 0
  units : Tab Lock := []
  ssp : Ssp := {}
  deriving DecidableEq, Repr

/-- State of a ring entry (R258). -/
inductive EntSt where
  | free
  | writing
  | verifying
  | ready
  | viewed
  deriving DecidableEq, Repr

/-- A ring entry (R258): its state and the turn tag of its image. -/
structure Entry where
  st : EntSt := .free
  tag : Nat := 0
  deriving DecidableEq, Repr

/-- An image or lidar frame in progress (R257, R264, R294): its entry, tag, timestamp in 2^−16 ns, bound and flags, frame number, embedded lines or packet
records and lines received, how many of these the SI has taken from staging, whether its contribution is open and its number, and how far it has come. -/
structure Img where
  ent : Nat
  tag : Nat
  ts : Nat
  bound : Nat
  stretch : Bool := false
  retx : Bool := false
  frameNo : Nat := 0
  emb : List Bytes := []
  lines : List Bytes := []
  tookEmb : Nat := 0
  took : Nat := 0
  opened : Bool := false
  ended : Bool := false
  written : Bool := false
  sat : Bool := false
  num : Nat := 0
  deriving DecidableEq, Repr

/-- An ingest ring with its view (R256–R259): 0 maps the fill entry, i + 1 entry i; the image in progress, complete images not yet written, the
images made READY since start, the turn + 1 of the last frame-start (R264), and for a lidar the sync turn + 1 of the window whose frame was dropped and the windows in which the port
discarded a packet of it (R295). -/
structure Ring where
  ents : Tab Entry := []
  view : Nat := 0
  img : Option Img := none
  out : List Img := []
  ready : Nat := 0
  seen : Nat := 0
  gone : Nat := 0
  lossy : List Nat := []
  deriving DecidableEq, Repr

/-- A source frame in progress (R277, R278): its command's descriptor and partition, whether Frame Start has gone out, poison met, bytes acquired and not yet sent as lines, payload bytes of
the lines sent, lines sent, and whether the gate withheld its turn. -/
structure SoFrame where
  desc : Nat := 0
  part : Nat := 0
  started : Bool := false
  bad : Bool := false
  held : Bool := false
  buf : Bytes := []
  body : Bytes := []
  lines : Nat := 0
  turn : Nat := 0
  deriving DecidableEq, Repr

/-- A sensor port (R253, R266–R278): cable delay in 2^−16 ns, successive high current samples, the instant of its switch-off, whether SI_RUN is due and running, the records that the due
and the running SI_RUN were built from, the last sync message's launch in ns, the source frame in progress, frames sent, the packets of the last source frame, and the I2C writes of its
initialisation script as sent: address, register, data and delay (R273, R279). -/
structure SPortSt where
  delay : Nat := 0
  high : Nat := 0
  offNs : Nat := 0
  siDue : Bool := false
  si : Bool := false
  next : List (List Nat) := []
  cmd : List (List Nat) := []
  sync : Nat := 0
  so : Option SoFrame := none
  frames : Nat := 0
  tx : List Bytes := []
  i2c : List (List Nat) := []
  deriving DecidableEq, Repr

/-- Sensor ports by number, and rings: 0–47 streams, 48–55 lidars. -/
structure Sns where
  ports : Tab SPortSt := []
  rings : Tab Ring := []
  deriving DecidableEq, Repr

/-- A frame in a transmit queue (R290): its kind (0 a UDP datagram, 1 an 802.1AS message, 2 a forwarded copy, 3 an MKA message), launch time in ns (0 none), UDP addresses,
payload (the whole frame of a forwarded copy), bytes on the wire without preamble and gap, and the partition whose result it carries + 1. -/
structure Frame where
  kind : Nat := 0
  due : Nat := 0
  ip : Nat := 0
  dstUdp : Nat := 0
  srcUdp : Nat := 0
  body : Bytes
  len : Nat
  part : Nat := 0
  deriving DecidableEq, Repr

/-- An Ethernet port (R288–R293, R302): transmit queues, when the head of TQ1 became its head in ns, the last frame started with the end of its transmission in ns and whether it ends with
an inverted FCS, packet number of the secure association and the next one expected on receive, consecutive readings of a low SQI, mean path delay in ns and whether the link is asCapable, and 802.1AS messages sent. -/
structure EPortSt where
  tq0 : List Frame := []
  tq1 : List Frame := []
  tq2 : List Frame := []
  tq3 : List Frame := []
  headNs : Nat := 0
  wire : Option Frame := none
  busyNs : Nat := 0
  badFcs : Bool := false
  pn : Nat := 0
  rxPn : Nat := 0
  sqiRun : Nat := 0
  mpd : Nat := 0
  asCapable : Bool := false
  ptpSeq : Nat := 0
  deriving DecidableEq, Repr

/-- A TS_IN capture (R311): time in 2^−16 ns and the edge's direction. -/
structure TsIn where
  ts : Nat
  rising : Bool
  deriving DecidableEq, Repr

/-- Ethernet ports, and the time unit's own state (R301–R312): the previous segment, time steps accepted and the first-lock step that wait for the boundary, the
instant of the last valid Sync, the upstream grandmaster as its last Announce named it (priority1, clock quality, priority2, identity), the tick of the last change of adj and the adj that it moves to, TS_IN FIFOs with the last kept edge in 2^−16 ns, each TS_OUT pin's
next edge (2k the start of pulse k, 2k + 1 its end) and whether it is at its active level, the PPS level, and whether a class A sequence has silenced the ports (R382). -/
structure Net where
  ports : Tab EPortSt := []
  oldK0 : Nat := 0
  oldT0 : Nat := 0
  oldAdj : Int := 0
  steps : List Int := []
  lockStep : Option Int := none
  syncNs : Nat := 0
  gm : Bytes := []
  adjTick : Nat := 0
  want : Int := 0
  tsIn : Tab (List TsIn) := []
  lastIn : Tab Nat := []
  tsOut : Tab Nat := []
  tsHigh : Tab Bool := []
  pps : Bool := false
  silent : Bool := false
  deriving DecidableEq, Repr

/-- One-time-programmable items (R416): the device serial, owner keys (97 bytes each, none when empty), revoke bits, and the counts of the thermometers. -/
structure Otp where
  deviceId : Nat := 0
  keys : Tab Bytes := []
  revoked : Nat := 0
  svnFw : Nat := 0
  svnCfg : Nat := 0
  deriving DecidableEq, Repr

/-- The counter log in FL0 (R421, R393, R501): starts, records composed, erase counts of the blank slots, ring-oscillator counts of the first start. -/
structure Log where
  boots : Nat := 0
  records : Nat := 0
  erase0 : Nat := 0
  erase1 : Nat := 0
  rings : Tab Nat := []
  deriving DecidableEq, Repr

/-- Non-volatile memory: OTP, the bytes of FL0 and FL1 by offset (an erased byte is 0xFF), acknowledged fault record slots, the counter log and the number of entries in the mirror
of the shavings ring (R444), and by lockstep unit the code of its last verdict + 8 × (1 + the copy that it names, until a start acts on it) (R391, R392). -/
structure Nv where
  otp : Otp := {}
  fl0 : Tab Byte := []
  fl1 : Tab Byte := []
  acked : Tab Bool := []
  log : Log := {}
  mirrored : Nat := 0
  verdicts : Tab Nat := []
  deriving DecidableEq, Repr

/-- An entry of the start report (R434). -/
structure RepEnt where
  code : Nat
  unit : Nat
  action : Nat
  fsw : Nat
  expected : Nat := 0
  measured : Nat := 0
  deriving DecidableEq, Repr

/-- An update being transferred or written (R439, R354, R467): session, kind, total and bytes so far; or none. -/
structure Xfer where
  sess : Nat
  kind : Nat
  total : Nat
  data : Bytes := []
  deriving DecidableEq, Repr

/-- The start sequence's results (R430–R434): instant of the reset in ns, report entries, partitions that may start, security version and hash of the running
images, the update staged for FL0, the blank package slot in use + 1 and the slot that becomes active at the next boundary + 1, the queue and task tables as loaded
(R508), and by die the core + 1 that the next boundary withdraws (R332). -/
structure Boot where
  ns : Nat := 0
  report : List RepEnt := []
  fwSvn : Nat := 0
  fwHash : Nat := 0
  cfgHash : Nat := 0
  cfgSvn : Nat := 0
  staged : Option Xfer := none
  pkgSlot : Nat := 0
  pkgNext : Nat := 0
  tables : Tab Word := []
  withdraw : Tab Nat := []
  deriving DecidableEq, Repr

/-- A negotiated version (R456): major, minor, features. -/
structure Neg where
  major : Nat
  minor : Nat
  feats : Nat
  deriving DecidableEq, Repr

/-- A session (R451–R459): the negotiation in force and the one that a boundary will bring (`some none` ends it); for a management session whether it is reserved
or open, its nonce and the instant of its last valid message; the peer's addresses and port; sequence numbers and the cached reply with its type. -/
structure Sess where
  neg : Option Neg := none
  next : Option (Option Neg) := none
  reserved : Bool := false
  isOpen : Bool := false
  nonce : Nat := 0
  lastNs : Nat := 0
  mac : Nat := 0
  ip : Nat := 0
  udp : Nat := 0
  port : Nat := 0
  tx : Nat := 0
  rx : Nat := 0
  live : Bool := false
  cache : Bytes := []
  deriving DecidableEq, Repr

/-- Sessions 0–7 and the transfer in progress. -/
structure Ses where
  tab : Tab Sess := []
  xfer : Option Xfer := none
  deriving DecidableEq, Repr

/-- Power (R496–R506): warm sensors by die × 4 + sensor (R499); a state move in progress: 0 none, 2 to PARK, 3 from PARK to ACTIVE, 4 from IDLE to ACTIVE; the request that waits for the boundary:
0 none, 1 IDLE, 2 PARK; the tables that the Carvers saved on entering PARK; PMBus readings by device address: volt, curr × 2^16 and temp × 2^32 (R535); whether turns have passed that did not
run, so that the next one that runs starts with empty queues (R504, R506). -/
structure Pwr where
  warm : Tab Bool := []
  move : Nat := 0
  want : Nat := 0
  saved : Tab Word := []
  pm : Tab Nat := []
  idleTurns : Bool := false
  deriving DecidableEq, Repr

/-- A tensor dump requested by a partition's session (R487–R489): its turn, limit in bytes per die, the session and seq it answers, whether it was
truncated, and how many copied bytes have been sent of the dies in turn. -/
structure Dump where
  part : Nat
  turn : Nat
  limit : Nat
  sess : Nat
  ref : Nat
  layer : Nat
  opId : Nat
  outIx : Nat
  job : Nat
  trunc : Bool := false
  die : Nat := 1
  sentBytes : Nat := 0
  deriving DecidableEq, Repr

/-- Observation: the shavings ring (R441, R442), every per-turn counter as the boundary copies it (offset and value, by turn mod 64 and die; log 141), unsent command records by die (R485), the ticks of the ring writes and reads of the last 10 µs by die (R485), records written by station and lost since the last message
(R484, R486), dumps pending and the dump areas by partition × 8 + die (R488), the always-on ring by turn mod 64 and unit (R477), whether the debug port is unlocked (R490),
the value that the last register or scan read returned (R5, R492) and whether the last such access ended in a fabric error (R28, R171; log 131). -/
structure Obs where
  shav : Tab Nat := []
  ring : Tab (List Bytes) := []
  traffic : Tab (List Nat) := []
  recSeq : Tab Nat := []
  lost : Nat := 0
  subRef : Nat := 0
  dumps : List Dump := []
  dump : Tab Bytes := []
  ao : Tab Bytes := []
  aoAll : Tab (List (Nat × Nat)) := []
  unlocked : Bool := false
  value : Nat := 0
  fabErr : Bool := false
  deriving DecidableEq, Repr

/-- The time base (R299–R301): the tick count of the time bus and the conversion segment in force: from tick `k0` on, the value is `t0` plus
`adj`-corrected 4-ns ticks, in units of 2^−32 ns. -/
structure TimeBase where
  tick : Nat := 0
  k0 : Nat := 0
  t0 : Nat := 0
  adj : Int := 0
  deriving DecidableEq, Repr

/-- A configuration record: its type code and field values, arrays flattened (R424, R425). -/
structure Rec where
  ty : Nat
  vals : List Nat
  deriving DecidableEq, Repr

/-- The chip, with the flash parts at its ports. `latch` holds the high words latched for requesters, + 1 (R5). -/
structure Chip where
  tb : TimeBase := {}
  regs : Tab Word := []
  latch : Tab Nat := []
  mem : List Host.Cell := []
  ecc : Ecc := {}
  fab : Fab := {}
  cmp : Cmp := {}
  lnk : Lnks := {}
  wrk : Wrk := {}
  flt : Flt := {}
  obs : Obs := {}
  sns : Sns := {}
  net : Net := {}
  boot : Boot := {}
  ses : Ses := {}
  pwr : Pwr := {}
  nv : Nv := {}
  cfg : List Rec := []
  free : Nat := 0
  deriving DecidableEq, Repr

/-- The machine: the commands that are waiting, first in, first out, and the chip. -/
structure State where
  pending : List Instr := []
  chip : Chip := {}
  deriving DecidableEq, Repr

/-- Why a step stops with a fault. No command of this model faults. -/
inductive Fault where
  /-- Raised by nobody: the KY-8 has an effect for every command of its table. Safe. -/
  | none
  deriving DecidableEq, Repr

/-- Why a step refuses a command. -/
inductive Refusal where
  /-- Raised by a dispatch arm whose command has no meaning yet. Safe. -/
  | notModelled (mnemonic : String)
  deriving DecidableEq, Repr

/-- The machine right after reset: no power has come up yet, every register at its Reset column (R7) and every queue empty. -/
def State.reset : State := {}

end Sys2Proof.Machine
end

