-- ==== Sys2Proof/Machine/Ops.lean ====
section
/-! DEFINITION. Machine/Ops.lean: the named operations over registers, time, memory, error lines and jobs that every meaning is built from. -/
namespace Sys2Proof.Machine

/-! ### Registers -/

/-- Key of the register at offset `off` of die `d`. -/
def regKey (d off : Nat) : Nat := d * 16777216 + off

/-- The register at offset `off` of die `d`. -/
def Chip.reg (c : Chip) (d off : Nat) : Nat := (tabGet 0#32 c.regs (regKey d off)).toNat

/-- The chip with `v` in that register. -/
def Chip.setReg (c : Chip) (d off v : Nat) : Chip :=
  { c with regs := tabSet 0#32 c.regs (regKey d off) (BitVec.ofNat 32 v) }

/-- A 64-bit quantity in two registers, low word first (R5). -/
def Chip.reg64 (c : Chip) (d off : Nat) : Nat := c.reg d off + c.reg d (off + 4) * 4294967296

/-- The chip with a 64-bit value in two registers. -/
def Chip.setReg64 (c : Chip) (d off v : Nat) : Chip :=
  (c.setReg d off (v % 4294967296)).setReg d (off + 4) (v / 4294967296)

/-- A counter raised by `n`, saturating at 0xFFFF_FFFF. -/
def Chip.addReg (c : Chip) (d off n : Nat) : Chip := c.setReg d off (satAdd 0xFFFFFFFF (c.reg d off) n)

/-- A 48-bit counter raised by `n`, saturating (R475). -/
def Chip.addReg48 (c : Chip) (d off n : Nat) : Chip :=
  c.setReg64 d off (satAdd 0xFFFFFFFFFFFF (c.reg64 d off) n)

/-- Bits set in a register. -/
def Chip.orReg (c : Chip) (d off m : Nat) : Chip := c.setReg d off (c.reg d off ||| m)

/-- A field of a register. -/
def Chip.fld (c : Chip) (d off hi lo : Nat) : Nat := bits (c.reg d off) hi lo

/-- A register with one field replaced. -/
def Chip.setFld (c : Chip) (d off hi lo v : Nat) : Chip := c.setReg d off (putBits (c.reg d off) hi lo v)

/-- `f` applied for each element in turn. -/
def eachDo {α : Type} (l : List α) (f : α → Chip → Chip) (c : Chip) : Chip := l.foldl (fun c x => f x c) c

/-- A draw of the free-value counter. -/
def Chip.draw (c : Chip) : Nat × Chip := ((Config.freeWord c.free).toNat, { c with free := c.free + 1 })

/-! ### Configuration -/

/-- Field `ix` of the record of type `ty`, or `dflt` without one. -/
def Chip.cfg1 (c : Chip) (ty ix dflt : Nat) : Nat :=
  match c.cfg.find? (fun r => r.ty == ty) with
  | some r => r.vals.getD ix dflt
  | none => dflt

/-- The record of type `ty` whose first field is `key`. -/
def Chip.cfgRec (c : Chip) (ty key : Nat) : Option Rec := c.cfg.find? (fun r => r.ty == ty && r.vals.headD 0 == key)

/-- Field `ix` of that record, or `dflt` without one. -/
def Chip.cfgBy (c : Chip) (ty key ix dflt : Nat) : Nat :=
  match c.cfgRec ty key with
  | some r => r.vals.getD ix dflt
  | none => dflt

/-- Every record of a type, in image order. -/
def Chip.cfgAll (c : Chip) (ty : Nat) : List (List Nat) := (c.cfg.filter (fun r => r.ty == ty)).map (·.vals)

/-- Whether partition `p` is configured (R34). -/
def Chip.hasPart (c : Chip) (p : Nat) : Bool := (c.cfgRec 0x0201 p).isSome
/-- Whether partition `p` is of class SAFETY (R34). -/
def Chip.isSafety (c : Chip) (p : Nat) : Bool := c.cfgBy 0x0201 p 1 0 == 1
/-- The partition that owns job `j` (R339). -/
def Chip.jobPart (c : Chip) (j : Nat) : Nat := c.cfgBy 0x0702 j 1 0
/-- Whether job `j` is one of partition `p`'s (R339). -/
def Chip.jobOf (c : Chip) (j p : Nat) : Bool := (c.cfgRec 0x0702 j).isSome && c.jobPart j == p
/-- The jobs of the configuration. -/
def Chip.jobs (c : Chip) : List Nat := (c.cfgAll 0x0702).map (·.headD 0)
/-- The turn period in ns (R338). -/
def Chip.periodNs (c : Chip) : Nat := c.cfg1 0x0701 0 20 * 1000000

/-! ### Time -/

/-- The time base at tick `k` with sub-tick phase `p`, in 2^−32 ns, truncated at 0 (R301). -/
def TimeBase.at (t : TimeBase) (k p : Nat) : Nat :=
  let inc : Int := 17179869184 + t.adj
  ((t.t0 : Int) + ((k : Int) - t.k0) * inc + (p * inc) / 4).toNat

/-- The time base now, in 2^−32 ns. -/
def Chip.nowF (c : Chip) : Nat := c.tb.at c.tb.tick 0
/-- The time base now, in whole ns (TB_NOW). -/
def Chip.nowNs (c : Chip) : Nat := c.nowF / 4294967296
/-- The time base now, fraction in 2^−16 ns (R299). -/
def Chip.nowFrac (c : Chip) : Nat := c.nowF / 65536 % 65536

/-- The smallest tick at or after `k0` whose time is at least `ns`. -/
def TimeBase.tickAt (t : TimeBase) (ns : Nat) : Nat :=
  let inc := (17179869184 + t.adj).toNat
  let f := ns * 4294967296
  t.k0 + (if f ≤ t.t0 then 0 else if inc = 0 then 0 else cdiv (f - t.t0) inc)

/-- The time base run on to the instant `ns`, where it is still before it (log 1). -/
def Chip.advanceTo (c : Chip) (ns : Nat) : Chip :=
  { c with tb := { c.tb with tick := max c.tb.tick (c.tb.tickAt ns) } }

/-- The time base run on by `n` ticks. -/
def Chip.ticks (c : Chip) (n : Nat) : Chip := { c with tb := { c.tb with tick := c.tb.tick + n } }

/-- The current turn number (R341). -/
def Chip.turn (c : Chip) : Nat := c.reg64 0 tsBlk
/-- Start of the current turn, ns (R341). -/
def Chip.turnStart (c : Chip) : Nat := c.reg64 0 (tsBlk + 8)
/-- TURN_STATE[1:0]: 0 not started, 1 running, 2 stopped (R341). -/
def Chip.turnState (c : Chip) : Nat := c.fld 0 (tsBlk + 0x10) 1 0
/-- Whether turns run. -/
def Chip.running (c : Chip) : Bool := c.turnState == 1
/-- The first grid instant at or after `ns` (R320). -/
def Chip.gridAt (c : Chip) (ns : Nat) : Nat := cdiv ns c.periodNs * c.periodNs
/-- The boundary that ends the current turn (R321). -/
def Chip.turnEnd (c : Chip) : Nat := c.gridAt (c.turnStart + c.periodNs - c.cfg1 0x0701 2 500 * 500)
/-- The low 32 bits of the turn number. -/
def Chip.turn32 (c : Chip) : Nat := c.reg 0 tsBlk

/-! ### The shavings ring -/

/-- Bytes written into a flash part from offset `a` upward. -/
def flashWrite (f : Tab Byte) : Nat → Bytes → Tab Byte
  | _, [] => f
  | a, b :: t => flashWrite (tabSet 0xFF#8 f a b) (a + 1) t

/-- `n` bytes of a flash part from offset `a`. -/
def flashRead (f : Tab Byte) (a n : Nat) : Bytes := (List.range n).map (fun i => tabGet 0xFF#8 f (a + i))

/-- A flash part with `n` bytes from offset `a` erased. -/
def flashErase (f : Tab Byte) (a n : Nat) : Tab Byte := tabKeep (fun k => decide (k < a) || decide (a + n ≤ k)) f

/-- A shavings entry mirrored into FL0: the next place of the circular log of 4 KiB pages, whose header goes in with its first entry (R444). -/
def Chip.mirror (c : Chip) (e : Nat) : Chip :=
  let n := c.nv.mirrored
  let page := 0xE60000 + 4096 * (n / 127 % 256)
  let f := if n % 127 = 0 then
      flashWrite (flashErase c.nv.fl0 page 4096) page (toLE 4 (n / 127) ++ toLE 4 c.nv.log.boots ++ toLE 2 (bits e 127 112) ++ toLE 22 0)
    else c.nv.fl0
  { c.setFld 0 (startBlk + 0x24) 15 0 (bits e 127 112) with
    nv := { c.nv with fl0 := flashWrite f (page + 32 + 32 * (n % 127)) (toLE 32 e), mirrored := n + 1 } }

/-- Whether a writer cannot reach the headstock fabric: the Carver of a die (source 2 + its number) whose headstock link is down or retraining (R442; log 164). -/
def Chip.cutFrom (c : Chip) (source : Nat) : Bool :=
  let l := tabGet {} c.lnk.links ((source - 2) * 8)
  decide (3 ≤ source) && decide (source ≤ 9) && (l.down || l.retraining)

/-- A trace point written into the shavings ring, and into its mirror from level 2 on (R441, R442, R444): source, level, tp_id and three arguments. The entry of
a writer that cannot reach the ring is dropped and counted in SHAV_LOST. -/
def Chip.shav (c : Chip) (source level tp a0 a1 a2 : Nat) : Chip :=
  if c.cutFrom source then c.addReg 0 (startBlk + 0x20) 1 else
  let k := c.reg 0 (startBlk + 0x1C)
  let e := c.nowNs % 2 ^ 64 + c.nowFrac <<< 64 + source <<< 80 + level <<< 88 + tp <<< 96 + (k % 65536) <<< 112
    + c.turn32 <<< 128 + (a0 % 2 ^ 32) <<< 160 + (a1 % 2 ^ 32) <<< 192 + (a2 % 2 ^ 32) <<< 224
  let c1 := c.setReg 0 (startBlk + 0x1C) (k + 1)
  let c2 := { c1 with obs := { c1.obs with shav := tabSet 0 c1.obs.shav (k % 32768) e } }
  if 2 ≤ level then c2.mirror e else c2

/-! ### Error lines -/

/-- A rise on its way to the collector. -/
def Chip.rise (c : Chip) (r : Rise) : Chip := { c with flt := { c.flt with rises := c.flt.rises ++ [r] } }

/-- Whether the status register at `off` of die `d` holds a bit that raises the line of FSW bit `b` (R372). -/
def Chip.blockHigh (c : Chip) (d off b : Nat) : Bool :=
  (List.range 8).any (fun i => bit (c.reg d off) i && lineBit d off i == some b)

/-- Whether the line of FSW bit `b` is high at the collector (R372, R373, R541). -/
def Chip.lineHigh (c : Chip) (b : Nat) : Bool :=
  (if 8 ≤ b then (statusRegs (b / 8)).any (fun off => c.blockHigh (b / 8) off b) else false)
    || (statusRegs 0).any (fun off => c.blockHigh 0 off b)

/-- Bit `i` set in the W1C status register at `off` of die `d`; its line rises if it was low (R372, R541). -/
def Chip.raise (c : Chip) (d off i cause : Nat) (esc : Bool := false) (cls : Nat := 0) : Chip :=
  let c1 := c.orReg d off (1 <<< i)
  match lineBit d off i with
  | none => c1
  | some b =>
    if c.blockHigh d off b && !esc then c1
    else c1.rise { bit := b, cause := cause, die := d, src := srcOf d off, esc := esc, cls := cls, stat := off }

/-- Default class of an FSW bit (R376): 1 A, 2 B, 3 C. -/
def defaultClass (b : Nat) : Nat :=
  if b < 4 then 1 else if b < 7 then 2 else if b = 7 then 1
  else match b % 8 with | 3 => 2 | 4 => 2 | 6 => 2 | _ => 1

/-- Class that FCLASS gives an FSW bit (R376, R397). -/
def Chip.fclass (c : Chip) (b : Nat) : Nat := let x := c.cfg1 0x0801 b 0; if x = 0 then defaultClass b else x

/-- An event that the device itself drives to the safe state on FSW bit `b` (R373, R378). -/
def Chip.escalate (c : Chip) (b cause die src : Nat) : Chip := c.rise { bit := b, cause := cause, die := die, src := src, esc := true, cls := 1 }

/-- A partition's state. -/
def Chip.part (c : Chip) (p : Nat) : PartSt := tabGet {} c.wrk.parts p
/-- The chip with `f` applied to a partition's state. -/
def Chip.modPart (c : Chip) (p : Nat) (f : PartSt → PartSt) : Chip := { c with wrk := { c.wrk with parts := tabMod {} c.wrk.parts p f } }

/-- One of the events of partition `p`'s ready instant happens now (R362). -/
def Chip.noteEnd (c : Chip) (p : Nat) : Chip := c.modPart p (fun x => { x with endNs := max x.endNs c.nowNs })

/-! ### Jobs -/

/-- The job's state in the turn. -/
def Chip.job (c : Chip) (j : Nat) : JobSt := tabGet {} c.wrk.jobs j
/-- The chip with that state. -/
def Chip.setJob (c : Chip) (j : Nat) (v : JobSt) : Chip := { c with wrk := { c.wrk with jobs := tabSet {} c.wrk.jobs j v } }
/-- Whether the job's end in this turn is already decided. -/
def Chip.jobDead (c : Chip) (j : Nat) : Bool := (c.job j).code != 0

/-- Key of a station's context: station number × 4 + partition list of an XD (R31, R230). -/
def stKey (st p : Nat) : Nat := st * 4 + p
/-- Die of a station number (R10). -/
def stDie (st : Nat) : Nat := st / 128
/-- Local index of a station number (R10). -/
def stIdx (st : Nat) : Nat := st % 128
/-- A station's context. -/
def Chip.station (c : Chip) (k : Nat) : Station := tabGet {} c.fab.stations k
/-- The chip with that context. -/
def Chip.setStation (c : Chip) (k : Nat) (v : Station) : Chip :=
  { c with fab := { c.fab with stations := tabSet {} c.fab.stations k v } }
/-- `f` applied to a station's context. -/
def Chip.modStation (c : Chip) (k : Nat) (f : Station → Station) : Chip := c.setStation k (f (c.station k))

/-- A station's real context: the one held while it runs a test blank (R325). -/
def Chip.realStation (c : Chip) (k : Nat) : Station :=
  match c.fab.held.find? (fun h => h.1 == k) with
  | some h => h.2
  | none => c.station k
/-- `f` applied to a station's real context. -/
def Chip.modReal (c : Chip) (k : Nat) (f : Station → Station) : Chip :=
  if c.fab.held.any (fun h => h.1 == k) then { c with fab := { c.fab with held := c.fab.held.map (fun h => if h.1 = k then (k, f h.2) else h) } }
  else c.modStation k f

/-- ST_STATUS after a command with list index `ix` of a station's real list ends with status `s` (R67): the status, busy while a command is in progress, and the
first command that ended other than OK or EOS_EARLY. -/
def Chip.noteStatus (c : Chip) (k ix s : Nat) : Chip :=
  let st := k / 4
  let d := stDie st
  let off := stBlk (stIdx st) + 0x14
  let x := c.realStation k
  -- an XD has one such register for the lists of its partitions
  let all := (List.range 4).map (fun p => c.realStation (st * 4 + p))
  let c1 := c.setFld d off 3 0 s
  let c2 := if x.runs.isEmpty then c1.setFld d off 6 5 0 else c1
  let c3 := c2.setFld d off 4 4 (b2n (all.any (fun y => !y.runs.isEmpty)))
  if 1 < s ∧ !all.any (·.bad) then (c3.setFld d off 19 8 ix).modReal k (fun y => { y with bad := true }) else c3

/-- A command of a station's real list ends with status `s`: counted and noted (R63, R67). -/
def Chip.endReal (c : Chip) (k ix s : Nat) : Chip :=
  let c1 := c.modReal k (fun x => { x with runs := x.runs.filter (fun r => r.ix != ix) })
  (c1.addReg (stDie (k / 4)) (stBlk (stIdx (k / 4)) + 0x10) 1).noteStatus k ix s

/-- Job number of a descriptor (R60). -/
def dJob (d : Nat) : Nat := bits d 63 56

/-- Keys of the stations that hold a context. -/
def Chip.liveKeys (c : Chip) : List Nat := (c.fab.stations.map (·.1) ++ c.fab.held.map (·.1)).eraseDups

/-- Every command of the job that is still at work at one station ends with status `s` (R65); one that is ending already ends its own way. -/
def Chip.endJobAt (c : Chip) (k j s : Nat) : Chip :=
  eachDo ((c.realStation k).runs.filter (fun r => dJob r.desc == j && r.status == 0)) (fun r c => c.endReal k r.ix s) c

/-- The matrix arrays and vector buffers without what they hold for job `j`: its pass in progress and its waiting vectors (log 16). -/
def Cmp.drop (m : Cmp) (j : Nat) : Cmp :=
  let mx := tabMap {} (fun _ (x : Mx) => match x.pass with
    | some p => if dJob p.desc = j then { x with pass := none } else x
    | none => x)
  let wf := tabMap {} (fun _ (x : Wf) => { x with buf := x.buf.filter (fun v => v.job != j) })
  { m with mx := mx m.mx, wf := wf m.wf, heldMx := mx m.heldMx, heldWf := wf m.heldWf }

/-- A job terminated for the turn with the R464 code of its first cause (R46, R53, R56, R173, R239, R327): its stations end their commands
ABORTED, its tasks end, and trace point 0x0014 is written. A job whose end is decided stays as it is. -/
def Chip.endJob (c : Chip) (j code : Nat) : Chip :=
  if c.jobDead j || j == 255 then c else
  let c1 := c.setJob j { c.job j with code := code }
  let c2 := eachDo c1.liveKeys (fun k c => c.endJobAt k j 4) c1
  let mine := fun (key : Nat) => let own := c2.reg (key / 256) (taskBlk (key % 256) + 0x30)
    bits own 0 0 == 1 && bits own 6 1 == j
  let stopped := tabMap {} (fun key t => if mine key then { t with ended := true } else t) c2.wrk.tasks
  let c3 := { c2 with cmp := c2.cmp.drop j, lnk := { c2.lnk with coll := c2.lnk.coll.filter (fun m => m.job != j) },
                      wrk := { c2.wrk with tasks := stopped } }
  let c4 := if c2.wrk.tasks.any (fun t => mine t.1 && !t.2.ended) then c3.noteEnd (c.jobPart j) else c3
  c4.shav 2 2 0x0014 j (c.jobPart j) code

/-! ### Memory -/

/-- The canonical form of memory: addresses strictly rising, no entry that reads as an unlisted address does (0). -/
def Memory.wf (m : List Host.Cell) : Bool := tabWf 0#8 m

/-- One byte of memory at a device address; memory is written zero before use (R511), so an unlisted byte reads 0 (log 7). -/
def Chip.byte (c : Chip) (a : Nat) : Byte := tabGet 0#8 c.mem a

/-- The `n` bytes from device address `a`. -/
def Chip.peek (c : Chip) (a n : Nat) : Bytes := (List.range n).map (fun i => c.byte (a + i))

/-- Bytes written from device address `a` upward. -/
def memWrite (m : List Host.Cell) : Nat → Bytes → List Host.Cell
  | _, [] => m
  | a, b :: t => memWrite (tabSet 0#8 m a b) (a + 1) t

/-- The chip with bytes written from device address `a`, memory alone. -/
def Chip.poke (c : Chip) (a : Nat) (b : Bytes) : Chip := { c with mem := memWrite c.mem a b }

/-- Whether the 64-bit word of address `a` holds the poison syndrome (R187, R198). -/
def Chip.poisoned (c : Chip) (a : Nat) : Bool := tabGet false c.ecc.poison (a / 8)
/-- The word of address `a` with or without the poison syndrome. -/
def Chip.setPois (c : Chip) (a : Nat) (b : Bool) : Chip :=
  { c with ecc := { c.ecc with poison := tabSet false c.ecc.poison (a / 8) b } }

/-- Usable DDR5 of a die, from DDR_CFG (R29, R194, R222). -/
def Chip.usable (c : Chip) (d : Nat) : Nat :=
  let r := c.reg d (ddrBlk 0)
  let dens := match bits r 3 2 with | 0 => 16 | 1 => 24 | _ => 32
  -- two subchannels of `ranks` ranks of two components; seven eighths are usable
  bits r 1 0 * dens * 4 * 134217728 / 8 * 7

/-- The target of a device address (R28–R30). -/
def Chip.decode (c : Chip) (a : Nat) : Target := decodeAddr c.usable a

/-- Who reads or writes (R192, R222): 0 a task, 1 scrub, 2 firmware, 3 ingest; its job and partition; whether the partition is SAFETY; its station, 1,024 for none. -/
structure Reader where
  kind : Nat := 2
  job : Nat := 0
  part : Nat := 0
  safety : Bool := false
  st : Nat := 1024
  deriving DecidableEq, Repr

/-- SRAM_ERR_DETAIL of an address without its task bit (R192): buffer, core, bank and word within the bank. -/
def sramDetail (t : Target) : Nat :=
  match t with
  | .cb _ k off => 0 + k <<< 2 + (off / 64 % 32) <<< 6 + (off / 2048 * 8 + off % 64 / 8) <<< 12
  | .ds _ k off => 1 + k <<< 2 + (off / 0x40000) <<< 6 + (off % 0x40000 / 8) <<< 12
  | .db d off =>
    let n := if d = 0 then 32 else 64
    2 + (off / 64 % n) <<< 6 + (off / 64 / n * 8 + off % 64 / 8) <<< 12
  | _ => 0

/-- The repair entry of an SRAM row: a row is one 64-byte line of its bank (R435; log 8). -/
def sramRepair (t : Target) : Repair :=
  match t with
  | .cb d k off => ⟨3, d, k, 0xFF, (off / 64 % 32) * 65536 + off / 2048⟩
  | .ds d k off => ⟨3, d, k + 1 <<< 4, 0xFF, (off / 0x40000) * 65536 + off % 0x40000 / 64⟩
  | .db d off =>
    let n := if d = 0 then 32 else 64
    ⟨3, d, 0xF + 2 <<< 4, 0xFF, (off / 64 % n) * 65536 + off / 64 / n⟩
  | _ => ⟨3, 0, 0, 0xFF, 0⟩

/-- A register pair latched as a first error: written only while the status register is zero (R192). -/
def Chip.latchIf (c : Chip) (d stat : Nat) (l : List (Nat × Nat)) : Chip :=
  if c.reg d stat = 0 then eachDo l (fun p c => c.setReg d p.1 p.2) c else c

/-- An entry added to the repair record: at most 1,024, none twice (R435). -/
def Chip.addRepair (c : Chip) (r : Repair) : Chip :=
  let same := fun (e : Repair) => e.kind == r.kind && e.die == r.die && e.unit == r.unit && e.index == r.index && (r.kind != 4 || e.spare % 2 == r.spare % 2)
  if c.ecc.repair.any same ∨ 1024 ≤ c.ecc.repair.length then c
  else { c with ecc := { c.ecc with repair := c.ecc.repair ++ [r] } }

/-- A corrected SRAM error (R188): counted, its write-back due, the threshold checked, and its row recorded. -/
def Chip.sramCe (c : Chip) (d a : Nat) (t : Target) (who : Reader) : Chip :=
  let c1 := c.addReg d (sramBlk + 0xC) 1
  let c2 := { c1 with ecc := { c1.ecc with wb := tabSet false c1.ecc.wb (a / 8) true } }
  let c3 := if c2.reg d (sramBlk + 0xC) = c2.cfg1 0x0102 0 64 then
      (c2.latchIf d sramBlk [(sramBlk + 4, sramDetail t ||| (b2n (who.kind == 0 && who.safety)) <<< 28), (sramBlk + 8, c2.turn32)]).raise
        d sramBlk 0 0x08
    else c2
  let row := a / 64
  let seen := tabGet 0 c3.ecc.ceRows row
  let c4 := { c3 with ecc := { c3.ecc with ceRows := tabSet 0 c3.ecc.ceRows row (c.turn + 1) } }
  if seen ≠ 0 ∧ seen ≠ c.turn + 1 ∧ c.cfg1 0x0102 2 1 = 1 then c4.addRepair (sramRepair t) else c4

/-- An uncorrectable SRAM word (R189, R190): the poison syndrome is written and the status set, bit 1 for a requester, bit 2 for scrub. -/
def Chip.sramUe (c : Chip) (d a : Nat) (t : Target) (who : Reader) : Chip :=
  let c1 := (c.addReg d (sramBlk + 0x10) 1).setPois a true
  (c1.latchIf d sramBlk [(sramBlk + 4, sramDetail t ||| (b2n (who.kind == 0 && who.safety)) <<< 28), (sramBlk + 8, c1.turn32)]).raise
    d sramBlk (if who.kind = 1 then 2 else 1) (if d = 0 then 0x22 else 0x09)

/-- Place of a usable DDR5 address (R201): subchannel, rank, bank group, bank, row, line in block. -/
structure DramLoc where
  sub : Nat
  rank : Nat
  bg : Nat
  bank : Nat
  row : Nat
  line : Nat
  block : Nat
  deriving DecidableEq, Repr

/-- The address map of R201. -/
def dramLoc (ranks a : Nat) : DramLoc :=
  let n := a / 64
  let b := n / 7
  let j := b / 2
  let j1 := j / 4
  let j2 := j1 / 8
  let j3 := j2 / 4
  ⟨b % 2, j3 % ranks, j % 4, j2 % 4, j3 / ranks, n % 7, j⟩

/-- A DRAM row as one number: rank, bank group, bank and row as DDR_ERR_DETAIL[21:0] holds them (R222). -/
def DramLoc.rowId (l : DramLoc) : Nat := l.rank + l.bg <<< 1 + l.bank <<< 3 + l.row <<< 5

/-- DDR_ERR_DETAIL and its companions for an error at usable address `a` (R222). -/
def Chip.ddrLatch (c : Chip) (d a : Nat) (l : DramLoc) (who : Reader) : Chip :=
  let line := a / 64 * 64
  c.latchIf d (ddrBlk l.sub + 4)
    [(ddrBlk l.sub + 8, l.rowId + l.line <<< 22 + who.kind <<< 25), (ddrBlk l.sub + 0xC, line % 2 ^ 32),
     (ddrBlk l.sub + 0x10, bits line 34 32 + (who.job % 64) <<< 3 + who.part <<< 9), (ddrBlk l.sub + 0x14, c.turn32)]

/-- A row added to the row-retirement list for an error at usable address `a` (R212): as SOFT; a SOFT row that a start has repaired becomes HARD; a full list sets
DDR_ERR_STATUS[6]. -/
def Chip.retireRow (c : Chip) (d a : Nat) (l : DramLoc) (who : Reader) : Chip :=
  let e : RowEnt := ⟨d, l.sub, l.rowId, false, false, false⟩
  let same := fun (r : RowEnt) => r.die == d && r.sub == l.sub && r.row == l.rowId
  if c.ecc.rowList.any same then
    { c with ecc := { c.ecc with rowList := c.ecc.rowList.map (fun r => if same r ∧ r.applied then { r with hard := true } else r) } }
  else if 256 ≤ (c.ecc.rowList.filter (fun r => r.die == d)).length then (c.ddrLatch d a l who).raise d (ddrBlk l.sub + 4) 6 0x0B
  else { c with ecc := { c.ecc with rowList := c.ecc.rowList ++ [e] } }

/-- Ranks of a die's subchannels (R194). -/
def Chip.ranks (c : Chip) (d : Nat) : Nat := max 1 (bits (c.reg d (ddrBlk 0)) 1 0)

/-- Place of the word that an error lies in: of the data line, or of the block's check line (R197, R201). -/
def Chip.errLoc (c : Chip) (d a : Nat) (chk : Bool) : DramLoc :=
  let l := dramLoc (c.ranks d) a
  if chk then { l with line := 7 } else l

/-- Usable address that the error registers name for an error at `a`: its line, or the block's first data line for a check line (R222). -/
def errAddr (a : Nat) (chk : Bool) : Nat := if chk then a / 448 * 448 else a

/-- A corrected DDR5 error (R202): counted on its subchannel, the die's threshold checked, a row with errors in two turns retired. -/
def Chip.ddrCe (c : Chip) (d a : Nat) (chk : Bool) (who : Reader) : Chip :=
  let l := c.errLoc d a chk
  let c1 := c.addReg d (ddrBlk l.sub + 0x18) 1
  let total := c1.reg d (ddrBlk 0 + 0x18) + c1.reg d (ddrBlk 1 + 0x18)
  let c2 := if total = c1.cfg1 0x0103 2 16 then (c1.ddrLatch d (errAddr a chk) l who).raise d (ddrBlk l.sub + 4) 0 0x08 else c1
  let key := (d * 2 + l.sub) * 16777216 + l.rowId
  let seen := tabGet 0 c2.ecc.ddrRows key
  let c3 := { c2 with ecc := { c2.ecc with ddrRows := tabSet 0 c2.ecc.ddrRows key (c.turn + 1) } }
  if seen ≠ 0 ∧ seen ≠ c.turn + 1 then c3.retireRow d (errAddr a chk) l who else c3

/-- An uncorrectable DDR5 word (R203, R206): the poison syndrome is written, into all seven data lines of the block for a check line, the status bits set, the
row retired. -/
def Chip.ddrUe (c : Chip) (d a : Nat) (chk : Bool) (who : Reader) : Chip :=
  let l := c.errLoc d a chk
  let words := if chk then (List.range 56).map (fun i => a / 448 * 448 + 8 * i) else [a]
  let c1 := eachDo words (fun w c => c.setPois (dieBase d + w) true) (c.addReg d (ddrBlk l.sub + 0x1C) 1)
  let c2 := (c1.ddrLatch d (errAddr a chk) l who).raise d (ddrBlk l.sub + 4) (if who.kind = 1 then 2 else 1) 0x09
  let c3 := if who.kind = 0 ∧ who.safety then c2.raise d (ddrBlk l.sub + 4) 3 0x09 else c2
  c3.retireRow d (errAddr a chk) l who

/-- One error that a read finds, applied where the word is not already poisoned (R188, R189, R202, R203). -/
def Chip.upset (c : Chip) (who : Reader) (u : Upset) : Chip :=
  let a := u.addr.toNat
  if c.poisoned a && !u.chk then c else
  match c.decode a with
  | .ddr d l => if u.ue then c.ddrUe d l u.chk who else c.ddrCe d l u.chk who
  | .db d o => if u.ue then c.sramUe d a (.db d o) who else c.sramCe d a (.db d o) who
  | .cb d k o => if u.ue then c.sramUe d a (.cb d k o) who else c.sramCe d a (.cb d k o) who
  | .ds d k o => if u.ue then c.sramUe d a (.ds d k o) who else c.sramCe d a (.ds d k o) who
  | _ => c

/-- Words touched by `n` bytes from `a`. -/
def wordsOf (a n : Nat) : List Nat := if n = 0 then [] else (List.range ((a + n - 1) / 8 - a / 8 + 1)).map (fun i => (a / 8 + i) * 8)

/-- The partition whose DDR5 region holds a usable address of die `d` (R215, R221). -/
def Chip.ddrOwner (c : Chip) (d a : Nat) : Option Nat :=
  (c.cfgAll 0x0202).findSome? fun v =>
    if v.getD 1 0 = d ∧ v.getD 2 0 ≤ a / 0x100000 ∧ a / 0x100000 < v.getD 2 0 + v.getD 3 0 then some (v.headD 0) else none

/-- Bytes of `n` bursts served to a partition in its metering window; every burst that its requests cause counts there (R216, R218). -/
def Chip.meter (c : Chip) (d : Nat) (own : Option Nat) (n : Nat) : Chip :=
  match own with
  | some p => { c with ecc := { c.ecc with served := tabMod 0 c.ecc.served (d * 4 + p) (· + 64 * n) } }
  | none => c

/-- Bursts counted to a partition, with the bytes of its metering window, or to the background traffic (R218, R222). -/
def Chip.bursts (c : Chip) (d sub : Nat) (own : Option Nat) (n : Nat) : Chip :=
  match own with
  | some p => (c.addReg d (ddrBlk sub + 0x40 + 4 * p) n).meter d own n
  | none => c.addReg d (ddrBlk sub + 0x50) n

/-- Check-line bursts: DDR_BW_BG counts them, and they are part of the bandwidth reserved to the partition whose access causes them (R216, R222). -/
def Chip.checkBursts (c : Chip) (d sub : Nat) (own : Option Nat) (n : Nat) : Chip := (c.addReg d (ddrBlk sub + 0x50) n).meter d own n

/-- A check line used by an access to block `b` of a subchannel (R198, R199): a miss costs one burst, a dirty eviction another; which of the 32 lines is evicted
is a free value. -/
def Chip.checkLine (c : Chip) (d sub b : Nat) (wr : Bool) (own : Option Nat) : Chip :=
  let k := d * 2 + sub
  let l := tabGet [] c.ecc.checks k
  let put := fun (c : Chip) (x : List (Nat × Bool)) => { c with ecc := { c.ecc with checks := tabSet [] c.ecc.checks k x } }
  if l.any (fun e => e.1 == b) then (if wr then put c (l.map (fun e => if e.1 == b then (b, true) else e)) else c)
  else
    let c1 := c.checkBursts d sub own 1
    if l.length < 32 then put c1 (l ++ [(b, wr)])
    else
      let x := c1.draw
      let i := x.1 % 32
      let c2 := if (l.getD i (0, false)).2 then x.2.checkBursts d sub own 1 else x.2
      put c2 (l.set i (b, wr))

/-- Key of a bank: die, subchannel, and rank × 16 + bank group × 4 + bank. -/
def bankKey (d sub b : Nat) : Nat := (d * 2 + sub) * 32 + b
/-- The bank of a place. -/
def DramLoc.bankOf (l : DramLoc) : Nat := l.rank * 16 + l.bg * 4 + l.bank

/-- An RFM to a bank: counted, and the bank's rolling count falls by RAAIMT (R209; log 132). -/
def Chip.rfmBank (c : Chip) (d sub b : Nat) : Chip :=
  let k := bankKey d sub b
  let c1 := c.addReg d (ddrBlk sub + 0x30) 1
  { c1 with ecc := { c1.ecc with raa := tabSet 0 c1.ecc.raa k (tabGet 0 c1.ecc.raa k - (tabGet (0, 0) c1.ecc.rfm d).1) } }

/-- A row opened in its bank for an access, unless it is open: the bank's rolling activation count rises by one, after an RFM where it would pass RAAMMT (R209; log 132). -/
def Chip.activate (c : Chip) (d : Nat) (l : DramLoc) : Chip :=
  let k := bankKey d l.sub l.bankOf
  if tabGet 0 c.ecc.rows k = l.row + 1 then c
  else
    let m := tabGet (0, 0) c.ecc.rfm d
    let c1 := { c with ecc := { c.ecc with rows := tabSet 0 c.ecc.rows k (l.row + 1) } }
    if m.1 = 0 then c1
    else
      let c2 := if m.2 ≤ tabGet 0 c1.ecc.raa k then c1.rfmBank d l.sub l.bankOf else c1
      { c2 with ecc := { c2.ecc with raa := tabMod 0 c2.ecc.raa k (· + 1) } }

/-- The bursts of an access of `n` bytes at usable address `a`: one per line, two for a line written in part (R199). -/
def Chip.access (c : Chip) (d a n : Nat) (wr : Bool) (own : Option Nat) : Chip :=
  if n = 0 then c
  else eachDo ((List.range ((a + n - 1) / 64 - a / 64 + 1)).map (· + a / 64)) (fun line c =>
    let l := dramLoc (c.ranks d) (64 * line)
    let whole := decide (a ≤ 64 * line ∧ 64 * line + 64 ≤ a + n)
    ((c.activate d l).bursts d l.sub own (if wr && !whole then 2 else 1)).checkLine d l.sub l.block wr own) c

/-- The controller's share of an access at device address `a`, where it names DDR5; scrub and firmware count as background (R222). -/
def Chip.ddrAccess (c : Chip) (who : Option Reader) (a n : Nat) (wr : Bool) : Chip :=
  match c.decode a with
  | .ddr d l =>
    c.access d l n wr (match who with
      | some r => if r.kind = 0 ∨ r.kind = 3 then some r.part else none
      | none => c.ddrOwner d l)
  | _ => c

/-! ### Handshake FIFOs -/

/-- Entries per direction and entry width of a handshake FIFO, by crossing (R23): 0 a core to the die fabric, 1 the die buffer, 2 a DDR5 controller, 3 a die-to-die adapter, 4 a
firmware processor, 5 a port or parting gate to the headstock fabric, 6 the headstock buffer. -/
def hsDepth (kind : Nat) : Nat := match kind with | 0 => 16 | 3 => 16 | 4 => 8 | _ => 32
/-- Entry width in bytes. -/
def hsWidth (kind : Nat) : Nat := match kind with | 3 => 256 | 4 => 16 | _ => 64

/-- Key of a handshake FIFO: its crossing, die and unit, toward the fabric (0) or from it (1). -/
def hsKey (kind die u dir : Nat) : Nat := ((kind * 8 + die) * 64 + u) * 2 + dir

/-- Bytes that cross between two islands through their FIFO (R22–R24): it keeps the last entries written, up to its depth; none is dropped, since a writer that finds it full
waits for the reader (log 133). -/
def Chip.hsPut (c : Chip) (kind die u dir : Nat) (b : Bytes) : Chip :=
  let k := hsKey kind die u dir
  let all := tabGet [] c.ecc.hs k ++ chunks (hsWidth kind) b
  { c with ecc := { c.ecc with hs := tabSet [] c.ecc.hs k (all.drop (all.length - hsDepth kind)) } }

/-- The physical core of a core's station (R25). -/
def stCore (st : Nat) : Option Nat := if 128 ≤ st ∧ st < 1024 ∧ 32 ≤ st % 128 ∧ st % 128 < 68 then some ((st % 128 - 32) / 4) else none

/-- The crossings of data between a requester's station and the memory that holds device address `a` (R23; log 133): a DDR5 controller's and a core's FIFO with the die fabric, a die
buffer's or the headstock buffer's. A core's own buffers lie in its island, and it reaches its die's buffer beside the fabric (R168). -/
def Chip.hsPass (c : Chip) (st a : Nat) (toMem : Bool) (b : Bytes) : Chip :=
  let far := if toMem then 1 else 0
  let near := if toMem then 0 else 1
  let own := fun (c : Chip) => match stCore st with | some k => c.hsPut 0 (st / 128) k near b | none => c
  match c.decode a with
  | .ddr d l => own (c.hsPut 2 d (dramLoc (c.ranks d) l).sub far b)
  | .db d _ => if (stCore st).isSome && st / 128 == d then c else own (if d = 0 then c.hsPut 6 0 0 far b else c.hsPut 1 d 0 far b)
  | .cb d k _ => if stCore st = some k ∧ st / 128 = d then c else c.hsPut 0 d k far b
  | .ds d k _ => if stCore st = some k ∧ st / 128 = d then c else c.hsPut 0 d k far b
  | _ => c

/-! ### Station counters -/

/-- Whether a station's real work is held for the test blank: every such cycle counts TESTWIN and nothing else (R325, R471). -/
def Chip.isHeld (c : Chip) (st : Nat) : Bool := c.fab.held.any (fun h => h.1 / 4 == st)

/-- Cycles counted BUSY at a station, in the turn and in its current command (R469, R472, R475). -/
def Chip.busy (c : Chip) (st n : Nat) : Chip :=
  if c.isHeld st then c
  else
    let o := cntBlk (stIdx st)
    (c.addReg48 (stDie st) o n).addReg48 (stDie st) (o + 0x80) n

/-- Cycles counted STALL under reason `r`, whatever the station does (R470, R475). -/
def Chip.stallAt (c : Chip) (st r n : Nat) : Chip :=
  let o := cntBlk (stIdx st)
  let d := stDie st
  (((c.addReg48 d (o + 8) n).addReg48 d (o + 0x20 + 8 * (r - 1)) n).addReg48 d (o + 0x88) n).addReg48 d (o + 0xA0 + 8 * (r - 1)) n

/-- Cycles counted STALL under reason `r` of R470, outside a test blank. -/
def Chip.stall (c : Chip) (st r n : Nat) : Chip := if c.isHeld st then c else c.stallAt st r n

/-- Cycles in which an access of a station waits for a bank's port, for a stretched island or for a full FIFO: how many is timing, so BANK (0x4) rises by a free number
(R24, R168, R169; log 134). An MX's accesses are its pass's own cycles. -/
def Chip.bank (c : Chip) (st : Nat) : Chip :=
  if 1024 ≤ st then c else let x := c.draw; x.2.stall st 4 x.1

/-- Whether a device address lies in a core buffer or a drain store (R28). -/
def inCore (a : Nat) : Bool := decide (dieBase 1 ≤ a) && decide (cbBase 0 ≤ a % 2 ^ 44 ∧ a % 2 ^ 44 < dsBase 9)

/-- Whether a byte is core-buffer or drain-store content that no access of this turn has written: its value did not persist, and reading it gives a free value (R18; log 135). -/
def Chip.stale (c : Chip) (a : Nat) : Bool := inCore a && !tabGet false c.ecc.live a

/-- Bytes of a core buffer or drain store written in this turn. -/
def Chip.markLive (c : Chip) (a n : Nat) : Chip :=
  if inCore a then { c with ecc := { c.ecc with live := (List.range n).foldl (fun t i => tabSet false t (a + i) true) c.ecc.live } } else c

/-! ### Reads and writes -/

/-- The `n` bytes at device address `a` as they stand, with the offsets of the poisoned ones: the data of a poisoned word, and of a byte whose content did not persist, is free
(R18, R189, R203). -/
def Chip.look (c : Chip) (a n : Nat) : Chip × Bytes × List Nat :=
  let free := fun (i : Nat) => c.poisoned (a + i) || c.stale (a + i)
  let data := (List.range n).map (fun i => if free i then Config.poisonedData c.free (a + i) else c.byte (a + i))
  ({ c with free := if (List.range n).any free then c.free + 1 else c.free }, data, (List.range n).filter (fun i => c.poisoned (a + i)))

/-- A read of `n` bytes at device address `a`: the errors that it finds take effect, and each byte of a poisoned word comes back marked, its data
free (R189, R203). -/
def Chip.read (c : Chip) (who : Reader) (ups : Upsets) (a n : Nat) : Chip × Bytes × List Nat :=
  let hit := ups.filter (fun u => decide (a / 8 ≤ u.addr.toNat / 8 ∧ u.addr.toNat / 8 ≤ (a + n - 1) / 8 ∧ n ≠ 0))
  let c1 := eachDo hit (fun u c => c.upset who u) (c.ddrAccess (some who) a n false)
  let x := c1.look a n
  (if who.kind = 1 then x.1 else (x.1.hsPass who.st a false x.2.1).bank who.st, x.2.1, x.2.2)

/-- Whether an error lies in what a write of `n` bytes at `a` reads first: a word, or a DDR5 line, that it covers only in part (R187, R199), or the check line that it merges
its check bits into. -/
def rmwReads (ddr : Bool) (a n : Nat) (u : Upset) : Bool :=
  let x := u.addr.toNat
  let g := if ddr then 64 else 8
  let lo := x / g * g
  n != 0 && decide (a / g ≤ x / g ∧ x / g ≤ (a + n - 1) / g) && (u.chk || !decide (a ≤ lo ∧ lo + g ≤ a + n))

/-- A write of bytes at device address `a` with the offsets of its poisoned bytes: a full-word write clears poison, a shorter write leaves it, and a
word that takes a poisoned byte holds the poison syndrome (R185, R187, R189, R199, R204). The errors that a read-modify-write finds take effect first (R188, R189, R202, R203). -/
def Chip.write (c : Chip) (a : Nat) (b : Bytes) (pois : List Nat) (who : Reader := {}) (ups : Upsets := []) : Chip :=
  let n := b.length
  let ddr := match c.decode a with | .ddr _ _ => true | _ => false
  let c0 := eachDo (ups.filter (rmwReads ddr a n)) (fun u c => c.upset who u) (((c.hsPass who.st a true b).bank who.st).ddrAccess none a n true)
  let c1 := (c0.poke a b).markLive a n
  eachDo (wordsOf a n) (fun w c =>
    let bad := pois.any (fun o => (a + o) / 8 * 8 == w)
    if bad then c.setPois w true
    else if a ≤ w ∧ w + 8 ≤ a + n then c.setPois w false
    else c) c1

/-! ### Stations of a core -/

/-- Station number of station `i` (0 MX, 1 WF, 2 VX, 3 DM) of physical core `k` of die `d` (R25). -/
def coreStn (d k i : Nat) : Nat := d * 128 + 32 + 4 * k + i

end Sys2Proof.Machine
end

