-- ==== Sys2Proof/Machine/Ingest.lean ====
section
/-! DEFINITION. Machine/Ingest.lean: ingest rings and views of streams and lidars: their geometry (R255, R256, R295), entry headers (R257), views (R259, R260), and
the drops and images they count (R264, R265). A ring is numbered 0–47 for a stream, 48–55 for a lidar. -/
namespace Sys2Proof.Machine

/-- `x` rounded up to a multiple of `m`. -/
def roundUp (x m : Nat) : Nat := cdiv x m * m

/-- Bits per pixel of a CSI-2 data type (R252). -/
def csiBits (dt : Nat) : Nat :=
  match dt with | 0x2B => 10 | 0x2C => 12 | 0x2D => 14 | 0x2F => 20 | _ => 16

/-- The STREAM record of a stream (R280). -/
def Chip.stream (c : Chip) (s : Nat) : Option (List Nat) := (c.cfgRec 0x0402 s).map (·.vals)
/-- The LIDAR record of a lidar (R314). -/
def Chip.lidar (c : Chip) (l : Nat) : Option (List Nat) := (c.cfgRec 0x0502 l).map (·.vals)

/-- Bytes of one image line on the wire. -/
def lineBytes (v : List Nat) : Nat := v.getD 4 0 * csiBits (v.getD 3 0) / 8
/-- Height and width of the level 0 plane (R254). -/
def planeDims (v : List Nat) : Nat × Nat := if v.getD 3 0 = 0x1E then (v.getD 5 0, v.getD 4 0 / 2) else (v.getD 5 0 / 2, v.getD 4 0 / 2)
/-- Bytes of level `l`. -/
def levelSize (v : List Nat) (l : Nat) : Nat :=
  packedSize (v.getD 12 5) (v.getD 13 0) ((planeDims v).1 / 2 ^ l) ((planeDims v).2 / 2 ^ l) 4 1
/-- Offset of level `l` within an entry (R256). -/
def levelOff (v : List Nat) : Nat → Nat
  | 0 => roundUp (64 + v.getD 6 0 * roundUp (lineBytes v) 64) 4096
  | l + 1 => roundUp (levelOff v l + levelSize v l) 4096

/-- What the rings of streams and lidars share. -/
structure RingCfg where
  die : Nat
  base : Nat
  entries : Nat
  view : Nat
  stride : Nat
  div : Nat
  phase : Nat
  port : Nat
  limit : Nat
  offs : List Nat
  deriving DecidableEq, Repr

/-- A ring's geometry from its record and its port's (R256, R280, R295, R314). -/
def Chip.ringCfg (c : Chip) (s : Nat) : Option RingCfg :=
  if s < 48 then
    (c.stream s).map fun v =>
      let n := max 1 (v.getD 15 1)
      let offs := (List.range n).map (levelOff v)
      ⟨v.getD 19 0, v.getD 20 0 * 65536, v.getD 21 3, v.getD 22 0 * 65536,
        roundUp (levelOff v (n - 1) + levelSize v (n - 1)) 65536, max 1 (v.getD 16 1), v.getD 17 0, v.getD 1 0,
        c.cfgBy 0x0401 (v.getD 1 0) 22 3, offs⟩
  else
    (c.lidar (s - 48)).map fun v =>
      ⟨v.getD 8 0, v.getD 9 0 * 65536, v.getD 10 3, v.getD 11 0 * 65536, v.getD 7 0 * 1024 + 65536, max 1 (v.getD 5 1), v.getD 6 0,
        v.getD 1 0, v.getD 12 3, [64]⟩

/-- The configured rings. -/
def Chip.ringList (c : Chip) : List Nat := (c.cfgAll 0x0402).map (·.headD 0) ++ (c.cfgAll 0x0502).map (fun v => v.headD 0 + 48)

/-- A ring's state. -/
def Chip.ring (c : Chip) (s : Nat) : Ring := tabGet {} c.sns.rings s
/-- The chip with that ring state. -/
def Chip.setRing (c : Chip) (s : Nat) (v : Ring) : Chip := { c with sns := { c.sns with rings := tabSet {} c.sns.rings s v } }
/-- An entry of a ring. -/
def Ring.ent (r : Ring) (e : Nat) : Entry := tabGet {} r.ents e
/-- The ring with that entry. -/
def Ring.setEnt (r : Ring) (e : Nat) (v : Entry) : Ring := { r with ents := tabSet {} r.ents e v }

/-- Device address of entry `e` of a ring; entry number `entries` is the fill entry (R256). -/
def RingCfg.entry (g : RingCfg) (e : Nat) : Nat := dieBase g.die + g.base + e * g.stride

/-- Whether turn `t` is a sync turn (R259). -/
def RingCfg.sync (g : RingCfg) (t : Nat) : Bool := t % g.div == g.phase % g.div

/-- The address behind a view: offset o of the view reaches offset o of the mapped entry (R260); an address outside every view is itself. -/
def Chip.viewMap (c : Chip) (a : Nat) : Nat :=
  (c.ringList.findSome? fun s =>
    match c.ringCfg s with
    | some g =>
      let b := dieBase g.die + g.view
      if b ≤ a ∧ a < b + g.stride then
        let v := (c.ring s).view
        some (g.entry (if v = 0 then g.entries else v - 1) + (a - b))
      else none
    | none => none).getD a

/-- Whether an access of `n` bytes at `a` touches a view (R260). -/
def Chip.inView (c : Chip) (a n : Nat) : Bool :=
  c.ringList.any fun s =>
    match c.ringCfg s with
    | some g => let b := dieBase g.die + g.view; decide (a < b + g.stride) && decide (b < a + n)
    | none => false

/-- The pieces, as address and length, that the edges of the views cut an access of `n` bytes at `a` into (R260). -/
def Chip.viewPieces (c : Chip) (a n : Nat) : List (Nat × Nat) :=
  let edges := c.ringList.flatMap (fun s => match c.ringCfg s with
    | some g => [dieBase g.die + g.view, dieBase g.die + g.view + g.stride].filter (fun e => decide (a < e ∧ e < a + n))
    | none => [])
  let cuts := a :: edges.eraseDups.mergeSort
  (cuts.zip (cuts.drop 1 ++ [a + n])).map (fun x => (x.1, x.2 - x.1))

/-- A task's read at device address `a` (R260): what lies in a view comes from its mapped entry, what lies beside it from where it is. -/
def Chip.readTask (c : Chip) (who : Reader) (ups : Upsets) (a n : Nat) : Chip × Bytes × List Nat :=
  (c.viewPieces a n).foldl (fun (x : Chip × Bytes × List Nat) p =>
    let rd := x.1.read who ups (x.1.viewMap p.1) p.2
    (rd.1, x.2.1 ++ rd.2.1, x.2.2 ++ rd.2.2.map (· + x.2.1.length))) (c, [], [])

/-- Offset of a ring's SP_IMG register, or of its LD_STAT (R281, R317); streams of a port count in ascending stream number (log 32). -/
def Chip.imgOff (c : Chip) (s : Nat) : Nat :=
  if s < 48 then
    let p := ((c.stream s).getD []).getD 1 0
    spBlk p + 0x20 + 4 * (((c.cfgAll 0x0402).filter (fun v => v.getD 1 0 == p && decide (v.headD 0 < s))).length % 4)
  else ldStat (s - 48)

/-- A drop noted (R265): counted with its reason, and a trace point. -/
def Chip.noteDrop (c : Chip) (s reason : Nat) : Chip :=
  let o := c.imgOff s
  let c1 := (c.setFld 0 o 15 8 (min 255 (c.fld 0 o 15 8 + 1))).setFld 0 o 27 24 reason
  c1.shav 2 2 0x0011 (if s < 48 then s else s - 48) reason (((c.ringCfg s).map (·.port)).getD 0)

/-- The image in progress of a ring dropped whole: its entry is FREE again (R264). -/
def Chip.dropImage (c : Chip) (s reason : Nat) : Chip :=
  let r := c.ring s
  match r.img with
  | none => c
  | some i => (c.setRing s { r.setEnt i.ent {} with img := none }).noteDrop s reason

/-- An entry's image READY (R258, R265). -/
def Chip.madeReady (c : Chip) (s e : Nat) : Chip :=
  let r := c.ring s
  if (r.ent e).st ≠ .verifying then c
  else
    let o := c.imgOff s
    let c1 := c.setRing s { r.setEnt e { r.ent e with st := .ready } with ready := r.ready + 1 }
    (c1.setFld 0 o 7 0 (min 255 (c1.fld 0 o 7 0 + 1))).setFld 0 o 23 16 0

/-- An ingest contribution that failed in a QM partition: its entry is FREE, reason DIGEST (R264). -/
def Chip.ingestFailed (c : Chip) (s e : Nat) : Chip :=
  let r := c.ring s
  if (r.ent e).st ≠ .verifying then c else (c.setRing s (r.setEnt e {})).noteDrop s 7

/-- The 64-byte entry header (R257, R295). -/
def entryHdr (version status s tag ts bound flags frameNo emb seq : Nat) (offs : List Nat) : Bytes :=
  let b := toLE 2 version ++ toLE 1 status ++ toLE 1 s ++ toLE 4 tag ++ toLE 8 (ts / 65536) ++ toLE 2 (ts % 65536) ++ toLE 2 (min 65535 bound)
    ++ toLE 1 flags ++ toLE 1 offs.length ++ toLE 2 frameNo ++ toLE 4 emb ++ toLE 4 seq
    ++ toLE 4 (offs.getD 0 0) ++ toLE 4 (offs.getD 1 0) ++ toLE 4 (offs.getD 2 0) ++ toLE 16 0
  b ++ toLE 4 (crc32c b)

/-- The fill entry's header with turn tag `tag` (R259). -/
def fillHdr (s tag : Nat) (offs : List Nat) : Bytes := entryHdr (if s < 48 then 1 else 2) 1 (if s < 48 then s else s - 48) tag 0 0 0 0 0 0 offs

end Sys2Proof.Machine
end

