-- ==== Sys2Proof/Machine/Lanes.lean ====
section
/-! DEFINITION. Machine/Lanes.lean: the arithmetic of the matrix arrays: weight runs (R79–R81), lane outputs (R90–R93), column sums (R98) and the two
checks (R99, R100). -/
namespace Sys2Proof.Machine

/-- arr_mask of an MX_PASS (R82). -/
def mxMask (d : Nat) : Nat := bits d 195 192
/-- sparse. -/
def mxSparse (d : Nat) : Bool := bit d 196
/-- act_format. -/
def mxAct (d : Nat) : Nat := bits d 207 200
/-- wt_format. -/
def mxWt (d : Nat) : Nat := bits d 215 208
/-- vec_count. -/
def mxVecs (d : Nat) : Nat := bits d 239 216
/-- tol_shift. -/
def mxTol (d : Nat) : Nat := bits d 244 240
/-- mx_base. -/
def mxBase (d : Nat) : Nat := bits d 256 248

/-- Vector length K (R73). -/
def vecLen (f : Nat) (sparse : Bool) : Nat := (if sparse then 2 else 1) * (512 / elemBits f)

/-- Kept weights per lane (R73). -/
def keptLen (f : Nat) : Nat := 512 / elemBits f

/-- Whether the pair is an integer pair (R74); MXINT8 counts as one. -/
def pairInt (wt : Nat) : Bool := wt == 1 || wt == 2 || wt == 0x0D

/-- Bytes of one lane's run in a weight tile (R76, R81). -/
def runBytes (wt : Nat) (sparse : Bool) : Nat :=
  let K := vecLen wt sparse
  64 + (if isMx wt then K / 32 else 0) + (if sparse then keptLen wt / 4 else 0)

/-- 2-bit index of kept weight `k` in a run's metadata (R79). -/
def metaIx (md : Array Byte) (k : Nat) : Nat := ((md.getD (k / 4) 0#8).toNat >>> (2 * (k % 4))) % 4

/-- A lane's weights: the code at each dense position, none where a sparse lane keeps no weight, and the scale byte of each 32 positions (127 in a
format without scales). -/
structure LaneW where
  codes : List (Option Nat)
  scales : List Nat
  deriving DecidableEq, Repr

/-- The weights that a run holds (R79–R81). -/
def laneWeights (wt : Nat) (sparse : Bool) (run : Bytes) : LaneW :=
  let a := run.toArray
  let eb := elemBits wt
  let K := vecLen wt sparse
  let kept := keptLen wt
  let sc := (List.range (cdiv K 32)).map fun b => if isMx wt then (a.getD (64 + b) 0#8).toNat else 127
  let code := fun k => codeAt a eb (k * eb / 8, k * eb % 8)
  if sparse then
    let md := (run.drop (64 + (if isMx wt then K / 32 else 0))).toArray
    ⟨(List.range K).map fun i =>
      let k0 := 2 * (i / 4)
      if metaIx md k0 = i % 4 ∧ k0 < kept then some (code k0)
      else if metaIx md (k0 + 1) = i % 4 ∧ k0 + 1 < kept then some (code (k0 + 1))
      else none, sc⟩
  else ⟨(List.range K).map fun i => some (code i), sc⟩

/-- Whether a sparse run's metadata keeps the order of R79. -/
def metaOk (wt : Nat) (run : Bytes) : Bool :=
  let md := (run.drop (64 + (if isMx wt then vecLen wt true / 32 else 0))).toArray
  (List.range (keptLen wt / 2)).all fun g => metaIx md (2 * g) < metaIx md (2 * g + 1)

/-- The 64 runs of a weight tile's payload, in lane order (R80). -/
def laneRuns (wt : Nat) (sparse : Bool) (payload : Bytes) : List Bytes :=
  (List.range 64).map fun j => slice payload (j * runBytes wt sparse) (runBytes wt sparse)

/-- Raw integer of an element of an integer format: INT4, INT8, UINT8, MXINT8 (R75). -/
def intElem (f x : Nat) : Int := if f = 3 then (x % 256 : Nat) else sext (elemBits f) x

/-- Value of an element of a floating pair's format under its scale (R75, R77). -/
def fpElem (f x X : Nat) : Fv :=
  match f with
  | 0x08 => decE4M3 x
  | 0x09 => decE5M2 x
  | 0x10 => decF16 x
  | 0x11 => decBf16 x
  | _ => decMx f x X

/-- sh_b of R91 with the shift exponent `e`. -/
def shB (x : Int) (e : Int) : Nat :=
  if e < 0 then 0 else if 32 ≤ e then 0 else wrap 32 (ishl x e.toNat)

/-- Sum modulo 2^32. -/
def sum32 (l : List Nat) : Nat := l.foldl (fun s x => (s + x) % 2 ^ 32) 0

/-- An activation vector of a pass: element codes and block scales. -/
structure Act where
  elems : List Nat
  scales : List Nat
  deriving DecidableEq, Repr

/-- Shift exponent of block `b` (R91), none where either scale is 0xFF. -/
def blockExp (base : Nat) (xa xw : Nat) : Option Int :=
  if xa = 255 ∨ xw = 255 then none else some ((xa : Int) + xw - base)

/-- Σ_b sh_b of the sums of each block's products, modulo 2^32 (R91). -/
def mxSum (base : Nat) (sa sw : List Nat) (prods : List Int) : Nat :=
  sum32 ((chunks 32 prods).zipIdx.map fun b =>
    match blockExp base (sa.getD b.2 127) (sw.getD b.2 127) with
    | some e => shB (sumInt b.1) e
    | none => 0)

/-- Lane output of an integer pair (R90, R91). -/
def laneInt (act wt base : Nat) (a : Act) (w : LaneW) : Nat :=
  let prods := (a.elems.zip w.codes).map fun p =>
    match p.2 with
    | some x => intElem act p.1 * intElem wt x
    | none => 0
  if wt = 0x0D then mxSum base a.scales w.scales prods else wrap 32 (sumInt prods)

/-- Operand pairs of a floating lane's products (R92). -/
def laneProds (act wt : Nat) (a : Act) (w : LaneW) : List (Fv × Fv) :=
  (a.elems.zip w.codes).zipIdx.filterMap fun p =>
    match p.1.2 with
    | some x => some (fpElem act p.1.1 (a.scales.getD (p.2 / 32) 127), fpElem wt x (w.scales.getD (p.2 / 32) 127))
    | none => none

/-- Exact product of two finite elements. -/
def fvMul (x y : Fv) : Dy := dyMul (fvDy x) (fvDy y)

/-- Whether a product is NaN, infinite or infinity × 0. -/
def prodBad (p : Fv × Fv) : Bool := !(fvFinite p.1 && fvFinite p.2)

/-- Sign of a value. -/
def fvNeg : Fv → Bool
  | .fin n _ _ => n
  | .inf n => n
  | .nan => false

/-- Whether a value is zero. -/
def fvZero : Fv → Bool
  | .fin _ m _ => m == 0
  | _ => false

/-- Lane output of a floating pair (R92, R93). -/
def laneFp (act wt : Nat) (a : Act) (w : LaneW) : Nat :=
  let ps := laneProds act wt a w
  let infs := ps.filter prodBad
  if infs.isEmpty then rne32 (tsum (ps.map fun p => fvMul p.1 p.2))
  else if infs.any (fun p => p.1 == .nan || p.2 == .nan || fvZero p.1 || fvZero p.2) then arrayNaN
  else
    let signs := infs.map (fun p => fvNeg p.1 != fvNeg p.2)
    if signs.any id && signs.any (fun b => !b) then arrayNaN else inf32 (signs.headD false)

/-- Lane output (R90–R93). -/
def laneOut (d : Nat) (a : Act) (w : LaneW) : Nat :=
  if pairInt (mxWt d) then laneInt (mxAct d) (mxWt d) (mxBase d) a w else laneFp (mxAct d) (mxWt d) a w

/-- Column sum s_i of an integer pair at dense position `i` (R98). -/
def colInt (wt : Nat) (ws : List LaneW) (i : Nat) : Int :=
  sumInt (ws.map fun w => match w.codes.getD i none with | some x => intElem wt x | none => 0)

/-- Finite weight values at dense position `i` with a sign rule, summed exactly. -/
def colFp (abs : Bool) (wt : Nat) (ws : List LaneW) (i : Nat) : List Fv × Dy :=
  let vs := ws.filterMap fun w => (w.codes.getD i none).map fun x => fpElem wt x (w.scales.getD (i / 32) 127)
  (vs, (vs.filter fvFinite).foldl (fun s v => dyAdd s (if abs then dyAbs (fvDy v) else fvDy v)) ⟨0, 0⟩)

/-- s_i or m_i of a floating pair as FP32 (R98); a column with a NaN or infinite weight is not finite: the NaN of R75, or the infinity of its sign (log 144). -/
def colFp32 (abs : Bool) (wt : Nat) (ws : List LaneW) (i : Nat) : Nat :=
  let r := colFp abs wt ws i
  if r.1.all fvFinite then rne32 r.2
  else if r.1.any (· == .nan) then arrayNaN
  else
    let infs := r.1.filter (fun v => !fvFinite v)
    if !abs && infs.any fvNeg && infs.any (fun v => !fvNeg v) then arrayNaN else inf32 (!abs && fvNeg (infs.headD .nan))

/-- Outcome of a check: whether it fails, whether it failed on the non-finite comparison, both sides non-finite, and the values of MXCHK_DIFF and
MXCHK_BAND. -/
structure Check where
  fail : Bool
  nonFin : Bool := false
  bothNon : Bool := false
  diff : Nat := 0
  band : Nat := 0
  deriving DecidableEq, Repr

/-- The floating comparison of R99: band = max(m × 2^−t, 2^−126). -/
def bandCheck (nfc nfd : Bool) (c d m : Dy) (t : Nat) : Check :=
  if nfc || nfd then
    if nfc != nfd then { fail := true, nonFin := true, diff := arrayNaN, band := arrayNaN }
    else { fail := false, bothNon := true }
  else
    let b0 : Dy := ⟨m.m, m.e - t⟩
    let band := if dyLt b0 ⟨1, -126⟩ then ⟨1, -126⟩ else b0
    let diff := dyAbs (dyAdd c (dyNeg d))
    if dyLt band diff then { fail := true, diff := up32 diff, band := down32 band } else { fail := false }

/-- The product check of one array for one vector (R99): `ws` are the 64 lanes' weights, `ys` the lane outputs. -/
def productCheck (d : Nat) (a : Act) (ws : List LaneW) (ys : List Nat) : Check :=
  let act := mxAct d
  let wt := mxWt d
  let K := a.elems.length
  if pairInt wt then
    let col := (List.range K).map (colInt wt ws)
    let prods := (a.elems.zip col).map fun p => intElem act p.1 * p.2
    let c :=
      if wt = 0x0D then mxSum (mxBase d) a.scales (match ws with | w :: _ => w.scales | [] => []) prods
      else wrap 32 (sumInt prods)
    let s := sum32 ys
    { fail := c != s, diff := wrap 32 ((s : Int) - c) }
  else
    let acts := a.elems.zipIdx.map fun p => fpElem act p.1 (a.scales.getD (p.2 / 32) 127)
    let ss := (List.range K).map (colFp32 false wt ws)
    let ms := (List.range K).map (colFp32 true wt ws)
    let nfc := (acts.zip ss).any fun p => !fvFinite p.1 || !isFin32 p.2
    let nfd := ys.any (fun y => !isFin32 y)
    bandCheck nfc nfd
      (tsum ((acts.zip ss).map fun p => dyMul (fvDy p.1) (dy32 p.2)))
      (tsum (ys.map dy32))
      (tsum ((acts.zip ms).map fun p => dyMul (dyAbs (fvDy p.1)) (dy32 p.2)))
      (mxTol d)

/-- The accumulate check of one array for one vector (R100). -/
def accumCheck (d : Nat) (old ys new : List Nat) : Check :=
  if pairInt (mxWt d) then
    let c := sum32 (old ++ ys)
    let s := sum32 new
    { fail := c != s, diff := wrap 32 ((s : Int) - c) }
  else
    bandCheck ((old ++ ys).any (fun y => !isFin32 y)) (new.any (fun y => !isFin32 y))
      (tsum ((old ++ ys).map dy32)) (tsum (new.map dy32)) (tsum ((old ++ ys).map (fun y => dyAbs (dy32 y)))) (mxTol d)

/-- A lane's accumulation (R96). -/
def laneAccum (wt old y : Nat) : Nat :=
  if pairInt wt then (old + y) % 2 ^ 32 else faddN arrayNaN old y

/-- MXINT8 blocks set to 0 under R91 in one vector of one array. -/
def underflows (d : Nat) (a : Act) (w : LaneW) : Nat :=
  if mxWt d ≠ 0x0D then 0 else
  ((List.range (a.elems.length / 32)).filter fun b =>
    match blockExp (mxBase d) (a.scales.getD b 127) (w.scales.getD b 127) with
    | some e => decide (e < 0)
    | none => true).length

/-- Whether a weight tile's payload passes R78 (MXINT8 scales common to the lanes), R79 (metadata order) and R98 (no column magnitude overflows). -/
def weightsOk (d : Nat) (payload : Bytes) : Bool :=
  let wt := mxWt d
  let runs := laneRuns wt (mxSparse d) payload
  let ws := runs.map (laneWeights wt (mxSparse d))
  (wt != 0x0D || ws.all (fun w => w.scales == (match ws with | v :: _ => v.scales | [] => [])))
    && (!mxSparse d || runs.all (metaOk wt))
    && (pairInt wt || (List.range (vecLen wt (mxSparse d))).all fun i =>
        let r := colFp true wt ws i
        isFin32 (rne32 r.2))

end Sys2Proof.Machine
end

