-- ==== Sys2Proof/Machine/Fabric.lean ====
section
/-! DEFINITION. Machine/Fabric.lean: logical cores, tasks and their bounds (R16–R19, R172–R176), queue descriptors and slots (R48–R53), and how a command
ends (R45, R46, R64, R65, R70, R173, R204). -/
namespace Sys2Proof.Machine

/-! ### The core map -/

/-- Physical core of logical core `l` of die `d` (CORE_MAP, R340). -/
def Chip.physOf (c : Chip) (d l : Nat) : Nat := bits (c.reg d (tsBlk + 0x5C)) (4 * l + 3) (4 * l)

/-- Logical core on physical core `k` of die `d`, if it carries one (R17). -/
def Chip.logOf (c : Chip) (d k : Nat) : Option Nat :=
  if bits (c.reg d (tsBlk + 0xC)) 3 0 = k then none else (List.range 8).find? (fun l => c.physOf d l == k)

/-- The station number that the Carver uses for a program's station number (R25). -/
def Chip.physStn (c : Chip) (st : Nat) : Nat :=
  let d := st / 128
  let i := st % 128
  if d ≠ 0 ∧ i < 32 then d * 128 + 32 + 4 * c.physOf d (i / 4) + i % 4 else st

/-- The station number that a program uses (R25); a resting core's stations have none. -/
def Chip.logStn (c : Chip) (st : Nat) : Option Nat :=
  let d := st / 128
  let i := st % 128
  if d ≠ 0 ∧ 32 ≤ i ∧ i < 68 then (c.logOf d ((i - 32) / 4)).map (fun l => d * 128 + 4 * l + (i - 32) % 4) else some st

/-- Whether a station number is an XD's (R25). -/
def isXd (st : Nat) : Bool := st % 128 == 97 && st / 128 != 0

/-- Key of the context in which a station serves a partition: an XD has one list for each (R31). -/
def Chip.keyOf (c : Chip) (st p : Nat) : Nat := stKey (c.physStn st) (if isXd st then p else 0)

/-- Station type code of a Carver's local index (R25, R26, R38). -/
def stType (st : Nat) : Nat :=
  let i := st % 128
  if st / 128 ≠ 0 then
    (if 32 ≤ i ∧ i < 68 then (i - 32) % 4 + 1 else if i = 96 then 5 else if i = 97 then 6 else 0)
  else (if i < 34 then 7 else if 40 ≤ i ∧ i < 64 then 9 else if 64 ≤ i ∧ i < 68 then 8 else if i = 72 ∨ i = 73 then 4 else 0)

/-! ### Tasks -/

/-- The task entry of job `j` on a station, by its program number or the Carver's: TB_OWNER valid, its job, and its logical core or die-level station (R174). -/
def Chip.findTask (c : Chip) (j s : Nat) : Option Nat :=
  let st := (c.logStn s).getD s
  let d := st / 128
  let i := st % 128
  c.regs.findSome? fun kv =>
    let o := kv.1 % 16777216
    let v := kv.2.toNat
    if kv.1 / 16777216 = d ∧ 0x80000 ≤ o ∧ o < 0x84000 ∧ o % 0x40 = 0x30 ∧ bit v 0 ∧ bits v 6 1 = j
        ∧ (if d ≠ 0 ∧ i < 32 then !bit v 12 ∧ bits v 11 9 = i / 4 else bit v 12 ∧ bits v 19 13 = i) then
      some ((o - 0x80000) / 0x40)
    else none

/-- Task entry number of a firmware or blank command's workspace (R326, R346), and of no task at all. -/
def wsTask : Nat := 256
/-- No task entry. -/
def noTask : Nat := 257

/-- The task entry of a job on a station. -/
def Chip.taskOf (c : Chip) (j st : Nat) : Nat :=
  if j = 255 then wsTask else (c.findTask j st).getD noTask

/-- The firmware region of a compute die: the top 64 MiB of its usable DDR5 (R215). -/
def Chip.fwBase (c : Chip) (d : Nat) : Nat := dieBase d + (c.usable d - 0x4000000)
/-- Where the active blank package lies in it: two places of 8 MiB (R354; log 43). -/
def Chip.pkgBase (c : Chip) (d : Nat) : Nat := c.fwBase d + (c.boot.pkgSlot - 1) * 0x800000

/-- Base and bound of task entry `k` for region `r`, seen from physical station `st` (R172, R174); the workspace of a blank command is the top 256 KiB
of its core buffer and the active package's place in the firmware region of its die's DDR5 (R215, R326, R346, R350; log 43). -/
def Chip.region (c : Chip) (st k r : Nat) : Nat × Nat :=
  let d := st / 128
  let o := taskBlk k
  if k < 256 then
    match r with
    | 0 => (bits (c.reg64 d o) 47 0, bits (c.reg d (o + 8)) 22 0)
    | 1 => (bits (c.reg64 d (o + 0x10)) 47 0, bits (c.reg d (o + 0x18)) 25 0)
    | 2 => (bits (c.reg64 d (o + 0x20)) 47 0, bits (c.reg64 d (o + 0x28)) 34 0)
    | _ => (0, 0)
  else if k = 256 then
    match r with
    | 0 => if 32 ≤ st % 128 ∧ st % 128 < 68 then (dieBase d + cbBase ((st % 128 - 32) / 4) + 0x3C0000, 0x40000) else (0, 0)
    | 2 => if d = 0 then (0, 0) else (c.pkgBase d, 0x4000000 - (c.pkgBase d - c.fwBase d))
    | _ => (0, 0)
  else (0, 0)

/-- Whether a device address names memory: neither control space nor an unlisted address (R28–R30). -/
def Chip.isMem (c : Chip) (a : Nat) : Bool :=
  match c.decode a with
  | .ctl _ _ => false
  | .unlisted => false
  | _ => true

/-- The device address of a task access of `n` bytes at offset `off` of region `r`, none where it passes the bound or names no memory (R9, R28, R172). -/
def Chip.xlate (c : Chip) (st k r off n : Nat) : Option Nat :=
  let b := c.region st k r
  let a := b.1 + off
  if b.2 < off + n ∨ !c.isMem a ∨ !c.isMem (a + n - 1) then none else some a

/-- The address of a task write; a write to a view is a bound fault (R260). -/
def Chip.xlateW (c : Chip) (st k r off n : Nat) : Option Nat := (c.xlate st k r off n).filter (fun a => r != 2 || !c.inView a n)

/-- Region code of the bound fault that such an access takes: 3 where its die field lies outside the map (R173, R192); a base plus offset past 2^48 is not wrapped and lies outside too
(R9; log 160). -/
def Chip.faultCode (c : Chip) (st k r off n : Nat) : Nat :=
  let b := c.region st k r
  if off + n ≤ b.2 ∧ 8 ≤ (b.1 + off) >>> 44 then 3 else r

/-- Who reads or writes for a command of station `st`: its job, partition and class. -/
def Chip.readerOf (c : Chip) (st desc : Nat) : Reader :=
  let j := dJob desc
  ⟨if j = 255 then 2 else 0, j, c.jobPart j, j != 255 && c.isSafety (c.jobPart j), st⟩

/-! ### Queues -/

/-- A queue's descriptor (R48). -/
def Chip.qdesc (c : Chip) (q : Nat) : Nat :=
  let d := q / 1024
  let o := qdescOff (q % 1024) 0
  c.reg64 d o + c.reg64 d (o + 8) <<< 64

/-- producer. -/
def qProd (x : Nat) : Nat := bits x 9 0
/-- consumer. -/
def qCons (x : Nat) : Nat := bits x 19 10
/-- valid. -/
def qValid (x : Nat) : Bool := bit x 20
/-- part. -/
def qPart (x : Nat) : Nat := bits x 22 21
/-- depth. -/
def qDepth (x : Nat) : Nat := bits x 31 23
/-- slot_log2. -/
def qLog2 (x : Nat) : Nat := bits x 36 32
/-- region. -/
def qRegion (x : Nat) : Nat := bits x 38 37
/-- core. -/
def qCore (x : Nat) : Nat := bits x 41 39
/-- carry. -/
def qCarry (x : Nat) : Bool := bit x 42
/-- turn_offset. -/
def qTurnOff (x : Nat) : Nat := bits x 44 43
/-- base. -/
def qBase (x : Nat) : Nat := bits x 103 64

/-- A queue's flow state. -/
def Chip.queue (c : Chip) (q : Nat) : Queue := tabGet {} c.fab.queues q
/-- The chip with that flow state. -/
def Chip.setQueue (c : Chip) (q : Nat) (v : Queue) : Chip := { c with fab := { c.fab with queues := tabSet {} c.fab.queues q v } }
/-- A slot of a queue. -/
def Queue.slot (x : Queue) (i : Nat) : SlotInfo := tabGet {} x.slots i
/-- The queue with that slot. -/
def Queue.setSlot (x : Queue) (i : Nat) (v : SlotInfo) : Queue := { x with slots := tabSet {} x.slots i v }
/-- Number of slots in a state other than EMPTY. -/
def Queue.count (x : Queue) (s : SlotSt) : Nat := (x.slots.filter (fun kv => kv.2.st == s)).length

/-- A queue as at load, or as a reset at a boundary leaves it: every slot EMPTY, credits equal to depth (R52, R58). -/
def Queue.fresh (x : Queue) (depth left : Nat) : Queue := { job := x.job, credits := depth, left := left }

/-- Where slot `i` of queue `q` lies: the offset from the consumer task's base for the region (R49). -/
def slotOff (x i : Nat) : Nat := qBase x + i * 2 ^ qLog2 x

/-- The device address of slot `i` of queue `q` (R49). -/
def Chip.slotAddr (c : Chip) (q i : Nat) : Nat :=
  let x := c.qdesc q
  let j := (c.queue q).job
  (c.region (c.physStn (qCons x)) (c.taskOf j (qCons x)) (qRegion x)).1 + slotOff x i

/-- Whether slot `i` of the queue lies within the consumer task's bound and in memory (R9, R28, R172). -/
def Chip.slotIn (c : Chip) (q i : Nat) : Bool :=
  let x := c.qdesc q
  (c.xlate (c.physStn (qCons x)) (c.taskOf (c.queue q).job (qCons x)) (qRegion x) (slotOff x i) (2 ^ qLog2 x)).isSome

/-- Region code of the bound fault of an access to a slot that does not (R9, R173). -/
def Chip.slotCode (c : Chip) (q i : Nat) : Nat :=
  let x := c.qdesc q
  c.faultCode (c.physStn (qCons x)) (c.taskOf (c.queue q).job (qCons x)) (qRegion x) (slotOff x i) (2 ^ qLog2 x)

/-- A queue is cross-die when its producer's die differs from its consumer's. -/
def crossDie (x : Nat) : Bool := qProd x / 128 != qCons x / 128

/-- QERR_STATUS bit `i` with QERR_DETAIL latched as a first error (R69, R70): the slot and the requester's station number. -/
def Chip.queueErr (c : Chip) (q slot st i cause : Nat) : Chip :=
  let d := q / 1024
  (c.latchIf d qerrStatus [(qerrDetail, q % 1024 + slot <<< 10 + (st % 128) <<< 18 + (st / 128) <<< 28)]).raise d qerrStatus i cause

/-! ### How a command ends -/

/-- An EOS marker for output queue `k` (R44); its format and layout codes are 0 (log 9). -/
def eosTile (k : Nat) (prov : Bool) : OutTile := { k := k, eos := true, prov := prov }

/-- A POISON tile that completes a slot claimed before its data were there: one element of no format, its byte free (R46; log 9). -/
def fillerTile (k : Nat) (prov : Bool) : OutTile := { k := k, h := 1, w := 1, c := 1, n := 1, pois := true, prov := prov, data := [Config.poisonedData 0 0] }

/-- The tiles that an ending command still writes: those in slots already claimed, with POISON, then one EOS marker in each output queue (R46). -/
def poisonOuts (r : Run) : List OutTile :=
  (List.range (dNout r.desc)).flatMap fun k =>
    let claimed := if k = 0 then r.claims0 else r.claims1
    let formed := (r.outs.filter (fun t => t.k == k)).take claimed
    formed.map (fun t => { t with pois := !t.eos }) ++ List.replicate (claimed - formed.length) (fillerTile k r.prov) ++ [eosTile k r.prov]

/-- A command that ends with status `s` and writes `outs` first: it reads nothing more; what it has issued stays issued. -/
def Run.finish (r : Run) (s : Nat) (outs : List OutTile) : Run :=
  { r with status := s, outs := outs, begun := true, inDone := true, ins := r.ins.map (fun t => { t with used := true }) }

/-- A station's run with list index `ix` replaced. -/
def Chip.setRun (c : Chip) (k : Nat) (r : Run) : Chip :=
  c.modStation k (fun s => { s with runs := s.runs.map (fun x => if x.ix == r.ix then r else x) })

/-- The run of a station that reads inputs: the newest. -/
def Chip.curRun (c : Chip) (k : Nat) : Option Run := (c.station k).runs.getLast?

/-- The run of turns in which a SAFETY partition consumes poison: with class B on the bit, a run longer than poison_turns drives the safe state (R205). -/
def Chip.poisonCount (c : Chip) (d p : Nat) : Chip :=
  let b := if d = 0 then 7 else 8 * d + 2
  let x := c.part p
  let c1 := c.modPart p (fun y => { y with poisNow := true })
  if !x.poisNow && c.fclass b == 2 && decide (c.cfg1 0x0103 5 1 < x.poisRun + 1) then c1.escalate b 0x07 d (srcOf d sramBlk) else c1

/-- A job consumes poison at a station (R204, R205) and ends with R464's `code`: DDR_POISON_TURN counts it, a SAFETY job sets SRAM_ERR_STATUS[4], and the job is terminated.
A job whose end is decided, and a firmware or blank command, does not consume. The poison's origin is not known here: SRAM_ERR_DETAIL names no word, only the SAFETY task (log 136). -/
def Chip.consume (c : Chip) (st j code : Nat) : Chip :=
  if c.jobDead j || j == 255 then c else
  let d := stDie st
  let c1 := if d = 0 then c else c.addReg d (ddrBlk 0 + 0x20) 1
  let c2 := if c1.isSafety (c1.jobPart j) then
      ((c1.latchIf d sramBlk [(sramBlk + 4, 1 <<< 28), (sramBlk + 8, c1.turn32)]).raise d sramBlk 4 0x06).poisonCount d (c1.jobPart j)
    else c1
  (c2.setJob j { c2.job j with consumed := true }).endJob j code

/-- A command ends POISONED (or HDR_ERROR): its remaining tiles and markers are set, and the job consumes the poison; a header error has its own job status code (R46, R47,
R464). -/
def Chip.endPoisoned (c : Chip) (k : Nat) (r : Run) (s : Nat) : Chip :=
  (c.setRun k (r.finish s (poisonOuts r))).consume (k / 4) (dJob r.desc) (if s = stHdrError then 7 else 4)

/-- A command ends on an EOS marker (R64): a marker into each output queue if its EOS flag is set; a slot claimed before its data were there takes a marker
too (log 27). -/
def Chip.endEos (c : Chip) (k : Nat) (r : Run) : Chip :=
  let marks := (List.range (dNout r.desc)).flatMap fun i =>
    let left := (if i = 0 then r.claims0 else r.claims1) - (r.outs.filter (fun t => t.k == i)).length
    List.replicate (max left (b2n (dEos r.desc))) (eosTile i r.prov)
  c.setRun k (r.finish stEosEarly (r.outs ++ marks))

/-- A command ends at once with status `s` and leaves its slots as they are (R55, R56, R173); stores that it issued and that no buffer has accepted are dropped (log 137). -/
def Chip.endNow (c : Chip) (k : Nat) (r : Run) (s : Nat) : Chip :=
  if (c.station k).blank.isSome then c.modStation k (fun x => { x with runs := x.runs.filter (fun y => y.ix != r.ix) }) else c.endReal k r.ix s

/-- A bound fault of a command's task: BND registers, counts, the command's end and the job's (R173, R185); `rem` holds the window bits of a remote
refusal. -/
def Chip.boundFault (c : Chip) (k : Nat) (r : Run) (region off rem : Nat) : Chip :=
  let d := stDie (k / 4)
  let j := dJob r.desc
  let p := c.jobPart j
  let c1 := c.latchIf d (sramBlk + 0x18)
    [(sramBlk + 0x1C, r.task % 256 + region <<< 8 + (j % 64) <<< 10 + p <<< 16 + rem), (sramBlk + 0x20, off % 2 ^ 32), (sramBlk + 0x24, bits off 35 32)]
  let c2 := (c1.raise d (sramBlk + 0x18) 0 0).addReg d (sramBlk + 0x28) 1
  let c3 := if r.task < 256 then c2.addReg d (taskBlk r.task + 0x34) 1 else c2
  let c4 := { c3 with wrk := { c3.wrk with parts := tabMod {} c3.wrk.parts p (fun x => { x with bounds := x.bounds + 1 }) } }
  (c4.endNow k r stBound).endJob j 5

/-- The turn record of partition `p` for the turn whose low 32 bits are `t`: 0 PENDING, 1 VERIFIED, 2 FAILED (R236). -/
def Chip.record (c : Chip) (t p : Nat) : Nat := tabGet 0 c.wrk.records ((t % 2 ^ 32) * 4 + p)
/-- The chip with that record; FAILED is final. -/
def Chip.setRecord (c : Chip) (t p v : Nat) : Chip :=
  if c.record t p = 2 then c else { c with wrk := { c.wrk with records := tabSet 0 c.wrk.records ((t % 2 ^ 32) * 4 + p) v } }

/-- The tile that a run forms next for output queue `k`, with the flags it inherits (R45). -/
def Run.emit (r : Run) (t : OutTile) : Run :=
  { r with outs := r.outs ++ [{ t with pois := t.pois || r.pois, prov := t.prov || r.prov }] }

/-- EOS markers into each output queue after a command's last tile, where its EOS flag asks for them (R60). -/
def Run.closeOuts (r : Run) : Run :=
  if dEos r.desc then { r with outs := r.outs ++ (List.range (dNout r.desc)).map (fun i => eosTile i r.prov) } else r

/-- The next tile of input 0 that the command has not worked on. -/
def Run.nextIn (r : Run) : Option InTile := r.ins.find? (fun t => t.inp == 0 && !t.used)

/-- The tile of input `j` that pairs with the tile in place `n` of input 0. -/
def Run.paired (r : Run) (j n : Nat) : Option InTile := r.ins.find? (fun t => t.inp == j && t.ord == n)

/-- The work on the tiles in place `n` is done; after the last of the command, its inputs are read and its EOS markers due. -/
def Run.advance (r : Run) (n : Nat) : Run :=
  let r1 := { r with ins := r.ins.map (fun t => if t.ord == n then { t with used := true } else t), made := r.made + 1 }
  if dTiles r.desc ≤ r1.made then { r1.closeOuts with inDone := true } else r1

/-- The tile's payload as its acquire read it, with its poisoned offsets (R45, R189). -/
def Chip.payload (c : Chip) (t : InTile) : Chip × Bytes × List Nat := c.look (c.slotAddr t.q t.slot + 32) (hLen t.hdr)

/-- The tile's payload expanded where it is zero-compressed (R123). -/
def expandTile (hdr : Nat) (b : Bytes) : Bytes := if hZcomp hdr then zExpand (hPacked hdr) b else b

end Sys2Proof.Machine
end

