-- ==== Sys2Proof/Machine/Engine.lean ====
section
/-! DEFINITION. Machine/Engine.lean: flits and the sending side of a link (R14, R15, R225–R228), contributions and their digests (R229–R233), the
provisional mark (R235), digest failures (R239), tallies and turn records (R234, R236). -/
namespace Sys2Proof.Machine

/-! ### Links -/

/-- Key of one end of a link module. -/
def lnkKey (d m : Nat) : Nat := d * 8 + m
/-- A link end. -/
def Chip.link (c : Chip) (d m : Nat) : Link := tabGet {} c.lnk.links (lnkKey d m)
/-- The chip with that link end. -/
def Chip.setLink (c : Chip) (d m : Nat) (v : Link) : Chip := { c with lnk := { c.lnk with links := tabSet {} c.lnk.links (lnkKey d m) v } }

/-- Offset of the XD and link register block of die `d` for the far die `o` (R246). -/
def xdBlkOf (d o : Nat) : Nat := if d = 0 then xdBlk + 0x40 * o else xdBlk

/-- The die at the other end of module `m` of die `d`: module 0 the headstock die, 1 and 2 ring die d − 1, 3 and 4 ring die d + 1; on the headstock die the
module number is the compute die (R246). -/
def farDie (d m : Nat) : Nat :=
  if d = 0 then m else if m = 0 then 0 else if m < 3 then (d + 5) % 7 + 1 else d % 7 + 1

/-- The module at the other end (R246). -/
def farMod (d m : Nat) : Nat :=
  if d = 0 then 0 else if m = 0 then d else if m < 3 then m + 2 else m - 2

/-- Whether a die's fabric is fenced (START_FENCE, R21). -/
def Chip.fenced (c : Chip) (d : Nat) : Bool := d != 0 && bit (c.reg 0 (startBlk + 8)) (d - 1)

/-- Hops up the ring from CDa to CDb. -/
def ringUp (a b : Nat) : Nat := (b + 7 - a) % 7

/-- Whether every die strictly between is unfenced going up from `a` in `n` hops (R510). -/
def Chip.ringClear (c : Chip) (a n : Nat) (up : Bool) : Bool :=
  (List.range (n - 1)).all fun i =>
    let d := if up then (a - 1 + (i + 1)) % 7 + 1 else (a - 1 + 7 - (i + 1)) % 7 + 1
    !c.fenced d

/-- The next die on the way from `a` to `b` (R14, R15, R510): a headstock link directly, a ring pair in the direction of fewer hops, or in the other
direction where a fenced die lies on the way. -/
def Chip.nextHop (c : Chip) (a b : Nat) : Nat :=
  if a = 0 ∨ b = 0 then b
  else
    let up := ringUp a b
    let dn := 7 - up
    let pref := up < dn
    let goUp := if pref then c.ringClear a up true || !c.ringClear a dn false else !(c.ringClear a dn false) && c.ringClear a up true
    if goUp then a % 7 + 1 else (a + 5) % 7 + 1

/-- The module of die `a` that carries traffic to its neighbour `b`: the first of the pair that is neither down nor retraining, else the first that is not down, where the traffic
waits for the retrain (R227). -/
def Chip.modTo (c : Chip) (a b : Nat) : Nat :=
  if a = 0 then b else if b = 0 then 0
  else
    let m := if b = a % 7 + 1 then 3 else 1
    let bad := fun k => (c.link a k).down || (c.link a k).retraining
    if !bad m then m else if !bad (m + 1) then m + 1 else if (c.link a m).down then m + 1 else m

/-- Header fields of a flit (R225); `more` says that data of the same image follows these flits. -/
structure FlitHdr where
  ty : Nat
  src : Nat
  dst : Nat
  part : Nat := 0
  last : Bool := false
  more : Bool := false
  words : Nat := 0
  pois : Nat := 0
  target : Nat := 0
  offset : Nat := 0
  contrib : Nat := 0
  info : Nat := 0
  deriving DecidableEq, Repr

/-- A flit without its sequence number and CRC: 20 header bytes and 232 payload bytes (R225). -/
def flitBody (h : FlitHdr) (payload : Bytes) : Bytes :=
  toLE 20 (h.ty % 16 + h.src <<< 16 + h.dst <<< 19 + h.part <<< 22 + (b2n h.last) <<< 24 + h.words <<< 26 + h.pois <<< 32
    + (h.target % 8192) <<< 64 + (h.offset % 2 ^ 32) <<< 80 + (h.contrib % 8192) <<< 112 + (h.info % 2 ^ 32) <<< 128)
  ++ padTo 232 payload

/-- A flit with its link sequence number and CRC-32C (R225). -/
def flitSeal (seq : Nat) (body : Bytes) : Bytes :=
  let b := toLE 4 (putBits (leAt body 0 4) 15 4 seq) ++ body.drop 4
  b ++ toLE 4 (crc32c b)

/-- A flit handed to a module's transmitter: it takes the next sequence number and enters the replay buffer of 128 flits, or waits behind those already waiting while the module cannot
send (R226, R227). The first 16 waiting flits stand in the adapter's FIFO, the rest with their writers (R23, R24). -/
def Link.send (l : Link) (body : Bytes) : Link :=
  if l.down || l.retraining || !l.waiting.isEmpty || 128 ≤ l.replay.length then { l with waiting := l.waiting ++ [body] }
  else { l with txSeq := (l.txSeq + 1) % 4096, replay := l.replay ++ [flitSeal l.txSeq body] }

/-- The waiting flits of a link that has room again, sent in order; what still finds no room waits on (R226). -/
def Link.drain (l : Link) : Link := l.waiting.foldl (fun x b => x.send b) { l with waiting := [] }

/-- Whether a writer on die `a` with traffic toward die `b` finds the adapter's FIFO full (R24, R54, R227). -/
def Chip.linkFull (c : Chip) (a b : Nat) : Bool := a != b && decide (16 ≤ (c.link a (c.modTo a (c.nextHop a b))).waiting.length)

/-- A flit sent from die `a` toward die `b` over the first hop (R14, R15). -/
def Chip.sendFlit (c : Chip) (a b : Nat) (body : Bytes) : Chip :=
  let m := c.modTo a (c.nextHop a b)
  c.setLink a m ((c.link a m).send body)

/-- Bytes sent as data flits of one type, 232 B each, the last marked LAST where nothing of its unit follows (R225). -/
def Chip.sendData (c : Chip) (h : FlitHdr) (b : Bytes) (pois : List Nat) : Chip :=
  let parts := chunks 232 b
  eachDo parts.zipIdx (fun p c =>
    let off := 232 * p.2
    let pw := (pois.filter (fun o => off ≤ o ∧ o < off + 232)).map (fun o => (o - off) / 8)
    c.sendFlit h.src h.dst (flitBody { h with last := !h.more && p.2 + 1 == parts.length, words := cdiv p.1.length 8, pois := maskOf pw,
                                              offset := h.offset + (if h.ty = 1 ∨ h.ty = 0xA then 0 else off / 8) } p.1)) c

/-! ### Contributions -/

/-- Key of a contribution at its receiver. -/
def conKey (dst src num : Nat) : Nat := (dst * 8 + src) * 8192 + num
/-- A contribution as its receiver knows it. -/
def Chip.contrib (c : Chip) (k : Nat) : Contrib := tabGet {} c.lnk.contribs k
/-- Whether a contribution with that key has begun. -/
def Chip.hasContrib (c : Chip) (k : Nat) : Bool := c.lnk.contribs.any (fun e => e.1 == k)
/-- The chip with that contribution. -/
def Chip.setContrib (c : Chip) (k : Nat) (v : Contrib) : Chip :=
  { c with lnk := { c.lnk with contribs := tabSet { v with bytes := v.bytes + 1 } c.lnk.contribs k v } }

/-- XD_PENDING raised or lowered (R246). -/
def Chip.addPending (c : Chip) (d o : Nat) (up : Bool) : Chip :=
  let off := xdBlkOf d o + 0x14
  let v := c.fld d off 13 0
  c.setFld d off 13 0 (if up then min 0x3FFF (v + 1) else v - 1)

/-- A contribution begun by die `src` toward die `dst`: the next number of the sender's turn, its count toward the tally, and an empty record at the
receiver (R231, R234); `xd` marks one that an XD's list sends. The number comes back. -/
def Chip.openContrib (c : Chip) (src dst part job : Nat) (xd : Bool := false) : Nat × Chip :=
  let n := tabGet 0 c.lnk.txNum src
  let route := (src * 8 + dst) * 4 + part
  let c1 := { c with lnk := { c.lnk with txNum := tabSet 0 c.lnk.txNum src (n + 1), txTo := tabMod 0 c.lnk.txTo route (· + 1) } }
  let c2 := c1.addReg src (xdBlkOf src dst + 0xC) 1
  let c3 := c2.setContrib (conKey dst src (n % 8192)) { part := part, job := job, xd := xd }
  (n % 8192, c3.addPending dst src true)

/-- Data carried by a contribution: bytes in send order, and for a tile its isum (R232). -/
def Contrib.carry (x : Contrib) (b : Bytes) (tile : Option (Nat × Nat)) : Contrib :=
  { x with crc := crc64Step x.crc b, bytes := x.bytes + b.length,
           tiles := x.tiles + (if tile.isSome then 1 else 0),
           isum := match tile with | some (f, s) => if isumFmt f then wrap 64 ((x.isum : Int) + s) else x.isum | none => x.isum,
           isumOk := match tile with | some (f, _) => x.isumOk && isumFmt f | none => false }

/-- The trailer that the carried data calls for (R232). -/
def Contrib.trailer (x : Contrib) : Trailer :=
  let v := x.isumOk && x.tiles != 0
  ⟨BitVec.ofNat 64 (crc64Done x.crc), BitVec.ofNat 64 (if v then x.isum else 0), BitVec.ofNat 64 x.bytes, BitVec.ofNat 32 x.tiles, v⟩

/-- A digest trailer flit sent after a unit's last data flit (R229, R232). -/
def Chip.sendTrailer (c : Chip) (src dst part num : Nat) : Chip :=
  let t := (c.contrib (conKey dst src num)).trailer
  c.sendFlit src dst (flitBody { ty := 5, src := src, dst := dst, part := part, last := true, words := 5, contrib := num }
    (toLE 8 t.crc64.toNat ++ toLE 8 t.isum.toNat ++ toLE 8 t.bytes.toNat ++ toLE 4 t.tiles.toNat ++ toLE 4 (b2n t.isumValid) ++ toLE 8 0))

/-- Whether a trailer's four values match those of the carried data (R233). -/
def Contrib.expects (x : Contrib) (t : Trailer) : Bool :=
  let o := x.trailer
  t.crc64 == o.crc64 && t.isum == o.isum && t.bytes == o.bytes && t.tiles == o.tiles

/-- A stored header rewritten in its slot as one 32-byte write (R235, R238, R239). -/
def Chip.rewriteHdr (c : Chip) (q i : Nat) (f : Nat → Nat) : Chip :=
  let a := c.slotAddr q i
  c.write a (toLE 32 (sealHdr (f (fromLE (c.peek a 32))))) [] {} []

/-- Header with PROVISIONAL clear. -/
def clearProv (h : Nat) : Nat := putBits h 29 29 0
/-- Header with POISON set. -/
def setPoison (h : Nat) : Nat := putBits h 28 28 1

/-- Whether a slot holds data of a contribution that has not verified. -/
def Chip.slotPending (c : Chip) (q i : Nat) : Bool :=
  c.lnk.contribs.any (fun e => e.2.st != .verified && e.2.slots.contains (q, i))

/-- A contribution verifies at die `dst` (R233, R235, R367): counted, its still FULL tiles lose PROVISIONAL where the header as sent carried it clear, and
the crc64 is stored beside a slot of an EG queue. -/
def Chip.verify (c : Chip) (dst src num : Nat) : Chip :=
  let k := conKey dst src num
  let x := c.contrib k
  let c1 := (c.setContrib k { x with st := .verified }).addReg dst (xdBlkOf dst src + 0x10) 1
  let c0 := c1.addPending dst src false
  let c2 := if x.ingest = 0 then c0 else c0.madeReady ((x.ingest - 1) / 256) ((x.ingest - 1) % 256)
  eachDo x.slots (fun s c =>
    let qu := c.queue s.1
    let sl := qu.slot s.2
    let c' := c.setQueue s.1 (qu.setSlot s.2 { sl with crc := crc64Done x.crc })
    if sl.st == .full && !sl.sentProv && !c'.slotPending s.1 s.2 then c'.rewriteHdr s.1 s.2 clearProv else c') c2

/-- The XD error registers latched for a contribution (R239, R246). -/
def Chip.xdLatch (c : Chip) (d o num part job m : Nat) : Chip :=
  let b := xdBlkOf d o
  c.latchIf d b [(b + 4, o + num <<< 3 + part <<< 16 + (job % 64) <<< 18 + m <<< 24), (b + 8, c.turn32)]

/-- A contribution fails at die `dst` (R239): status bit `i` (0 digest mismatch, 1 trailer missing at tally). SAFETY: the escalation line rises and the
device drives the safe state. QM: the turn record becomes FAILED, still FULL tiles take POISON and the job is terminated. -/
def Chip.contribFail (c : Chip) (dst src num i : Nat) : Chip :=
  let k := conKey dst src num
  let x := c.contrib k
  let c1 := (c.setContrib k { x with st := .failed }).xdLatch dst src num x.part x.job 0
  let c2 := c1.raise dst (xdBlkOf dst src) i 0x10 (esc := c1.isSafety x.part)
  let c3 := c2.setRecord c2.turn32 x.part 2
  if c3.isSafety x.part then c3 else
  let c4 := eachDo x.slots (fun s c => if ((c.queue s.1).slot s.2).st == .full then c.rewriteHdr s.1 s.2 setPoison else c) c3
  let c5 := if x.ingest = 0 then c4 else c4.ingestFailed ((x.ingest - 1) / 256) ((x.ingest - 1) % 256)
  c5.endJob x.job 8

/-! ### Shares of an XD -/

/-- Flits of partition lists woven in proportion to weights: those of partition `p` come at every `1 / w p`, and keep their order (R230). -/
def weave (w : Nat → Nat) (part : Bytes → Nat) (l : List Bytes) : List Bytes :=
  let whole := w 0 * w 1 * w 2 * w 3
  let due := l.zipIdx.map (fun x => (((l.take (x.2 + 1)).filter (fun y => part y == part x.1)).length * (whole / max 1 (w (part x.1))), x.1))
  let put := fun (s : List (Nat × Bytes)) (x : Nat × Bytes) => s.takeWhile (fun y => decide (y.1 ≤ x.1)) ++ x :: s.dropWhile (fun y => decide (y.1 ≤ x.1))
  (due.foldl put []).map (·.2)

/-- A list with the elements that satisfy `p` replaced in order. -/
def refill {α : Type} (p : α → Bool) : List α → List α → List α
  | [], _ => []
  | a :: t, [] => a :: refill p t []
  | a :: t, b :: r => if p a then b :: refill p t r else a :: refill p t (b :: r)

/-- Whether a waiting flit belongs to a contribution of the XD of die `d`. -/
def Chip.isXdFlit (c : Chip) (d : Nat) (f : Bytes) : Bool :=
  let w := leAt f 0 4
  [2, 5, 0xA].contains (bits w 3 0) && bits w 18 16 == d && (c.contrib (conKey (bits w 21 19) d (bits (leAt f 12 4) 28 16))).xd

/-- The flits of die `d`'s XD that wait for a module beyond its FIFO, flit by flit in proportion to the xd_share of their partitions (R230). -/
def Chip.shareOut (c : Chip) (d : Nat) : Chip :=
  eachDo (List.range 5) (fun m c =>
    let l := c.link d m
    let rest := l.waiting.drop 16
    let xs := weave (fun p => c.cfgBy 0x0201 p 4 1) (fun f => bits (leAt f 0 4) 23 22) (rest.filter (c.isXdFlit d))
    c.setLink d m { l with waiting := l.waiting.take 16 ++ refill (c.isXdFlit d) rest xs }) c

/-! ### Tallies and turn records -/

/-- Whether job `j` was launched in this turn. -/
def Chip.launched (c : Chip) (j : Nat) : Bool := (c.job j).launched

/-- Whether the declarations of the partition's launched jobs name `src` as a sender to `dst` (R234). -/
def Chip.declares (c : Chip) (p src dst : Nat) : Bool :=
  c.jobs.any (fun j => c.jobPart j == p && c.launched j && bit (tabGet 0 c.wrk.sends j) (src * 8 + dst))

/-- The task entries of die `d` of partition `p` whose jobs were launched in this turn: the valid entries of the task table (R174). -/
def Chip.tasksOn (c : Chip) (p d : Nat) : List Nat :=
  c.regs.filterMap fun kv =>
    let o := kv.1 % 16777216
    let v := kv.2.toNat
    if kv.1 / 16777216 = d ∧ 0x80000 ≤ o ∧ o < 0x84000 ∧ o % 0x40 = 0x30 ∧ bit v 0 ∧ bits v 8 7 = p ∧ c.launched (bits v 6 1) then
      some ((o - 0x80000) / 0x40)
    else none

/-- A task's state in the turn. -/
def Chip.task (c : Chip) (d k : Nat) : TaskSt := tabGet {} c.wrk.tasks (d * 256 + k)
/-- The chip with that state. -/
def Chip.setTask (c : Chip) (d k : Nat) (v : TaskSt) : Chip :=
  { c with wrk := { c.wrk with tasks := tabSet {} c.wrk.tasks (d * 256 + k) v } }

/-- Whether the partition's last task on die `d` has ended. -/
def Chip.tasksEnded (c : Chip) (p d : Nat) : Bool := (c.tasksOn p d).all (fun k => (c.task d k).ended)

/-- The compute dies involved in the partition's turn (R361). -/
def Chip.involved (c : Chip) (p : Nat) : List Nat := ((List.range 8).drop 1).filter (fun d => !(c.tasksOn p d).isEmpty)

/-- Contributions of the partition from `src` that die `d` has verified. -/
def Chip.verifiedFrom (c : Chip) (p src d : Nat) : Nat :=
  (c.lnk.contribs.filter (fun e => e.1 / 8192 == d * 8 + src && e.2.part == p && e.2.st == .verified)).length

/-- Whether die `d` reports the partition's turn clean (R234). -/
def Chip.dieClean (c : Chip) (p d : Nat) : Bool :=
  c.tasksEnded p d && (List.range 8).all fun src =>
    src == d || !c.declares p src d ||
      (let t := tabGet 0 c.lnk.tallies ((d * 8 + src) * 4 + p)
       t != 0 && decide (t ≤ c.verifiedFrom p src d + 1))

/-- The turn record recomputed: VERIFIED once every die taking part is clean (R236). -/
def Chip.updateRecord (c : Chip) (p : Nat) : Chip :=
  let dies := 0 :: c.involved p
  let c1 := { c with lnk := { c.lnk with clean := dies.foldl (fun t d => tabSet false t (d * 4 + p) (c.dieClean p d)) c.lnk.clean } }
  if c1.record c1.turn32 p = 0 ∧ dies.all (c1.dieClean p) then c1.setRecord c1.turn32 p 1 else c1

/-- Tally flits of the partition from die `d` to every die that expects one, once in the turn when its last task on the die has ended (R234). -/
def Chip.sendTallies (c : Chip) (p d : Nat) : Chip :=
  let dests := (List.range 8).filter (fun e => e != d && c.declares p d e)
  if dests.isEmpty || !c.tasksEnded p d || tabGet false c.lnk.sent (d * 4 + p) then c else
  eachDo dests (fun e c =>
    c.sendFlit d e (flitBody { ty := 7, src := d, dst := e, part := p, words := 1 } (toLE 8 (tabGet 0 c.lnk.txTo ((d * 8 + e) * 4 + p)))))
    { c with lnk := { c.lnk with sent := tabSet false c.lnk.sent (d * 4 + p) true } }

/-- What follows the end of a task or the arrival of a tally or trailer: tallies due are sent and turn records recomputed (R234, R236). -/
def Chip.settle (c : Chip) : Chip :=
  if !c.running then c else
  eachDo ((List.range 4).filter c.hasPart) (fun p c => (eachDo (List.range 8) (fun d c => c.sendTallies p d) c).updateRecord p) c

/-! ### Tiles into slots -/

/-- The header of a tile that a run writes into a queue (R39): the consuming checks of R47 read these fields. -/
def outHdr (r : Run) (t : OutTile) (turn part seq : Nat) : Hdr :=
  { job := dJob r.desc, fmt := t.fmt, lay := t.lay, pois := t.pois, prov := t.prov, eos := t.eos, zcomp := t.zcomp,
    turn := turn, layer := dLayer r.desc, op := dOpId r.desc, seq := seq,
    outIx := dOutIx r.desc + t.k, h := t.h, w := t.w, c := t.c, n := t.n, len := t.data.length,
    part := part, contrib := t.contrib }

/-- No contribution keeps a slot whose tile is gone: one that has left it, or that a new tile replaces (R235, R239). -/
def Chip.pruneSlot (c : Chip) (q i : Nat) : Chip :=
  { c with lnk := { c.lnk with contribs := c.lnk.contribs.map (fun e => (e.1, { e.2 with slots := e.2.slots.filter (· != (q, i)) })) } }

/-- A tile accepted into slot `i` of queue `q` from writer `who`: payload with its poisoned offsets `bad`, then header as one write, and the slot FULL (R41, R50, R189). -/
def Chip.fillSlot (c : Chip) (q i hdr : Nat) (payload : Bytes) (bad : List Nat) (sentProv : Bool) (who : Reader) (ups : Upsets) : Chip :=
  let a := c.slotAddr q i
  let c1 := (((c.pruneSlot q i).write (a + 32) payload bad who ups).write a (toLE 32 hdr) [] who ups)
  let x := c1.queue q
  c1.setQueue q { x.setSlot i { (x.slot i) with st := .full, sentProv := sentProv, crc := 0 } with
    pseq := x.pseq + 1, eos := x.eos || hEos hdr, cwait := false }

/-- A tile delivered over the fabric: the send engine numbers it as one contribution and fills contrib_id, the receive engine writes it PROVISIONAL
(R229, R231, R235). -/
def Chip.deliverTile (c : Chip) (q i hdr : Nat) (payload : Bytes) (ups : Upsets) : Chip :=
  let x := c.qdesc q
  let src := qProd x / 128
  let dst := qCons x / 128
  let o := c.openContrib src dst (qPart x) (hJob hdr)
  let sent := sealHdr (putBits hdr 231 216 (src <<< 13 + o.1))
  let k := conKey dst src o.1
  let bytes := toLE 32 sent ++ payload
  let isum := isumTile (hFmt hdr) (hLay hdr) (hH hdr) (hW hdr) (hC hdr) (hN hdr) (expandTile hdr payload)
  let c2 := o.2.fillSlot q i (sealHdr (putBits sent 29 29 1)) payload [] (hProv hdr) {} ups
  let c3 := c2.setContrib k { ((c2.contrib k).carry bytes (some (hFmt hdr, isum))) with slots := [(q, i)] }
  (c3.sendData { ty := 1, src := src, dst := dst, part := qPart x, target := q, contrib := o.1 } bytes []).sendTrailer src dst (qPart x) o.1

end Sys2Proof.Machine
end

