-- ==== Sys2Proof/Machine/Params.lean ====
section
/-! DEFINITION. Machine/Params.lean: the params fields of WF, VX, DM, BX and XD descriptors (R110, R126, R138, R139, R146, R148, R155–R157, R178, R241). -/
namespace Sys2Proof.Machine

/-! ### WF (R110) -/
def wfKh (d : Nat) : Nat := bits d 195 192
def wfKw (d : Nat) : Nat := bits d 199 196
def wfSh (d : Nat) : Nat := bits d 203 200
def wfSw (d : Nat) : Nat := bits d 207 204
def wfDh (d : Nat) : Nat := bits d 212 208
def wfDw (d : Nat) : Nat := bits d 217 213
def wfPad (d : Nat) : Nat := bits d 219 218
def wfIh (d : Nat) : Nat := bits d 223 220
def wfIw (d : Nat) : Nat := bits d 227 224
def wfPool (d : Nat) : Nat := bits d 231 228
def wfTop (d : Nat) : Nat := bits d 239 232
def wfLeft (d : Nat) : Nat := bits d 255 248
def wfPadVal (d : Nat) : Nat := bits d 279 264
def wfInH (d : Nat) : Nat := bits d 295 280
def wfInW (d : Nat) : Nat := bits d 311 296
def wfC (d : Nat) : Nat := bits d 327 312
def wfOutH (d : Nat) : Nat := bits d 359 344
def wfOutW (d : Nat) : Nat := bits d 375 360
def wfBatch (d : Nat) : Nat := bits d 386 376
def wfRow (d : Nat) : Nat := bits d 396 387
def wfSparse (d : Nat) : Bool := bit d 397
def wfDbl (d : Nat) : Bool := bit d 398
def wfRows (d : Nat) : Nat := bits d 407 400
def wfFmt (d : Nat) : Nat := bits d 415 408

/-- The blocked layout of a format (R43). -/
def blockedLay (f : Nat) : Nat := if elemBits f = 16 then 1 else 2

/-! ### VX (R138, R139, R146, R148) -/
def vxSrc (d : Nat) : Nat := bits d 193 192
def vxZout (d : Nat) : Bool := bit d 194
def vxPoolDiv (d : Nat) : Nat := bits d 196 195
def vxStages (d : Nat) : Nat := bits d 199 197
def vxInFmt (d : Nat) : Nat := bits d 207 200
def vxOutFmt (d : Nat) : Nat := bits d 215 208
def vxOutLay (d : Nat) : Nat := bits d 219 216
def vxMask (d : Nat) : Nat := bits d 223 220
def vxRowBase (d : Nat) : Nat := bits d 233 224
def vxRows (d : Nat) : Nat := bits d 244 234
def vxTileH (d : Nat) : Nat := bits d 271 256
def vxTileW (d : Nat) : Nat := bits d 287 272
def vxOutC (d : Nat) : Nat := bits d 303 288
def vxStage (d i : Nat) : Nat := bits d (351 + 32 * i) (320 + 32 * i)
/-- Stage word fields (R139). -/
def sgOp (s : Nat) : Nat := bits s 5 0
def sgOpnd (s : Nat) : Nat := bits s 7 6
def sgRnd (s : Nat) : Nat := bits s 9 8
def sgShift (s : Nat) : Nat := bits s 14 10
def sgImm (s : Nat) : Nat := bits s 31 16
/-- Row and reduce fields (R146). -/
def vrKind (d : Nat) : Nat := bits d 194 192
def vrAxis (d : Nat) : Bool := bit d 195
def vrOutFmt (d : Nat) : Nat := bits d 211 204
def vrRnd (d : Nat) : Nat := bits d 213 212
def vrEps (d : Nat) : Nat := bits d 247 216
def vrGamma (d : Nat) : Nat := bits d 261 248
def vrBeta (d : Nat) : Nat := bits d 275 262
/-- Table fields (R148). -/
def vtRegion (d : Nat) : Nat := bits d 193 192
def vtOff (d : Nat) : Nat := bits d 229 194
def vtRowBytes (d : Nat) : Nat := bits d 249 230
def vtRows (d : Nat) : Nat := bits d 281 250
def vtFmt (d : Nat) : Nat := bits d 289 282
def vtC (d : Nat) : Nat := bits d 305 290

/-! ### DM (R155–R157) -/
def dmSrc (d : Nat) : Nat := bits d 193 192
def dmDst (d : Nat) : Nat := bits d 195 194
def dmXpose (d : Nat) : Nat := bits d 197 196
def dmComp (d : Nat) : Nat := bits d 199 198
def dmSrcOff (d : Nat) : Nat := bits d 235 200
def dmDstOff (d : Nat) : Nat := bits d 271 236
def dmLen (d : Nat) : Nat := bits d 291 272
def dmCnt1 (d : Nat) : Nat := bits d 303 292
def dmCnt2 (d : Nat) : Nat := bits d 315 304
def dmCnt3 (d : Nat) : Nat := bits d 327 316
def dmS1 (d : Nat) : Int := sext 25 (bits d 352 328)
def dmS2 (d : Nat) : Int := sext 25 (bits d 377 353)
def dmS3 (d : Nat) : Int := sext 25 (bits d 402 378)
def dmD1 (d : Nat) : Int := sext 25 (bits d 427 403)
def dmD2 (d : Nat) : Int := sext 25 (bits d 452 428)
def dmD3 (d : Nat) : Int := sext 25 (bits d 477 453)
def dmFmt (d : Nat) : Nat := bits d 410 403
def dmLay (d : Nat) : Nat := bits d 414 411
def dmH (d : Nat) : Nat := bits d 430 415
def dmW (d : Nat) : Nat := bits d 446 431
def dmC (d : Nat) : Nat := bits d 462 447
/-- Die, index and offset of a remote-window address (R157). -/
def rwDie (a : Nat) : Nat := bits a 35 33
def rwWin (a : Nat) : Nat := bits a 32 27
def rwOff (a : Nat) : Nat := bits a 26 0

/-! ### BX (R126) -/
def bxForm (d : Nat) : Nat := bits d 199 192
def bxLogistic (d : Nat) : Bool := bit d 200
def bxMode (d : Nat) : Nat := bits d 202 201
def bxRot (d : Nat) : Bool := bit d 203
def bxClasses (d : Nat) : Nat := bits d 216 208
def bxBoxes (d : Nat) : Nat := bits d 236 224
def bxPreK (d : Nat) : Nat := bits d 252 240
def bxKeepMax (d : Nat) : Nat := bits d 266 256
def bxScoreThr (d : Nat) : Nat := bits d 303 272
def bxIouThr (d : Nat) : Nat := bits d 335 304
def bxVarXy (d : Nat) : Nat := bits d 351 336
def bxVarWh (d : Nat) : Nat := bits d 367 352
def bxClip (d : Nat) : Nat := bits d 399 368

/-! ### XD (R178, R241) -/
def xwWin (d : Nat) : Nat := bits d 197 192
def xwRegion (d : Nat) : Nat := bits d 199 198
def xwOff (d : Nat) : Nat := bits d 235 200
def xwSize (d : Nat) : Nat := bits d 263 236
def xwPerm (d : Nat) : Nat := bits d 265 264
def xwSrc (d : Nat) : Nat := bits d 273 266
def xdRegion (d : Nat) : Nat := bits d 193 192
def xdWin (d : Nat) : Nat := bits d 199 194
def xdLocOff (d : Nat) : Nat := bits d 235 200
def xdWinOff (d : Nat) : Nat := bits d 262 236
def xdLen (d : Nat) : Nat := bits d 290 263
def xdPeer (d : Nat) : Nat := bits d 293 291
def xdMask (d : Nat) : Nat := bits d 300 294
def xdColl (d : Nat) : Nat := bits d 316 301
def xdElem (d : Nat) : Nat := bits d 324 317

end Sys2Proof.Machine
end

