-- ==== Sys2Proof/Machine/Record.lean ====
section
/-! DEFINITION. Machine/Record.lean: what a station's commands leave for observation: the last-command shadow (R472, R473), command records (R484, R485) and
tensor-dump copies (R488). The place of the trace ring and of the dump area in the firmware region is not given; both are kept apart (log 10). -/
namespace Sys2Proof.Machine

/-- Whether the spindle lock holds the islands (R490, R491). -/
def Chip.locked (c : Chip) : Bool := bit (c.reg 0 (obsBlk + 0x28)) 0

/-- PWR_STATE[1:0]: 0 ACTIVE, 1 IDLE, 2 PARK, 3 moving (R512). -/
def Chip.pwrState (c : Chip) : Nat := c.fld 0 pwrBlk 1 0

/-- What firmware, ports and the headstock island do: nothing while a spindle lock has stopped their clocks (R491). -/
def Chip.awake (c : Chip) (f : Chip → Chip) : Chip := if c.locked then c else f c

/-- What memory, link and sensor-port islands do: nothing under a spindle lock, and nothing in PARK, where their domains are off (R491, R502). -/
def Chip.live (c : Chip) (f : Chip → Chip) : Chip := if c.locked || c.pwrState == 2 then c else f c

/-- A station's effect: none under a spindle lock, none outside ACTIVE, where station clocks are gated, and none in the safe state, in which every station has
stopped issuing (R382, R491, R502). -/
def Chip.work (c : Chip) (f : Chip → Chip) : Chip := if c.locked || c.turnState == 2 || c.pwrState != 0 then c else f c

/-- Cycles of an XD on partition `p`'s list (R475). -/
def Chip.busyXd (c : Chip) (st p n : Nat) : Chip :=
  (c.busy st n).addReg48 (stDie st) (cntBlk (stIdx st) + 0x180 + 8 * p) n

/-- The stall reason with the most cycles in the shadow, the lowest code on a tie, 0 with none (R484). -/
def topReason (l : List Nat) : Nat :=
  (l.zipIdx.foldl (fun b x => if b.2 < x.1 then (x.2 + 1, x.1) else b) (0, 0)).1

/-- The command record of station `st` from its shadow (R484). -/
def Chip.cmdRecord (c : Chip) (st seq : Nat) : Bytes :=
  let d := stDie st
  let o := cntBlk (stIdx st) + 0x100
  let tag := c.reg d (o + 0x14)
  let sat := fun x => min x 0xFFFFFFFF
  toLE 4 (c.reg d (o + 0x10)) ++ toLE 1 (bits tag 7 0) ++ toLE 1 (bits tag 13 8) ++ toLE 1 (bits tag 15 14 + d <<< 2) ++ toLE 1 (stIdx st)
    ++ toLE 4 c.turn32 ++ toLE 4 (c.reg d (o + 0x18)) ++ toLE 4 (sat (c.reg64 d o)) ++ toLE 4 (sat (c.reg64 d (o + 8)))
    ++ toLE 6 (if stType st = 1 then c.reg64 d (o + 0x70) else 0)
    ++ toLE 1 (topReason ((List.range 10).map fun r => c.reg64 d (o + 0x20 + 8 * r))) ++ toLE 1 seq

/-- Whether the active subscription's filter passes the shadow of station `st` (R481, R494): mask bit d − 1 stands for CDd, and the filter has no bit for the
headstock die (log 11). -/
def Chip.traceHit (c : Chip) (st : Nat) : Bool :=
  let d := stDie st
  let o := cntBlk (stIdx st) + 0x100
  let f := c.reg 0 (obsBlk + 4)
  let l := c.reg 0 (obsBlk + 8)
  let tag := c.reg d (o + 0x14)
  let layer := bits (c.reg d (o + 0x10)) 15 0
  bit (c.reg 0 obsBlk) 0 && bit (bits f 3 0) (bits tag 15 14) && (bits f 11 4 == 255 || bits f 11 4 == bits tag 13 8)
    && (d == 0 || bit (bits f 18 12) (d - 1)) && decide (bits l 15 0 ≤ layer) && decide (layer ≤ bits l 31 16)

/-- Ring writes and reads of die `d` within the last 10 µs, by tick (R485). -/
def Chip.recentTraffic (c : Chip) (d : Nat) : List Nat := (tabGet [] c.obs.traffic d).filter (fun t => decide (c.tb.tick < t + 2500))

/-- Records that the trace traffic of die `d` still has room for: two make a line with 8/7 of its bursts, so 240 bursts are 420 records; the headstock ring is no DDR5 (R485; log 106). -/
def Chip.traceRoom (c : Chip) (d : Nat) : Nat := if d = 0 then 32768 else 420 - (c.recentTraffic d).length

/-- The write or read of `n` records in the ring of die `d` (R485). -/
def Chip.noteTraffic (c : Chip) (d n : Nat) : Chip :=
  if d = 0 then c else { c with obs := { c.obs with traffic := tabSet [] c.obs.traffic d (c.recentTraffic d ++ List.replicate n c.tb.tick) } }

/-- A record written into its die's ring of 4 MiB (1 MiB on the headstock die), or dropped and counted when the ring is full of unsent records or the write
would break the traffic limit (R485). -/
def Chip.writeRecord (c : Chip) (st : Nat) : Chip :=
  let d := stDie st
  let seq := tabGet 0 c.obs.recSeq st
  let ring := tabGet [] c.obs.ring d
  let c1 := { c with obs := { c.obs with recSeq := tabSet 0 c.obs.recSeq st ((seq + 1) % 256) } }
  if (if d = 0 then 32768 else 131072) ≤ ring.length ∨ c.traceRoom d = 0 then
    let c2 := ({ c1 with obs := { c1.obs with lost := c1.obs.lost + 1 } }).addReg 0 (obsBlk + 0x10) 1
    if d = 0 then c2 else c2.addReg d (obsBlk + 4) 1
  else
    let c2 := ({ c1 with obs := { c1.obs with ring := tabSet [] c1.obs.ring d (ring ++ [c1.cmdRecord st seq]) } }).noteTraffic d 1
    if d = 0 then c2 else c2.addReg d obsBlk 1

/-- A snapshot: the command counters and identifiers into the shadow, the command counters cleared, and a record where the filter matches (R473, R484). -/
def Chip.snapshot (c : Chip) (st : Nat) : Chip :=
  let d := stDie st
  let o := cntBlk (stIdx st)
  let c1 := eachDo (List.range 32) (fun i c => c.setReg d (o + 0x100 + 4 * i) (c.reg d (o + 0x80 + 4 * i))) c
  let c2 := eachDo ((List.range 4) ++ (List.range 22).map (· + 8)) (fun i c => c.setReg d (o + 0x80 + 4 * i) 0) c1
  if c2.traceHit st then c2.writeRecord st else c2

/-- The identifiers of a command that starts (R475): list index `ix`, partition `p`. -/
def Chip.startCounters (c : Chip) (st desc ix p : Nat) : Chip :=
  let d := stDie st
  let o := cntBlk (stIdx st)
  let c1 := c.setReg d (o + 0x90) (dLayer desc + dOpId desc <<< 16)
  let c2 := c1.setReg d (o + 0x94) (dOutIx desc + (dJob desc % 64) <<< 8 + p <<< 14 + ix <<< 16)
  (c2.setReg d (o + 0x98) (c2.nowNs % 2 ^ 32)).setReg d (o + 0x9C) (min 0xFFFF (c2.reg d (o + 0x9C) + 1))

/-- The dump copy of a tile that a command writes into output queue `k` (R488): in the dump's turn, where its triple names the tile, header and payload go into the
partition's part of the die's dump area, up to the dump's limit. -/
def Chip.dumpTile (c : Chip) (d desc k : Nat) (tile : Bytes) : Chip :=
  let hit := fun (x : Dump) => x.turn == c.turn && x.job == dJob desc && x.layer == dLayer desc && x.opId == dOpId desc && x.outIx == (dOutIx desc + k) % 256
  match (if d = 0 then none else c.obs.dumps.find? hit) with
  | none => c
  | some x =>
    let key := x.part * 8 + d
    if (tabGet [] c.obs.dump key).length + tile.length ≤ x.limit then
      { c.setReg d (obsBlk + 0x10) (c.reg d (obsBlk + 0x10) + tile.length) with
        obs := { c.obs with dump := tabMod [] c.obs.dump key (· ++ tile) } }
    else { c with obs := { c.obs with dumps := c.obs.dumps.map (fun y => if hit y then { y with trunc := true } else y) } }

end Sys2Proof.Machine
end

