-- ==== Sys2Proof/Machine/Tiles.lean ====
section
/-! DEFINITION. Machine/Tiles.lean: what a consumer checks when it acquires a tile (R47 with R80, R116, R124, R127, R139, R141, R149, R158, R242), and the acquire. -/
namespace Sys2Proof.Machine

/-- Number of elements of a header's tile. -/
def hCount (h : Nat) : Nat := hH h * hW h * hC h * hN h

/-- Same dim fields. -/
def sameDims (a b : Nat) : Bool := hH a == hH b && hW a == hW b && hC a == hC b && hN a == hN b

/-- Working type at each stage of a VX_CHAIN: true for INT32 (R140). -/
def stageTypes (d : Nat) : List Bool :=
  ((List.range (vxStages d)).foldl (fun (s : List Bool × Bool) i =>
    let op := sgOp (vxStage d i)
    (s.1 ++ [s.2], if op = 0x0A then false else if op = 0x0B then true else s.2)) ([], workInt (vxInFmt d))).1

/-- A weight tile's header fields (R80). -/
def weightHdrOk (d h : Nat) : Bool :=
  hN h == 1 && hH h == 1 && hW h == 64 && hLay h == 0 && !hZcomp h
    && (if mxSparse d then hFmt h == 0 && hC h == runBytes (mxWt d) true else hFmt h == mxWt d && hC h == vecLen (mxWt d) false)

/-- A WF's input tile in place `n` (R113, R116). -/
def wfHdrOk (d n h : Nat) : Bool :=
  hFmt h == wfFmt d && hLay h == blockedLay (wfFmt d) && hN h == 1 && hW h == wfInW d && hC h == wfC d
    && hH h == min (wfRows d) (wfInH d - n * wfRows d)

/-- A BX's tile in place `n` of input `j` (R127; log 153): `first` the tile of the same boxes, `wid` the boxes of the tiles taken before it. -/
def bxHdrOk (d j n h : Nat) (first : Option Nat) (wid : Nat) : Bool :=
  hN h == 1 && hH h == 1 && hLay h == 0 && (hFmt h == 0x12 || hFmt h == 0x10)
    && hC h == (if j = 1 then bxClasses d else if bxForm d ≤ 2 then 4 else 5)
    && (if j = 0 then (if n + 1 = dTiles d then wid + hW h == bxBoxes d else decide (wid + hW h < bxBoxes d))
      else match first with | some f => hW f == hW h | none => true)

/-- A collective's input tile: the dims, format and layout of the first, and for a reduction dense elements of elem_format (R242; log 153). -/
def xdHdrOk (d h : Nat) (hdr0 : Option Nat) : Bool :=
  (match hdr0 with | some f => sameDims f h && hFmt f == hFmt h && hLay f == hLay h | none => true)
    && (dOp d < 5 || (hLay h == 0 && hFmt h == xdElem d))

/-- The checks that a command adds to R47 for the tile in place `n` of its input `j`: `first` is the tile of input 0 that it pairs with, `hdr0` the first tile of input 0, `wid` the sum
of dim_w of the tiles of input 0 taken before. -/
def tileOk (d j n h : Nat) (first hdr0 : Option Nat) (wid : Nat) : Bool :=
  let ty := dType d
  let op := dOp d
  (!hZcomp h || ty == 2 || ty == 4 || ty == 6) &&
  (if ty = 1 then weightHdrOk d h
   else if ty = 2 then wfHdrOk d n h
   else if ty = 3 ∧ op = 1 then
     if j = 0 then hFmt h == vxInFmt d && (!isMx (vxOutFmt d) || hC h % 32 == 0)
     else
       (match first with | some f => sameDims f h | none => true)
         && ((stageTypes d).zipIdx.all fun s =>
              sgOpnd (vxStage d s.2) != 3 || (if s.1 then workInt (hFmt h) else isFpFmt (hFmt h)))
   else if ty = 3 ∧ (op = 5 ∨ op = 6) then
     if j = 0 then hC h == vtC d
     else (match first with | some f => hH f * hW f == hCount h | none => true)
   else if ty = 4 ∧ op = 3 then dmLen d == 0 || hPacked h == dmLen d * dmCnt1 d * dmCnt2 d
  else if ty = 5 then bxHdrOk d j n h first wid
  else if ty = 6 then xdHdrOk d h hdr0
   else true)

/-- The partition whose number tiles of a job carry in a queue: the job's, or the queue's for a firmware or blank command. -/
def Chip.tilePart (c : Chip) (j x : Nat) : Nat := if j = 255 then qPart x else c.jobPart j

/-- Outcome of an acquire. -/
inductive Acq where
  | ok
  | eos
  | poison
  | hdrError
  deriving DecidableEq, Repr

/-- Tiles that a run has taken from input `j`. -/
def Run.takenOf (r : Run) (j : Nat) : Nat := if j = 0 then r.taken else if j = 1 then r.taken1 else r.taken2

/-- The next slot of queue `q` acquired for input `j` of run `r` (R47, R50): the slot turns DRAINING and the header is checked before any payload is read; a
header in a poisoned word counts as a POISON tile (log 12). An EG keeps an EOS marker as part of its message and forwards POISON to the gate (R46, R461). The payload is read here and
the errors that reading it finds take effect (R189), but a WF reads pixel blocks as its vectors need them (R116). A PROVISIONAL tile of a FAILED turn counts as poisoned, an EOS marker too
(R237). -/
def Chip.acquire (c : Chip) (st : Nat) (r : Run) (j q : Nat) (ups : Upsets) : Chip × Run × Acq :=
  let x := c.qdesc q
  let qu := c.queue q
  let i := qu.acqIx
  let job := dJob r.desc
  let who := c.readerOf st r.desc
  let rd := c.read who ups (c.slotAddr q i) 32
  let h := fromLE rd.2.1
  let n := r.takenOf j
  let ok := hdrSelfOk h && hJob h == job && hPart h == c.tilePart job x && hTurn h == (c.turn32 + 2 ^ 32 - qTurnOff x) % 2 ^ 32
    && hSeq h == qu.cseq % 2 ^ 24 && decide (hLen h + 32 ≤ 2 ^ qLog2 x)
    && (hEos h || tileOk r.desc j n h ((r.paired 0 n).map (·.hdr)) (if r.hdr0 = 0 then none else some (r.hdr0 - 1))
      ((r.ins.filter (fun t => t.inp == 0)).map (fun t => hW t.hdr)).sum)
  let failed := hProv h && c.record (hTurn h) (hPart h) == 2
  let base := if ok && rd.2.2.isEmpty && dType r.desc != 2 then (rd.1.read who ups (c.slotAddr q i + 32) (hLen h)).1 else rd.1
  let t : InTile := { q := q, slot := i, inp := j, ord := n, hdr := h, pois := hPois h || failed, prov := hProv h }
  let sl := qu.slot i
  let c1 := base.setQueue q { qu.setSlot i { sl with st := .draining } with
    acqIx := (i + 1) % max 1 (qDepth x), cseq := qu.cseq + 1, cwait := false }
  let r1 := { r with ins := r.ins ++ [t], prov := r.prov || hProv h,
                     hdr0 := if j = 0 ∧ n = 0 then h + 1 else r.hdr0, taken := if j = 0 then n + 1 else r.taken, taken1 := if j = 1 then n + 1 else r.taken1,
                     taken2 := if 2 ≤ j then n + 1 else r.taken2 }
  (c1, r1, if !rd.2.2.isEmpty then .poison else if !ok then .hdrError else if dType r.desc == 8 then .ok
    else if t.pois then .poison else if hEos h then .eos else .ok)

/-- What an acquire's outcome does to the command at station key `k` (R46, R47, R64, R70). -/
def Chip.acquired (c : Chip) (k q slot : Nat) (r : Run) (a : Acq) : Chip :=
  match a with
  | .ok => c.setRun k r
  | .eos => c.endEos k r
  | .poison => c.endPoisoned k r stPoisoned
  | .hdrError => (c.queueErr q slot (k / 4) 1 0x27).endPoisoned k r stHdrError

end Sys2Proof.Machine
end

