-- ==== Sys2Proof/Machine/Queue.lean ====
section
/-! DEFINITION. Machine/Queue.lean: the commands that move slots and credits (R41, R46–R56, R64, R69). -/
namespace Sys2Proof.Machine

/-- Bits 5 and 6 of ST_STATUS: waiting for credit, waiting for slot (R67). -/
def Chip.waiting (c : Chip) (k b : Nat) (v : Bool) : Chip :=
  if (c.station k).blank.isSome then c else c.setFld (stDie (k / 4)) (stBlk (stIdx (k / 4)) + 0x14) b b (b2n v)

/-- Index of queue `q` among the outputs of a descriptor. -/
def outOf (d q : Nat) : Option Nat := (List.range (dNout d)).find? (fun k => dOutQ d k == q)
/-- Index of queue `q` among the inputs of a descriptor. -/
def inOf (d q : Nat) : Option Nat := (List.range (dNin d)).find? (fun k => dInQ d k == q)

/-- Slots claimed for output `k` of a run. -/
def Run.claims (r : Run) (k : Nat) : Nat := if k = 0 then r.claims0 else r.claims1
/-- The run with that many. -/
def Run.setClaims (r : Run) (k n : Nat) : Run := if k = 0 then { r with claims0 := n } else { r with claims1 := n }

/-- Tiles of output `k` that a run has formed and not yet written. -/
def Run.outsOf (r : Run) (k : Nat) : List OutTile := r.outs.filter (fun t => t.k == k)

/-- Members of a collective, by ascending die number (R240, R241). -/
def xdMembers (d : Nat) : List Nat := (bitList 7 (xdMask d)).map (· + 1)

/-- Whether a descriptor is a collective (R240). -/
def isColl (d : Nat) : Bool := dType d == 6 && decide (3 ≤ dOp d) && decide (dOp d ≤ 6)

/-- Tiles that a collective writes into its out_q0 on die `die` (R240). -/
def collOuts (d die : Nat) : Nat :=
  let n := (xdMembers d).length
  match dOp d with
  | 3 => if die = xdPeer d then 0 else dTiles d
  | 4 => n * dTiles d
  | 5 => dTiles d / max 1 n
  | _ => dTiles d

/-- The oldest run at a station that wants a slot in queue `q`, with its output index: it has a formed tile without one, or it is a collective, which claims
the slot of an output tile before that tile's data come (R243). -/
def Chip.claimant (c : Chip) (k q : Nat) : Option (Run × Nat) :=
  (c.station k).runs.findSome? fun r =>
    match outOf r.desc q with
    | some j =>
      if r.claims j < (r.outsOf j).length || (isColl r.desc && r.status == 0 && decide (r.pos < collOuts r.desc (stDie (k / 4)))) then some (r, j)
      else none
    | none => none

/-- The members that send a part of output tile `slot` of a collective to member `me` (R240). -/
def collSources (d me slot : Nat) : List Nat :=
  let ms := xdMembers d
  let g := dTiles d / max 1 ms.length
  let mine := ms.idxOf me * g
  let all := match dOp d with
    | 3 => [xdPeer d]
    | 4 => [ms.getD (slot / max 1 (dTiles d)) 0]
    | 5 => ms
    | _ => if mine ≤ slot ∧ slot < mine + g then ms else [ms.getD (slot / max 1 g) 0]
  all.filter (· != me)

/-- The credit flits of a collective's claim: one to every other member that sends a part of the tile that the slot will hold (R52, R243). -/
def Chip.collCredits (c : Chip) (k q : Nat) (r : Run) : Chip :=
  let me := stDie (k / 4)
  eachDo (collSources r.desc me r.pos) (fun m c =>
    c.sendFlit me m (flitBody { ty := 6, src := me, dst := m, part := k % 4, target := q, info := 1 } [])) c

/-- SLOT_CLAIM (R50–R52, R54, R243): the producer's oldest command with a formed tile takes a credit and the next slot; without a credit it waits. A collective's claim gives its
members credit for the tile. -/
def Chip.slotClaim (c : Chip) (q : Nat) : Chip :=
  let x := c.qdesc q
  let qu := c.queue q
  let k := c.keyOf (qProd x) (qPart x)
  match c.claimant k q with
  | none => c
  | some (r, j) =>
    if !qValid x || qu.frozen || decide (4 ≤ qu.count .filling) then c
    else if qu.credits = 0 then
      ((c.setQueue q { qu with pwait := true }).waiting k 5 true).stall (k / 4) 5 1
    else
      let c1 := c.setQueue q { qu.setSlot qu.claimIx { qu.slot qu.claimIx with st := .filling } with
        claimIx := (qu.claimIx + 1) % max 1 (qDepth x), credits := qu.credits - 1, pwait := false }
      let c2 := (c1.waiting k 5 false).setRun k { r.setClaims j (r.claims j + 1) with pos := if isColl r.desc then r.pos + 1 else r.pos }
      if isColl r.desc then c2.collCredits k q r else c2

/-- The oldest run at a station that holds a claimed slot in queue `q`. -/
def Chip.filler (c : Chip) (k q : Nat) : Option (Run × Nat) :=
  (c.station k).runs.findSome? fun r =>
    match outOf r.desc q with
    | some j => if r.claims j ≠ 0 then some (r, j) else none
    | none => none

/-- A list without its first element that satisfies `p`. -/
def dropFirst {α : Type} (p : α → Bool) : List α → List α
  | [] => []
  | a :: t => if p a then t else a :: dropFirst p t

/-- Whether the next output tile of a reducing collective waits for its integer group's check: the group is not complete, and a slot is still to be had for its next tile (R51, R245;
log 138). -/
def groupWaits (r : Run) (die filling : Nat) : Bool :=
  let d := r.desc
  let g := dTiles d / max 1 (xdMembers d).length
  let lo := if dOp d = 6 then (xdMembers d).idxOf die * g else 0
  let next := r.made - (r.outs.filter (fun t => !t.eos)).length
  isColl d && decide (5 ≤ dOp d) && xdElem d == 6 && r.status == 0 && decide (lo ≤ next ∧ next < lo + g ∧ r.made < lo + g ∧ filling < 4)

/-- SLOT_FULL (R41, R50, R51): the oldest FILLING slot of the queue takes the producer's oldest claimed tile, payload then header, and is FULL. A
tile that holds contributions not yet verified is written PROVISIONAL, or with POISON where one has failed (R235). A slot past the consumer task's bound, or outside memory, is a
bound fault (R9, R172). A producer that finds the adapter FIFO toward the slot full waits (R54). A frozen queue takes no tile (log 139). -/
def Chip.slotFull (c : Chip) (q : Nat) (ups : Upsets) : Chip :=
  let x := c.qdesc q
  let qu := c.queue q
  let k := c.keyOf (qProd x) (qPart x)
  match c.filler k q with
  | none => c
  | some (r, j) =>
    match r.outsOf j with
    | [] => c
    | t :: _ =>
      let dep := max 1 (qDepth x)
      let i := (qu.claimIx + dep - qu.count .filling % dep) % dep
      if qu.frozen || qu.count .filling == 0 || groupWaits r (stDie (k / 4)) (qu.count .filling) then c
      else if !c.slotIn q i then c.boundFault k r (c.slotCode q i) (slotOff x i) 0
      else if c.linkFull (qProd x / 128) (qCons x / 128) then c.stall (k / 4) 7 1
      else
        let pend := t.cids.filter (fun k => (c.contrib k).st != .verified)
        let t' := { t with prov := t.prov || !pend.isEmpty, pois := t.pois || pend.any (fun k => (c.contrib k).st == .failed) }
        let hdr := mkHdr (outHdr r t' c.turn32 (c.tilePart (dJob r.desc) x) qu.pseq)
        let r1 := { r.setClaims j (r.claims j - 1) with outs := dropFirst (fun y => y.k == j) r.outs }
        let c1 := (c.setRun k r1).dumpTile (stDie (k / 4)) r.desc j (toLE 32 hdr ++ t.data)
        let c2 := if crossDie x then c1.deliverTile q i hdr t.data ups
          else eachDo pend (fun k c => c.setContrib k { c.contrib k with slots := (c.contrib k).slots ++ [(q, i)] })
            (c1.fillSlot q i hdr t.data t.badAt t.prov (c.readerOf (k / 4) r.desc) ups)
        c2.busy (k / 4) 1

/-- SLOT_ACQUIRE (R46, R47, R50, R64): the station's current command takes the next FULL slot of one of its inputs, or waits for it. A further input's tile is
taken after the tile of input 0 that it pairs with, an MX takes its weight tiles in MX_PASS_BEGIN (log 12), and an EOS marker is taken once the tiles before it are worked
on, but by a WF at once. A slot past the task's bound, or outside memory, is a bound fault (R9, R172). -/
def Chip.slotAcquire (c : Chip) (q : Nat) (ups : Upsets) : Chip :=
  let x := c.qdesc q
  let qu := c.queue q
  let k := c.keyOf (qCons x) (qPart x)
  match c.curRun k with
  | none => c
  | some r =>
    match inOf r.desc q with
    | none => c
    | some j =>
      let limit := if j = 0 then dTiles r.desc else r.taken
      if !qValid x || qu.frozen || r.status != 0 || r.inDone || dType r.desc == 1 || decide (limit ≤ r.takenOf j) then c
      else if (qu.slot qu.acqIx).st ≠ .full then
        ((c.setQueue q { qu with cwait := true }).waiting k 6 true).stall (k / 4) 6 1
      else if !c.slotIn q qu.acqIx then c.boundFault k r (c.slotCode q qu.acqIx) (slotOff x qu.acqIx) 0
      else if hEos (fromLE (c.peek (c.slotAddr q qu.acqIx) 32)) && dType r.desc != 2 && r.ins.any (fun t => !t.used && decide (t.ord < r.takenOf j)) then c
      else
        let a := (c.waiting k 6 false).acquire (k / 4) r j q ups
        (a.1.acquired k q qu.acqIx a.2.1 a.2.2)

/-- The oldest run of a station that has done with a tile of queue `q`. -/
def Chip.releaser (c : Chip) (k q : Nat) : Option (Run × InTile) :=
  (c.station k).runs.findSome? fun r => (r.ins.find? (fun t => t.q == q && t.used)).map (fun t => (r, t))

/-- A slot left EMPTY and one credit given back: at once within a die, into the gathered credits of a cross-die queue; a frozen queue takes no release
(R50, R52, R53). -/
def Chip.freeSlot (c : Chip) (t : InTile) : Chip :=
  let x := c.qdesc t.q
  let qu := c.queue t.q
  let qv := qu.setSlot t.slot {}
  if qu.frozen then c
  else (c.setQueue t.q (if crossDie x then { qv with gathered := qu.gathered + 1 } else { qv with credits := qu.credits + 1 })).pruneSlot t.q t.slot

/-- SLOT_RELEASE (R50, R52): a tile whose last payload read has returned leaves its slot. -/
def Chip.slotRelease (c : Chip) (q : Nat) : Chip :=
  let x := c.qdesc q
  let k := c.keyOf (qCons x) (qPart x)
  match c.releaser k q with
  | none => c
  | some (r, t) =>
    if (c.queue q).frozen then c
    else (c.freeSlot t).setRun k { r with ins := dropFirst (fun y => y.q == q && y.used) r.ins }

/-- CREDIT_FLIT_SEND (R52): the gathered credits leave in one credit flit toward the producer's die. -/
def Chip.creditFlitSend (c : Chip) (q : Nat) : Chip :=
  let x := c.qdesc q
  let qu := c.queue q
  if qu.gathered = 0 || qu.frozen || !crossDie x then c else
  (c.setQueue q { qu with gathered := 0, flight := qu.flight + qu.gathered }).sendFlit (qCons x / 128) (qProd x / 128)
    (flitBody { ty := 6, src := qCons x / 128, dst := qProd x / 128, part := qPart x, target := q, info := qu.gathered } [])

/-- CREDIT_FLIT_ARRIVE (R52, R53, R70): `n` credits reach the producer's die; a flit that would raise the counter above depth is discarded, the queue is frozen
and its job terminated. QERR_DETAIL names slot 0 and the producer as the requester (log 139). -/
def Chip.creditFlitArrive (c : Chip) (q n : Nat) : Chip :=
  let x := c.qdesc q
  let qu := c.queue q
  if !qValid x || qu.frozen then c
  else if qDepth x < qu.credits + n then
    ((c.setQueue q { qu with frozen := true }).queueErr q 0 (qProd x) 2 0x28).endJob qu.job 7
  else c.setQueue q { qu with credits := qu.credits + n, flight := qu.flight - n }

/-- Whether a store of `n` bytes at `a` meets a slot in state FULL or DRAINING: the queue and slot it meets (R56). -/
def Chip.slotHit (c : Chip) (a n : Nat) : Option (Nat × Nat) :=
  c.fab.queues.findSome? fun e =>
    let len := 2 ^ qLog2 (c.qdesc e.1)
    e.2.slots.findSome? fun s =>
      let b := c.slotAddr e.1 s.1
      if (s.2.st = .full ∨ s.2.st = .draining) ∧ a < b + len ∧ b < a + n then some (e.1, s.1) else none

/-- A scatter-add element accepted: one atomic read-modify-write modulo 2^32 (R150); after a failed residue check it is written with the poison
syndrome (R152). -/
def Chip.addElem (c : Chip) (s : Store) (who : Reader) (ups : Upsets) : Chip :=
  let old := fromLE (c.peek s.addr 4)
  let c1 := c.write s.addr (toLE 4 ((old + fromLE s.data) % 2 ^ 32)) [] who ups
  if s.bad then c1.setPois s.addr true else c1

/-- PLAIN_STORE_ACCEPT (R56, R69, R70): the oldest plain store of the station is written, or dropped where it meets a FULL or DRAINING slot: the command ends
SLOT_VIOLATION and its job is terminated. -/
def Chip.plainStoreAccept (c : Chip) (k : Nat) (ups : Upsets) : Chip :=
  match (c.station k).runs.find? (fun r => !r.stores.isEmpty) with
  | none => c
  | some r =>
    match r.stores with
    | [] => c
    | s :: rest =>
      match c.slotHit s.addr s.data.length with
      | some (q, i) => ((c.queueErr q i (k / 4) 0 0).endNow k r stSlotViolation).endJob (dJob r.desc) 6
      | none =>
        let c1 := c.setRun k { r with stores := rest }
        let who := c.readerOf (k / 4) r.desc
        if s.add then c1.addElem s who ups else c1.write s.addr s.data s.pois who ups

/-- SLOT_CLAIM. -/
def execSlotClaim (q : QNum) (s : State) : Host.Outcome State Fault Refusal := .next { s with chip := s.chip.work (·.slotClaim q) }
/-- SLOT_FULL. -/
def execSlotFull (q : QNum) (ups : Upsets) (s : State) : Host.Outcome State Fault Refusal := .next { s with chip := s.chip.work (·.slotFull q ups) }
/-- SLOT_ACQUIRE. -/
def execSlotAcquire (q : QNum) (ups : Upsets) (s : State) : Host.Outcome State Fault Refusal :=
  .next { s with chip := s.chip.work (·.slotAcquire q ups) }
/-- SLOT_RELEASE. -/
def execSlotRelease (q : QNum) (s : State) : Host.Outcome State Fault Refusal := .next { s with chip := s.chip.work (·.slotRelease q) }
/-- CREDIT_FLIT_SEND. -/
def execCreditFlitSend (q : QNum) (s : State) : Host.Outcome State Fault Refusal := .next { s with chip := s.chip.work (·.creditFlitSend q) }
/-- CREDIT_FLIT_ARRIVE. -/
def execCreditFlitArrive (q : QNum) (n : Nat) (s : State) : Host.Outcome State Fault Refusal :=
  .next { s with chip := s.chip.work (·.creditFlitArrive q n) }
/-- PLAIN_STORE_ACCEPT. -/
def execPlainStoreAccept (st : Stn) (p : Part) (ups : Upsets) (s : State) : Host.Outcome State Fault Refusal :=
  .next { s with chip := s.chip.work (·.plainStoreAccept (stKey st (if isXd st then p else 0)) ups) }

end Sys2Proof.Machine
end

