-- ==== Sys2Proof/Machine/Link.lean ====
section
/-! DEFINITION. Machine/Link.lean: the link layer of a module (R226–R228), and what a receive engine does with trailers and tallies (R233–R236, R239). A flit's
content takes effect at its final die by the command of its own kind (log 31). -/
namespace Sys2Proof.Machine

/-! ### Flits -/

/-- A flit without its sequence number and CRC-32C. -/
def flitStrip (f : Bytes) : Bytes := let b := f.take 252; toLE 4 (putBits (leAt b 0 4) 15 4 0) ++ b.drop 4
/-- type of a flit. -/
def flitType (f : Bytes) : Nat := bits (leAt f 0 4) 3 0
/-- seq of a flit. -/
def flitSeq (f : Bytes) : Nat := bits (leAt f 0 4) 15 4
/-- dst_die of a flit. -/
def flitDst (f : Bytes) : Nat := bits (leAt f 0 4) 21 19
/-- info of a flit. -/
def flitInfo (f : Bytes) : Nat := leAt f 16 4

/-- Whether a module end exists: modules 0–4 of a compute die, 1–7 on the headstock die (R246). -/
def lnkOk (d m : Nat) : Bool := if d = 0 then decide (1 ≤ m) else decide (m < 5)

/-- How many flits of the replay buffer lie at or before sequence number `s` (R226). -/
def ackedCount (l : Link) (s : Nat) : Nat :=
  match l.replay.findIdx? (fun f => flitSeq f == s % 4096) with
  | some i => i + 1
  | none => 0

/-- The replay buffer without the flits up to `s`, and waiting flits sent into the room (R226). -/
def Link.ack (l : Link) (s : Nat) : Link :=
  Link.drain { l with replay := l.replay.drop (ackedCount l s) }

/-- A flit without payload sent outside the sequence to the far end: it is not kept for replay (R225, R226). -/
def ctlFlit (d o ty info : Nat) : Bytes := flitSeal 0 (flitBody { ty := ty, src := d, dst := o, info := info } [])

/-- Last sequence number received in order. -/
def Link.lastGood (l : Link) : Nat := (l.rxSeq + 4095) % 4096

/-- An ack or nak on its way to the far end: it takes no sequence number and waits with the other flits that leave outside the replay buffer. -/
def Chip.sendCtl (c : Chip) (d m ty : Nat) : Chip :=
  let l := c.link d m
  c.setLink d m { l with out := some (ctlFlit d (farDie d m) ty l.lastGood), unacked := if ty = 8 then 0 else l.unacked }

/-- FLIT_RECEIVE (R226): a flit that fails its CRC or comes out of sequence is discarded with a nak; an ack frees the replay buffer; a good flit is counted,
acknowledged after every sixteenth, passes the adapter's FIFO (R23), and is forwarded when its final die lies further on (R14). -/
def Chip.flitReceive (c : Chip) (d m : Nat) (f : Bytes) : Chip :=
  let l := c.link d m
  let ty := flitType f
  if !lnkOk d m || l.down || l.retraining then c
  else if f.length ≠ 256 ∨ leAt f 252 4 ≠ crc32c (f.take 252) then c.sendCtl d m 9
  else if ty = 0 ∨ ty = 9 then c
  else if ty = 8 then c.setLink d m (l.ack (flitInfo f))
  else if flitSeq f ≠ l.rxSeq then c.sendCtl d m 9
  else
    let c1 := (c.setLink d m { l with rxSeq := (l.rxSeq + 1) % 4096, unacked := l.unacked + 1 }).hsPut 3 d m 0 f
    let c2 := if 16 ≤ l.unacked + 1 then c1.sendCtl d m 8 else c1
    if flitDst f = d then c2 else c2.sendFlit d (flitDst f) (flitStrip f)

/-- ACK_TIMER (R226): flits not yet acknowledged are. -/
def Chip.ackTimer (c : Chip) (d m : Nat) : Chip :=
  if !lnkOk d m || (c.link d m).unacked == 0 || (c.link d m).down then c else c.sendCtl d m 8

/-- NAK_RECEIVE (R226, R227, R246): every flit after the number named is replayed in order and counted, and waiting flits follow into the room; the adapter counts naks of one number and
replays. -/
def Chip.nakReceive (c : Chip) (d m s : Nat) : Chip :=
  let l := c.link d m
  if !lnkOk d m || l.down then c
  else
    let l1 := { l with replay := l.replay.drop (ackedCount l s), nakSeq := s, nakRun := (if l.nakSeq = s then l.nakRun else 0) + 1, replays := l.replays + 1 }
    (c.setLink d m l1.drain).addReg d (xdBlkOf d (farDie d m) + 0x18) l1.replay.length

/-- Whether the adapter retrains its module: a fourth nak of one number, or 64 replays in the turn (R227). -/
def Link.mustRetrain (l : Link) : Bool := decide (4 ≤ l.nakRun) || decide (64 ≤ l.replays)

/-- MODULE_RETRAIN (R227): both ends stop sending, and the die whose receiver triggered it, the far end, reports it. -/
def Chip.moduleRetrain (c : Chip) (d m : Nat) : Chip :=
  let l := c.link d m
  if !lnkOk d m || l.down || l.retraining || !l.mustRetrain then c
  else
    let o := farDie d m
    let n := farMod d m
    let c1 := (c.setLink d m { l with retraining := true }).setLink o n { c.link o n with retraining := true }
    (c1.xdLatch o d 0 0 0 (if o = 0 then 0 else n)).raise o (xdBlkOf o d) 3 0x0D

/-- Spares in use at a module end, 0 transmit or 1 receive: those of its own entries in the repair record, and those of the far end's other direction (R228, R435). -/
def Chip.sparesAt (c : Chip) (d m rx : Nat) : Nat :=
  (c.ecc.repair.filter (fun r => r.kind == 4 && ((r.die == d && r.unit == m && r.spare % 2 == rx)
    || (r.die == farDie d m && r.unit == farMod d m && r.spare % 2 != rx)))).length

/-- XD_LANES of one end of a module: its spares in use, and whether it is down (R246). -/
def Chip.noteLanes (c : Chip) (d m : Nat) (down : Bool) : Chip :=
  let b := xdBlkOf d (farDie d m) + 0x1C
  let n := if d = 0 then 0 else m
  (c.setFld d b (4 * n + 3) (4 * n) (min 3 (c.sparesAt d m 0) + 4 * min 3 (c.sparesAt d m 1))).setFld d b (20 + n) (20 + n) (b2n down)

/-- Lanes in ascending order without repeats. -/
def laneOrder (l : List Nat) : List Nat := (List.range 16).filter (fun k => l.contains k)

/-- The entries that replace failing lanes in one direction, in ascending lane order (R228, R435). -/
def Chip.replaceLanes (c : Chip) (d m rx : Nat) (lanes : List Nat) : Chip :=
  eachDo (laneOrder lanes) (fun k c => c.addRepair ⟨4, d, m, rx + 2 * c.sparesAt d m rx, k⟩) c

/-- Modules of die `d` toward `o`. -/
def modsTo (d o : Nat) : List Nat := (List.range 8).filter (fun m => lnkOk d m && farDie d m == o)

/-- A module end that goes down: its traffic moves to the other module of its pair, or waits where none works (R227, R228). -/
def Chip.endDown (c : Chip) (d m : Nat) : Chip :=
  let l := c.link d m
  let c1 := c.setLink d m { l with down := true, retraining := false, replay := [], waiting := [] }
  let moved := l.replay.map flitStrip ++ l.waiting
  match (modsTo d (farDie d m)).filter (fun x => !(c1.link d x).down) with
  | [] => c1.setLink d m { c1.link d m with waiting := moved }
  | x :: _ => c1.setLink d x (moved.foldl (fun k f => k.send f) (c1.link d x))

/-- A module that goes down is reported by the end named; the last module of a link loses the link (R228). -/
def Chip.moduleDown (c : Chip) (d m : Nat) : Chip :=
  let o := farDie d m
  let b := xdBlkOf d o
  let c2 := c.endDown d m
  let other := (modsTo d o).filter (fun x => !(c2.link d x).down)
  let c3 := (c2.xdLatch d o 0 0 0 (if d = 0 then 0 else m)).raise d b 5 0x0E
  if other.isEmpty then c3.raise d b 6 0x0F (esc := true) (cls := 1) else c3

/-- A module end that works again: it sends what is in its replay buffer and what waits (R227). -/
def Chip.moduleUp (c : Chip) (d m : Nat) : Chip :=
  let l := c.link d m
  c.setLink d m (Link.drain { l with retraining := false, nakRun := 0, nakSeq := 4096, replays := 0 })

/-- RETRAIN_DONE (R227, R228, R435): the lanes found failing are replaced by spares, two in each direction, and listed in the repair record; more take the module down.
The end named reports (log 30). -/
def Chip.retrainDone (c : Chip) (d m : Nat) (badTx badRx : List Nat) : Chip :=
  if !lnkOk d m || !(c.link d m).retraining then c
  else
    let o := farDie d m
    let n := farMod d m
    let dead := decide (2 < c.sparesAt d m 0 + (laneOrder badTx).length) || decide (2 < c.sparesAt d m 1 + (laneOrder badRx).length)
    let c0 := if dead then c else (c.replaceLanes d m 0 badTx).replaceLanes d m 1 badRx
    let c1 := (c0.noteLanes d m dead).noteLanes o n dead
    let c2 := if !dead && !(badTx ++ badRx).isEmpty && c.running then (c1.xdLatch d o 0 0 0 (if d = 0 then 0 else m)).raise d (xdBlkOf d o) 4 0x0D else c1
    if dead then (c2.endDown o n).moduleDown d m
    else (c2.moduleUp d m).moduleUp o n

/-! ### Trailers and tallies -/

/-- DIGEST_TRAILER_ARRIVE (R233): the contribution verifies when the trailer's values match those of the data, and fails otherwise. -/
def Chip.trailerArrive (c : Chip) (d src num : Nat) (t : Trailer) : Chip :=
  let k := conKey d src num
  let x := c.contrib k
  if !c.hasContrib k || x.st != .pending then c
  else ((if x.expects t then c.verify d src num else c.contribFail d src num 0).updateRecord x.part)

/-- Contributions of the partition from `src` at die `d`. -/
def Chip.contribsFrom (c : Chip) (p src d : Nat) : List (Nat × Contrib) := c.lnk.contribs.filter (fun e => e.1 / 8192 == d * 8 + src && e.2.part == p)

/-- TALLY_ARRIVE (R233, R234, R239): the count is kept; every contribution that it names, the first `n` in the sender's numbering, fails without a trailer, one that was never seen too. -/
def Chip.tallyArrive (c : Chip) (d src p n : Nat) : Chip :=
  let c1 := { c with lnk := { c.lnk with tallies := tabSet 0 c.lnk.tallies ((d * 8 + src) * 4 + p) (n + 1) } }
  let known := c1.contribsFrom p src d
  let c2 := eachDo ((known.take n).filter (fun e => e.2.st == .pending)) (fun e c => c.contribFail d src (e.1 % 8192) 1) c1
  let c3 := if known.length < n then
      ((c2.xdLatch d src 0 p 0 0).raise d (xdBlkOf d src) 1 0x10 (esc := c2.isSafety p)).setRecord c2.turn32 p 2
    else c2
  c3.updateRecord p

/-- FLIT_RECEIVE. -/
def execFlitReceive (l : Lnk) (flit : Bytes) (s : State) : Host.Outcome State Fault Refusal :=
  .next { s with chip := s.chip.live (·.flitReceive l.die l.mod flit) }
/-- ACK_TIMER. -/
def execAckTimer (l : Lnk) (s : State) : Host.Outcome State Fault Refusal := .next { s with chip := s.chip.live (·.ackTimer l.die l.mod) }
/-- NAK_RECEIVE. -/
def execNakReceive (l : Lnk) (sq : Fin 4096) (s : State) : Host.Outcome State Fault Refusal :=
  .next { s with chip := s.chip.live (·.nakReceive l.die l.mod sq) }
/-- MODULE_RETRAIN. -/
def execModuleRetrain (l : Lnk) (s : State) : Host.Outcome State Fault Refusal := .next { s with chip := s.chip.live (·.moduleRetrain l.die l.mod) }
/-- RETRAIN_DONE. -/
def execRetrainDone (l : Lnk) (badTx badRx : Lanes) (s : State) : Host.Outcome State Fault Refusal :=
  .next { s with chip := s.chip.live (·.retrainDone l.die l.mod (List.map (fun (k : Fin 16) => k.val) badTx) (List.map (fun (k : Fin 16) => k.val) badRx)) }
/-- DIGEST_TRAILER_ARRIVE. -/
def execDigestTrailerArrive (d src : Die) (num : Fin 8192) (tr : Trailer) (s : State) : Host.Outcome State Fault Refusal :=
  .next { s with chip := s.chip.live (·.trailerArrive d src num tr) }
/-- TALLY_ARRIVE. -/
def execTallyArrive (d src : Die) (p : Part) (count : Nat) (s : State) : Host.Outcome State Fault Refusal :=
  .next { s with chip := s.chip.live (·.tallyArrive d src p count) }

end Sys2Proof.Machine
end

