-- ==== Sys2Proof/Machine/Sensor.lean ====
section
/-! DEFINITION. Machine/Sensor.lean: sensor ports: packets into ingest rings (R251–R267), frame sync, power over coax (R268–R272) and source frames
(R275–R278). -/
namespace Sys2Proof.Machine

/-- A sensor port's own state. -/
def Chip.sp (c : Chip) (p : Nat) : SPortSt := tabGet {} c.sns.ports p
/-- The chip with `f` applied to it. -/
def Chip.modSp (c : Chip) (p : Nat) (f : SPortSt → SPortSt) : Chip := { c with sns := { c.sns with ports := tabMod {} c.sns.ports p f } }
/-- Field `i` of the port's SPORT record (R279). -/
def Chip.sport (c : Chip) (p i d : Nat) : Nat := c.cfgBy 0x0401 p i d

/-- Whether a sink port takes images: sink mode, link up, not off under R274, its SI running (R253). -/
def Chip.sinkOn (c : Chip) (p : Nat) : Bool :=
  let s := c.reg 0 (spBlk p)
  bits s 1 0 == 1 && bit s 5 && !bit s 10 && (c.sp p).si

/-- The stream of a virtual channel (R251). -/
def Chip.streamOf (c : Chip) (p vc : Nat) : Option Nat := ((c.cfgAll 0x0402).find? (fun v => v.getD 1 0 == p && v.getD 2 0 == vc)).map (·.headD 0)

/-- Receive correction of a gear, ns (R249). -/
def gearCorr (g : Nat) : Nat := match g with | 1 => 1184 | 2 => 640 | 3 => 448 | 4 => 384 | _ => 352
/-- Receive error of a gear, ns (R249). -/
def gearErr (g : Nat) : Nat := match g with | 1 => 48 | 2 => 32 | 3 => 24 | 4 => 20 | _ => 16

/-- A capture now, in 2^−16 ns (R300, R301). -/
def Chip.capture (c : Chip) (cap : Capture) : Nat := c.tb.at c.tb.tick cap.phase / 65536

/-- The widening of a capture's bound, ns: three times the largest extension of a 2 ns period (R309). -/
def capWiden (cap : Capture) : Nat := cdiv (3 * cap.ext) 8

/-- The turn in whose span a timestamp falls: the current one or the one before it (R37, R267). -/
def Chip.tagOf (c : Chip) (ts : Nat) : Option Nat :=
  if c.turnStart * 65536 ≤ ts then some c.turn else if c.turn = 0 then none else some (c.turn - 1)

/-- SP_ERR registers latched for an event of stream `s` (R281). -/
def Chip.spLatch (c : Chip) (p strm reason ma find : Nat) : Chip :=
  c.latchIf 0 (spBlk p + 4) [(spBlk p + 8, strm + reason <<< 2 + ma <<< 6 + find <<< 16), (spBlk p + 0xC, c.turn32)]

/-! ### Images -/

/-- The lowest-numbered FREE entry (R258). -/
def Chip.freeEntry (c : Chip) (s : Nat) : Option Nat :=
  (List.range (((c.ringCfg s).map (·.entries)).getD 0)).find? (fun e => ((c.ring s).ent e).st == .free)

/-- An image or lidar frame begun with its tag (R258, R264): a second of one turn is EXTRA, one outside the sync turns OFFSYNC, one without a FREE entry OVERRUN. -/
def Chip.beginImage (c : Chip) (s : Nat) (mk : Nat → Nat → Img) (tag : Option Nat) : Chip :=
  match c.ringCfg s, tag with
  | some g, some t =>
    let r := { c.ring s with seen := t + 1 }
    if !g.sync t then c.noteDrop s 8
    else if r.ents.any (fun e => e.2.st != .free && e.2.tag == t) then c.noteDrop s 3
    else
      match c.freeEntry s with
      | none => (c.setRing s r).noteDrop s 1
      | some e => c.setRing s { r.setEnt e ⟨.writing, t⟩ with img := some (mk e t) }
  | _, _ => c.noteDrop s 8

/-- The image in progress of a stream dropped (R264): where the SI has begun to write it, the trailer closes what was sent, which then stands for no entry (R229; log 79). -/
def Chip.dropSi (c : Chip) (s reason : Nat) : Chip :=
  match (c.ring s).img, c.ringCfg s with
  | some i, some g =>
    let k := conKey g.die 0 i.num
    let c1 := c.dropImage s reason
    if i.opened then (c1.setContrib k { c1.contrib k with ingest := 0 }).sendTrailer 0 g.die (c1.contrib k).part i.num else c1
  | _, _ => c

/-- Header corrections and discarded packets of SP_CSIERR (R281). -/
def Chip.csiCount (c : Chip) (p : Nat) (corr disc : Bool) : Chip :=
  let o := spBlk p + 0x34
  let c1 := if corr then c.setFld 0 o 15 0 (min 0xFFFF (c.fld 0 o 15 0 + 1)) else c
  if disc then c1.setFld 0 o 31 16 (min 0xFFFF (c1.fld 0 o 31 16 + 1)) else c1

/-- PHY retransmissions that a packet took at a port: none where the SPORT field retx turns them off (R248, R279). -/
def Chip.retxOf (c : Chip) (p n : Nat) : Nat := if c.sport p 5 1 = 0 then 0 else n

/-- What every packet at a sink port counts (R252, R281): its retransmissions and a corrected header. -/
def Chip.packet (c : Chip) (p retx : Nat) (hdr : HdrEcc) : Chip :=
  if c.sinkOn p then (c.addReg 0 (spBlk p + 0x30) (c.retxOf p retx)).csiCount p (hdr == .corrected) false else c

/-- FRAME_START_PACKET (R252, R258, R264–R267): the image's timestamp and tag, and its entry claimed; an image still in progress is TRUNC, or CRC where this packet's header cannot be
corrected. -/
def Chip.frameStart (c : Chip) (p vc frameNo retx : Nat) (hdr : HdrEcc) (cap : Capture) : Chip :=
  match c.streamOf p vc with
  | none => c
  | some s =>
    if !c.sinkOn p || !c.running then c
    else if hdr == .bad then c.dropSi s 5
    else
      let c1 := c.dropSi s 4
      let n := c.retxOf p retx
      let g := bits (c.reg 0 (spBlk p)) 4 2
      let ts := c.capture cap - (gearCorr g + c.sport p 9 0 + n * 2000) * 65536 - (c.sp p).delay
      let bound := gearErr g + 2 + c.sport p 10 0 + n * 40 + capWiden cap
      let c2 := c1.setReg64 0 (spBlk p + 0x18) (ts / 65536)
      c2.beginImage s (fun e t => { ent := e, tag := t, ts := ts, bound := bound, stretch := cap.ext != 0, retx := n != 0, frameNo := frameNo }) (c.tagOf ts)

/-- What of an image is in staging: the embedded lines and lines that the SI has not taken (R263). -/
def Img.staging (i : Img) : List Bytes := i.emb.drop i.tookEmb ++ i.lines.drop i.took
/-- Bytes of an image in staging. -/
def Img.staged (i : Img) : Nat := sumOver i.staging (·.length)

/-- Bytes that a port's images hold in staging (R263). -/
def Chip.staged (c : Chip) (p : Nat) : Nat :=
  sumOver (c.ringList.filter (fun s => ((c.ringCfg s).map (·.port)) == some p && decide (s < 48))) (fun s =>
    sumOver ((c.ring s).out ++ (c.ring s).img.toList) Img.staged)

/-- What every long packet of an image passes (R252, R263): a bad header or CRC drops the image, one whose line finds staging full too. -/
def Chip.packetIn (c : Chip) (p s : Nat) (data : Bytes) (hdr : HdrEcc) (crcOk : Bool) (keep : Img → Option Img) : Chip :=
  match (c.ring s).img with
  | none => c
  | some i =>
    if hdr == .bad || !crcOk then c.dropSi s 5
    else
      match keep i with
      | none => c.csiCount p false true
      | some j => if 262144 < c.staged p + data.length then c.dropSi s 6 else c.setRing s { c.ring s with img := some j }

/-- EMBEDDED_DATA_PACKET (R252): kept before the first image line, up to emb_lines lines; further ones are discarded. -/
def Chip.embedded (c : Chip) (p vc : Nat) (data : Bytes) (hdr : HdrEcc) (crcOk : Bool) : Chip :=
  match c.streamOf p vc with
  | none => c
  | some s =>
    if !c.sinkOn p then c
    else c.packetIn p s data hdr crcOk (fun i =>
      if i.lines.isEmpty && decide (i.emb.length < ((c.stream s).getD []).getD 6 0) then some { i with emb := i.emb ++ [data] } else none)

/-- CSI_LINE_PACKET (R252, R263, R264): the next line of the image in progress; another data type is discarded, a wrong length or a line too many is TRUNC, and a header or CRC that fails
ends the image whatever the type. -/
def Chip.csiLine (c : Chip) (p vc dt : Nat) (data : Bytes) (hdr : HdrEcc) (crcOk : Bool) : Chip :=
  match c.streamOf p vc with
  | none => c
  | some s =>
    let v := (c.stream s).getD []
    let whole := hdr != .bad && crcOk
    if !c.sinkOn p then c
    else if dt = 0x12 then c.embedded p vc data hdr crcOk
    else if dt ≠ v.getD 3 0 then (let c1 := c.csiCount p false true; if whole then c1 else c1.dropSi s 5)
    else if whole && (decide (data.length ≠ lineBytes v) || ((c.ring s).img.map (fun i => decide (v.getD 5 0 ≤ i.lines.length))).getD false) then c.dropSi s 4
    else c.packetIn p s data hdr crcOk (fun i => some { i with lines := i.lines ++ [data] })

/-- FRAME_END_PACKET (R252, R264): an image with every line is complete; with fewer it is TRUNC, and with a header that cannot be corrected CRC. -/
def Chip.frameEnd (c : Chip) (p vc : Nat) (hdr : HdrEcc) : Chip :=
  match c.streamOf p vc with
  | none => c
  | some s =>
    let r := c.ring s
    match r.img with
    | none => c
    | some i =>
      if hdr == .bad then c.dropSi s 5
      else if i.lines.length ≠ ((c.stream s).getD []).getD 5 0 then c.dropSi s 4
      else c.setRing s { r with img := none, out := r.out ++ [{ i with ended := true }] }

/-! ### Conditioning -/

/-- Samples of a line under the CSI-2 packing of its data type (R252; log 33). -/
def csiSamples (dt : Nat) (b : Bytes) : List Nat :=
  let at_ := fun (l : Bytes) (i : Nat) => (l.getD i 0#8).toNat
  match dt with
  | 0x2B => (chunks 5 b).flatMap fun l => (List.range 4).map fun i => at_ l i * 4 + bits (at_ l 4) (2 * i + 1) (2 * i)
  | 0x2C => (chunks 3 b).flatMap fun l => (List.range 2).map fun i => at_ l i * 16 + bits (at_ l 2) (4 * i + 3) (4 * i)
  | 0x2D => (chunks 7 b).flatMap fun l =>
      let low := at_ l 4 + at_ l 5 * 256 + at_ l 6 * 65536
      (List.range 4).map fun i => at_ l i * 64 + bits low (6 * i + 5) (6 * i)
  | 0x2E => (chunks 2 b).map fun l => at_ l 0 * 256 + at_ l 1
  | 0x2F => (chunks 5 b).flatMap fun l => (List.range 2).map fun i =>
      (at_ l (2 * i) * 4 + bits (at_ l 4) (4 * i + 1) (4 * i)) * 1024 + at_ l (2 * i + 1) * 4 + bits (at_ l 4) (4 * i + 3) (4 * i + 2)
  | _ => b.map (·.toNat)

/-- A code through a companding table of segments x, y, s (R254). -/
def pwlLin (segs : List (List Nat)) (x : Nat) : Nat :=
  match (segs.filter (fun s => decide (s.headD 0 ≤ x))).getLast? with
  | some s => min (s.getD 1 0 + (x - s.headD 0) <<< s.getD 2 0) 0xFFFFFF
  | none => x

/-- Linear value of a received code in channel `ch` (R254). -/
def Chip.linear (c : Chip) (v : List Nat) (x ch : Nat) : Nat :=
  let lin := if v.getD 7 0xFF = 0xFF then x else pwlLin (chunks 3 ((c.cfgAll 0x0403).getD (v.getD 7 0) [])) x
  lin - v.getD (8 + ch) 0

/-- A plane: rows of pixels of four channels. -/
abbrev Plane := List (List (List Nat))

/-- The level 0 plane of the received lines (R254). -/
def Chip.plane0 (c : Chip) (v : List Nat) (lines : List Bytes) : Plane :=
  if v.getD 3 0 = 0x1E then lines.map (fun l => (chunks 4 (csiSamples 0x1E l)))
  else
    (chunks 2 (lines.map (csiSamples (v.getD 3 0)))).map fun two =>
      ((chunks 2 (two.getD 0 [])).zip (chunks 2 (two.getD 1 []))).map fun q =>
        [c.linear v (q.1.getD 0 0) 0, c.linear v (q.1.getD 1 0) 1, c.linear v (q.2.getD 0 0) 2, c.linear v (q.2.getD 1 0) 3]

/-- The next level: each channel the rounded mean of 2 × 2 pixels (R254). -/
def binPlane (p : Plane) : Plane :=
  (chunks 2 p).map fun two =>
    ((chunks 2 (two.getD 0 [])).zip (chunks 2 (two.getD 1 []))).map fun q =>
      (List.range 4).map fun ch =>
        divRne ((q.1.getD 0 []).getD ch 0 + (q.1.getD 1 []).getD ch 0 + (q.2.getD 0 []).getD ch 0 + (q.2.getD 1 []).getD ch 0) 4

/-- The planes of every level. -/
def levelPlanes : Nat → Plane → List Plane
  | 0, _ => []
  | n + 1, p => p :: levelPlanes n (binPlane p)

/-- An output sample's code and whether it saturated (R254). -/
def outSample (fmt shift v : Nat) : Nat × Bool :=
  if fmt = 0x10 then (min 0x7C00 (if v = 0 then 0 else encMag 10 (-24) v (-(shift : Int))), false)
  else
    let x := divRne v (2 ^ shift)
    let m := if fmt = 3 then 255 else 65535
    (min x m, decide (m < x))

/-- A level's payload and its saturations (R255). -/
def levelBytes (v : List Nat) (p : Plane) : Bytes × Nat :=
  let s := (p.flatMap (fun row => row.flatMap id)).map (outSample (v.getD 12 5) (v.getD 14 0))
  (pack (v.getD 12 5) (v.getD 13 0) p.length ((p.headD []).length) 4 1 (s.map (·.1)) [], (s.filter (·.2)).length)

/-- Embedded lines padded to multiples of 64 B (R256). -/
def embBytes (l : List Bytes) : Bytes := l.flatMap (fun b => padTo (roundUp b.length 64) b)

/-- The partition that owns a ring: its port's (R251, R284). -/
def Chip.ringPart (c : Chip) (s : Nat) : Nat :=
  match c.ringCfg s with
  | some g => if s < 48 then c.sport g.port 2 0 else ((bitList 4 (c.cfgBy 0x0501 g.port 2 0)).headD 0)
  | none => 0

/-- SI station of a ring's port (R26). -/
def Chip.ringStn (c : Chip) (s : Nat) : Nat := ((c.ringCfg s).map (fun g => if s < 48 then g.port else 24 + g.port)).getD 0

/-- The DDR5 ranges of an SI station's task, one a die, as address and length: they cover the rings of its streams or lidars, fill entries included (R253). Its core-buffer bound is 0, and its
staging area in the headstock buffer is held with the images (R263; log 79). -/
def Chip.siRanges (c : Chip) (st : Nat) : List (Nat × Nat) :=
  let gs := (c.ringList.filter (fun s => c.ringStn s == st)).filterMap c.ringCfg
  ((gs.map (·.die)).eraseDups).map fun d =>
    let mine := gs.filter (fun g => g.die == d)
    let lo := mine.foldl (fun n g => min n (g.entry 0)) ((mine.map (·.entry 0)).headD 0)
    let hi := mine.foldl (fun n g => max n (g.entry (g.entries + 1))) 0
    (lo, hi - lo)

/-- Bytes written into an entry as part of its contribution: memory and the digest's data, as ingest flits (R225, R229, R263); a write outside the task's ranges is dropped (R172, R253).
`more` says that the image goes on. -/
def Chip.ingestBytes (c : Chip) (g : RingCfg) (s e off num part : Nat) (b : Bytes) (more : Bool) : Chip :=
  let k := conKey g.die 0 num
  let a := g.entry e + off
  let st := c.ringStn s
  if !(c.siRanges st).any (fun r => decide (r.1 ≤ a ∧ a + b.length ≤ r.1 + r.2)) then c
  else
    let c1 := (c.hsPut 5 0 st 0 b).write a b [] { kind := 3, part := part, safety := c.isSafety part, st := st } []
    let c2 := c1.setContrib k { ((c1.contrib k).carry b none) with ingest := s * 256 + e + 1 }
    c2.sendData { ty := 0xB, src := 0, dst := g.die, part := part, more := more, offset := (e * g.stride + off) / 8, contrib := num } b []

/-- The parts of an image's body with their offsets, and its saturated samples (R255, R256). -/
def Chip.imgParts (c : Chip) (v : List Nat) (emb lines : List Bytes) : List (Nat × Bytes) × Nat :=
  let ls := (levelPlanes (max 1 (v.getD 15 1)) (c.plane0 v lines)).map (levelBytes v)
  ((64, embBytes emb) :: ls.zipIdx.map (fun x => (levelOff v x.2, x.1.1)), (ls.map (·.2)).foldl (· + ·) 0)

/-- What the first `n` embedded lines and `m` lines of an image put into its entry: of an image in progress, whole pixels of every level and whole 64 bytes (R254, R263; log 79). -/
def Chip.soFar (c : Chip) (v : List Nat) (i : Img) (n m : Nat) : List (Nat × Bytes) × Nat :=
  let step := (if v.getD 3 0 = 0x1E then 1 else 2) * 2 ^ (max 1 (v.getD 15 1) - 1)
  let all := i.ended && m == i.lines.length
  let x := c.imgParts v (i.emb.take n) (i.lines.take (if all then m else m / step * step))
  (x.1.map (fun b => (b.1, if all then b.2 else b.2.take (b.2.length / 64 * 64))), x.2)

/-- The SI takes what an image has in staging and writes what that completes of its entry, as one contribution for the image (R254–R256, R263). -/
def Chip.takeStaged (c : Chip) (g : RingCfg) (s : Nat) (i : Img) : Chip × Img :=
  let v := (c.stream s).getD []
  let old := c.soFar v { i with ended := false } i.tookEmb i.took
  let new := c.soFar v i i.emb.length i.lines.length
  let fresh := ((new.1.zipIdx.map (fun x => let n := ((old.1.getD x.2 (0, [])).2).length; (x.1.1 + n, x.1.2.drop n))).filter (fun b => !b.2.isEmpty))
  let part := c.ringPart s
  let o := if i.opened then (i.num, c) else c.openContrib 0 g.die part 255
  let c1 := eachDo fresh (fun b c => c.ingestBytes g s i.ent b.1 o.1 part b.2 true) o.2
  (c1.addReg 0 (spBlk g.port + 0x38) (new.2 - old.2),
    { i with tookEmb := i.emb.length, took := i.lines.length, opened := true, num := o.1, written := i.ended, sat := i.sat || decide (old.2 < new.2) })

/-- INGEST_WRITE (R254–R256, R263): the SI moves what is in staging across the ring die's link into the entry: of the oldest complete image, else of the image in progress. -/
def Chip.ingestWrite (c : Chip) (p vc : Nat) : Chip :=
  match c.streamOf p vc with
  | none => c
  | some s =>
    let r := c.ring s
    match r.out, r.img, c.ringCfg s with
    | i :: rest, _, some g => if i.written then c else (let x := c.takeStaged g s i; x.1.setRing s { x.1.ring s with out := x.2 :: rest })
    | [], some i, some g => if i.staging.isEmpty then c else (let x := c.takeStaged g s i; x.1.setRing s { x.1.ring s with img := some x.2 })
    | _, _, _ => c

/-- ENTRY_WRITTEN (R257, R258): the header is written last, as one 64-byte write, the contribution's trailer follows, and the entry is VERIFYING. -/
def Chip.entryWritten (c : Chip) (p vc : Nat) : Chip :=
  match c.streamOf p vc with
  | none => c
  | some s =>
    let r := c.ring s
    match r.out, c.ringCfg s with
    | i :: rest, some g =>
      if !i.written then c
      else
        let part := c.ringPart s
        let flags := b2n i.stretch + 2 * b2n i.retx + 4 * b2n i.sat
        let h := entryHdr 1 0 s (i.tag % 2 ^ 32) i.ts i.bound flags i.frameNo (embBytes i.emb).length (r.ready + 1) g.offs
        let c1 := c.ingestBytes g s i.ent 0 i.num part h false
        let c2 := c1.setRing s { (c1.ring s).setEnt i.ent ⟨.verifying, i.tag⟩ with out := rest }
        c2.sendTrailer 0 g.die part i.num
    | _, _ => c

/-! ### Port events -/

/-- Streams of a port. -/
def Chip.streamsOf (c : Chip) (p : Nat) : List Nat := ((c.cfgAll 0x0402).filter (fun v => v.getD 1 0 == p)).map (·.headD 0)

/-- The images in progress of a port dropped as TRUNC (R264). -/
def Chip.dropPort (c : Chip) (p : Nat) : Chip := eachDo (c.streamsOf p) (fun s c => c.dropSi s 4) c

/-- SENSOR_LINK_LOST (R264, R281): images in progress are TRUNC, the link is down and SP_ERR_STATUS[2] set. -/
def Chip.sensorLost (c : Chip) (p : Nat) : Chip :=
  if !bit (c.reg 0 (spBlk p)) 5 then c
  else
    let c1 := c.dropPort p
    ((c1.setFld 0 (spBlk p) 5 5 0).spLatch p 0 4 0 0).raise 0 (spBlk p + 4) 2 0x1C

/-- Launch instant of the sync message for the sync instant `off` µs into the turn that starts at `start` (R268). -/
def Chip.gpioNs (c : Chip) (p off start : Nat) : Nat := start + off * 1000 - 1280 - (c.sp p).delay / 65536 - c.sport p 11 0

/-- FRAME_SYNC_LAUNCH (R268): the message for the sync instant `off` µs into a sync turn leaves the uplink at its launch instant, once for the streams that share the instant; for the
next turn it may leave before that turn begins. -/
def Chip.syncLaunch (c : Chip) (p off : Nat) : Chip :=
  let due := fun (t : Nat) => (c.streamsOf p).any (fun s => match c.ringCfg s with
    | some g => g.sync t && ((c.stream s).getD []).getD 18 0 == off
    | none => false)
  let now := c.gpioNs p off c.turnStart
  let next := c.gpioNs p off c.turnEnd
  let go := fun (t : Nat) => (c.advanceTo t).modSp p (fun x => { x with sync := t })
  if !c.running || bits (c.reg 0 (spBlk p)) 1 0 != 1 || bit (c.reg 0 (spBlk p)) 10 then c
  else if due c.turn && decide ((c.sp p).sync < now) then go now
  else if due (c.turn + 1) && decide ((c.sp p).sync < next ∧ next < c.turnEnd) then go next
  else c

/-- POC_SAMPLE (R270, R272): a sample every 10 µs; the third in a row beyond the trip current switches the port off, drops its images as TRUNC and sets
SP_ERR_STATUS[1]. -/
def Chip.pocSample (c : Chip) (p ma : Nat) : Chip :=
  let b := spBlk p
  if !bit (c.reg 0 b) 6 then c
  else
    let m := min 1023 ma
    let c1 := (c.setFld 0 (b + 0x14) 9 0 m).setFld 0 (b + 0x14) 25 16 (max (c.fld 0 (b + 0x14) 25 16) m)
    let hot := decide (c.sport p 17 1023 < m) || m == 1023
    let n := if hot then (c.sp p).high + 1 else 0
    if n < 3 then c1.modSp p (fun x => { x with high := n })
    else
      let last := decide (c.sport p 19 1 ≤ c1.fld 0 b 9 8)
      let c2 := c1.dropPort p
      let c3 := (c2.setFld 0 b 6 6 0).setFld 0 b 7 7 (b2n last)
      ((c3.modSp p (fun x => { x with high := 0, offNs := c3.nowNs })).spLatch p 0 4 m 0).raise 0 (b + 4) 1 0x1C

/-- POC_RETRY (R272): 100 ms after a trip the power comes on again, up to poc_retries times. -/
def Chip.pocRetry (c : Chip) (p : Nat) : Chip :=
  let b := spBlk p
  let x := c.reg 0 b
  if bit x 6 || bit x 7 || c.sport p 14 0 == 0 || (c.sp p).offNs == 0 then c
  else ((c.advanceTo ((c.sp p).offNs + 100000000)).setFld 0 b 6 6 1).setFld 0 b 9 8 (bits x 9 8 + 1)

/-- EYE_MARGIN_CHECK (R335, R541): a margin below the one that start training accepted raises FSW bit 4 without a status bit. -/
def Chip.eyeCheck (c : Chip) (p : Nat) (low : Bool) : Chip :=
  if low && bits (c.reg 0 (spBlk p)) 1 0 != 0 then c.rise { bit := 4, cause := 0x1C, die := 0, src := 0 } else c

/-- SI_RUN (R253): the SI station begins the command that the Turner wrote for the turn, and ends the one before it. -/
def Chip.siRun (c : Chip) (p : Nat) : Chip :=
  if !(c.sp p).siDue then c
  else
    let o := stBlk p
    ((c.modSp p (fun x => { x with siDue := false, si := true, cmd := x.next })).setFld 0 (o + 0x14) 4 4 1).addReg 0 (o + 0x10) (b2n (c.sp p).si)

/-! ### Source frames (R275) -/
/-- vc. -/
def soVc (d : Nat) : Nat := bits d 193 192
/-- dtype. -/
def soDt (d : Nat) : Nat := bits d 199 194
/-- lines. -/
def soLines (d : Nat) : Nat := bits d 215 200
/-- line_bytes. -/
def soBytes (d : Nat) : Nat := bits d 231 216
/-- launch_us. -/
def soLaunch (d : Nat) : Nat := bits d 263 232

/-- A packet on a source port's wire: data type, virtual channel, payload. -/
def csiPacket (dt vc : Nat) (b : Bytes) : Bytes := toLE 1 dt ++ toLE 1 vc ++ b

/-- The command of an SO station that is at work. -/
def Chip.soRun (c : Chip) (p : Nat) : Option Run :=
  (c.curRun (stKey (40 + p) 0)).filter (fun r => dType r.desc == 9 && dOp r.desc == 1 && !r.inDone && r.status == 0)

/-- Gate decision of a partition for the turn with low bits `t`: 1 released, 2 withheld, 0 open (R361). -/
def Chip.gateOf (c : Chip) (t p : Nat) : Nat := tabGet 0 c.wrk.gates ((t % 2 ^ 32) * 4 + p)

/-- Full number of a turn known by its low 32 bits, at or just before the current one. -/
def Chip.fullTurn (c : Chip) (t : Nat) : Nat := c.turn - ((c.turn32 + 2 ^ 32 - t % 2 ^ 32) % 2 ^ 32)

/-- Whole lines taken from the bytes acquired; after poison the remaining lines are zeros (R277, R278). -/
def soEmit (d : Nat) (s : SoFrame) : SoFrame × List Bytes :=
  let n := min (soLines d - s.lines) (if s.bad then soLines d else s.buf.length / max 1 (soBytes d))
  let ls := (List.range n).map (fun i => if s.bad then List.replicate (soBytes d) 0#8 else slice s.buf (i * soBytes d) (soBytes d))
  ({ s with lines := s.lines + n, buf := s.buf.drop (n * soBytes d), body := s.body ++ ls.flatMap id }, ls.map (csiPacket (soDt d) (soVc d)))

/-- The trailer line (R278). -/
def soTrailer (part turn frame : Nat) (s : SoFrame) : Bytes :=
  toLE 8 turn ++ toLE 1 part ++ toLE 1 (b2n s.bad) ++ toLE 4 frame ++ toLE 46 0 ++ toLE 4 (crc32c s.body)

/-- Packets sent on a source port, through its FIFO from the fabric (R23, R277). -/
def Chip.sendCsi (c : Chip) (p : Nat) (so : Option SoFrame) (l : List Bytes) : Chip :=
  (c.hsPut 5 0 p 1 (l.flatMap id)).modSp p (fun y => { y with so := so, tx := y.tx ++ l })

/-- A frame's last packets (R278): the trailer line and Frame End; a withheld frame ends with nothing sent. -/
def Chip.soEnd (c : Chip) (p : Nat) (s : SoFrame) : Chip :=
  if !s.started then c.modSp p (fun y => { y with so := none })
  else
    let d := s.desc
    let n := (c.sp p).frames
    let tail := [csiPacket 0x37 (soVc d) (soTrailer s.part (c.fullTurn s.turn) n s), csiPacket 1 (soVc d) (toLE 2 n)]
    (((c.sendCsi p none tail).modSp p (fun y => { y with frames := (y.frames + 1) % 2 ^ 32 })).addReg 0 (spBlk p + 0x3C) 1).addReg 0 (spBlk p + 0x44) (b2n s.bad)

/-- A frame whose command has ended before all of its tiles were taken (R46, R278): the remaining lines go out as zeros with status 1 (log 156). -/
def Chip.soCut (c : Chip) (p : Nat) (s : SoFrame) : Chip :=
  let x := if s.started then soEmit s.desc { s with bad := true } else (s, [])
  (c.sendCsi p none x.2).soEnd p x.1

/-- The frame in progress that no command at work stands behind: its command ended early, and another may have started. -/
def Chip.soStale (c : Chip) (p : Nat) : Option SoFrame :=
  match c.soRun p with
  | some r => if r.pos = 0 then (c.sp p).so else none
  | none => (c.sp p).so

/-- SO_FRAME_START (R277): Frame Start leaves at the turn start plus launch_us when the gate has released the turn named in the frame's first tile; otherwise
nothing is sent, and a withheld turn is counted. A frame that an ended command left behind is finished first. -/
def Chip.soStart (c : Chip) (p : Nat) : Chip :=
  match c.soRun p with
  | none => c
  | some r =>
    match r.ins with
    | [] => c
    | t :: _ =>
      if r.pos ≠ 0 then c
      else
        let c0 := match c.soStale p with | some s => c.soCut p s | none => c
        let part := c.jobPart (dJob r.desc)
        let g := c.gateOf (hTurn t.hdr) part
        let c1 := (c0.setRun (stKey (40 + p) 0) { r with pos := 1 }).advanceTo (c.turnStart + soLaunch r.desc * 1000)
        let s : SoFrame := { desc := r.desc, part := part, turn := hTurn t.hdr, started := g == 1, held := g != 1 }
        if g = 1 then (c1.modSp p (fun x => { x with tx := [] })).sendCsi p (some s) [csiPacket 0 (soVc r.desc) (toLE 2 (c1.sp p).frames)]
        else (c1.addReg 0 (spBlk p + 0x40) (b2n (g == 2))).modSp p (fun x => { x with so := some s })

/-- SO_FRAME (R275–R278): the next tile's lines are sent, or consumed for a frame that is withheld; after the last line the trailer and Frame End follow. A frame whose command has ended
early is finished. -/
def Chip.soFrame (c : Chip) (p : Nat) : Chip :=
  match c.soStale p with
  | some s => c.soCut p s
  | none =>
    match c.soRun p, (c.sp p).so with
    | some r, some s =>
      match r.nextIn with
      | none => c
      | some t =>
        let rd := c.payload t
        let s1 := { s with buf := s.buf ++ rd.2.1, bad := s.bad || t.pois || t.prov || !rd.2.2.isEmpty }
        let x := if s.held then (s1, []) else soEmit r.desc s1
        let r1 := r.advance t.ord
        let c1 := ((rd.1.busy (40 + p) 1).setRun (stKey (40 + p) 0) r1).sendCsi p (some x.1) x.2
        if r1.inDone then c1.soEnd p x.1 else c1
    | _, _ => c

/-- SI_RUN. -/
def execSiRun (pt : SiPort) (s : State) : Host.Outcome State Fault Refusal := .next { s with chip := s.chip.work (·.siRun pt) }
/-- SO_FRAME. -/
def execSoFrame (sp : SPort) (s : State) : Host.Outcome State Fault Refusal := .next { s with chip := s.chip.work (·.soFrame sp) }
/-- SO_FRAME_START. -/
def execSoFrameStart (sp : SPort) (s : State) : Host.Outcome State Fault Refusal := .next { s with chip := s.chip.work (·.soStart sp) }
/-- FRAME_START_PACKET. -/
def execFrameStartPacket (sp : SPort) (vc : Fin 4) (frameNo : BitVec 16) (retx : Nat) (hdr : HdrEcc) (cap : Capture) (s : State) :
    Host.Outcome State Fault Refusal := .next { s with chip := s.chip.work (fun c => (c.packet sp retx hdr).frameStart sp vc frameNo.toNat retx hdr cap) }
/-- CSI_LINE_PACKET. -/
def execCsiLinePacket (sp : SPort) (vc : Fin 4) (dt : Fin 64) (data : Bytes) (hdr : HdrEcc) (crcOk : Bool) (retx : Nat) (s : State) :
    Host.Outcome State Fault Refusal := .next { s with chip := s.chip.work (fun c => (c.packet sp retx hdr).csiLine sp vc dt data hdr crcOk) }
/-- EMBEDDED_DATA_PACKET. -/
def execEmbeddedDataPacket (sp : SPort) (vc : Fin 4) (data : Bytes) (hdr : HdrEcc) (crcOk : Bool) (retx : Nat) (s : State) :
    Host.Outcome State Fault Refusal := .next { s with chip := s.chip.work (fun c => (c.packet sp retx hdr).embedded sp vc data hdr crcOk) }
/-- FRAME_END_PACKET. -/
def execFrameEndPacket (sp : SPort) (vc : Fin 4) (hdr : HdrEcc) (retx : Nat) (s : State) : Host.Outcome State Fault Refusal :=
  .next { s with chip := s.chip.work (fun c => (c.packet sp retx hdr).frameEnd sp vc hdr) }
/-- INGEST_WRITE. -/
def execIngestWrite (sp : SPort) (vc : Fin 4) (s : State) : Host.Outcome State Fault Refusal := .next { s with chip := s.chip.work (·.ingestWrite sp vc) }
/-- ENTRY_WRITTEN. -/
def execEntryWritten (sp : SPort) (vc : Fin 4) (s : State) : Host.Outcome State Fault Refusal := .next { s with chip := s.chip.work (·.entryWritten sp vc) }
/-- FRAME_SYNC_LAUNCH. -/
def execFrameSyncLaunch (sp : SPort) (off : Nat) (s : State) : Host.Outcome State Fault Refusal := .next { s with chip := s.chip.work (·.syncLaunch sp off) }
/-- POC_SAMPLE. -/
def execPocSample (sp : SPort) (ma : BitVec 16) (s : State) : Host.Outcome State Fault Refusal := .next { s with chip := s.chip.live (·.pocSample sp ma.toNat) }
/-- POC_RETRY. -/
def execPocRetry (sp : SPort) (s : State) : Host.Outcome State Fault Refusal := .next { s with chip := s.chip.live (·.pocRetry sp) }
/-- EYE_MARGIN_CHECK. -/
def execEyeMarginCheck (sp : SPort) (low : Bool) (s : State) : Host.Outcome State Fault Refusal := .next { s with chip := s.chip.live (·.eyeCheck sp low) }
/-- SENSOR_LINK_LOST. -/
def execSensorLinkLost (sp : SPort) (s : State) : Host.Outcome State Fault Refusal := .next { s with chip := s.chip.live (·.sensorLost sp) }

end Sys2Proof.Machine
end

