-- ==== Sys2Proof/Machine/Message.lean ====
section
/-! DEFINITION. Machine/Message.lean: mailbox messages (R448–R450), their closing checks, the frames that carry them and the transmit queues they enter (R290, R447). -/
namespace Sys2Proof.Machine

/-! ### Ports and queues -/

/-- An Ethernet port's own state. -/
def Chip.ep (c : Chip) (n : Nat) : EPortSt := tabGet {} c.net.ports n
/-- The chip with `f` applied to it. -/
def Chip.modEp (c : Chip) (n : Nat) (f : EPortSt → EPortSt) : Chip := { c with net := { c.net with ports := tabMod {} c.net.ports n f } }
/-- Field `i` of the port's EPORT record (R313). -/
def Chip.eport (c : Chip) (n i d : Nat) : Nat := c.cfgBy 0x0501 n i d
/-- role of a port (R283). -/
def Chip.role (c : Chip) (n : Nat) : Nat := c.eport n 1 0
/-- Whether the port's link is up and the port on (R317). -/
def Chip.linkUp (c : Chip) (n : Nat) : Bool := bit (c.reg 0 (epBlk n)) 3 && !bit (c.reg 0 (epBlk n)) 8

/-- Bytes of a frame with a UDP payload of `n` bytes: Ethernet, VLAN, IPv4 and UDP headers and the FCS, at least 64 (R285). -/
def Chip.frameLen (c : Chip) (port n : Nat) : Nat := max 64 (46 + (if c.eport port 5 0 = 0 then 0 else 4) + n)

/-- Largest frame of a port, FCS included (R285). -/
def maxFrame (port : Nat) : Nat := if port < 8 then 2000 else 9216

/-- A frame put at the end of transmit queue `q`; a silenced device queues only reports (R290, R382). The first frame of TQ1 is its head from now on (R293). -/
def Chip.queueFrame (c : Chip) (port q : Nat) (f : Frame) : Chip :=
  c.modEp port (fun x =>
    match q with
    | 0 => { x with tq0 := x.tq0 ++ [f] }
    | 1 => { x with tq1 := x.tq1 ++ [f], headNs := if x.tq1.isEmpty then c.nowNs else x.headNs }
    | 2 => { x with tq2 := x.tq2 ++ [f] }
    | _ => { x with tq3 := x.tq3 ++ [f] })

/-- The ports with the MGMT role. -/
def Chip.mgmtPorts (c : Chip) : List Nat := (List.range 10).filter (fun n => c.role n == 2)

/-- The MGMT port of fault and start reports: the lowest-numbered one whose link is up, else the lowest-numbered (log 34). -/
def Chip.mgmtPort (c : Chip) : Nat := (c.mgmtPorts.find? c.linkUp).getD (c.mgmtPorts.headD 0)

/-! ### Messages -/

/-- Header fields of a message (R448). -/
structure MsgHdr where
  major : Nat := 3
  minor : Nat := 1
  ty : Nat
  sess : Nat := 255
  flags : Nat := 0
  status : Nat := 0
  seq : Nat := 0
  ref : Nat := 0
  deriving DecidableEq, Repr

/-- The 32-byte header of a message of `len` bytes (R448). -/
def MsgHdr.bytes (h : MsgHdr) (len : Nat) : Bytes :=
  let b := toLE 4 0x424D594B ++ toLE 1 h.major ++ toLE 1 h.minor ++ toLE 2 h.ty ++ toLE 1 h.sess ++ toLE 1 h.flags ++ toLE 2 h.status
    ++ toLE 4 h.seq ++ toLE 4 h.ref ++ toLE 4 len ++ toLE 4 0
  b ++ toLE 4 (crc32c b)

/-- A message that closes with mcrc (R449). -/
def plainMsg (h : MsgHdr) (body : Bytes) : Bytes :=
  let b := h.bytes (36 + body.length) ++ body
  b ++ toLE 4 (crc32c b)

/-- A signature under the identity key: its 96 bytes depend on a private key and a nonce that nothing outside sees (R396, R420; log 35). -/
def Chip.sign (c : Chip) : Bytes × Chip := (toBE 96 (Config.signature c.free).toNat, { c with free := c.free + 1 })

/-- A message that closes with a signature (R449). -/
def Chip.signedMsg (c : Chip) (h : MsgHdr) (body : Bytes) : Bytes × Chip :=
  let s := c.sign
  (h.bytes (128 + body.length) ++ body ++ s.1, s.2)

/-- A session's state: 0–3 partition, 4–7 management, 255 the reports' own sequence numbers. -/
def Chip.sess (c : Chip) (i : Nat) : Sess := tabGet {} c.ses.tab i
/-- The chip with `f` applied to it. -/
def Chip.modSess (c : Chip) (i : Nat) (f : Sess → Sess) : Chip := { c with ses := { c.ses with tab := tabMod {} c.ses.tab i f } }

/-- The device's next sequence number on a session (R454). -/
def Chip.nextSeq (c : Chip) (i : Nat) : Nat × Chip := ((c.sess i).tx, c.modSess i (fun x => { x with tx := (x.tx + 1) % 2 ^ 32 }))

/-- Field `i` of a SESSION record (R451). -/
def Chip.sessRec (c : Chip) (s i d : Nat) : Nat := c.cfgBy 0x0203 s i d
/-- The session of partition `p` (R34). -/
def Chip.sessOf (c : Chip) (p : Nat) : Nat := c.cfgBy 0x0201 p 21 p
/-- The partition of session `s`. -/
def Chip.partOf (c : Chip) (s : Nat) : Option Nat := ((c.cfgAll 0x0201).find? (fun v => v.getD 21 0 == s)).map (·.headD 0)

/-- The port that a session's messages leave from. -/
def Chip.sessPort (c : Chip) (s : Nat) : Nat := if s < 4 then c.sessRec s 1 0 else (c.sess s).port

/-- A message's frame to the host of a session (R446). -/
def Chip.sessFrame (c : Chip) (s : Nat) (b : Bytes) : Frame :=
  let n := c.frameLen (c.sessPort s) b.length
  if s < 4 then { ip := c.sessRec s 2 0, dstUdp := c.sessRec s 3 0, srcUdp := c.sessRec s 4 0, body := b, len := n }
  else { ip := (c.sess s).ip, dstUdp := (c.sess s).udp, srcUdp := if s = 255 then 19289 else 19290, body := b, len := n }

/-- Major and minor that the device puts into messages of a session: those negotiated, or about to be, else its own 3.1 (R456); the ROM speaks major 1 (R467; log 53). -/
def Chip.version (c : Chip) (s : Nat) : Nat × Nat :=
  if s = 255 then (if bit (c.reg 0 startBlk) 5 then (1, 0) else (3, 1))
  else match (c.sess s).neg, (c.sess s).next with
    | some n, _ => (n.major, n.minor)
    | none, some (some n) => (n.major, n.minor)
    | _, _ => (3, 1)

/-- A message to a session's host through queue `q`, and its bytes. -/
def Chip.tell (c : Chip) (s q ty flags status ref : Nat) (body : Bytes) : Bytes × Chip :=
  let n := c.nextSeq s
  let v := c.version s
  let b := plainMsg { major := v.1, minor := v.2, ty := ty, sess := s, flags := flags, status := status, seq := n.1, ref := ref } body
  (b, n.2.queueFrame (c.sessPort s) q (c.sessFrame s b))

/-- A report to the host that FCLASS names, from the MGMT port (R396, R446). -/
def Chip.sendReport (c : Chip) (b : Bytes) : Chip :=
  let p := c.mgmtPort
  c.queueFrame p 2 { ip := c.cfg1 0x0801 66 0, dstUdp := c.cfg1 0x0801 67 0, srcUdp := 19290, body := b, len := c.frameLen p b.length }

/-- Whether partition `p` owns a logical core, the BX, a queue, a window or a DDRREG region on CDd (R34, R457). -/
def Chip.ownsOn (c : Chip) (p d : Nat) : Bool :=
  let f := fun i => c.cfgBy 0x0201 p i 0
  bits (f 2) (8 * d - 1) (8 * (d - 1)) != 0 || bit (f 3) (d - 1) || f (5 + d) != 0 || f (13 + d) != 0
    || (c.cfgAll 0x0202).any (fun v => v.headD 0 == p && v.getD 1 0 == d)

end Sys2Proof.Machine
end

