-- ==== Sys2Proof/Machine/Fault.lean ====
section
/-! DEFINITION. Machine/Fault.lean: the fault collector (R372–R399): latching, classes and reactions, the safe state, fault records and reports, the Safety Status Port,
lockstep units, and the triggers of the spindle lock (R490, R491). -/
namespace Sys2Proof.Machine

/-! ### The Fault Status Word -/

/-- The FSW (R376). -/
def Chip.fsw (c : Chip) : Nat := c.reg64 0 fcBlk
/-- Latched class of an FSW bit (R398): 0 clear, 1 A, 2 B, 3 C. -/
def Chip.fcls (c : Chip) (b : Nat) : Nat := c.fld 0 (fcBlk + 8 + 4 * (b / 16)) (2 * (b % 16) + 1) (2 * (b % 16))
/-- FDET[b] (R398). -/
def fdet (b : Nat) : Nat := fcBlk + 0x80 + 0x10 * b
/-- Whether a class A event is latched (FIRST_A[6]). -/
def Chip.classA (c : Chip) : Bool := bit (c.reg 0 (fcBlk + 0x1C)) 6
/-- Whether some bit is latched with class `k`. -/
def Chip.anyClass (c : Chip) (k : Nat) : Bool := (List.range 64).any (fun b => c.fcls b == k)

/-- Whether the FLT balls are at fault level: before turns start, on a class A event, on a pin-enabled class B bit, and under a spindle lock (R381, R384, R491). -/
def Chip.fltLevel (c : Chip) : Bool :=
  !c.flt.armed || c.classA || (c.anyClass 2 && c.cfg1 0x0801 64 1 == 1) || c.locked

/-- Whether the parting gate is closed: turns do not run (R382, R383). -/
def Chip.gateClosed (c : Chip) : Bool := !c.running

/-- FSUM (R398); bits 7 and 8 are kept in the register. -/
def Chip.fsum (c : Chip) : Nat :=
  b2n c.classA + 2 * b2n (c.anyClass 2) + 4 * b2n (c.anyClass 3) + 8 * b2n c.fltLevel + 16 * b2n c.classA + 32 * b2n c.gateClosed
    + 64 * b2n c.flt.seq.isSome + (bits (c.reg 0 (fcBlk + 0x18)) 8 7) <<< 7

/-- The detail registers of the block whose status register is at `stat` of die `d` (R192, R394). -/
def detailRegs (d stat : Nat) : List Nat :=
  if stat = 0 then []
  else if d = 0 then
    if stat = timeBlk + 0x1C ∨ stat = sramBlk ∨ stat = qerrStatus ∨ stat = tsBlk + 0x1C ∨ (gateBlk 0 ≤ stat ∧ stat < gateBlk 4) then [stat + 4]
    else if xdBlk ≤ stat ∧ stat < xdBlk + 0x200 then [stat + 4]
    else [stat + 4]
  else if mxBlk 0 ≤ stat ∧ stat < mxBlk 9 then [stat + 4, stat + 8, stat + 0x10]
  else if vxBlk 0 ≤ stat ∧ stat < vxBlk 9 then [stat + 4, stat + 8]
  else if stat = ddrBlk 0 + 4 ∨ stat = ddrBlk 1 + 4 then [stat + 4, stat + 8, stat + 0xC]
  else if stat = blkBlk then [stat + 4, stat + 0x24]
  else [stat + 4]

/-! ### The spindle lock -/

/-- A spindle-lock trigger of source `src` (0 pin, 1 turn, 2 FSW bit, 3 immediate): honoured while the debug port is unlocked, no class A bit is latched and no lock
holds; frames in progress stop (R490, R491). -/
def Chip.spLock (c : Chip) (src b : Nat) : Chip :=
  if !c.obs.unlocked || c.classA || c.locked then c
  else
    let c1 := c.setReg 0 (obsBlk + 0x28) (1 + src <<< 1 + b <<< 3)
    let c2 := (c1.setReg64 0 (obsBlk + 0x2C) c1.nowNs).setReg 0 (obsBlk + 0x34) c1.turn32
    { c2 with net := { c2.net with ports := tabMap {} (fun _ x => { x with wire := none }) c2.net.ports },
              sns := { c2.sns with ports := tabMap {} (fun _ x => { x with so := none }) c2.sns.ports } }

/-- The trigger that SPL_ARM ties to the latch of FSW bit `b` (R490). -/
def Chip.spLockBit (c : Chip) (b : Nat) : Chip :=
  let a := c.reg 0 (obsBlk + 0x1C)
  if bits a 1 0 = 2 ∧ bits a 7 2 = b then c.spLock 2 b else c

/-! ### Records and reports -/

/-- The verdict of the lockstep unit that an FSW bit names, with the unit: 0 the Turner, d a Carver, 0xFF none (R394). -/
def Chip.lsField (c : Chip) (b cause : Nat) : Nat × Nat :=
  if cause ≠ 0x11 then (0, 0xFF)
  else
    let u := if b = 0 then 0 else b / 8
    (c.fld 0 (fcBlk + 0x2C + 4 * u) 15 8, u)

/-- The 256-byte fault record (R394). `det` is the source block's detail registers, `steps` the four entries of t_steps. -/
def Chip.faultRecord (c : Chip) (x : Seq) (flags : Nat) (steps : List Nat) (seqNo : Nat) : Bytes :=
  let ls := c.lsField x.bit x.cause
  let b :=
    toLE 4 0x5246594B ++ toLE 2 1 ++ toLE 1 x.bit ++ toLE 1 x.cause ++ toLE 8 x.ns ++ toLE 2 x.frac ++ toLE 2 2 ++ toLE 8 x.turn
      ++ toLE 8 x.fsw ++ toLE 8 c.fsw ++ (List.range 3).flatMap (fun i => toLE 4 (x.det.getD i 0)) ++ toLE 4 c.nv.log.boots
      ++ toLE 1 ls.1 ++ toLE 1 ls.2 ++ toLE 2 flags
      ++ (List.range 4).flatMap (fun p => toLE 8 (c.reg64 0 (gateBlk p + 0xC)))
      ++ (List.range 4).flatMap (fun i => toLE 4 (steps.getD i 0))
      ++ toLE 16 c.nv.otp.deviceId ++ toLE 4 (c.reg 0 (startBlk + 0x10)) ++ toLE 8 c.boot.cfgHash ++ toLE 4 seqNo
      ++ padTo 64 (x.later.flatMap (fun l => toLE 1 l.bit ++ toLE 1 l.cause ++ toLE 2 0 ++ toLE 4 l.us)) ++ toLE 44 0
  b ++ toLE 4 (crc32c b)

/-- The first event of a sequence as the collector latched it now. -/
def Chip.seqOf (c : Chip) (r : Rise) (t : Nat) : Seq :=
  { bit := r.bit, cause := r.cause, ns := t / 4294967296, frac := t / 65536 % 65536, turn := c.turn, fsw := c.fsw,
    det := (detailRegs r.die r.stat).map (c.reg r.die) }

/-- The signed FAULT_REPORT of a record (R396, R448). -/
def Chip.reportMsg (c : Chip) (record : Bytes) : Bytes × Chip :=
  let n := c.nextSeq 255
  n.2.signedMsg { ty := 0x0013, flags := 2, seq := n.1 } record

/-- A copy of a class B report on partition session `s` that negotiated REPORT_COPY (R457, R465): its header is the session's own. -/
def Chip.reportCopy (c : Chip) (s : Nat) (record : Bytes) : Chip :=
  let n := c.nextSeq s
  let v := c.version s
  let m := n.2.signedMsg { major := v.1, minor := v.2, ty := 0x0013, sess := s, flags := 2, seq := n.1 } record
  m.2.queueFrame (c.sessPort s) 2 (c.sessFrame s m.1)

/-- Sessions that get a copy of a class B report on bit `b` (R457). -/
def Chip.copySessions (c : Chip) (b : Nat) : List Nat :=
  (List.range 4).filter (fun s =>
    match (c.sess s).neg, c.partOf s with
    | some n, some p => bit n.feats 2 && (decide (b < 8) || c.ownsOn p (b / 8))
    | _, _ => false)

/-- One signed report of a class B event, at most one per bit and turn, if report_b is 1; none while firmware is stopped (R381, R396, R493). The steps of t_steps that a
class B event does not take are free (log 36). -/
def Chip.reportB (c : Chip) (x : Seq) : Chip :=
  if c.locked || c.cfg1 0x0801 65 1 != 1 || tabGet 0 c.flt.told x.bit == c.turn + 1 || c.cfg.isEmpty then c
  else
    let d0 := c.draw
    let d1 := d0.2.draw
    let d2 := d1.2.draw
    let c0 := d2.2
    let c1 := { c0 with nv := { c0.nv with log := { c0.nv.log with records := c.nv.log.records + 1 } },
                        flt := { c0.flt with told := tabSet 0 c0.flt.told x.bit (c.turn + 1) } }
    let r := c1.faultRecord x (1 + 2 <<< 3) [d0.1 % 41, d1.1, d2.1, c.nowNs - x.ns] c1.nv.log.records
    let m := c1.reportMsg r
    eachDo (c.copySessions x.bit) (fun s c => c.reportCopy s r) (m.2.sendReport m.1)

/-! ### The safe state -/

/-- Step 2 of R382: the gate closes, TQ1 is flushed and a result frame in progress ends with an inverted FCS, ports fall silent, TS_OUT and PPS go inactive, and no task is
released. -/
def Chip.silence (c : Chip) : Chip :=
  let c1 := c.setFld 0 (tsBlk + 0x10) 1 0 2
  let stop := fun (x : EPortSt) => { x with tq1 := [], badFcs := x.badFcs || ((x.wire.map (fun f => decide (f.part ≠ 0))).getD false) }
  { c1 with net := { c1.net with silent := true, pps := false, tsHigh := [], ports := tabMap {} (fun _ x => stop x) c1.net.ports } }

/-- A class A event (R382, R383): the first starts the sequence; a later one joins the record, up to eight. Under a spindle lock only the pins and FIRST_A react (R493). -/
def Chip.safeState (c : Chip) (r : Rise) (t : Nat) : Chip :=
  match c.flt.seq with
  | some x =>
    if x.later.length < 8 then
      { c with flt := { c.flt with seq := some { x with later := x.later ++ [⟨r.bit, r.cause, (t / 4294967296 - x.ns) / 1000⟩] } } }
    else c
  | none =>
    let c1 := { c.setReg 0 (fcBlk + 0x1C) (r.bit + 64 + r.cause <<< 8) with flt := { c.flt with seq := some (c.seqOf r t) } }
    if c.locked then c1
    else ((c1.shav 2 4 0x0030 1 r.bit r.cause).silence).shav 2 4 0x0030 2 r.bit r.cause

/-! ### Latching -/

/-- Class of an event (R377). -/
def Chip.riseClass (c : Chip) (r : Rise) : Nat := if r.esc then 1 else if r.cls ≠ 0 then r.cls else c.fclass r.bit

/-- An event latched at time `t`, in 2^−32 ns (R374, R376–R379, R381). -/
def Chip.latchEvent (c : Chip) (r : Rise) (t : Nat) : Chip :=
  let b := r.bit
  let k := c.riseClass r
  if c.fsw.testBit b then
    -- the bit holds an event: only one that drives the safe state over a lower class is not lost
    if k = 1 ∧ c.fcls b ≠ 1 then c.safeState r t else c
  else
    let c1 := (c.setReg64 0 fcBlk (c.fsw ||| 1 <<< b)).setFld 0 (fcBlk + 8 + 4 * (b / 16)) (2 * (b % 16) + 1) (2 * (b % 16)) k
    let c2 := (c1.setReg64 0 (fdet b) (t / 4294967296)).setReg 0 (fdet b + 8) (r.cause + r.die <<< 8 + r.src <<< 11 + 2 <<< 16)
    let c3 := (c2.setReg 0 (fdet b + 12) c.turn32).setReg64 0 (pwrBlk + 0x1C) (c.reg64 0 (pwrBlk + 0x1C) ||| 1 <<< b)
    match k with
    | 1 => c3.safeState r t
    | 2 => (c3.reportB (c3.seqOf r t)).spLockBit b
    | _ => (if c3.locked then c3 else c3.shav 2 2 0x0012 b r.cause r.die).spLockBit b

/-- ERROR_LINE_LATCH (R374, R379): the collector takes the oldest rise of the bit's line, at the interpolator's quarter `ph` of the tick. -/
def Chip.errorLatch (c : Chip) (b ph : Nat) : Chip :=
  match c.flt.rises.find? (fun r => r.bit == b) with
  | none => c
  | some r => ({ c with flt := { c.flt with rises := c.flt.rises.erase r } }).latchEvent r (c.tb.at c.tb.tick ph)

/-- Whether a source is the Turner pair (R378). -/
def isTurner : Src → Bool
  | .turner => true
  | _ => false

/-- FC_ESCALATE (R378): a write of the Turner pair is a class A event on the bit. -/
def Chip.fcEscalate (c : Chip) (b cause : Nat) (who : Src) : Chip :=
  if isTurner who then c.latchEvent { bit := b, cause := cause, die := 0, src := 0, esc := true, cls := 1 } c.nowF else c

/-- A session that holds the fault-clear privilege: an open management session (R380, R452). -/
def Chip.openMgmt (c : Chip) (who : Src) : Bool :=
  match who with
  | .mgmt s => (c.sess (4 + s)).isOpen
  | _ => false

/-- The rises of line `b` that came while its latch was set: those of no class A event are lost (R374, R377). -/
def Chip.dropLost (c : Chip) (b : Nat) : Chip :=
  { c with flt := { c.flt with rises := c.flt.rises.filter (fun r => r.bit != b || c.riseClass r == 1) } }

/-- One FSW bit cleared: a class B or C bit whose line is low (R380). -/
def Chip.clearBit (c : Chip) (b : Nat) : Chip :=
  if !c.fsw.testBit b || c.fcls b == 1 || c.lineHigh b then c
  else ((c.dropLost b).setReg64 0 fcBlk (c.fsw - 1 <<< b)).setFld 0 (fcBlk + 8 + 4 * (b / 16)) (2 * (b % 16) + 1) (2 * (b % 16)) 0

/-- FSW_CLEAR (R380). -/
def Chip.fswClear (c : Chip) (mask : Nat) (who : Src) : Chip :=
  if c.openMgmt who then eachDo (bitList 64 mask) (fun b c => c.clearBit b) c else c

/-- Whether record slot `i` of FL0 stands erased: the flash part lists no byte of it (R393). -/
def Chip.slotErased (c : Chip) (i : Nat) : Bool := c.nv.fl0.all (fun e => decide (e.1 < 0xE50000 + 256 * i) || decide (0xE50000 + 256 * i + 256 ≤ e.1))

/-- The slots of FL0 that hold no record: the lowest-numbered erased one (R393). -/
def Chip.freeRecord (c : Chip) : Option Nat := (List.range 64).find? c.slotErased

/-- Sector `k` of the record area, 16 slots, erased (R421). -/
def Chip.eraseSector (c : Chip) (k : Nat) : Chip :=
  { c with nv := { c.nv with fl0 := flashErase c.nv.fl0 (0xE50000 + 4096 * k) 4096, acked := tabKeep (fun i => decide (i / 16 ≠ k)) c.nv.acked } }

/-- The security core's erasing ahead at a start (R393): while fewer than 8 slots stand erased, the lowest sector of which every record is acknowledged is erased (log 162). -/
def Chip.eraseAhead (c : Chip) : Chip :=
  eachDo (List.range 4) (fun k c =>
    let mine := (List.range 16).map (16 * k + ·)
    if 8 ≤ ((List.range 64).filter c.slotErased).length || mine.any (fun i => !c.slotErased i && !tabGet false c.nv.acked i) then c else c.eraseSector k) c

/-- A record written into a slot of FL0, if one is free (R393). -/
def Chip.putRecord (c : Chip) (slot : Option Nat) (r : Bytes) : Chip :=
  match slot with
  | some i => { c with nv := { c.nv with fl0 := flashWrite c.nv.fl0 (0xE50000 + 256 * i) r, acked := tabSet false c.nv.acked i false } }
  | none => c

/-- The shavings ring's unmirrored entries mirrored, the ring's oldest first (R382, R444). -/
def Chip.mirrorTail (c : Chip) : Chip :=
  let tail := c.obs.shav.filter (fun e => decide (bits e.2 90 88 < 2))
  let head := c.reg 0 (startBlk + 0x1C) % 32768
  eachDo ((tail.filter (fun e => decide (e.1 < head))).reverse ++ (tail.filter (fun e => decide (head ≤ e.1))).reverse) (fun e c => c.mirror e.2) c

/-- The steps of t_steps that are free, and the chip after their draws (R394; log 36). -/
def Chip.drawSteps (c : Chip) : List Nat × Chip :=
  let d0 := c.draw
  let d1 := d0.2.draw
  let d2 := d1.2.draw
  ([d0.1, d1.1, d2.1], d2.2)

/-- One more record composed since manufacture (R393). -/
def Chip.countRecord (c : Chip) : Chip := { c with nv := { c.nv with log := { c.nv.log with records := c.nv.log.records + 1 } } }

/-- The class A sequence once its record and report are composed (R382). -/
def Chip.setSeq (c : Chip) (x : Seq) : Chip := { c with flt := { c.flt with seq := some x } }

/-- A composed record into its slot, with the signed report and its first copy; with the security core as first cause there is neither (R382, R393). -/
def Chip.storeRecord (c : Chip) (x : Seq) (slot : Option Nat) (r : Bytes) : Chip :=
  let c1 := c.putRecord slot r
  if x.bit = 1 then c1.setSeq { x with record := r, report := [] }
  else
    let m := c1.reportMsg r
    ((m.2.setSeq { x with record := r, report := m.1, copies := 1 }).sendReport m.1).orReg 0 (fcBlk + 0x18) 0x100

/-- FAULT_RECORD_WRITTEN (R382, R393, R394): the record goes into the lowest-numbered erased slot, the first copy of the report leaves, and the shavings ring's unmirrored
tail follows, newest first. When the security core is the first cause there is no signature and no report. -/
def Chip.recordWritten (c : Chip) : Chip :=
  match c.flt.seq with
  | none => c
  | some x =>
    if !x.record.isEmpty || c.locked then c
    else
      let slot := c.freeRecord
      let d := c.drawSteps
      let sec := x.bit == 1
      let c1 := d.2.countRecord
      let r := c1.faultRecord x (b2n (!sec) + 2 * b2n sec + 4 + 1 <<< 3 + 32 * b2n slot.isNone)
        [d.1.getD 0 0 % 41, d.1.getD 1 0 % 41, d.1.getD 2 0 % 1001, c.nowNs - x.ns] c1.nv.log.records
      (((c1.storeRecord x slot r).orReg 0 (fcBlk + 0x18) (128 * b2n slot.isSome)).shav 0 4 0x0030 4 x.bit x.cause).mirrorTail

/-- REPORT_RESEND (R382): the second and third copies. -/
def Chip.resend (c : Chip) : Chip :=
  match c.flt.seq with
  | none => c
  | some x =>
    if x.copies = 0 ∨ 3 ≤ x.copies ∨ c.locked then c
    else ({ c with flt := { c.flt with seq := some { x with copies := x.copies + 1 } } }).sendReport x.report

/-- FLT_READBACK (R384): two successive reads that find the pair at equal levels are a class A event on bit 2. -/
def Chip.readback (c : Chip) (n p : Bool) : Chip :=
  if n != p then { c with flt := { c.flt with equal := 0 } }
  else
    let c1 := { c with flt := { c.flt with equal := min 2 (c.flt.equal + 1) } }
    if c.flt.equal = 1 then c1.rise { bit := 2, cause := 0x26, die := 0, src := 0, cls := 1 } else c1

/-! ### Lockstep -/

/-- A lockstep unit's state. -/
def Chip.unit (c : Chip) (u : Nat) : Lock := tabGet {} c.flt.units u
/-- The chip with `f` applied to it. -/
def Chip.modUnit (c : Chip) (u : Nat) (f : Lock → Lock) : Chip := { c with flt := { c.flt with units := tabMod {} c.flt.units u f } }
/-- Whether a unit runs. -/
def Chip.unitRuns (c : Chip) (u : Nat) : Bool := !(c.unit u).halted && !(c.unit u).debug
/-- LS_UNIT[u] (R398). -/
def lsUnit (u : Nat) : Nat := fcBlk + 0x2C + 4 * u

/-- LOCKSTEP_MISMATCH (R389, R391): both copies halt and a class A event is raised. -/
def Chip.lsMismatch (c : Chip) (u : Nat) : Chip :=
  if !c.unitRuns u then c
  else (c.modUnit u (fun x => { x with halted := true })).rise
    { bit := if u = 0 then 0 else 8 * u + 5, cause := 0x11, die := u, src := if u = 0 then 0 else 14, cls := 1 }

/-- Code of a verdict (R391). -/
def lsCode : LsVerdict → Nat
  | .first => 1
  | .second => 2
  | .bothPassed => 3
  | .bothFailed => 4
  | .notComplete => 5

/-- LOCKSTEP_VERDICT (R391, R392, R398): kept for the next start with the copy that it names. -/
def Chip.lsVerdict (c : Chip) (u : Nat) (v : LsVerdict) : Chip :=
  if !(c.unit u).halted then c
  else
    let r := c.reg 0 (lsUnit u)
    let named := match v with | .first => 1 + bits r 1 0 | .second => 1 + bits r 3 2 | _ => 0
    let c0 := { c with nv := { c.nv with verdicts := tabSet 0 c.nv.verdicts u (lsCode v + 8 * named) } }
    let c1 := c0.setFld 0 (lsUnit u) 15 8 (lsCode v)
    match c.flt.seq with
    | some x => c1.shav 0 4 0x0030 3 x.bit x.cause
    | none => c1

/-- AGREEMENT_READ (R390): both copies get the AND; every bit that either saw is pending until a copy clears it, so one that only one saw comes with a later read, and the read is
counted. -/
def Chip.agreement (c : Chip) (u a b : Nat) : Chip :=
  if !c.unitRuns u then c
  else
    let c1 := c.modUnit u (fun x => { x with value := a &&& b, pending := a ||| b })
    if a = b then c1 else c1.setFld 0 (lsUnit u) 31 16 (min 0xFFFF (c.fld 0 (lsUnit u) 31 16 + 1))

/-- DEBUG_HALT (R389): both copies stop in the same cycle, with no mismatch; the debug port must be unlocked. -/
def Chip.debugHalt (c : Chip) (u : Nat) : Chip := if c.obs.unlocked then c.modUnit u (fun x => { x with debug := true }) else c

/-! ### The Safety Status Port -/

/-- summary of R386; turns run in ACTIVE, outside a lock (log 37). -/
def Chip.sspSummary (c : Chip) : Nat :=
  c.fsum % 64 + 64 * b2n c.flt.ssp.valid + 128 * b2n (c.running && !c.locked && c.pwrState == 0)

/-- The response frame, count `n` (R386). -/
def Chip.sspFrame (c : Chip) (n : Nat) : Bytes :=
  let b := toLE 8 c.fsw ++ toLE 1 c.sspSummary ++ toLE 1 n
    ++ toLE 2 (if c.flt.ssp.valid then c.fld 0 (fcBlk + 0x28) 31 16 else 0) ++ toLE 2 c.turn
  b ++ toLE 2 (crc16 b)

/-- SSP_CS_FALL (R385, R386, R398): the transaction counts and its frame is frozen. -/
def Chip.sspFall (c : Chip) : Chip :=
  let n := (c.flt.ssp.count + 1) % 256
  let c1 := c.setFld 0 (fcBlk + 0x24) 15 0 (min 0xFFFF (c.fld 0 (fcBlk + 0x24) 15 0 + 1))
  { c1 with flt := { c1.flt with ssp := { c1.flt.ssp with count := n, frame := c.sspFrame n } } }

/-- The watchdog response (R388): challenge, its sequence number, the low byte of the count of accepted challenges, and wd_salt. -/
def Chip.wdResponse (c : Chip) (ch sq n : Nat) : Nat := crc16 (toLE 2 ch ++ toLE 1 sq ++ toLE 1 n ++ toLE 4 (c.cfg1 0x0801 68 0))

/-- SSP_CHALLENGE (R387, R388): a transaction of 16 bytes ends with chip select rising. -/
def Chip.sspChallenge (c : Chip) (m : Bytes) : Chip :=
  if m.length ≠ 16 ∨ m.all (· == 0#8) then c
  else if crc16 (m.take 14) ≠ leAt m 14 2 ∨ (slice m 3 11).any (· != 0#8) then
    c.setFld 0 (fcBlk + 0x24) 23 16 (min 0xFF (c.fld 0 (fcBlk + 0x24) 23 16 + 1))
  else if c.cfg.isEmpty ∨ leAt m 2 1 + 1 = c.flt.ssp.last then c
  else
    let c1 := (c.setReg 0 (fcBlk + 0x28) (leAt m 0 2)).setFld 0 (fcBlk + 0x24) 31 24 (leAt m 2 1)
    { c1 with flt := { c1.flt with ssp := { c1.flt.ssp with
        accepted := c1.flt.ssp.accepted + 1, last := leAt m 2 1 + 1, due := some (c.nowNs + c.cfg1 0x0801 69 200 * 1000), valid := false } } }

/-- WD_RESPONSE_READY (R388): the Turner publishes the response, unless it is halted, stopped by a lock, or in the safe state. -/
def Chip.wdReady (c : Chip) : Chip :=
  match c.flt.ssp.due with
  | none => c
  | some t =>
    if c.locked || c.classA || !c.unitRuns 0 then c
    else
      let c1 := c.advanceTo t
      let c2 := c1.setFld 0 (fcBlk + 0x28) 31 16
        (c.wdResponse (c.fld 0 (fcBlk + 0x28) 15 0) (c.fld 0 (fcBlk + 0x24) 31 24) (c.flt.ssp.accepted % 256))
      { c2 with flt := { c2.flt with ssp := { c2.flt.ssp with due := none, valid := true } } }

/-- ERROR_LINE_LATCH. -/
def execErrorLineLatch (b : FswBit) (phase : Fin 4) (s : State) : Host.Outcome State Fault Refusal := .next { s with chip := s.chip.errorLatch b phase }
/-- FAULT_RECORD_WRITTEN. -/
def execFaultRecordWritten (s : State) : Host.Outcome State Fault Refusal := .next { s with chip := s.chip.recordWritten }
/-- REPORT_RESEND. -/
def execReportResend (s : State) : Host.Outcome State Fault Refusal := .next { s with chip := s.chip.resend }
/-- FC_ESCALATE. -/
def execFcEscalate (b : FswBit) (cause : BitVec 8) (who : Src) (s : State) : Host.Outcome State Fault Refusal :=
  .next { s with chip := s.chip.awake (·.fcEscalate b cause.toNat who) }
/-- FSW_CLEAR. -/
def execFswClear (mask : BitVec 64) (who : Src) (s : State) : Host.Outcome State Fault Refusal :=
  .next { s with chip := s.chip.awake (·.fswClear mask.toNat who) }
/-- FLT_READBACK. -/
def execFltReadback (n p : Bool) (s : State) : Host.Outcome State Fault Refusal := .next { s with chip := s.chip.readback n p }
/-- LOCKSTEP_MISMATCH. -/
def execLockstepMismatch (u : Unit8) (s : State) : Host.Outcome State Fault Refusal := .next { s with chip := s.chip.awake (·.lsMismatch u) }
/-- LOCKSTEP_VERDICT. -/
def execLockstepVerdict (u : Unit8) (v : LsVerdict) (s : State) : Host.Outcome State Fault Refusal :=
  .next { s with chip := s.chip.awake (·.lsVerdict u v) }
/-- AGREEMENT_READ. -/
def execAgreementRead (u : Unit8) (a b : BitVec 32) (s : State) : Host.Outcome State Fault Refusal :=
  .next { s with chip := s.chip.awake (·.agreement u a.toNat b.toNat) }
/-- DEBUG_HALT. -/
def execDebugHalt (u : Unit8) (s : State) : Host.Outcome State Fault Refusal := .next { s with chip := s.chip.awake (·.debugHalt u) }
/-- SSP_CS_FALL. -/
def execSspCsFall (s : State) : Host.Outcome State Fault Refusal := .next { s with chip := s.chip.sspFall }
/-- SSP_CHALLENGE. -/
def execSspChallenge (mosi : Bytes) (s : State) : Host.Outcome State Fault Refusal := .next { s with chip := s.chip.sspChallenge mosi }
/-- WD_RESPONSE_READY. -/
def execWdResponseReady (s : State) : Host.Outcome State Fault Refusal := .next { s with chip := s.chip.wdReady }

end Sys2Proof.Machine
end

