-- ==== Sys2Proof/Machine/Ether.lean ====
section
/-! DEFINITION. Machine/Ether.lean: Ethernet ports: received frames, lidar windows, forwarding (R286, R294–R298), transmit queues and launch (R290–R293), MACsec
rekeying and link events (R288, R289). -/
namespace Sys2Proof.Machine

/-- EP_ERR_DETAIL and EP_ERR_TURN latched (R317). -/
def Chip.epLatch (c : Chip) (n lid reason find part : Nat) : Chip :=
  c.latchIf 0 (epBlk n + 4) [(epBlk n + 8, lid + reason <<< 3 + find <<< 7 + part <<< 10), (epBlk n + 0xC, c.turn32)]

/-! ### Frames received -/

/-- What follows the addresses and an 802.1Q tag: the VLAN ID (none when untagged), the EtherType and the rest. -/
def etherParse (b : Bytes) : Option Nat × Nat × Bytes :=
  if fromBE (slice b 12 2) = 0x8100 then (some (fromBE (slice b 14 2) % 4096), fromBE (slice b 16 2), b.drop 18)
  else (none, fromBE (slice b 12 2), b.drop 14)

/-- Ones'-complement sum of 16-bit words (RFC 791, RFC 768). -/
def inetSum (b : Bytes) : Nat :=
  let s := (chunks 2 b).foldl (fun n w => n + fromBE (padTo 2 w)) 0
  let t := s % 65536 + s / 65536
  t % 65536 + t / 65536

/-- A UDP datagram: addresses, ports and payload, and whether a checksum that it carries verifies (R285). -/
structure Udp where
  srcIp : Nat
  dstIp : Nat
  srcUdp : Nat
  dstUdp : Nat
  body : Bytes
  sumOk : Bool
  deriving DecidableEq, Repr

/-- The UDP datagram of an IPv4 packet; none for another protocol, a fragment or a bad header (R285). -/
def ipParse (b : Bytes) : Option Udp :=
  let hl := (leAt b 0 1 % 16) * 4
  let len := fromBE (slice b 2 2)
  if leAt b 0 1 / 16 ≠ 4 ∨ hl < 20 ∨ b.length < len ∨ len < hl + 8 ∨ fromBE (slice b 6 2) % 0x4000 ≠ 0 ∨ leAt b 9 1 ≠ 17
      ∨ inetSum (b.take hl) ≠ 0xFFFF then none
  else
    let u := slice b hl (len - hl)
    let n := fromBE (slice u 4 2)
    if n < 8 ∨ u.length < n then none
    else
      let pseudo := slice b 12 8 ++ [0#8, 17#8] ++ toBE 2 n
      some ⟨fromBE (slice b 12 4), fromBE (slice b 16 4), fromBE (slice u 0 2), fromBE (slice u 2 2), slice u 8 (n - 8),
        fromBE (slice u 6 2) == 0 || inetSum (pseudo ++ u.take n) == 0xFFFF⟩

/-- The lidar of port `n` that a datagram belongs to (R294). -/
def Chip.lidarOf (c : Chip) (n : Nat) (u : Udp) : Option Nat :=
  ((c.cfgAll 0x0502).find? (fun v => v.getD 1 0 == n && v.getD 2 0 == u.srcIp && v.getD 3 0 == u.dstUdp)).map (·.headD 0)

/-- Whether a datagram is traffic of its port's role: mailbox traffic of a HOST or MGMT port, a lidar's of a RANGE port (R283, R446). -/
def Chip.roleTakes (c : Chip) (n : Nat) (u : Udp) : Bool :=
  match c.role n with
  | 1 => u.dstIp == c.eport n 4 0 && (c.cfgAll 0x0203).any (fun v => v.getD 1 0 == n && v.getD 4 0 == u.dstUdp)
  | 2 => u.dstIp == c.eport n 4 0 && (u.dstUdp == 19290 || u.dstUdp == 19289)
  | 3 => (c.lidarOf n u).isSome
  | 4 => true
  | _ => false

/-- Receive correction of a port in 2^−16 ns and its error in ns, rounded up (R307, R308). -/
def Chip.rxCorr (c : Chip) (n : Nat) : Nat × Nat :=
  if n < 8 then ((if c.eport n 6 0 = 0 then 512 else 520) * 65536, 6)
  else ((if c.eport n 7 0 = 0 then 3355443 else 13421773) + c.eport n 21 0 * 65536, 4 + c.eport n 22 0)

/-- Transmit correction of a port with the MACsec latency where it applies, ns, rounded down (R289, R291, R307). -/
def Chip.txCorr (c : Chip) (n : Nat) : Nat :=
  (if n < 8 then 296 else 38 + c.eport n 20 0) + (if c.eport n 8 0 = 1 then 64 else 0)

/-! ### Lidars -/

/-- Start of turn `u`, ns: as recorded, else one period per turn before the current one (R320). -/
def Chip.startOf (c : Chip) (u : Nat) : Nat :=
  if u = c.turn then c.turnStart
  else match tabGet 0 c.wrk.starts u with
    | 0 => c.turnStart - (c.turn - u) * c.periodNs
    | t => t - 1

/-- The sync turn in whose window an instant (ns) lies: the current sync turn's or the one before (R294). -/
def Chip.windowOf (c : Chip) (s ns : Nat) : Option Nat :=
  match c.ringCfg s, c.lidar (s - 48) with
  | some g, some v =>
    let back := (c.turn + g.div - g.phase % g.div) % g.div
    let cands := [c.turn - back, c.turn - back - g.div]
    let hit := fun u => g.sync u && decide (back ≤ c.turn) &&
      decide (c.startOf u + v.getD 4 0 * 1000 ≤ ns ∧ ns < c.startOf u + v.getD 4 0 * 1000 + c.periodNs * g.div)
    cands.find? hit
  | _, _ => none

/-- The body of a lidar entry: each packet's record and its payload padded to 16 bytes (R295). -/
def lidarBody (i : Img) : Bytes := (i.lines.zip i.emb).flatMap (fun p => p.1 ++ padTo (roundUp p.2.length 16) p.2)

/-- A packet's record (R295). -/
def packetRec (ts len : Nat) (stretch : Bool) : Bytes :=
  toLE 8 (ts / 65536) ++ toLE 2 (ts % 65536) ++ toLE 2 len ++ toLE 1 (b2n stretch) ++ toLE 3 0

/-- A lidar's frame dropped; no further frame begins in its window (R264, R296). -/
def Chip.lidarDrop (c : Chip) (s win reason : Nat) : Chip :=
  let c1 := c.dropSi s reason
  c1.setRing s { c1.ring s with gone := win + 1 }

/-- Staging of a port for its lidars (R296). -/
def lidarStage (n : Nat) : Nat := if n < 8 then 262144 else 1048576

/-- The SI takes what a lidar's frame has in staging and writes it into the entry, as part of the frame's one contribution (R263, R296). -/
def Chip.takeLidar (c : Chip) (g : RingCfg) (s : Nat) (i : Img) : Chip × Img :=
  let part := c.ringPart s
  let old := (lidarBody { i with lines := i.lines.take i.took }).length
  let o := if i.opened then (i.num, c) else c.openContrib 0 g.die part 255
  let b := (lidarBody i).drop old
  (if b.isEmpty then o.2 else o.2.ingestBytes g s i.ent (64 + old) o.1 part b true, { i with took := i.lines.length, opened := true, num := o.1 })

/-- Bytes that a port's lidar frames hold in staging (R296). -/
def Chip.lidarStaged (c : Chip) (n : Nat) : Nat :=
  sumOver (c.ringList.filter (fun s => decide (48 ≤ s) && ((c.ringCfg s).map (·.port)) == some n)) (fun s =>
    sumOver (c.ring s).img.toList (fun i => (lidarBody i).length - (lidarBody { i with lines := i.lines.take i.took }).length))

/-- LIDAR_WINDOW_END (R295, R296): what is left of the window's frame is written into its entry, the header last, the frame's one contribution closes, and the entry is VERIFYING. -/
def Chip.lidarEnd (c : Chip) (l : Nat) : Chip :=
  let s := 48 + l
  match (c.ring s).img, c.ringCfg s, c.lidar l with
  | some i, some g, some v =>
    let c0 := c.advanceTo (c.startOf i.frameNo + v.getD 4 0 * 1000 + c.periodNs * g.div)
    let part := c.ringPart s
    let x := c0.takeLidar g s i
    let r := c0.ring s
    let flags := b2n i.stretch + 8 * b2n (r.lossy.contains i.frameNo)
    let h := entryHdr 2 0 l (i.tag % 2 ^ 32) i.ts i.bound flags (min 0xFFFF i.emb.length) (sumOver i.emb (·.length)) (r.ready + 1) g.offs
    let c2 := x.1.ingestBytes g s i.ent 0 x.2.num part h false
    let c3 := c2.setRing s { (c2.ring s).setEnt i.ent ⟨.verifying, i.tag⟩ with img := none, lossy := r.lossy.filter (fun w => decide (i.frameNo < w)) }
    c3.sendTrailer 0 g.die part x.2.num
  | _, _, _ => c

/-- A packet joins the frame of window `w` (R294–R296): the first begins it. The SI moves what is staged while the link toward the ring's die takes it; a packet that finds staging full drops
the frame. -/
def Chip.lidarJoin (c : Chip) (n l w ts bound : Nat) (stretch : Bool) (body : Bytes) : Chip :=
  let s := 48 + l
  let c1 := if (c.ring s).img.isSome then c
    else
      let x := c.beginImage s (fun e t => { ent := e, tag := t, ts := ts, bound := bound, stretch := stretch, frameNo := w }) (c.tagOf ts)
      if (x.ring s).img.isSome then x else x.setRing s { x.ring s with gone := w + 1 }
  match (c1.ring s).img, c1.ringCfg s with
  | some i, some g =>
    let j := { i with lines := i.lines ++ [packetRec ts body.length stretch], emb := i.emb ++ [body] }
    let c2 := c1.addReg 0 (epBlk n + 0x14) 1
    if ((c.lidar l).getD []).getD 7 0 * 1024 < (lidarBody j).length then c2.lidarDrop s w 9
    else if lidarStage n < c1.lidarStaged n + 16 + roundUp body.length 16 then c2.lidarDrop s w 6
    else if c2.linkFull 0 g.die then c2.setRing s { c2.ring s with img := some j }
    else (let x := c2.takeLidar g s j; x.1.setRing s { x.1.ring s with img := some x.2 })
  | _, _ => c1.addReg 0 (epBlk n + 0x18) 1

/-- A lidar's packet (R294): one outside every window, of a window already past or of one whose frame was dropped is discarded; the first of a new window completes the frame before. -/
def Chip.lidarPacket (c : Chip) (n l ts bound : Nat) (stretch : Bool) (body : Bytes) : Chip :=
  let s := 48 + l
  let drop := c.addReg 0 (epBlk n + 0x18) 1
  if !c.running then drop
  else
    match c.windowOf s (ts / 65536) with
    | none => drop
    | some w =>
      let old := ((c.ring s).img.map (·.frameNo)).getD w
      if (c.ring s).gone = w + 1 ∨ w < old then drop
      else (if old < w then c.lidarEnd l else c).lidarJoin n l w ts bound stretch body

/-- A packet of a lidar that the port discards, noted in its window (R295). -/
def Chip.lidarLoss (c : Chip) (n : Nat) (u : Option Udp) (ts : Nat) : Chip :=
  match (if c.role n = 3 then u.bind (c.lidarOf n) else none) with
  | none => c
  | some l =>
    match c.windowOf (48 + l) (ts / 65536) with
    | none => c
    | some w => let r := c.ring (48 + l); c.setRing (48 + l) { r with lossy := if r.lossy.contains w then r.lossy else r.lossy ++ [w] }

/-- Copies of an accepted frame for the ports that forward it; TQ3 of a port holds 256 KiB, and a port sends no frame above its largest (R285, R298; log 158). -/
def Chip.forward (c : Chip) (n : Nat) (b : Bytes) : Chip :=
  eachDo ((List.range 10).filter (fun p => c.role p == 4 && c.eport p 18 0 == n)) (fun p c =>
    let held := sumOver (c.ep p).tq3 (·.len)
    if 262144 < held + (b.length + 4) ∨ maxFrame p < b.length + 4 then c.addReg 0 (epBlk p + 0x2C) 1
    else c.queueFrame p 3 { kind := 2, body := b, len := b.length + 4 }) c

/-! ### 802.1AS and MKA messages -/

/-- Field `i` of the TIME record (R315). -/
def Chip.timeRec (c : Chip) (i d : Nat) : Nat := c.cfg1 0x0601 i d

/-- Bytes that a port's 802.1Q tag adds to each frame that it sends (R285). -/
def Chip.tagLen (c : Chip) (n : Nat) : Nat := if c.eport n 5 0 = 0 then 0 else 4

/-- An 802.1AS message into TQ0: its type, the domain, a sequence number and what it carries, as far as the spec states it (R302; log 42). -/
def Chip.ptpSend (c : Chip) (n ty len : Nat) (data : Bytes) : Chip :=
  let body := toBE 2 0x88F7 ++ toLE 1 ty ++ toLE 1 (c.timeRec 1 0) ++ toBE 2 (c.ep n).ptpSeq ++ data
  (c.modEp n (fun x => { x with ptpSeq := (x.ptpSeq + 1) % 65536 })).queueFrame n 0 { kind := 1, body := body, len := len + c.tagLen n }

/-- What a received 802.1AS message does beside its own command's effect (R302; log 42): a Pdelay_Req is answered, and an Announce on the slave port names the upstream grandmaster. -/
def Chip.ptpReceive (c : Chip) (n : Nat) (b : Bytes) : Chip :=
  let ty := leAt b 0 1 % 16
  if leAt b 4 1 ≠ c.timeRec 1 0 then c
  else if ty = 2 ∧ !c.net.silent then (c.ptpSend n 3 72 []).ptpSend n 10 72 []
  else if ty = 11 ∧ c.eport n 12 0 = 2 ∧ 61 ≤ b.length then { c with net := { c.net with gm := slice b 47 14 } }
  else c

/-- MKA runs with the pre-shared CAK of the port's KEYS slot (R289): a message of it on the uncontrolled port (log 56). -/
def Chip.mkaSend (c : Chip) (n : Nat) : Chip :=
  if c.eport n 8 0 ≠ 1 then c
  else c.queueFrame n 2 { kind := 3, body := toBE 2 0x888E ++ toLE 1 (c.eport n 10 0), len := 64 + c.tagLen n }

/-- A peer's MKA message that verifies under the CAK: a fresh SAK, and the secure association is live (R289; log 56). -/
def Chip.mkaReceive (c : Chip) (n : Nat) : Chip :=
  if (c.cfgRec 0x0B01 (c.eport n 10 0)).isNone || bit (c.reg 0 (epBlk n)) 7 then c
  else (c.setFld 0 (epBlk n) 7 7 1).modEp n (fun x => { x with pn := 0, rxPn := 0 })

/-- Whether a received packet number falls before the replay window (R289). -/
def Chip.replayed (c : Chip) (n pn : Nat) : Bool := decide (pn + c.eport n 11 0 < (c.ep n).rxPn)

/-- What an accepted frame does by its EtherType and role; a frame that is none of the port's traffic is discarded (R283, R286). -/
def Chip.ethTake (c : Chip) (n : Nat) (f : EthFrame) (cap : Capture) : Chip :=
  let p := etherParse f.bytes
  let drop := c.addReg 0 (epBlk n + 0x18) 1
  let take := ((c.hsPut 5 0 (24 + n) 0 f.bytes).addReg 0 (epBlk n + 0x14) 1).forward n f.bytes
  let k := c.rxCorr n
  let ts := c.capture cap - k.1
  if p.2.1 = 0x88F7 then (if c.eport n 12 0 = 0 then drop else take.ptpReceive n p.2.2)
  else if p.2.1 = 0x888E then (if c.eport n 8 0 ≠ 1 then drop else if f.macsecOk then take.mkaReceive n else take)
  else if p.2.1 = 0x8808 then drop
  else if p.2.1 ≠ 0x0800 then (if c.role n = 4 then take else drop)
  else
    match ipParse p.2.2 with
    | none => if c.role n = 4 ∧ fromBE (slice p.2.2 6 2) % 0x4000 = 0 then take else drop
    | some u =>
      if !c.roleTakes n u then drop
      else if !u.sumOk then drop.lidarLoss n (some u) ts
      else if c.role n = 3 then
        match c.lidarOf n u with
        | some l => ((c.hsPut 5 0 (24 + n) 0 f.bytes).lidarPacket n l ts (2 + k.2 + capWiden cap) (cap.ext != 0) u.body).forward n f.bytes
        | none => drop
      else take

/-- ETH_FRAME_RECEIVE (R285, R286, R289, R294, R298): a frame is discarded and counted, or accepted, forwarded, and kept where a lidar's window takes it. What a mailbox datagram
asks for is its own command's effect (log 39). -/
def Chip.ethReceive (c : Chip) (n : Nat) (f : EthFrame) (cap : Capture) : Chip :=
  if c.role n = 0 || !c.linkUp n then c
  else
    let p := etherParse f.bytes
    let drop := c.addReg 0 (epBlk n + 0x18) 1
    let secure := c.eport n 8 0 == 1 && !decide (p.2.1 = 0x888E ∨ p.2.1 = 0x88F7)
    let badTag := match p.1 with
      | some v => decide (v ≠ c.eport n 5 0)
      | none => false
    if !f.fcsOk then drop
    else if decide (maxFrame n < f.bytes.length + 4) || badTag then drop.lidarLoss n (if p.2.1 = 0x0800 then ipParse p.2.2 else none) (c.capture cap - (c.rxCorr n).1)
    else if secure && !bit (c.reg 0 (epBlk n)) 7 then drop
    else if secure && (!f.macsecOk || c.replayed n f.pn) then c.addReg 0 (epBlk n + 0x28) 1
    else (if secure then c.modEp n (fun x => { x with rxPn := max x.rxPn (f.pn + 1) }) else c).ethTake n f cap

/-! ### Transmission -/

/-- Time on the wire of a frame with preamble and gap, ns (R290, R292). -/
def wireNs (n len : Nat) : Nat := if n < 8 then 8 * (20 + len) else cdiv (8 * (20 + len)) 10

/-- Whether a silenced device still sends a frame: a fault report on a MGMT port (R382). -/
def Chip.maySend (c : Chip) (n : Nat) (f : Frame) : Bool :=
  (!c.net.silent || (c.role n == 2 && f.kind == 0 && leAt f.body 6 2 == 0x0013))
    && (c.eport n 8 0 != 1 || f.kind == 1 || f.kind == 3 || bit (c.reg 0 (epBlk n)) 7)

/-- Whether a frame ends before the launch time of the TQ1 head (R292). -/
def Chip.guardOk (c : Chip) (n : Nat) (f : Frame) : Bool :=
  match (c.ep n).tq1.head? with
  | none => true
  | some h => decide (c.nowNs + wireNs n f.len ≤ h.due)

/-- A frame starts on the wire; the packet number of a secure association rises (R289, R290). -/
def Chip.startFrame (c : Chip) (n : Nat) (f : Frame) : Chip :=
  let pn := if c.eport n 8 0 = 1 ∧ f.kind ≠ 1 ∧ f.kind ≠ 3 then 1 else 0
  ((c.hsPut 5 0 (24 + n) 1 f.body).modEp n (fun x => { x with wire := some f, busyNs := c.nowNs + wireNs n f.len, badFcs := false, pn := x.pn + pn })).addReg 0 (epBlk n + 0x1C) 1

/-- How far from its launch time a frame may start on time, ns (R291). -/
def launchTol (n : Nat) : Nat := if n < 8 then 16 else 4

/-- The TQ1 head, due or overdue (R290, R291, R293): a frame that follows one launched no earlier leaves right after it, one that became the head too late is discarded, and one that leaves
late is counted (log 38). -/
def Chip.launchHead (c : Chip) (n : Nat) (f : Frame) : Chip :=
  let follows := ((c.ep n).wire.map (fun w => decide (w.part ≠ 0 ∧ f.due ≤ w.due))).getD false
  let c1 := c.modEp n (fun x => { x with tq1 := x.tq1.drop 1, headNs := c.nowNs })
  if follows || decide (c.nowNs + c.txCorr n ≤ f.due + launchTol n) then c1.startFrame n f
  else if f.due + c.eport n 19 0 * 1000 < (c.ep n).headNs then
    (((c1.addReg 0 (epBlk n + 0x20) 1).epLatch n 0 0 0 (f.part - 1))).raise 0 (epBlk n + 4) 2 0x1D
  else (c1.addReg 0 (epBlk n + 0x24) 1).startFrame n f

/-- The wire is free: time runs on to the end of the frame in progress. -/
def Chip.wireFree (c : Chip) (n : Nat) : Chip := if (c.ep n).wire.isSome then c.advanceTo (c.ep n).busyNs else c

/-- TQ_FRAME_START (R290, R292): the head of the highest-priority queue that is eligible and passes the guard band starts. -/
def Chip.tqStart (c : Chip) (n : Nat) : Chip :=
  if !c.linkUp n then c
  else
    let c1 := c.wireFree n
    let x := c1.ep n
    let due := x.tq1.head?.filter (fun f => c1.maySend n f && decide (f.due ≤ c1.nowNs + c1.txCorr n))
    let pick := fun (l : List Frame) => (l.head?.filter (fun f => c1.maySend n f && c1.guardOk n f))
    match due, pick x.tq0, pick x.tq2, pick x.tq3 with
    | some f, _, _, _ => c1.launchHead n f
    | _, some f, _, _ => (c1.modEp n (fun x => { x with tq0 := x.tq0.drop 1 })).startFrame n f
    | _, _, some f, _ => (c1.modEp n (fun x => { x with tq2 := x.tq2.drop 1 })).startFrame n f
    | _, _, _, some f => (c1.modEp n (fun x => { x with tq3 := x.tq3.drop 1 })).startFrame n f
    | _, _, _, _ => c

/-- TQ1_LAUNCH (R291, R293): the TQ1 head at its launch time less the transmit correction, or when the wire is free. -/
def Chip.tq1Launch (c : Chip) (n : Nat) : Chip :=
  match (c.ep n).tq1.head? with
  | none => c
  | some f =>
    if !c.linkUp n || !c.maySend n f then c
    else
      let c1 := (c.advanceTo (f.due - c.txCorr n)).wireFree n
      c1.launchHead n f

/-! ### Port events -/

/-- MACSEC_REKEY (R289): the packet number has reached the limit of its suite; MKA distributes a new SAK, which counts from 0 in both directions. -/
def Chip.rekey (c : Chip) (n : Nat) : Chip :=
  let limit := if c.eport n 9 1 < 2 then 0xC0000000 else 2 ^ 62
  if c.eport n 8 0 = 1 ∧ limit ≤ (c.ep n).pn then (c.modEp n (fun x => { x with pn := 0, rxPn := 0 })).mkaSend n else c

/-- SQI_READ (R288): the value is stored; the sqi_turns-th low reading in a row sets EP_ERR_STATUS[0]. -/
def Chip.sqiRead (c : Chip) (n v : Nat) : Chip :=
  if c.role n = 0 ∨ 8 ≤ n then c
  else
    let run := if v < c.eport n 15 3 then (c.ep n).sqiRun + 1 else 0
    let c1 := (c.setFld 0 (epBlk n) 6 4 v).modEp n (fun x => { x with sqiRun := run })
    if run ≠ 0 ∧ c.eport n 16 50 ≤ run then (c1.epLatch n 0 0 0 0).raise 0 (epBlk n + 4) 0 0x1D else c1

/-- Rings of the lidars on port `n`. -/
def Chip.lidarsOf (c : Chip) (n : Nat) : List Nat := ((c.cfgAll 0x0502).filter (fun v => v.getD 1 0 == n)).map (fun v => v.headD 0 + 48)

/-- LINK_DROP (R288, R289): EP_ERR_STATUS[1], the secure association is gone, and a lidar frame in progress is TRUNC. -/
def Chip.linkDrop (c : Chip) (n : Nat) : Chip :=
  if !c.linkUp n then c
  else
    let c1 := eachDo (c.lidarsOf n) (fun s c => match (c.ring s).img with
      | some i => c.lidarDrop s i.frameNo 4
      | none => c) c
    (((c1.setFld 0 (epBlk n) 3 3 0).setFld 0 (epBlk n) 7 7 0).epLatch n 0 0 0 0).raise 0 (epBlk n + 4) 1 0x1D

/-- A port's link up; where it runs MACsec, MKA begins to agree on a secure association (R288, R289; log 56). -/
def Chip.portUp (c : Chip) (n : Nat) : Chip := ((c.setFld 0 (epBlk n) 3 3 1).setFld 0 (epBlk n) 7 7 0).mkaSend n

/-- LINK_UP (R288): retraining has completed. -/
def Chip.linkIsUp (c : Chip) (n : Nat) : Chip := if c.role n = 0 || bit (c.reg 0 (epBlk n)) 8 then c else c.portUp n

/-- A port's effect: none under a spindle lock; in PARK only MGMT ports are on (R491, R502). -/
def Chip.onPort (c : Chip) (n : Nat) (f : Chip → Chip) : Chip := if c.locked || (c.pwrState == 2 && c.role n != 2) then c else f c

/-- ETH_FRAME_RECEIVE. -/
def execEthFrameReceive (ep : EPort) (f : EthFrame) (cap : Capture) (s : State) : Host.Outcome State Fault Refusal :=
  .next { s with chip := s.chip.onPort ep (·.ethReceive ep f cap) }
/-- LIDAR_WINDOW_END. -/
def execLidarWindowEnd (l : Lidar) (s : State) : Host.Outcome State Fault Refusal := .next { s with chip := s.chip.work (·.lidarEnd l) }
/-- TQ_FRAME_START. -/
def execTqFrameStart (ep : EPort) (s : State) : Host.Outcome State Fault Refusal := .next { s with chip := s.chip.onPort ep (·.tqStart ep) }
/-- TQ1_LAUNCH. -/
def execTq1Launch (ep : EPort) (s : State) : Host.Outcome State Fault Refusal := .next { s with chip := s.chip.onPort ep (·.tq1Launch ep) }
/-- MACSEC_REKEY. -/
def execMacsecRekey (ep : EPort) (s : State) : Host.Outcome State Fault Refusal := .next { s with chip := s.chip.onPort ep (·.rekey ep) }
/-- SQI_READ. -/
def execSqiRead (ep : EPort) (v : Fin 8) (s : State) : Host.Outcome State Fault Refusal := .next { s with chip := s.chip.onPort ep (·.sqiRead ep v) }
/-- LINK_DROP. -/
def execLinkDrop (ep : EPort) (s : State) : Host.Outcome State Fault Refusal := .next { s with chip := s.chip.onPort ep (·.linkDrop ep) }
/-- LINK_UP. -/
def execLinkUp (ep : EPort) (s : State) : Host.Outcome State Fault Refusal := .next { s with chip := s.chip.onPort ep (·.linkIsUp ep) }

end Sys2Proof.Machine
end

