-- ==== Sys2Proof/Machine/Clock.lean ====
section
/-! DEFINITION. Machine/Clock.lean: the time base under 802.1AS (R299–R306) and the timing pins (R311, R312). -/
namespace Sys2Proof.Machine

/-- TB_STATE[1:0] (R304): 0 FREE, 1 ACQUIRE, 2 LOCKED, 3 HOLDOVER. -/
def Chip.tbState (c : Chip) : Nat := c.fld 0 (timeBlk + 0x10) 1 0
/-- The chip in that time state. -/
def Chip.setTb (c : Chip) (v : Nat) : Chip := c.setFld 0 (timeBlk + 0x10) 1 0 v

/-- A signed quantity as a saturating 32-bit register holds it. -/
def satReg (x : Int) : Nat := wrap 32 (clampInt (-2147483648) 2147483647 x)

/-- A new segment from the current tick on (R301). -/
def Chip.newSegment (c : Chip) (t0 : Nat) (adj : Int) : Chip :=
  { c with tb := { c.tb with k0 := c.tb.tick, t0 := t0, adj := adj },
           net := { c.net with oldK0 := c.tb.k0, oldT0 := c.tb.t0, oldAdj := c.tb.adj } }

/-! ### TS_OUT edges -/

/-- Field `i` of a TSOUT record (R316): 1 mode, 2 start, 3 period, 4 width, 5 polarity. -/
def Chip.tsRec (c : Chip) (n i : Nat) : Nat := c.cfgBy 0x0602 n i 0

/-- Instant of edge `e` of a pin: the start of pulse e / 2, or its end (R312). -/
def Chip.edgeNs (c : Chip) (n e : Nat) : Nat := c.tsRec n 2 + e / 2 * c.tsRec n 3 + e % 2 * c.tsRec n 4

/-- The first scheduled edge of a pin after the instant `ns`. -/
def Chip.edgeAfter (c : Chip) (n ns : Nat) : Nat :=
  let st := c.tsRec n 2
  if ns < st then 0
  else
    let k := (ns - st) / max 1 (c.tsRec n 3)
    if ns < c.edgeNs n (2 * k + 1) then 2 * k + 1 else 2 * k + 2

/-- A pin after a time step: skipped edges are counted, none is replayed (R312). -/
def Chip.tsOutStep (c : Chip) (n : Nat) : Chip :=
  if c.tsRec n 1 = 0 then c
  else
    let old := tabGet 0 c.net.tsOut n
    let new := c.edgeAfter n c.nowNs
    let c1 := { c with net := { c.net with tsOut := tabSet 0 c.net.tsOut n new } }
    c1.setFld 0 (timeBlk + 0x58) (2 * n + 1) (2 * n) (min 3 (c.fld 0 (timeBlk + 0x58) (2 * n + 1) (2 * n) + (new - old)))

/-- One step of the time base by `d` ns, in the current tick; the instant of the last Sync moves with it (R304, R306, R312). -/
def Chip.stepTime (c : Chip) (d : Int) : Chip :=
  let c1 := c.newSegment ((c.nowF : Int) + d * 4294967296).toNat c.tb.adj
  let c2 := (c1.setReg 0 (timeBlk + 0x20) (satReg d)).raise 0 (timeBlk + 0x1C) 2 0
  let c3 := { c2 with net := { c2.net with syncNs := ((c2.net.syncNs : Int) + d).toNat } }
  eachDo (List.range 4) (fun n c => c.tsOutStep n) (c3.setFld 0 (timeBlk + 0x10) 2 2 1)

/-! ### 802.1AS -/

/-- Limit of |adj| (R303): max_ppm × 17,179.87 rounded down, from the exact 2^34 / 10^6 that gives R303's 3,435,973 at 200 ppm (log 159). -/
def Chip.adjLimit (c : Chip) : Int := (c.timeRec 2 50 * 17179869184 / 1000000 : Nat)
/-- Largest change of adj per millisecond: slew_rate × 17.18, rounded down (R303). -/
def Chip.adjSlope (c : Chip) : Int := (c.timeRec 3 10 * 1718 / 100 : Nat)

/-- PTP_SYNC_RECEIVE (R303–R305): the offset of the time base from the grandmaster, and the adj that the Turner's steering asks for, which the spec does not state
(log 40). The first offset of all is removed by one step, at once before turns start and else at the boundary; later ones by slew. -/
def Chip.syncReceive (c : Chip) (n : Nat) (off want : Int) : Chip :=
  if c.timeRec 0 0 ≠ 1 || c.eport n 12 0 != 2 || !c.linkUp n || !(c.ep n).asCapable then c
  else
    let c1 := c.setReg 0 (timeBlk + 0x14) (satReg off)
    let c2 := { c1 with net := { c1.net with syncNs := c1.nowNs, want := clampInt (-c.adjLimit) c.adjLimit want } }
    match c.tbState with
    | 0 | 1 =>
      if c.turnState = 0 then (c2.stepTime (-off)).setTb 2
      else ({ c2 with net := { c2.net with lockStep := some (-off) } }).setTb 1
    | _ => c2.setTb 2

/-- ADJ_SLEW (R301, R303, R305): a millisecond after its last change adj moves towards its target, within the slope and the limit, but in HOLDOVER; a new segment begins. -/
def Chip.adjSlew (c : Chip) : Chip :=
  if c.timeRec 0 0 ≠ 1 || c.tbState == 3 then c
  else
    let c1 := { c with tb := { c.tb with tick := max c.tb.tick (c.net.adjTick + 250000) } }
    let adj := clampInt (-c.adjLimit) c.adjLimit (c.tb.adj + clampInt (-c.adjSlope) c.adjSlope (c.net.want - c.tb.adj))
    let c2 := c1.newSegment c1.nowF adj
    { c2.setReg 0 (timeBlk + 0x0C) (wrap 32 adj) with net := { c2.net with adjTick := c1.tb.tick } }

/-- Sync interval of the TIME record, ns: 2^log_sync seconds (R302, R315; log 41). -/
def Chip.syncInterval (c : Chip) : Nat := 1000000000 / 2 ^ (((256 - c.timeRec 4 253) % 256) % 8)

/-- HOLDOVER entered (R304, R305). -/
def Chip.holdover (c : Chip) : Chip := (c.setTb 3).raise 0 (timeBlk + 0x1C) 0 0x1E

/-- SYNC_TIMEOUT (R304, R305): three Sync intervals without a valid Sync. -/
def Chip.syncTimeout (c : Chip) : Chip :=
  if c.tbState ≠ 2 || c.timeRec 0 0 ≠ 1 then c
  else (c.advanceTo (c.net.syncNs + 3 * c.syncInterval)).holdover

/-- Whether a port runs 802.1AS and may send. -/
def Chip.ptpOn (c : Chip) (n : Nat) : Bool := c.eport n 12 0 != 0 && c.linkUp n && !c.net.silent

/-- PTP_SYNC_SEND (R302): a Sync and the Follow_Up that carries the device's time base. -/
def Chip.syncSend (c : Chip) (n : Nat) : Chip :=
  if c.eport n 12 0 ≠ 1 || !c.ptpOn n then c
  else (c.ptpSend n 0 64 []).ptpSend n 8 94 (toBE 8 c.nowNs ++ toBE 2 c.nowFrac ++ toBE 4 0)

/-- PDELAY_EXCHANGE (R302): the request leaves and the link's mean delay is measured; above the threshold the link is not asCapable. -/
def Chip.pdelay (c : Chip) (n mpd : Nat) : Chip :=
  if !c.ptpOn n then c
  else
    let c1 := (c.ptpSend n 2 72 []).modEp n (fun x => { x with mpd := mpd, asCapable := decide (mpd ≤ c.timeRec 5 800) })
    if c.eport n 12 0 = 2 then c1.setReg 0 (timeBlk + 0x18) mpd else c1

/-- The device's own 802.1AS identity (R302; log 42): its lowest-numbered port's MAC address as an EUI-64. -/
def Chip.clockId (c : Chip) : Bytes :=
  let m := c.eport (((List.range 10).find? (fun n => c.eport n 12 0 != 0)).getD 0) 3 0
  toBE 3 (m / 2 ^ 24) ++ toBE 2 0xFFFE ++ toBE 3 (m % 2 ^ 24)

/-- ANNOUNCE_SEND (R302): the upstream grandmaster while locked, else the device's own priorities, class and identity. -/
def Chip.announce (c : Chip) (n : Nat) : Chip :=
  if c.eport n 12 0 ≠ 1 || !c.ptpOn n then c
  else if c.tbState = 2 then c.ptpSend n 11 94 c.net.gm
  else c.ptpSend n 11 94 (toLE 1 (c.timeRec 7 248) ++ toLE 1 (c.timeRec 9 248) ++ toBE 3 0 ++ toLE 1 (c.timeRec 8 248) ++ c.clockId)

/-! ### Pins -/

/-- TSIN_OVF counts one more lost edge of a pin (R311, R318). -/
def Chip.tsLost (c : Chip) (n : Nat) : Chip :=
  c.setFld 0 (timeBlk + 0x54) (2 * n + 1) (2 * n) (min 3 (c.fld 0 (timeBlk + 0x54) (2 * n + 1) (2 * n) + 1))

/-- TS_IN_EDGE (R311, R532): an edge that tsin_edge selects goes into the pin's FIFO of 8, with the input delay of 2.4 ns taken off. -/
def Chip.tsIn (c : Chip) (n : Nat) (rising : Bool) (ph pulse : Nat) : Chip :=
  let sel := c.timeRec (10 + n) 0
  if !bit sel (if rising then 0 else 1) || decide (pulse < 10) then c
  else
    let t := c.tb.at c.tb.tick ph / 65536 - 157286
    let last := tabGet 0 c.net.lastIn n
    let fifo := tabGet [] c.net.tsIn n
    if last ≠ 0 ∧ t + 1 < last + 200 * 65536 then c.tsLost n
    else if 8 ≤ fifo.length then c.tsLost n
    else { c with net := { c.net with tsIn := tabSet [] c.net.tsIn n (fifo ++ [⟨t, rising⟩]), lastIn := tabSet 0 c.net.lastIn n (t + 1) } }

/-- A requester's number: 0 firmware, 1 the Turner pair, 2 the debug port, 3–6 management sessions, 7 on anyone else. -/
def srcNum : Src → Nat
  | .firmware => 0
  | .turner => 1
  | .debug => 2
  | .mgmt s => 3 + s
  | .other n => 7 + n

/-- Who reaches a block that only firmware, the debug port and authorised management sessions reach: the debug port while unlocked, a management session while open
(R452, R490). -/
def Chip.reaches (c : Chip) (who : Src) : Bool :=
  match who with
  | .firmware => true
  | .turner => true
  | .debug => c.obs.unlocked
  | .mgmt _ => c.openMgmt who
  | .other _ => false

/-- A high word latched for a requester (R5). -/
def Chip.latchWord (c : Chip) (who : Src) (d off v : Nat) : Chip :=
  { c with latch := tabSet 0 c.latch (srcNum who * 2 ^ 32 + regKey d off) (v % 2 ^ 32 + 1) }

/-- The value that a read returns. -/
def Chip.answer (c : Chip) (v : Nat) : Chip := { c with obs := { c.obs with value := v } }

/-- Whether the access ended in a fabric error, which no register shows (R28, R171; log 131). -/
def Chip.setErr (c : Chip) (e : Bool) : Chip := { c with obs := { c.obs with fabErr := e } }

/-- TSIN_DATA_LO_READ (R5, R311, R318): the oldest entry is popped, its low word returned, its high word and its fraction word latched; an empty FIFO reads 0. -/
def Chip.tsInRead (c : Chip) (n : Nat) (who : Src) : Chip :=
  if !c.reaches who then c
  else
    let o := timeBlk + 0x24 + 0xC * n
    match tabGet [] c.net.tsIn n with
    | [] => ((c.answer 0).latchWord who 0 (o + 4) 0).latchWord who 0 (o + 8) 0
    | e :: rest =>
      let c1 := { c with net := { c.net with tsIn := tabSet [] c.net.tsIn n rest } }
      let ns := e.ts / 65536
      ((c1.answer (ns % 2 ^ 32)).latchWord who 0 (o + 4) (ns / 2 ^ 32)).latchWord who 0 (o + 8)
        (e.ts % 65536 + (b2n e.rising) <<< 16 + rest.length <<< 17)

/-- TS_OUT_EDGE (R312): the pin drives its next scheduled edge. -/
def Chip.tsOutEdge (c : Chip) (n : Nat) : Chip :=
  if c.tsRec n 1 ≠ 1 || c.net.silent then c
  else
    let e := tabGet 0 c.net.tsOut n
    let c1 := c.advanceTo (c.edgeNs n e)
    { c1 with net := { c1.net with tsOut := tabSet 0 c1.net.tsOut n (e + 1), tsHigh := tabSet false c1.net.tsHigh n (e % 2 == 0) } }

/-- Whether the ball of TS_OUT pin `n` is high: its active level is low under polarity 1 (R312, R316). -/
def Chip.tsOutBall (c : Chip) (n : Nat) : Bool := tabGet false c.net.tsHigh n != (c.tsRec n 5 == 1)

/-- PPS_EDGE (R312): the pin rises at the next whole second, or falls pps_width_ms after its rise. -/
def Chip.ppsEdge (c : Chip) : Chip :=
  if c.timeRec 14 0 ≠ 1 || c.net.silent then c
  else
    let at_ := if c.net.pps then c.nowNs / 1000000000 * 1000000000 + c.timeRec 15 100 * 1000000 else cdiv c.nowNs 1000000000 * 1000000000
    let c1 := c.advanceTo at_
    { c1 with net := { c1.net with pps := !c.net.pps } }

/-- PTP_SYNC_RECEIVE. -/
def execPtpSyncReceive (ep : EPort) (off ppm : Int) (s : State) : Host.Outcome State Fault Refusal :=
  .next { s with chip := s.chip.onPort ep (·.syncReceive ep off ppm) }
/-- ADJ_SLEW. -/
def execAdjSlew (s : State) : Host.Outcome State Fault Refusal := .next { s with chip := s.chip.awake (·.adjSlew) }
/-- SYNC_TIMEOUT. -/
def execSyncTimeout (s : State) : Host.Outcome State Fault Refusal := .next { s with chip := s.chip.awake (·.syncTimeout) }
/-- PTP_SYNC_SEND. -/
def execPtpSyncSend (ep : EPort) (s : State) : Host.Outcome State Fault Refusal := .next { s with chip := s.chip.onPort ep (·.syncSend ep) }
/-- PDELAY_EXCHANGE. -/
def execPdelayExchange (ep : EPort) (mpd : Nat) (s : State) : Host.Outcome State Fault Refusal := .next { s with chip := s.chip.onPort ep (·.pdelay ep mpd) }
/-- ANNOUNCE_SEND. -/
def execAnnounceSend (ep : EPort) (s : State) : Host.Outcome State Fault Refusal := .next { s with chip := s.chip.onPort ep (·.announce ep) }
/-- TS_IN_EDGE. -/
def execTsInEdge (pin : Pin) (rising : Bool) (phase : Fin 4) (pulse : Nat) (s : State) : Host.Outcome State Fault Refusal :=
  .next { s with chip := s.chip.tsIn pin rising phase pulse }
/-- TSIN_DATA_LO_READ. -/
def execTsinDataLoRead (pin : Pin) (who : Src) (s : State) : Host.Outcome State Fault Refusal := .next { s with chip := s.chip.awake (·.tsInRead pin who) }
/-- TS_OUT_EDGE. -/
def execTsOutEdge (pin : Pin) (s : State) : Host.Outcome State Fault Refusal := .next { s with chip := s.chip.tsOutEdge pin }
/-- PPS_EDGE. -/
def execPpsEdge (s : State) : Host.Outcome State Fault Refusal := .next { s with chip := s.chip.ppsEdge }

end Sys2Proof.Machine
end

