-- ==== Sys2Proof/Machine/Gate.lean ====
section
/-! DEFINITION. Machine/Gate.lean: result messages, the parting gate and end-to-end protection (R360–R370), results and turn status as messages (R461–R464). -/
namespace Sys2Proof.Machine

/-! ### EG_MSG -/

/-- msg_id (R360). -/
def egMsgId (d : Nat) : Nat := bits d 207 192
/-- dgram_max. -/
def egMax (d : Nat) : Nat := max 64 (bits d 218 208)

/-- Station key of the EG of partition `p` (R26). -/
def egKey (p : Nat) : Nat := stKey (64 + p) 0

/-- A gate condition that fails for the partition's turn: the first is kept with its cause, message and die; the status bit is set (R361, R366). -/
def Chip.gateFail (c : Chip) (p cause msg die i : Nat) : Chip :=
  let o := gateBlk p
  let c1 := (c.latchIf 0 o [(o + 4, msg + die <<< 16 + cause <<< 19), (o + 8, c.turn32)]).raise 0 o i (if i = 4 then 0x21 else 0)
  c1.modPart p (fun x => if x.fail = 0 then { x with fail := cause, failMsg := msg, failDie := die } else x)

/-- The header as sent, formed from the stored one: PROVISIONAL as the receive engine recorded it, hcrc recomputed (R368). -/
def sentHdr (h : Nat) (prov : Bool) : Nat := sealHdr (putBits h 29 29 (b2n prov))

/-- Key of the contribution that brought a result tile to the headstock die (R39, R231). -/
def hdrContrib (h : Nat) : Nat := conKey 0 (bits h 231 229) (bits h 228 216)

/-- Whether partition `p` gets tile-framed data, and fragment heads (R457, R461). -/
def Chip.resForm (c : Chip) (p : Nat) : Bool × Bool :=
  match (c.sess (c.sessOf p)).neg with
  | some n => (n.major == 3 && bit n.feats 0, n.major == 3 && bit n.feats 1)
  | none => (false, false)

/-- The fragments of a message string (R461). -/
def Chip.fragments (c : Chip) (p : Nat) (d : Nat) (b : Bytes) : List Dgm :=
  let n := max 1 (cdiv b.length (egMax d))
  (List.range n).map fun i =>
    let f := slice b (i * egMax d) (egMax d)
    let head := toLE 2 (egMsgId d) ++ toLE 2 i ++ toLE 2 n ++ toLE 2 0 ++ toLE 4 b.length ++ toLE 4 (i * egMax d)
    { msg := egMsgId d, frag := i, job := dJob d, body := (if (c.resForm p).2 then head else []) ++ f }

/-- A message complete: its datagrams stand in staging, and the EG's end is an event of the ready instant (R360, R362). -/
def Chip.egDone (c : Chip) (p : Nat) (r : Run) : Chip :=
  let frags := c.fragments p r.desc r.buf
  (c.modPart p (fun x => { x with staged := x.staged ++ frags })).noteEnd p

/-- Data as a read brings it in. -/
def faulty (fault : ReadFault) (b : Bytes) : Bytes :=
  match fault with
  | some f => b.modify f.1 (fun x => x ^^^ f.2)
  | none => b

/-- One tile of a message read into staging and its CRC-64 recomputed (R46, R360, R361, R368, R461, R462): a POISON tile and a mismatch are marked for the gate; `fault` is a
wrong byte in the data read, which the recheck finds. After the last tile, or an EOS marker, the message is split into datagrams. -/
def Chip.egTile (c : Chip) (p : Nat) (fault : ReadFault) (r : Run) (t : InTile) : Chip :=
  let rd := c.payload t
  let sl := (c.queue t.q).slot t.slot
  let die := qProd (c.qdesc t.q) / 128
  let msg := egMsgId r.desc
  let data := faulty fault rd.2.1
  let bad := t.pois || !rd.2.2.isEmpty || (c.contrib (hdrContrib t.hdr)).st == .failed
  let crc := crc64Done (crc64Step 0xFFFFFFFFFFFFFFFF (toLE 32 (sentHdr t.hdr sl.sentProv) ++ data))
  let c1 := if bad then rd.1.gateFail p 3 msg die 3 else if crc ≠ sl.crc then rd.1.gateFail p 4 msg die 4 else rd.1
  let tile := if (c.resForm p).1 then toLE 32 (sealHdr (clearProv t.hdr)) ++ data else if hEos t.hdr then [] else data
  let r1 := { r.advance t.ord with buf := r.buf ++ tile }
  let c2 := c1.busy (64 + p) 1
  if hEos t.hdr then (c2.setRun (egKey p) { r1.finish stEosEarly [] with buf := [] }).egDone p r1
  else if r1.inDone then (c2.setRun (egKey p) { r1 with buf := [] }).egDone p r1
  else c2.setRun (egKey p) r1

/-- EG_MSG (R360, R461): the EG's next tile is read into staging; without one it waits, and a tile still PROVISIONAL waits for its contribution. -/
def Chip.egMsg (c : Chip) (p : Nat) (fault : ReadFault) : Chip :=
  match (c.curRun (egKey p)).filter (fun r => dType r.desc == 8 && dOp r.desc == 1 && !r.inDone && r.status == 0) with
  | none => c
  | some r =>
    match r.nextIn with
    | none => c.stall (64 + p) 6 1
    | some t => if t.prov && (c.contrib (hdrContrib t.hdr)).st == .pending then c else c.egTile p fault r t

/-! ### Datagrams -/

/-- The 32-byte trailer of a datagram whose UDP payload before it is `b` (R369, R370). -/
def e2eTrailer (p flags counter turn msg frag : Nat) (b : Bytes) : Bytes :=
  let t := toLE 1 1 ++ toLE 1 p ++ toLE 1 flags ++ toLE 1 0 ++ toLE 4 counter ++ toLE 8 turn ++ toLE 2 msg ++ toLE 2 frag ++ toLE 4 b.length ++ toLE 4 0
  t ++ toLE 4 (crc32c (b ++ t))

/-- Launch instant of a partition's results, ns (R362). -/
def Chip.launchNs (c : Chip) (p : Nat) : Nat := c.turnStart + c.cfg1 0x0701 (5 + p) 0 * 1000

/-- One datagram of the partition into TQ1, through the gate's FIFO (R23): message header, body, trailer with the next counter value (R362, R370, R448, R449). -/
def Chip.sendDgram (c : Chip) (p ty msg frag flags : Nat) (body : Bytes) : Chip :=
  let s := c.sessOf p
  let n := c.nextSeq s
  let v := c.version s
  let h := MsgHdr.bytes { major := v.1, minor := v.2, ty := ty, sess := s, flags := 2, seq := n.1 } (64 + body.length)
  let ctr := c.reg 0 (gateBlk p + 0x1C)
  let b := (h ++ body) ++ e2eTrailer p flags ctr c.turn msg frag (h ++ body)
  let f := { c.sessFrame s b with due := c.launchNs p, part := p + 1 }
  ((n.2.hsPut 5 0 (34 + p) 1 b).setReg 0 (gateBlk p + 0x1C) ((ctr + 1) % 2 ^ 32)).queueFrame (c.sessPort s) 1 f

/-- Status of a job in the turn status (R464). -/
def Chip.jobStatus (c : Chip) (j : Nat) (withheld : Bool) : Nat :=
  let x := c.job j
  if !x.launched then 1 else if x.code ≠ 0 then x.code else if withheld then 9 else 0

/-- The jobs of partition `p`. -/
def Chip.partJobs (c : Chip) (p : Nat) : List Nat := c.jobs.filter (fun j => c.jobPart j == p)

/-- Body of TURN_STATUS (R463). -/
def Chip.turnStatus (c : Chip) (p cause : Nat) : Bytes :=
  let x := c.part p
  let w := decide (cause ≠ 0)
  let js := c.partJobs p
  let tb := c.fld 0 (timeBlk + 0x10) 1 0
  let noRest := (List.range 8).any (fun d => decide (d ≠ 0) && bit (c.reg d (tsBlk + 0xC)) 13)
  let flags := b2n w + 2 * b2n (tb == 2 || c.timeRec 0 0 == 0) + 4 * b2n (bit (c.reg 0 (tsBlk + 0x10)) 2) + 8 * b2n noRest
  toLE 1 flags ++ toLE 1 cause ++ toLE 1 js.length ++ toLE 1 tb ++ toLE 8 c.fsw ++ toLE 4 (c.reg 0 (timeBlk + 0x14)) ++ toLE 6 x.streams ++ toLE 1 x.lidars
    ++ toLE 1 0 ++ toLE 2 x.sent ++ toLE 2 (min 0xFFFF x.bounds) ++ toLE 4 0
    ++ js.flatMap (fun j => toLE 1 j ++ toLE 1 (c.jobStatus j w) ++ toLE 1 (min 255 (c.job j).msgs) ++ toLE 1 0)

/-! ### The gate -/

/-- A partition with a negotiated session (R458, R460). -/
def Chip.negotiated (c : Chip) (p : Nat) : Bool := (c.sess (c.sessOf p)).neg.isSome

/-- Job codes that withhold the whole turn: poison, header error or credit overflow, digest failure (R361). -/
def withholds (code : Nat) : Bool := code == 4 || code == 7 || code == 8

/-- Whether the blank of die `d` counts for partition `p`: its blank_count is not 0, or a selected entry ran there (R361). -/
def Chip.blankCounts (c : Chip) (p d : Nat) : Bool := (c.cfgBy 0x0902 p 1 1 != 0 || c.reg d (blkBlk + 0x14) != 0)

/-- The first condition of R361 that has failed, in the order of that rule (log 44): cause (R366), message and die; 0 none. -/
def Chip.gateCause (c : Chip) (p : Nat) : Nat × Nat × Nat :=
  let x := c.part p
  let badDie := (c.involved p).find? (fun d => c.blankCounts p d && tabGet 0 c.wrk.verdicts d == 2)
  let badJob := (c.partJobs p).find? (fun j => withholds (c.job j).code)
  if c.record c.turn32 p = 2 then (2, 0, 0)
  else match badDie with
    | some d => (1, 0, d)
    | none =>
      if c.classA then (5, 0, 0)
      else if x.fail ≠ 0 then (x.fail, x.failMsg, x.failDie)
      else match badJob with
        | some j => (if (c.job j).code = 8 then 2 else 3, 0, 0)
        | none => (0, 0, 0)

/-- Whether every event of the ready instant has happened and no condition is open (R362). -/
def Chip.gateReady (c : Chip) (p : Nat) : Bool :=
  c.record c.turn32 p != 0 && (List.range 8).all (fun d => c.tasksEnded p d)
    && (c.station (egKey p)).runs.isEmpty
    && (c.involved p).all (fun d => tabGet 0 c.wrk.verdicts d != 0)

/-- GATE_STATUS bit of a cause (R366). -/
def causeBit (cause : Nat) : Nat := match cause with | 1 => 1 | 2 => 2 | 3 => 3 | 4 => 4 | 5 => 5 | _ => 6

/-- The decision's time into GATE_DECIDE (R366). -/
def Chip.noteDecide (c : Chip) (p : Nat) : Chip :=
  let o := gateBlk p + 0x14
  let us := min 0xFFFF ((c.nowNs - (c.part p).endNs) / 1000)
  c.setReg 0 o (us + (max us (c.fld 0 o 31 16)) <<< 16)

/-- The partition's turn withheld (R363): staging is discarded, and the turn status alone waits for the launch instant. -/
def Chip.withhold (c : Chip) (p cause msg die : Nat) : Chip :=
  let o := gateBlk p
  let c1 := (c.latchIf 0 o [(o + 4, msg + die <<< 16 + cause <<< 19), (o + 8, c.turn32)]).orReg 0 o (1 + 1 <<< causeBit cause)
  let c2 := (c1.addReg 0 (o + 0x18) 1).shav 2 3 0x0015 p cause 0
  let c3 := { c2 with wrk := { c2.wrk with gates := tabSet 0 c2.wrk.gates (c2.turn32 * 4 + p) 2 } }
  let c4 := (c3.modPart p (fun x => { x with staged := [], sent := 0 })).noteDecide p
  if c4.negotiated p && !c4.classA then c4.sendDgram p 0x0011 0xFFFF 0 3 (c4.turnStatus p cause) else c4

/-- Datagrams that a release sends: those of jobs that ran to their end, in msg_id order (R361, R362). -/
def Chip.released (c : Chip) (p : Nat) : List Dgm :=
  let ok := (c.part p).staged.filter (fun g => (c.job g.job).code == 0)
  let ids := (ok.map (·.msg)).eraseDups
  let ordered := (List.range 65536).filter (fun m => ids.contains m)
  ordered.flatMap (fun m => ok.filter (fun g => g.msg == m))

/-- The partition's turn released (R361, R362, R460): its datagrams enter TQ1 and the turn status follows; with no negotiated session they are discarded and
counted. -/
def Chip.release (c : Chip) (p : Nat) : Chip :=
  let o := gateBlk p
  let gs := c.released p
  let c1 := { c with wrk := { c.wrk with gates := tabSet 0 c.wrk.gates (c.turn32 * 4 + p) 1 } }
  let c2 := (c1.setReg64 0 (o + 0xC) c.turn).noteDecide p
  if !c.negotiated p then (c2.addReg 0 (mbBlk + 0x1C) (c.part p).staged.length).modPart p (fun x => { x with staged := [] })
  else
    let c3 := eachDo (c.partJobs p) (fun j c =>
      c.setJob j { c.job j with msgs := ((gs.filter (fun g => g.job == j)).map (·.msg)).eraseDups.length }) c2
    let c4 := (c3.modPart p (fun x => { x with staged := [], sent := gs.length })).addReg 0 (o + 0x20) gs.length
    (eachDo gs (fun g c => c.sendDgram p 0x0010 g.msg g.frag 0 g.body) c4).sendDgram p 0x0011 0xFFFF 0 2 (c4.turnStatus p 0)

/-- Whether the partition's turn is one that the gate decides and has not decided. -/
def Chip.gateOpen (c : Chip) (p : Nat) : Bool :=
  c.running && c.pwrState == 0 && (c.part p).started && c.gateOf c.turn32 p == 0

/-- GATE_DECISION (R361–R364): withheld as soon as a condition has failed, released once all are met, and otherwise open. -/
def Chip.gateDecide (c : Chip) (p : Nat) : Chip :=
  if !c.gateOpen p then c
  else
    let c1 := c.settle
    let f := c1.gateCause p
    if f.1 ≠ 0 then c1.withhold p f.1 f.2.1 f.2.2
    else if c1.gateReady p then c1.release p
    else c1

/-- RESULT_LAUNCH (R290, R362, R363): at the launch instant an undecided turn is withheld with cause LATE, and the port starts the partition's first datagram. -/
def Chip.resultLaunch (c : Chip) (p : Nat) : Chip :=
  if !c.running || c.pwrState != 0 || !(c.part p).started then c
  else
    let c1 := (c.advanceTo (c.launchNs p - c.txCorr (c.sessPort (c.sessOf p)))).settle
    let c2 := if c1.gateOpen p then c1.withhold p (if (c1.gateCause p).1 = 0 then 6 else (c1.gateCause p).1) (c1.gateCause p).2.1 (c1.gateCause p).2.2 else c1
    if c2.negotiated p then c2.tq1Launch (c2.sessPort (c2.sessOf p)) else c2

/-- EG_MSG. -/
def execEgMsg (p : Part) (bad : ReadFault) (s : State) : Host.Outcome State Fault Refusal := .next { s with chip := s.chip.work (·.egMsg p bad) }
/-- GATE_DECISION. -/
def execGateDecision (p : Part) (s : State) : Host.Outcome State Fault Refusal := .next { s with chip := s.chip.awake (·.gateDecide p) }
/-- RESULT_LAUNCH. -/
def execResultLaunch (p : Part) (s : State) : Host.Outcome State Fault Refusal := .next { s with chip := s.chip.awake (·.resultLaunch p) }

end Sys2Proof.Machine
end

