-- ==== Sys2Proof/Machine/Always.lean ====
section
/-! DEFINITION. Machine/Always.lean: step 3 of the boundary (R324): the always-on records (R477–R480), the COUNTERS messages (R483) and the reset of the per-turn
counters (R107, R136, R164, R193, R223, R247, R282, R319, R359, R476, R514). -/
namespace Sys2Proof.Machine

/-! ### Sums -/

/-- A 48-bit counter of local station `i` of die `d`, at offset `o` of its block (R475). -/
def Chip.cnt (c : Chip) (d i o : Nat) : Nat := c.reg64 d (cntBlk i + o)

/-- Whether physical core `k` of a die works: it carries a logical core (R17). -/
def Chip.works (c : Chip) (d k : Nat) : Bool := (c.logOf d k).isSome
/-- Local indices of the `i`-th station of every working core of a die. -/
def Chip.coreStns (c : Chip) (d i : Nat) : List Nat := ((List.range 9).filter (c.works d)).map (fun k => 32 + 4 * k + i)

/-- MACs of the MX stations named (R474). -/
def Chip.macsOf (c : Chip) (d : Nat) (l : List Nat) : Nat := sumOver l (fun i => sumOver (List.range 14) (fun n => c.cnt d i (0x180 + 8 * n)))
/-- STALL cycles with reason `r` of the stations named. -/
def Chip.stallOf (c : Chip) (d r : Nat) (l : List Nat) : Nat := sumOver l (fun i => c.cnt d i (0x18 + 8 * r))
/-- Cycles of core island `k` of die `d` in this turn (R336). -/
def Chip.coreCycles (c : Chip) (d k : Nat) : Nat := (tabGet {} c.wrk.clks (d * 16 + k)).cycles

/-- A little-endian u16 that saturates (R478). -/
def le16 (n : Nat) : Bytes := toLE 2 (min n 65535)

/-- Highest of two junction temperatures, s16. -/
def maxTj (a b : Nat) : Nat := if sext 16 a < sext 16 b then b else a

/-! ### Records -/

/-- A record of 256 B: its fields, zeros, and a CRC-32C over bytes 0–251 (R477). -/
def aoSeal (b : Bytes) : Bytes := let x := padTo 252 b; x ++ toLE 4 (crc32c x)

/-- flags of a die record (R478). -/
def Chip.dieFlags (c : Chip) (d : Nat) : Nat :=
  b2n (!c.fenced d && c.fld d (tsBlk + 0xC) 3 0 != 15) + 2 * b2n (c.fenced d) + 4 * b2n (tabGet 0 c.wrk.verdicts d == 1)
    + 8 * b2n (tabGet 0 c.wrk.full d == c.turn + 1)

/-- Error counters of a die record, bytes 120–151 (R478). -/
def Chip.dieErrs (c : Chip) (d : Nat) : List Nat :=
  let both := fun o => c.reg d (ddrBlk 0 + o) + c.reg d (ddrBlk 1 + o)
  let cores := fun f => sumOver (List.range 9) (fun k => c.reg d (f k))
  let wins := fun o => sumOver (List.range 64) (fun w => c.reg d (winBlk w + o))
  [c.reg d (sramBlk + 0xC), c.reg d (sramBlk + 0x10), both 0x18, both 0x1C, both 0x20, both 0x30, c.reg d (sramBlk + 0x28), wins 0x10, wins 0x14,
    c.reg d (xdBlk + 0x18), cores (fun k => vxBlk k + 0x10), cores (fun k => vxBlk k + 0x14), cores (fun k => mxBlk k + 0x18),
    cores (fun k => mxBlk k + 0x1C), c.reg d bxBlk, c.reg d (bxBlk + 4)]

/-- The record of CDd (R478). -/
def Chip.dieRecord (c : Chip) (d : Nat) (env : BoundaryEnv) : Bytes :=
  let head := toLE 8 c.turn ++ toLE 1 d ++ toLE 1 (c.dieFlags d)
  if c.fenced d then aoSeal head
  else
    let mx := c.coreStns d 0
    let busy := fun l => sumOver l (fun i => c.cnt d i 0)
    let cores := (List.range 9).filter (c.works d)
    let all := (List.range 4).flatMap (c.coreStns d) ++ [96, 97]
    let wf := fun o => sumOver (List.range 9) (fun k => c.reg d (wfBlk k + o))
    let lows := (List.range 9).map (fun k => c.fld d (tsBlk + 0x34 + 4 * k) 31 16)
    let low := (lows.filter (· != 0)).foldl (fun a b => if a = 0 ∨ b < a then b else a) 0
    aoSeal (head ++ toLE 1 (c.fld d (tsBlk + 0xC) 3 0) ++ toLE 1 0
      ++ [busy mx, sumOver mx (fun i => c.cnt d i 8), busy (c.coreStns d 1), busy (c.coreStns d 2), busy (c.coreStns d 3), c.cnt d 96 0, c.cnt d 97 0].flatMap (toLE 4)
      ++ toLE 4 (sumOver cores (c.coreCycles d)) ++ toLE 4 0 ++ toLE 8 (c.macsOf d mx)
      ++ (List.range 10).flatMap (fun r => toLE 4 (c.stallOf d (r + 1) all))
      ++ (List.range 5).flatMap (fun p => toLE 4 (c.reg d (ddrBlk 0 + 0x40 + 4 * p) + c.reg d (ddrBlk 1 + 0x40 + 4 * p)))
      ++ toLE 1 (c.fld d (ddrBlk 0 + 0x54) 7 0) ++ toLE 1 (c.fld d (ddrBlk 1 + 0x54) 7 0) ++ toLE 2 0
      ++ (c.dieErrs d).flatMap le16
      ++ toLE 4 (c.reg d (xdBlk + 0xC)) ++ toLE 4 (c.reg d (xdBlk + 0x10)) ++ toLE 8 (sumOver (List.range 9) (fun k => c.reg64 d (dmBlk k)))
      ++ [wf 0, wf 4, wf 8, wf 12].flatMap (toLE 4) ++ toLE 4 (sumOver (List.range 9) (fun k => c.reg d (dmBlk k + 0xC)))
      ++ le16 (c.reg d (blkBlk + 0x14)) ++ toLE 1 (c.reg d (blkBlk + 0x1C)) ++ toLE 1 (c.reg d blkBlk) ++ toLE 4 (c.reg d (blkBlk + 0x18))
      ++ toLE 2 (tabGet 0 c.wrk.tsSet d) ++ toLE 2 low ++ toLE 2 (c.fld d (tsBlk + 0x58) 31 16)
      ++ toLE 2 (env.tjMax.getD d 0).toNat ++ toLE 4 (env.power.getD d 0).toNat ++ toLE 1 (bits c.fsw (8 * d + 7) (8 * d)))

/-- The HSD record (R479). -/
def Chip.hsdRecord (c : Chip) (env : BoundaryEnv) : Bytes :=
  let sp := fun o hi lo => sumOver (List.range 24) (fun p => c.fld 0 (spBlk p + o) hi lo)
  let img := fun hi lo => sumOver (List.range 4) (fun s => sp (0x20 + 4 * s) hi lo)
  let ep := fun o => sumOver (List.range 10) (fun n => c.reg 0 (epBlk n + o))
  let poc := (List.range 24).foldl (fun m p => max m (c.fld 0 (spBlk p + 0x14) 25 16)) 0
  aoSeal (toLE 8 c.turn ++ toLE 4 0
    ++ le16 (img 7 0) ++ le16 (img 15 8) ++ toLE 4 (sp 0x30 31 0) ++ toLE 4 (sp 0x34 15 0) ++ toLE 4 (sp 0x34 31 16) ++ toLE 4 (sp 0x38 31 0)
    ++ le16 (sp 0x3C 31 0) ++ le16 (sp 0x40 31 0) ++ le16 (sp 0x44 31 0) ++ le16 poc
    ++ toLE 4 (ep 0x14) ++ toLE 4 (ep 0x18) ++ toLE 4 (ep 0x1C) ++ [0x20, 0x24, 0x28, 0x2C].flatMap (fun o => le16 (ep o))
    ++ toLE 4 (c.reg 0 (timeBlk + 0x14))
    ++ (List.range 4).flatMap (fun p => toLE 2 (c.fld 0 (gateBlk p + 0x14) 15 0)) ++ (List.range 4).flatMap (fun p => le16 (c.reg 0 (gateBlk p + 0x20)))
    ++ toLE 2 (c.reg 0 (tsBlk + 0x14)) ++ toLE 2 (env.tjMax.getD 0 0).toNat ++ toLE 4 (env.power.getD 0 0).toNat
    ++ toLE 1 (bits c.fsw 7 0) ++ toLE 1 (bits (tabGet 0 c.wrk.tsSet 0) 1 0) ++ toLE 6 0 ++ toLE 8 (c.reg64 0 (dmBlk 0) + c.reg64 0 (dmBlk 1)))

/-- Stations of die `d` that count for partition `p`: those of the logical cores it owns, and its BX (R480); `i` picks one kind of core station. -/
def Chip.partStns (c : Chip) (p d i : Nat) : List Nat :=
  ((List.range 8).filter (fun l => bit (c.cfgBy 0x0201 p 2 0) (8 * (d - 1) + l))).map (fun l => 32 + 4 * c.physOf d l + i)

/-- Body of a partition record, and of COUNTERS (R480, R483); a job counts as missed or as terminated by its status of R464 (log 161). -/
def Chip.partRecord (c : Chip) (p : Nat) : Bytes :=
  let x := c.part p
  let g := c.gateOf c.turn32 p
  if !c.hasPart p then aoSeal (toLE 8 c.turn ++ toLE 1 p ++ toLE 1 0)
  else
    let dies := ((List.range 8).drop 1).filter (fun d => !c.fenced d)
    let own := fun d => (List.range 4).flatMap (c.partStns p d) ++ (if bit (c.cfgBy 0x0201 p 3 0) (d - 1) then [96] else [])
    let tot := fun (f : Nat → Nat) => sumOver dies f
    let js := c.partJobs p
    let missed := (js.filter (fun j => (c.job j).code == 2 || (c.job j).code == 3)).length
    let ended := (js.filter (fun j => decide (4 ≤ (c.job j).code))).length
    aoSeal (toLE 8 c.turn ++ toLE 1 p ++ toLE 1 (b2n (g == 2) + 2 * b2n (g == 1) + 4 * b2n (c.negotiated p)) ++ toLE 1 missed ++ toLE 1 ended
      ++ le16 (c.reg 0 (gateBlk p + 0x20)) ++ le16 x.bounds
      ++ toLE 8 (tot (fun d => sumOver (c.partStns p d 0) (fun i => c.cnt d i 0)))
      ++ toLE 8 (tot (fun d => sumOver (c.partStns p d 0) (fun i => c.coreCycles d ((i - 32) / 4))))
      ++ toLE 8 (tot (fun d => c.macsOf d (c.partStns p d 0)))
      ++ toLE 8 (tot (fun d => c.reg d (ddrBlk 0 + 0x40 + 4 * p) + c.reg d (ddrBlk 1 + 0x40 + 4 * p)))
      ++ toLE 8 (tot (fun d => c.cnt d 97 (0x180 + 8 * p)))
      ++ (List.range 10).flatMap (fun r => toLE 8 (tot (fun d => c.stallOf d (r + 1) (own d))))
      ++ toLE 6 x.streams ++ toLE 1 x.lidars ++ toLE 1 0 ++ toLE 2 (c.fld 0 (gateBlk p + 0x14) 15 0))

/-- Key of a record in the always-on store: ring slot and unit, 0 the HSD, 1–7 a die, 8–11 a partition (R477, R481). -/
def aoKey (t u : Nat) : Nat := (t % 64) * 16 + u

/-- The twelve records of the ending turn, and AO_HEAD (R477). -/
def Chip.composeAo (c : Chip) (env : BoundaryEnv) : Chip :=
  let recs := (0, c.hsdRecord env) :: (((List.range 8).drop 1).map (fun d => (d, c.dieRecord d env)) ++ (List.range 4).map (fun p => (8 + p, c.partRecord p)))
  let ao := recs.foldl (fun t r => tabSet [] t (aoKey c.turn r.1) r.2) c.obs.ao
  let c1 := { c with obs := { c.obs with ao := ao } }
  c1.setReg 0 (obsBlk + 0x38) (c.turn % 64 + 64 * b2n (decide (64 ≤ c.turn) || bit (c.reg 0 (obsBlk + 0x38)) 6))

/-- COUNTERS to each session that negotiated COUNTER_STREAM and may read its counters (R465, R483; log 45). -/
def Chip.sendCounters (c : Chip) : Chip :=
  eachDo (List.range 4) (fun s c =>
    match (c.sess s).neg, c.partOf s with
    | some n, some p =>
      if bit n.feats 3 && bit (c.sessRec s 5 1) 0 then (c.tell s 3 0x0014 2 0 0 (tabGet [] c.obs.ao (aoKey c.turn (8 + p)))).2 else c
    | _, _ => c) c

/-! ### Per-turn counters -/

/-- Bits of a station's counter block that the boundary resets: TC, CC counters and MX_OPS (R476). -/
def cntMask (o : Nat) : Nat :=
  if o < 0x90 ∨ (0x9C ≤ o ∧ o < 0xF8) ∨ (0x180 ≤ o ∧ o < 0x1F0) then 0xFFFFFFFF else 0

/-- Bits of the register at `off` of die `d` that the boundary resets to zero. -/
def turnMask (d off : Nat) : Nat :=
  let all := 0xFFFFFFFF
  let inBlk := fun (lo hi : Nat) => decide (lo ≤ off ∧ off < hi)
  if inBlk (cntBlk 0) (cntBlk 128) then cntMask ((off - cntBlk 0) % 0x200)
  else if inBlk (taskBlk 0) (taskBlk 256) then (if off % 0x40 = 0x34 then all else 0)
  else if inBlk sramBlk (sramBlk + 0x40) then (if [0xC, 0x10, 0x28].contains (off - sramBlk) then all else 0)
  else if inBlk (dmBlk 0) (dmBlk 9) then (if [0, 4, 0xC].contains ((off - dmBlk 0) % 0x40) then all else 0)
  else if inBlk xdBlk (xdBlk + 0x200) then (if [0xC, 0x10, 0x18].contains ((off - xdBlk) % 0x40) then all else 0)
  else if inBlk (winBlk 0) (winBlk 64) then (if [0x10, 0x14].contains ((off - winBlk 0) % 0x20) then all else 0)
  else if d = 0 then
    if inBlk (spBlk 0) (spBlk 24) then
      let o := (off - spBlk 0) % 0x80
      if 0x20 ≤ o ∧ o < 0x30 then 0xFFFF else if 0x30 ≤ o ∧ o < 0x48 then all else if o = 0x14 then 0x03FF0000 else 0
    else if inBlk (epBlk 0) (epBlk 10) then (let o := (off - epBlk 0) % 0x80; if 0x14 ≤ o ∧ o < 0x30 then all else 0)
    else if inBlk (ldStat 0) (ldStat 8) then 0xFFFF
    else if inBlk (gateBlk 0) (gateBlk 4) then (if (off - gateBlk 0) % 0x40 = 0x20 then all else 0)
    else 0
  else if inBlk (mxBlk 0) (mxBlk 9) then (if [0x18, 0x1C].contains ((off - mxBlk 0) % 0x40) then all else 0)
  else if inBlk bxBlk (bxBlk + 8) then all
  else if inBlk (wfBlk 0) (wfBlk 9) then (if (off - wfBlk 0) % 0x40 < 0x10 then all else 0)
  else if inBlk (vxBlk 0) (vxBlk 9) then (if [0x10, 0x14].contains ((off - vxBlk 0) % 0x40) then all else 0)
  else if inBlk (ddrBlk 0) (ddrBlk 2) then
    let o := (off - ddrBlk 0) % 0x100
    if [0x18, 0x1C, 0x20, 0x30].contains o ∨ (0x40 ≤ o ∧ o < 0x58) then all else 0
  else if off = blkBlk + 0x14 then all
  else if inBlk pwrBlk (pwrBlk + 0x38) then 0xFFFFF
  else 0

/-- Every register with the bits that `mask` names reset to zero. -/
def Chip.clearRegs (c : Chip) (mask : Nat → Nat → Nat) : Chip :=
  { c with regs := tabMap 0#32 (fun k v => v &&& ~~~(BitVec.ofNat 32 (mask (k / 16777216) (k % 16777216)))) c.regs }

/-- The junction temperatures of the ending turn in TJ_HSD and TJ_DIE (R512–R514). -/
def Chip.noteTj (c : Chip) (env : BoundaryEnv) : Chip :=
  eachDo (List.range 8) (fun d c =>
    let o := pwrBlk + (if d = 0 then 0x28 else 0x38)
    c.setReg d o ((env.tjNow.getD d 0).toNat + maxTj (c.fld d o 31 16) (env.tjMax.getD d 0).toNat <<< 16)) c

/-- Counts kept beside the registers begun anew with the turn. -/
def Chip.freshCounts (c : Chip) : Chip :=
  { c with wrk := { c.wrk with tsSet := [], clks := tabMap {} (fun _ x => { x with cycles := 0 }) c.wrk.clks } }

/-- Every counter that the boundary resets, as it ends the turn, in the always-on set: those too that R478–R480 give no place in a record (R164, R186, R193, R247; log 141). -/
def Chip.copyCounters (c : Chip) : Chip :=
  let of := fun (d : Nat) => c.regs.filterMap (fun kv =>
    let m := turnMask (kv.1 / 16777216) (kv.1 % 16777216)
    if kv.1 / 16777216 = d ∧ m ≠ 0 then some (kv.1 % 16777216, kv.2.toNat &&& m) else none)
  { c with obs := { c.obs with aoAll := (List.range 8).foldl (fun t d => tabSet [] t (aoKey c.turn d) (of d)) c.obs.aoAll } }

/-- Step 3 of R324: the per-turn counters copied and reset. -/
def Chip.boundaryCounters (c : Chip) (env : BoundaryEnv) : Chip :=
  (((((c.composeAo env).sendCounters).copyCounters).clearRegs turnMask).noteTj env).freshCounts

end Sys2Proof.Machine
end

