-- ==== Sys2Proof/Machine/Remote.lean ====
section
/-! DEFINITION. Machine/Remote.lean: remote windows: the requests of a command, their checks at the owning die and their statuses (R177–R186, R229). -/
namespace Sys2Proof.Machine

/-- Split a span of `n` bytes into pieces of at most 256 B: offset and length of each (R184). -/
def pieces (n : Nat) : List (Nat × Nat) := (List.range (cdiv n 256)).map (fun i => (256 * i, min 256 (n - 256 * i)))

/-- Read requests for `n` bytes at a remote-window address (R157), whose data go to place `place` of the command's buffer. -/
def readReqs (a n place : Nat) : List WReq :=
  (pieces n).map (fun p => { die := rwDie a, win := rwWin a, off := rwOff a + p.1, len := p.2, wr := false, place := place + p.1 })

/-- Write requests for bytes at a window's offset. -/
def writeReqs (die win off : Nat) (b : Bytes) (pois : List Nat) (cid : Nat) : List WReq :=
  (pieces b.length).map (fun p =>
    { die := die, win := win, off := off + p.1, len := p.2, wr := true, data := slice b p.1 p.2,
      pois := (pois.filter (fun o => p.1 ≤ o ∧ o < p.1 + p.2)).map (· - p.1), cid := cid })

/-- The write requests of a command handed to the fabric: their flits leave (R225). -/
def Chip.sendReqs (c : Chip) (src part num : Nat) (qs : List WReq) : Chip :=
  eachDo qs (fun q c =>
    if q.wr then c.sendData { ty := 2, src := src, dst := q.die, part := part, target := q.win, offset := q.off / 8, contrib := num } q.data q.pois
    else c.sendFlit src q.die (flitBody { ty := 3, src := src, dst := q.die, part := part, last := true, target := q.win, offset := q.off / 8, info := q.len } [])) c

/-- A window's table entry (R186). -/
def Chip.winCtrl (c : Chip) (d w : Nat) : Nat := c.reg d (winBlk w + 0xC)
/-- Device address of a window's start. -/
def Chip.winStart (c : Chip) (d w : Nat) : Nat := dieBase d + c.reg d (winBlk w) + (bits (c.reg d (winBlk w + 4)) 11 0) <<< 32
/-- Bytes of a window. -/
def Chip.winSize (c : Chip) (d w : Nat) : Nat := bits (c.reg d (winBlk w + 8)) 27 0
/-- Region of a window: 1 die buffer, 2 DDR5. -/
def Chip.winRegion (c : Chip) (d w : Nat) : Nat := bits (c.reg d (winBlk w + 4)) 13 12

/-- Outcome of the checks of R184: 0 passed, else the status for the sender. -/
def Chip.winCheck (c : Chip) (src part : Nat) (q : WReq) : Nat :=
  let x := c.winCtrl q.die q.win
  if !bit x 0 then stWindowClosed
  else if !bit (bits x 11 4) src || bits x 13 12 != part then stBound
  else if q.wr && !bit x 2 || !q.wr && !bit x 1 then stBound
  else if c.winSize q.die q.win < q.off + q.len then stBound
  else stOk

/-- The oldest command of a station with a request under way. -/
def Chip.asker (c : Chip) (k : Nat) : Option (Run × WReq × List WReq) :=
  (c.station k).runs.findSome? fun r => match r.reqs with | [] => none | q :: t => some (r, q, t)

/-- A request's data enter their contribution, and the digest trailer follows the command's last write, or last read, to the window (R229). -/
def Chip.carryReq (c : Chip) (r : Run) (q : WReq) (rest : List WReq) (src part key : Nat) (b : Bytes) : Chip :=
  let c1 := if b.isEmpty then c else c.setContrib key ((c.contrib key).carry b none)
  if rest.any (fun y => y.wr == q.wr) || (q.wr && !r.inDone) then c1
  else if q.wr then c1.sendTrailer src q.die part (key % 8192)
  else c1.sendTrailer q.die src part (key % 8192)

/-- REMOTE_REQUEST_ARRIVE (R184): the station's oldest request reaches the owning die, which serves it or discards it. The data of an accepted read belong to
one contribution from the owning die, those of a write to the command's own (R229). -/
def Chip.remoteRequestArrive (c : Chip) (k : Nat) (ups : Upsets) : Chip :=
  match c.asker k with
  | none => c
  | some (r, q, rest) =>
    let src := stDie (k / 4)
    let j := dJob r.desc
    let part := c.jobPart j
    let s := c.winCheck src part q
    let w := winBlk q.win
    if s ≠ stOk then
      let c1 := c.addReg q.die (w + (if s = stWindowClosed then 0x10 else 0x14)) 1
      let c2 :=
        if q.wr then (if q.cid = 0 then c1 else c1.carryReq r q rest src part (q.cid - 1) q.data)
        else if r.cids.isEmpty then c1 else c1.carryReq r q rest src part (r.cids.headD 0) []
      c2.setRun k { r with reqs := rest, rets := r.rets ++ [{ req := q, status := s, region := c.winRegion q.die q.win }] }
    else
      let a := c.winStart q.die q.win + q.off
      let who : Reader := { kind := 0, job := j, part := part, safety := c.isSafety part, st := k / 4 }
      if q.wr then
        let c1 := c.write a q.data q.pois who ups
        let c2 := if q.cid = 0 then c1 else c1.carryReq r q rest src part (q.cid - 1) q.data
        c2.setRun k { r with reqs := rest, rets := r.rets ++ [{ req := q, status := stOk }] }
      else
        let rd := c.read who ups a q.len
        let op := if r.cids.isEmpty then (let x := rd.1.openContrib q.die src part j; (conKey src q.die x.1, x.2)) else (r.cids.headD 0, rd.1)
        let c1 := op.2.sendData { ty := 4, src := q.die, dst := src, part := part, target := q.win, offset := q.off / 8, contrib := op.1 % 8192 } rd.2.1 rd.2.2
        let c3 := c1.carryReq r q rest src part op.1 rd.2.1
        c3.setRun k { r with reqs := rest, cids := [op.1], rets := r.rets ++ [{ req := q, status := stOk, data := rd.2.1, pois := rd.2.2 }] }

/-- Bytes placed in a buffer. -/
def placeBytes (b : Bytes) (off : Nat) (d : Bytes) : Bytes := b.take off ++ List.replicate (off - b.length) 0#8 ++ d ++ b.drop (off + d.length)

/-- REMOTE_STATUS_RETURN (R173, R185): the sender takes the next status: data into the command's buffer, WINDOW_CLOSED counted and remembered with refused data
poisoned, BOUND a bound fault. -/
def Chip.remoteStatusReturn (c : Chip) (k : Nat) : Chip :=
  match (c.station k).runs.find? (fun r => !r.rets.isEmpty) with
  | none => c
  | some r =>
    match r.rets with
    | [] => c
    | x :: rest =>
      let st := k / 4
      let q := x.req
      if x.status = stBound then
        c.boundFault k r x.region q.off (1 <<< 18 + q.win <<< 19 + q.die <<< 25)
      else
        let shut := x.status == stWindowClosed
        let data := if shut then List.replicate q.len 0#8 else x.data
        let pois := if shut then List.range q.len else x.pois
        -- an XD_GET keeps the places of refused pieces, which it does not write
        let r1 := { r with rets := rest, closed := r.closed || shut, acc2 := if shut && stType st == 6 then r.acc2 ++ [q.place] else r.acc2 }
        let r2 := if q.wr then r1
          else { r1 with buf := placeBytes r1.buf q.place data, bufPois := r1.bufPois ++ pois.map (· + q.place) }
        let c1 := c.setRun k r2
        if shut && stType st == 4 then
          c1.addReg (stDie st) (dmBlk (if stDie st = 0 then stIdx st - 72 else (stIdx st - 32) / 4) + 0xC) 1
        else c1

/-- REMOTE_REQUEST_ARRIVE. -/
def execRemoteRequestArrive (st : Stn) (p : Part) (ups : Upsets) (s : State) : Host.Outcome State Fault Refusal :=
  .next { s with chip := s.chip.live (·.remoteRequestArrive (stKey st (if isXd st then p else 0)) ups) }
/-- REMOTE_STATUS_RETURN. -/
def execRemoteStatusReturn (st : Stn) (p : Part) (s : State) : Host.Outcome State Fault Refusal :=
  .next { s with chip := s.chip.live (·.remoteStatusReturn (stKey st (if isXd st then p else 0))) }

end Sys2Proof.Machine
end

