-- ==== Sys2Proof/Machine/Mover.lean ====
section
/-! DEFINITION. Machine/Mover.lean: the data movers: copies, loads and stores with their address walk, transposition and compression (R123–R125, R154–R163). -/
namespace Sys2Proof.Machine

/-- DM register block of DM station `st` (R163). -/
def dmOff (st : Nat) : Nat := dmBlk (if stDie st = 0 then stIdx st - 72 else (stIdx st - 32) / 4)

/-- Bytes moved, counted to 48 bits (R163). -/
def Chip.moved (c : Chip) (st n : Nat) : Chip := c.addReg48 (stDie st) (dmOff st) n

/-- The newest command of a DM, if it runs opcode `op` and still works. -/
def Chip.dmRun (c : Chip) (st op : Nat) : Option Run :=
  (c.curRun (stKey st 0)).filter (fun r => dType r.desc == 4 && dOp r.desc == op && !r.inDone && r.status == 0)

/-- A 36-bit offset moved by a signed number of 16-byte units. -/
def walk (off : Nat) (u : Int) : Nat := wrap 36 ((off : Int) + 16 * u)

/-- Indices of the runs of one step of dimension 3, dimension 1 innermost (R158). -/
def runIx (d : Nat) : List (Nat × Nat) := (List.range (dmCnt2 d)).flatMap (fun i2 => (List.range (dmCnt1 d)).map (fun i1 => (i1, i2)))
/-- Source address of a run (R158). -/
def srcAt (d i1 i2 i3 : Nat) : Nat := walk (dmSrcOff d) ((i1 : Int) * dmS1 d + (i2 : Int) * dmS2 d + (i3 : Int) * dmS3 d)
/-- Destination address of a run (R158). -/
def dstAt (d i1 i2 i3 : Nat) : Nat := walk (dmDstOff d) ((i1 : Int) * dmD1 d + (i2 : Int) * dmD2 d + (i3 : Int) * dmD3 d)

/-- Bytes of one step of dimension 3. -/
def stepBytes (d : Nat) : Nat := dmLen d * dmCnt1 d * dmCnt2 d

/-- Bytes each with its poison mark. -/
abbrev Marked := List (Byte × Bool)
/-- Bytes with the marks of their poisoned offsets. -/
def marked (b : Bytes) (ps : List Nat) : Marked := b.zipIdx.map (fun x => (x.1, ps.contains x.2))
/-- The bytes alone. -/
def Marked.bytes (m : Marked) : Bytes := m.map (·.1)
/-- Offsets of the poisoned bytes. -/
def Marked.bad (m : Marked) : List Nat := (m.zipIdx.filter (fun x => x.1.2)).map (·.2)

/-- A 64 × 64 block of elements of `e` bytes transposed: run `k` of the output holds element `k` of each input run (R159). -/
def transposeBlock (e : Nat) (runs : List Marked) : List Marked :=
  (List.range 64).map (fun k => runs.flatMap (fun r => (r.drop (k * e)).take e))

/-- Runs of one step of dimension 3 transposed group by group (R159). -/
def transposeRuns (xpose : Nat) (runs : List Marked) : List Marked :=
  if xpose = 0 then runs else (chunks 64 runs).flatMap (transposeBlock (2 ^ (xpose - 1)))

/-- Bytes of the zero-compressed stream of `lines` lines whose records start at `a` (R123). -/
def Chip.recordsLen (c : Chip) (a : Nat) : Nat → Nat → Nat
  | 0, off => off
  | n + 1, off => c.recordsLen a n (off + 8 + popcount 64 (fromLE (c.peek (a + off) 8)))

/-- Bytes of the zero-compressed stream at device address `a` that expands to `size` bytes (R123). -/
def Chip.streamLen (c : Chip) (a size : Nat) : Nat := c.recordsLen a (cdiv size 64) (4 * cdiv (cdiv size 64) 8)

/-- Bytes of a DM's source in all (R158, R160). -/
def srcTotal (d : Nat) : Nat := stepBytes d * dmCnt3 d

/-- Device address of a source offset: through the task, or of a window. -/
def Chip.srcBase (c : Chip) (st : Nat) (r : Run) : Nat :=
  let d := r.desc
  if dmSrc d = 3 then c.winStart (rwDie (dmSrcOff d)) (rwWin (dmSrcOff d)) + rwOff (dmSrcOff d)
  else c.viewMap ((c.region st r.task (dmSrc d)).1 + dmSrcOff d)

/-- The read requests of a command whose source is a window: every run in order, or the whole compressed stream. -/
def Chip.srcReqs (c : Chip) (st : Nat) (r : Run) : List WReq :=
  let d := r.desc
  if dmComp d = 1 then readReqs (dmSrcOff d) (c.streamLen (c.srcBase st r) (srcTotal d)) 0
  else
    (List.range (dmCnt3 d)).flatMap fun i3 =>
      (runIx d).zipIdx.flatMap fun x => readReqs (srcAt d x.1.1 x.1.2 i3) (dmLen d) (i3 * stepBytes d + x.2 * dmLen d)

/-- A read of `n` bytes at `a` that finds the stores `ss` which its command has issued before (R158): the data as those stores leave them. -/
def Chip.readOver (c : Chip) (who : Reader) (ups : Upsets) (ss : List Store) (a n : Nat) : Chip × Marked :=
  let rd := c.readTask who ups a n
  if ss.any (fun s => decide (s.addr / 8 ≤ (a + n - 1) / 8 ∧ a / 8 ≤ (s.addr + s.data.length - 1) / 8)) then
    let x := (eachDo ss (fun s c => c.write s.addr s.data s.pois) rd.1).look a n
    (rd.1, marked x.2.1 x.2.2)
  else (rd.1, marked rd.2.1 rd.2.2)

/-- Runs read from memory one after another, or the offset of a bound fault (R158, R172). -/
def Chip.readRuns (c : Chip) (st : Nat) (r : Run) (ups : Upsets) (ss : List Store) : List (Nat × Nat × Nat) → List Marked → Chip × Except Nat (List Marked)
  | [], bs => (c, .ok bs)
  | (i1, i2, i3) :: rest, bs =>
    let d := r.desc
    let o := srcAt d i1 i2 i3
    match c.xlate st r.task (dmSrc d) o (dmLen d) with
    | none => (c, .error o)
    | some a =>
      let rd := c.readOver (c.readerOf st d) ups ss a (dmLen d)
      rd.1.readRuns st r ups ss rest (bs ++ [rd.2])

/-- A compressed source's stream: the bytes read remotely, or read from memory, with whether they hold poison; or the offset of a bound fault (R160). -/
def Chip.streamData (c : Chip) (st : Nat) (r : Run) (ups : Upsets) : Chip × Except Nat (Bytes × Bool) :=
  let d := r.desc
  let len := c.streamLen (c.srcBase st r) (srcTotal d)
  if dmSrc d = 3 then (c, .ok (r.buf, !r.bufPois.isEmpty))
  else
    match c.xlate st r.task (dmSrc d) (dmSrcOff d) len with
    | none => (c, .error (dmSrcOff d))
    | some a =>
      let rd := c.readTask (c.readerOf st d) ups a len
      (rd.1, .ok (rd.2.1, !rd.2.2.isEmpty))

/-- The data of step `i3` of dimension 3 as runs of len0 bytes: from memory, from the bytes read remotely, or from a compressed stream, of which a poisoned word marks all that it expands to
(R158, R160; log 24). -/
def Chip.stepData (c : Chip) (st : Nat) (r : Run) (ups : Upsets) (i3 : Nat) : Chip × Except Nat (List Marked) :=
  let d := r.desc
  let n := stepBytes d
  let runs := fun (m : Marked) => chunks (max 1 (dmLen d)) ((m.drop (i3 * n)).take n)
  if dmComp d = 1 then
    let got := c.streamData st r ups
    (got.1, got.2.map (fun x => runs ((zExpand (srcTotal d) x.1).map (fun b => (b, x.2)))))
  else if dmSrc d = 3 then (c, .ok (runs (marked r.buf r.bufPois)))
  else c.readRuns st r ups [] ((runIx d).map (fun x => (x.1, x.2, i3))) []

/-- Whether a command with a window source has still to ask for its data or to wait for it (R157, R184). -/
def Run.wantsSource (r : Run) : Bool :=
  dmSrc r.desc == 3 && dOp r.desc != 3 && (!r.asked || !r.reqs.isEmpty || !r.rets.isEmpty)

/-- Such a command asks once, and then waits (R157, R184). -/
def Chip.askSource (c : Chip) (st : Nat) (r : Run) : Chip :=
  if r.asked then c
  else (c.setRun (stKey st 0) { r with asked := true, reqs := r.reqs ++ c.srcReqs st r }).sendReqs (stDie st) (c.jobPart (dJob r.desc)) 0 (c.srcReqs st r)

/-- Plain stores of bytes at device address `a`, line by line (R56). -/
def linesOf (a : Nat) (b : Bytes) (pois : List Nat) : List Store :=
  let first := min b.length (64 - a % 64)
  let cuts := (0, first) :: (List.range (cdiv (b.length - first) 64)).map (fun i => (first + 64 * i, min 64 (b.length - first - 64 * i)))
  (cuts.filter (fun x => x.2 != 0)).map (fun x =>
    ⟨a + x.1, slice b x.1 x.2, (pois.filter (fun p => x.1 ≤ p ∧ p < x.1 + x.2)).map (· - x.1), false, false⟩)

/-- Bytes written at a destination offset: plain stores through the task, or requests to a window (R157, R158, R172); the offset of a bound fault
otherwise. -/
def Chip.storeAt (c : Chip) (st : Nat) (r : Run) (o : Nat) (m : Marked) (cid : Nat) : Except Nat (List Store × List WReq) :=
  let d := r.desc
  if dmDst d = 3 then .ok ([], writeReqs (rwDie o) (rwWin o) (rwOff o) m.bytes m.bad cid)
  else
    match c.xlateW st r.task (dmDst d) o m.length with
    | none => .error o
    | some a => .ok (linesOf a m.bytes m.bad, [])

/-- Every run written to its destination in order (R158). -/
def Chip.storeRuns (c : Chip) (st : Nat) (r : Run) (cid : Nat) : List (Nat × Marked) → List Store → List WReq → Except Nat (List Store × List WReq)
  | [], ss, qs => .ok (ss, qs)
  | (o, m) :: rest, ss, qs =>
    match c.storeAt st r o m cid with
    | .error e => .error e
    | .ok x => c.storeRuns st r cid rest (ss ++ x.1) (qs ++ x.2)

/-- Runs of step `i3` with their destinations (R158, R159). -/
def destRuns (d i3 : Nat) (runs : List Marked) : List (Nat × Marked) :=
  ((runIx d).zip (transposeRuns (dmXpose d) runs)).map (fun x => (dstAt d x.1.1 x.1.2 i3, x.2))

/-- The contribution of a command's writes to its window: begun with its first write (R229); its key + 1, 0 without one. -/
def Chip.writeContrib (c : Chip) (st : Nat) (r : Run) : Nat × Chip :=
  let d := r.desc
  if dmDst d ≠ 3 || rwDie (dmDstOff d) = stDie st then (0, c)
  else
    let x := c.openContrib (stDie st) (rwDie (dmDstOff d)) (c.jobPart (dJob d)) (dJob d)
    (conKey (rwDie (dmDstOff d)) (stDie st) x.1 + 1, x.2)

/-- What a command has formed for its destination is issued, and its inputs are read. -/
def Chip.issueWrites (c : Chip) (st : Nat) (r : Run) (cid : Nat) (x : Except Nat (List Store × List WReq)) (n : Nat) (fin : Run → Run) : Chip :=
  let k := stKey st 0
  match x with
  | .error o => c.boundFault k r (c.faultCode st r.task (dmDst r.desc) o (dmLen r.desc)) o 0
  | .ok y =>
    let c1 := (c.moved st n).busy st (max 1 (cdiv n 160))
    (c1.setRun k (fin { r with stores := r.stores ++ y.1, reqs := r.reqs ++ y.2 })).sendReqs (stDie st) (c.jobPart (dJob r.desc)) ((cid - 1) % 8192) y.2

/-- Every run of a command in order, dimension 1 innermost (R158). -/
def copyIx (d : Nat) : List (Nat × Nat × Nat) := (List.range (dmCnt3 d)).flatMap (fun i3 => (runIx d).map (fun x => (x.1, x.2, i3)))

/-- Blocks of runs of a copy in memory moved one after another: each is read, transposed where xpose asks for it, and stored before the next (R158, R159). What the stores and requests
are; or the region and offset of a bound fault. -/
def Chip.copyBlocks (c : Chip) (st : Nat) (r : Run) (ups : Upsets) (cid : Nat) :
    List (List (Nat × Nat × Nat)) → List Store → List WReq → Chip × Except (Nat × Nat) (List Store × List WReq)
  | [], ss, qs => (c, .ok (ss, qs))
  | blk :: rest, ss, qs =>
    let d := r.desc
    let x := c.readRuns st r ups ss blk []
    match x.2 with
    | .error o => (x.1, .error (dmSrc d, o))
    | .ok runs =>
      let out := (blk.zip (transposeRuns (dmXpose d) runs)).map (fun y => (dstAt d y.1.1 y.1.2.1 y.1.2.2, y.2))
      match x.1.storeRuns st r cid out [] [] with
      | .error o => (x.1, .error (dmDst d, o))
      | .ok y => x.1.copyBlocks st r ups cid rest (ss ++ y.1) (qs ++ y.2)

/-- Every step of dimension 3 of a copy from a window or a stream, or toward a stream: runs with destinations (R158, R160). -/
def Chip.copySteps (c : Chip) (st : Nat) (r : Run) (ups : Upsets) : List Nat → List (Nat × Marked) → Chip × Except Nat (List (Nat × Marked))
  | [], acc => (c, .ok acc)
  | i3 :: rest, acc =>
    let x := c.stepData st r ups i3
    match x.2 with
    | .error o => (x.1, .error o)
    | .ok y => x.1.copySteps st r ups rest (acc ++ destRuns r.desc i3 y)

/-- The stream that a comp 2 command writes at its destination (R160); poison in its data marks all of it (log 24). -/
def streamOut (d : Nat) (data : Bytes) (pois : Bool) : List (Nat × Marked) := [(dmDstOff d, (zCompress data).map (fun b => (b, pois)))]

/-- The runs of a command as it writes them; the length of a stream waits for the command's end (R160, R164). -/
def Chip.writeOut (c : Chip) (st : Nat) (r : Run) (cid : Nat) (out : List (Nat × Marked)) (n : Nat) (fin : Run → Run) : Chip :=
  let r1 := if dmComp r.desc = 2 then { r with acc := [(out.map (fun x => x.2.length)).sum] } else r
  c.issueWrites st r1 cid (c.storeRuns st r cid out [] []) n fin

/-- A command that has moved all its data. -/
def Run.movedAll (r : Run) : Run := { r with begun := true, made := 1, inDone := true }

/-- The data of a copy from a window, from a stream or toward one, written to its destination (R158, R160). -/
def Chip.copyOut (c : Chip) (st : Nat) (r : Run) (runs : List (Nat × Marked)) : Chip :=
  let d := r.desc
  let w := c.writeContrib st r
  let out := if dmComp d = 2 then streamOut d (runs.flatMap (fun x => x.2.bytes)) (runs.any (fun x => !x.2.bad.isEmpty)) else runs
  w.2.writeOut st r w.1 out (srcTotal d) Run.movedAll

/-- Whether a command finds the adapter FIFO toward its window's die full (R54, R162). -/
def Chip.windowFull (c : Chip) (st : Nat) (r : Run) : Bool :=
  let d := r.desc
  (dOp d != 3 && dmSrc d == 3 && !r.asked && c.linkFull (stDie st) (rwDie (dmSrcOff d))) || (dOp d != 2 && dmDst d == 3 && c.linkFull (stDie st) (rwDie (dmDstOff d)))

/-- A copy's move: run by run from memory (R158), or with the whole of a window's data or of a stream in hand (log 23). -/
def Chip.copyMove (c : Chip) (st : Nat) (r : Run) (ups : Upsets) : Chip :=
  let d := r.desc
  let k := stKey st 0
  if dmComp d = 0 ∧ dmSrc d ≠ 3 then
    let w := c.writeContrib st r
    let x := w.2.copyBlocks st r ups w.1 (chunks (if dmXpose d = 0 then 1 else 64) (copyIx d)) [] []
    match x.2 with
    | .error e => x.1.boundFault k r (x.1.faultCode st r.task e.1 e.2 (dmLen d)) e.2 0
    | .ok y => x.1.issueWrites st r w.1 (.ok y) (srcTotal d) Run.movedAll
  else
    let x := c.copySteps st r ups (List.range (dmCnt3 d)) []
    match x.2 with
    | .error o => x.1.boundFault k r (x.1.faultCode st r.task (dmSrc d) o (dmLen d)) o 0
    | .ok runs => x.1.copyOut st r runs

/-- DM_COPY (R154–R160, R185, R204): a window source is asked for first, and poisoned words move as poison. -/
def Chip.dmCopy (c : Chip) (st : Nat) (ups : Upsets) : Chip :=
  match c.dmRun st 1 with
  | none => c
  | some r =>
    if dmLen r.desc = 0 then c.setRun (stKey st 0) r.movedAll
    else if c.windowFull st r then c.stall st 7 1
    else if r.wantsSource then c.askSource st r
    else c.copyMove st r ups

/-- The tile that a load forms from a step's runs (R158–R160, R235). -/
def Chip.loadTile (c : Chip) (st : Nat) (r : Run) (runs : List Marked) : Chip :=
  let d := r.desc
  let data := (transposeRuns (dmXpose d) runs).flatMap Marked.bytes
  let bad := runs.any (fun m => !m.bad.isEmpty)
  let z := if dmComp d = 2 then zTry data else (data, false)
  -- data read from memory marks every later tile of the command, refused remote data only the tile that would have held it
  let r1 := { r with pois := r.pois || (dmSrc d != 3 && bad) }
  let t : OutTile := { k := 0, fmt := dmFmt d, lay := dmLay d, h := dmH d, w := dmW d, c := dmC d, n := 1, zcomp := z.2, data := z.1,
                       pois := bad, cids := if dmSrc d = 3 then r.cids else [] }
  ((c.moved st data.length).busy st (max 1 (cdiv data.length 160))).setRun (stKey st 0) ((r1.emit t).advance r.made)

/-- DM_LOAD (R156–R160, R235): the next tile of out_q0; a tile of remote data carries that data's contribution, and refused or poisoned data mark it. -/
def Chip.dmLoad (c : Chip) (st : Nat) (ups : Upsets) : Chip :=
  match c.dmRun st 2 with
  | none => c
  | some r =>
    let d := r.desc
    let k := stKey st 0
    if dmLen d = 0 then c.setRun k { r.closeOuts with begun := true, inDone := true }
    else if c.windowFull st r then c.stall st 7 1
    else if r.wantsSource then c.askSource st r
    else
      let x := c.stepData st r ups r.made
      match x.2 with
      | .error o => x.1.boundFault k r (x.1.faultCode st r.task (dmSrc d) o (dmLen d)) o 0
      | .ok y => x.1.loadTile st r y

/-- A tile's data gathered toward one stream; the last writes it (R160). -/
def Chip.gatherTile (c : Chip) (st : Nat) (r : Run) (t : InTile) (m : Marked) : Chip :=
  let d := r.desc
  let r1 := { r with buf := r.buf ++ m.bytes, pois := r.pois || !m.bad.isEmpty }
  if dTiles d ≤ r.made + 1 then
    let w := c.writeContrib st r1
    w.2.writeOut st r1 w.1 (streamOut d r1.buf r1.pois) m.length (fun r => r.advance t.ord)
  else (c.moved st m.length).setRun (stKey st 0) (r1.advance t.ord)

/-- A tile's data written to its runs (R158): its contribution begins with the command's first write (R229). -/
def Chip.storeTile (c : Chip) (st : Nat) (r : Run) (t : InTile) (m : Marked) : Chip :=
  let d := r.desc
  let w := if r.cids.isEmpty then c.writeContrib st r else (r.cids.headD 0 + 1, c)
  let r1 := { r with cids := if w.1 = 0 then [] else [w.1 - 1] }
  w.2.writeOut st r1 w.1 (destRuns d t.ord (chunks (max 1 (dmLen d)) m)) m.length (fun r => r.advance t.ord)

/-- DM_STORE (R157–R160): the next tile of in_q0, expanded where it is compressed, goes to its runs; comp 2 gathers all tiles into one stream. -/
def Chip.dmStore (c : Chip) (st : Nat) : Chip :=
  match c.dmRun st 3 with
  | none => c
  | some r =>
    let k := stKey st 0
    if dmLen r.desc = 0 then c.setRun k { r with begun := true, inDone := true }
    else if c.windowFull st r then c.stall st 7 1
    else
      match r.nextIn with
      | none => c.stall st 6 1
      | some t =>
        let rd := c.payload t
        let m := if hZcomp t.hdr then (expandTile t.hdr rd.2.1).map (fun b => (b, !rd.2.2.isEmpty)) else marked rd.2.1 rd.2.2
        if dmComp r.desc = 2 then rd.1.gatherTile st r t m else rd.1.storeTile st r t m

/-- DM_COPY. -/
def execDmCopy (st : Stn) (ups : Upsets) (s : State) : Host.Outcome State Fault Refusal := .next { s with chip := s.chip.work (·.dmCopy st ups) }
/-- DM_LOAD. -/
def execDmLoad (st : Stn) (ups : Upsets) (s : State) : Host.Outcome State Fault Refusal := .next { s with chip := s.chip.work (·.dmLoad st ups) }
/-- DM_STORE. -/
def execDmStore (st : Stn) (s : State) : Host.Outcome State Fault Refusal := .next { s with chip := s.chip.work (·.dmStore st) }

end Sys2Proof.Machine
end

