-- ==== Sys2Proof/Machine/Exchange.lean ====
section
/-! DEFINITION. Machine/Exchange.lean: the XD commands: puts and gets, collectives, windows (R178–R183, R240–R245). A collective's command is invoked as its
data move: each invocation sends what it may send and forms the next output tile whose parts are there. -/
namespace Sys2Proof.Machine

/-- Station key of the XD of die `d` for the list of partition `p` (R31). -/
def xdKey (d p : Nat) : Nat := stKey (d * 128 + 97) p

/-- The newest command of an XD's list, if it runs opcode `op` and still works. -/
def Chip.xdRun (c : Chip) (k op : Nat) : Option Run :=
  (c.curRun k).filter (fun r => dType r.desc == 6 && dOp r.desc == op && !r.inDone && r.status == 0)

/-- Fabric cycles for `n` bytes at the rate of an XD (R230): 51.2 GB/s at 1.2 GHz. -/
def xdCycles (n : Nat) : Nat := cdiv (3 * n) 128

/-- The command has done its work. -/
def Run.over (r : Run) : Run := { r with begun := true, inDone := true, made := 1 }

/-! ### Puts and gets -/

/-- XD_PUT (R240, R229): the local bytes leave as write requests of one contribution, beside those of the other partitions' lists (R230). -/
def Chip.xdPut (c : Chip) (k : Nat) (ups : Upsets) : Chip :=
  match c.xdRun k 1 with
  | none => c
  | some r =>
    let d := r.desc
    let st := k / 4
    match c.xlate st r.task (xdRegion d) (xdLocOff d) (xdLen d) with
    | none => c.boundFault k r (c.faultCode st r.task (xdRegion d) (xdLocOff d) (xdLen d)) (xdLocOff d) 0
    | some a =>
      if c.linkFull (stDie st) (xdPeer d) then c.stall st 7 1 else
      let rd := c.readTask (c.readerOf st d) ups a (xdLen d)
      let part := c.jobPart (dJob d)
      let x := rd.1.openContrib (stDie st) (xdPeer d) part (dJob d) true
      let qs := writeReqs (xdPeer d) (xdWin d) (xdWinOff d) rd.2.1 rd.2.2 (conKey (xdPeer d) (stDie st) x.1 + 1)
      (((x.2.busyXd st (k % 4) (xdCycles (xdLen d))).setRun k { r.over with reqs := r.reqs ++ qs }).sendReqs (stDie st) part x.1 qs).shareOut (stDie st)

/-- Plain stores of the pieces of a get that were not refused (R185). -/
def getStores (r : Run) (a : Nat) : List Store :=
  ((pieces (xdLen r.desc)).filter (fun p => !r.acc2.contains p.1)).flatMap fun p =>
    linesOf (a + p.1) (slice r.buf p.1 p.2) ((r.bufPois.filter (fun o => p.1 ≤ o ∧ o < p.1 + p.2)).map (· - p.1))

/-- XD_GET (R240, R56): the window's bytes are asked for, and once they are there they go to the local region as plain stores. -/
def Chip.xdGet (c : Chip) (k : Nat) : Chip :=
  match c.xdRun k 2 with
  | none => c
  | some r =>
    let d := r.desc
    let st := k / 4
    if !r.asked && c.linkFull (stDie st) (xdPeer d) then c.stall st 7 1
    else if !r.asked then
      let qs := readReqs ((xdPeer d) <<< 33 + (xdWin d) <<< 27 + xdWinOff d) (xdLen d) 0
      (c.setRun k { r with asked := true, begun := true, reqs := r.reqs ++ qs }).sendReqs (stDie st) (c.jobPart (dJob d)) 0 qs
    else if !r.reqs.isEmpty || !r.rets.isEmpty then c
    else
      match c.xlateW st r.task (xdRegion d) (xdLocOff d) (xdLen d) with
      | none => c.boundFault k r (c.faultCode st r.task (xdRegion d) (xdLocOff d) (xdLen d)) (xdLocOff d) 0
      | some a => (c.busyXd st (k % 4) (xdCycles (xdLen d))).setRun k { r.over with stores := r.stores ++ getStores r a }

/-! ### Collectives -/

/-- Rank of die `x` among a collective's members (R240). -/
def xdRank (d x : Nat) : Nat := (xdMembers d).idxOf x
/-- Number of members. -/
def xdP (d : Nat) : Nat := (xdMembers d).length
/-- Tiles of a group. -/
def xdGroup (d : Nat) : Nat := dTiles d / max 1 (xdP d)

/-- The members that input tile `n` of member `me` goes to, with the output slot that it belongs to there (R240). -/
def collRoutes (d me n : Nat) : List (Nat × Nat) :=
  match dOp d with
  | 3 => ((xdMembers d).filter (· != xdPeer d)).map (fun m => (m, n))
  | 4 => (xdMembers d).map (fun m => (m, xdRank d me * dTiles d + n))
  | 5 => [((xdMembers d).getD (n / max 1 (xdGroup d)) 0, n % max 1 (xdGroup d))]
  | _ => [((xdMembers d).getD (n / max 1 (xdGroup d)) 0, n)]

/-- Tiles that one member sends another in a collective (R229, R240). -/
def collSends (d : Nat) : Nat :=
  match dOp d with
  | 3 => dTiles d
  | 4 => dTiles d
  | 5 => xdGroup d
  | _ => 2 * xdGroup d

/-- Whether member `m` has claimed the slot of output tile `slot`, so that its credit is out (R243). -/
def Chip.collCredit (c : Chip) (r : Run) (p m slot : Nat) : Bool :=
  (c.station (xdKey m p)).runs.any (fun x => dJob x.desc == dJob r.desc && isColl x.desc && xdColl x.desc == xdColl r.desc && decide (slot < x.pos))

/-- A tile that has reached a member (R243). -/
def Chip.collAdd (c : Chip) (m : CollMsg) : Chip := { c with lnk := { c.lnk with coll := c.lnk.coll ++ [m] } }

/-- The contribution of a pair of members, begun with its first tile (R229): its key comes last. -/
def Chip.collContrib (c : Chip) (r : Run) (me m : Nat) : Chip × Run × Nat :=
  match r.cids.find? (fun k => k / 65536 == m) with
  | some key => (c, r, key)
  | none =>
    let x := c.openContrib me m (c.jobPart (dJob r.desc)) (dJob r.desc) true
    (x.2, { r with cids := r.cids ++ [conKey m me x.1] }, conKey m me x.1)

/-- out_q0 of member `m`'s command of a collective. -/
def Chip.collQueue (c : Chip) (r : Run) (p m : Nat) : Nat :=
  (((c.station (xdKey m p)).runs.find? (fun x => dJob x.desc == dJob r.desc && isColl x.desc && xdColl x.desc == xdColl r.desc)).map (fun x => dOutQ x.desc 0)).getD (dOutQ r.desc 0)

/-- A tile carried by the contribution of key `key` from `me` to `m`, its poisoned words marked; the trailer follows the last (R189, R225, R229, R243). -/
def Chip.collCarry (c : Chip) (r : Run) (me m slot key : Nat) (t : OutTile) : Chip :=
  let d := r.desc
  let part := c.jobPart (dJob d)
  let num := key % 8192
  let hdr := mkHdr { outHdr r t c.turn32 part slot with contrib := me <<< 13 + num }
  let bytes := toLE 32 hdr ++ t.data
  let sum := isumTile t.fmt t.lay t.h t.w t.c t.n (expandTile hdr t.data)
  let x := (c.contrib key).carry bytes (some (t.fmt, sum))
  let c1 := (c.setContrib key x).sendData { ty := 0xA, src := me, dst := m, part := part, target := c.collQueue r part m, offset := slot, contrib := num } bytes (t.badAt.map (· + 32))
  if collSends d ≤ x.tiles then c1.sendTrailer me m part num else c1

/-- One tile of a collective on its way from `me` to `m`; a member's own stays local (R229, R243). -/
def Chip.collPut (c : Chip) (r : Run) (me m phase slot : Nat) (t : OutTile) : Chip × Run :=
  let d := r.desc
  if m = me then (c.collAdd ⟨m, me, dJob d, xdColl d, phase, slot, 0, t⟩, r)
  else
    let o := c.collContrib r me m
    ((o.1.collCarry r me m slot o.2.2 t).collAdd ⟨m, me, dJob d, xdColl d, phase, slot, o.2.2 + 1, t⟩, o.2.1)

/-- Input tile `n` sent to one of its members, once and when the member's credit is out; `acc` remembers tile × 8 + member. -/
def collSendTo (k n : Nat) (tile : OutTile) (s : Chip × Run) (m : Nat × Nat) : Chip × Run :=
  if s.2.acc.contains (n * 8 + m.1) || !s.1.collCredit s.2 (k % 4) m.1 m.2 then s
  else if s.1.linkFull (stDie (k / 4)) m.1 then (s.1.stall (k / 4) 7 1, s.2)
  else
    let y := s.1.collPut s.2 (stDie (k / 4)) m.1 1 m.2 tile
    (y.1.busyXd (k / 4) (k % 4) (xdCycles tile.data.length), { y.2 with acc := y.2.acc ++ [n * 8 + m.1] })

/-- Everything of one input tile that may be sent now; poison in its payload marks the command's later output tiles too (R45). -/
def Chip.collSendTile (c : Chip) (k : Nat) (r : Run) (t : InTile) : Chip × Run :=
  let rd := c.payload t
  let tile : OutTile := { k := 0, fmt := hFmt t.hdr, lay := hLay t.hdr, h := hH t.hdr, w := hW t.hdr, c := hC t.hdr, n := hN t.hdr,
                          zcomp := hZcomp t.hdr, pois := !rd.2.2.isEmpty, prov := t.prov, data := rd.2.1, badAt := rd.2.2 }
  let routes := collRoutes r.desc (stDie (k / 4)) t.ord
  let x := routes.foldl (collSendTo k t.ord tile) (rd.1, { r with pois := r.pois || !rd.2.2.isEmpty })
  let done := routes.all (fun m => x.2.acc.contains (t.ord * 8 + m.1))
  (x.1, if done then { x.2 with ins := x.2.ins.map (fun y => if y.ord == t.ord then { y with used := true } else y) } else x.2)

/-- Everything that a member may send now. -/
def Chip.collSend (c : Chip) (k : Nat) (r : Run) : Chip × Run :=
  (r.ins.filter (fun t => !t.used)).foldl (fun (s : Chip × Run) t => s.1.collSendTile k s.2 t) (c, r)

/-- Elements of 4 bytes. -/
def words4 (b : Bytes) : List Nat := (chunks 4 b).map fromLE

/-- Tiles reduced element by element in the order given: INT32 modulo 2^32, FP32 to nearest even (R244). -/
def reduceTiles (fmt : Nat) : List Bytes → List Nat
  | [] => []
  | b :: t => t.foldl (fun s x => (s.zip (words4 x)).map (fun e => if fmt = 6 then (e.1 + e.2) % 2 ^ 32 else fadd e.1 e.2)) (words4 b)

/-- Messages of this command's collective at member `me` for an output slot. -/
def Chip.collMsgs (c : Chip) (r : Run) (me phase slot : Nat) : List CollMsg :=
  c.lnk.coll.filter (fun m => m.dst == me && m.job == dJob r.desc && m.coll == xdColl r.desc && m.phase == phase && m.slot == slot)

/-- The chip without those messages. -/
def Chip.collTake (c : Chip) (ms : List CollMsg) : Chip := { c with lnk := { c.lnk with coll := c.lnk.coll.filter (fun m => !ms.contains m) } }

/-- Messages in arrival order `ord` of their senders' ranks, any that it leaves out following (R244). -/
def collOrder (d : Nat) (ord : List Nat) (ms : List CollMsg) : List CollMsg :=
  let first := (ord.eraseDups).filterMap (fun i => ms.find? (fun m => xdRank d m.src == i))
  first ++ ms.filter (fun m => !first.contains m)

/-- contrib_id of the contribution that completed a tile (R243). -/
def collId (ms : List CollMsg) : Nat :=
  match (ms.filter (fun m => m.cid != 0)).getLast? with
  | some m => m.src <<< 13 + (m.cid - 1) % 8192
  | none => 0

/-- An output tile made of messages, with the data given (R45, R235, R243). -/
def collTile (ms : List CollMsg) (data : Bytes) : OutTile :=
  let t := (ms.head?.map (·.tile)).getD { k := 0 }
  { t with k := 0, data := data, badAt := (ms.flatMap (·.tile.badAt)).eraseDups, pois := ms.any (·.tile.pois), prov := ms.any (·.tile.prov), contrib := collId ms,
           cids := (ms.flatMap (fun m => (if m.cid = 0 then [] else [m.cid - 1]) ++ m.tile.cids)).eraseDups }

/-- The tiles of an integer group that are still FULL are rewritten with POISON (R245): seq of the group's first written tile and one past its last. -/
def Chip.poisonGroup (c : Chip) (q lo hi : Nat) : Chip :=
  eachDo ((c.queue q).slots.filter (fun s => s.2.st == .full)) (fun s c =>
    let seq := hSeq (fromLE (c.peek (c.slotAddr q s.1) 32))
    if lo ≤ seq ∧ seq < hi then c.rewriteHdr q s.1 setPoison else c) c

/-- A failed check of a group: status, the group's tiles poisoned, the command POISONED (R245). -/
def Chip.groupBad (c : Chip) (k : Nat) (r : Run) (lo hi : Nat) : Chip :=
  let die := stDie (k / 4)
  let q := dOutQ r.desc 0
  let base := (c.queue q).pseq - (r.made - (r.outs.filter (fun t => !t.eos)).length)
  let j := dJob r.desc
  ((((c.xdLatch die die 0 (c.jobPart j) j 0).raise die xdBlk 2 0x01)).poisonGroup q (base + lo) (base + hi)).endPoisoned k r stPoisoned

/-- The check of R245 for a complete integer group: `acc2` holds the sum of the parts and the sum of the tiles. -/
def Chip.groupCheck (c : Chip) (k : Nat) (r : Run) (lo hi : Nat) : Chip :=
  if xdElem r.desc ≠ 6 ∨ r.acc2.getD 0 0 = r.acc2.getD 1 0 then c.setRun k r else c.groupBad k r lo hi

/-- The elements' bytes of a message's tile, expanded where it is zero-compressed (R123, R244). -/
def CollMsg.plain (m : CollMsg) : Bytes :=
  let t := m.tile
  if t.zcomp then zExpand (packedSize t.fmt t.lay t.h t.w t.c t.n) t.data else t.data

/-- The reduced tile of `ms` (R244), its elements' sums noted for R245; `flt` is a fault of the adder: the element whose sum it changes, and the bits. -/
def Run.reduce (r : Run) (ms : List CollMsg) (flt : Option (Nat × BitVec 32)) : Run × OutTile :=
  let d := r.desc
  let right := reduceTiles (xdElem d) (ms.map (·.plain))
  let out := match flt with
    | some f => right.zipIdx.map (fun x => if x.2 = f.1 then x.1 ^^^ f.2.toNat else x.1)
    | none => right
  let parts := sum32 (ms.map (fun m => sum32 (words4 m.plain)))
  ({ r with acc2 := [(r.acc2.getD 0 0 + parts) % 2 ^ 32, (r.acc2.getD 1 0 + sum32 out) % 2 ^ 32] }, { collTile ms (out.flatMap (toLE 4)) with zcomp := false })

/-- The run after it has formed an output tile. -/
def Run.formed (r : Run) (t : OutTile) : Run := { r.emit t with made := r.made + 1 }

/-- Reduced tiles of the own group that an XD_ALLREDUCE still has to send to the other members. -/
def Chip.collHeld (c : Chip) (r : Run) (me : Nat) : List CollMsg :=
  c.lnk.coll.filter (fun m => m.dst == me && m.src == me && m.job == dJob r.desc && m.coll == xdColl r.desc && m.phase == 3)

/-- A reduced tile sent to one other member, once and when the member's credit is out. -/
def collGatherTo (k : Nat) (m : CollMsg) (s : Chip × Run) (o : Nat) : Chip × Run :=
  let code := (dTiles s.2.desc + m.slot) * 8 + o
  if s.2.acc.contains code || !s.1.collCredit s.2 (k % 4) o m.slot then s
  else if s.1.linkFull (stDie (k / 4)) o then (s.1.stall (k / 4) 7 1, s.2)
  else
    let y := s.1.collPut s.2 (stDie (k / 4)) o 2 m.slot m.tile
    (y.1, { y.2 with acc := y.2.acc ++ [code] })

/-- The reduced tiles of a complete group sent to the members whose credit is out (R240, R243). -/
def Chip.collGather (c : Chip) (k : Nat) (r : Run) : Chip × Run :=
  let me := stDie (k / 4)
  let held := c.collHeld r me
  if held.length < xdGroup r.desc then (c, r)
  else held.foldl (fun s m => ((xdMembers r.desc).filter (· != me)).foldl (collGatherTo k m) s) (c, r)

/-- An output tile reduced from the parts `ms` of every member (R243, R244); the tiles of the own group of an XD_ALLREDUCE are kept for the other members. -/
def Chip.collReduce (c : Chip) (k : Nat) (r : Run) (ms : List CollMsg) (ord : List Nat) (flt : Option (Nat × BitVec 32)) : Chip :=
  let d := r.desc
  let me := stDie (k / 4)
  let g := xdGroup d
  let x := r.reduce (collOrder d ord ms) flt
  let c1 := c.collTake ms
  let c2 := if dOp d = 6 then c1.collAdd ⟨me, me, dJob d, xdColl d, 3, r.made, 0, x.2⟩ else c1
  let r1 := x.1.formed x.2
  let lo := if dOp d = 6 then xdRank d me * g else 0
  if r.made + 1 = lo + g then c2.groupCheck k r1 lo (lo + g) else c2.setRun k r1

/-- The next output tile of a collective, where its parts are there (R240, R243, R244). -/
def Chip.collForm (c : Chip) (k : Nat) (r : Run) (ord : List Nat) (flt : Option (Nat × BitVec 32)) : Chip :=
  let d := r.desc
  let me := stDie (k / 4)
  let slot := r.made
  let g := xdGroup d
  let mine := xdRank d me * g
  if collOuts d me ≤ slot ∨ r.pos ≤ slot then c.setRun k r
  else if dOp d = 5 ∨ (dOp d = 6 ∧ mine ≤ slot ∧ slot < mine + g) then
    if (c.collMsgs r me 1 slot).length < xdP d then c.setRun k r else c.collReduce k r (c.collMsgs r me 1 slot) ord flt
  else
    match c.collMsgs r me (if dOp d = 6 then 2 else 1) slot with
    | [] => c.setRun k r
    | m :: _ => (c.collTake [m]).setRun k (r.formed (collTile [m] m.tile.data))

/-- The end of a collective's work: every input tile sent, every output tile formed, every reduced tile gathered; the command's EOS markers follow (R60, R63). -/
def Chip.collEnd (c : Chip) (k : Nat) : Chip :=
  match (c.curRun k).filter (fun r => !r.inDone && isColl r.desc && r.status == 0) with
  | none => c
  | some r =>
    let d := r.desc
    let me := stDie (k / 4)
    let sent := dNin d == 0 || (r.taken == dTiles d && r.ins.all (·.used))
    let codes := (c.collHeld r me).length * (xdP d - 1)
    let gathered := dOp d != 6 || decide ((r.acc.filter (fun x => dTiles d * 8 ≤ x)).length = codes)
    if sent && decide (r.made = collOuts d me) && gathered then
      let c1 := c.collTake (c.collHeld r me)
      c1.setRun k { r.closeOuts with begun := true, inDone := true }
    else c

/-- One invocation of a collective, its flits beside those of the other partitions' lists (R230). -/
def Chip.collective (c : Chip) (k op : Nat) (ord : List Nat) (flt : Option (Nat × BitVec 32)) : Chip :=
  match c.xdRun k op with
  | none => c
  | some r =>
    let s := c.collSend k { r with begun := true }
    let g := if op = 6 then s.1.collGather k s.2 else s
    ((g.1.collForm k g.2 ord flt).collEnd k).shareOut (stDie (k / 4))

/-! ### Windows -/

/-- The window table entry of die `die` that an XD_WOPEN descriptor `d` opens at device address `a` (R178, R181, R186). -/
def Chip.putWindow (c : Chip) (die a d : Nat) : Chip :=
  let w := winBlk (xwWin d)
  let loc := a % 2 ^ 44
  let c1 := ((c.setReg die w (loc % 2 ^ 32)).setReg die (w + 4) (loc >>> 32 + (xwRegion d) <<< 12)).setReg die (w + 8) (xwSize d)
  c1.setReg die (w + 0xC)
    (1 + (xwPerm d) <<< 1 + (bits (c.reg die (w + 0xC)) 3 3) <<< 3 + (xwSrc d) <<< 4 + (c.jobPart (dJob d)) <<< 12 + (dJob d % 64) <<< 14)

/-- XD_WOPEN (R178, R181): the entry of the window table is written and the command completes; a window
past the task's bound is a bound fault (R172), and one of size 0 is rejected with status WINDOW_CLOSED (R71). -/
def Chip.xdWopen (c : Chip) (k : Nat) : Chip :=
  match c.xdRun k 0x10 with
  | none => c
  | some r =>
    let d := r.desc
    let st := k / 4
    if xwSize d = 0 then c.setRun k { r.over with closed := true }
    else
    match c.xlateW st r.task (xwRegion d) (xwOff d) (xwSize d) with
    | none => c.boundFault k r (c.faultCode st r.task (xwRegion d) (xwOff d) (xwSize d)) (xwOff d) 0
    | some a =>
      ((c.putWindow (stDie st) a d).busyXd st (k % 4) 1).setRun k r.over

/-- A window closed at its close point (R182): open clear, closed earlier in this turn set. -/
def Chip.closeWindow (c : Chip) (d w : Nat) : Chip :=
  let off := winBlk w + 0xC
  if bit (c.reg d off) 0 then (c.setFld d off 0 0 0).setFld d off 3 3 1 else c

/-- XD_WCLOSE (R182): the close point. -/
def Chip.xdWclose (c : Chip) (k : Nat) : Chip :=
  match c.xdRun k 0x11 with
  | none => c
  | some r =>
    if r.begun then c
    else ((c.closeWindow (stDie (k / 4)) (xwWin r.desc)).busyXd (k / 4) (k % 4) 1).setRun k { r with begun := true }

/-- XD_WCLOSE_COMPLETE (R182): every write accepted before the close point is in memory, so the command is over. -/
def Chip.xdWcloseComplete (c : Chip) (k : Nat) : Chip :=
  match (c.xdRun k 0x11).filter (·.begun) with
  | none => c
  | some r => c.setRun k r.over

/-- XD_PUT. -/
def execXdPut (d : CDie) (p : Part) (ups : Upsets) (s : State) : Host.Outcome State Fault Refusal :=
  .next { s with chip := s.chip.work (·.xdPut (xdKey (d + 1) p) ups) }
/-- XD_GET. -/
def execXdGet (d : CDie) (p : Part) (s : State) : Host.Outcome State Fault Refusal := .next { s with chip := s.chip.work (·.xdGet (xdKey (d + 1) p)) }
/-- XD_BCAST. -/
def execXdBcast (d : CDie) (p : Part) (s : State) : Host.Outcome State Fault Refusal :=
  .next { s with chip := s.chip.work (·.collective (xdKey (d + 1) p) 3 [] none) }
/-- XD_ALLGATHER. -/
def execXdAllgather (d : CDie) (p : Part) (s : State) : Host.Outcome State Fault Refusal :=
  .next { s with chip := s.chip.work (·.collective (xdKey (d + 1) p) 4 [] none) }
/-- XD_REDSCAT. -/
def execXdRedscat (d : CDie) (p : Part) (ord : List (Fin 7)) (flt : Option (Nat × BitVec 32)) (s : State) : Host.Outcome State Fault Refusal :=
  .next { s with chip := s.chip.work (·.collective (xdKey (d + 1) p) 5 (ord.map (·.val)) flt) }
/-- XD_ALLREDUCE. -/
def execXdAllreduce (d : CDie) (p : Part) (ord : List (Fin 7)) (flt : Option (Nat × BitVec 32)) (s : State) : Host.Outcome State Fault Refusal :=
  .next { s with chip := s.chip.work (·.collective (xdKey (d + 1) p) 6 (ord.map (·.val)) flt) }
/-- XD_WOPEN. -/
def execXdWopen (d : CDie) (p : Part) (s : State) : Host.Outcome State Fault Refusal := .next { s with chip := s.chip.work (·.xdWopen (xdKey (d + 1) p)) }
/-- XD_WCLOSE. -/
def execXdWclose (d : CDie) (p : Part) (s : State) : Host.Outcome State Fault Refusal := .next { s with chip := s.chip.work (·.xdWclose (xdKey (d + 1) p)) }
/-- XD_WCLOSE_COMPLETE. -/
def execXdWcloseComplete (d : CDie) (p : Part) (s : State) : Host.Outcome State Fault Refusal :=
  .next { s with chip := s.chip.work (·.xdWcloseComplete (xdKey (d + 1) p)) }

end Sys2Proof.Machine
end

