-- ==== Sys2Proof/Machine/Matrix.lean ====
section
/-! DEFINITION. Machine/Matrix.lean: the matrix arrays of a core: passes, weight loads, vectors and row writes with their checks (R72–R107). -/
namespace Sys2Proof.Machine

/-- An MX station's arrays. -/
def Chip.mxOf (c : Chip) (st : Nat) : Mx := tabGet {} c.cmp.mx st
/-- The chip with those arrays. -/
def Chip.setMx (c : Chip) (st : Nat) (v : Mx) : Chip := { c with cmp := { c.cmp with mx := tabSet {} c.cmp.mx st v } }
/-- A WF's progress and vector buffer. -/
def Chip.wfOf (c : Chip) (st : Nat) : Wf := tabGet {} c.cmp.wf st
/-- The chip with that WF. -/
def Chip.setWf (c : Chip) (st : Nat) (v : Wf) : Chip := { c with cmp := { c.cmp with wf := tabSet {} c.cmp.wf st v } }
/-- Key of row `r` of array `a` of the core whose MX is `st`. -/
def rowKey (st a r : Nat) : Nat := (st * 4 + a) * 1024 + r
/-- A drain-store row's state. -/
def Chip.row (c : Chip) (st a r : Nat) : Row := tabGet {} c.cmp.rows (rowKey st a r)
/-- The chip with that row state. -/
def Chip.setRow (c : Chip) (st a r : Nat) (v : Row) : Chip :=
  { c with cmp := { c.cmp with rows := tabSet {} c.cmp.rows (rowKey st a r) v } }
/-- Arrays of a pass, ascending. -/
def mxArrays (d : Nat) : List Nat := bitList 4 (mxMask d)

/-- MX_PASS (R82): the station takes its next MX_PASS command. -/
def Chip.mxPass (c : Chip) (st : Nat) : Chip :=
  match c.curRun (stKey st 0) with
  | none => c
  | some r => if r.begun || dType r.desc != 1 || dOp r.desc != 1 then c else c.setRun (stKey st 0) { r with begun := true }

/-- A weight tile acquired: its slot, what its array holds and the outcome. -/
structure Taken where
  slot : Nat
  wts : Weights
  got : Acq
  deriving DecidableEq, Repr

/-- The weight tiles acquired one after another in ascending array order (R80, R85, R95). A payload is looked at only after its header has passed (R47), and its values are checked only
where no word of it was read poisoned (log 144). -/
def Chip.takeWeights (c : Chip) (st : Nat) (r : Run) (q : Nat) (ups : Upsets) : List Nat → Chip × Run × List Taken
  | [] => (c, r, [])
  | a :: rest =>
    let x := c.acquire st r 0 q ups
    let rd := match x.2.1.ins.getLast? with
      | some t => if x.2.2 == Acq.ok then x.1.payload t else (x.1, [], [])
      | none => (x.1, [], [])
    let got := if x.2.2 = .ok ∧ rd.2.2.isEmpty ∧ !weightsOk r.desc rd.2.1 then Acq.hdrError else x.2.2
    let prov := match x.2.1.ins.getLast? with | some t => t.prov | none => false
    let more := rd.1.takeWeights st x.2.1 q ups rest
    (more.1, more.2.1, ⟨(c.queue q).acqIx, ⟨a, rd.2.1, !rd.2.2.isEmpty, prov⟩, got⟩ :: more.2.2)

/-- WEIGHT_LOAD_DONE (R85): the last run has been read, the weight slots become EMPTY and vectors may issue. -/
def Chip.weightLoadDone (c : Chip) (st : Nat) : Chip :=
  let k := stKey st 0
  let m := c.mxOf st
  match m.pass, c.curRun k with
  | some p, some r =>
    if !p.loading then c
    else (eachDo r.ins (fun t c => c.freeSlot t) (c.setMx st { m with pass := some { p with loading := false } })).setRun k { r with ins := [] }
  | _, _ => c

/-- Pair class of an MX_PASS (R474). -/
def pairClass (d : Nat) : Nat :=
  match mxWt d with
  | 0x02 => 0
  | 0x01 => 1
  | 0x08 | 0x09 => 2
  | 0x0A | 0x0B => 3
  | 0x0C => 4
  | 0x0D => 5
  | 0x11 => 6
  | _ => 7

/-- Operations of one issued vector counted by pair and mode, test-blank vectors excepted (R474). -/
def Chip.countOps (c : Chip) (st desc : Nat) : Chip :=
  if dLayer desc = 0xFFFE then c else
  let n := (mxArrays desc).length * 64 * vecLen (mxWt desc) (mxSparse desc)
  let o := cntBlk (stIdx st)
  let i := if mxSparse desc then 8 + pairClass desc else pairClass desc
  (c.addReg48 (stDie st) (o + 0x180 + 8 * i) n).addReg48 (stDie st) (o + 0xF0) n

/-- Whether array `a` can accept row `r`: it is not DONE, and no vector in the pipeline leaves it DONE first (R87, R95; log 14). -/
def Chip.rowFree (c : Chip) (st a r : Nat) : Bool :=
  (c.row st a r).st != .done
    && !(c.mxOf st).pipe.any (fun f => f.vec.tag == r && f.vec.last && (mxArrays f.pass.desc).contains a)

/-- Whether a row that the oldest vector of the feeder's buffer names is not acceptable, the stall that R88 puts first. -/
def Chip.drainHeld (c : Chip) (st arrMask tag : Nat) : Bool := !(bitList 4 arrMask).all (fun a => c.rowFree st a tag)

/-- The reason that an MX counts while a weight tile of its next pass is missing, by R88's priorities: a drain row not acceptable for the vector that waits, no vector ready,
and only then the slot. -/
def Chip.passStall (c : Chip) (st desc : Nat) : Nat :=
  match (c.wfOf (st + 1)).buf with
  | [] => 1
  | v :: _ => if v.pool then 1 else if c.drainHeld st (mxMask desc) v.tag then 2 else 6

/-- MX_PASS_BEGIN (R80, R85, R86, R95, R98): with every weight tile of the pass FULL and the last pass's vectors all accepted, the tiles are acquired together
and the load begins. A tile that fails its checks ends the pass under R46, and each such tile's own slot is recorded; the first tile in array order that is not good decides how the pass
ends (log 145). An EOS marker ends it although fewer tiles stand behind it (R64). -/
def Chip.mxPassBegin (c : Chip) (st : Nat) (ups : Upsets) : Chip :=
  let k := stKey st 0
  match c.curRun k with
  | none => c
  | some r =>
    let m := c.mxOf st
    let q := dInQ r.desc 0
    let qu := c.queue q
    let arrs := mxArrays r.desc
    let dep := max 1 (qDepth (c.qdesc q))
    let at_ := fun (i : Nat) => (qu.acqIx + i) % dep
    let ready := ((List.range arrs.length).takeWhile (fun i => (qu.slot (at_ i)).st == .full)).length
    -- the tiles up to an EOS marker, if one stands among those that are FULL
    let eos := (List.range ready).find? (fun i => hEos (fromLE (c.peek (c.slotAddr q (at_ i)) 32)))
    let take := match eos with | some i => some (i + 1) | none => if ready = arrs.length then some ready else none
    let out := (List.range ready).find? (fun i => !c.slotIn q (at_ i))
    let idle := match m.pass with | none => true | some p => p.left == 0
    if !r.begun || r.inDone || r.taken != 0 || !idle || qu.frozen then c
    else match take with
      | none => ((c.setQueue q { qu with cwait := true }).waiting k 6 true).stall st (c.passStall st r.desc) 1
      | some n =>
        match out with
        | some i => c.boundFault k r (c.slotCode q (at_ i)) (slotOff (c.qdesc q) (at_ i)) 0
        | none =>
          let x := (c.waiting k 6 false).takeWeights st r q ups (arrs.take n)
          match x.2.2.find? (fun w => w.got != .ok) with
          | some w =>
            -- every failing tile sets the status; the first of them latches its slot
            let c1 := eachDo (x.2.2.filter (fun w => w.got == .hdrError)) (fun w c => c.queueErr q w.slot st 1 0x27) x.1
            c1.acquired k q w.slot x.2.1 w.got
          | none =>
            ((x.1.setRun k x.2.1).setMx st { m with pass := some { desc := r.desc, wts := x.2.2.map (·.wts), left := mxVecs r.desc, loading := true } }).stall st 3 64

/-- MX_VECTOR_ISSUE (R72, R84, R86–R88, R474): the oldest vector of the WF's buffer goes to the arrays of the pass; the arrays freeze while a row is not
acceptable or no vector is ready. -/
def Chip.mxVectorIssue (c : Chip) (st : Nat) : Chip :=
  let k := stKey st 0
  let m := c.mxOf st
  let w := c.wfOf (st + 1)
  match m.pass, c.curRun k with
  | some p, some r =>
    if p.loading || p.left == 0 || r.desc != p.desc then c
    else
      match w.buf with
      | [] => c.stall st 1 1
      | v :: rest =>
        if v.pool then c.stall st 1 1
        else if !(mxArrays p.desc).all (fun a => c.rowFree st a v.tag) then c.stall st 2 1
        else
          let p1 := { p with left := p.left - 1 }
          let c1 := (c.setWf (st + 1) { w with buf := rest }).setMx st { pass := some p1, pipe := m.pipe ++ [⟨v, p⟩] }
          let c2 := (c1.busy st 1).countOps st p.desc
          if p1.left = 0 then c2.setRun k { r with inDone := true } else c2
  | _, _ => c

/-- The MX_INJECT register's armed inversion for array `a` and lane `j` (R106). -/
def injectMask (reg a j : Nat) : Nat :=
  if bit reg 13 && bits reg 1 0 == a && bits reg 7 2 == j then 1 <<< bits reg 12 8 else 0

/-- A failed check recorded (R102, R103): kind 0 product, 1 accumulate. Of several that fail in one cycle the first in MX_ROW_WRITE's order latches, arrays ascending, an array's product
check before its accumulate check (log 146). A blank's pass shows job 63, and a core that carries no logical core shows logical core 0 (log 147). -/
def Chip.mxCheck (c : Chip) (st a kind row : Nat) (desc : Nat) (k : Check) : Chip :=
  let d := stDie st
  let core := (stIdx st - 32) / 4
  let o := mxBlk core
  let j := dJob desc
  let detail := a + kind <<< 2 + row <<< 3 + (j % 64) <<< 13 + (c.jobPart j) <<< 19 + ((c.logOf d core).getD 0) <<< 21 + (b2n k.nonFin) <<< 24
  if k.bothNon then c.addReg d (o + 0x18) 1
  else if k.fail then
    (c.latchIf d o [(o + 4, detail), (o + 8, dLayer desc + dOpId desc <<< 16), (o + 0xC, c.turn32), (o + 0x10, k.diff), (o + 0x14, k.band)]).raise
      d o (a + 4 * kind) 0x01
  else c

/-- Faults of array `a` applied to 64 lane values. -/
def applyFaults (fs : LaneFaults) (a : Nat) (acc : Bool) (ys : List Nat) : List Nat :=
  ys.zipIdx.map fun y =>
    fs.foldl (fun v f => if f.arr.val = a ∧ f.lane.val = y.2 ∧ f.acc = acc then v ^^^ f.flip.toNat else v) y.1

/-- One array's row write for a vector (R89–R103). -/
def Chip.arrayWrite (c : Chip) (st : Nat) (v : Vec) (p : Pass) (w : Weights) (fs : LaneFaults) : Chip :=
  let d := stDie st
  let core := (stIdx st - 32) / 4
  let a := w.arr
  let o := mxBlk core
  let act : Act := ⟨v.elems, v.scales⟩
  let ws := (laneRuns (mxWt p.desc) (mxSparse p.desc) w.data).map (laneWeights (mxWt p.desc) (mxSparse p.desc))
  let inj := c.reg d (o + 0x28)
  let hitInj := bit inj 13 && bits inj 1 0 == a
  let ys0 := ws.map (laneOut p.desc act)
  let ys := applyFaults fs a false (ys0.zipIdx.map (fun y => y.1 ^^^ injectMask inj a y.2))
  let chk := productCheck p.desc act ws ys
  let row := c.row st a v.tag
  let addr := rowAddr d core a v.tag
  let accum := row.st == .accum && !v.first
  let old := (chunks 4 (c.peek addr 256)).map fromLE
  let oldPois := accum && (List.range 32).any (fun i => c.poisoned (addr + 8 * i))
  let new := if accum then applyFaults fs a true ((old.zip ys).map (fun x => laneAccum (mxWt p.desc) x.1 x.2)) else ys
  let chk2 := if accum then accumCheck p.desc old ys new else { fail := false }
  let bad := chk.fail || chk2.fail
  let pois := v.pois || w.pois || oldPois
  let prov := v.prov || w.prov
  let row1 : Row := { st := if v.last then .done else .accum, chkfail := bad || (accum && row.chkfail), pois := pois || (accum && row.pois),
                      prov := prov || (accum && row.prov) }
  let c1 := if hitInj then c.setReg d (o + 0x28) 0 else c
  let c2 := c1.addReg d (o + 0x1C) (match ws with | x :: _ => underflows p.desc act x | [] => 0)
  let c3 := ((c2.mxCheck st a 0 v.tag p.desc chk).mxCheck st a 1 v.tag p.desc chk2)
  (c3.write addr (new.flatMap (toLE 4)) []).setRow st a v.tag row1

/-- Cycles from a vector's issue to its row write (R89). -/
def mxLatency (wt : Nat) : Nat := if pairInt wt then 14 else 18

/-- MX_ROW_WRITE (R89, R95): the oldest vector in the pipeline writes its row in each participating array. With the last row of a pass that no other has followed, the cycles in which
the pipeline emptied have counted FEED (R88, R472). -/
def Chip.mxRowWrite (c : Chip) (st : Nat) (fs : LaneFaults) : Chip :=
  let m := c.mxOf st
  match m.pipe with
  | [] => c
  | f :: rest =>
    let c1 := eachDo f.pass.wts (fun w c => c.arrayWrite st f.vec f.pass w fs) (c.setMx st { m with pipe := rest })
    let last := rest.isEmpty && (match m.pass with | some p => p.left == 0 && p.desc == f.pass.desc | none => false)
    if last then c1.stall st 1 (mxLatency (mxWt f.pass.desc)) else c1

/-- MX_PASS. -/
def execMxPass (d : CDie) (c : CoreIx) (s : State) : Host.Outcome State Fault Refusal :=
  .next { s with chip := s.chip.work (·.mxPass (coreStn (d + 1) c 0)) }
/-- MX_PASS_BEGIN. -/
def execMxPassBegin (d : CDie) (c : CoreIx) (ups : Upsets) (s : State) : Host.Outcome State Fault Refusal :=
  .next { s with chip := s.chip.work (·.mxPassBegin (coreStn (d + 1) c 0) ups) }
/-- WEIGHT_LOAD_DONE. -/
def execWeightLoadDone (d : CDie) (c : CoreIx) (s : State) : Host.Outcome State Fault Refusal :=
  .next { s with chip := s.chip.work (·.weightLoadDone (coreStn (d + 1) c 0)) }
/-- MX_VECTOR_ISSUE. -/
def execMxVectorIssue (d : CDie) (c : CoreIx) (s : State) : Host.Outcome State Fault Refusal :=
  .next { s with chip := s.chip.work (·.mxVectorIssue (coreStn (d + 1) c 0)) }
/-- MX_ROW_WRITE. -/
def execMxRowWrite (d : CDie) (c : CoreIx) (flts : LaneFaults) (s : State) : Host.Outcome State Fault Refusal :=
  .next { s with chip := s.chip.work (·.mxRowWrite (coreStn (d + 1) c 0) flts) }

end Sys2Proof.Machine
end

