-- ==== Sys2Proof/Machine/Memory.lean ====
section
/-! DEFINITION. Machine/Memory.lean: what the buffers and the DDR5 controllers do by themselves: write-backs and scrub (R188, R190, R206), requests, refresh,
retraining and metering (R199, R200, R208–R210, R218). -/
namespace Sys2Proof.Machine

/-! ### SRAM -/

/-- A buffer's effect: the headstock buffer stays on in PARK (R502). -/
def Chip.hsd (c : Chip) (d : Nat) (f : Chip → Chip) : Chip := if d = 0 then c.awake f else c.live f

/-- SRAM_CE_WRITEBACK (R188): the next corrected word of the die goes back into its bank. -/
def Chip.sramWriteback (c : Chip) (d : Nat) : Chip :=
  match c.ecc.wb.find? (fun e => e.1 / 2 ^ 41 == d) with
  | none => c
  | some e => { c with ecc := { c.ecc with wb := tabSet false c.ecc.wb e.1 false } }

/-- Buffers of a die, each with a scrub engine of its own (R28, R30, R190): 0 the die buffer or the headstock buffer, 1–9 the core buffers and 10–18 the drain stores of C0–C8. -/
def scrubBufs (d : Nat) : List Nat := if d = 0 then [0] else List.range 19

/-- Lines of a buffer. -/
def scrubLines (d b : Nat) : Nat := if b = 0 then (if d = 0 then 0x40000 else 0x80000) else if b < 10 then 0x10000 else 0x4000

/-- The line at position `p` of a buffer's scrub engine. -/
def scrubAddr (d b p : Nat) : Nat :=
  dieBase d + (if b = 0 then dbBase else if b < 10 then cbBase (b - 1) else dsBase (b - 10)) + 64 * p

/-- Key of the drain-store row of a scrub position, if it lies in one (R94). -/
def scrubRow (d b p : Nat) : Option Nat :=
  if b < 10 then none else some (rowKey (coreStn d (b - 10) 0) (p / 0x1000) (p % 0x1000 / 4))

/-- Passes × 2^20 + position of a buffer's scrub engine. -/
def Chip.scrubAt (c : Chip) (d b : Nat) : Nat := tabGet 0 c.ecc.scrub (d * 32 + b)

/-- SCRUB_PASSES of a die (R192): the passes that every buffer of it has completed (log 143). -/
def Chip.scrubPasses (c : Chip) (d : Nat) : Nat :=
  (scrubBufs d).foldl (fun n b => min n (c.scrubAt d b / 2 ^ 20)) 0xFFFFFFFF

/-- The next line of a buffer's scrub engine read and corrected; a drain-store row is passed over unless it is FREE; after the last line the buffer's pass is complete (R190). -/
def Chip.sramScrub (c : Chip) (d b : Nat) (ups : Upsets) : Chip :=
  if !(scrubBufs d).contains b then c else
  let x := c.scrubAt d b
  let p := x % 2 ^ 20
  let skip : Bool := match scrubRow d b p with
    | some k => (tabGet {} c.cmp.rows k).st != .free
    | none => false
  let c1 := if skip then c else (c.read { kind := 1 } ups (scrubAddr d b p) 64).1
  let next := if scrubLines d b ≤ p + 1 then (x / 2 ^ 20 + 1) * 2 ^ 20 else x + 1
  let c2 := { c1 with ecc := { c1.ecc with scrub := tabSet 0 c1.ecc.scrub (d * 32 + b) next } }
  c2.setReg d (sramBlk + 0x14) (c2.scrubPasses d)

/-- SRAM_SCRUB_FORCED (R190, R192): the engine takes a cycle at top priority and SRAM_ERR_STATUS[3] says so, with the line that it reads latched as a first error's. -/
def Chip.sramScrubForced (c : Chip) (d b : Nat) (ups : Upsets) : Chip :=
  if !(scrubBufs d).contains b then c else
  let a := scrubAddr d b (c.scrubAt d b % 2 ^ 20)
  ((c.latchIf d sramBlk [(sramBlk + 4, sramDetail (c.decode a)), (sramBlk + 8, c.turn32)]).raise d sramBlk 3 0).sramScrub d b ups

/-! ### DDR5 -/

/-- Requester of a DDR5 request. -/
def Chip.ddrReader (c : Chip) (w : DdrWho) : Reader :=
  match w with
  | .task p j => { kind := 0, job := j, part := p, safety := c.isSafety p }
  | .ingest p => { kind := 3, part := p, safety := c.isSafety p }
  | .firmware => { kind := 2 }

/-- The part of a request that lies in its line: length of at most 64 − offset (R200). -/
def inLine (a n : Nat) : Nat := min n (64 - a % 64)

/-- DDR_REQUEST (R199–R203): a controller serves one request to one line in arrival order. -/
def Chip.ddrRequest (c : Chip) (d : Nat) (r : DdrReq) (ups : Upsets) : Chip :=
  let a := r.addr.toNat
  if c.usable d ≤ a then c
  else
    let who := c.ddrReader r.who
    match r.data with
    | none => (c.read who ups (dieBase d + a) (inLine a r.len)).1
    | some b =>
      let b' := b.take (inLine a b.length)
      let c0 := (c.hsPut 2 d (dramLoc (c.ranks d) a).sub 1 b').access d a b'.length true (if who.kind = 2 then none else some who.part)
      -- the bursts are the requester's own, and so are the errors that a read-modify-write finds; the words written follow R199
      let c1 := eachDo (ups.filter (rmwReads true (dieBase d + a) b'.length)) (fun u c => c.upset who u) c0
      let c2 := c1.poke (dieBase d + a) b'
      eachDo (wordsOf (dieBase d + a) b'.length)
        (fun w c => if dieBase d + a ≤ w ∧ w + 8 ≤ dieBase d + a + b'.length then c.setPois w false else c) c2

/-- DDR_REFRESH_DUE (R208, R209): a same-bank refresh takes one bank of every bank group of the rank, in turn, for its time and changes no data; those banks have no row open
after it, and their rolling activation counts fall by RAAIMT (log 132). -/
def Chip.ddrRefresh (c : Chip) (d sub rank : Nat) : Chip :=
  let r := (d * 2 + sub) * 2 + rank
  let n := tabGet 0 c.ecc.refs r
  let mine := fun (k : Nat) => k / 16 == r && k % 4 == n
  let m := (tabGet (0, 0) c.ecc.rfm d).1
  { c with ecc := { c.ecc with refs := tabSet 0 c.ecc.refs r ((n + 1) % 4), rows := tabKeep (fun k => !mine k) c.ecc.rows,
                               raa := tabMap 0 (fun k x => if mine k then x - m else x) c.ecc.raa } }

/-- Whether an MR4 refresh-rate code asks for twice the rate (JESD79-5; log 28). -/
def mr4Twice (code : Nat) : Bool := decide (3 ≤ code)

/-- MR4_READ (R208, R222): the rank's code, twice the rate where either rank asks for it or is above its limit, and DDR_ERR_STATUS[5] above the operating
limit. -/
def Chip.mr4Read (c : Chip) (d sub rank code : Nat) (hot : Bool) : Chip :=
  let o := ddrBlk sub + 0x2C
  let lo := 4 * rank
  let c1 := c.setFld d o (lo + 2) lo code
  let twice := mr4Twice (bits (c1.reg d o) 2 0) || mr4Twice (bits (c1.reg d o) 6 4) || hot
  let c2 := c1.setFld d o 8 8 (b2n twice)
  if hot then
    (c2.latchIf d (ddrBlk sub + 4) [(ddrBlk sub + 8, rank), (ddrBlk sub + 0xC, 0), (ddrBlk sub + 0x10, 0), (ddrBlk sub + 0x14, c2.turn32)]).raise
      d (ddrBlk sub + 4) 5 0x1B
  else c2

/-- RFM_ISSUE (R209): a bank, rank × 16 + bank group × 4 + bank, whose rolling activation count has reached RAAIMT gets an RFM; components that report no RAAIMT ask for none. -/
def Chip.rfm (c : Chip) (d sub b : Nat) : Chip :=
  let m := (tabGet (0, 0) c.ecc.rfm d).1
  if m = 0 ∨ tabGet 0 c.ecc.raa (bankKey d sub b) < m then c else c.rfmBank d sub b

/-- DQS_OSC_CHECK (R210): the count is kept; more than 2 % from the count of the last training updates the delays, and an update that does not bring the margin
back sets DDR_ERR_STATUS[4]. In the die's first full-load turn the check re-validates the rank (R211). -/
def Chip.dqsCheck (c : Chip) (d sub rank count : Nat) (marginOk : Bool) : Chip :=
  let o := ddrBlk sub
  let k := (d * 2 + sub) * 2 + rank
  let ref := tabGet 0 c.ecc.osc k
  let c0 := if tabGet 0 c.wrk.full d = c.turn + 1 then { c with ecc := { c.ecc with reval := tabSet false c.ecc.reval k true } } else c
  let c1 := c0.setFld d (o + 0x38) (16 * rank + 15) (16 * rank) count
  let diff := if count < ref then ref - count else count - ref
  if 50 * diff ≤ ref then c1
  else
    let c2 := ({ c1 with ecc := { c1.ecc with osc := tabSet 0 c1.ecc.osc k count } }).addReg d (o + 0x34) 1
    if marginOk then c2
    else (c2.latchIf d (o + 4) [(o + 8, rank), (o + 0xC, 0), (o + 0x10, 0), (o + 0x14, c2.turn32)]).raise d (o + 4) 4 0x0A

/-- Blocks of a subchannel (R194, R197). -/
def Chip.subBlocks (c : Chip) (d : Nat) : Nat := c.usable d / 7 * 8 / 2 / 512

/-- The check line of block `j` of a subchannel as R197 lays it out: the check bytes of data line k, one for each of its words, at bytes 8k to 8k + 7, and zero in the last eight; a word's
check byte is R198's, of its data, location and poison syndrome (log 3). -/
def Chip.checkBytes (c : Chip) (d sub j : Nat) : Bytes :=
  let a := dieBase d + (2 * j + sub) * 448
  (List.range 56).map (fun i =>
    let w := a + 8 * i
    Config.checkBits (w / 8) (fromLE (c.peek w 8) + 2 ^ 64 * b2n (c.poisoned w))) ++ List.replicate 8 0#8

/-- Usable address of block `j` of subchannel `sub` (R201). -/
def blockAddr (sub j : Nat) : Nat := (2 * j + sub) * 448

/-- DDR_PATROL_SCRUB (R206): the next block read, corrected and poisoned under R202 and R203, eight bursts of background traffic. -/
def Chip.patrolScrub (c : Chip) (d sub : Nat) (ups : Upsets) : Chip :=
  let o := ddrBlk sub
  let p := bits (c.reg d (o + 0x24)) 24 0
  let a := dieBase d + blockAddr sub p
  let hit := ups.filter (fun u => decide (a ≤ u.addr.toNat ∧ u.addr.toNat < a + 448))
  let c1 := (eachDo hit (fun u c => c.upset { kind := 1 } u) c).bursts d sub none 8
  if c1.subBlocks d ≤ p + 1 then (c1.setReg d (o + 0x24) 0).addReg d (o + 0x28) 1 else c1.setReg d (o + 0x24) (p + 1)

/-- Bytes that partition `p` has reserved on die `d` in a metering window of 10 µs (R218, R221): bw_res in 0.1 GB/s. -/
def Chip.reserved (c : Chip) (d p : Nat) : Nat :=
  (((c.cfgAll 0x0202).filter (fun v => v.headD 0 == p && v.getD 1 0 == d)).map (fun v => v.getD 4 0)).foldl (· + ·) 0 * 1000

/-- RES_WINDOW_END (R218, R222): a partition with waiting requests that has been served less than its reservation is counted and raises DDR_ERR_STATUS[7]; the
die's counts stand in the block of subchannel 0 (log 29). -/
def Chip.resWindowEnd (c : Chip) (d waiting : Nat) : Chip :=
  let o := ddrBlk 0
  let missed := (List.range 4).filter (fun p => bit waiting p && decide (tabGet 0 c.ecc.served (d * 4 + p) < c.reserved d p))
  let c1 := eachDo missed (fun p c =>
    let n := bits (c.reg d (o + 0x54)) (2 * p + 1) (2 * p)
    ((c.setFld d (o + 0x54) (2 * p + 1) (2 * p) (min 3 (n + 1))).latchIf d (o + 4)
      [(o + 8, 0), (o + 0xC, 0), (o + 0x10, p <<< 9), (o + 0x14, c.turn32)]).raise d (o + 4) 7 0x0C) c
  { c1 with ecc := { c1.ecc with served := tabKeep (fun k => k / 4 != d) c1.ecc.served } }

/-- SRAM_CE_WRITEBACK. -/
def execSramCeWriteback (d : Die) (s : State) : Host.Outcome State Fault Refusal := .next { s with chip := s.chip.hsd d (·.sramWriteback d) }
/-- SRAM_SCRUB_READ. -/
def execSramScrubRead (d : Die) (buf : Fin 19) (ups : Upsets) (s : State) : Host.Outcome State Fault Refusal :=
  .next { s with chip := s.chip.hsd d (·.sramScrub d buf ups) }
/-- SRAM_SCRUB_FORCED. -/
def execSramScrubForced (d : Die) (buf : Fin 19) (ups : Upsets) (s : State) : Host.Outcome State Fault Refusal :=
  .next { s with chip := s.chip.hsd d (·.sramScrubForced d buf ups) }
/-- DDR_REQUEST. -/
def execDdrRequest (d : CDie) (r : DdrReq) (ups : Upsets) (s : State) : Host.Outcome State Fault Refusal :=
  .next { s with chip := s.chip.live (·.ddrRequest (d + 1) r ups) }
/-- DDR_REFRESH_DUE. -/
def execDdrRefreshDue (d : CDie) (sub rank : Fin 2) (s : State) : Host.Outcome State Fault Refusal :=
  .next { s with chip := s.chip.live (·.ddrRefresh (d + 1) sub rank) }
/-- MR4_READ. -/
def execMr4Read (d : CDie) (sub rank : Fin 2) (code : Fin 8) (hot : Bool) (s : State) : Host.Outcome State Fault Refusal :=
  .next { s with chip := s.chip.live (·.mr4Read (d + 1) sub rank code hot) }
/-- RFM_ISSUE. -/
def execRfmIssue (d : CDie) (sub : Fin 2) (bank : Fin 32) (s : State) : Host.Outcome State Fault Refusal :=
  .next { s with chip := s.chip.live (·.rfm (d + 1) sub bank) }
/-- DQS_OSC_CHECK. -/
def execDqsOscCheck (d : CDie) (sub rank : Fin 2) (count : BitVec 16) (marginOk : Bool) (s : State) : Host.Outcome State Fault Refusal :=
  .next { s with chip := s.chip.live (·.dqsCheck (d + 1) sub rank count.toNat marginOk) }
/-- DDR_PATROL_SCRUB. -/
def execDdrPatrolScrub (d : CDie) (sub : Fin 2) (ups : Upsets) (s : State) : Host.Outcome State Fault Refusal :=
  .next { s with chip := s.chip.live (·.patrolScrub (d + 1) sub ups) }
/-- RES_WINDOW_END. -/
def execResWindowEnd (d : CDie) (waiting : Fin 16) (s : State) : Host.Outcome State Fault Refusal :=
  .next { s with chip := s.chip.live (·.resWindowEnd (d + 1) waiting) }

end Sys2Proof.Machine
end

