-- ==== Sys2Proof/Machine/Boundary.lean ====
section
/-! DEFINITION. Machine/Boundary.lean: TURN_BOUNDARY: the grid (R320, R321), the sequence of R324 with the core map (R16, R17, R176), queues (R58, R59, R238), windows
(R183), views (R259), command lists (R66), partition resets (R508) and power requests (R503–R505). -/
namespace Sys2Proof.Machine

/-- Whether job `j` falls due in turn `t` (R35). -/
def Chip.dueIn (c : Chip) (j t : Nat) : Bool := t % max 1 (c.cfgBy 0x0702 j 3 1) == c.cfgBy 0x0702 j 4 0

/-! ### Queues, windows and tasks -/

/-- A write of firmware's into DDR5 or SRAM, counted as firmware traffic (R216). -/
def Chip.fwWrite (c : Chip) (a : Nat) (b : Bytes) : Chip :=
  let c1 := (c.ddrAccess (some {}) a b.length true).poke a b
  eachDo (wordsOf a b.length) (fun w c => c.setPois w false) c1

/-- R238: every FULL tile of a carry queue with PROVISIONAL set takes the record of its turn. -/
def Chip.resolveCarry (c : Chip) (q : Nat) : Chip :=
  let full := ((c.queue q).slots.filter (fun s => s.2.st == .full)).map (·.1)
  eachDo full (fun i c =>
    let h := fromLE (c.peek (c.slotAddr q i) 32)
    if !hProv h then c
    else match c.record (hTurn h) (hPart h) with
      | 1 => c.rewriteHdr q i clearProv
      | 2 => c.rewriteHdr q i setPoison
      | _ => c) c

/-- A queue at the boundary into turn `t` (R58, R59): one without carry whose job ran, or a frozen one, is reset and its leftovers noted; a carry queue keeps its tiles and
counts from 0 where its job runs. -/
def Chip.boundaryQueue (c : Chip) (t q : Nat) : Chip :=
  let x := c.qdesc q
  let qu := c.queue q
  let ran := qu.job == 255 || c.launched qu.job
  if qu.frozen || (!qCarry x && ran) then
    let left := qu.slots.length
    let c1 := c.setQueue q (qu.fresh (qDepth x) (min 255 left))
    if left = 0 then c1 else c1.shav (if q < 1024 then 2 else q / 1024 + 2) 0 0x0010 q left qu.job
  else
    let again := qu.job != 255 && c.dueIn qu.job t
    c.setQueue q { qu with pseq := if again then 0 else qu.pseq, cseq := 0, eos := false, pwait := false, cwait := false, left := 0 }

/-- Queues with a flow state. -/
def Chip.queueList (c : Chip) : List Nat := c.fab.queues.map (·.1)

/-- Every queue as at load (R504, R506). -/
def Chip.freshQueues (c : Chip) : Chip := eachDo c.queueList (fun q c => c.setQueue q ((c.queue q).fresh (qDepth (c.qdesc q)) 0)) c

/-- R183: every window still open is closed, and the next turn has closed none. -/
def Chip.closeWindows (c : Chip) : Chip :=
  c.clearRegs (fun _ off => if winBlk 0 ≤ off ∧ off < winBlk 64 ∧ off % 0x20 = 0xC then 9 else 0)

/-- Whether an offset is word 0 of a queue descriptor. -/
def isQdesc0 (off : Nat) : Bool := decide (0x10000 ≤ off ∧ off < 0x14000 ∧ off % 0x10 = 0)
/-- Whether an offset lies in the queue or task table. -/
def inTables (off : Nat) : Bool := decide (0x10000 ≤ off ∧ off < 0x14000) || decide (taskBlk 0 ≤ off ∧ off < taskBlk 256 ∧ off % 0x40 < 0x34)

/-- A station number with the stations of one group of four on die `d` renumbered: those of local indices `a` to `a + 3` become `b` to `b + 3`. -/
def moveStn (d a b s : Nat) : Nat := if s / 128 = d ∧ a ≤ s % 128 ∧ s % 128 < a + 4 then d * 128 + b + (s % 128 - a) else s

/-- Queue endpoints rewritten in every queue table (R17, R19). -/
def Chip.moveEnds (c : Chip) (f : Nat → Nat) : Chip :=
  { c with regs := tabMap 0#32 (fun k v =>
      if isQdesc0 (k % 16777216) then
        let x := v.toNat
        BitVec.ofNat 32 (x / 1048576 * 1048576 + (f (qProd x) % 1024) + (f (qCons x) % 1024) <<< 10)
      else v) c.regs }

/-- The core-buffer bases of logical core `l` of die `d` rewritten for physical core `k` (R176). -/
def Chip.rebindBases (c : Chip) (d l k : Nat) : Chip :=
  eachDo (List.range 256) (fun e c =>
    let o := taskBlk e
    let own := c.reg d (o + 0x30)
    if bit own 0 && !bit own 12 && bits own 11 9 == l && c.reg d (o + 8) != 0 then
      c.setReg64 d o (dieBase d + cbBase k + (c.reg64 d o % 2 ^ 48 + 2 ^ 48 - (dieBase d + cbBase 0)) % 0x400000)
    else c) c

/-- The queue and task entries of logical core `l` moved from physical core `a` to `b` (R17). -/
def Chip.rebindCore (c : Chip) (d l a b : Nat) : Chip := (c.moveEnds (moveStn d (32 + 4 * a) (32 + 4 * b))).rebindBases d l b

/-! ### The core map -/

/-- CORE_MAP with logical core `l` on physical core `k`. -/
def Chip.setPhys (c : Chip) (d l k : Nat) : Chip := c.setFld d (tsBlk + 0x5C) (4 * l + 3) (4 * l) k

/-- A core's self-test state (R330). -/
def Chip.test (c : Chip) (d k : Nat) : TestSt := tabGet {} c.wrk.tests (d * 16 + k)
/-- The chip with that state. -/
def Chip.setTest (c : Chip) (d k : Nat) (v : TestSt) : Chip := { c with wrk := { c.wrk with tests := tabSet {} c.wrk.tests (d * 16 + k) v } }

/-- TS_STATUS bit `i` of die `d` set, with TS_DETAIL latched (R340, R341). -/
def Chip.tsRaise (c : Chip) (d i cause detail : Nat) (esc : Bool := false) : Chip :=
  let o := if d = 0 then tsBlk + 0x1C else tsBlk
  let c1 := (c.latchIf d o [(o + 4, detail), (o + 8, c.turn32)]).raise d o i cause (esc := esc)
  { c1 with wrk := { c1.wrk with tsSet := tabMod 0 c1.wrk.tsSet d (· ||| 1 <<< i) } }

/-- Working cores of a die in ascending physical order. -/
def Chip.workCores (c : Chip) (d : Nat) : List Nat := (List.range 9).filter (fun k => !bit (c.reg d (tsBlk + 0xC)) (4 + k))

/-- Latent-fault interval of an eight-core die in turns (R334). -/
def Chip.shortInterval (c : Chip) : Nat := 8 * cdiv 48 (max 1 ((c.cfg1 0x0701 2 500 - 5) * 10 / 2577))

/-- The core that rests, or has its short window, in turn `t`, if any (R16, R334). -/
def Chip.testCore (c : Chip) (d t : Nat) : Option Nat :=
  if c.fenced d then none
  else if bit (c.reg d (tsBlk + 0xC)) 13 then (c.workCores d)[t % 8]?
  else some (c.fld d (tsBlk + 0xC) 3 0)

/-- The end of a rest or short window (R330, R331, R334): it counts, and a full test that outlasts the rest after the one it began in is late, once. -/
def Chip.restEnds (c : Chip) (d : Nat) : Chip :=
  match c.testCore d c.turn with
  | none => c
  | some k =>
    let o := tsBlk + 0x10 + 4 * k
    let n := c.fld d o 7 6 + 1
    let c1 := c.setFld d o 7 6 (min 3 n)
    let x := c1.test d k
    let late := if bit (c.reg d (tsBlk + 0xC)) 13 then decide (x.since ≠ 0 ∧ 2 * c.shortInterval ≤ c.turn + 2 - x.since) else decide (2 ≤ n)
    if late && !x.late then (c1.setTest d k { x with late := true }).tsRaise d 2 0x15 (k <<< 16 + 3 <<< 23) else c1

/-- The first turn of a core's full test, where none is under way (R330). -/
def Chip.restBegins (c : Chip) (d t : Nat) : Chip :=
  match c.testCore d t with
  | none => c
  | some k => if (c.test d k).since = 0 then c.setTest d k { c.test d k with since := t + 1 } else c

/-- R17 on one die: the logical core of the core due to rest moves to the core that has rested. -/
def Chip.rotate (c : Chip) (d : Nat) : Chip :=
  let old := c.fld d (tsBlk + 0xC) 3 0
  let new := (old + 1) % 9
  match c.logOf d new with
  | none => c
  | some l => ((c.setPhys d l old).setFld d (tsBlk + 0xC) 3 0 new).rebindCore d l new old

/-- No core of die `d` waits to be withdrawn. -/
def Chip.keepCores (c : Chip) (d : Nat) : Chip := { c with boot := { c.boot with withdraw := tabSet 0 c.boot.withdraw d 0 } }

/-- R332: the core that failed its self-test leaves the rotation; the map stays fixed and no core rests. -/
def Chip.withdraw (c : Chip) (d k : Nat) : Chip :=
  let c1 := (c.setReg d (tsBlk + 0xC) (15 + (bits (c.reg d (tsBlk + 0xC)) 12 4 ||| 1 <<< k) <<< 4 + 1 <<< 13)).tsRaise d 5 0 (k <<< 16 + 5 <<< 23)
  (c1.shav (d + 2) 3 0x0016 d k 0).keepCores d

/-- Step 5 of R324 on die `d`, into turn `t` (R16, R17, R332). -/
def Chip.coreStep (c : Chip) (t d : Nat) : Chip :=
  if c.fenced d then c
  else
    let c1 := match tabGet 0 c.boot.withdraw d with
      | 0 => if bit (c.reg d (tsBlk + 0xC)) 13 then c else c.rotate d
      | k + 1 => c.withdraw d k
    c1.restBegins d t

/-- The map and rest of die `d` with nine working cores in turn `t` (R16, R17). -/
def Chip.mapAt (c : Chip) (d t : Nat) : Chip :=
  let r := (t + d - 1) % 9
  (eachDo (List.range 8) (fun l c => c.setPhys d l ((r + 1 + (l + 8 * t - t) % 8) % 9)) c).setFld d (tsBlk + 0xC) 3 0 r

/-! ### Views -/

/-- Bit of the turn status for ring `s` (R463). -/
def Chip.setPresent (c : Chip) (s : Nat) : Chip :=
  c.modPart (c.ringPart s) (fun x => if s < 48 then { x with streams := x.streams ||| 1 <<< s } else { x with lidars := x.lidars ||| 1 <<< (s - 48) })

/-- A ring's run of sync turns without an image (R265): counted, and at the limit SP_ERR_STATUS[0] or EP_ERR_STATUS[4] is set; not so at a sensor port that is off (R274). -/
def Chip.missImage (c : Chip) (s : Nat) (g : RingCfg) : Chip :=
  let o := c.imgOff s
  if s < 48 && bit (c.reg 0 (spBlk g.port)) 10 then c else
  let old := c.fld 0 o 23 16
  let c1 := c.setFld 0 o 23 16 (min 255 (old + 1))
  let reason := c.fld 0 o 27 24
  if old + 1 ≠ g.limit then c1
  else if s < 48 then (c1.spLatch g.port ((o - spBlk g.port - 0x20) / 4) reason 0 0).raise 0 (spBlk g.port + 4) 0 0x1C
  else (c1.epLatch g.port (s - 48) reason 0 0).raise 0 (epBlk g.port + 4) 4 0x1D

/-- The view mapped to the fill entry, whose header takes turn tag `t` (R259). -/
def Chip.mapFill (c : Chip) (s : Nat) (g : RingCfg) (t : Nat) : Chip :=
  (c.fwWrite (g.entry g.entries) (fillHdr s (t % 2 ^ 32) g.offs)).setRing s { c.ring s with view := 0 }

/-- Entries of turns before `t` that no view can move to any more (R258, R259): a READY one is superseded and FREE, an unfinished one is dropped as LATE. -/
def Chip.outdated (c : Chip) (t s : Nat) : Chip :=
  let r := c.ring s
  let old := r.ents.filter (fun e => decide (e.2.tag < t) && e.2.st != .free && e.2.st != .viewed)
  let late := (old.filter (fun e => e.2.st != .ready)).map (·.1)
  let keep := fun (i : Img) => !late.contains i.ent
  eachDo late (fun _ c => c.noteDrop s 2) (c.setRing s { r with ents := r.ents.filter (fun e => !old.contains e), img := r.img.filter keep, out := r.out.filter keep })

/-- The view of ring `s` at the end of turn `t` (R259): after a sync turn it moves to that turn's READY entry, or to the fill entry; the entry it leaves is FREE, and one
that came too late is dropped, so that no more of a lidar's window begins a frame (R296). -/
def Chip.remap (c : Chip) (t s : Nat) : Chip :=
  match c.ringCfg s with
  | none => c
  | some g =>
    let c0 := c.outdated t s
    let c1 :=
      if !g.sync t then c0
      else
        let r := c0.ring s
        let ready := r.ents.find? (fun e => e.2.tag == t && e.2.st == .ready)
        let late := (r.ents.filter (fun e => e.2.tag == t && e.2.st != .ready && e.2.st != .free && e.2.st != .viewed)).map (·.1)
        let keep := fun (i : Img) => !late.contains i.ent
        let freed := r.ents.filter (fun e => e.2.st != .viewed && !late.contains e.1)
        let r1 := { r with ents := freed, img := r.img.filter keep, out := r.out.filter keep, gone := match r.img with | some i => if late.contains i.ent then i.frameNo + 1 else r.gone | none => r.gone }
        let c2 := eachDo late (fun _ c => c.noteDrop s 2) (c0.setRing s r1)
        match ready with
        | some e => c2.setRing s { (c2.ring s).setEnt e.1 { e.2 with st := .viewed } with view := e.1 + 1 }
        | none =>
          let c3 := if r.seen = t + 1 then c2 else (c2.setFld 0 (c2.imgOff s) 27 24 15).shav 2 2 0x0011 (if s < 48 then s else s - 48) 15 g.port
          (c3.missImage s g).mapFill s g t
    if (c1.ring s).view = 0 then c1 else c1.setPresent s

/-- Every entry FREE and every view at its fill entry (R504, R506). -/
def Chip.freshRings (c : Chip) (t : Nat) : Chip :=
  eachDo c.ringList (fun s c => match c.ringCfg s with
    | some g => (c.setRing s { c.ring s with ents := [], img := none, out := [] }).mapFill s g t
    | none => c) c

/-! ### Command lists -/

/-- ST_CMDBASE, ST_CMDCOUNT, ST_CMDDONE and ST_STATUS of every station at zero: the release of R68 is taken at the boundary that writes the lists, and a station without a list
keeps no old one (R66, R68; log 142). -/
def Chip.clearLists (c : Chip) : Chip :=
  let c1 := c.clearRegs (fun _ off => if stBlk 0 ≤ off ∧ off < stBlk 128 ∧ 4 ≤ off % 0x40 ∧ off % 0x40 < 0x18 then 0xFFFFFFFF else 0)
  { c1 with fab := { c1.fab with stations := [], held := [], xdBase := [], xdCount := [] }, cmp := {} }

/-- A list given to the station of key `k` (R31, R66): address and count written, and the station enabled. -/
def Chip.giveList (c : Chip) (k addr n : Nat) : Chip :=
  let d := stDie (k / 4)
  let o := stBlk (stIdx (k / 4))
  let c1 := c.setFld d o 0 0 1
  if k % 4 = 0 then (c1.setReg64 d (o + 4) addr).setReg d (o + 0xC) n
  else { c1 with fab := { c1.fab with xdBase := tabSet 0 c1.fab.xdBase k addr, xdCount := tabSet 0 c1.fab.xdCount k n } }

/-- Where a die's lists of one turn are joined: apart from the loaded lists (log 46). -/
def Chip.joinBase (c : Chip) (d : Nat) : Nat := if d = 0 then dbBase + 0xD00000 else c.fwBase d + 0x3800000

/-- The list of one station for the turn: the lists of its launched jobs in ascending job order, joined when there is more than one (log 46); the load accepts no programs whose
joined list could pass 4,096 descriptors (R66). `n` descriptors of the die's joined lists come before it. -/
def Chip.stationList (c : Chip) (key : Nat) (n : Nat) : Chip × Nat :=
  let phys := stKey (c.physStn (key / 4)) (key % 4)
  let mine := c.wrk.lists.filter (fun e => e.key == key && c.launched e.job)
  let es := (List.range 64).flatMap (fun j => mine.filter (fun e => e.job == j))
  match es with
  | [] => (c, n)
  | [e] => (c.giveList phys e.addr e.n, n)
  | _ =>
    let all := es.flatMap (fun e => c.peek e.addr (64 * e.n))
    let at_ := c.joinBase (stDie (key / 4)) + 64 * n
    let m := sumOver es (·.n)
    ((c.fwWrite at_ all).giveList phys at_ m, n + m)

/-- The command list registers of die `d`'s stations among the keys `keys` (R66). -/
def Chip.dieLists (c : Chip) (keys : List Nat) (d : Nat) : Chip :=
  ((keys.filter (fun k => k / 512 == d)).foldl (fun (x : Chip × Nat) k => x.1.stationList k x.2) (c, 0)).1

/-- The command list registers of every station (R66). -/
def Chip.writeLists (c : Chip) : Chip :=
  let keys := (c.wrk.lists.map (·.key)).eraseDups
  eachDo (List.range 8) (fun d c => c.dieLists keys d) c.clearLists

/-- The descriptor of an SI_RUN (R60, R253): a command of the Turner's, without queues or parameters. -/
def siDesc : Nat :=
  let d := 1 + 7 <<< 8 + 1 <<< 12 + 0xFF <<< 56
  d + (crc16 (toLE 62 d)) <<< 496

/-- Where the Turner puts the list of SI station `p` (log 46). -/
def siList (p : Nat) : Nat := dbBase + 0xBF0000 + 64 * p

/-- SI stations with a port in their role: the Turner writes each one SI_RUN, built from the records of its streams or lidars, and gives it the list (R66, R253). -/
def Chip.dueSi (c : Chip) : Chip :=
  let sinks := (List.range 24).filter (fun p => c.sport p 1 0 == 1)
  let range := ((List.range 10).filter (fun n => c.role n == 3)).map (· + 24)
  let recs := fun (p : Nat) => if p < 24 then (c.cfgAll 0x0402).filter (fun v => v.getD 1 0 == p) else (c.cfgAll 0x0502).filter (fun v => v.getD 1 0 + 24 == p)
  eachDo (sinks ++ range) (fun p c =>
    ((c.fwWrite (siList p) (toLE 64 siDesc)).giveList (stKey p 0) (siList p) 1).modSp p (fun x => { x with siDue := true, next := recs p })) c

/-! ### Firmware queues -/

/-- A firmware queue of die `d` (R346): producer, and slots of 8 KiB and depth 2 in the workspace of the comparator core. -/
def Chip.bindFw (c : Chip) (d cmpStn : Nat) (q prod : Nat) : Chip :=
  let x := prod + cmpStn <<< 10 + 1 <<< 20 + 2 <<< 23 + 13 <<< 32 + ((q - 1008) * 16384) <<< 64
  let o := qdescOff q 0
  let c1 := (c.setReg64 d o (x % 2 ^ 64)).setReg64 d (o + 8) (x / 2 ^ 64)
  c1.setQueue (d * 1024 + q) ((c1.queue (d * 1024 + q)).fresh 2 (c1.queue (d * 1024 + q)).left)

/-- The comparator of turn `t` and the firmware queues of die `d` bound for it (R346, R358). -/
def Chip.bindBlank (c : Chip) (t d : Nat) : Chip :=
  if c.fenced d then c
  else
    let l := t % 8
    let cmp := coreStn d (c.physOf d l) 2
    let dm := fun m => coreStn d (c.physOf d m) 3
    let qs := (List.range 8).map (fun m => (1008 + m, dm m)) ++ [(1016, d * 128 + 96), (1017, d * 128 + 97), (1018, dm l), (1019, dm l)]
    eachDo qs (fun q c => c.bindFw d cmp q.1 q.2) (c.setReg d (blkBlk + 0x20) l)

/-! ### Partition resets -/

/-- The queue and task entries of partition `p` as the load wrote them (R508). -/
def Chip.asLoaded (c : Chip) (p : Nat) : Chip :=
  let own := fun (k : Nat) =>
    let d := k / 16777216
    let off := k % 16777216
    let v := fun (o : Nat) => (tabGet 0#32 c.boot.tables (regKey d o)).toNat
    if off < 0x14000 then bits (v (off / 16 * 16)) 22 21 == p else bits (v (off / 64 * 64 + 0x30)) 8 7 == p
  let mine := c.boot.tables.filter (fun e => own e.1)
  { c with regs := mine.foldl (fun (t : Tab Word) (e : Nat × Word) => tabSet 0#32 t e.1 e.2) c.regs }

/-- Step 4 for a partition under reset (R508): its queues EMPTY, its windows closed, its queue and task entries as loaded, on the cores that now carry them. -/
def Chip.resetPart (c : Chip) (p : Nat) : Chip :=
  let c1 := c.asLoaded p
  -- entries of the partition that the load did not make hold zero again
  let c2 := c1.clearRegs (fun d off =>
    if off % 0x10 = 0 ∧ isQdesc0 off ∧ bits (c.reg d off) 22 21 = p ∧ qValid (c.reg d off) ∧ (tabGet 0#32 c.boot.tables (regKey d off)).toNat = 0
    then 0xFFFFFFFF else 0)
  let qs := c2.queueList.filter (fun q => qPart (c2.qdesc q) == p)
  let c3 := eachDo qs (fun q c => c.setQueue q ((c.queue q).fresh (qDepth (c.qdesc q)) 0)) c2
  let cores := ((List.range 8).drop 1).flatMap (fun d => (List.range 8).map (fun l => (d, l)))
  let c4 := eachDo cores (fun x c => (c.moveEnds (moveStn x.1 (4 * x.2) (32 + 4 * c.physOf x.1 x.2))).rebindBases x.1 x.2 (c.physOf x.1 x.2)) c3
  let c5 := c4.modSess (c4.sessOf p) (fun s => { s with neg := none, next := none })
  c5.setFld 0 (pwrBlk + 0x18) 31 16 (min 0xFFFF (c5.fld 0 (pwrBlk + 0x18) 31 16 + 1))

/-! ### Packages, sessions and dumps at step 6 -/

/-- The header field at `off` of the package in slot `s` (R349). -/
def Chip.pkgField (c : Chip) (s off n : Nat) : Nat := fromLE (flashRead c.nv.fl0 ((if s = 1 then 0xF60000 else 0x1760000) + off) n)

/-- The package in slot `s` (1 or 2, 0 none) active on every die (R354, R358). -/
def Chip.usePkg (c : Chip) (s : Nat) : Chip :=
  let c1 := eachDo (((List.range 8).drop 1).filter (fun d => !c.fenced d)) (fun d c =>
    (c.setReg d (blkBlk + 0xC) (if s = 0 then 0 else c.pkgField s 8 4)).setReg d (blkBlk + 0x10) (if s = 0 then 0 else c.pkgField s 12 4)) c
  { c1 with boot := { c1.boot with pkgSlot := s, pkgNext := 0 } }

/-- The session changes that wait for the boundary (R458, R460). -/
def Chip.applySessions (c : Chip) : Chip :=
  eachDo (List.range 4) (fun s c =>
    match (c.sess s).next with
    | some n => c.modSess s (fun x => { x with neg := n, next := none })
    | none => c) c

/-- DUMP_MATCH and DUMP_TAG of the dies that serve the job of a dump of turn `t`; those of an earlier dump are disarmed (R488). -/
def Chip.armDumps (c : Chip) (t : Nat) : Chip :=
  let c1 := c.clearRegs (fun d off => if d ≠ 0 ∧ off = obsBlk + 0xC then 0x4000 else 0)
  eachDo (c.obs.dumps.filter (fun x => x.turn == t)) (fun x c =>
    let dies := ((List.range 8).drop 1).filter (fun d => !(c.tasksOn x.part d).isEmpty)
    (eachDo dies (fun d c => ((c.setReg d (obsBlk + 8) (x.layer + x.opId <<< 16)).setReg d (obsBlk + 0xC) (x.outIx + x.job <<< 8 + 1 <<< 14)).setReg d (obsBlk + 0x10) 0) c).setReg
      0 (obsBlk + 0x14) (2 + x.part <<< 2)) c1

/-! ### The boundary -/

/-- Whether every rank of die `d` was checked under R210 in its first full-load turn (R211). -/
def Chip.revalidated (c : Chip) (d : Nat) : Bool :=
  (List.range 2).all (fun s => (List.range (c.ranks d)).all (fun r => tabGet false c.ecc.reval (d * 4 + s * 2 + r)))

/-- Counts of the ending turn that run from turn to turn (R205, R329), the end of each rest (R331), and the re-validation of a first full-load turn (R211, R335). -/
def Chip.closeTurn (c : Chip) : Chip :=
  let c1 := eachDo (List.range 4) (fun p c =>
    let x := c.part p
    let c1 := if x.missNow = 0 then c.setFld 0 (tsBlk + 0x14) (4 * p + 3) (4 * p) 0 else c
    c1.modPart p (fun x => { x with poisRun := if x.poisNow then x.poisRun + 1 else 0 })) c
  let dies := ((List.range 8).drop 1).filter (fun d => !c.fenced d)
  eachDo dies (fun d c => if tabGet 0 c.wrk.full d = c.turn + 1 ∧ c.revalidated d then c.orReg 0 (tsBlk + 0x18) (1 <<< (3 + d)) else c) (eachDo dies (fun d c => c.restEnds d) c1)

/-- The tables of a turn begun anew: per-turn state of tasks, jobs, partitions, contributions, replay counts and verdicts, with the records of the last turns; no content of a core
buffer or drain store persists (R18). -/
def Chip.freshTurn (c : Chip) (t : Nat) : Chip :=
  let near := fun (k : Nat) => decide ((t + 2 ^ 32 - k / 4) % 2 ^ 32 < 16)
  let c1 := c.clearRegs (fun _ off => if xdBlk ≤ off ∧ off < xdBlk + 0x200 ∧ off % 0x40 = 0x14 then 0x3FFF else 0)
  let again := fun (x : PartSt) => ({ x with bounds := 0, staged := [], endNs := 0, fail := 0, failMsg := 0, failDie := 0, sent := 0, streams := 0, lidars := 0,
                                             poisNow := false, missNow := 0, missBit := 0 } : PartSt)
  let starts := tabSet 0 (tabKeep (fun k => decide (c.turn ≤ k + 8)) c.wrk.starts) c.turn (c.turnStart + 1)
  { c1 with
    ecc := { c1.ecc with live := [] },
    lnk := { c1.lnk with links := tabMap {} (fun _ x => { x with replays := 0 }) c1.lnk.links, contribs := [], txNum := [], txTo := [], tallies := [], sent := [], clean := [], coll := [] },
    wrk := { c1.wrk with jobs := [], tasks := tabMap {} (fun _ x => { x with released := false, ended := false }) c1.wrk.tasks,
                         parts := tabMap {} (fun _ x => again x) c1.wrk.parts, records := tabKeep near c1.wrk.records, gates := tabKeep near c1.wrk.gates,
                         verdicts := [], blankBad := [], starts := starts, slotNs := 0 } }

/-- The jobs of turn `t` launched: those due, of started partitions that no reset holds back (R35, R323, R508). -/
def Chip.launchJobs (c : Chip) (t : Nat) : Chip :=
  eachDo (c.jobs.filter (fun j => c.dueIn j t && (c.part (c.jobPart j)).started && (c.part (c.jobPart j)).reset != 2)) (fun j c =>
    c.setJob j { c.job j with launched := true }) c

/-- Turn `t` begins now, lengthened or shortened where `stepped` (R321, R341). -/
def Chip.beginTurn (c : Chip) (t : Nat) (stepped : Bool) : Chip :=
  let c1 := (c.setReg64 0 tsBlk t).setReg64 0 (tsBlk + 8) c.nowNs
  c1.setReg 0 (tsBlk + 0x10) (1 + 4 * b2n stepped)

/-- A time step at the boundary: the accepted requests and the first lock together, also where they sum to 0 (R304, R306, R321). -/
def Chip.boundaryStep (c : Chip) : Bool × Chip :=
  let all := c.net.steps ++ c.net.lockStep.toList
  let c1 := if c.net.lockStep.isSome then c.setTb 2 else c
  let c2 := { c1 with net := { c1.net with steps := [], lockStep := none } }
  if all.isEmpty then (false, c2) else (true, c2.stepTime (sumInt all))

/-- Domains on in PARK by DOM_ON bits: AON, FWC, HSX, and NET for its MGMT ports (R502, R512). -/
def parkOn : Nat := 0x1B

/-- What begins at a boundary that a power request claims (R503–R505): IDLE at once; PARK is entered in a move that ends later. -/
def Chip.boundaryPower (c : Chip) : Chip :=
  let quiet := fun (c : Chip) (v : Nat) => c.setReg 0 pwrBlk v
  match c.pwr.want with
  | 1 => let c1 := quiet c 1; { c1 with pwr := { c1.pwr with want := 0, idleTurns := true } }
  | 2 => let c1 := quiet c 3; { c1 with pwr := { c1.pwr with want := 0, idleTurns := true, move := 2 } }
  | _ => c

/-- Steps 4 and 5 of the boundary into turn `t` (R16, R17, R53, R324, R508): queues, windows, partition resets and, but in PARK, the cores. -/
def Chip.boundaryQueues (c : Chip) (t : Nat) : Chip :=
  let held := (List.range 4).filter (fun p => (c.part p).reset == 1)
  let c1 := eachDo (c.queueList.filter (fun q => qCarry (c.qdesc q) && !(c.queue q).frozen)) (fun q c => c.resolveCarry q) c
  let c2 := (eachDo c1.queueList (fun q c => c.boundaryQueue t q) c1).closeWindows
  let c3 := eachDo held (fun p c => c.resetPart p) c2
  let c4 := eachDo (List.range 4) (fun p c => c.modPart p (fun x => { x with reset := match x.reset with | 1 => 2 | _ => 0 })) c3
  if c4.pwrState = 2 then c4 else eachDo ((List.range 8).drop 1) (fun d c => c.coreStep t d) c4

/-- The views, jobs and lists of turn `t` (R66, R259, R323, R324, R346), in which tasks run; `old` is the turn that ends. -/
def Chip.boundaryJobs (c : Chip) (old t : Nat) : Chip :=
  let c1 := if c.pwr.idleTurns then (c.freshQueues).freshRings old else eachDo c.ringList (fun s c => c.remap old s) c
  let c2 := ({ c1 with pwr := { c1.pwr with idleTurns := false } }).launchJobs t
  (eachDo ((List.range 8).drop 1) (fun d c => c.bindBlank t d) c2.writeLists).dueSi

/-- The work of the boundary from step 4 on, into turn `t`; `run` when tasks of the turn run (R324). -/
def Chip.boundaryWork (c : Chip) (t : Nat) (run stepped : Bool) : Chip :=
  let c1 := (c.boundaryQueues t).freshTurn t
  let c2 := if run then c1.boundaryJobs c.turn t else c1.clearLists
  let c3 := if c2.boot.pkgNext = 0 then c2 else c2.usePkg c2.boot.pkgNext
  ((c3.applySessions).armDumps t).beginTurn t stepped

/-- TURN_BOUNDARY (R320, R321, R324, R490, R503–R505): turn 0 starts at its grid instant; every later boundary ends a turn and begins the next, in which tasks run in the ACTIVE
state from the first grid instant after a resume on. A spindle lock armed for the turn stops the device first. -/
def Chip.turnBoundary (c : Chip) (env : BoundaryEnv) : Chip :=
  if c.turnState = 2 then c
  else if c.turnState = 0 then
    if !c.flt.armed then c
    else
      let c1 := c.advanceTo c.wrk.firstNs
      let c2 := eachDo ((List.range 8).drop 1) (fun d c => if c.fenced d then c else c.restBegins d 0) c1
      let c3 := ((eachDo ((List.range 8).drop 1) (fun d c => c.bindBlank 0 d) (c2.launchJobs 0).writeLists).dueSi).applySessions
      (((c3.armDumps 0).beginTurn 0 false).setFld 0 startBlk 3 0 13).shav 2 1 0x0001 13 ((c1.nowNs - c1.boot.ns) / 1000000) 0
  else
    let t := c.turn + 1
    let c0 := c.advanceTo c.turnEnd
    let c1 := if c0.fld 0 (obsBlk + 0x1C) 1 0 = 1 ∧ c0.reg64 0 (obsBlk + 0x20) = t then c0.spLock 1 0 else c0
    if c1.locked then c1
    else
      let s := c1.boundaryStep
      let c2 := (s.2.closeTurn).boundaryCounters env
      let c3 := c2.boundaryPower
      c3.boundaryWork t (c3.pwrState == 0 && (!c3.pwr.idleTurns || decide (c3.wrk.firstNs ≤ c3.nowNs))) s.1

/-- TURN_BOUNDARY. -/
def execTurnBoundary (env : BoundaryEnv) (s : State) : Host.Outcome State Fault Refusal := .next { s with chip := s.chip.awake (·.turnBoundary env) }

end Sys2Proof.Machine
end

