-- ==== Sys2Proof/Machine/Command.lean ====
section
/-! DEFINITION. Machine/Command.lean: a station starts and completes the commands of its list (R63–R68, R71, R204, R234, R473). -/
namespace Sys2Proof.Machine

/-- Address of a station's command list: ST_CMDBASE, or the list of partition `p` that the XD holds beside it (R66, R230). -/
def Chip.listBase (c : Chip) (k : Nat) : Nat :=
  if k % 4 = 0 then c.reg64 (stDie (k / 4)) (stBlk (stIdx (k / 4)) + 4) % 2 ^ 48 else tabGet 0 c.fab.xdBase k
/-- Number of descriptors in that list (R67), or in the blank's. -/
def Chip.listCount (c : Chip) (k : Nat) : Nat :=
  match (c.station k).blank with
  | some l => l.length
  | none =>
  if k % 4 = 0 then bits (c.reg (stDie (k / 4)) (stBlk (stIdx (k / 4)) + 0xC)) 12 0 else tabGet 0 c.fab.xdCount k
/-- Descriptor `i` of a station's list as stored, or of the blank that it runs. -/
def Chip.listDesc (c : Chip) (k i : Nat) : Nat :=
  match (c.station k).blank with
  | some l => l.getD i 0
  | none => fromLE (c.peek (c.listBase k + 64 * i) 64)

/-- Station number that a program uses for the station of key `k`. -/
def Chip.progStn (c : Chip) (k : Nat) : Nat := (c.logStn (k / 4)).getD (k / 4)

/-- Task entry that serves job `j` at the station of key `k`. -/
def Chip.runTask (c : Chip) (k j : Nat) : Nat := c.taskOf j (c.progStn k)

/-- Whether a job's commands may start at a station: its task is released and has not ended (R323); firmware and blank commands are their list's own. -/
def Chip.mayRun (c : Chip) (k j : Nat) : Bool :=
  j == 255 || (decide (c.runTask k j < 256) && (let t := c.task (stDie (k / 4)) (c.runTask k j); t.released && !t.ended))

/-- Partition that the counters name for a command: its job's, or its list's. -/
def Chip.cmdPart (c : Chip) (k j : Nat) : Nat := if j = 255 then k % 4 else c.jobPart j

/-- A run as it starts. With tile_count 0 it takes nothing and writes one EOS marker into each output queue (R71). -/
def startRun (desc ix task : Nat) : Run :=
  let r : Run := { desc := desc, ix := ix, task := task }
  if dTiles desc = 0 then
    { r with begun := true, inDone := true, outs := (List.range (dNout desc)).map (fun i => eosTile i false) }
  else r

/-- One command ended with status `s` without running: counted and noted (R65, R67). -/
def Chip.skipCmd (c : Chip) (k ix s : Nat) : Chip :=
  (c.addReg (stDie (k / 4)) (stBlk (stIdx (k / 4)) + 0x10) 1).noteStatus k ix s

/-- Number of descriptors in its list of real work (R67). -/
def Chip.realCount (c : Chip) (k : Nat) : Nat :=
  if k % 4 = 0 then bits (c.reg (stDie (k / 4)) (stBlk (stIdx (k / 4)) + 0xC)) 12 0 else tabGet 0 c.fab.xdCount k

/-- Whether a station still runs, or has still to start, a command of job `j`. -/
def Chip.jobLeft (c : Chip) (j k : Nat) : Bool :=
  let x := c.realStation k
  x.runs.any (fun r => dJob r.desc == j)
    || (List.range (c.realCount k - x.next)).any (fun i => dJob (fromLE (c.peek (c.listBase k + 64 * (x.next + i)) 64)) == j)

/-- The station keys that one task covers with `k`: the four stations of its core, or that station alone (R174). -/
def taskKeys (k : Nat) : List Nat :=
  let st := k / 4
  if stDie st ≠ 0 ∧ 32 ≤ stIdx st ∧ stIdx st < 68 then (List.range 4).map (fun i => stKey (st / 4 * 4 + i) 0) else [k]

/-- Task `t` of die `d` ends, an event of its partition's ready instant (R327, R362). -/
def Chip.endTask (c : Chip) (d t : Nat) : Chip :=
  if t < 256 ∧ !(c.task d t).ended then
    (c.setTask d t { c.task d t with ended := true }).noteEnd (bits (c.reg d (taskBlk t + 0x30)) 8 7)
  else c

/-- A task ends when the last command of its job in the lists of its stations has completed (R327). -/
def Chip.taskDone (c : Chip) (k j : Nat) : Chip :=
  if j = 255 ∨ (taskKeys k).any (c.jobLeft j) then c
  else (c.endTask (stDie (k / 4)) (c.runTask k j)).settle

/-- The start itself. -/
def Chip.launch (c : Chip) (k desc j : Nat) (ups : Upsets) : Chip :=
  let st := k / 4
  let x := c.station k
  let rd := if x.blank.isSome then (c, [], [])
    else c.read { kind := 2, job := j, part := c.jobPart j, safety := j != 255 && c.isSafety (c.jobPart j) } ups (c.listBase k + 64 * x.next) 64
  let c0 := if x.next = 0 then rd.1 else rd.1.snapshot st
  let c1 := c0.startCounters st desc x.next (c.cmdPart k j)
  if rd.2.2.isEmpty then
    let c2 := c1.modStation k (fun y => { y with runs := y.runs ++ [startRun desc y.next (c.runTask k j)], next := y.next + 1, lastJob := j })
    if x.blank.isSome then c2 else c2.setFld (stDie st) (stBlk (stIdx st) + 0x14) 4 4 1
  else
    ((c1.modStation k (fun y => { y with next := y.next + 1, lastJob := j })).skipCmd k x.next stPoisoned).consume st j 4

/-- COMMAND_START (R63, R65, R68, R71, R204, R473): the next command of the list starts when the station is enabled, its task is released and the command before
it has issued its last input read; with FENCE or another job it waits for that command to complete. A command of a job already terminated is passed
over (log 13), and one whose descriptor is read poisoned consumes poison. An SI station starts its one command in SI_RUN (R253). -/
def Chip.commandStart (c : Chip) (k : Nat) (ups : Upsets) : Chip :=
  let st := k / 4
  let d := stDie st
  let x := c.station k
  let desc := c.listDesc k x.next
  let j := dJob desc
  if stType st = 7 then c else if (x.blank.isNone && !bit (c.reg d (stBlk (stIdx st))) 0) || decide (c.listCount k ≤ x.next) then c
  else if c.jobDead j && x.runs.isEmpty then c.modStation k (fun y => { y with next := y.next + 1, lastJob := j })
  else if !c.mayRun k j then c
  else
    match x.runs.getLast? with
    | some last =>
      if !last.inDone then c
      else if dFence desc || dJob last.desc != j then c.stall st 0xA 1
      else c.launch k desc j ups
    | none => c.launch k desc j ups

/-- Whether everything a run issued is done: its slots FULL, its stores accepted, its requests answered and its input slots released (R63). -/
def Run.settled (r : Run) : Bool :=
  r.inDone && r.outs.isEmpty && r.claims0 == 0 && r.claims1 == 0 && r.stores.isEmpty && r.reqs.isEmpty && r.rets.isEmpty && r.ins.isEmpty

/-- Whether an MX still has vectors of the pass in its pipeline (R89). -/
def Chip.pipeBusy (c : Chip) (st desc : Nat) : Bool :=
  stType st == 1 && (tabGet {} c.cmp.mx st).pipe.any (fun f => f.pass.desc == desc)

/-- Whether a context has still a blank command to run (R325). -/
def Station.blankLeft (x : Station) : Bool := !x.runs.isEmpty || decide (x.next < (x.blank.getD []).length)

/-- A held station whose blank has ended after the slot's end takes its real work up again, in all its contexts: the held cycles count TESTWIN, at the nominal rate of the
station's island (R325, R326, R471). -/
def Chip.resume (c : Chip) (st : Nat) : Chip :=
  let mine := c.fab.held.filter (fun h => h.1 / 4 == st)
  match mine with
  | [] => c
  | _ :: _ =>
    if bit (c.reg 0 (tsBlk + 0x10)) 3 || mine.any (fun h => (c.station h.1).blankLeft) then c
    else
      let c1 := eachDo mine (fun h c => c.setStation h.1 h.2) c
      let cm := { c1.cmp with mx := tabSet {} c1.cmp.mx st (tabGet {} c1.cmp.heldMx st), wf := tabSet {} c1.cmp.wf st (tabGet {} c1.cmp.heldWf st),
                              heldMx := tabSet {} c1.cmp.heldMx st {}, heldWf := tabSet {} c1.cmp.heldWf st {} }
      let c2 := { c1 with cmp := cm, fab := { c1.fab with held := c1.fab.held.filter (fun h => h.1 / 4 != st) } }
      let ns := c2.nowNs - c2.wrk.slotNs
      c2.stallAt st 8 (if stIdx st < 96 then ns * 8 / 10 else ns * 12 / 10)

/-- The registers that change only when a command ends OK: a comparison's result, the length of a mover's stream, and a BX's candidates, overflow, kept boxes and cycles (R136, R164). -/
def Chip.endRegs (c : Chip) (st : Nat) (r : Run) : Chip :=
  let d := stDie st
  let a := fun (i : Nat) => r.acc.getD i 0
  if r.status ≠ stOk ∨ r.acc.isEmpty then c
  else if dType r.desc = 3 ∧ dOp r.desc = 7 then
    let o := vxBlk ((stIdx st - 32) / 4)
    (c.setReg d (o + 0x18) (min 0xFFFF (a 0) + (a 2 % 65536) <<< 16)).setReg d (o + 0x1C) (a 1 % 65536)
  else if dType r.desc = 4 ∧ dmComp r.desc = 2 then c.setReg d (dmBlk (if d = 0 then stIdx st - 72 else (stIdx st - 32) / 4) + 8) (a 0)
  else if dType r.desc = 5 then (((c.setReg d (bxBlk + 8) (a 0)).setReg d (bxBlk + 0xC) (a 1)).setReg d (bxBlk + 0x10) (a 2)).setReg d (bxBlk + 0x14) (a 3)
  else c

/-- COMMAND_COMPLETE (R63, R65, R67, R234, R473): the oldest command ends once everything it issued is done; after the last of the list the shadow is taken, and
after the last of a task the task ends. -/
def Chip.commandComplete (c : Chip) (k : Nat) : Chip :=
  let st := k / 4
  match (c.station k).runs with
  | [] => c
  | r :: rest =>
    if !r.settled || c.pipeBusy st r.desc then c
    else
      let s := if r.status = stOk ∧ r.closed then stWindowClosed else r.status
      let c1 := (c.endRegs st r).modStation k (fun y => { y with runs := rest })
      let c2 := if (c.station k).blank.isSome then c1 else c1.endReal k r.ix s
      let c3 := if rest.isEmpty ∧ c2.listCount k ≤ (c2.station k).next then c2.snapshot st else c2
      (c3.taskDone k (dJob r.desc)).resume st

/-- COMMAND_START. -/
def execCommandStart (st : Stn) (p : Part) (ups : Upsets) (s : State) : Host.Outcome State Fault Refusal :=
  .next { s with chip := s.chip.work (·.commandStart (stKey st (if isXd st then p else 0)) ups) }
/-- COMMAND_COMPLETE. -/
def execCommandComplete (st : Stn) (p : Part) (s : State) : Host.Outcome State Fault Refusal :=
  .next { s with chip := s.chip.work (·.commandComplete (stKey st (if isXd st then p else 0))) }

end Sys2Proof.Machine
end

