-- ==== Sys2Proof/Machine/Supervise.lean ====
section
/-! DEFINITION. Machine/Supervise.lean: the release of tasks (R180, R323), timing supervision (R327–R329), station resets (R509), structural self-test (R330–R334),
sustained clocks (R336) and the periodic tests (R337). -/
namespace Sys2Proof.Machine

/-! ### Tasks of a job -/

/-- The task entries of job `j`: die and entry (R174). -/
def Chip.jobTasks (c : Chip) (j : Nat) : List (Nat × Nat) :=
  c.regs.filterMap fun kv =>
    let o := kv.1 % 16777216
    let v := kv.2.toNat
    if 0x80000 ≤ o ∧ o < 0x84000 ∧ o % 0x40 = 0x30 ∧ bit v 0 ∧ bits v 6 1 = j then some (kv.1 / 16777216, (o - 0x80000) / 0x40) else none

/-- TB_OWNER of a task entry. -/
def Chip.owner (c : Chip) (d k : Nat) : Nat := c.reg d (taskBlk k + 0x30)

/-- The station keys that a task covers (R174). -/
def Chip.keysOfTask (c : Chip) (d k : Nat) : List Nat :=
  let v := c.owner d k
  if bit v 12 then [c.keyOf (d * 128 + bits v 19 13) (bits v 8 7)]
  else (List.range 4).map (fun i => stKey (coreStn d (c.physOf d (bits v 11 9)) i) 0)

/-! ### TASK_RELEASE -/

/-- A window that an HSD job declares, opened by the Turner (R180): its start lies in the region of the job's first HSD task. -/
def Chip.openHsd (c : Chip) (j desc : Nat) : Chip :=
  match (c.jobTasks j).find? (fun t => t.1 == 0) with
  | none => c
  | some t =>
    let st := bits (c.owner 0 t.2) 19 13
    match c.xlateW st t.2 (xwRegion desc) (xwOff desc) (xwSize desc) with
    | none => c
    | some a => if xwSize desc = 0 then c else c.putWindow 0 a desc

/-- TASK_RELEASE (R180, R323): the tasks of a launched job are released at the turn start plus rel_us, in one step; a task whose stations hold no command of the job
ends at once. -/
def Chip.taskRelease (c : Chip) (j : Nat) : Chip :=
  let ts := c.jobTasks j
  if !c.running || !c.launched j || c.jobDead j || ts.any (fun t => (c.task t.1 t.2).released) then c
  else
    let c1 := c.advanceTo (c.turnStart + c.cfgBy 0x0702 j 5 50 * 1000)
    let c2 := eachDo (c1.wrk.hsdWins.filter (fun x => dJob x == j)) (fun x c => c.openHsd j x) c1
    let c3 := eachDo ts (fun t c => c.setTask t.1 t.2 { c.task t.1 t.2 with released := true }) c2
    (eachDo ts (fun t c => if (c.keysOfTask t.1 t.2).any (c.jobLeft j) then c else c.endTask t.1 t.2) c3).settle

/-! ### Timing faults -/

/-- The command of job `j` that waits on a slot at a station ends TIMEOUT (R55): for a credit the oldest with a tile to write, for a tile the newest. -/
def waitingRuns (status j : Nat) (runs : List Run) : List Run :=
  let mine := runs.filter (fun r => dJob r.desc == j)
  let w5 := if bit status 5 then (mine.find? (fun r => !r.outs.isEmpty || isColl r.desc)).toList else []
  let w6 := if bit status 6 then (mine.getLast?.filter (fun r => !w5.any (fun x => x.ix == r.ix))).toList else []
  w5 ++ w6

/-- Every station of job `j` ends a command that waits on a slot with TIMEOUT (R55, R327). -/
def Chip.timeoutRuns (c : Chip) (j : Nat) : Chip :=
  eachDo c.liveKeys (fun k c =>
    let status := c.reg (stDie (k / 4)) (stBlk (stIdx (k / 4)) + 0x14)
    eachDo (waitingRuns status j (c.realStation k).runs) (fun r c => c.endReal k r.ix stTimeout) c) c

/-- TS_DETAIL or TS_HSD_DETAIL of a timing fault of task `k` (R340, R341). -/
def Chip.taskDetail (c : Chip) (d k code : Nat) (qm : Bool) : Nat :=
  let v := c.owner d k
  let place := if d = 0 then bits v 19 13 <<< 16 else if bit v 12 then 0 else c.physOf d (bits v 11 9) <<< 16 + bits v 11 9 <<< 20
  k + bits v 6 1 <<< 8 + bits v 8 7 <<< 14 + place + code <<< 23 + (b2n qm) <<< 26

/-- FSW bit of a timing fault of a SAFETY task on die `d` (R328). -/
def timeBit (d : Nat) : Nat := if d = 0 then 7 else 8 * d + 6

/-- A missed job of a SAFETY partition (R329): the first of the turn lengthens the partition's run; a run above the smallest miss_allow of the jobs missed in the turn drives
the safe state on the bit of the turn's first timing fault, while that bit has class B. -/
def Chip.noteMiss (c : Chip) (p j b : Nat) : Chip :=
  let x := c.part p
  let old := c.fld 0 (tsBlk + 0x14) (4 * p + 3) (4 * p)
  let run := if x.missNow = 0 then min 15 (old + 1) else old
  let allow := c.cfgBy 0x0702 j 7 1
  let least := if x.missNow = 0 then allow else min x.missNow allow
  let first := if x.missBit = 0 then b + 1 else x.missBit
  let c1 := (c.setFld 0 (tsBlk + 0x14) (4 * p + 3) (4 * p) run).modPart p (fun y => { y with missNow := least, missBit := first })
  let past := decide (least < run) && !(decide (x.missNow ≠ 0) && decide (x.missNow < old))
  let die := (first - 1) / 8
  if past && c.fclass (first - 1) == 2 then c1.escalate (first - 1) 0x14 die (if die = 0 then 0 else srcOf die tsBlk) else c1

/-- The status bit of one timing fault (R328): `i` 0 budget, 1 deadline. -/
def Chip.timeFault (c : Chip) (d k i : Nat) : Chip :=
  let qm := !c.isSafety (bits (c.owner d k) 8 7)
  let n := if qm then (if d = 0 then i + 2 else i + 6) else i
  c.tsRaise d n (0x12 + i) (c.taskDetail d k (i + 1) qm)

/-- What follows a timing fault of job `j` on task `k` of die `d` (R327, R329). -/
def Chip.missJob (c : Chip) (d j code : Nat) : Chip :=
  let p := c.jobPart j
  let c1 := if c.isSafety p then c.noteMiss p j (timeBit d) else c
  ((c1.timeoutRuns j).endJob j code).settle

/-- Instant at which a task's budget timer reaches `budget` µs: it starts at the release and pauses for the whole blank slot (R327). -/
def Chip.budgetNs (c : Chip) (rel budget : Nat) : Nat :=
  let off := c.cfg1 0x0701 3 0
  let len := c.cfg1 0x0701 4 0
  let s := if off ≤ rel ∧ rel < off + len then off + len else rel
  c.turnStart + (s + budget + (if rel < off ∧ off < s + budget then len else 0)) * 1000

/-- BUDGET_EXPIRY (R327, R328): the timer of a released task reaches its budget before its last command has completed. -/
def Chip.budgetExpiry (c : Chip) (d k : Nat) : Chip :=
  let v := c.owner d k
  let j := bits v 6 1
  let t := c.task d k
  if !c.running || !bit v 0 || !t.released || t.ended || c.jobDead j then c
  else ((c.advanceTo (c.budgetNs (c.cfgBy 0x0702 j 5 50) t.budget)).timeFault d k 0).missJob d j 2

/-- DEADLINE_EXPIRY (R327, R328): the time base reaches the turn start plus deadline_us while a task of the job has not ended. -/
def Chip.deadlineExpiry (c : Chip) (j : Nat) : Chip :=
  if !c.running || !c.launched j || c.jobDead j then c
  else
    let c1 := c.advanceTo (c.turnStart + c.cfgBy 0x0702 j 6 0 * 1000)
    match (c1.jobTasks j).filter (fun t => !(c1.task t.1 t.2).ended) with
    | [] => c1
    | t :: ts => (eachDo (t :: ts) (fun t c => c.timeFault t.1 t.2 1) c1).missJob t.1 j 3

/-! ### Station resets -/

/-- A station reset (R509): the commands in progress end ABORTED, the list registers and the CC counters return to zero, and the slots it holds stay as they are. -/
def Chip.stationReset (c : Chip) (st : Nat) : Chip :=
  let d := stDie st
  let o := stBlk (stIdx st)
  let c1 := eachDo (List.range 4) (fun p c => c.setStation (stKey st p) {}) c
  let keep := fun (k : Nat) => k / 4 != st
  let c2 := { c1 with
    fab := { c1.fab with held := c1.fab.held.filter (fun h => keep h.1), xdBase := tabKeep keep c1.fab.xdBase, xdCount := tabKeep keep c1.fab.xdCount },
    cmp := { c1.cmp with mx := tabSet {} c1.cmp.mx st {}, wf := tabMod {} c1.cmp.wf st (fun w => { w with pos := 0 }),
                         heldMx := tabSet {} c1.cmp.heldMx st {}, heldWf := tabSet {} c1.cmp.heldWf st {} } }
  let c3 := (((c2.setReg64 d (o + 4) 0).setReg d (o + 0xC) 0).setReg d (o + 0x10) 0).setFld d (o + 0x14) 6 0 stAborted
  let c4 := eachDo ((List.range 4) ++ (List.range 22).map (· + 8)) (fun i c => c.setReg d (cntBlk (stIdx st) + 0x80 + 4 * i) 0) c3
  c4.setFld 0 (pwrBlk + 0x18) 15 0 (min 0xFFFF (c4.fld 0 (pwrBlk + 0x18) 15 0 + 1))

/-- STATION_RESET_BY_CARVER (R327, R509): a station still at a command of a terminated job. -/
def Chip.carverReset (c : Chip) (st : Nat) : Chip :=
  let busy := (List.range 4).any (fun p => (c.realStation (stKey st p)).runs.any (fun r => c.jobDead (dJob r.desc)))
  if busy then (c.stationReset st).settle else c

/-! ### Self-test -/

/-- Whether every task of a core in this turn has ended, so that its short window has begun (R334). -/
def Chip.coreIdle (c : Chip) (d k : Nat) : Bool :=
  match c.logOf d k with
  | none => true
  | some l => (List.range 256).all (fun t =>
      let v := c.owner d t
      !bit v 0 || bit v 12 || bits v 11 9 != l || !c.launched (bits v 6 1) || (c.task d t).ended)

/-- A segment that passed (R330): the checkpoint advances; with the 48th the full test completes and the next one starts in the same rest. -/
def Chip.segPass (c : Chip) (d k : Nat) : Chip :=
  let o := tsBlk + 0x10 + 4 * k
  let n := c.fld d o 5 0 + 1
  if n < 48 then c.setFld d o 5 0 n
  else (c.setReg d o ((min 0xFFFF (c.fld d o 23 8 + 1)) <<< 8)).setTest d k { since := c.turn + 1 }

/-- A segment that failed (R332): TS_STATUS[3], the element in the repair record, and the core's withdrawal at the next boundary when the bit is not of class A; on a die
already without a resting core, the safe state. It has completed, so it counts. -/
def Chip.segFail (c : Chip) (d k : Nat) (e : Repair) : Chip :=
  let detail := k <<< 16 + 5 <<< 23
  let c1 := ((c.addRepair e).segPass d k)
  if bit (c.reg d (tsBlk + 0xC)) 13 then c1.tsRaise d 3 0x17 detail (esc := true)
  else
    let c2 := c1.tsRaise d 3 0x02 detail
    if c.fclass (8 * d) = 1 then c2 else { c2 with boot := { c2.boot with withdraw := tabSet 0 c2.boot.withdraw d (k + 1) } }

/-- SELFTEST_SEGMENT_DONE (R330–R334): a segment of the core that rests, or whose short window runs. -/
def Chip.segmentDone (c : Chip) (d k : Nat) (v : SegVerdict) : Chip :=
  if c.fenced d || !c.running || c.testCore d c.turn != some k || (bit (c.reg d (tsBlk + 0xC)) 13 && !c.coreIdle d k) then c
  else
    match v with
    | .pass => c.segPass d k
    | .dpu a l => c.segFail d k ⟨1, d, 4 * k + a, 0xFF, l⟩
    | .row b n r => c.segFail d k ⟨3, d, k + b.val <<< 4, 0xFF, n * 65536 + r.toNat⟩
    | .other => c.segFail d k ⟨2, d, k, 0xFF, 0⟩

/-! ### Clocks -/

/-- CLK_SUST of a core island, or CLK_SUST_DB (R340). -/
def clkOff (i : Nat) : Nat := if i < 9 then tsBlk + 0x34 + 4 * i else tsBlk + 0x58

/-- The sustained clock of a core or die-buffer island after a window of `n` cycles (R336): the mean of its last eight windows; below 776.0 MHz it raises CLOCK_LOW, once until
100 windows in a row have held that clock. -/
def Chip.sustain (c : Chip) (d i n : Nat) : Chip :=
  let key := d * 16 + i
  let x := tabGet {} c.wrk.clks key
  let win := (n :: x.win).take 8
  let sum := sumOver win id
  let low := decide (sum < 776000 * win.length)
  let now := sum / win.length / 100
  let least := if x.cycles = 0 then now else min (c.fld d (clkOff i) 31 16) now
  let held := if n < 776000 then (if 100 ≤ x.good then x.good else 0) else min 101 (x.good + 1)
  let fire := low && decide (100 ≤ x.good)
  let c1 := { c with wrk := { c.wrk with clks := tabSet {} c.wrk.clks key { win := win, good := if fire then 0 else held, cycles := x.cycles + n } } }
  let c2 := c1.setReg d (clkOff i) (min 0xFFFF now + (min 0xFFFF least) <<< 16)
  if fire then c2.tsRaise d 4 0x16 (i <<< 16 + 4 <<< 23) else c2

/-- ISL_EXT[i] after a read of the generator's extension count (R498, R513): extended cycles [15:0] and the largest extension [19:16]. -/
def Chip.noteExt (c : Chip) (d i ext : Nat) : Chip :=
  let o := pwrBlk + 4 * i
  let m := bits ext 19 16
  let v := c.reg d o
  c.setReg d o (min 0xFFFF (bits v 15 0 + bits ext 15 0) + (max (bits v 19 16) m) <<< 16 + (max (bits v 23 20) m) <<< 20)

/-- The stations that an island clocks: those of a core that carries work, the BX with the die buffer and the XD with the die fabric (R22, R502, R513; log 140). -/
def Chip.islandStns (c : Chip) (d i : Nat) : List Nat :=
  if i < 9 then (if (c.logOf d i).isSome then (List.range 4).map (coreStn d i) else []) else if i = 9 then [d * 128 + 96] else if i = 10 then [d * 128 + 97] else []

/-- The window's cycles counted IDLE at every station of the island that has no command or has run out of its list; a resting core counts none (R66, R469; log 140). -/
def Chip.countIdle (c : Chip) (d i n : Nat) : Chip :=
  eachDo (c.islandStns d i) (fun st c =>
    if c.isHeld st || (List.range 4).any (fun p => !(c.station (stKey st p)).runs.isEmpty) then c else c.addReg48 d (cntBlk (stIdx st) + 0x10) n) c

/-- CLOCK_WINDOW (R336, R469, R498). -/
def Chip.clockWindow (c : Chip) (d i n ext : Nat) : Chip :=
  if c.fenced d then c
  else
    let c1 := (c.noteExt d i ext).countIdle d i n
    if i < 10 then c1.sustain d i n else c1

/-- HEADSTOCK_PERIODIC_TEST (R337, R343): an element that fails raises its bit with cause PERIODIC. -/
def Chip.periodicTest (c : Chip) (bad : HsElem) : Chip :=
  match bad with
  | some b => c.rise { bit := b, cause := 0x24, die := 0, src := 0 }
  | none => c

/-- TASK_RELEASE. -/
def execTaskRelease (j : JobIx) (s : State) : Host.Outcome State Fault Refusal := .next { s with chip := s.chip.work (·.taskRelease j) }
/-- BUDGET_EXPIRY. -/
def execBudgetExpiry (d : Die) (k : TaskIx) (s : State) : Host.Outcome State Fault Refusal := .next { s with chip := s.chip.work (·.budgetExpiry d k) }
/-- DEADLINE_EXPIRY. -/
def execDeadlineExpiry (j : JobIx) (s : State) : Host.Outcome State Fault Refusal := .next { s with chip := s.chip.work (·.deadlineExpiry j) }
/-- STATION_RESET_BY_CARVER. -/
def execStationResetByCarver (st : Stn) (_p : Part) (s : State) : Host.Outcome State Fault Refusal :=
  .next { s with chip := s.chip.live (·.carverReset st) }
/-- SELFTEST_SEGMENT_DONE. -/
def execSelftestSegmentDone (d : CDie) (c : CoreIx) (v : SegVerdict) (s : State) : Host.Outcome State Fault Refusal :=
  .next { s with chip := s.chip.live (·.segmentDone (d + 1) c v) }
/-- CLOCK_WINDOW. -/
def execClockWindow (d : CDie) (isl : Fin 14) (cycles : Nat) (ext : BitVec 32) (s : State) : Host.Outcome State Fault Refusal :=
  .next { s with chip := s.chip.live (·.clockWindow (d + 1) isl cycles ext.toNat) }
/-- HEADSTOCK_PERIODIC_TEST. -/
def execHeadstockPeriodicTest (bad : HsElem) (s : State) : Host.Outcome State Fault Refusal := .next { s with chip := s.chip.awake (·.periodicTest bad) }

end Sys2Proof.Machine
end

