-- ==== Sys2Proof/Machine/Blank.lean ====
section
/-! DEFINITION. Machine/Blank.lean: the test-blank slot (R325, R326, R345–R350). How a Carver orders the comparator's commands, which the spec does not give, is log 43. -/
namespace Sys2Proof.Machine

/-! ### The package -/

/-- Directory entry `e` of the package as copied to die `d` (R350). -/
def Chip.pkgEntry (c : Chip) (d e : Nat) : Nat := fromLE (c.peek (c.pkgBase d + 64 + 64 * e) 64)

/-- st_type of a directory entry. -/
def peType (x : Nat) : Nat := bits x 7 0
/-- n_cmd. -/
def peCmds (x : Nat) : Nat := bits x 47 32
/-- cmd_off. -/
def peCmdOff (x : Nat) : Nat := bits x 95 64

/-- The entries that run in turn `t` with their numbers, in directory order (R345). -/
def Chip.pkgSelected (c : Chip) (d t : Nat) : List (Nat × Nat) :=
  if c.boot.pkgSlot = 0 then []
  else ((List.range (fromLE (c.peek (c.pkgBase d + 6) 2))).map (fun e => (e, c.pkgEntry d e))).filter
    (fun x => decide (t % max 1 (bits x.2 15 8) = bits x.2 23 16))

/-- A queue number of a package's descriptor on die `d`, core `l`: queues 1,008–1,015 name the core's own (R346; log 43). -/
def blankQueue (d l q : Nat) : Nat :=
  let n := q % 1024
  d * 1024 + (if 1008 ≤ n ∧ n < 1016 then 1008 + l else n)

/-- A package's descriptor for core `l` of die `d`. -/
def blankDesc (d l x : Nat) : Nat :=
  let y := (List.range 3).foldl (fun v i => if i < dNin x then putBits v (108 + 16 * i) (96 + 16 * i) (blankQueue d l (dInQ x i)) else v) x
  (List.range 2).foldl (fun v i => if i < dNout x then putBits v (156 + 16 * i) (144 + 16 * i) (blankQueue d l (dOutQ x i)) else v) y

/-- The descriptors of an entry (R350). -/
def Chip.entryCmds (c : Chip) (d l x : Nat) : List Nat :=
  (List.range (peCmds x)).map (fun i => blankDesc d l (fromLE (c.peek (c.pkgBase d + peCmdOff x + 64 * i) 64)))

/-- The tiles of an area of the package: offset and header of each; every tile starts at a multiple of 16 B. -/
def areaTiles (hdr : Nat → Nat) : Nat → Nat → Nat → List (Nat × Nat)
  | 0, _, _ => []
  | n + 1, off, stop =>
    if stop < off + 32 then []
    else
      let h := hdr off
      (off, h) :: areaTiles hdr n (roundUp (off + 32 + hLen h) 16) stop

/-- The tiles between `off` and `off + len` of the package. -/
def Chip.pkgTiles (c : Chip) (d off len : Nat) : List (Nat × Nat) :=
  areaTiles (fun o => fromLE (c.peek (c.pkgBase d + o) 32)) (len / 32 + 1) off (off + len)

/-- DM_LOAD of one tile of the package into local queue `q` (R155, R156, R346). -/
def loadDesc (d q id : Nat) (t : Nat × Nat) : Nat :=
  let h := t.2
  0x02 + 4 <<< 8 + 0xFFFE <<< 16 + id <<< 32 + 0xFF <<< 56 + 1 <<< 74 + 1 <<< 80 + (d * 1024 + q) <<< 144
    + 2 <<< 192 + (b2n (hZcomp h)) <<< 198 + (t.1 + 32) <<< 200 + (hPacked h) <<< 272 + 1 <<< 292 + 1 <<< 304 + 1 <<< 316
    + (hFmt h) <<< 403 + (hLay h) <<< 411 + (hH h) <<< 415 + (hW h) <<< 431 + (hC h) <<< 447

/-- VX_BLANKCMP of `n` tiles of local queue `q` against queues 1,018 and 1,019 (R153, R346). -/
def cmpDesc (d q id core n : Nat) : Nat :=
  0x07 + 3 <<< 8 + 0xFFFE <<< 16 + id <<< 32 + core <<< 48 + 0xFF <<< 56 + 3 <<< 72 + n <<< 80
    + (d * 1024 + q) <<< 96 + (d * 1024 + 1018) <<< 112 + (d * 1024 + 1019) <<< 128

/-! ### The comparator -/

/-- One comparison: local queue, entry with its number, and the physical core, 0xF for BX and XD (R346). -/
structure Cmpn where
  q : Nat
  id : Nat
  entry : Nat
  core : Nat
  deriving DecidableEq, Repr

/-- Whether no partition that a unit of die `d` serves asks for test blanks: logical core `i`, 8 the BX, 9 the XD. Such a unit is not covered: a QM partition with blank_count 0 runs no
test blank (R71, R325, R345; log 151). -/
def Chip.exempt (c : Chip) (d i : Nat) : Bool :=
  let uses := fun (v : List Nat) =>
    if i < 8 then bit (v.getD 2 0) (8 * (d - 1) + i) else if i = 8 then bit (v.getD 3 0) (d - 1) else bits (v.getD 2 0) (8 * d - 1) (8 * d - 8) != 0 || v.getD (5 + d) 0 != 0
  let ps := (c.cfgAll 0x0201).filter uses
  !ps.isEmpty && ps.all (fun v => c.cfgBy 0x0902 (v.headD 0) 1 1 == 0)

/-- The comparisons of die `d`, by ascending queue and in directory order (R346). -/
def Chip.comparisons (c : Chip) (d : Nat) (sel : List (Nat × Nat)) : List Cmpn :=
  let of := fun (i q core : Nat) (f : Nat → Bool) =>
    (if c.exempt d i then [] else sel.filter (fun x => f (peType x.2))).map (fun x => ({ q := q, id := x.1 + (peType x.2) <<< 6, entry := x.2, core := core } : Cmpn))
  (List.range 8).flatMap (fun l => of l (1008 + l) (c.physOf d l) (fun t => decide (1 ≤ t ∧ t ≤ 4))) ++ of 8 1016 0xF (· == 5) ++ of 9 1017 0xF (· == 6)

/-- Expected and tolerance tiles of a comparison as the loads of the comparator's DM, tile by tile. -/
def Chip.cmpLoads (c : Chip) (d : Nat) (x : Cmpn) : List (List Nat) :=
  let ex := c.pkgTiles d (bits x.entry 191 160) (bits x.entry 223 192)
  let tol := c.pkgTiles d (bits x.entry 255 224) (bits x.entry 287 256)
  (ex.zip tol).map (fun t => [loadDesc d 1018 x.id t.1, loadDesc d 1019 x.id t.2])

/-- The DM's own blank commands with the loads of its core's comparisons between them: as many tiles as a command sends. -/
def interleave (q : Nat) : List Nat → List (List Nat) → List Nat
  | [], loads => loads.flatMap id
  | x :: xs, loads =>
    let n := if (List.range (dNout x)).any (fun k => dOutQ x k == q) then dTiles x else 0
    x :: ((loads.take n).flatMap id ++ interleave q xs (loads.drop n))

/-- The blank commands of one station of die `d` in turn `t`: `i` 0–3 for a core's, 4 the BX, 5 the XD. An exempt comparator core compares only. -/
def Chip.blankList (c : Chip) (d l i : Nat) (sel : List (Nat × Nat)) (comparator : Bool) : List Nat :=
  let own := if c.exempt d (if i < 4 then l else i + 4) then [] else (sel.filter (fun x => peType x.2 == i + 1)).flatMap (fun x => c.entryCmds d l x.2)
  let cs := c.comparisons d sel
  if !comparator then own
  else if i = 2 then own ++ cs.map (fun x => cmpDesc d x.q x.id x.core (c.cmpLoads d x).length)
  else if i = 3 then
    let loads := fun (f : Nat → Bool) => (cs.filter (fun x => f x.q)).flatMap (c.cmpLoads d)
    (loads (fun q => decide (q < 1008 + l))).flatMap id ++ interleave (d * 1024 + 1008 + l) own (loads (· == 1008 + l))
      ++ (loads (fun q => decide (1008 + l < q))).flatMap id
  else own

/-! ### The slot -/

/-- A station's real work held, and its blank begun (R325). -/
def Chip.holdStation (c : Chip) (k : Nat) (l : List Nat) : Chip :=
  let st := k / 4
  let c1 := (c.setStation k { blank := some l })
  let cm := { c1.cmp with heldMx := tabSet {} c1.cmp.heldMx st (tabGet {} c.cmp.mx st), heldWf := tabSet {} c1.cmp.heldWf st (tabGet {} c.cmp.wf st),
                          mx := tabSet {} c1.cmp.mx st {}, wf := tabSet {} c1.cmp.wf st {} }
  { c1 with fab := { c1.fab with held := c1.fab.held ++ [(k, c.station k)] }, cmp := if k % 4 = 0 then cm else c1.cmp }

/-- The covered stations of die `d` held, each with its blank; BLK_RUNS counts the entries (R325, R345, R358). -/
def Chip.holdDie (c : Chip) (d : Nat) : Chip :=
  if c.fenced d then c
  else
    let sel := c.pkgSelected d c.turn
    let cmp := c.turn % 8
    let count := fun (i : Nat) => (sel.filter (fun x => peType x.2 == i + 1)).length
    let ls := (List.range 8).filter (fun l => !c.exempt d l)
    let cores := ((List.range 8).filter (fun l => l == cmp || ls.contains l)).flatMap (fun l => (List.range 4).map (fun i => (stKey (coreStn d (c.physOf d l) i) 0, c.blankList d l i sel (l == cmp))))
    let xd := (if c.exempt d 9 then [] else List.range 4).map (fun p => (stKey (d * 128 + 97) p, if p = 0 then c.blankList d 0 5 sel false else []))
    let all := cores ++ (if c.exempt d 8 then [] else [(stKey (d * 128 + 96) 0, c.blankList d 0 4 sel false)]) ++ xd
    let c1 := eachDo all (fun x c => c.holdStation x.1 x.2) c
    c1.addReg d (blkBlk + 0x14) (ls.length * ((List.range 4).foldl (fun n i => n + count i) 0) + (if c.exempt d 8 then 0 else count 4) + (if c.exempt d 9 then 0 else count 5))

/-- BLANK_SLOT_START (R325): at blank_off_us every covered station holds its real work and begins its blank. -/
def Chip.slotStart (c : Chip) : Chip :=
  if !c.running || c.wrk.slotNs != 0 then c
  else
    let c1 := c.advanceTo (c.turnStart + c.cfg1 0x0701 3 0 * 1000)
    let c2 := { c1.orReg 0 (tsBlk + 0x10) 8 with wrk := { c1.wrk with slotNs := c1.nowNs } }
    eachDo ((List.range 8).drop 1) (fun d c => c.holdDie d) c2

/-- BLANK_SLOT_END (R325, R326): held work resumes where the blank has ended. -/
def Chip.slotEnd (c : Chip) : Chip :=
  if !bit (c.reg 0 (tsBlk + 0x10)) 3 then c
  else
    let c1 := c.advanceTo (c.wrk.slotNs + c.cfg1 0x0701 4 0 * 1000)
    let c2 := c1.setFld 0 (tsBlk + 0x10) 3 3 0
    eachDo ((c2.fab.held.map (fun h => h.1 / 4)).eraseDups) (fun st c => c.resume st) c2

/-- A held context of die `d` whose blank has not ended. -/
def Chip.lateBlank (c : Chip) (d : Nat) : Option Nat := (c.fab.held.find? (fun h => h.1 / 512 == d && (c.station h.1).blankLeft)).map (·.1)

/-- The blank verdict of die `d`, an event of the ready instant of every partition that the die is involved in (R362). -/
def Chip.noteVerdict (c : Chip) (d v : Nat) : Chip :=
  let c1 := { c with wrk := { c.wrk with verdicts := tabSet 0 c.wrk.verdicts d v } }
  eachDo ((List.range 4).filter (fun p => !(c1.tasksOn p d).isEmpty)) (fun p c => c.noteEnd p) c1

/-- BLANK_VERDICT (R347, R348): 50 µs after the slot the die passes when every entry and comparison has completed without a failing element. A run of failing turns above fail_allow
drives the safe state while the bit has class B. -/
def Chip.blankVerdict (c : Chip) (d : Nat) : Chip :=
  if c.wrk.slotNs = 0 || bit (c.reg 0 (tsBlk + 0x10)) 3 || c.fenced d || !c.running || tabGet 0 c.wrk.verdicts d != 0 then c
  else
    let c1 := c.advanceTo (c.wrk.slotNs + (c.cfg1 0x0701 4 0 + 50) * 1000)
    let c2 := match c1.lateBlank d with
      | none => c1
      | some k =>
        let i := stIdx (k / 4)
        let core := if i < 96 then (i - 32) / 4 else 0xF
        (c1.latchIf d blkBlk [(blkBlk + 4, (stType (k / 4)) <<< 6 + core <<< 10 + 0xFFFF <<< 14), (blkBlk + 8, c1.turn32), (blkBlk + 0x24, 0xFFFF)]).raise d blkBlk 1 0x04
    let bad := (c1.lateBlank d).isSome || tabGet false c1.wrk.blankBad d
    let c3 := c2.noteVerdict d (if bad then 2 else 1)
    if !bad then c3.setFld d (blkBlk + 0x1C) 3 0 0
    else
      let run := c3.fld d (blkBlk + 0x1C) 3 0 + 1
      let c4 := c3.setFld d (blkBlk + 0x1C) 3 0 (min 15 run)
      if c4.cfg1 0x0901 2 1 < run ∧ c4.fclass (8 * d + 1) = 2 then c4.escalate (8 * d + 1) 0x05 d (srcOf d blkBlk) else c4

/-- BLANK_SLOT_START. -/
def execBlankSlotStart (s : State) : Host.Outcome State Fault Refusal := .next { s with chip := s.chip.work (·.slotStart) }
/-- BLANK_SLOT_END. -/
def execBlankSlotEnd (s : State) : Host.Outcome State Fault Refusal := .next { s with chip := s.chip.work (·.slotEnd) }
/-- BLANK_VERDICT. -/
def execBlankVerdict (d : CDie) (s : State) : Host.Outcome State Fault Refusal := .next { s with chip := s.chip.work (·.blankVerdict (d + 1)) }

end Sys2Proof.Machine
end

