-- ==== Sys2Proof/Machine/Approx.lean ====
section
/-! DEFINITION. Machine/Approx.lean: the real functions of R128, R140 and R146 to far more places than FP32 holds, and the results that a bound in ulp admits. -/
namespace Sys2Proof.Machine

/-! ### Fixed-point series -/

/-- 1 in fixed point with 320 fraction bits. -/
def fixOne : Int := (2 ^ 320 : Nat)

/-- ln 2 in that form, rounded down. -/
def fixLn2 : Int := 1480553391661173448385607439722553250922680800745876974795605978609098082859138712941075737848984

/-- π × 2^512, rounded down. -/
def piFix : Int :=
  42121870893450636219446821484559388105255997313489254605594685088103805782276098919793885372247726346443771296916333485327292916625599161542353774203832599

/-- `d × 2^n` rounded down. -/
def dyFix (n : Nat) (d : Dy) : Int := if 0 ≤ d.e + n then ishl d.m (d.e + n).toNat else d.m / ((2 ^ (-(d.e + n)).toNat : Nat) : Int)

/-- `n` terms of a power series from term `t` on: term `k + 1` is term `k` times `y` over `den k`. -/
def series (y : Int) (den : Nat → Nat) : Nat → Nat → Int → Int
  | 0, _, _ => 0
  | n + 1, k, t => t + series y den n (k + 1) (t * y / (fixOne * (den k : Nat)))

/-- A quotient with at least 400 significant bits. -/
def dyDiv (a b : Dy) : Dy :=
  let k := 400 + Nat.log2 (b.m.natAbs + 1)
  let s : Int := if b.m < 0 then -1 else 1
  ⟨s * ishl a.m k / (b.m.natAbs : Nat), a.e - b.e - k⟩

/-- The number 1. -/
def dyOne : Dy := ⟨1, 0⟩

/-! ### Functions -/

/-- e^x; beyond 200 and below −400, where FP32 overflows and underflows, a power of two on the same side. -/
def expDy (x : Dy) : Dy :=
  if dyLt ⟨200, 0⟩ x then ⟨1, 400⟩
  else if dyLt x ⟨-400, 0⟩ then ⟨1, -600⟩
  else
    let f := dyFix 320 x
    let n := f / fixLn2
    ⟨series (f - n * fixLn2) (· + 1) 90 0 fixOne, n - 320⟩

/-- 1 / (1 + e^−x). -/
def sigmoidDy (x : Dy) : Dy := dyDiv dyOne (dyAdd dyOne (expDy (dyNeg x)))

/-- tanh x = (e^2x − 1) / (e^2x + 1). -/
def tanhDy (x : Dy) : Dy :=
  let e := expDy ⟨x.m, x.e + 1⟩
  dyDiv (dyAdd e (dyNeg dyOne)) (dyAdd e dyOne)

/-- GELU of R140: 0.5x(1 + tanh u) = x × sigmoid(2u), with u = 0.79788456(x + 0.044715x³). -/
def geluDy (x : Dy) : Dy :=
  let u := dyMul (dyDiv ⟨79788456, 0⟩ ⟨100000000, 0⟩) (dyAdd x (dyMul (dyDiv ⟨44715, 0⟩ ⟨1000000, 0⟩) (dyMul x (dyMul x x))))
  dyMul x (sigmoidDy ⟨u.m, u.e + 1⟩)

/-- SILU of R140. -/
def siluDy (x : Dy) : Dy := dyMul x (sigmoidDy x)

/-- 1 / √x of a positive number. -/
def rsqrtDy (x : Dy) : Dy :=
  let odd := x.e % 2 ≠ 0
  let m := x.m.natAbs <<< (if odd then 1 else 0)
  ⟨(isqrt (2 ^ 900 / m) : Nat), -450 - (if odd then x.e - 1 else x.e) / 2⟩

/-- sin x for |x| at most 4. -/
def sinDy (x : Dy) : Dy := let f := dyFix 320 x; ⟨series (-(f * f / fixOne)) (fun k => (2 * k + 2) * (2 * k + 3)) 60 0 f, -320⟩

/-- cos x for |x| at most 4. -/
def cosDy (x : Dy) : Dy := let f := dyFix 320 x; ⟨series (-(f * f / fixOne)) (fun k => (2 * k + 1) * (2 * k + 2)) 60 0 fixOne, -320⟩

/-- x − 2πn in [−π, π) (R128). -/
def reduceDy (x : Dy) : Dy := let f := dyFix 512 x; ⟨f - 2 * piFix * ((f + piFix) / (2 * piFix)), -512⟩

/-! ### Bounds in ulp -/

/-- An FP32 result as a number, an infinity counted as 2^128. -/
def dyRes (v : Nat) : Dy := if isInf32 v then ⟨if neg32 v then -1 else 1, 128⟩ else dy32 v

/-- `v` where it lies within `k` ulp of FP32 of the number `x`, else `x` rounded to nearest: the result of a function that the spec bounds and does not state (R128, R140; log 5). The
2^−20 ulp more covers the places that `x` itself is computed to. -/
def nearUlp (k : Nat) (x : Dy) (v : Nat) : Nat :=
  let q : Int := if x.m = 0 then -149 else max (dyLog2 x - 23) (-149)
  if !isNaN32 v && !dyLt ⟨k * 2 ^ 20 + 1, q - 20⟩ (dyAbs (dyAdd x (dyNeg (dyRes v)))) then v else rne32 x

end Sys2Proof.Machine
end

