-- ==== Sys2Proof/Machine/Window.lean ====
section
/-! DEFINITION. Machine/Window.lean: the window feeder: geometry, live taps, vector order, pooling (R109–R125, R136, R540). -/
namespace Sys2Proof.Machine

/-- How a coordinate of a tap resolves (R112). -/
inductive Tap where
  | pad
  | ins
  | at (i : Nat)
  deriving DecidableEq, Repr

/-- One coordinate (R112): output position `o`, tap `t`, input size `n`. -/
def resolve (mode o t stride dil pad ins n : Nat) : Tap :=
  let y : Int := (o : Int) * stride + (t : Int) * dil - pad
  let hi : Int := ((n : Int) - 1) * ins
  if mode = 2 then .at (clampInt 0 hi y).toNat
  else if y < 0 ∨ hi < y then .pad
  else if y.toNat % ins ≠ 0 then .ins
  else .at (y.toNat / ins)

/-- Row coordinate of tap row `ty` for output row `oy`. -/
def wfRowAt (d oy ty : Nat) : Tap := resolve (wfPad d) oy ty (wfSh d) (wfDh d) (wfTop d) (max 1 (wfIh d)) (wfInH d)
/-- Column coordinate of tap column `tx` for output column `ox`. -/
def wfColAt (d ox tx : Nat) : Tap := resolve (wfPad d) ox tx (wfSw d) (wfDw d) (wfLeft d) (max 1 (wfIw d)) (wfInW d)

/-- Tap rows that some output row does not resolve as padding (R114). -/
def liveRows (d : Nat) : List Nat := (List.range (wfKh d)).filter (fun t => (List.range (wfOutH d)).any (fun o => wfRowAt d o t != .pad))
/-- Tap columns that some output column does not resolve as padding (R114). -/
def liveCols (d : Nat) : List Nat := (List.range (wfKw d)).filter (fun t => (List.range (wfOutW d)).any (fun o => wfColAt d o t != .pad))
/-- Live taps in row-major order (R114, R115). -/
def liveTaps (d : Nat) : List (Nat × Nat) := (liveRows d).flatMap (fun y => (liveCols d).map (fun x => (y, x)))
/-- Every tap in row-major order. -/
def allTaps (d : Nat) : List (Nat × Nat) := (List.range (wfKh d)).flatMap (fun y => (List.range (wfKw d)).map (fun x => (y, x)))

/-- Output positions of a command. -/
def wfPositions (d : Nat) : Nat := wfOutH d * wfOutW d
/-- Vector length of a WF_CONV (R73). -/
def wfK (d : Nat) : Nat := vecLen (wfFmt d) (wfSparse d)
/-- Channel blocks of K channels. -/
def wfBlocks (d : Nat) : Nat := cdiv (wfC d) (wfK d)
/-- Batches of a WF_CONV. -/
def wfBatches (d : Nat) : Nat := cdiv (wfPositions d) (max 1 (wfBatch d))

/-- Vectors that a WF command delivers (R115, R120). -/
def wfTotal (d : Nat) : Nat :=
  if dOp d = 1 then wfPositions d * (liveTaps d).length * wfBlocks d else wfPositions d * cdiv (wfC d) 64

/-- What vector `i` of a WF_CONV is (R115): batch, live tap, channel block, position in the batch. -/
def convVec (d i : Nat) : Nat × Nat × Nat × Nat :=
  let t := (liveTaps d).length
  let per := max 1 (wfBatch d * t * wfBlocks d)
  let b := i / per
  let n := max 1 (min (wfBatch d) (wfPositions d - b * wfBatch d))
  let k := i % per
  (b, k / (wfBlocks d * n), k / n % wfBlocks d, k % n)

/-- The element code of a pad: zero, or pad_value when pad_mode is 1 (R112). -/
def padCode (d : Nat) : Nat := if wfPad d = 1 then wfPadVal d % 2 ^ elemBits (wfFmt d) else 0

/-- Whether a tap lies inside the image: an edge-replicated tap does not, an inserted zero does (R120, R121; log 15). -/
def tapInside (d oy ox : Nat) (t : Nat × Nat) : Bool :=
  resolve 0 oy t.1 (wfSh d) (wfDh d) (wfTop d) (max 1 (wfIh d)) (wfInH d) != .pad
    && resolve 0 ox t.2 (wfSw d) (wfDw d) (wfLeft d) (max 1 (wfIw d)) (wfInW d) != .pad

/-- Whether a tap takes part in a pooled value (R121). -/
def poolTakes (d : Nat) (inside : Bool) : Bool := wfPool d == 1 || (wfPool d == 0 && wfPad d == 2) || inside

/-- The input row that a tap of output position `p` reads; none where a coordinate is padding or an inserted zero, or where a pooled value leaves the tap out (R112, R116, R121). -/
def readRow (d p : Nat) (t : Nat × Nat) : Option Nat :=
  let oy := p / max 1 (wfOutW d)
  let ox := p % max 1 (wfOutW d)
  match wfRowAt d oy t.1, wfColAt d ox t.2 with
  | .at y, .at _ => if dOp d = 1 ∨ poolTakes d (tapInside d oy ox t) then some y else none
  | _, _ => none

/-- The input rows that taps of positions read. -/
def rowsRead (d : Nat) (taps : List (Nat × Nat)) (ps : List Nat) : List Nat := ps.flatMap (fun p => taps.filterMap (readRow d p))

/-- The output positions from `a` up to `b`, not beyond the last. -/
def posFrom (d a b : Nat) : List Nat := (List.range (min b (wfPositions d) - a)).map (a + ·)

/-- The input rows that vectors from vector `i` on read: of a WF_CONV the rest of its batch and the batches after it, of a WF_POOL the positions from its own on (R115, R116, R120). -/
def laterRows (d i : Nat) : List Nat :=
  let taps := liveTaps d
  if wfTotal d ≤ i then []
  else if dOp d = 1 then
    let v := convVec d i
    let ps := posFrom d (v.1 * wfBatch d) ((v.1 + 1) * wfBatch d)
    rowsRead d ((taps.drop v.2.1).take 1) (if v.2.2.1 + 1 < wfBlocks d then ps else ps.drop v.2.2.2)
      ++ rowsRead d (taps.drop (v.2.1 + 1)) ps ++ rowsRead d taps (posFrom d ((v.1 + 1) * wfBatch d) (wfPositions d))
  else rowsRead d taps (posFrom d (i / max 1 (cdiv (wfC d) 64)) (wfPositions d))

/-- Minimum depth of in_q0 (R117); a pooled position counts as a batch of its own. -/
def wfMinDepth (d : Nat) : Nat :=
  let n := max 1 (wfBatch d)
  ((List.range (cdiv (wfPositions d) n)).map (fun b =>
    match rowsRead d (liveTaps d) (posFrom d (b * n) ((b + 1) * n)) with
    | [] => 0
    | y :: t => t.foldl max y / wfRows d - t.foldl min y / wfRows d + 1)).foldl max 0 + 1

/-- Result of reading channels of one pixel: element codes, block scales, whether data came back poisoned, whether memory was read, whether the tile was
there to read, the bytes read and the core cycles taken. -/
structure PixRead where
  chip : Chip
  codes : List Nat
  scales : List Nat
  pois : Bool
  real : Bool
  held : Bool
  bytes : Nat := 0
  cyc : Nat := 0
  deriving DecidableEq, Repr

/-- Where the record of `n` lines after the one at `off` of a zero-compressed payload at `base` starts, with the words of the masks passed (R123). -/
def Chip.zSkip (c : Chip) (base : Nat) : Nat → Nat → Nat × List Nat
  | 0, off => (off, [])
  | n + 1, off =>
    let x := c.zSkip base n (off + 8 + popcount 64 (fromLE (c.peek (base + off) 8)))
    (x.1, wordsOf (base + off) 8 ++ x.2)

/-- One line of a zero-compressed payload at `base`: the device address and length of its record, and the words that finding it and reading it take: the group's directory word, the masks
of the lines before it and the record itself (R116, R123). -/
def Chip.zRecordAt (c : Chip) (base line : Nat) : Nat × Nat × List Nat :=
  let dir := base + 4 * (line / 8)
  let s := c.zSkip base (line % 8) (fromLE (c.peek dir 4))
  let n := 8 + popcount 64 (fromLE (c.peek (base + s.1) 8))
  (base + s.1, n, wordsOf dir 4 ++ s.2 ++ wordsOf (base + s.1) n)

/-- `n` bytes from byte `off` of a zero-compressed payload, of which only the lines that hold them are expanded; WF_ZLINES counts those (R116, R123, R135): the data, poison and the bytes
read. -/
def Chip.zRead (c : Chip) (st : Nat) (who : Reader) (ups : Upsets) (base off n : Nat) : Chip × Bytes × Bool × Nat :=
  let lines := (List.range (cdiv (off % 64 + n) 64)).map (fun i => c.zRecordAt base (off / 64 + i))
  let words := (lines.flatMap (·.2.2)).eraseDups
  let c1 := eachDo (ups.filter (fun u => words.contains (u.addr.toNat / 8 * 8))) (fun u c => c.upset who u) c
  let bad := words.any c1.poisoned
  let s := lines.foldl (fun (s : Chip × Bytes) l => let x := s.1.read who [] l.1 l.2.1; (x.1, s.2 ++ (zLine x.2.1).1)) (c1, [])
  (s.1.addReg (stDie st) (wfBlk ((stIdx st - 32) / 4) + 8) lines.length, slice s.2 (off % 64) n, bad, 8 * words.length)

/-- One pixel block of an acquired tile (R109, R116, R118): its codes, scale and poison, and the bytes read. Channels at or above c_in are zero (R112). -/
def Chip.pixBlock (c : Chip) (st desc : Nat) (ups : Upsets) (t : InTile) (row col blk : Nat) : Chip × List Nat × Nat × Bool × Nat :=
  let f := wfFmt desc
  let lay := blockedLay f
  let h := hH t.hdr
  let w := hW t.hdr
  let run := blockRun lay f
  let off := ((blk * h + row) * w + col) * run
  let who := c.readerOf st desc
  let base := c.slotAddr t.q t.slot + 32
  let rd := if hZcomp t.hdr then c.zRead st who ups base off run else (let x := c.read who ups (base + off) run; (x.1, x.2.1, !x.2.2.isEmpty, run))
  let a := rd.2.1.toArray
  let eb := elemBits f
  (rd.1, (List.range (blockC lay)).map (fun k => if blk * blockC lay + k < wfC desc then codeAt a eb (k * eb / 8, k * eb % 8) else 0),
    if isMx f then (a.getD (run - 1) 0#8).toNat else 127, rd.2.2.1, rd.2.2.2)

/-- The next block of a pixel read from tile `t`, or a blank block beyond the last of the `blocks` there are (R109, R112). -/
def nextBlock (st desc : Nat) (ups : Upsets) (t : InTile) (row col blocks b0 : Nat) (s : PixRead) (i : Nat) : PixRead :=
  if b0 + i < blocks then
    let p := s.chip.pixBlock st desc ups t row col (b0 + i)
    { s with chip := p.1, codes := s.codes ++ p.2.1, scales := s.scales ++ [p.2.2.1], pois := s.pois || p.2.2.2.1, bytes := s.bytes + p.2.2.2.2 }
  else { s with codes := s.codes ++ List.replicate (blockC (blockedLay (wfFmt desc))) 0, scales := s.scales ++ [127] }

/-- `n` blocks of channels from block `b0` at one tap (R112). -/
def Chip.pixels (c : Chip) (st : Nat) (r : Run) (ups : Upsets) (row col : Tap) (b0 n : Nat) : PixRead :=
  let d := r.desc
  let f := wfFmt d
  let bc := blockC (blockedLay f)
  let blocks := cdiv (wfC d) bc
  match row, col with
  | .at y, .at x =>
    match r.ins.find? (fun t => t.ord == y / wfRows d && !t.used) with
    | none => ⟨c, [], [], false, true, false, 0, 0⟩
    | some t =>
      (List.range n).foldl (nextBlock st d ups t (y % wfRows d) x blocks b0) ⟨c, [], [], false, true, true, 0, 0⟩
  | _, _ =>
    let code := if row = .pad ∨ col = .pad then padCode d else 0
    let fill := (List.range (n * bc)).map (fun i => if b0 * bc + i < wfC d then code else 0)
    ⟨c, fill, List.replicate n 127, false, false, true, 0, 0⟩

/-- A WF command's tiles that no vector from vector `i` on reads are done with, and so is the command after its last vector and tile (R116). -/
def Run.wfRelease (r : Run) (i : Nat) : Run :=
  let rows := laterRows r.desc i
  let r1 := { r with ins := r.ins.map (fun t => if rows.all (fun y => y / max 1 (wfRows r.desc) != t.ord) then { t with used := true } else t) }
  if decide (wfTotal r.desc ≤ i) && decide (dTiles r.desc ≤ r.taken) then { r1 with inDone := true } else r1

/-- Bytes a WF reads in a core cycle: 128 from its core buffer, 64 from the die buffer (R118). -/
def Chip.wfRate (c : Chip) (d : Nat) : Nat := if qRegion (c.qdesc (dInQ d 0)) = 0 then 128 else 64

/-- Core cycles of one tap's read, at least one (R118). -/
def PixRead.cycles (x : PixRead) (rate : Nat) : Nat := max 1 (cdiv x.bytes rate)

/-- A WF takes its next command: dead taps are counted once per batch (R114, R135). -/
def Chip.wfTake (c : Chip) (st op : Nat) : Chip :=
  match c.curRun (stKey st 0) with
  | none => c
  | some r =>
    if r.begun || dType r.desc != 2 || dOp r.desc != op then c
    else
      let dead := wfKh r.desc * wfKw r.desc - (liveTaps r.desc).length
      ((c.setRun (stKey st 0) { r with begun := true }).setWf st { c.wfOf st with pos := 0 }).addReg (stDie st)
        (wfBlk ((stIdx st - 32) / 4) + 4) (dead * (if op = 1 then wfBatches r.desc else 1))

/-- Vector `i` of a WF_CONV (R84, R112, R115). -/
def Chip.convVector (c : Chip) (st : Nat) (r : Run) (ups : Upsets) (i : Nat) : PixRead × Vec :=
  let d := r.desc
  let v := convVec d i
  let p := v.1 * wfBatch d + v.2.2.2
  let tap := (liveTaps d).getD v.2.1 (0, 0)
  let nb := wfK d / blockC (blockedLay (wfFmt d))
  let px := c.pixels st r ups (wfRowAt d (p / max 1 (wfOutW d)) tap.1) (wfColAt d (p % max 1 (wfOutW d)) tap.2) (v.2.2.1 * nb) nb
  let qx := { px with cyc := px.cycles (c.wfRate d) }
  (qx, { job := dJob d, tag := wfRow d + (if wfDbl d then v.1 % 2 * wfBatch d else 0) + v.2.2.2,
         first := v.2.1 == 0 && v.2.2.1 == 0, last := v.2.1 + 1 == (liveTaps d).length && v.2.2.1 + 1 == wfBlocks d,
         pois := r.pois || px.pois, prov := r.prov, elems := px.codes, scales := if isMx (wfFmt d) then px.scales else [] })

/-- An element as a pooling lane's value: INT32 for an integer format, FP32 otherwise (R120). -/
def poolVal (f x X : Nat) : Nat := if isIntFmt f then wrap 32 (intElemOf f x) else fvToF32 arrayNaN (fpElem f x X)
where
  /-- Integer value of an element. -/
  intElemOf (f x : Nat) : Int := if f = 3 ∨ f = 5 then (x % 2 ^ elemBits f : Nat) else sext (elemBits f) x

/-- Two pooled values combined (R121); a sum that is a NaN is 0x7FC0_0000, as the rule has it for a maximum (log 152). -/
def poolStep (f kind a b : Nat) : Nat :=
  if kind = 0 then
    if isIntFmt f then (if sext 32 a < sext 32 b then b else a)
    else if isNaN32 a ∨ isNaN32 b then arrayNaN
    else fmax a b
  else if isIntFmt f then (a + b) % 2 ^ 32 else faddN arrayNaN a b

/-- The taps of one position taken one after another: lane values so far and taps inside the image (R121); each live tap costs the cycles of its read, at least one (R122). -/
def Chip.poolTaps (c : Chip) (st : Nat) (r : Run) (ups : Upsets) (oy ox b0 n : Nat) :
    List (Nat × Nat) → Option (List Nat) → Nat → PixRead → Option (List Nat) × Nat × PixRead
  | [], acc, k, p => (acc, k, p)
  | t :: rest, acc, k, p =>
    let d := r.desc
    let row := wfRowAt d oy t.1
    let col := wfColAt d ox t.2
    let inside := tapInside d oy ox t
    let dead := !(liveTaps d).contains t
    if poolTakes d inside then
      let px := p.chip.pixels st r ups row col b0 n
      let bc := blockC (blockedLay (wfFmt d))
      let vals := px.codes.zipIdx.map (fun x => poolVal (wfFmt d) x.1 (px.scales.getD (x.2 / bc) 127))
      let acc' := match acc with | none => vals | some a => (a.zip vals).map (fun x => poolStep (wfFmt d) (wfPool d) x.1 x.2)
      c.poolTaps st r ups oy ox b0 n rest (some acc') (k + b2n inside)
        { px with pois := p.pois || px.pois, real := p.real || px.real, held := p.held && px.held, cyc := p.cyc + (if dead then 0 else px.cycles (c.wfRate d)) }
    else c.poolTaps st r ups oy ox b0 n rest acc (k + b2n inside) { p with cyc := p.cyc + b2n !dead }

/-- Vector `i` of a WF_POOL (R120–R122). -/
def Chip.poolVector (c : Chip) (st : Nat) (r : Run) (ups : Upsets) (i : Nat) : PixRead × Vec :=
  let d := r.desc
  let g := max 1 (cdiv (wfC d) 64)
  let p := i / g
  let bc := blockC (blockedLay (wfFmt d))
  let x := c.poolTaps st r ups (p / max 1 (wfOutW d)) (p % max 1 (wfOutW d)) (i % g * (64 / bc)) (64 / bc) (allTaps d) none 0
    ⟨c, [], [], false, false, true, 0, 0⟩
  let lanes := (x.1.getD []).zipIdx.map (fun y => if i % g * 64 + y.2 < wfC d then y.1 else 0)
  (x.2.2, { job := dJob d, pois := r.pois || x.2.2.pois, prov := r.prov, elems := lanes, pool := true, last := i + 1 == wfTotal d, area := wfKh d * wfKw d, inside := x.2.1 })

/-- Vector `i` of a WF command. -/
def Chip.wfVector (c : Chip) (st : Nat) (r : Run) (ups : Upsets) (i : Nat) : PixRead × Vec :=
  if dOp r.desc = 1 then c.convVector st r ups i else c.poolVector st r ups i

/-- A vector delivered into the buffer after the reads of `x`: it takes as many cycles as its bytes need, WF_VECTORS counts it, WF_PADVEC one that read no memory, and tiles that no
later vector reads are released (R112, R116, R118, R135). -/
def Chip.wfDelivered (c : Chip) (st : Nat) (r : Run) (w : Wf) (x : PixRead) (v : Vec) : Chip :=
  let n := w.pos + 1
  let o := wfBlk ((stIdx st - 32) / 4)
  let c1 := (c.addReg (stDie st) o 1).busy st (max 1 x.cyc)
  let c2 := if x.real then c1 else c1.addReg (stDie st) (o + 0xC) 1
  (c2.setWf st { pos := n, buf := w.buf ++ [v] }).setRun (stKey st 0) ({ r with pois := r.pois || x.pois }.wfRelease n)

/-- WF_VECTOR_DELIVER (R112, R115–R121, R540): the next vector of the command goes into the buffer of 4 entries. A full buffer holds it, a tile not yet acquired
makes the WF wait, and after the last vector the remaining tiles are released. -/
def Chip.wfVectorDeliver (c : Chip) (st : Nat) (ups : Upsets) : Chip :=
  let k := stKey st 0
  let w := c.wfOf st
  match c.curRun k with
  | none => c
  | some r =>
    if !r.begun || r.inDone || dType r.desc != 2 then c
    else if wfTotal r.desc ≤ w.pos then c.setRun k (r.wfRelease w.pos)
    else if 4 ≤ w.buf.length then c.stall st 2 1
    else
      let x := c.wfVector st r ups w.pos
      if !x.1.held then (c.setRun k (r.wfRelease w.pos)).stall st 6 1 else x.1.chip.wfDelivered st r w x.1 x.2

/-- WF_CONV. -/
def execWfConv (d : CDie) (c : CoreIx) (s : State) : Host.Outcome State Fault Refusal :=
  .next { s with chip := s.chip.work (·.wfTake (coreStn (d + 1) c 1) 1) }
/-- WF_POOL. -/
def execWfPool (d : CDie) (c : CoreIx) (s : State) : Host.Outcome State Fault Refusal :=
  .next { s with chip := s.chip.work (·.wfTake (coreStn (d + 1) c 1) 2) }
/-- WF_VECTOR_DELIVER. -/
def execWfVectorDeliver (d : CDie) (c : CoreIx) (ups : Upsets) (s : State) : Host.Outcome State Fault Refusal :=
  .next { s with chip := s.chip.work (·.wfVectorDeliver (coreStn (d + 1) c 1) ups) }

end Sys2Proof.Machine
end

