-- ==== Sys2Proof/Machine/Vector.lean ====
section
/-! DEFINITION. Machine/Vector.lean: the vector station: chains, row operations, reductions, gather, scatter, scatter-add, the test-blank comparator and drain
reads (R137–R153, R163). -/
namespace Sys2Proof.Machine

/-! ### Elements -/

/-- Codes and scales of a tile's elements at the coordinates given. -/
def unpackIn (ps : List Coord) (h : Nat) (b : Bytes) : List (Nat × Nat) :=
  let f := hFmt h
  let a := b.toArray
  ps.map fun p =>
    (codeAt a (elemBits f) (elemPos f (hLay h) (hH h) (hW h) (hC h) p),
      if isMx f then (a.getD (scalePos f (hLay h) (hH h) (hW h) (hC h) p) 0#8).toNat else 127)

/-- Codes and scales of a tile in the order n, h, w, c. -/
def unpackRM (h : Nat) (b : Bytes) : List (Nat × Nat) := unpackIn (rowMajor (hH h) (hW h) (hC h) (hN h)) h b

/-- An element as a working value (R140): a format without numbers gives a free value (log 5). -/
def workVal (f x X : Nat) : Nat :=
  if workInt f then wrap 32 (if f = 3 ∨ f = 5 ∨ f = 0x21 then ((x % 2 ^ elemBits f : Nat) : Int) else sext (elemBits f) x)
  else if f = 0x12 then x
  else if isFpFmt f then fvToF32 (freeNaN x X) (fpElem f x X)
  else (Config.classT 0 x).toNat

/-- A tile's elements as working values in the order n, h, w, c. -/
def workVals (h : Nat) (b : Bytes) : List Nat := (unpackRM h b).map (fun e => workVal (hFmt h) e.1 e.2)

/-- Saturation to a signed range of `w` bits, with the number of saturations (0 or 1). -/
def satS (w : Nat) (x : Int) : Nat × Nat :=
  let hi : Int := (2 ^ (w - 1) : Nat) - 1
  let y := clampInt (-hi - 1) hi x
  (wrap w y, b2n (y != x))

/-- Saturation to an unsigned range of `w` bits. -/
def satU (w : Nat) (x : Int) : Nat × Nat :=
  let y := clampInt 0 ((2 ^ w : Nat) - 1) x
  (wrap w y, b2n (y != x))

/-- The exact result of an INT32 stage, before saturation (R140, R151). -/
def exactI (op rnd shift a b : Nat) : Int :=
  let x := sext 32 a
  let y := sext 32 b
  match op with
  | 0x01 => x + y
  | 0x02 => x - y
  | 0x03 => x * y
  | 0x04 => max x y
  | 0x05 => min x y
  | 0x06 => max x 0
  | 0x08 => roundDiv rnd x (2 ^ shift)
  | 0x09 => roundDiv rnd (x * y) (2 ^ (31 + shift))
  | 0x13 => x.natAbs
  | _ => x

/-- An INT32 stage (R140): result and saturations. A lane fault adds `e` to the exact result. -/
def stageI (op rnd shift a b : Nat) (e : Int := 0) : Nat × Nat :=
  if op = 0x0A then (rne32 ⟨sext 32 a, -(shift : Int)⟩, 0) else satS 32 (exactI op rnd shift a b + e)

/-- Residue modulo 7 of a signed value. -/
def res7 (x : Int) : Int := x % 7

/-- `q × n + rem ≡ x` modulo 7 for a quotient `q` whose correct value is `q0`: the discarded remainder with the round term is `x − q0 × n` (R151). -/
def divRes (q q0 n x : Int) : Bool := res7 (res7 q * res7 n + res7 (x - q0 * n)) == res7 x

/-- The relation of R151 between an INT32 stage's operands and the exact result `q` that the lane gives. -/
def stageRes (op rnd shift a b : Nat) (q : Int) : Bool :=
  let x := sext 32 a
  let y := sext 32 b
  let q0 := exactI op rnd shift a b
  match op with
  | 0x01 => res7 q == res7 (res7 x + res7 y)
  | 0x02 => res7 q == res7 (res7 x - res7 y)
  | 0x03 => res7 q == res7 (res7 x * res7 y)
  | 0x04 | 0x05 | 0x06 => res7 q == res7 q0
  | 0x08 => divRes q q0 (2 ^ shift : Nat) x
  | 0x09 => divRes q q0 (2 ^ (31 + shift) : Nat) (x * y)
  | 0x13 => res7 q == res7 (if x < 0 then -res7 x else res7 x)
  | _ => true

/-- A class T stage at an infinity, where the function has a limit (R140); GELU and SILU of −∞ are an infinity times 0 (log 5). -/
def stageTInf (op : Nat) (neg : Bool) : Option Nat :=
  match op with
  | 0x0C => some (if neg then 0 else inf32 false)
  | 0x0D => some (if neg then 0 else 0x3F800000)
  | 0x0E => some (if neg then 0xBF800000 else 0x3F800000)
  | 0x0F => if neg then none else some (inf32 false)
  | 0x10 => if neg then none else some (inf32 false)
  | _ => none

/-- The exact value of a class T stage at a finite number. -/
def stageTDy (op : Nat) (x : Dy) : Dy :=
  match op with
  | 0x0C => expDy x
  | 0x0D => sigmoidDy x
  | 0x0E => tanhDy x
  | 0x0F => geluDy x
  | 0x10 => siluDy x
  | 0x11 => dyDiv dyOne x
  | _ => rsqrtDy x

/-- An FP32 stage (R140): result and saturations. A class T result is free within 2 ulp of the exact value (log 5). -/
def stageF (op rnd shift a b : Nat) : Nat × Nat :=
  match op with
  | 0x01 => (fadd a b, 0)
  | 0x02 => (fsub a b, 0)
  | 0x03 => (fmul a b, 0)
  | 0x04 => (fmax a b, 0)
  | 0x05 => (fmin a b, 0)
  | 0x06 => (if isNaN32 a then freeNaN a 0 else if lt32 0 a then a else 0, 0)
  | 0x07 => (if ge32 a 0 then a else fmul a b, 0)
  | 0x0B =>
    if isNaN32 a then (0, 1)
    else if isInf32 a then (if neg32 a then 0x80000000 else 0x7FFFFFFF, 1)
    else satS 32 (roundDy rnd ⟨(dy32 a).m, (dy32 a).e + shift⟩)
  | 0x11 => (if isFin32 a && fabs a != 0 then nearUlp 2 (stageTDy op (dy32 a)) (Config.classT op a).toNat else frecip a, 0)
  | 0x12 => (if isFin32 a && fabs a != 0 && !neg32 a then nearUlp 2 (stageTDy op (dy32 a)) (Config.classT op a).toNat else frsqrt a, 0)
  | 0x13 => (fabs a, 0)
  | _ =>
    if isNaN32 a then (freeNaN a 0, 0)
    else if isInf32 a then ((stageTInf op (neg32 a)).getD (Config.classT op a).toNat, 0)
    else (nearUlp 2 (stageTDy op (dy32 a)) (Config.classT op a).toNat, 0)

/-- Conversion of one working value to a format that is not MX (R143): code and saturations. -/
def convOne (f : Nat) (v : Nat) : Nat × Nat :=
  match f with
  | 0x01 => satS 4 (sext 32 v)
  | 0x02 => satS 8 (sext 32 v)
  | 0x03 => satU 8 (sext 32 v)
  | 0x04 => satS 16 (sext 32 v)
  | 0x05 => satU 16 (sext 32 v)
  | 0x08 => (toE4M3 v, 0)
  | 0x09 => (toE5M2 v, 0)
  | 0x10 => (toF16 v, 0)
  | 0x11 => (toBf16 v, 0)
  | _ => (v, 0)

/-- Working values in the order n, h, w, c as a payload (R143, R144): bytes and saturations. -/
def convTile (f lay h w ch n : Nat) (vs : List Nat) : Bytes × Nat :=
  if isMx f then
    let blocks := (chunks 32 vs).map (mxBlock f)
    (pack f lay h w ch n (blocks.flatMap (fun b => b.2.1)) (blocks.map (·.1)), blocks.foldl (fun s b => s + b.2.2) 0)
  else
    let xs := vs.map (convOne f)
    (pack f lay h w ch n (xs.map (·.1)) [], xs.foldl (fun s x => s + x.2) 0)

/-! ### Registers and the residue check -/

/-- VX register block of the core of VX station `st` (R163). -/
def vxOff (st : Nat) : Nat := vxBlk ((stIdx st - 32) / 4)

/-- A residue mismatch recorded (R151, R152): stage code `code`, lane `lane`. -/
def Chip.residue (c : Chip) (st desc lane code : Nat) : Chip :=
  let d := stDie st
  let o := vxOff st
  let j := dJob desc
  (c.latchIf d o [(o + 4, lane + code <<< 6 + (j % 64) <<< 12 + (c.jobPart j) <<< 18 + ((c.logOf d ((stIdx st - 32) / 4)).getD 0) <<< 20),
    (o + 8, dLayer desc + dOpId desc <<< 16), (o + 0xC, c.turn32)]).raise d o 0 0x01

/-- A command ends POISONED with the tiles it has formed, the last of them with POISON set (R46, R152). -/
def Chip.endBadTile (c : Chip) (st : Nat) (r : Run) (bad : List OutTile) : Chip :=
  (c.setRun (stKey st 0) (r.finish stPoisoned (r.outs ++ bad.map (fun t => { t with pois := true })
    ++ (List.range (dNout r.desc)).map (fun i => eosTile i r.prov)))).consume st (dJob r.desc) 4

/-- The newest command of a VX station, if it runs opcode `op` and still works. -/
def Chip.vxRun (c : Chip) (st op : Nat) : Option Run :=
  (c.curRun (stKey st 0)).filter (fun r => dType r.desc == 3 && dOp r.desc == op && !r.inDone && r.status == 0)

/-- A per-channel table of `n` 32-bit values at 256-byte unit `u` of the task's core buffer: the chip after the read, and the values and whether one is poisoned, or the offset at which
the bound is passed (R139, R172). -/
def Chip.table (c : Chip) (st : Nat) (r : Run) (ups : Upsets) (u n : Nat) : Chip × Except Nat (List Nat × Bool) :=
  match (List.range n).find? (fun i => (c.xlate st r.task 0 (256 * u + 4 * i) 4).isNone) with
  | some i => (c, .error (256 * u + 4 * i))
  | none =>
    let a := (c.xlate st r.task 0 (256 * u) 4).getD 0
    let rd := c.read (c.readerOf st r.desc) ups a (4 * n)
    (rd.1, .ok ((chunks 4 rd.2.1).map fromLE, !rd.2.2.isEmpty))

/-! ### VX_CHAIN -/

/-- Whether a residue check covers a stage of an INT32 working value (R151). -/
def residueOp (op : Nat) : Bool := [0x01, 0x02, 0x03, 0x04, 0x05, 0x06, 0x08, 0x09, 0x13].contains op

/-- The second operand of stage word `s` at channel `ch` and element `i` (R139, R140). -/
def stageB (s : Nat) (isInt : Bool) (tab el : List Nat) (ch i : Nat) : Nat :=
  match sgOpnd s with
  | 1 =>
    if isInt then (if sgOp s = 0x09 then wrap 32 (sext 16 (sgImm s) * 65536) else wrap 32 (sext 16 (sgImm s))) else sgImm s <<< 16
  | 2 => tab.getD ch 0
  | 3 => el.getD i 0
  | _ => 0

/-- The working values of a chain's tile on their way through its stages: values, saturations, poison of a table, and the stage code of a residue mismatch (R138–R141, R151). -/
structure Work where
  vals : List Nat
  sats : Nat := 0
  pois : Bool := false
  bad : Option Nat := none
  deriving DecidableEq, Repr

/-- One stage over every element (R138–R140): `ch` is the number of channels; a lane fault adds to the exact result of one element of a stage that the residue units check. -/
def Work.stage (w : Work) (s : Nat) (isInt : Bool) (tab el : List Nat) (ch : Nat) (slip : Option (Nat × Int)) : Work :=
  let xs := w.vals.zipIdx.map fun v =>
    let b := stageB s isInt tab el (v.2 % max 1 ch) v.2
    let e := match slip with | some p => if isInt && residueOp (sgOp s) && p.1 == v.2 then p.2 else 0 | none => 0
    let y := if isInt then stageI (sgOp s) (sgRnd s) (sgShift s) v.1 b e else stageF (sgOp s) (sgRnd s) (sgShift s) v.1 b
    (y, isInt && residueOp (sgOp s) && !stageRes (sgOp s) (sgRnd s) (sgShift s) v.1 b (exactI (sgOp s) (sgRnd s) (sgShift s) v.1 b + e))
  { w with vals := xs.map (·.1.1), sats := xs.foldl (fun n x => n + x.1.2) w.sats, bad := if xs.any (·.2) then w.bad.orElse (fun _ => some (sgOp s)) else w.bad }

/-- The stages of a chain in order, the first in place `i`, with the tables they need (R138, R141): or the offset of a bound fault. `slip` is a lane fault: place, stage and what it
adds. -/
def Chip.stages (c : Chip) (st : Nat) (r : Run) (ups : Upsets) (ch : Nat) (el : List Nat) (slip : Option (Nat × Nat × Int)) :
    Nat → List (Nat × Bool) → Work → Chip × Except Nat Work
  | _, [], w => (c, .ok w)
  | i, (s, isInt) :: rest, w =>
    let e := slip.bind (fun p => if p.2.1 = i then some (p.1, p.2.2) else none)
    if sgOpnd s = 2 then
      let t := c.table st r ups (sgImm s) ch
      match t.2 with
      | .error o => (t.1, .error o)
      | .ok x => t.1.stages st r ups ch el slip (i + 1) rest { w.stage s isInt x.1 el ch e with pois := w.pois || x.2 }
    else c.stages st r ups ch el slip (i + 1) rest (w.stage s isInt [] el ch e)

/-- The stage words of a chain with their working types. -/
def chainStages (d : Nat) : List (Nat × Bool) := (stageTypes d).zipIdx.map (fun t => (vxStage d t.2, t.1))

/-- An output tile formed from working values (R124, R138, R143, R144, R151, R152): `n` × `h` × `w` positions of `ch` channels. `at'` gives the place and lane of the element that a lane
fault names. -/
def Chip.formTile (c : Chip) (st : Nat) (r : Run) (res : OptLane) (ups : Upsets) (at' : Nat → Option (Nat × Nat)) (el vs : List Nat) (h w ch n : Nat) (fin : Run → Run) : Chip :=
  let d := r.desc
  let hit := res.bind (fun e => at' e.elem)
  let slip := res.bind (fun e => (at' e.elem).map (fun p => (p.1, e.stage.val, e.delta)))
  let s := c.stages st r ups ch el slip 0 (chainStages d) { vals := vs }
  match s.2 with
  | .error o => s.1.boundFault (stKey st 0) r (s.1.faultCode st r.task 0 o 4) o 0
  | .ok x =>
    let cv := convTile (vxOutFmt d) (vxOutLay d) h w ch n x.vals
    let z := if vxZout d then zTry cv.1 else (cv.1, false)
    let t : OutTile := { k := 0, fmt := vxOutFmt d, lay := vxOutLay d, h := h, w := w, c := ch, n := n, zcomp := z.2, data := z.1 }
    let c1 := (s.1.addReg (stDie st) (vxOff st + 0x10) (x.sats + cv.2)).busy st (cdiv vs.length 64)
    let r1 := { r with pois := r.pois || x.pois }
    match x.bad with
    | some code => (c1.residue st d ((hit.map (·.2)).getD 0) code).endBadTile st r1 [t]
    | none => c1.setRun (stKey st 0) (fin (r1.emit t))

/-- A tile's working values, and the run with any poison of its payload. -/
def Chip.tileVals (c : Chip) (r : Run) (t : InTile) : Chip × Run × List Nat :=
  let rd := c.payload t
  (rd.1, { r with pois := r.pois || !rd.2.2.isEmpty }, workVals t.hdr rd.2.1)

/-- Place in the order n, h, w, c, and lane, of the element in place `e` of a tile's payload order: 64 elements a vector (R138). -/
def tilePlace (h e : Nat) : Option (Nat × Nat) :=
  ((coords (hLay h) (hH h) (hW h) (hC h) (hN h))[e]?).map (fun p => (((p.n * hH h + p.h) * hW h + p.w) * hC h + p.c, e % 64))

/-- The same for a tile of `n` positions of `ch` channels formed from drain rows or pooled vectors: a channel's lane. -/
def lanePlace (n ch e : Nat) : Option (Nat × Nat) := if e < n * ch then some (e, e % ch % 64) else none

/-- One tile of a chain with source 0 (R141). -/
def Chip.chainTile (c : Chip) (st : Nat) (r : Run) (res : OptLane) (ups : Upsets) : Chip :=
  match r.nextIn with
  | none => c.stall st 6 1
  | some t =>
    let a := c.tileVals r t
    let h := t.hdr
    if 2 ≤ dNin r.desc then
      match r.paired 1 t.ord with
      | none => c.stall st 6 1
      | some u =>
        let b := a.1.tileVals a.2.1 u
        b.1.formTile st b.2.1 res ups (tilePlace h) b.2.2 a.2.2 (hH h) (hW h) (hC h) (hN h) (fun r => r.advance t.ord)
    else a.1.formTile st a.2.1 res ups (tilePlace h) [] a.2.2 (hH h) (hW h) (hC h) (hN h) (fun r => r.advance t.ord)

/-- Dims of a tile of `n` positions with sources 1 and 2 (R141). -/
def chainDims (d n : Nat) : Nat × Nat :=
  if n = vxTileH d * vxTileW d then (vxTileH d, vxTileW d)
  else if n % max 1 (vxTileW d) = 0 then (n / max 1 (vxTileW d), vxTileW d)
  else (1, n)

/-- After a tile of sources 1 and 2: the last of tile_count closes the command. -/
def Run.made1 (r : Run) (n : Nat) : Run :=
  let r1 := { r with made := r.made + 1, pos := r.pos + n }
  if dTiles r.desc ≤ r1.made then { r1.closeOuts with inDone := true } else r1

/-- The values of positions `[p, p + n)` from vectors of 64 lanes, `g` vectors a position, channels at or above `ch` dropped (R141). -/
def gatherLanes (acc : List Nat) (g ch p n : Nat) : List Nat :=
  (List.range n).flatMap (fun i => (slice' acc ((p + i) * g * 64) (g * 64)).take ch)
where
  /-- Elements `[o, o + n)` of a list. -/
  slice' (l : List Nat) (o n : Nat) : List Nat := (l.drop o).take n

/-- The next tile of a chain with source 1, once its rows have been read (R141). -/
def Chip.chainRows (c : Chip) (st : Nat) (r : Run) (res : OptLane) (ups : Upsets) : Chip :=
  let d := r.desc
  let g := popcount 4 (vxMask d)
  let n := min (vxTileH d * vxTileW d) (vxRows d - r.pos)
  if r.taken1 < (r.pos + n) * g then c.stall st 2 1
  else
    let x := chainDims d n
    c.formTile st r res ups (lanePlace n (vxOutC d)) [] (gatherLanes r.acc g (vxOutC d) r.pos n) x.1 x.2 (vxOutC d) 1 (fun r => r.made1 n)

/-- A pooled vector's lanes after the division of R141, and the lane of a residue mismatch in an INT32 division; a lane fault adds `slip.2` to the quotient of lane `slip.1` (R151). -/
def poolDiv (d : Nat) (v : Vec) (slip : Option (Nat × Int)) : List Nat × Option Nat :=
  let n := if vxPoolDiv d = 1 then v.area else v.inside
  if vxPoolDiv d = 0 then (v.elems, none)
  else if workInt (vxInFmt d) then
    let xs := v.elems.zipIdx.map fun x =>
      let q0 := roundDiv (sgRnd (vxStage d 0)) (sext 32 x.1) n
      let q := q0 + (match slip with | some p => if p.1 = x.2 then p.2 else 0 | none => 0)
      (wrap 32 q, !divRes q q0 n (sext 32 x.1))
    (xs.map (·.1), xs.findIdx? (·.2))
  else (v.elems.map (fun x => fdiv x (rne32 ⟨n, 0⟩)), none)

/-- A chain with source 2 takes the next pooled vector, and forms a tile when its positions are complete (R120, R141, R145). A mismatch in the division ends the command with the tile of
the positions taken so far (R152; log 155). -/
def Chip.chainPool (c : Chip) (st : Nat) (r : Run) (res : OptLane) (ups : Upsets) : Chip :=
  let w := c.wfOf (st - 1)
  match w.buf with
  | [] => c.stall st 1 1
  | v :: rest =>
    if !v.pool then c.stall st 1 1
    else
      let d := r.desc
      let g := max 1 (cdiv (vxOutC d) 64)
      let q := poolDiv d v (res.bind (fun e => if e.stage = 5 then some (e.elem, e.delta) else none))
      let r1 := { r with acc := r.acc ++ q.1, pois := r.pois || v.pois, prov := r.prov || v.prov }
      let c1 := (c.setWf (st - 1) { w with buf := rest }).setRun (stKey st 0) r1
      let have' := r1.acc.length / (64 * g) - r.pos
      match q.2 with
      | some lane =>
        let n := cdiv (r1.acc.length - 64 * g * r.pos) (64 * g)
        let x := chainDims d n
        let cv := convTile (vxOutFmt d) (vxOutLay d) x.1 x.2 (vxOutC d) 1 ((List.range (n * vxOutC d)).map (fun i => (gatherLanes r1.acc g (vxOutC d) r.pos n).getD i 0))
        let k := c1.draw
        (k.2.residue st d lane (k.1 % 64)).endBadTile st r1 [{ k := 0, fmt := vxOutFmt d, lay := vxOutLay d, h := x.1, w := x.2, c := vxOutC d, n := 1, data := cv.1 }]
      | none =>
        if vxTileH d * vxTileW d ≤ have' ∨ v.last then
          let x := chainDims d have'
          c1.formTile st r1 res ups (lanePlace have' (vxOutC d)) [] (gatherLanes r1.acc g (vxOutC d) r.pos have') x.1 x.2 (vxOutC d) 1 (fun r => r.made1 have')
        else c1.busy st 1

/-- VX_CHAIN (R138–R145): the next output tile of the command. -/
def Chip.vxChain (c : Chip) (st : Nat) (res : OptLane) (ups : Upsets) : Chip :=
  match c.vxRun st 1 with
  | none => c
  | some r =>
    if vxSrc r.desc = 0 then c.chainTile st r res ups else if vxSrc r.desc = 1 then c.chainRows st r res ups else c.chainPool st r res ups

/-- VX_DRAIN_READ (R94, R97, R141): the next row that a chain with source 1 reads, arrays ascending within a position. A row not DONE makes the VX wait; a row
with CHKFAIL or POISON ends the command POISONED (log 18). -/
def Chip.vxDrainRead (c : Chip) (st : Nat) (ups : Upsets) : Chip :=
  match c.vxRun st 1 with
  | none => c
  | some r =>
    let d := r.desc
    let arrs := bitList 4 (vxMask d)
    let g := max 1 arrs.length
    let a := arrs.getD (r.taken1 % g) 0
    let row := vxRowBase d + r.taken1 / g
    let m := st - 2
    let x := c.row m a row
    if vxSrc d ≠ 1 ∨ vxRows d * g ≤ r.taken1 then c
    else if x.st ≠ .done then c.stall st 2 1
    else
      let rd := c.read (c.readerOf st d) ups (rowAddr (stDie st) ((stIdx st - 32) / 4) a row) 256
      let c1 := (rd.1.setRow m a row {}).busy st 1
      let r1 := { r with acc := r.acc ++ (chunks 4 rd.2.1).map fromLE, taken1 := r.taken1 + 1, prov := r.prov || x.prov, pois := r.pois || !rd.2.2.isEmpty }
      if x.chkfail || x.pois then c1.endPoisoned (stKey st 0) r1 stPoisoned else c1.setRun (stKey st 0) r1

/-! ### Row operations and reductions -/

/-- tsum of FP32 values rounded to FP32, with the rules of R93 for values that are not finite (R146). -/
def fsum (l : List Nat) : Nat :=
  if l.any isNaN32 then freeNaN (l.headD 0) 1
  else
    let infs := l.filter isInf32
    if infs.isEmpty then rne32 (tsum (l.map dy32))
    else if infs.any neg32 && infs.any (fun x => !neg32 x) then freeNaN (l.headD 0) 2
    else inf32 (infs.any neg32)

/-- exp of a step of R146, rounded to nearest (log 5). -/
def expF (a : Nat) : Nat :=
  if isNaN32 a then freeNaN a 0 else if isInf32 a then (if neg32 a then 0 else inf32 false)
  else rne32 (expDy (dy32 a))

/-- One position of a VX_ROW (R146): kind, ε, γ and β by channel. -/
def rowOp (kind eps : Nat) (gamma beta xs : List Nat) : List Nat :=
  let n := rne32 ⟨xs.length, 0⟩
  match kind with
  | 0 =>
    if xs.any isNaN32 then xs.map (fun x => freeNaN x 0)
    else
      let m := match xs with | [] => 0 | x :: t => t.foldl fmax x
      let e := xs.map (fun x => expF (fsub x m))
      let s := frecip (fsum e)
      e.map (fun x => fmul x s)
  | 1 =>
    let mu := fdiv (fsum xs) n
    let ds := xs.map (fun x => fsub x mu)
    let v := fdiv (fsum (ds.map (fun x => fmul x x))) n
    let s := frsqrt (fadd v eps)
    ds.zipIdx.map (fun x => fadd (fmul (fmul x.1 s) (gamma.getD x.2 0)) (beta.getD x.2 0))
  | 2 =>
    let s := frsqrt (fadd (fdiv (fsum (xs.map (fun x => fmul x x))) n) eps)
    xs.zipIdx.map (fun x => fmul (fmul x.1 s) (gamma.getD x.2 0))
  | _ =>
    let s := frsqrt (fadd (fsum (xs.map (fun x => fmul x x))) eps)
    xs.map (fun x => fmul x s)

/-- The layout of an output whose params name none: the input's where the format allows it, else dense (log 21). -/
def keepLay (lay f : Nat) : Nat := if layOk lay f then lay else 0

/-- A table of R146, read where the kind uses it. -/
def Chip.rowTable (c : Chip) (st : Nat) (r : Run) (ups : Upsets) (use : Bool) (u n : Nat) : Chip × Except Nat (List Nat × Bool) :=
  if use then c.table st r ups u n else (c, .ok ([], false))

/-- VX_ROW (R146): the next tile, position by position. -/
def Chip.vxRow (c : Chip) (st : Nat) (ups : Upsets) : Chip :=
  match c.vxRun st 2 with
  | none => c
  | some r =>
    match r.nextIn with
    | none => c.stall st 6 1
    | some t =>
      let d := r.desc
      let h := t.hdr
      let a := c.tileVals r t
      let g := a.1.rowTable st r ups (vrKind d == 1 || vrKind d == 2) (vrGamma d) (hC h)
      let b := g.1.rowTable st r ups (vrKind d == 1) (vrBeta d) (hC h)
      match g.2, b.2 with
      | .error o, _ => g.1.boundFault (stKey st 0) r (g.1.faultCode st r.task 0 o 4) o 0
      | _, .error o => b.1.boundFault (stKey st 0) r (b.1.faultCode st r.task 0 o 4) o 0
      | .ok x, .ok y =>
        let ys := (chunks (hC h) a.2.2).flatMap (rowOp (vrKind d) (vrEps d) x.1 y.1)
        let lay := keepLay (hLay h) (vrOutFmt d)
        let cv := convTile (vrOutFmt d) lay (hH h) (hW h) (hC h) (hN h) ys
        let r1 := { a.2.1 with pois := a.2.1.pois || x.2 || y.2 }
        let o : OutTile := { k := 0, fmt := vrOutFmt d, lay := lay, h := hH h, w := hW h, c := hC h, n := hN h, data := cv.1 }
        ((b.1.addReg (stDie st) (vxOff st + 0x10) cv.2).busy st (cdiv ys.length 64)).setRun (stKey st 0) ((r1.emit o).advance t.ord)

/-- A reduction so far: the value (an exact integer modulo 2^128, or FP32 bits), the index of an argmax or argmin, the elements seen, and whether a residue check failed (R151). -/
structure Red where
  val : Nat := 0
  idx : Nat := 0xFFFFFFFF
  seen : Nat := 0
  bad : Bool := false
  deriving DecidableEq, Repr

/-- One more element, in place `i` (R147): `int` says how the value is held. -/
def redStep (kind : Nat) (int : Bool) (s : Red) (i x : Nat) : Red :=
  let xi := sext 32 x
  let cur := sext 128 s.val
  let v :=
    if kind < 2 then (if int then wrap 128 (cur + xi) else if s.seen = 0 then x else fadd s.val x)
    else if kind = 2 then (if int then wrap 128 (if s.seen = 0 then xi else max cur xi) else if s.seen = 0 then x else fmax s.val x)
    else if kind = 3 then (if int then wrap 128 (if s.seen = 0 then xi else min cur xi) else if s.seen = 0 then x else fmin s.val x)
    else s.val
  if kind < 4 then { s with val := v, seen := s.seen + 1 }
  else
    let nan := !int && isNaN32 x
    let better :=
      if s.idx = 0xFFFFFFFF then true
      else if int then (if kind = 4 then decide (cur < xi) else decide (xi < cur))
      else (if kind = 4 then lt32 s.val x else lt32 x s.val)
    if nan || !better then { s with seen := s.seen + 1 }
    else { s with val := if int then wrap 128 xi else x, idx := i, seen := s.seen + 1 }

/-- The same for an integer sum, mean, max or min with a lane fault of `e`, checked by the residue units: the running sum against the sum of residues, a maximum or minimum against the
value chosen (R151). -/
def redSlip (kind : Nat) (int : Bool) (e : Int) (s : Red) (i x : Nat) : Red :=
  let y := redStep kind int s i x
  if !int || 4 ≤ kind then y
  else
    let v := sext 128 y.val + e
    let want := if kind < 2 then res7 (sext 128 s.val) + res7 (sext 32 x) else sext 128 y.val
    { y with val := wrap 128 v, bad := y.bad || res7 v != res7 want }

/-- The result of a reduction in the output format (R143, R147): code and saturations. -/
def redOut (kind rnd f : Nat) (int : Bool) (s : Red) : Nat × Nat :=
  if 4 ≤ kind then (s.idx, 0)
  else if int then
    let x := sext 128 s.val
    let y := if kind = 1 then roundDiv rnd x (max 1 s.seen) else x
    let w := satS 32 y
    if f = 0x06 then w else (let o := convOne f w.1; (o.1, max w.2 o.2))
  else
    convOne f (if kind = 1 then fdiv s.val (rne32 ⟨s.seen, 0⟩) else s.val)

/-- A one-channel or one-position tile of reduction results; an MX output takes its blocks of 32 (R144). -/
def redTile (kind rnd f : Nat) (int : Bool) (h w ch n : Nat) (rs : List Red) : Bytes × Nat :=
  if isMx f then convTile f 0 h w ch n (rs.map (fun s => if kind = 1 then fdiv s.val (rne32 ⟨s.seen, 0⟩) else s.val))
  else
    let xs := rs.map (redOut kind rnd f int)
    (pack f 0 h w ch n (xs.map (·.1)) [], xs.foldl (fun k x => k + x.2) 0)

/-- The reductions of axis 0 carried in a run between tiles: value, index and count by channel. -/
def Run.reds (r : Run) : List Red := (r.acc.zip (r.acc2.zip (List.replicate r.acc.length r.pos))).map (fun x => ⟨x.1, x.2.1, x.2.2, false⟩)

/-- VX_REDUCE (R146, R147, R151, R152): the next tile enters the reduction; axis 1 gives a tile per input tile, axis 0 one tile after the last. -/
def Chip.vxReduce (c : Chip) (st : Nat) (res : OptLane) : Chip :=
  match c.vxRun st 3 with
  | none => c
  | some r =>
    match r.nextIn with
    | none => c.stall st 6 1
    | some t =>
      let d := r.desc
      let h := t.hdr
      let a := c.tileVals r t
      let int := workInt (hFmt h)
      let rows := chunks (hC h) a.2.2
      let kind := vrKind d
      let f := vrOutFmt d
      let last := decide (dTiles d ≤ r.made + 1)
      let hit := res.bind (fun e => (tilePlace h e.elem).map (fun p => (p.1, p.2, e.delta)))
      let e := fun (row ch : Nat) => match hit with | some p => if p.1 = row * hC h + ch then p.2.2 else 0 | none => 0
      let reds :=
        if vrAxis d then rows.zipIdx.map (fun row => row.1.zipIdx.foldl (fun s x => redSlip kind int (e row.2 x.2) s x.2 x.1) {})
        else
          rows.zipIdx.foldl (fun ss row => (ss.zip row.1).zipIdx.map (fun x => redSlip kind int (e row.2 x.2) x.1.1 (r.pos + row.2) x.1.2))
            (if r.acc.isEmpty then List.replicate (hC h) {} else r.reds)
      let o := if vrAxis d then redTile kind (vrRnd d) f int (hH h) (hW h) 1 (hN h) reds else redTile kind (vrRnd d) f int 1 1 (hC h) 1 reds
      let tile : OutTile :=
        if vrAxis d then { k := 0, fmt := f, h := hH h, w := hW h, c := 1, n := hN h, data := o.1 }
        else { k := 0, fmt := f, h := 1, w := 1, c := hC h, n := 1, data := o.1 }
      let emits := vrAxis d || last
      let r1 := if vrAxis d then a.2.1 else { a.2.1 with acc := reds.map (·.val), acc2 := reds.map (·.idx), pos := r.pos + rows.length }
      let c1 := ((if emits then a.1.addReg (stDie st) (vxOff st + 0x10) o.2 else a.1)).busy st (cdiv a.2.2.length 64)
      if reds.any (·.bad) then (c1.residue st d ((hit.map (·.2.1)).getD 0) 0x3F).endBadTile st r1 [tile]
      else c1.setRun (stKey st 0) ((if emits then r1.emit tile else r1).advance t.ord)

/-! ### Gather, scatter and scatter-add -/

/-- The indices of an index tile. -/
def Chip.indices (c : Chip) (r : Run) (t : InTile) : Chip × Run × List Nat :=
  let rd := c.payload t
  (rd.1, { r with pois := r.pois || !rd.2.2.isEmpty }, (unpackRM t.hdr rd.2.1).map (·.1))

/-- What an index selects (R149): none when empty or out of range. -/
def rowOf (d i : Nat) : Option Nat := if i = 0xFFFFFFFF ∨ vtRows d ≤ i then none else some i
/-- Out-of-range indices counted in VX_IDX_OOR (R149). -/
def oorCount (d : Nat) (is : List Nat) : Nat := (is.filter (fun i => i != 0xFFFFFFFF && decide (vtRows d ≤ i))).length

/-- Table rows read one after another: bytes and poison, or the offset of a bound fault (R149, R172). -/
def Chip.gatherRows (c : Chip) (st : Nat) (r : Run) (ups : Upsets) : List Nat → Bytes → Bool → Chip × Except Nat (Bytes × Bool)
  | [], b, p => (c, .ok (b, p))
  | i :: rest, b, p =>
    let d := r.desc
    match rowOf d i with
    | none => c.gatherRows st r ups rest (b ++ List.replicate (vtRowBytes d) 0#8) p
    | some k =>
      let o := vtOff d + k * vtRowBytes d
      match c.xlate st r.task (vtRegion d) o (vtRowBytes d) with
      | none => (c, .error o)
      | some a =>
        let rd := c.readTask (c.readerOf st d) ups a (vtRowBytes d)
        rd.1.gatherRows st r ups rest (b ++ rd.2.1) (p || !rd.2.2.isEmpty)

/-- VX_GATHER (R148, R149): one output tile for the next index tile. -/
def Chip.vxGather (c : Chip) (st : Nat) (ups : Upsets) : Chip :=
  match c.vxRun st 4 with
  | none => c
  | some r =>
    match r.nextIn with
    | none => c.stall st 6 1
    | some t =>
      let d := r.desc
      let h := t.hdr
      let ix := c.indices r t
      let c1 := ix.1.addReg (stDie st) (vxOff st + 0x14) (oorCount d ix.2.2)
      let g := c1.gatherRows st r ups ix.2.2 [] false
      match g.2 with
      | .error o => g.1.boundFault (stKey st 0) r (g.1.faultCode st r.task (vtRegion d) o (vtRowBytes d)) o 0
      | .ok b =>
        let o : OutTile := { k := 0, fmt := vtFmt d, h := hH h, w := hW h, c := vtC d, n := hN h * hC h, data := b.1 }
        (g.1.busy st (max 1 (ix.2.2.length * cdiv (vtRowBytes d) 64))).setRun (stKey st 0)
          (({ ix.2.1 with pois := ix.2.1.pois || b.2 }.emit o).advance t.ord)

/-- The rows of a data tile as a table stores them, in the order of positions: packed bytes, and the offsets of their poisoned ones (R148, R149). -/
def tileRows (h : Nat) (b : Bytes) (pois : List Nat) : List (Bytes × List Nat) :=
  let f := hFmt h
  let eb := elemBits f
  let ps := rowMajor (hH h) (hW h) (hC h) (hN h)
  let spoilt := fun (p : Coord) => (List.range (max 1 (eb / 8))).any (fun i => pois.contains ((elemPos f (hLay h) (hH h) (hW h) (hC h) p).1 + i))
  (chunks (max 1 (hC h)) (ps.zip (unpackIn ps h b))).map fun row =>
    (pack f 0 1 1 (hC h) 1 (row.map (·.2.1)) ((chunks 32 row).map (fun l => ((l.head?).map (·.2.2)).getD 127)),
      row.zipIdx.flatMap (fun x =>
        (if spoilt x.1.1 then (List.range (max 1 (eb / 8))).map (· + x.2 * eb / 8) else [])
          ++ (if isMx f && pois.contains (scalePos f (hLay h) (hH h) (hW h) (hC h) x.1.1) then [hC h * eb / 8 + x.2 / 32] else [])))

/-- The plain stores of a scatter in index order, each with the data row that it stores: row `k` of the data goes to the table row that index `k` names (R149); or the offset of a bound
fault, with the stores issued before it. -/
def Chip.scatterRows (c : Chip) (st : Nat) (r : Run) (data : List (Bytes × List Nat)) : List (Nat × Nat) → List (Nat × Store) → List (Nat × Store) × Option Nat
  | [], ss => (ss, none)
  | (i, k) :: rest, ss =>
    let d := r.desc
    let n := vtRowBytes d
    match rowOf d i with
    | none => c.scatterRows st r data rest ss
    | some row =>
      let o := vtOff d + row * n
      match c.xlateW st r.task (vtRegion d) o n with
      | none => (ss, some o)
      | some a =>
        let x := data.getD k ([], [])
        c.scatterRows st r data rest (ss ++ [(k, ⟨a, padTo n x.1, x.2.filter (· < n), false, false⟩)])

/-- VX_SCATTER (R149): the rows of the next data tile are issued as plain stores at the rows its index tile names. -/
def Chip.vxScatter (c : Chip) (st : Nat) : Chip :=
  match c.vxRun st 5 with
  | none => c
  | some r =>
    match r.nextIn, r.nextIn.bind (fun t => r.paired 1 t.ord) with
    | some t, some u =>
      let d := r.desc
      let ix := c.indices r u
      let rd := ix.1.payload t
      let c1 := rd.1.addReg (stDie st) (vxOff st + 0x14) (oorCount d ix.2.2)
      let x := c1.scatterRows st r (tileRows t.hdr rd.2.1 rd.2.2) ix.2.2.zipIdx []
      let r1 := { ix.2.1 with stores := r.stores ++ x.1.map (·.2) }
      match x.2 with
      | some o => c1.boundFault (stKey st 0) r1 (c1.faultCode st r.task (vtRegion d) o (vtRowBytes d)) o 0
      | none => (c1.busy st (max 1 ix.2.2.length)).setRun (stKey st 0) (r1.advance t.ord)
    | _, _ => c.stall st 6 1

/-- A row's elements as atomic additions (R150). A lane fault adds `e.2` to element `e.1`: where the new value is then no longer the old plus the added modulo 7, the element is marked
(R151, R152). -/
def addStores (s : Store) (e : Option (Nat × Int)) : List Store :=
  (chunks 4 s.data).zipIdx.map fun x =>
    let v := match e with | some p => if p.1 = x.2 then p.2 else 0 | none => 0
    { addr := s.addr + 4 * x.2, data := toLE 4 (wrap 32 (fromLE x.1 + v)), add := true, bad := res7 v != 0 }

/-- VX_SCATADD (R149–R152): every INT32 element of the next data tile is added into the die buffer. -/
def Chip.vxScatadd (c : Chip) (st : Nat) (res : OptLane) : Chip :=
  match c.vxRun st 6 with
  | none => c
  | some r =>
    match r.nextIn, r.nextIn.bind (fun t => r.paired 1 t.ord) with
    | some t, some u =>
      let d := r.desc
      let ix := c.indices r u
      let rd := ix.1.payload t
      let c1 := rd.1.addReg (stDie st) (vxOff st + 0x14) (oorCount d ix.2.2)
      let x := c1.scatterRows st r (tileRows t.hdr rd.2.1 rd.2.2) ix.2.2.zipIdx []
      let hit := res.bind (fun e => (tilePlace t.hdr e.elem).map (fun p => (p.1, p.2, e.delta)))
      let adds := x.1.flatMap (fun s => addStores s.2
        (hit.bind (fun p => if p.1 / max 1 (hC t.hdr) = s.1 then some (p.1 % max 1 (hC t.hdr), p.2.2) else none)))
      let r1 := { ix.2.1 with stores := r.stores ++ adds, pois := ix.2.1.pois || !rd.2.2.isEmpty }
      match x.2 with
      | some o => c1.boundFault (stKey st 0) r1 (c1.faultCode st r.task (vtRegion d) o (vtRowBytes d)) o 0
      | none =>
        if adds.any (·.bad) then (c1.residue st d ((hit.map (·.2.1)).getD 0) 0x3F).endBadTile st r1 []
        else (c1.busy st (max 1 adds.length)).setRun (stKey st 0) (r1.advance t.ord)
    | _, _ => c.stall st 6 1

/-! ### The test-blank comparator -/

/-- Whether one element passes (R153): integers and indices by value, the others by FP32 value. -/
def blankOk (f p e tol : Nat) (X Y : Nat) : Bool :=
  if f = 0x21 then decide ((((p : Int) - e).natAbs : Int) ≤ sext 32 tol)
  else if workInt f then decide (((sext 32 (workVal f p X) - sext 32 (workVal f e Y)).natAbs : Int) ≤ sext 32 tol)
  else
    let a := workVal f p X
    let b := workVal f e Y
    (isNaN32 a && isNaN32 b) || (isInf32 a && a % 2 ^ 32 == b % 2 ^ 32) || withinF32 a b tol

/-- Die `d`'s test blank has failed in this turn (R358). -/
def Chip.failBlank (c : Chip) (d : Nat) : Chip := { c with wrk := { c.wrk with blankBad := tabSet false c.wrk.blankBad d true } }

/-- The three tiles of a comparison read one after another: the chip, and the payloads of the produced, the expected and the tolerance tile (R153). -/
def Chip.readTriple (c : Chip) (t u v : InTile) : Chip × Bytes × Bytes × Bytes :=
  let a := c.payload t
  let b := a.1.payload u
  let e := b.1.payload v
  (e.1, a.2.1, b.2.1, e.2.1)

/-- The elements of a triple in the payload order of the produced tile. -/
def tripleElems (t u v : InTile) (a b e : Bytes) : List ((Nat × Nat) × (Nat × Nat) × (Nat × Nat)) :=
  let ps := coords (hLay t.hdr) (hH t.hdr) (hW t.hdr) (hC t.hdr) (hN t.hdr)
  (unpackIn ps t.hdr a).zip ((unpackIn ps u.hdr b).zip (unpackIn ps v.hdr e))

/-- Places of the elements of a triple that fail (R153). -/
def tripleFails (f : Nat) (l : List ((Nat × Nat) × (Nat × Nat) × (Nat × Nat))) : List Nat :=
  (l.zipIdx.filter (fun x => !blankOk f x.1.1.1 x.1.2.1.1 x.1.2.2.1 x.1.1.2 x.1.2.1.2)).map (·.2)

/-- The counts of a comparison after a triple whose failing places are `fails` (R153): failures so far, and the tile and place of the first. -/
def Run.countFails (r : Run) (fails : List Nat) : Run :=
  let now := decide (r.acc.getD 1 0xFFFF = 0xFFFF) && !fails.isEmpty
  { r with acc := [r.acc.getD 0 0 + fails.length, if now then r.made else r.acc.getD 1 0xFFFF, if now then fails.headD 0xFFFF else r.acc.getD 2 0xFFFF] }

/-- The result of a comparison after its last triple (R153, R358): its cycles, and where an element failed, the latched failure and its line. The result registers change when the command
ends (R164). -/
def Chip.blankResult (c : Chip) (st : Nat) (r : Run) : Chip :=
  let d := stDie st
  let n := r.acc.getD 0 0
  let tile := r.acc.getD 1 0xFFFF
  let elem := r.acc.getD 2 0xFFFF
  let c2 := c.setReg d (blkBlk + 0x18) ((c.nowNs - c.wrk.slotNs) * 8 / 10)
  if n = 0 then c2
  else
    ((c2.failBlank d).latchIf d blkBlk [(blkBlk + 4, dOpId r.desc % 1024 + (dOutIx r.desc % 16) <<< 10 + (elem % 65536) <<< 14),
      (blkBlk + 8, c2.turn32), (blkBlk + 0x24, tile % 65536)]).raise d blkBlk 0 0x03

/-- VX_BLANKCMP (R153): the next triple is compared in the payload order of the produced tile; after the last,
a failure is latched and raises bit 8d + 1 (R358); op_id holds the entry and the station type of the Carver's comparison, out_index the physical core (log 43). -/
def Chip.vxBlankcmp (c : Chip) (st : Nat) : Chip :=
  match c.vxRun st 7 with
  | none => c
  | some r =>
    match r.nextIn, r.nextIn.bind (fun t => r.paired 1 t.ord), r.nextIn.bind (fun t => r.paired 2 t.ord) with
    | some t, some u, some v =>
      let x := c.readTriple t u v
      let el := tripleElems t u v x.2.1 x.2.2.1 x.2.2.2
      let r1 := (r.countFails (tripleFails (hFmt t.hdr) el)).advance t.ord
      let c1 := (x.1.setRun (stKey st 0) r1).busy st (max 1 el.length)
      if r1.inDone then c1.blankResult st r1 else c1
    | _, _, _ => c.stall st 6 1

/-- VX_CHAIN. -/
def execVxChain (d : CDie) (c : CoreIx) (res : OptLane) (ups : Upsets) (s : State) : Host.Outcome State Fault Refusal :=
  .next { s with chip := s.chip.work (·.vxChain (coreStn (d + 1) c 2) res ups) }
/-- VX_ROW. -/
def execVxRow (d : CDie) (c : CoreIx) (ups : Upsets) (s : State) : Host.Outcome State Fault Refusal :=
  .next { s with chip := s.chip.work (·.vxRow (coreStn (d + 1) c 2) ups) }
/-- VX_REDUCE. -/
def execVxReduce (d : CDie) (c : CoreIx) (res : OptLane) (s : State) : Host.Outcome State Fault Refusal :=
  .next { s with chip := s.chip.work (·.vxReduce (coreStn (d + 1) c 2) res) }
/-- VX_GATHER. -/
def execVxGather (d : CDie) (c : CoreIx) (ups : Upsets) (s : State) : Host.Outcome State Fault Refusal :=
  .next { s with chip := s.chip.work (·.vxGather (coreStn (d + 1) c 2) ups) }
/-- VX_SCATTER. -/
def execVxScatter (d : CDie) (c : CoreIx) (s : State) : Host.Outcome State Fault Refusal :=
  .next { s with chip := s.chip.work (·.vxScatter (coreStn (d + 1) c 2)) }
/-- VX_SCATADD. -/
def execVxScatadd (d : CDie) (c : CoreIx) (res : OptLane) (s : State) : Host.Outcome State Fault Refusal :=
  .next { s with chip := s.chip.work (·.vxScatadd (coreStn (d + 1) c 2) res) }
/-- VX_BLANKCMP. -/
def execVxBlankcmp (d : CDie) (c : CoreIx) (s : State) : Host.Outcome State Fault Refusal :=
  .next { s with chip := s.chip.work (·.vxBlankcmp (coreStn (d + 1) c 2)) }
/-- VX_DRAIN_READ. -/
def execVxDrainRead (d : CDie) (c : CoreIx) (ups : Upsets) (s : State) : Host.Outcome State Fault Refusal :=
  .next { s with chip := s.chip.work (·.vxDrainRead (coreStn (d + 1) c 2) ups) }

end Sys2Proof.Machine
end

