-- ==== Sys2Proof/Machine/Box.lean ====
section
/-! DEFINITION. Machine/Box.lean: the box station: decode, candidates, suppression and kept boxes (R126–R136). -/
namespace Sys2Proof.Machine

/-- A decoded box: FP32 centre, size and yaw. -/
structure BBox where
  cx : Nat
  cy : Nat
  sx : Nat
  sy : Nat
  yaw : Nat
  deriving DecidableEq, Repr

/-- A candidate (R129): score, class, index and box. -/
structure Cand where
  score : Nat
  cls : Nat
  ix : Nat
  box : BBox
  deriving DecidableEq, Repr

/-- 0.5 and 1.0 in FP32. -/
def half32 : Nat := 0x3F000000
def one32 : Nat := 0x3F800000

/-- exp of a BX: free within 1 ulp of the exact value, exact at the infinities (R128; log 5). -/
def bxExp (a : Nat) : Nat :=
  if isNaN32 a then freeNaN a 0 else if isInf32 a then (if neg32 a then 0 else inf32 false)
  else nearUlp 1 (expDy (dy32 a)) (Config.expBits a).toNat

/-- Yaw reduced into [−π, π) (R128): a value already inside stays; another is y − 2πn rounded to nearest, or the nearest FP32 value inside where that lies outside (log 154). -/
def bxYaw (y : Nat) : Nat :=
  let lim := 0x40490FDA
  if !isFin32 y ∨ y % 2 ^ 31 ≤ lim then y
  else
    let v := rne32 (reduceDy (dy32 y))
    if v % 2 ^ 31 ≤ lim then v else (b2n (neg32 v)) <<< 31 ||| lim

/-- Decode of one box (R128): `b` its elements, `a` its anchor's. -/
def bxDecode (d : Nat) (b a : List Nat) : BBox :=
  let g := fun (l : List Nat) i => l.getD i 0
  let vxy := fvToF32 arrayNaN (decF16 (bxVarXy d))
  let vwh := fvToF32 arrayNaN (decF16 (bxVarWh d))
  let e := fun x => bxExp (fmin x (bxClip d))
  match bxForm d with
  | 0 => ⟨g b 0, g b 1, g b 2, g b 3, 0⟩
  | 1 => ⟨fmul (fadd (g b 0) (g b 2)) half32, fmul (fadd (g b 1) (g b 3)) half32, fsub (g b 2) (g b 0), fsub (g b 3) (g b 1), 0⟩
  | 2 =>
    ⟨fadd (g a 0) (fmul (fmul (g b 0) vxy) (g a 2)), fadd (g a 1) (fmul (fmul (g b 1) vxy) (g a 3)),
     fmul (g a 2) (e (fmul (g b 2) vwh)), fmul (g a 3) (e (fmul (g b 3) vwh)), 0⟩
  | 3 => ⟨g b 0, g b 1, g b 2, g b 3, bxYaw (g b 4)⟩
  | _ =>
    let dg := fsqrt (fadd (fmul (g a 2) (g a 2)) (fmul (g a 3) (g a 3)))
    ⟨fadd (g a 0) (fmul (fmul (g b 0) vxy) dg), fadd (g a 1) (fmul (fmul (g b 1) vxy) dg),
     fmul (g a 2) (e (g b 2)), fmul (g a 3) (e (g b 3)), bxYaw (fadd (g a 4) (g b 4))⟩

/-- Whether a decoded box is finite (R129). -/
def BBox.finite (b : BBox) : Bool := isFin32 b.cx && isFin32 b.cy && isFin32 b.sx && isFin32 b.sy && isFin32 b.yaw

/-- A class score after score_fn (R126). -/
def bxScore (d x : Nat) : Nat := if bxLogistic d then fdiv one32 (fadd one32 (bxExp (fneg x))) else x

/-- Candidates of box `i` (R129): its non-NaN scores by class, and the number of NaN scores. -/
def boxCands (d i : Nat) (b : BBox) (scores : List Nat) : List Cand × Nat :=
  let n := bxClasses d
  let ss := (scores.map (fun x => (x, bxScore d x))).zipIdx
  let good := (ss.filter (fun s => !isNaN32 s.1.1 && !isNaN32 s.1.2)).map (fun s => (s.1.2, s.2))
  let nans := ss.length - good.length
  let mk := fun (s : Nat × Nat) => (⟨s.1, s.2, i * n + s.2, b⟩ : Cand)
  if bxMode d = 2 then
    match good with
    | [] => ([], nans)
    | s :: t =>
      let best := t.foldl (fun m x => if lt32 m.1 x.1 then x else m) s
      (if ge32 best.1 (bxScoreThr d) then [mk best] else [], nans)
  else ((good.filter (fun s => ge32 s.1 (bxScoreThr d))).map mk, nans)

/-- Candidate order (R130): score, highest first, then index. -/
def candBefore (a b : Cand) : Bool := lt32 b.score a.score || (!lt32 a.score b.score && decide (a.ix < b.ix))

/-- Insertion into an ordered list. -/
def insertCand (x : Cand) : List Cand → List Cand
  | [] => [x]
  | y :: t => if candBefore x y then x :: y :: t else y :: insertCand x t

/-- Candidates in order (R130). -/
def sortCands (l : List Cand) : List Cand := l.foldl (fun s x => insertCand x s) []

/-- Whether a box has zero area (R128). -/
def BBox.empty (b : BBox) : Bool := ge32 0 b.sx || ge32 0 b.sy

/-- Intersection area, axis-aligned (R132). -/
def interAxis (a b : BBox) : Nat :=
  let lo := fun c s => fsub c (fmul s half32)
  let hi := fun c s => fadd c (fmul s half32)
  let ix := fmax 0 (fsub (fmin (hi a.cx a.sx) (hi b.cx b.sx)) (fmax (lo a.cx a.sx) (lo b.cx b.sx)))
  let iy := fmax 0 (fsub (fmin (hi a.cy a.sy) (hi b.cy b.sy)) (fmax (lo a.cy a.sy) (lo b.cy b.sy)))
  fmul ix iy

/-- Corners counter-clockwise (R132); sin and cos are free within 1 ulp (R128; log 5). -/
def corners (b : BBox) : List (Nat × Nat) :=
  let c := nearUlp 1 (cosDy (dy32 b.yaw)) (Config.cosBits b.yaw).toNat
  let s := nearUlp 1 (sinDy (dy32 b.yaw)) (Config.sinBits b.yaw).toNat
  [(false, false), (true, false), (true, true), (false, true)].map fun q =>
    let u := fmul (if q.1 then fneg b.sx else b.sx) half32
    let v := fmul (if q.2 then fneg b.sy else b.sy) half32
    (fsub (fadd b.cx (fmul u c)) (fmul v s), fadd (fadd b.cy (fmul u s)) (fmul v c))

/-- Each element with its successor, cyclically. -/
def cyclicPairs {α : Type} (l : List α) : List (α × α) := l.zip (l.drop 1 ++ l.take 1)

/-- A polygon clipped by the edge (p, q): vertices with side ≥ 0, and a crossing on each edge that changes sign (R132). -/
def clipEdge (poly : List (Nat × Nat)) (p q : Nat × Nat) : List (Nat × Nat) :=
  let side := fun (x : Nat × Nat) => fsub (fmul (fsub q.1 p.1) (fsub x.2 p.2)) (fmul (fsub q.2 p.2) (fsub x.1 p.1))
  (cyclicPairs poly).flatMap fun e =>
    let si := side e.1
    let sj := side e.2
    let t := fdiv si (fsub si sj)
    (if ge32 si 0 then [e.1] else []) ++
      (if ge32 si 0 != ge32 sj 0 then [(fadd e.1.1 (fmul t (fsub e.2.1 e.1.1)), fadd e.1.2 (fmul t (fsub e.2.2 e.1.2)))] else [])

/-- Intersection area, rotated (R132). -/
def interRot (a b : BBox) : Nat :=
  let poly := (cyclicPairs (corners b)).foldl (fun s e => clipEdge s e.1 e.2) (corners a)
  if poly.length < 3 then 0
  else fmul (fabs ((cyclicPairs poly).foldl (fun s e => fadd s (fsub (fmul e.1.1 e.2.2) (fmul e.2.1 e.1.2))) 0)) half32

/-- IoU (R132). -/
def iou (d : Nat) (a b : BBox) : Nat :=
  if a.empty || b.empty then 0
  else
    let inter := if bxRot d then interRot a b else interAxis a b
    let u := fsub (fadd (fmul a.sx a.sy) (fmul b.sx b.sy)) inter
    if lt32 0 u then fdiv inter u else 0

/-- Suppression (R131). -/
def suppress (d : Nat) : List Cand → List Cand → List Cand
  | [], kept => kept
  | x :: t, kept =>
    if bxKeepMax d ≤ kept.length then kept
    else if kept.any (fun k => (bxMode d != 0 || k.cls == x.cls) && lt32 (bxIouThr d) (iou d k.box x.box)) then suppress d t kept
    else suppress d t (kept ++ [x])

/-- A kept box's record (R133). -/
def boxRecord (x : Cand) : Bytes :=
  toLE 4 x.box.cx ++ toLE 4 x.box.cy ++ toLE 4 x.box.sx ++ toLE 4 x.box.sy ++ toLE 4 x.box.yaw ++ toLE 4 x.score ++ toLE 2 x.cls ++ toLE 2 0 ++ toLE 4 x.ix

/-- The bound on a command's cycles (R134). -/
def bxBound (d cands kept : Nat) : Nat :=
  let r := if bxRot d then 2 else 16
  max (bxBoxes d * max 1 (cdiv (bxClasses d) 64)) (cdiv cands 4) + 64
    + ((List.range (min cands (bxPreK d))).map (fun i => max 1 (cdiv (min i (bxKeepMax d)) r))).foldl (· + ·) 0 + kept

/-- Rows of FP32 values of input `j` over all tiles, in order, and whether any payload was poisoned. -/
def Chip.bxRows (c : Chip) (r : Run) (j : Nat) : Chip × List (List Nat) × Bool :=
  (r.ins.filter (fun t => t.inp == j)).foldl (fun s t =>
    let rd := s.1.payload t
    (rd.1, s.2.1 ++ chunks (hC t.hdr) (workVals t.hdr rd.2.1), s.2.2 || !rd.2.2.isEmpty)) (c, [], false)

/-- BX_NMS (R126–R136): once every input tile is held, boxes are decoded, ordered and suppressed into one tile, or an EOS marker when nothing is kept.
Its registers change when the command ends (R136). -/
def Chip.bxNms (c : Chip) (st : Nat) : Chip :=
  let k := stKey st 0
  match (c.curRun k).filter (fun r => dType r.desc == 5 && dOp r.desc == 1 && !r.inDone && r.status == 0) with
  | none => c
  | some r =>
    let d := r.desc
    let n := dTiles d
    if r.taken < n ∨ r.taken1 < n ∨ (3 ≤ dNin d ∧ r.taken2 < n) then c.stall st 6 1
    else
      let bs := c.bxRows r 0
      let ss := bs.1.bxRows r 1
      let an := if 3 ≤ dNin d then ss.1.bxRows r 2 else (ss.1, [], false)
      let boxes := bs.2.1.zipIdx.map (fun b => bxDecode d b.1 (an.2.1.getD b.2 ([] : List Nat)))
      let per := boxes.zipIdx.map (fun b => if b.1.finite then boxCands d b.2 b.1 (ss.2.1.getD b.2 []) else ([], 0))
      let cands := sortCands (per.flatMap (·.1))
      let first := cands.take (bxPreK d)
      let kept := suppress d first []
      let o := bxBlk
      let die := stDie st
      let cyc := an.1.draw
      let c1 := (cyc.2.addReg die o (per.foldl (fun s p => s + p.2) 0)).addReg die (o + 4) (boxes.filter (fun b => !b.finite)).length
      let ends := [cands.length, cands.length - first.length, kept.length + (b2n (decide (bxKeepMax d ≤ kept.length))) <<< 11,
        cyc.1 % (bxBound d cands.length kept.length + 1)]
      let r1 : Run := { r with acc := ends, pois := r.pois || bs.2.2 || ss.2.2 || an.2.2, ins := r.ins.map (fun t => { t with used := true }), made := n, inDone := true, begun := true }
      let t : OutTile := { k := 0, fmt := 0x20, lay := 3, h := 1, w := kept.length, c := 1, n := 1, data := kept.flatMap boxRecord }
      let r2 := if kept.isEmpty then { r1 with outs := r1.outs ++ [eosTile 0 r1.prov] } else (r1.emit t).closeOuts
      (c1.busy st 1).setRun k r2

/-- BX_NMS. -/
def execBxNms (d : CDie) (s : State) : Host.Outcome State Fault Refusal := .next { s with chip := s.chip.work (·.bxNms ((d + 1) * 128 + 96)) }

end Sys2Proof.Machine
end

