-- ==== Sys2Proof/Machine/Image.lean ====
section
/-! DEFINITION. Machine/Image.lean: the Nerelo configuration image as bytes (R423–R425): header, section index, and every record's fields with their ranges and defaults (R34, R191,
R220, R221, R279, R280, R313–R316, R338, R339, R356, R357, R365, R397, R427–R429, R437, R451). -/
namespace Sys2Proof.Machine

/-- What an omitted field takes (R8, R425): nothing, the record being rejected; a number; the record's value at an index; or release_us of the TURN record. -/
inductive Dflt where
  | must
  | val (n : Nat)
  | field (i : Nat)
  | release
  deriving DecidableEq, Repr

/-- A record field: bytes of an element, elements, least and greatest value, further values allowed, the step of its values, and its default. -/
structure Fd where
  size : Nat
  n : Nat := 1
  lo : Nat := 0
  hi : Nat
  also : List Nat := []
  step : Nat := 1
  dflt : Dflt := .must
  deriving DecidableEq, Repr

/-- A field that must be given. -/
def fMust (size lo hi : Nat) : Fd := { size := size, lo := lo, hi := hi }
/-- A field with a default. -/
def fDef (size lo hi d : Nat) : Fd := { size := size, lo := lo, hi := hi, dflt := .val d }

/-- Any u32. -/
def any32 : Nat := 0xFFFFFFFF

/-- Fields of the records of the DEV, PART and CORE sections. -/
def recFieldsA (ty : Nat) : Option (List Fd) :=
  match ty with
  | 0x0101 => some [fDef 4 0 any32 0, fDef 4 0 any32 0, fDef 2 64 1024 64, fDef 1 1 5 3]
  | 0x0102 => some [fDef 2 1 65535 64, fDef 1 2 10 10, fDef 1 0 1 1]
  | 0x0103 => some [fMust 1 1 2, { size := 1, lo := 16, hi := 32, step := 8 }, fDef 2 1 65535 16, fDef 1 1 4 4, fDef 2 10 1000 100, fDef 1 1 8 1, fDef 1 0 1 1]
  | 0x0201 => some [fMust 1 0 3, fMust 1 0 1, fMust 8 0 0xFFFFFFFFFFFFFF, fDef 1 0 127 0, fDef 1 1 255 1, { size := 2, n := 8, hi := 1008, dflt := .val 0 },
      { size := 1, n := 8, hi := 64, dflt := .val 0 }, { size := 1, hi := 3, dflt := .field 0 }, fDef 1 0 1 0, fDef 1 0 3 0]
  | 0x0202 => some [fMust 1 0 3, fMust 1 1 7, fMust 2 0 28607, fMust 2 1 28608, fDef 2 0 400 0, fDef 2 0 400 0]
  | 0x0203 => some [fMust 1 0 3, fMust 1 0 7, fMust 4 1 any32, fMust 2 1 65535, fMust 2 1024 65535, fDef 4 0 0x7F 1, fDef 4 0 15 15, fDef 1 2 3 2]
  | 0x0301 => some [fMust 1 1 7, fDef 1 0 1 1, fDef 1 8 9 8]
  | _ => none

/-- Fields of the records of the SPORT and EPORT sections; the fields of an INIT record in the order in which R279 names them (log 50). -/
def recFieldsB (ty : Nat) : Option (List Fd) :=
  match ty with
  | 0x0401 => some [fMust 1 0 23, fDef 1 0 2 0, fMust 1 0 3, fMust 1 1 5, { size := 1, lo := 1, hi := 5, dflt := .field 3 }, fDef 1 0 1 1, fMust 2 0 6000, fDef 2 30 1000 100,
      fDef 1 50 99 70, fMust 2 0 10000, fDef 1 0 255 0, fDef 2 0 10000 0, fDef 2 0 10000 0, fDef 1 0 2 0, fDef 1 0 1 0, fDef 2 0 1023 0, fDef 2 0 1023 1023,
      fDef 2 1 1023 1023, fDef 1 1 250 50, fDef 1 0 3 1, fDef 2 0 4095 0, fDef 2 0 256 0, fDef 1 1 255 3]
  | 0x0402 => some [fMust 1 0 47, fMust 1 0 23, fDef 1 0 3 0, { size := 1, lo := 0x2B, hi := 0x2F, also := [0x1E] }, { size := 2, lo := 2, hi := 8192, step := 2 },
      { size := 2, lo := 2, hi := 8192, step := 2 }, fDef 1 0 4 0, { size := 1, hi := 15, also := [255], dflt := .val 255 }, { size := 4, n := 4, hi := 0xFFFFFF, dflt := .val 0 },
      { size := 1, lo := 3, hi := 5, step := 2, also := [0x10], dflt := .val 5 }, fDef 1 0 2 0, fDef 1 0 16 0, fDef 1 1 3 1, fDef 1 1 4 1, fDef 1 0 3 0, fMust 4 0 any32,
      fMust 1 1 7, fMust 4 0 any32, fDef 1 2 16 3, fMust 4 0 any32]
  | 0x0404 => some [fMust 1 0 127, fMust 2 0 65535, fMust 1 0 4, { size := 1, n := 4, hi := 255, dflt := .val 0 }, fDef 1 0 255 0]
  | 0x0501 => some [fMust 1 0 9, fDef 1 0 4 0, fDef 1 0 15 0, fMust 6 1 0xFFFFFFFFFFFF, fMust 4 1 any32, fDef 2 0 4094 0, fMust 1 0 1, fDef 1 0 1 0, fDef 1 0 1 0, fDef 1 0 3 1,
      fDef 1 0 7 0, fDef 1 0 63 0, fDef 1 0 2 0, fMust 2 0 400, fDef 2 10 400 20, fDef 1 0 7 3, fDef 1 1 255 50, fDef 1 0 2 0, fDef 1 0 9 0, fDef 2 0 1000 0, fDef 2 0 10000 0,
      fDef 2 0 10000 0, fDef 1 0 255 0]
  | 0x0502 => some [fMust 1 0 7, fMust 1 0 9, fMust 4 1 any32, fMust 2 1 65535, fDef 4 0 any32 0, fDef 1 1 4 1, fDef 1 0 3 0, fMust 2 64 8192, fMust 1 1 7, fMust 4 0 any32,
      fDef 1 2 16 3, fMust 4 0 any32, fDef 1 1 255 3]
  | _ => none

/-- Fields of the records of the TIME, TURN, FCLASS, BLANK, PROG and KEYS sections; log_sync is kept as its two's-complement byte. -/
def recFieldsC (ty : Nat) : Option (List Fd) :=
  match ty with
  | 0x0601 => some [fDef 1 0 1 0, fDef 1 0 127 0, fDef 1 1 200 50, fDef 1 1 100 10, { size := 1, lo := 251, hi := 255, also := [0], dflt := .val 253 }, fDef 2 1 10000 800,
      fDef 2 0 60000 0, fDef 1 0 255 248, fDef 1 0 255 248, fDef 1 0 255 248, { size := 1, n := 4, hi := 3, dflt := .val 0 }, fDef 1 0 1 0, fDef 2 1 500 100]
  | 0x0602 => some [fMust 1 0 3, fDef 1 0 1 0, fMust 8 0 0xFFFFFFFFFFFFFFFF, fMust 4 100 4000000000, fMust 4 20 any32, fDef 1 0 1 0]
  | 0x0701 => some [fDef 1 10 100 20, fDef 2 50 1000 50, fDef 2 300 5000 500, fMust 4 0 any32, fMust 2 1 1500, { size := 4, n := 4, hi := any32 }]
  | 0x0702 => some [fMust 1 0 63, fMust 1 0 3, fMust 2 0 1023, fDef 1 1 16 1, fDef 1 0 15 0, { size := 4, hi := any32, dflt := .release }, fMust 4 0 any32, fDef 1 1 8 1]
  | 0x0801 => some [{ size := 1, n := 64, hi := 3, dflt := .val 0 }, fDef 1 0 1 1, fDef 1 0 1 1, fMust 4 1 any32, fMust 2 1 65535, fMust 4 0 any32, fDef 2 50 1000 200]
  | 0x0901 => some [fMust 4 0 any32, fDef 4 1 any32 1, fDef 1 1 4 1]
  | 0x0902 => some [fMust 1 0 3, fDef 1 0 16 1]
  | 0x0903 => some [fMust 1 0 3, fDef 2 64 4096 256]
  | 0x0A01 => some [fMust 2 0 1023, fMust 4 0 any32, { size := 4, hi := any32, step := 4096 }, fMust 4 192 0x40000000, fMust 1 0 3]
  | 0x0B01 => some [fMust 1 0 7, { size := 1, lo := 16, hi := 32, step := 16 }, { size := 1, n := 32, hi := 255 }, { size := 1, n := 40, hi := 255 }]
  | _ => none

/-- Fields of a record type, but PWL. -/
def recFields (ty : Nat) : Option (List Fd) := (recFieldsA ty).orElse (fun _ => (recFieldsB ty).orElse (fun _ => recFieldsC ty))

/-- Whether a value lies in a field's range. -/
def Fd.ok (f : Fd) (v : Nat) : Bool := f.also.contains v || (decide (f.lo ≤ v ∧ v ≤ f.hi) && (v - f.lo) % f.step == 0)

/-- Mark of a release offset that the image omits, until the TURN record gives it. -/
def omitted : Nat := 2 ^ 40

/-- A record's values from its field bytes: `i` counts fields, `map` is the presence map, `acc` holds the values so far (R425). -/
def parseFields : List Fd → Nat → Nat → Bytes → List Nat → Option (List Nat)
  | [], _, _, _, acc => some acc
  | f :: fs, i, map, b, acc =>
    let raw := (List.range f.n).map (fun k => leAt b (f.size * k) f.size)
    let rest := b.drop (f.size * f.n)
    if map.testBit i then (if raw.all f.ok then parseFields fs (i + 1) map rest (acc ++ raw) else none)
    else if raw.any (· != 0) then none
    else match f.dflt with
      | .must => none
      | .val d => parseFields fs (i + 1) map rest (acc ++ List.replicate f.n d)
      | .field k => parseFields fs (i + 1) map rest (acc ++ [acc.getD k 0])
      | .release => parseFields fs (i + 1) map rest (acc ++ [omitted])

/-- Bytes of a record's fields. -/
def fieldBytes (fs : List Fd) : Nat := fs.foldl (fun n f => n + f.size * f.n) 0

/-- Segments of a PWL record: x, y and s in 7 bytes each, up to the first that does not ascend, as the padding does not (R280; log 50). -/
def pwlSegs : Nat → List Bytes → List Nat
  | _, [] => []
  | lo, s :: t => if s.length = 7 ∧ lo ≤ leAt s 0 3 then leAt s 0 3 :: leAt s 3 3 :: leAt s 6 1 :: pwlSegs (leAt s 0 3 + 1) t else []

/-- A PWL record's values: 1–16 segments, the first at 0, shifts of at most 12, the rest of the record zero, and a decode that is monotonic (R254, R280). -/
def parsePwl (b : Bytes) : Option (List Nat) :=
  let v := pwlSegs 0 (chunks 7 b)
  let n := v.length / 3
  let segs := chunks 3 v
  let mono := (segs.zip (segs.drop 1)).all (fun p => decide (min 0xFFFFFF (p.1.getD 1 0 + (p.2.headD 0 - 1 - p.1.headD 0) <<< p.1.getD 2 0) ≤ p.2.getD 1 0))
  if 1 ≤ n ∧ n ≤ 16 ∧ v.headD 1 = 0 ∧ segs.all (fun s => decide (s.getD 2 0 ≤ 12)) ∧ mono ∧ (b.drop (7 * n)).all (· == 0#8) ∧ b.length < 7 * n + 8
  then some v else none

/-- One record of exactly these bytes (R425). -/
def parseRec (b : Bytes) : Option Rec :=
  let ty := leAt b 0 2
  let map := leAt b 8 8
  let body := b.drop 16
  if leAt b 2 2 ≠ b.length ∨ b.length % 8 ≠ 0 ∨ leAt b 4 1 ≠ 1 ∨ leAt b 5 3 ≠ 0 then none
  else if ty = 0x0403 then (if map = 1 then (parsePwl body).map (⟨ty, ·⟩) else none)
  else match recFields ty with
    | none => none
    | some fs =>
      let n := fieldBytes fs
      if map < 2 ^ fs.length ∧ body.length = cdiv n 8 * 8 ∧ (body.drop n).all (· == 0#8) then (parseFields fs 0 map body []).map (⟨ty, ·⟩)
      else none

/-- `n` records that fill the bytes of a section (R424, R425). -/
def parseRecs : Nat → Bytes → Option (List Rec)
  | 0, b => if b.isEmpty then some [] else none
  | n + 1, b =>
    let len := leAt b 2 2
    if len < 16 ∨ b.length < len then none
    else match parseRec (b.take len), parseRecs n (b.drop len) with
      | some r, some rs => some (r :: rs)
      | _, _ => none

/-- Record types of a section (R424): the types of section `s` have `s` as their high byte. -/
def secOf (ty : Nat) : Nat := ty / 256

/-- The sections of an image from index entry `i` on: in order, 8-byte aligned, without overlap, before the signature (R424). -/
def parseSecs (img : Bytes) : Nat → Nat → Nat → Option (List Rec)
  | 0, _, _ => some []
  | k + 1, i, low =>
    let e := slice img (64 + 16 * i) 16
    let off := leAt e 4 4
    let len := leAt e 8 4
    if leAt e 0 1 ≠ i + 1 ∨ leAt e 1 3 ≠ 0 ∨ off % 8 ≠ 0 ∨ off < low ∨ img.length < off + len + 96 then none
    else match parseRecs (leAt e 12 4) (slice img off len), parseSecs img k (i + 1) (off + len) with
      | some rs, some rest => if rs.all (fun r => secOf r.ty == i + 1) then some (rs ++ rest) else none
      | _, _ => none

/-- Header checks that need nothing of the device (R423). -/
def imageHeadOk (b : Bytes) : Bool :=
  leAt b 0 4 == 0x4943594B && leAt b 4 2 == 1 && decide (leAt b 6 1 ≤ 3) && decide (leAt b 7 1 ≤ 64) && leAt b 8 4 == b.length && b.length % 8 == 0
    && decide (b.length ≤ 0x200000) && decide (64 + 176 + 96 ≤ b.length) && leAt b 32 2 == 11 && (slice b 34 30).all (· == 0#8)

/-- The release offsets that the image omits (R339). -/
def fillRelease (rs : List Rec) : List Rec :=
  let rel := match rs.find? (fun r => r.ty == 0x0701) with | some r => r.vals.getD 1 50 | none => 50
  rs.map (fun r => if r.ty = 0x0702 then { r with vals := r.vals.map (fun v => if v = omitted then rel else v) } else r)

/-- The records of a configuration image (R423–R425). -/
def parseImage (b : Bytes) : Option (List Rec) := if imageHeadOk b then (parseSecs b 11 0 (64 + 176)).map fillRelease else none

end Sys2Proof.Machine
end

