-- ==== Sys2Proof/Machine/CfgCheck.lean ====
section
/-! DEFINITION. Machine/CfgCheck.lean: the rules that reject a configuration image at load (R31, R32, R34, R219, R250, R251, R255, R256, R269, R279, R280, R284, R313–R316, R323, R344,
R357, R365, R376, R424, R426, R451, R453), over the records of `Chip.cfg`. -/
namespace Sys2Proof.Machine

/-! ### Helpers -/

/-- Whether `f` holds of every two elements of a list. -/
def pairwise {α : Type} (f : α → α → Bool) : List α → Bool
  | [] => true
  | a :: t => t.all (f a) && pairwise f t

/-- Whether an IPv4 address is unicast. -/
def unicast (ip : Nat) : Bool := decide (1 ≤ ip / 16777216 ∧ ip / 16777216 < 224)

/-- First fields of the records of a type. -/
def Chip.keys (c : Chip) (ty : Nat) : List Nat := (c.cfgAll ty).map (·.headD 0)

/-- Whether two intervals of given start and length have nothing in common. -/
def apart (a n b m : Nat) : Bool := decide (a + n ≤ b ∨ b + m ≤ a ∨ n = 0 ∨ m = 0)

/-- Sum of `f` over records. -/
def sumRec (l : List (List Nat)) (f : List Nat → Nat) : Nat := l.foldl (fun n v => n + f v) 0

/-- Turn period in µs. -/
def Chip.periodUs (c : Chip) : Nat := c.cfg1 0x0701 0 20 * 1000

/-! ### Counts and units (R424, R426) -/

/-- How many records of a type an image holds, least and most; records that go with partitions are counted by `partCounts`. -/
def recCounts : List (Nat × Nat × Nat) :=
  [(0x0101, 1, 1), (0x0102, 1, 1), (0x0103, 1, 1), (0x0201, 1, 4), (0x0202, 1, 64), (0x0301, 0, 7), (0x0401, 0, 24), (0x0402, 0, 48), (0x0403, 0, 16), (0x0404, 0, 4096),
   (0x0501, 1, 10), (0x0502, 0, 8), (0x0601, 1, 1), (0x0602, 0, 4), (0x0701, 1, 1), (0x0702, 1, 64), (0x0801, 1, 1), (0x0901, 1, 1), (0x0A01, 1, 1024), (0x0B01, 0, 8)]

/-- Record types whose first field names a unit. -/
def unitRecs : List Nat := [0x0201, 0x0203, 0x0301, 0x0401, 0x0402, 0x0501, 0x0502, 0x0602, 0x0702, 0x0902, 0x0903, 0x0A01, 0x0B01]

/-- Counts hold, no unit is named twice, and every partition has its SESSION, BLANKP and GATE records (R424, R426). -/
def Chip.countsOk (c : Chip) : Bool :=
  let parts := c.keys 0x0201
  recCounts.all (fun x => decide (x.2.1 ≤ (c.cfgAll x.1).length ∧ (c.cfgAll x.1).length ≤ x.2.2))
    && unitRecs.all (fun ty => pairwise (· != ·) (c.keys ty))
    && [0x0902, 0x0903].all (fun ty => (c.cfgAll ty).length == parts.length && parts.all (c.keys ty).contains)
    && (c.cfgAll 0x0203).length == parts.length && (c.cfgAll 0x0201).all (fun v => (c.keys 0x0203).contains (v.getD 21 0))
    && pairwise (fun a b => a.getD 21 0 != b.getD 21 0) (c.cfgAll 0x0201)

/-! ### Partitions (R31, R32, R34, R453) -/

/-- Ownership and shares (R31, R34); development features and the DEV privilege (R32, R453). -/
def Chip.partsOk (c : Chip) : Bool :=
  let ps := c.cfgAll 0x0201
  let free := fun (i : Nat) => pairwise (fun (a b : List Nat) => (a.getD i 0 &&& b.getD i 0) == 0) ps
  free 2 && free 3 && free 23
    && (List.range 8).all (fun d => decide (sumRec ps (·.getD (5 + d) 0) ≤ 1008) && decide (sumRec ps (·.getD (13 + d) 0) ≤ 64))
    && ps.all (fun v => v.getD 1 0 == 0 || (v.getD 22 0 == 0 && !bit (c.cfgBy 0x0203 (v.getD 21 0) 5 1) 6))

/-! ### DDR5 regions (R215, R219, R221) -/

/-- Usable DDR5 of a die in MiB under the DDR record (R194). -/
def Chip.usableMib (c : Chip) : Nat := c.cfg1 0x0103 0 1 * c.cfg1 0x0103 1 16 * 512 / 8 * 7

/-- Bytes of an ingest ring's entry that count for its rate, and its bytes per image on the bus (R262, R297). -/
def rawBytes (written : Nat) : Nat := let lines := cdiv written 64; 64 * (lines + cdiv lines 7)

/-- Partition, die, raw bytes per image and sync_div of every ring (R251, R262, R297). -/
def Chip.ringLoads (c : Chip) : List (Nat × Nat × Nat × Nat) :=
  (c.cfgAll 0x0402).map (fun v =>
    (c.cfgBy 0x0401 (v.getD 1 0) 2 0, v.getD 19 0,
      rawBytes (64 + v.getD 6 0 * roundUp (lineBytes v) 64 + ((List.range (v.getD 15 1)).map (levelSize v)).foldl (· + ·) 0), max 1 (v.getD 16 1)))
  ++ (c.cfgAll 0x0502).map (fun v =>
    ((bitList 4 (c.cfgBy 0x0501 (v.getD 1 0) 2 0)).headD 0, v.getD 8 0, rawBytes (64 + v.getD 7 0 * 1024), max 1 (v.getD 5 1)))

/-- Bandwidth and ingest reservations on a die (R219). -/
def Chip.bandOk (c : Chip) (d : Nat) : Bool :=
  let on := (c.cfgAll 0x0202).filter (fun v => v.getD 1 0 == d)
  decide (sumRec on (·.getD 4 0) ≤ 400) && (c.keys 0x0201).all (fun p =>
    let mine := on.filter (fun v => v.headD 0 == p)
    let load := (c.ringLoads.filter (fun x => x.1 == p && x.2.1 == d)).foldl (fun n x => n + x.2.2.1 * 1000 * (12 / x.2.2.2)) 0
    decide (sumRec mine (·.getD 5 0) ≤ sumRec mine (·.getD 4 0)) && decide (load ≤ sumRec mine (·.getD 5 0) * 100000000 * 12 * c.cfg1 0x0701 0 20))

/-- Regions name a partition, lie below the firmware region and do not overlap between partitions (R31, R215, R219). -/
def Chip.regionsOk (c : Chip) : Bool :=
  let rs := c.cfgAll 0x0202
  rs.all (fun v => (c.keys 0x0201).contains (v.headD 0) && decide (v.getD 2 0 + v.getD 3 0 + 64 ≤ c.usableMib))
    && pairwise (fun a b => a.headD 0 == b.headD 0 || a.getD 1 0 != b.getD 1 0 || apart (a.getD 2 0) (a.getD 3 0) (b.getD 2 0) (b.getD 3 0)) rs
    && (List.range 8).all (fun d => d == 0 || c.bandOk d)

/-- Whether bytes of a die's DDR5 lie in one region of the partition. -/
def Chip.inRegion (c : Chip) (p d a n : Nat) : Bool :=
  (c.cfgAll 0x0202).any (fun v => v.headD 0 == p && v.getD 1 0 == d && decide (v.getD 2 0 * 1048576 ≤ a ∧ a + n ≤ (v.getD 2 0 + v.getD 3 0) * 1048576))

/-- A ring with its fill entry, and its view, lie in regions of the partition (R256). -/
def Chip.ringOk (c : Chip) (p s : Nat) : Bool :=
  match c.ringCfg s with
  | none => false
  | some g => decide (g.phase < g.div) && c.inRegion p g.die g.base ((g.entries + 1) * g.stride) && c.inRegion p g.die g.view g.stride

/-! ### Sensor ports (R250, R251, R255, R269, R279, R280) -/

/-- Usable CSI-2 rate of a gear in Mb/s (R249). -/
def gearRate (g : Nat) : Nat := [0, 1600, 3200, 6400, 9600, 12800].getD g 0

/-- A port's partition exists, gear_min is at most gear, its streams fit the rate of gear_min, and a source port has poc_en 0 (R250, R270, R279). -/
def Chip.sportOk (c : Chip) (v : List Nat) : Bool :=
  let mine := (c.cfgAll 0x0402).filter (fun s => s.getD 1 0 == v.headD 0)
  let need := sumRec mine (fun s => (s.getD 5 0 + s.getD 6 0) * (lineBytes s + 6) * 8 * 1000 * (12 / max 1 (s.getD 16 1)))
  (c.keys 0x0201).contains (v.getD 2 0) && decide (v.getD 4 0 ≤ v.getD 3 0) && (v.getD 1 0 != 2 || v.getD 14 0 == 0)
    && decide (need ≤ gearRate (v.getD 4 0) * 1000000 * 12 * c.cfg1 0x0701 0 20)

/-- A stream's own rules (R252, R255, R256, R269, R280). -/
def Chip.streamOk (c : Chip) (v : List Nat) : Bool :=
  let yuv := v.getD 3 0 == 0x1E
  let div := 2 ^ (v.getD 15 1 - 1)
  let lay := v.getD 13 0
  (c.cfgBy 0x0401 (v.getD 1 0) 1 0 == 1)
    && (!yuv || (v.getD 7 0 == 255 && (List.range 4).all (fun i => v.getD (8 + i) 0 == 0)))
    && (v.getD 7 0 == 255 || decide (v.getD 7 0 < (c.cfgAll 0x0403).length))
    && (lay == 0 || (lay == 2 && v.getD 12 0 == 3) || (lay == 1 && v.getD 12 0 != 3))
    && (planeDims v).1 % div == 0 && (planeDims v).2 % div == 0
    && decide (2 ≤ v.getD 18 0 ∧ v.getD 18 0 + 2 ≤ c.periodUs)
    && c.ringOk (c.cfgBy 0x0401 (v.getD 1 0) 2 0) (v.headD 0)

/-- Sensor ports and streams; a (port, VC) carries at most one stream (R251). -/
def Chip.sensorsOk (c : Chip) : Bool :=
  (c.cfgAll 0x0401).all c.sportOk && (c.cfgAll 0x0402).all c.streamOk
    && pairwise (fun a b => a.getD 1 0 != b.getD 1 0 || a.getD 2 0 != b.getD 2 0) (c.cfgAll 0x0402)

/-! ### Ethernet (R283, R284, R313, R314, R451) -/

/-- Partitions whose SESSION names a port, as a mask. -/
def Chip.hostMask (c : Chip) (port : Nat) : Nat :=
  maskOf (((c.cfgAll 0x0201).filter (fun v => c.cfgBy 0x0203 (v.getD 21 0) 1 99 == port)).map (·.headD 0))

/-- One Ethernet port (R283, R284, R313). -/
def Chip.eportOk (c : Chip) (v : List Nat) : Bool :=
  let n := v.headD 0
  let mask := v.getD 2 0
  let roleOf := fun (k : Nat) => c.cfgBy 0x0501 k 1 0
  let src := v.getD 18 0
  !bit (v.getD 3 0) 40 && unicast (v.getD 4 0) && (decide (n < 8) || v.getD 6 0 == 0)
    && (v.getD 8 0 == 0 || v.getD 1 0 == 1 || v.getD 1 0 == 2)
    && (match v.getD 1 0 with
      | 1 => decide (n < 8) && mask != 0 && mask == c.hostMask n
      | 3 => (match bitList 4 mask with | [p] => (c.keys 0x0201).contains p | _ => false)
      | 4 => mask == 0 && src != n && (roleOf src == 3 || roleOf src == 4) && !(roleOf src == 4 && c.cfgBy 0x0501 src 18 99 == n)
      | _ => mask == 0)

/-- One session (R284, R451). -/
def Chip.sessionOk (c : Chip) (v : List Nat) : Bool :=
  c.cfgBy 0x0501 (v.getD 1 0) 1 0 == 1 && unicast (v.getD 2 0) && v.getD 4 0 != 19289 && v.getD 4 0 != 19290

/-- One lidar (R284, R314). -/
def Chip.lidarOk (c : Chip) (v : List Nat) : Bool :=
  c.cfgBy 0x0501 (v.getD 1 0) 1 0 == 3 && unicast (v.getD 2 0) && decide (v.getD 4 0 + 1 ≤ c.periodUs)
    && c.ringOk ((bitList 4 (c.cfgBy 0x0501 (v.getD 1 0) 2 0)).headD 0) (v.headD 0 + 48)

/-- Ethernet ports, sessions and lidars. -/
def Chip.portsOk (c : Chip) : Bool :=
  (c.cfgAll 0x0501).all c.eportOk && (c.cfgAll 0x0203).all c.sessionOk && (c.cfgAll 0x0502).all c.lidarOk
    && (c.cfgAll 0x0501).any (fun v => v.getD 1 0 == 2) && decide (((c.cfgAll 0x0501).filter (fun v => v.getD 12 0 == 2)).length ≤ 1)
    && pairwise (fun a b => a.getD 1 0 != b.getD 1 0 || a.getD 4 0 != b.getD 4 0) (c.cfgAll 0x0203)

/-! ### Schedule, classes, gate (R316, R323, R344, R357, R365, R376) -/

/-- One job's schedule (R35, R323, R339, R344). -/
def Chip.jobOk (c : Chip) (v : List Nat) : Bool :=
  let p := v.getD 1 0
  let guard := c.cfg1 0x0701 2 500
  (c.keys 0x0201).contains p && c.cfgBy 0x0A01 (v.getD 2 0) 4 99 == p && decide (v.getD 4 0 < v.getD 3 1)
    && decide (c.cfg1 0x0701 1 50 ≤ v.getD 5 0 ∧ v.getD 5 0 < v.getD 6 0 ∧ v.getD 6 0 + guard ≤ c.periodUs)
    && (!c.isSafety p || decide (v.getD 6 0 ≤ c.cfg1 0x0701 3 0))

/-- Latest deadline_us of a partition's jobs. -/
def Chip.lastDeadline (c : Chip) (p : Nat) : Nat := ((c.cfgAll 0x0702).filter (fun v => v.getD 1 0 == p)).foldl (fun n v => max n (v.getD 6 0)) 0

/-- The turn's schedule (R323). -/
def Chip.turnOk (c : Chip) : Bool :=
  let blank := c.cfg1 0x0701 3 0 + c.cfg1 0x0701 4 0
  decide (c.cfg1 0x0701 1 50 ≤ c.cfg1 0x0701 3 0 ∧ blank + c.cfg1 0x0701 2 500 ≤ c.periodUs ∧ c.cfg1 0x0701 4 0 ≤ 15 * c.cfg1 0x0701 0 20)
    && (List.range 4).all (fun p =>
      let l := c.cfg1 0x0701 (5 + p) 0
      if c.hasPart p then decide (l < c.periodUs ∧ 150 + max blank (c.lastDeadline p) ≤ l) else l == 0)
    && (c.cfgAll 0x0702).all c.jobOk

/-- Classes that FCLASS may give a bit (R376): 0 its default. -/
def classOk (b k : Nat) : Bool :=
  k == 0 ||
  (if b < 4 then k == 1
    else if b < 7 then true
    else if b = 7 then k == 1 || k == 2
    else match b % 8 with
      | 3 => k == 2 || k == 3
      | 4 => true
      | 5 => k == 1
      | _ => k == 1 || k == 2)

/-- What is left: TSOUT, FCLASS, BLANKP and GATE (R316, R357, R365, R376). -/
def Chip.restOk (c : Chip) : Bool :=
  (c.cfgAll 0x0602).all (fun v => decide (v.getD 4 0 + 20 ≤ v.getD 3 0))
    && (List.range 64).all (fun b => classOk b (c.cfg1 0x0801 b 0)) && unicast (c.cfg1 0x0801 66 0)
    && (c.cfgAll 0x0902).all (fun v => v.getD 1 1 != 0 || !c.isSafety (v.headD 0))
    && decide (sumRec (c.cfgAll 0x0903) (·.getD 1 256) ≤ 4096)

/-- Every rule that rejects a configuration at load. -/
def Chip.cfgRules (c : Chip) : Bool := c.countsOk && c.partsOk && c.regionsOk && c.sensorsOk && c.portsOk && c.turnOk && c.restOk

/-- The configuration that an image holds, where the device accepts it (R417, R419, R423, R426, R429): `sigOk` and `keysOk` say whether its signature verifies and its KEYS
records unwrap. -/
def Chip.acceptCfg (c : Chip) (b : Bytes) (sigOk keysOk : Bool) : Option (List Rec) :=
  match parseImage b with
  | none => none
  | some rs =>
    let slot := leAt b 6 1
    let bind := leAt b 16 16
    let hasKeys := rs.any (fun r => r.ty == 0x0B01)
    if sigOk && (tabGet [] c.nv.otp.keys slot != []) && !bit c.nv.otp.revoked slot && decide (c.nv.otp.svnCfg ≤ leAt b 7 1)
        && (bind == 0 || bind == c.nv.otp.deviceId) && (!hasKeys || (bind != 0 && keysOk)) && ({ c with cfg := rs }).cfgRules
    then some rs else none

end Sys2Proof.Machine
end

