-- ==== Sys2Proof/Machine/DescCheck.lean ====
section
/-! DEFINITION. Machine/DescCheck.lean: the rules that reject one command descriptor at load: the common fields (R60, R62) and the parameters of each station's opcodes
(R71, R74, R82, R83, R110–R117, R126, R127, R137–R149, R154–R161, R178, R179, R240–R242, R275, R276, R360). -/
namespace Sys2Proof.Machine

/-- Whether every listed field `[hi:lo]` is zero. -/
def zeros (d : Nat) (l : List (Nat × Nat)) : Bool := l.all (fun f => bits d f.1 f.2 == 0)

/-- `lo ≤ x ≤ hi`. -/
def within (x lo hi : Nat) : Bool := decide (lo ≤ x ∧ x ≤ hi)

/-! ### Common fields -/

/-- The fields of every descriptor (R4, R60, R61): its check code, version, station type and reserved bits, and no queue beyond n_in and n_out. -/
def headOk (ty d : Nat) : Bool :=
  bits d 511 496 == crc16 (toLE 62 d) && bits d 15 12 == 1 && dType d == ty
    && zeros d [(71, 66), (79, 76), (111, 109), (127, 125), (143, 141), (159, 157), (175, 173), (191, 176), (495, 480)]
    && (List.range 3).all (fun k => decide (k < dNin d) || dInQ d k == 0) && (List.range 2).all (fun k => decide (k < dNout d) || dOutQ d k == 0)

/-- Identifiers of a program's command of job `j` (R60, R62). -/
def progIds (j d : Nat) : Bool := dJob d == j && decide (dLayer d < 0xFFF0) && decide (dOpId d < 0xFFF0)
/-- Identifiers of a package's command (R62, R350). -/
def blankIds (d : Nat) : Bool := dJob d == 0xFF && dLayer d == 0xFFFE

/-- n_in and n_out. -/
def inOut (d n m : Nat) : Bool := dNin d == n && dNout d == m

/-! ### MX -/

/-- The format pairs of R74. -/
def pairOk (act wt : Nat) : Bool :=
  match wt with
  | 0x02 => act == 2 || act == 3
  | 0x08 | 0x09 => act == 8 || act == 9
  | 0x0A | 0x0B => act == 0x0A || act == 0x0B
  | 0x01 | 0x0C | 0x0D | 0x10 | 0x11 => act == wt
  | _ => false

/-- MX_PASS (R74, R82, R83). -/
def mxParams (d : Nat) : Bool :=
  dOp d == 1 && inOut d 1 0 && zeros d [(199, 197), (247, 245), (479, 257)] && mxMask d != 0 && mxVecs d != 0
    && (dTiles d == 0 || dTiles d == popcount 4 (mxMask d))
    && pairOk (mxAct d) (mxWt d) && !(mxSparse d && elemBits (mxWt d) == 16)
    && (if pairInt (mxWt d) then mxTol d == 0 else within (mxTol d) 12 22)
    && (if mxWt d = 0x0D then decide (mxBase d ≤ 508) else mxBase d == 0)

/-! ### WF -/

/-- pad_bottom and pad_right. -/
def wfBottom (d : Nat) : Nat := bits d 247 240
/-- pad_right. -/
def wfRight (d : Nat) : Nat := bits d 263 256
/-- groups. -/
def wfGroups (d : Nat) : Nat := bits d 343 328

/-- The output size in one dimension, none where the padded input is smaller than the kernel (R111). -/
def outSize (k dil n ins before after stride : Nat) : Option Nat :=
  let ek := (k - 1) * dil + 1
  let ph := (n - 1) * ins + 1 + before + after
  if ph < ek then none else some ((ph - ek) / stride + 1)

/-- Whether every output row has a tap row inside the image, and every column likewise (R113). -/
def allInside (d : Nat) : Bool :=
  let hit := fun (t : Tap) => match t with | .at _ => true | .ins => true | .pad => false
  let row := fun (o : Nat) => (List.range (wfKh d)).any (fun t => hit (resolve 0 o t (wfSh d) (wfDh d) (wfTop d) (wfIh d) (wfInH d)))
  let col := fun (o : Nat) => (List.range (wfKw d)).any (fun t => hit (resolve 0 o t (wfSw d) (wfDw d) (wfLeft d) (wfIw d) (wfInW d)))
  (List.range (wfOutH d)).all row && (List.range (wfOutW d)).all col

/-- Field ranges of a WF command (R110, R113). -/
def wfRanges (d : Nat) : Bool :=
  zeros d [(399, 399), (479, 416)] && wfKh d != 0 && wfKw d != 0 && within (wfSh d) 1 8 && within (wfSw d) 1 8 && within (wfDh d) 1 16 && within (wfDw d) 1 16
    && decide (wfPad d ≤ 2) && within (wfIh d) 1 8 && within (wfIw d) 1 8 && wfInH d != 0 && wfInW d != 0 && wfC d != 0 && within (wfGroups d) 1 (wfC d)
    && within (wfRows d) 1 255 && fmtOk (wfFmt d) && layOk (blockedLay (wfFmt d)) (wfFmt d)
    && (if wfPad d = 1 then decide (wfPadVal d < 2 ^ elemBits (wfFmt d)) else wfPadVal d == 0)

/-- A WF command's own rules (R110, R111, R113). -/
def wfParams (d : Nat) : Bool :=
  let g := wfC d / wfGroups d
  (dOp d == 1 || dOp d == 2) && inOut d 1 0 && wfRanges d
    && outSize (wfKh d) (wfDh d) (wfInH d) (wfIh d) (wfTop d) (wfBottom d) (wfSh d) == some (wfOutH d)
    && outSize (wfKw d) (wfDw d) (wfInW d) (wfIw d) (wfLeft d) (wfRight d) (wfSw d) == some (wfOutW d)
    && (wfIh d == 1 || (wfSh d == 1 && decide (wfPad d < 2))) && (wfIw d == 1 || (wfSw d == 1 && decide (wfPad d < 2)))
    && !(wfPad d == 1 && isMx (wfFmt d))
    && (dTiles d == 0 || dTiles d == cdiv (wfInH d) (wfRows d))
    && decide (wfRow d + (if wfDbl d then 2 else 1) * wfBatch d ≤ 1024)
    && !(wfSparse d && elemBits (wfFmt d) == 16)
    && wfC d % wfGroups d == 0 && (wfK d % g == 0 || g % wfK d == 0)
    && (if dOp d = 1 then within (wfBatch d) 1 1024 && wfPool d == 0
      else decide (wfPool d ≤ 2) && wfGroups d == 1 && wfBatch d == 0 && wfRow d == 0 && !wfSparse d && !wfDbl d && (wfPool d == 1 || allInside d))

/-! ### BX -/

/-- BX_NMS (R126, R127). -/
def bxParams (d : Nat) : Bool :=
  let anchors := bxForm d == 2 || bxForm d == 4
  dOp d == 1 && inOut d (if anchors then 3 else 2) 1 && decide (bxForm d ≤ 4) && decide (bxMode d ≤ 2) && within (bxClasses d) 1 256 && within (bxBoxes d) 1 4096
    && within (bxPreK d) 1 4096 && within (bxKeepMax d) 1 1024 && decide (bxPreK d ≤ bxBoxes d * bxClasses d) && decide (bxKeepMax d ≤ bxPreK d)
    && decide (bxIouThr d ≤ 0x3F800000) && (anchors || bxVarXy d == 0) && (bxForm d == 2 || bxVarWh d == 0) && decide (dTiles d ≤ 16)
    && (!bxRot d || bxForm d == 3 || bxForm d == 4) && zeros d [(207, 204), (223, 217), (239, 237), (255, 253), (271, 267), (479, 400)]

/-! ### VX -/

/-- Whether a working type may go to an output format: INT32 to an integer format, an index included, FP32 to a floating or MX format (R143; log 17). -/
def outOk (int : Bool) (f : Nat) : Bool := if int then workInt f else isFpFmt f

/-- Whether a stage allows the working type (R140). -/
def stageOn (int : Bool) (op : Nat) : Bool :=
  if int then within op 0x01 0x06 || within op 0x08 0x0A || op == 0x13 else within op 0x01 0x07 || within op 0x0B 0x13

/-- One stage word (R139, R140). -/
def stageOk (src : Nat) (int : Bool) (s : Nat) : Bool :=
  let op := sgOp s
  let two := within op 0x01 0x05 || op == 0x07 || op == 0x09
  stageOn int op && (if two then sgOpnd s != 0 else sgOpnd s == 0) && (sgOpnd s != 3 || src == 0) && !bit s 15
    && (sgOpnd s == 1 || sgOpnd s == 2 || sgImm s == 0)

/-- Working type after the last stage: true for INT32. -/
def finalInt (d : Nat) : Bool :=
  (List.range (vxStages d)).foldl (fun s i => if sgOp (vxStage d i) = 0x0A then false else if sgOp (vxStage d i) = 0x0B then true else s) (workInt (vxInFmt d))

/-- VX_CHAIN (R138–R141, R143). -/
def chainParams (d : Nat) : Bool :=
  let src := vxSrc d
  let words := (List.range 5).map (vxStage d)
  let pair := words.any (fun s => sgOpnd s == 3)
  let per := vxTileH d * vxTileW d
  inOut d (if src ≠ 0 then 0 else if pair then 2 else 1) 1 && decide (src ≤ 2) && within (vxStages d) 1 5 && zeros d [(255, 245), (319, 304)]
    && (if src = 2 then decide (vxPoolDiv d ≤ 2) else vxPoolDiv d == 0)
    && (if src = 0 then fmtOk (vxInFmt d) else vxInFmt d == 6 || vxInFmt d == 0x12)
    && fmtOk (vxOutFmt d) && layOk (vxOutLay d) (vxOutFmt d)
    && (words.drop (vxStages d)).all (· == 0) && ((words.take (vxStages d)).zip (stageTypes d)).all (fun x => stageOk src x.2 x.1)
    && outOk (finalInt d) (vxOutFmt d)
    && (if src = 0 then zeros d [(303, 256)] else vxTileH d != 0 && vxTileW d != 0 && vxOutC d != 0)
    && (if src = 1 then
        within (vxRows d) 1 1024 && decide (vxRowBase d + vxRows d ≤ 1024) && decide (vxOutC d ≤ 64 * popcount 4 (vxMask d))
          && !(isMx (vxOutFmt d) && vxOutC d % 32 != 0) && (dTiles d == 0 || dTiles d == cdiv (vxRows d) per)
      else vxMask d == 0)

/-- VX_ROW and VX_REDUCE (R143, R146). -/
def rowParams (d : Nat) : Bool :=
  let k := vrKind d
  let f := vxInFmtR d
  inOut d 1 1 && fmtOk f && fmtOk (vrOutFmt d) && zeros d [(215, 214), (479, 276)]
    && (if dOp d = 2 then
        decide (k ≤ 3) && isFpFmt f && !isMx f && !vrAxis d && outOk false (vrOutFmt d) && (k == 1 || k == 2 || vrGamma d == 0) && (k == 1 || vrBeta d == 0)
      else
        decide (k ≤ 5) && (if k < 4 then outOk (workInt f) (vrOutFmt d) else vrOutFmt d == 0x21) && vrEps d == 0 && vrGamma d == 0 && vrBeta d == 0)
where
  /-- in_format of a row or reduce command. -/
  vxInFmtR (d : Nat) : Nat := bits d 203 196

/-- VX_GATHER, VX_SCATTER and VX_SCATADD with the task's bounds (R148). -/
def tableParams (bound : Nat → Nat) (d : Nat) : Bool :=
  (if dOp d = 4 then inOut d 1 1 else inOut d 2 0) && zeros d [(479, 306)] && decide (vtRegion d ≤ 2) && (dOp d != 6 || (vtRegion d == 1 && vtFmt d == 6))
    && vtOff d % 4 == 0 && within (vtRowBytes d) 4 1048572 && vtRowBytes d % 4 == 0 && within (vtRows d) 1 0xFFFFFFFE && fmtOk (vtFmt d)
    && vtRowBytes d == packedSize (vtFmt d) 0 1 1 (vtC d) 1 && decide (vtOff d + vtRowBytes d * vtRows d ≤ bound (vtRegion d))

/-- A VX command; VX_BLANKCMP is a package's or the device's own, never a program's (R137). -/
def vxParams (bound : Nat → Nat) (d : Nat) : Bool :=
  match dOp d with
  | 1 => chainParams d
  | 2 | 3 => rowParams d
  | 4 | 5 | 6 => tableParams bound d
  | 7 => inOut d 3 0 && blankIds d && zeros d [(479, 192)]
  | _ => false

/-! ### DM -/

/-- Lowest and highest of an offset walked with three strides of 16 B (R158). -/
def extent (off : Nat) (dims : List (Nat × Int)) : Int × Int :=
  dims.foldl (fun (e : Int × Int) x => let v := 16 * ((x.1 : Int) - 1) * x.2; (e.1 + min 0 v, e.2 + max 0 v)) ((off : Int), (off : Int))

/-- Whether a walk's bytes lie within a bound (R161). -/
def walkIn (bound off len : Nat) (dims : List (Nat × Int)) : Bool :=
  let e := extent off dims
  decide (0 ≤ e.1 ∧ e.2 + len ≤ bound)

/-- Dimensions of a DM's source walk, and of its destination's. -/
def srcDims (d : Nat) : List (Nat × Int) := [(dmCnt1 d, dmS1 d), (dmCnt2 d, dmS2 d), (dmCnt3 d, dmS3 d)]
/-- Destination walk. -/
def dstDims (d : Nat) : List (Nat × Int) := [(dmCnt1 d, dmD1 d), (dmCnt2 d, dmD2 d), (dmCnt3 d, dmD3 d)]

/-- Length of the zero-compressed stream of a DM command's data whose records take `n` bytes a line (R123): at least 8, at most 72. -/
def streamMax (d n : Nat) : Nat := 4 * cdiv (cdiv (srcTotal d) 64) 8 + n * cdiv (srcTotal d) 64

/-- One side of a DM command in memory (R160, R161): a window's side is checked when it is used. A stream that it reads has a length that the load does not know, and is checked for the
least; one that it writes is checked for the most (log 112). -/
def sideOk (bound : Nat → Nat) (region off len : Nat) (comp : Bool) (stream : Nat) (dims : List (Nat × Int)) (align : Bool) : Bool :=
  (!align || off % 16 == 0) && (region == 3 || (if comp then decide (off + stream ≤ bound region) else walkIn (bound region) off len dims))
    && (!comp || dims.all (fun x => x.2 == 0))

/-- DM_COPY, DM_LOAD and DM_STORE with the task's bounds (R154–R161). -/
def dmParams (bound : Nat → Nat) (d : Nat) : Bool :=
  let op := dOp d
  let align := dmXpose d != 0 || dmComp d != 0
  let e := 2 ^ (dmXpose d - 1)
  (match op with
    | 1 => inOut d 0 0
    | 2 => inOut d 0 1
    | 3 => inOut d 1 0
    | _ => false)
    && dmCnt1 d != 0 && dmCnt2 d != 0 && dmCnt3 d != 0 && (op == 1 || dmCnt3 d == max 1 (dTiles d))
    && (dmXpose d == 0 || (dmLen d == 64 * e && dmCnt1 d % 64 == 0 && dmComp d == 0))
    && !(op == 3 && dmComp d == 1)
    && (if op = 3 then zeros d [(193, 192), (235, 200), (402, 328)]
      else sideOk bound (dmSrc d) (dmSrcOff d) (dmLen d) (dmComp d == 1) (streamMax d 8) (srcDims d) align)
    && (if op = 2 then
        zeros d [(195, 194), (271, 236), (479, 463)] && fmtOk (dmFmt d) && layOk (dmLay d) (dmFmt d)
          && (dmLen d == 0 || (dmH d != 0 && dmW d != 0 && dmC d != 0 && !(isMx (dmFmt d) && dmC d % 32 != 0)
            && packedSize (dmFmt d) (dmLay d) (dmH d) (dmW d) (dmC d) 1 == stepBytes d))
      else zeros d [(479, 478)] && sideOk bound (dmDst d) (dmDstOff d) (dmLen d) (dmComp d == 2) (streamMax d 72) (dstDims d) align)

/-! ### XD -/

/-- The window commands on die `die` with the task's bounds (R178, R179). -/
def winParams (bound : Nat → Nat) (die d : Nat) : Bool :=
  inOut d 0 0 && decide (dTiles d ≤ 1) && zeros d [(479, 274)]
    && (if dOp d = 0x10 then
        within (xwRegion d) 1 2 && xwOff d % 256 == 0 && xwSize d % 256 == 0 && decide (xwSize d ≤ 0x8000000) && xwPerm d != 0 && xwSrc d != 0 && !bit (xwSrc d) die
          && decide (xwOff d + xwSize d ≤ bound (xwRegion d))
      else zeros d [(273, 198)])

/-- XD_PUT and XD_GET (R241, R242). -/
def putParams (bound : Nat → Nat) (die d : Nat) : Bool :=
  inOut d 0 0 && decide (dTiles d ≤ 1) && zeros d [(324, 294)] && within (xdRegion d) 1 2 && xdLocOff d % 64 == 0 && xdWinOff d % 64 == 0
    && within (xdLen d) 64 0x8000000 && xdLen d % 64 == 0 && xdPeer d != die && decide (xdLocOff d + xdLen d ≤ bound (xdRegion d))

/-- A collective (R240–R242). -/
def collParams (die d : Nat) : Bool :=
  let op := dOp d
  let p := popcount 7 (xdMask d)
  let reduces := op == 5 || op == 6
  zeros d [(290, 192)] && bit (xdMask d) (die - 1) && decide (2 ≤ p) && xdColl d != 0
    && (if op = 3 then bit (xdMask d) (xdPeer d - 1) && xdPeer d != 0 && (if xdPeer d = die then inOut d 1 0 else inOut d 0 1) else xdPeer d == 0 && inOut d 1 1)
    && (if reduces then (xdElem d == 6 || xdElem d == 0x12) && dTiles d % p == 0 else xdElem d == 0)

/-- An XD command on die `die` (R178, R240, R241). -/
def xdParams (bound : Nat → Nat) (die d : Nat) : Bool :=
  zeros d [(479, 325)] &&
  (match dOp d with
    | 1 | 2 => putParams bound die d
    | 3 | 4 | 5 | 6 => collParams die d
    | 0x10 | 0x11 => winParams bound die d
    | _ => false)

/-! ### SO and EG -/

/-- SO_FRAME (R275). -/
def soParams (d : Nat) : Bool :=
  dOp d == 1 && inOut d 1 0 && zeros d [(479, 264)] && (within (soDt d) 0x2B 0x2F || soDt d == 0x1E || within (soDt d) 0x30 0x37) && within (soLines d) 1 8192
    && within (soBytes d) 64 16384 && soBytes d % 64 == 0

/-- EG_MSG (R360). -/
def egParams (d : Nat) : Bool := dOp d == 1 && inOut d 1 0 && zeros d [(479, 219)] && within (bits d 218 208) 256 1920 && bits d 218 208 % 64 == 0

/-! ### A core's stream -/

/-- Descriptors with their running totals of vectors: first, one past the last, descriptor. -/
def spans (f : Nat → Nat) (l : List Nat) : List (Nat × Nat × Nat) :=
  (l.foldl (fun (s : Nat × List (Nat × Nat × Nat)) d => (s.1 + f d, s.2 ++ [(s.1, s.1 + f d, d)])) (0, [])).2

/-- One core's stream (R83, R113, R138): as many vectors fed as the passes count, formats and modes that go together, and a drain that reads what the arrays or the pooling deliver. -/
def coreOk (mx wf vx : List Nat) : Bool :=
  let passes := mx.filter (fun d => dTiles d != 0)
  let feeds := wf.filter (fun d => dOp d == 1 && dTiles d != 0)
  let pools := wf.filter (fun d => dOp d == 2)
  let m := spans mxVecs passes
  let w := spans wfTotal feeds
  sumOver mx mxVecs == sumOver feeds wfTotal
    && m.all (fun a => w.all (fun b => decide (a.2.1 ≤ b.1 ∨ b.2.1 ≤ a.1) || (pairOk (wfFmt b.2.2) (mxWt a.2.2) && mxSparse a.2.2 == wfSparse b.2.2)))
    && (vx.filter (fun d => dOp d == 1 && dTiles d != 0)).all (fun d =>
      if vxSrc d = 1 then (vxInFmt d == 6 || vxInFmt d == 0x12) && mx.any (fun p => (mxMask p &&& vxMask d) != 0 && pairInt (mxWt p) == (vxInFmt d == 6))
      else if vxSrc d = 2 then pools.any (fun p => isIntFmt (wfFmt p) == (vxInFmt d == 6))
      else true)

/-! ### Every station -/

/-- A descriptor's parameters on a station of type `ty` of die `die`, with its task's bounds; an SI runs no list (R253). -/
def paramsOk (bound : Nat → Nat) (die ty d : Nat) : Bool :=
  match ty with
  | 1 => mxParams d
  | 2 => wfParams d
  | 3 => vxParams bound d
  | 4 => dmParams bound d
  | 5 => bxParams d
  | 6 => xdParams bound die d
  | 8 => egParams d
  | 9 => soParams d
  | _ => false

end Sys2Proof.Machine
end

