-- ==== Sys2Proof/Machine/PkgCheck.lean ====
section
/-! DEFINITION. Machine/PkgCheck.lean: whether the security core accepts a test-blank package (R345, R349–R353). -/
namespace Sys2Proof.Machine

/-- Number of entries of a package. -/
def pkgCount (b : Bytes) : Nat := leAt b 6 2
/-- Directory entry `i` of a package (R350). -/
def pkgDir (b : Bytes) (i : Nat) : Nat := leAt b (64 + 64 * i) 64
/-- The entries of a package. -/
def pkgDirs (b : Bytes) : List Nat := (List.range (pkgCount b)).map (pkgDir b)

/-- The areas of an entry: offset and length (R350). -/
def dirAreas (x : Nat) : List (Nat × Nat) :=
  [(bits x 95 64, 64 * bits x 47 32), (bits x 127 96, bits x 159 128), (bits x 191 160, bits x 223 192), (bits x 255 224, bits x 287 256)]

/-- Header and directory in range, every area inside the package and apart from every other, zeros elsewhere before the signature (R349–R351). -/
def pkgShape (b : Bytes) : Bool :=
  let n := pkgCount b
  let areas := (pkgDirs b).flatMap dirAreas
  let last := areas.foldl (fun m a => max m (a.1 + a.2)) (64 + 64 * n)
  leAt b 0 4 == 0x4254594B && leAt b 4 2 == 1 && within n 1 64 && leAt b 12 4 != 0 && leAt b 16 4 == b.length && b.length % 64 == 0 && decide (b.length ≤ 0x800000)
    && decide (leAt b 20 1 ≤ 3) && leAt b 21 3 == 0 && (slice b 28 36).all (· == 0#8)
    && (pkgDirs b).all (fun x => within (bits x 7 0) 1 6 && within (bits x 15 8) 1 16 && decide (bits x 23 16 < bits x 15 8) && within (bits x 47 32) 1 256
      && bits x 95 64 % 64 == 0 && zeros x [(31, 24), (63, 48), (511, 352)])
    && areas.all (fun a => decide (64 + 64 * n ≤ a.1 ∧ a.1 + a.2 + 96 ≤ b.length)) && pairwise (fun (a c : Nat × Nat) => apart a.1 a.2 c.1 c.2) areas
    && (slice b last (b.length - 96 - last)).all (· == 0#8)

/-- The workspace bounds of a package's commands (R326, R350; log 43). -/
def wsBound (len : Nat) : Nat → Nat
  | 0 => 0x40000
  | 2 => len
  | _ => 0

/-- Whether a package's descriptor names only firmware queues (R27, R346). -/
def fwQueues (d : Nat) : Bool :=
  (List.range (dNin d)).all (fun k => within (dInQ d k % 1024) 1008 1019) && (List.range (dNout d)).all (fun k => within (dOutQ d k % 1024) 1008 1019)

/-- The descriptors of an entry. -/
def dirCmds (b : Bytes) (x : Nat) : List Nat := (List.range (bits x 47 32)).map (fun i => leAt b (bits x 95 64 + 64 * i) 64)

/-- Every descriptor of a package (R351): one package serves every die, so its checks hold as on some die. The weight queue of an MX_PASS is a firmware queue of its own core, whose slots
are 8 KiB of core buffer (R83, R346; log 43). -/
def pkgDescs (b : Bytes) : Bool :=
  (pkgDirs b).all (fun x => (dirCmds b x).all (fun d => headOk (bits x 7 0) d && blankIds d && fwQueues d
    && ((List.range 8).drop 1).any (fun e => paramsOk (wsBound b.length) e (bits x 7 0) d)
    && (bits x 7 0 != 1 || within (dInQ d 0 % 1024) 1008 1015)))

/-- Tiles between two offsets of a package as offset and header. -/
def tilesAt (b : Bytes) (off len : Nat) : List (Nat × Nat) :=
  let rec go : Nat → Nat → List (Nat × Nat)
    | 0, _ => []
    | n + 1, o => if off + len < o + 32 then [] else let h := leAt b o 32; (o, h) :: go n (roundUp (o + 32 + hLen h) 16)
  go (len / 32 + 1) off

/-- Whether a tolerance is at most 4 units in the last place of FP32 at a value; none at a value that is not finite (R352). -/
def tolSmall (value tol : Nat) : Bool :=
  let e := max 1 (bits value 30 23)
  isFin32 tol && !neg32 tol && (if isFin32 value then !dyLt ⟨4, (e : Int) - 150⟩ (dy32 tol) else tol == 0)

/-- Tolerances of one expected tile (R153, R346, R352). -/
def tolTile (b : Bytes) (x : (Nat × Nat) × (Nat × Nat)) : Bool :=
  let h := x.1.2
  let k := x.2.2
  let int := isIntFmt (hFmt h) || hFmt h == 0x21
  let ps := coords (hLay h) (hH h) (hW h) (hC h) (hN h)
  let el := (unpackIn ps h (slice b (x.1.1 + 32) (hLen h))).zip (unpackIn ps k (slice b (x.2.1 + 32) (hLen k)))
  hdrSelfOk h && hdrSelfOk k && sameDims h k && decide (hPacked h ≤ 8160) && hFmt k == (if int then 0x06 else 0x12)
    && el.all (fun e => if int then e.2.1 == 0 else tolSmall (workVal (hFmt h) e.1.1 e.1.2) e.2.1)

/-- Tolerances of a package: a tolerance tile for every expected tile. -/
def pkgTols (b : Bytes) : Bool :=
  (pkgDirs b).all (fun x =>
    let ex := tilesAt b (bits x 191 160) (bits x 223 192)
    let tol := tilesAt b (bits x 255 224) (bits x 287 256)
    ex.length == tol.length && (ex.zip tol).all (tolTile b))

/-- Turns in one cycle of every entry's rot. -/
def pkgCycle (b : Bytes) : Nat := (pkgDirs b).foldl (fun n x => Nat.lcm n (max 1 (bits x 15 8))) 1

/-- The entries selected in turn `t` (R345). -/
def pkgSel (b : Bytes) (t : Nat) : List Nat := (pkgDirs b).filter (fun x => t % max 1 (bits x 15 8) == bits x 23 16)

/-- The Stream row of R83 for a package: in every turn the MX entries of a core take the vectors that its WF entries deliver (R345). -/
def pkgStream (b : Bytes) : Bool :=
  let of := fun (t ty : Nat) => ((pkgSel b t).filter (fun x => bits x 7 0 == ty)).flatMap (dirCmds b)
  (List.range (pkgCycle b)).all (fun t => coreOk (of t 1) (of t 2) (of t 3))

/-- The cost of a package in turn `t` (R353). -/
def turnCost (b : Bytes) (t : Nat) : Nat :=
  let sel := pkgSel b t
  let of := fun (ty : Nat) => sel.filter (fun x => bits x 7 0 == ty)
  let chain := fun (ty : Nat) => sumOver (of ty) (fun x => bits x 319 288) + (if ty = 1 ∧ !(of 1).isEmpty then 128 else 0)
  let compare := sumOver sel (fun x => (if bits x 7 0 ≤ 4 then 8 else 1) * (cdiv (bits x 351 320) 64 + 20))
  ((List.range 7).map chain).foldl max 0 + compare

/-- The cost of a package (R353). -/
def pkgCost (b : Bytes) : Nat := ((List.range (pkgCycle b)).map (turnCost b)).foldl max 0

/-- Station types that a partition uses on a die: those for which its loaded programs hold commands (R345). -/
def Chip.typesOn (c : Chip) (p d : Nat) : List Nat :=
  ((c.wrk.lists.filter (fun e => e.key / 512 == d && c.jobPart e.job == p && e.n != 0)).map (fun e =>
    let st := e.key / 4
    stType (if d ≠ 0 ∧ st % 128 < 32 then st + 32 else st))).eraseDups

/-- R345: in every turn at least blank_count entries of each type that a partition uses. -/
def Chip.pkgCovers (c : Chip) (b : Bytes) : Bool :=
  (List.range (pkgCycle b)).all (fun t =>
    let sel := pkgSel b t
    (c.keys 0x0201).all (fun p => ((List.range 8).drop 1).all (fun d => (c.typesOn p d).all (fun ty =>
      decide (c.cfgBy 0x0902 p 1 1 ≤ (sel.filter (fun x => bits x 7 0 == ty)).length)))))

/-- Whether a package is accepted (R351): `low` is the version that it must exceed at a push, 0 at start; `sigOk` says whether its signature verifies. -/
def Chip.pkgOk (c : Chip) (b : Bytes) (sigOk : Bool) (low : Nat) : Bool :=
  let slot := leAt b 20 1
  pkgShape b && sigOk && (tabGet [] c.nv.otp.keys slot != []) && !bit c.nv.otp.revoked slot && leAt b 8 4 == c.cfg1 0x0901 0 0
    && decide (c.cfg1 0x0901 1 1 ≤ leAt b 12 4) && decide (low < leAt b 12 4) && pkgDescs b && pkgStream b && pkgTols b
    && leAt b 24 4 == pkgCost b && decide (pkgCost b + 256 ≤ 776 * c.cfg1 0x0701 4 0) && c.pkgCovers b

end Sys2Proof.Machine
end

