-- ==== Sys2Proof/Machine/Power.lean ====
section
/-! DEFINITION. Machine/Power.lean: supply, clock and thermal monitors (R496, R499), ageing readings (R501), PMBus (R535), and the requests for power states and resets
(R503, R507–R509). -/
namespace Sys2Proof.Machine

/-! ### Monitors -/

/-- Die of a power domain in switch-on order (R496). -/
def domDie (k : Nat) : Nat := if k < 5 then 0 else (k - 5) / 3 + 1
/-- DOM_ON bit of a power domain in switch-on order: AON, FWC, HSX, NET, SNS, then MEM, BUF, ARR of each die (R496, R512). -/
def domBit (k : Nat) : Nat :=
  if k < 2 then k else if k = 2 then 4 else if k = 3 then 3 else if k = 4 then 2 else 5 + 3 * ((k - 5) / 3) + (2 - (k - 5) % 3)

/-- FSW bit of a supply or thermal event of a die (R499). -/
def supplyBit (d : Nat) : Nat := if d = 0 then 2 else 8 * d + 7

/-- A monitor's event: class A whatever FCLASS gives, from the monitors' source (R377, R399, R499). -/
def Chip.monitor (c : Chip) (b cause die : Nat) : Chip := c.rise { bit := b, cause := cause, die := die, src := if die = 0 then 0 else 16, cls := 1 }

/-- UNDERVOLTAGE and OVERVOLTAGE (R499). -/
def Chip.supplyTrip (c : Chip) (dom : Nat) : Chip := c.monitor (supplyBit (domDie dom)) 0x18 (domDie dom)

/-- DOMAIN_GOOD_TIMEOUT (R496): a domain that is not yet on does not report good; a fenced die's domains are never commanded on. -/
def Chip.domTimeout (c : Chip) (dom : Nat) : Chip :=
  if bit (c.reg 0 (pwrBlk + 8)) (domBit dom) || c.fenced (domDie dom) then c else c.supplyTrip dom

/-- A sensor above the warning level, shown live in MON_STATUS (R499, R512). -/
def Chip.warm (c : Chip) (d sensor : Nat) : Chip :=
  ({ c with pwr := { c.pwr with warm := tabSet false c.pwr.warm (4 * d + sensor) true } }).setFld 0 (pwrBlk + 0x24) d d 1

/-- THERMAL_TRIP (R499): Tj above 125 °C, which is also above the warning level. -/
def Chip.thermalTrip (c : Chip) (d sensor : Nat) : Chip := (c.warm d sensor).monitor (supplyBit d) 0x1A d

/-- THERMAL_WARNING_END (R512): every sensor of the die reads 115 °C or below. -/
def Chip.cool (c : Chip) (d : Nat) : Chip :=
  ({ c with pwr := { c.pwr with warm := tabKeep (fun k => decide (k / 4 ≠ d)) c.pwr.warm } }).setFld 0 (pwrBlk + 0x24) d d 0

/-- AGEING_READ (R501, R513): slowdown against the count of the device's first start, which the first reading of all records, in 0.01 %, signed; the spec gives no rounding, so the
last unit is free where the quotient is not whole (log 47). -/
def Chip.ageing (c : Chip) (d i n : Nat) : Chip :=
  if c.fenced d then c
  else
    let key := d * 16 + i
    let first := tabGet 0 c.nv.log.rings key
    if first = 0 then { c with nv := { c.nv with log := { c.nv.log with rings := tabSet 0 c.nv.log.rings key n } } }
    else
      let num : Int := ((first : Int) - n) * 10000
      let q := num / (first : Int)
      let x := c.draw
      if num % (first : Int) = 0 then c.setReg d (pwrBlk + 0x40 + 4 * i) (wrap 16 q)
      else x.2.setReg d (pwrBlk + 0x40 + 4 * i) (wrap 16 (q + (x.1 % 2 : Nat)))

/-! ### PMBus -/

/-- PMBUS_POLL (R535): the readings of every device that answers. -/
def Chip.pmPoll (c : Chip) (reads : PmReads) : Chip :=
  { c with pwr := { c.pwr with pm := reads.foldl (fun (t : Tab Nat) (r : PmRead) =>
      tabSet 0 t r.addr (r.volt.toNat + r.curr.toNat * 65536 + r.temp.toNat * 4294967296)) c.pwr.pm } }

/-- PM_ALERT (R535): a fault in STATUS_WORD sets bit 2 with cause SUPPLY, in the class that FCLASS gives. -/
def Chip.pmAlert (c : Chip) (fault : Bool) : Chip := if fault then c.rise { bit := 2, cause := 0x18, die := 0, src := 0 } else c

/-! ### Requests -/

/-- Whether the device is stopped or in ROM recovery (R433, R440). -/
def Chip.stopped (c : Chip) : Bool := bit (c.reg 0 startBlk) 4 || bit (c.reg 0 startBlk) 5

/-- Whether a power request is taken at all (R503). -/
def Chip.takesPower (c : Chip) (who : Src) : Bool := c.openMgmt who && !c.stopped && !c.classA && c.pwrState != 3

/-- A request for IDLE (1) or PARK (2) waits for the next boundary (R503). PARK has no way to IDLE but through ACTIVE, since the spec gives no such sequence. -/
def Chip.askQuiet (c : Chip) (v : Nat) (who : Src) : Chip :=
  if !c.takesPower who || c.pwrState == 2 then c
  else ({ c with pwr := { c.pwr with want := v } }).setFld 0 pwrBlk 2 2 1

/-- A request for ACTIVE starts the resume (R503, R506): from IDLE or from PARK. -/
def Chip.askActive (c : Chip) (who : Src) : Chip :=
  if !c.takesPower who || c.pwrState == 0 then c
  else { c.setReg 0 pwrBlk 3 with pwr := { c.pwr with move := if c.pwrState = 2 then 3 else 4, want := 0 } }

/-- PWR_REQ as a register (R503, R512): bits [1:0] the state, [2] go. -/
def Chip.pwrReq (c : Chip) (v : Nat) (who : Src) : Chip :=
  if !bit v 2 then c
  else match bits v 1 0 with
    | 0 => c.askActive who
    | 1 => c.askQuiet 1 who
    | 2 => c.askQuiet 2 who
    | _ => c

/-- A partition reset that acts at the next boundary (R507, R508). -/
def Chip.askPartReset (c : Chip) (p : Nat) (who : Src) : Chip :=
  if c.openMgmt who && c.hasPart p then c.modPart p (fun x => { x with reset := 1 }) else c

/-- A station reset by a management session (R507, R509). -/
def Chip.askStationReset (c : Chip) (st : Nat) (who : Src) : Chip :=
  if c.openMgmt who && stType st != 0 then (c.stationReset st).settle else c

/-- RST_REQ as a register (R507, R512): [1:0] the level, [3:2] partition, [6:4] die, [13:7] local station index, [14] go. -/
def Chip.rstReq (c : Chip) (v : Nat) (who : Src) : Chip :=
  if !bit v 14 then c
  else match bits v 1 0 with
    | 1 => c.askPartReset (bits v 3 2) who
    | 2 => c.askStationReset (bits v 6 4 * 128 + bits v 13 7) who
    | _ => c

/-- PWR_REQ_IDLE. -/
def execPwrReqIdle (who : Src) (s : State) : Host.Outcome State Fault Refusal := .next { s with chip := s.chip.awake (·.askQuiet 1 who) }
/-- PWR_REQ_PARK. -/
def execPwrReqPark (who : Src) (s : State) : Host.Outcome State Fault Refusal := .next { s with chip := s.chip.awake (·.askQuiet 2 who) }
/-- PWR_REQ_ACTIVE. -/
def execPwrReqActive (who : Src) (s : State) : Host.Outcome State Fault Refusal := .next { s with chip := s.chip.awake (·.askActive who) }
/-- DOMAIN_GOOD_TIMEOUT. -/
def execDomainGoodTimeout (dom : Dom) (s : State) : Host.Outcome State Fault Refusal := .next { s with chip := s.chip.awake (·.domTimeout dom) }
/-- RST_REQ_PARTITION. -/
def execRstReqPartition (p : Part) (who : Src) (s : State) : Host.Outcome State Fault Refusal := .next { s with chip := s.chip.awake (·.askPartReset p who) }
/-- RST_REQ_STATION. -/
def execRstReqStation (st : Stn) (who : Src) (s : State) : Host.Outcome State Fault Refusal := .next { s with chip := s.chip.awake (·.askStationReset st who) }
/-- UNDERVOLTAGE. -/
def execUndervoltage (dom : Dom) (s : State) : Host.Outcome State Fault Refusal := .next { s with chip := s.chip.supplyTrip dom }
/-- OVERVOLTAGE. -/
def execOvervoltage (dom : Dom) (s : State) : Host.Outcome State Fault Refusal := .next { s with chip := s.chip.supplyTrip dom }
/-- REFCLK_FAIL. -/
def execRefclkFail (s : State) : Host.Outcome State Fault Refusal := .next { s with chip := s.chip.monitor 3 0x19 0 }
/-- ISLAND_CLOCK_FAIL. -/
def execIslandClockFail (d : Die) (_isl : Fin 14) (s : State) : Host.Outcome State Fault Refusal :=
  .next { s with chip := s.chip.monitor (if d.val = 0 then 3 else 8 * d + 7) 0x19 d }
/-- THERMAL_TRIP. -/
def execThermalTrip (d : Die) (sensor : Fin 4) (s : State) : Host.Outcome State Fault Refusal := .next { s with chip := s.chip.thermalTrip d sensor }
/-- THERMAL_WARNING. -/
def execThermalWarning (d : Die) (sensor : Fin 4) (s : State) : Host.Outcome State Fault Refusal := .next { s with chip := s.chip.warm d sensor }
/-- THERMAL_WARNING_END. -/
def execThermalWarningEnd (d : Die) (s : State) : Host.Outcome State Fault Refusal := .next { s with chip := s.chip.cool d }
/-- AGEING_READ. -/
def execAgeingRead (d : CDie) (isl : Fin 14) (count : Nat) (s : State) : Host.Outcome State Fault Refusal :=
  .next { s with chip := s.chip.live (·.ageing (d + 1) isl count) }
/-- PMBUS_POLL. -/
def execPmbusPoll (reads : PmReads) (s : State) : Host.Outcome State Fault Refusal := .next { s with chip := s.chip.awake (·.pmPoll reads) }
/-- PM_ALERT. -/
def execPmAlert (fault : Bool) (s : State) : Host.Outcome State Fault Refusal := .next { s with chip := s.chip.awake (·.pmAlert fault) }

end Sys2Proof.Machine
end

