-- ==== Sys2Proof/Machine/Regs.lean ====
section
/-! DEFINITION. Machine/Regs.lean: control-space reads and writes by firmware, the Turner, the debug port and management sessions (R4–R6, R28), the registers with rules of
their own, the drain store (R171), and the debug port with the spindle lock (R490–R492, R494). -/
namespace Sys2Proof.Machine

/-! ### Reading -/

/-- Whether a die's control space answers: a fenced die is off, and compute dies are off in PARK (R21, R502). -/
def Chip.dieOn (c : Chip) (d : Nat) : Bool := d == 0 || (!c.fenced d && c.pwrState != 2)

/-- QSTAT0 of a queue (R69). -/
def Chip.qstat0 (c : Chip) (q : Nat) : Nat :=
  let x := c.queue q
  let full := (x.slots.filter (fun s => s.2.st == .full)).length
  x.claimIx % 256 + (x.acqIx % 256) <<< 8 + full <<< 16 + (b2n x.eos) <<< 25 + (b2n x.pwait) <<< 26 + (b2n x.cwait) <<< 27
/-- QSTAT1 of a queue (R69). -/
def Chip.qstat1 (c : Chip) (q : Nat) : Nat :=
  let x := c.queue q
  x.credits + (x.gathered + x.flight) <<< 9 + (min 255 x.left) <<< 18

/-- CONC_SRC[k] of CDd (R399): the sources whose status registers raise die line k. -/
def Chip.concSrc (c : Chip) (d k : Nat) : Nat :=
  maskOf ((statusRegs d).filter (fun off => c.blockHigh d off (8 * d + k)) |>.map (srcOf d))

/-- CONC_LINES of CDd (R399); the escalation line is high while its event waits for the collector (log 48). -/
def Chip.concLines (c : Chip) (d : Nat) : Nat :=
  maskOf ((List.range 8).filter (fun k => c.concSrc d k != 0)) + (b2n (c.flt.rises.any (fun r => r.esc && r.die == d))) <<< 8

/-- MB_SESS[p] (R468). -/
def Chip.mbSess (c : Chip) (p : Nat) : Nat :=
  let x := c.sess p
  let n : Neg := x.neg.getD ⟨0, 0, 0⟩
  b2n x.neg.isSome + 2 * b2n x.next.isSome + n.major <<< 2 + n.minor <<< 10 + n.feats <<< 18

/-- Value of the register at `off` of die `d` as it stands: those that show live state are computed, write-only ones read 0 (R6). -/
def Chip.regVal (c : Chip) (d off : Nat) : Nat :=
  if off % 4 ≠ 0 || !c.dieOn d then 0
  else if 0x20000 ≤ off ∧ off < 0x22000 then (if off % 8 = 0 then c.qstat0 (d * 1024 + (off - 0x20000) / 8) else c.qstat1 (d * 1024 + (off - 0x20000) / 8))
  else if d = 0 then
    if off = timeBlk then c.nowNs % 2 ^ 32
    else if off = timeBlk + 4 then c.nowNs / 2 ^ 32
    else if off = timeBlk + 8 then c.nowFrac
    else if timeBlk + 0x24 ≤ off ∧ off < timeBlk + 0x54 then
      (match (if (off - timeBlk - 0x24) % 0xC = 0 then tabGet [] c.net.tsIn ((off - timeBlk - 0x24) / 0xC) else []) with
        | e :: _ => e.ts / 65536 % 2 ^ 32
        | [] => 0)
    else if off = fcBlk + 0x18 then c.fsum
    else if off = fcBlk + 0x20 || off = pwrBlk + 4 || off = pwrBlk + 0x14 then 0
    else if mbBlk ≤ off ∧ off < mbBlk + 0x10 then c.mbSess ((off - mbBlk) / 4)
    else if off = mbBlk + 0x10 then maskOf ((List.range 4).filter (fun s => (c.sess (4 + s)).isOpen))
    else c.reg 0 off
  else if fcBlk ≤ off ∧ off < fcBlk + 0x24 then (if off = fcBlk then c.concLines d else c.concSrc d ((off - fcBlk - 4) / 4))
  else if mxBlk 0 ≤ off ∧ off < mxBlk 9 ∧ off % 0x40 = 0x28 then 0
  else c.reg d off

/-- Whether `off` is the low word of a 64-bit or 48-bit pair whose high word follows it (R5). -/
def isLow (d off : Nat) : Bool :=
  let inBlk := fun (lo hi : Nat) => decide (lo ≤ off ∧ off < hi)
  if inBlk (stBlk 0) (stBlk 128) then off % 0x40 = 4
  else if inBlk (dmBlk 0) (dmBlk 9) then off % 0x40 = 0
  else if inBlk (taskBlk 0) (taskBlk 256) then [0, 0x10, 0x20, 0x28].contains (off % 0x40)
  else if inBlk (winBlk 0) (winBlk 64) then off % 0x20 = 0
  else if off = sramBlk + 0x20 then true
  else if inBlk (cntBlk 0) (cntBlk 128) then
    let o := off % 0x200
    off % 8 = 0 && (decide (o < 0x18) || decide (0x20 ≤ o ∧ o < 0x70) || decide (0x180 ≤ o ∧ o < 0x1F0)
      || [0x80, 0x88, 0x100, 0x108].contains o || decide (0xA0 ≤ o ∧ o < 0xF8) || decide (0x120 ≤ o ∧ o < 0x178))
  else if d ≠ 0 then off = ddrBlk 0 + 0xC || off = ddrBlk 1 + 0xC
  else
    (inBlk (spBlk 0) (spBlk 24) && off % 0x80 == 0x18) || off == timeBlk || off == tsBlk || off == tsBlk + 8
      || (inBlk (gateBlk 0) (gateBlk 4) && off % 0x40 == 0xC) || off == fcBlk || (inBlk (fcBlk + 0x80) (fcBlk + 0x480) && off % 0x10 == 0)
      || off == obsBlk + 0x20 || off == obsBlk + 0x2C || off == pwrBlk + 0x1C

/-- Whether a read of `off` may return a latched word: the word after a low word, TB_NOW_FRAC, and a TS_IN entry's high and fraction words (R5, R318). -/
def isLatched (d off : Nat) : Bool :=
  (decide (4 ≤ off) && isLow d (off - 4)) || (d == 0 && (off == timeBlk + 8 || decide (timeBlk + 0x24 ≤ off ∧ off < timeBlk + 0x54)))

/-- A requester's read of the register at `off` of die `d` (R5, R311, R318): its value, and the chip with what the read latches or pops. A latched high word answers every high-word
read of its requester until that requester's next read of the low word (log 149). -/
def Chip.readReg (c : Chip) (who : Src) (d off : Nat) : Nat × Chip :=
  if off % 4 ≠ 0 || !c.dieOn d then (0, c)
  else if d = 0 ∧ timeBlk + 0x24 ≤ off ∧ off < timeBlk + 0x54 ∧ (off - timeBlk - 0x24) % 0xC = 0 then
    let c1 := c.tsInRead ((off - timeBlk - 0x24) / 0xC) who
    (c1.obs.value, c1)
  else if isLow d off then
    let c1 := c.latchWord who d (off + 4) (c.regVal d (off + 4))
    (c.regVal d off, if d = 0 ∧ off = timeBlk then c1.latchWord who 0 (off + 8) (c.regVal 0 (off + 8)) else c1)
  else if isLatched d off then
    match tabGet 0 c.latch (srcNum who * 2 ^ 32 + regKey d off) with
    | 0 => (c.regVal d off, c)
    | v + 1 => (v, c)
  else (c.regVal d off, c)

/-- The die whose firmware processor makes an access to die `d`: a Carver serves its own die, the Turner pair the headstock die and the management sessions. -/
def fwDie (who : Src) (d : Nat) : Option Nat :=
  match who with
  | .firmware => some d
  | .turner => some 0
  | .mgmt _ => some 0
  | _ => none

/-- A firmware processor's access on its way through its FIFO with the die fabric (R23): device address and data word (log 133). -/
def Chip.fwPass (c : Chip) (who : Src) (d off v : Nat) (dir : Nat) : Chip :=
  match fwDie who d with
  | some e => c.hsPut 4 e 0 dir (toLE 8 (dieBase d + ctlBase + off) ++ toLE 8 v)
  | none => c

/-- LOW_WORD_READ and every other register read (R5): the value is what the requester gets, 0 where the access is not an aligned 32-bit word; one that does not reach the registers gets
none. -/
def Chip.lowRead (c : Chip) (d off width : Nat) (who : Src) : Chip :=
  if !c.reaches who then c
  else if width ≠ 4 then (c.answer 0).setErr false
  else let x := (c.fwPass who d off 0 0).readReg who d off; ((x.2.fwPass who d off x.1 1).answer x.1).setErr false

/-! ### Writing -/

/-- Bits that a write stores in a read-write register; a base's low bits that must be zero stay zero (R4, R6, R67, R69, R106, R174, R494; log 49). -/
def rwMask (d off : Nat) : Nat :=
  let all := 0xFFFFFFFF
  if 0x10000 ≤ off ∧ off < 0x14000 then (match off % 0x10 with | 4 => 0x1FFF | 0xC => 0xFF | _ => all)
  else if stBlk 0 ≤ off ∧ off < stBlk 128 then (match off % 0x40 with | 0 => 1 | 4 => 0xFFFFFFC0 | 8 => 0xFFFF | 0xC => 0x1FFF | _ => 0)
  else if taskBlk 0 ≤ off ∧ off < taskBlk 256 then
    (match off % 0x40 with
      | 0 => 0xFFFFFF00 | 4 => 0xFFFF | 8 => 0x7FFFFF | 0x10 => 0xFFFFFF00 | 0x14 => 0xFFFF | 0x18 => 0x3FFFFFF
      | 0x20 => 0xFFFFF000 | 0x24 => 0xFFFF | 0x28 => 0xFFFFF000 | 0x2C => 7 | 0x30 => 0xFFFFF | _ => 0)
  else if d ≠ 0 then (if mxBlk 0 ≤ off ∧ off < mxBlk 9 ∧ (off % 0x40 = 0x20 ∨ off % 0x40 = 0x24) then 0x7F7F7F7F else 0)
  else if off = obsBlk + 0x1C then 0xFF
  else if off = obsBlk + 0x20 ∨ off = obsBlk + 0x24 then all
  else 0

/-- Whether a job runs: launched in this turn, its end not decided, and some task of it not ended (R35, R323). -/
def Chip.jobRuns (c : Chip) (j : Nat) : Bool :=
  c.launched j && !c.jobDead j && (c.jobTasks j).any (fun t => !(c.task t.1 t.2).ended)

/-- Whether a physical core holds a task: one that is released and has not ended is bound to it, or a station of it works on a command (R63, R174, R325). -/
def Chip.coreHolds (c : Chip) (d k : Nat) : Bool :=
  (match c.logOf d k with
    | none => false
    | some l => (List.range 256).any (fun t =>
        let v := c.owner d t
        bit v 0 && !bit v 12 && bits v 11 9 == l && (c.task d t).released && !(c.task d t).ended))
    || (List.range 4).any (fun i => !(c.station (stKey (coreStn d k i) 0)).runs.isEmpty)

/-- Whether the block's own rule refuses a write of a read-write register: a queue whose job runs (R69), a busy station's list registers (R68), a running task's entry (R174), DPU_MAP
of a core that holds a task (R106), and SPL_ARM and SPL_TURN from anyone but the debug port (R494). -/
def Chip.writeHeld (c : Chip) (who : Src) (d off : Nat) : Bool :=
  if 0x10000 ≤ off ∧ off < 0x14000 then c.jobRuns (c.queue (d * 1024 + (off - 0x10000) / 16)).job
  else if stBlk 0 ≤ off ∧ off < stBlk 128 then decide (off % 0x40 ≠ 0) && bit (c.reg d (off / 0x40 * 0x40 + 0x14)) 4
  else if taskBlk 0 ≤ off ∧ off < taskBlk 256 then
    let t := c.task d ((off - taskBlk 0) / 0x40)
    t.released && !t.ended
  else if d ≠ 0 then c.coreHolds d ((off - mxBlk 0) / 0x40)
  else match who with | .debug => false | _ => true

/-- BND_STATUS (R192): a W1C register that raises no line. -/
def bndStatus : Nat := sramBlk + 0x18

/-- Whether the register is one that a write of 1 clears (R6), but for the FSW. -/
def isW1c (d off : Nat) : Bool := (statusRegs d).contains off || off == bndStatus

/-- Who may arm MX_INJECT: firmware and the debug port (R106). -/
def mayInject : Src → Bool
  | .firmware => true
  | .debug => true
  | _ => false

/-- What SPL_ARM 3 does at once (R490, R494). -/
def Chip.armNow (c : Chip) : Chip := if c.fld 0 (obsBlk + 0x1C) 1 0 = 3 then c.spLock 3 0 else c

/-- A write of the aligned word `v` to the register at `off` of die `d` (R4, R6): read-only registers ignore it, a status register's ones clear, the FSW clears under R380, write-only
registers act, and a read-write register takes its fields unless its block refuses. -/
def Chip.writeReg (c : Chip) (who : Src) (d off v : Nat) : Chip :=
  if off % 4 ≠ 0 || !c.reaches who || !c.dieOn d then c
  else if isW1c d off then c.setReg d off (c.reg d off - (c.reg d off &&& v))
  else if d = 0 ∧ off = fcBlk then c.fswClear v who
  else if d = 0 ∧ off = fcBlk + 4 then c.fswClear (v <<< 32) who
  else if d = 0 ∧ off = fcBlk + 0x20 then (if bit v 16 then c.fcEscalate (bits v 5 0) (bits v 15 8) who else c)
  else if d = 0 ∧ off = pwrBlk + 4 then c.pwrReq v who
  else if d = 0 ∧ off = pwrBlk + 0x14 then c.rstReq v who
  else if d ≠ 0 ∧ mxBlk 0 ≤ off ∧ off < mxBlk 9 ∧ off % 0x40 = 0x28 then (if mayInject who then c.setReg d off (v &&& 0x3FFF) else c)
  else if rwMask d off = 0 || c.writeHeld who d off then c
  else
    let c1 := c.setReg d off (v &&& rwMask d off)
    if d = 0 ∧ off = obsBlk + 0x1C then c1.armNow else c1

/-- REGISTER_WRITE (R5, R6): an access that is not an aligned 32-bit word is dropped. -/
def Chip.registerWrite (c : Chip) (who : Src) (d off v width : Nat) : Chip :=
  if width = 4 then (if c.reaches who then c.fwPass who d off v 0 else c).writeReg who d off v else c

/-- Offset of ST_CMDBASE_LO, ST_CMDBASE_HI or ST_CMDCOUNT of a station. -/
def cmdRegOff (st r : Nat) : Nat := stBlk (stIdx st) + 4 + 4 * r

/-- Who may read the drain store: firmware and the debug port (R171). -/
def mayDrain : Src → Bool
  | .firmware => true
  | .turner => true
  | .debug => true
  | _ => false

/-- DRAIN_STORE_FW_READ (R171): 64 bits of the drain store, read by firmware or the debug port while the core holds no task; any other read returns zero with a fabric error. -/
def Chip.dsRead (c : Chip) (d k off : Nat) (who : Src) (ups : Upsets) : Chip :=
  if !c.reaches who then c
  else if !mayDrain who || c.coreHolds d k || !c.dieOn d || decide (0x100000 ≤ off) then (c.answer 0).setErr true
  else
    let r := c.read {} ups (dieBase d + dsBase k + off / 8 * 8) 8
    (r.1.answer (fromLE r.2.1)).setErr false

/-! ### The debug port -/

/-- Check bits of an SRAM word as the scan network shows them: a SEC-DED code that the spec does not give, or the poison syndrome (R187, R492). -/
def Chip.scanWord (c : Chip) (a : Nat) : Nat :=
  let data := fromLE ((List.range 8).map (fun i => if c.poisoned a || c.stale (a / 8 * 8 + i) then Config.poisonedData c.free (a / 8 * 8 + i) else c.byte (a / 8 * 8 + i)))
  data + (Config.checkBits (a / 8) (data + 2 ^ 64 * b2n (c.poisoned a))).toNat <<< 64

/-- Entry `i` of a handshake FIFO (R23, R492): those of an adapter toward its link are the first of the flits that wait for the module. -/
def Chip.fifoEntry (c : Chip) (kind d u dir i : Nat) : Nat :=
  let l := if kind = 3 ∧ dir = 1 then (c.link d u).waiting.take 16 else tabGet [] c.ecc.hs (hsKey kind d u dir)
  fromLE (l.getD i [])

/-- DEBUG_SCAN_READ (R492): during a lock, any control-space register, handshake FIFO entry or SRAM word; DDR5 cannot be read. -/
def Chip.scan (c : Chip) (tgt : ScanTarget) : Chip :=
  if !c.locked then c
  else match tgt with
    | .reg d off => c.answer (c.regVal d off.toNat)
    | .fifo k d u out i => c.answer (c.fifoEntry k d u (b2n out) i)
    | .sram a => match c.decode a.toNat with
      | .db d _ => c.answer (if c.dieOn d then c.scanWord a.toNat else 0)
      | .cb d _ _ => c.answer (if c.dieOn d then c.scanWord a.toNat else 0)
      | .ds d _ _ => c.answer (if c.dieOn d then c.scanWord a.toNat else 0)
      | _ => c.answer 0

/-- DEBUG_UNLOCK (R490): the credential that the port presents unlocks it when it is the device's. -/
def Chip.unlock (c : Chip) (ok : Bool) : Chip := if ok then { c with obs := { c.obs with unlocked := true } } else c

/-- SPL_ARM written with mode `m` and bit `b` (R494). -/
def Chip.arm (c : Chip) (who : Src) (m b : Nat) : Chip := c.writeReg who 0 (obsBlk + 0x1C) (m + b <<< 2)

/-- SPL_ARM_AT_TURN (R490, R494): SPL_TURN, then the mode. -/
def Chip.armTurn (c : Chip) (who : Src) (turn : Nat) : Chip :=
  ((c.writeReg who 0 (obsBlk + 0x20) (turn % 2 ^ 32)).writeReg who 0 (obsBlk + 0x24) (turn / 2 ^ 32)).arm who 1 0

/-- QDESC_WRITE. -/
def execQdescWrite (d : Die) (q : Fin 1024) (w : Fin 4) (v : BitVec 32) (who : Src) (s : State) : Host.Outcome State Fault Refusal :=
  .next { s with chip := s.chip.awake (·.writeReg who d (qdescOff q w) v.toNat) }
/-- ST_CMD_REG_WRITE. -/
def execStCmdRegWrite (st : Stn) (r : Fin 3) (v : BitVec 32) (who : Src) (s : State) : Host.Outcome State Fault Refusal :=
  .next { s with chip := s.chip.awake (·.writeReg who (stDie st) (cmdRegOff st r) v.toNat) }
/-- MX_INJECT. -/
def execMxInject (d : CDie) (c : CoreIx) (v : BitVec 32) (who : Src) (s : State) : Host.Outcome State Fault Refusal :=
  .next { s with chip := s.chip.awake (·.writeReg who (d + 1) (mxBlk c + 0x28) v.toNat) }
/-- DPU_MAP_WRITE. -/
def execDpuMapWrite (d : CDie) (c : CoreIx) (hi : Bool) (v : BitVec 32) (who : Src) (s : State) : Host.Outcome State Fault Refusal :=
  .next { s with chip := s.chip.awake (·.writeReg who (d + 1) (mxBlk c + 0x20 + 4 * b2n hi) v.toNat) }
/-- TASK_ENTRY_WRITE. -/
def execTaskEntryWrite (d : Die) (k : TaskIx) (w : Fin 16) (v : BitVec 32) (who : Src) (s : State) : Host.Outcome State Fault Refusal :=
  .next { s with chip := s.chip.awake (·.writeReg who d (taskBlk k + 4 * w) v.toNat) }
/-- W1C_STATUS_CLEAR. -/
def execW1cStatusClear (d : Die) (off : BitVec 24) (v : BitVec 32) (who : Src) (s : State) : Host.Outcome State Fault Refusal :=
  .next { s with chip := s.chip.awake (·.writeReg who d off.toNat v.toNat) }
/-- LOW_WORD_READ. -/
def execLowWordRead (d : Die) (off : BitVec 24) (width : Nat) (who : Src) (s : State) : Host.Outcome State Fault Refusal :=
  .next { s with chip := s.chip.awake (·.lowRead d off.toNat width who) }
/-- DRAIN_STORE_FW_READ. -/
def execDrainStoreFwRead (d : CDie) (c : CoreIx) (off : BitVec 24) (who : Src) (ups : Upsets) (s : State) : Host.Outcome State Fault Refusal :=
  .next { s with chip := s.chip.live (·.dsRead (d + 1) c off.toNat who ups) }
/-- REGISTER_WRITE. -/
def execRegisterWrite (d : Die) (off : BitVec 24) (v : BitVec 32) (width : Nat) (who : Src) (s : State) : Host.Outcome State Fault Refusal :=
  .next { s with chip := s.chip.awake (·.registerWrite who d off.toNat v.toNat width) }
/-- DEBUG_SCAN_READ. -/
def execDebugScanRead (tgt : ScanTarget) (s : State) : Host.Outcome State Fault Refusal := .next { s with chip := s.chip.scan tgt }
/-- DEBUG_UNLOCK. -/
def execDebugUnlock (ok : Bool) (s : State) : Host.Outcome State Fault Refusal := .next { s with chip := s.chip.unlock ok }
/-- SPLOCK_PIN. -/
def execSplockPin (lowNs : Nat) (s : State) : Host.Outcome State Fault Refusal :=
  .next { s with chip := if 40 ≤ lowNs then s.chip.spLock 0 0 else s.chip }
/-- SPL_ARM_AT_TURN. -/
def execSplArmAtTurn (turn : BitVec 64) (who : Src) (s : State) : Host.Outcome State Fault Refusal :=
  .next { s with chip := s.chip.awake (·.armTurn who turn.toNat) }
/-- SPL_ARM_ON_BIT. -/
def execSplArmOnBit (b : FswBit) (who : Src) (s : State) : Host.Outcome State Fault Refusal := .next { s with chip := s.chip.awake (·.arm who 2 b) }
/-- SPL_ARM_NOW. -/
def execSplArmNow (who : Src) (s : State) : Host.Outcome State Fault Refusal := .next { s with chip := s.chip.awake (·.arm who 3 0) }

end Sys2Proof.Machine
end

