-- ==== Sys2Proof/Machine/Mailbox.lean ====
section
/-! DEFINITION. Machine/Mailbox.lean: messages that hosts send (R446, R448–R450), sessions (R451–R460) and the requests of the catalogue but those of observation (R465–R468). A request is
executed within the command that brings it, so no request meets another that is still being executed (R454; log 54). -/
namespace Sys2Proof.Machine

/-! ### Receiving -/

/-- A message as received (R448): type, header session, fields that a request leaves at zero, seq, body. -/
structure Req where
  major : Nat
  minor : Nat
  ty : Nat
  sess : Nat
  clean : Bool
  seq : Nat
  body : Bytes
  deriving DecidableEq, Repr

/-- Types that close with a signature (R449). -/
def signedTy (ty : Nat) : Bool := [0x0006, 0x0013, 0x0034, 0x0035].contains ty
/-- Types that a host may send (R465). -/
def hostTys : List Nat := [0x01, 0x03, 0x04, 0x06, 0x20, 0x21, 0x22, 0x23, 0x24, 0x25, 0x26, 0x30, 0x31, 0x32, 0x33, 0x35, 0x36]

/-- A message that R450 does not discard; `sig` says whether a closing signature verifies. -/
def parseMsg (b : Bytes) (sig : Bool) : Option Req :=
  let n := b.length
  let ty := leAt b 6 2
  let close := if signedTy ty then 96 else 4
  if n < 32 + close ∨ leAt b 0 4 ≠ 0x424D594B ∨ leAt b 28 4 ≠ crc32c (b.take 28) ∨ leAt b 20 4 ≠ n then none
  else if (if signedTy ty then sig else leAt b (n - 4) 4 == crc32c (b.take (n - 4))) then
    some { major := leAt b 4 1, minor := leAt b 5 1, ty := ty, sess := leAt b 8 1, clean := leAt b 9 3 == 0 && leAt b 16 4 == 0 && leAt b 24 4 == 0, seq := leAt b 12 4,
           body := slice b 32 (n - 32 - close) }
  else none

/-- A datagram discarded (R446, R450). -/
def Chip.mbDrop (c : Chip) : Chip := c.addReg 0 (mbBlk + 0x14) 1

/-- A reply to a host that has no session: the device's number is 0 (R454; log 54). -/
def Chip.refuse (c : Chip) (m : Dgram) (r : Req) (status : Nat) : Chip :=
  let b := plainMsg { ty := 7, sess := r.sess, flags := 1, status := status, ref := r.seq } []
  (c.addReg 0 (mbBlk + 0x18) 1).queueFrame m.port 2
    { ip := m.srcIp.toNat, dstUdp := m.srcUdp.toNat, srcUdp := m.dstUdp.toNat, body := b, len := c.frameLen m.port b.length }

/-- The reply to a request (R454, R465): cached for a retry, and counted when it refuses. -/
def Chip.reply (c : Chip) (s ref status : Nat) (body : Bytes) : Chip :=
  let c1 := if status = 0 then c else c.addReg 0 (mbBlk + 0x18) 1
  let x := c1.tell s 2 7 1 status ref body
  x.2.modSess s (fun y => { y with cache := x.1 })

/-- The partition session that a datagram on a HOST port belongs to (R446). -/
def Chip.hostSess (c : Chip) (m : Dgram) : Option Nat :=
  ((c.cfgAll 0x0203).find? (fun v => v.getD 1 0 == m.port.val && v.getD 4 0 == m.dstUdp.toNat)).map (·.headD 0)

/-- Whether a session's peer sent the datagram (R446, R452). -/
def Chip.fromPeer (c : Chip) (s : Nat) (m : Dgram) : Bool :=
  if s < 4 then m.srcIp.toNat == c.sessRec s 2 0 && m.srcUdp.toNat == c.sessRec s 3 0
  else (c.sess s).ip == m.srcIp.toNat && (c.sess s).udp == m.srcUdp.toNat && (c.sess s).port == m.port.val

/-- Whether a partition session is negotiated, or about to be (R456, R458). -/
def Chip.isNeg (c : Chip) (s : Nat) : Bool := (c.sess s).neg.isSome || (match (c.sess s).next with | some (some _) => true | _ => false)

/-- Whether a session is in use. -/
def Chip.inUse (c : Chip) (s : Nat) : Bool := (c.sess s).reserved || (c.sess s).isOpen

/-- ROM recovery (R440). -/
def Chip.recovering (c : Chip) : Bool := bit (c.reg 0 startBlk) 5

/-- Where a datagram goes: not mailbox traffic, discarded, or to a message of session `s`, 256 for a management host without one (R446, R450, R452). -/
inductive Route where
  | none
  | drop
  | to (s : Nat) (r : Req)
  deriving DecidableEq, Repr

/-- A message of a known peer or session. -/
def routeMsg (m : Dgram) (sig : Bool) (peer : Req → Option Nat) : Route :=
  match parseMsg m.body sig with
  | none => .drop
  | some r => match peer r with | some s => .to s r | none => .drop

/-- The route of a datagram (R440, R446, R452). -/
def Chip.route (c : Chip) (m : Dgram) (sig : Bool) : Route :=
  if c.recovering then (if m.dstUdp.toNat = 19289 then routeMsg m sig (fun r => if r.sess = 255 ∧ r.major = 1 then some 255 else none) else .none)
  else if !c.linkUp m.port then .none
  else if c.role m.port = 1 then
    match c.hostSess m with
    | none => .none
    | some s => if c.fromPeer s m then routeMsg m sig (fun _ => some s) else .drop
  else if c.role m.port = 2 ∧ m.dstUdp.toNat = 19290 then
    routeMsg m sig (fun r => if 4 ≤ r.sess ∧ r.sess < 8 ∧ c.inUse r.sess then (if c.fromPeer r.sess m then some r.sess else none) else some 256)
  else .none

/-! ### Serving -/

/-- What the catalogue says of a request (R465): its type, whether it is this command's among those of the type, the sessions that may send it, its body, its privilege. -/
structure ReqKind where
  ty : Nat
  mine : Bytes → Bool := fun _ => true
  part : Bool := false
  mgmt : Bool := false
  recov : Bool := false
  bodyOk : Bytes → Bool
  need : Chip → Nat → Bytes → Option Nat := fun _ _ _ => none

/-- Whether a session of this kind may send the request. -/
def ReqKind.from (k : ReqKind) (s : Nat) : Bool := if s < 4 then k.part else if s < 8 then k.mgmt else k.recov

/-- Whether a session holds a privilege (R452, R453); the ROM asks for none (R467). -/
def Chip.holds (c : Chip) (s : Nat) (p : Option Nat) : Bool :=
  match p with
  | none => true
  | some b => decide (4 ≤ s) || bit (c.sessRec s 5 1) b

/-- Whether the partition of a session may be served: started, in a device that runs (R433; log 54). -/
def Chip.partServed (c : Chip) (s : Nat) : Bool := match c.partOf s with | some p => (c.part p).started && !c.stopped | none => false

/-- The peer's addresses kept with a session, and the instant of its valid message (R452). -/
def Chip.notePeer (c : Chip) (s : Nat) (m : Dgram) : Chip :=
  c.modSess s (fun x => { x with lastNs := c.nowNs, mac := m.srcMac.toNat, ip := m.srcIp.toNat, udp := m.srcUdp.toNat, port := m.port })

/-- The cached reply sent again (R454). -/
def Chip.sendAgain (c : Chip) (s : Nat) : Chip :=
  let b := (c.sess s).cache
  if b.isEmpty then c else c.queueFrame (c.sessPort s) 2 (c.sessFrame s b)

/-- A request on session `s`: retry, sequence, form and privilege in this order, then what it does (R450, R453, R454; log 54). `act` gives status, reply body and the chip. -/
def Chip.serve (c : Chip) (s : Nat) (r : Req) (k : ReqKind) (act : Chip → Nat × Bytes × Chip) : Chip :=
  let x := c.sess s
  if x.live && r.seq == x.rx then c.sendAgain s
  else if x.live && r.seq != (x.rx + 1) % 2 ^ 32 then c.reply s r.seq 3 []
  else
    let c1 := c.modSess s (fun y => { y with rx := r.seq, live := true, cache := [] })
    if !hostTys.contains r.ty || !r.clean || !k.from s || (decide (s < 4) && r.sess != s) || !k.bodyOk r.body then c1.reply s r.seq 5 []
    else if !c1.holds s (k.need c1 s r.body) then c1.reply s r.seq 2 []
    else if s < 4 ∧ !c1.partServed s then c1.reply s r.seq 9 []
    else
      let a := act c1
      a.2.2.reply s r.seq a.1 a.2.1

/-- Whether a message is this command's occasion: of its type and kind, or of a type that no host may send. -/
def ReqKind.takes (k : ReqKind) (r : Req) : Bool := if r.ty = k.ty then k.mine r.body else !hostTys.contains r.ty

/-- Whether session `s` is open for requests: a negotiated partition session, an open management session, or the ROM's. -/
def Chip.sessOpen (c : Chip) (s : Nat) : Bool := if s < 4 then c.isNeg s else if s < 8 then (c.sess s).isOpen else s == 255

/-- A request's datagram: discarded, refused for want of a session, or served. -/
def Chip.request (c : Chip) (m : Dgram) (sig : Bool) (k : ReqKind) (act : Chip → Nat → Req → Nat × Bytes × Chip) : Chip :=
  match c.route m sig with
  | .none => c
  | .drop => c.mbDrop
  | .to s r =>
    if !k.takes r then c
    else
      let c1 := if s = 256 then c else c.notePeer s m
      if !c1.sessOpen s then c1.refuse m r 7 else c1.serve s r k (fun c => act c s r)

/-- Whether a body's bytes from `off` on, `n` of them, are zero. -/
def zeroAt (b : Bytes) (off n : Nat) : Bool := (slice b off n).all (· == 0#8)

/-! ### Sessions -/

/-- A trace subscription of session `s` ends (R486). -/
def Chip.endTrace (c : Chip) (s : Nat) : Chip :=
  if bit (c.reg 0 obsBlk) 0 && c.fld 0 obsBlk 3 1 == s then
    { c.setReg 0 obsBlk 0 with obs := { c.obs with ring := [], recSeq := c.obs.recSeq, lost := 0, subRef := 0 } }.setReg 0 obsBlk 0
  else c

/-- A transfer of session `s` abandoned (R467). -/
def Chip.endXfer (c : Chip) (s : Nat) : Chip :=
  match c.ses.xfer with
  | some x => if x.sess = s then { c with ses := { c.ses with xfer := none } }.setFld 0 (startBlk + 0x18) 1 0 0 else c
  | none => c

/-- A management session ends (R452, R467, R486). -/
def Chip.endSession (c : Chip) (s : Nat) : Chip := ((c.endTrace s).endXfer s).modSess s (fun _ => {})

/-- Whether the configuration has one session only (R456, R460). -/
def Chip.oneSession (c : Chip) : Bool := (c.cfgAll 0x0203).length == 1

/-- What a HELLO negotiates on session `s`, none where its major is not accepted (R456, R457). -/
def Chip.negotiate (c : Chip) (s : Nat) (r : Req) : Option Neg :=
  let feats := leAt r.body 0 4 &&& c.sessRec s 6 15
  if r.major = 3 then some ⟨3, min r.minor 1, feats &&& 0xF⟩
  else if r.major = 2 ∧ !c.oneSession ∧ c.sessRec s 7 2 = 2 then some ⟨2, min r.minor 4, feats &&& 0xC⟩
  else none

/-- HELLO_ACK (R458). -/
def Chip.helloAck (c : Chip) (s : Nat) (r : Req) (n : Neg) : Chip :=
  let p := (c.partOf s).getD 0
  let first := if c.turnState = 0 then 0 else c.turn + 1
  let body := toLE 1 n.major ++ toLE 1 n.minor ++ toLE 2 0 ++ toLE 4 n.feats ++ toLE 4 (c.sessRec s 5 1) ++ toLE 1 p ++ toLE 1 (b2n (c.isSafety p)) ++ toLE 6 0 ++ toLE 8 first
  let c1 := c.modSess s (fun x => { x with next := some (some n), tx := 0, rx := r.seq, live := true })
  let b := plainMsg { major := n.major, minor := n.minor, ty := 2, sess := s, flags := 1, seq := 0, ref := r.seq } body
  (c1.queueFrame (c1.sessPort s) 2 (c1.sessFrame s b)).modSess s (fun x => { x with tx := 1, cache := b })

/-- HELLO (R456, R458): any seq begins a negotiation; the same seq as the last HELLO's is a retry. -/
def Chip.hello (c : Chip) (m : Dgram) : Chip :=
  match c.route m false with
  | .none => c
  | .drop => c.mbDrop
  | .to s r =>
    if r.ty ≠ 1 then c
    else if 4 ≤ s then (if c.sessOpen s then (c.notePeer s m).serve s r { ty := 1, bodyOk := fun _ => false } (fun c => (0, [], c)) else c.refuse m r 7)
    else
      let x := c.sess s
      let say := fun (status : Nat) => if c.isNeg s then c.reply s r.seq status [] else c.refuse m r status
      if x.live && r.seq == x.rx && leAt x.cache 6 2 == 2 then c.sendAgain s
      else if !r.clean || r.sess != s || r.body.length != 16 || !zeroAt r.body 4 12 then say 5
      else if !c.partServed s then say 9
      else match c.negotiate s r with
        | none => say 1
        | some n => c.helloAck s r n

/-- The request of a BYE: a partition session's negotiation ends at the next boundary (R459, R460). -/
def Chip.byeReply (c : Chip) (m : Dgram) : Chip :=
  c.request m false { ty := 3, part := true, mgmt := true, bodyOk := fun b => b.isEmpty } (fun c s _ =>
    (0, [], if s < 4 then c.modSess s (fun x => { x with next := some none }) else c))

/-- BYE (R452, R459, R460): a management session that its BYE was accepted for ends at once. -/
def Chip.bye (c : Chip) (m : Dgram) : Chip :=
  let s := match c.route m false with | .to s _ => s | _ => 256
  let x := (c.byeReply m).sess s
  if 4 ≤ s && decide (s < 8) && x.rx != (c.sess s).rx && (c.sess s).isOpen && leAt x.cache 10 2 == 0 && !x.cache.isEmpty then (c.byeReply m).endSession s
  else c.byeReply m

/-- A nonce of 32 bytes. -/
def Chip.drawNonce (c : Chip) : Nat × Chip :=
  (List.range 4).foldl (fun (x : Nat × Chip) i => (x.1 + x.2.draw.1 % 2 ^ 64 * 2 ^ (64 * i), x.2.draw.2)) (0, c)

/-- MGMT_CHAL (R452): the session that it reserves, with a nonce. -/
def Chip.challenge (c : Chip) (m : Dgram) (r : Req) (s : Nat) : Chip :=
  let x := c.drawNonce
  let c1 := x.2.modSess s (fun _ => { reserved := true, nonce := x.1, lastNs := c.nowNs, mac := m.srcMac.toNat, ip := m.srcIp.toNat, udp := m.srcUdp.toNat, port := m.port, rx := r.seq,
                                      live := true })
  let t := c1.tell s 2 5 1 0 r.seq (toLE 1 s ++ toLE 3 0 ++ toLE 32 x.1)
  t.2.modSess s (fun y => { y with cache := t.1 })

/-- The session that a management host's datagram repeats, if its MGMT_OPEN was answered (R454). -/
def Chip.reopened (c : Chip) (m : Dgram) (r : Req) : Option Nat :=
  [4, 5, 6, 7].find? (fun s => (c.sess s).reserved && c.fromPeer s m && (c.sess s).rx == r.seq && leAt (c.sess s).cache 6 2 == 5)

/-- MGMT_OPEN (R452): the lowest free session is reserved. -/
def Chip.mgmtOpen (c : Chip) (m : Dgram) : Chip :=
  if c.recovering || !c.linkUp m.port || c.role m.port != 2 || m.dstUdp.toNat != 19290 then c
  else match parseMsg m.body false with
    | none => c.mbDrop
    | some r =>
      if r.ty ≠ 4 then c
      else match c.reopened m r with
        | some s => c.sendAgain s
        | none =>
          if !r.clean || !r.body.isEmpty then c.refuse m r 5
          else match [4, 5, 6, 7].find? (fun s => !c.inUse s) with
            | none => c.refuse m r 4
            | some s => c.challenge m r s

/-- Whether an owner key slot holds a key that is not revoked (R416, R417). -/
def Chip.slotGood (c : Chip) (k : Nat) : Bool := (tabGet [] c.nv.otp.keys k != []) && !bit c.nv.otp.revoked k

/-- MGMT_AUTH (R452): opens the reserved session; a failure leaves the reservation. -/
def Chip.mgmtAuth (c : Chip) (m : Dgram) (sig : Bool) : Chip :=
  let k : ReqKind := { ty := 6, mgmt := true, bodyOk := fun b => b.length == 36 && zeroAt b 1 3 }
  match c.route m sig with
  | .none => c
  | .drop => c.mbDrop
  | .to s r =>
    if !k.takes r then c
    else if s < 4 then (if c.isNeg s then (c.notePeer s m).serve s r k (fun c => (0, [], c)) else c.refuse m r 7)
    else if s = 256 ∨ s = 255 then c.refuse m r 7
    else (c.notePeer s m).serve s r k (fun c =>
      if (c.sess s).isOpen then (9, [], c)
      else if 3 < leAt r.body 0 1 then (10, [], c)
      else if !c.slotGood (leAt r.body 0 1) || leAt r.body 4 32 != (c.sess s).nonce then (8, [], c)
      else (0, [], c.modSess s (fun x => { x with isOpen := true })))

/-- MGMT_AUTH_TIMEOUT (R452): 5 s after the challenge the reservation lapses. -/
def Chip.authTimeout (c : Chip) (s : Nat) : Chip :=
  if !(c.sess s).reserved || (c.sess s).isOpen then c else (c.advanceTo ((c.sess s).lastNs + 5000000000)).endSession s

/-- MGMT_SESSION_TIMEOUT (R452): 60 s without a valid message. -/
def Chip.sessTimeout (c : Chip) (s : Nat) : Chip := if !(c.sess s).isOpen then c else (c.advanceTo ((c.sess s).lastNs + 60000000000)).endSession s

/-! ### Registers, faults, time, power over coax -/

/-- A word at a device address as a management session reads it (R28, R171): a register, or four bytes of memory; a die that is off reads zero, and an unlisted address and the drain
store, which only firmware and the debug port read, zero with a fabric error (log 148). -/
def Chip.mgmtWord (c : Chip) (ups : Upsets) (s a : Nat) : Nat × Chip :=
  let mem := fun (_ : Unit) => let r := c.read {} ups a 4; (fromLE r.2.1, r.1)
  match c.decode a with
  | .ctl d off => c.readReg (.mgmt ⟨(s - 4) % 4, Nat.mod_lt _ (by decide)⟩) d off
  | .ds _ _ _ => (0, c.setErr true)
  | .cb d _ _ => if c.dieOn d then mem () else (0, c)
  | .db d _ => if c.dieOn d then mem () else (0, c)
  | .ddr d _ => if c.dieOn d then mem () else (0, c)
  | .unlisted => (0, c.setErr true)

/-- Consecutive words from `a`. -/
def Chip.mgmtWords (c : Chip) (ups : Upsets) (s : Nat) : Nat → Nat → Bytes × Chip
  | 0, _ => ([], c)
  | n + 1, a =>
    let w := c.mgmtWord ups s a
    let rest := w.2.mgmtWords ups s n (a + 4)
    (toLE 4 w.1 ++ rest.1, rest.2)

/-- REG_READ (R465). -/
def Chip.regReadMsg (c : Chip) (m : Dgram) (ups : Upsets) : Chip :=
  c.request m false { ty := 0x21, mgmt := true, bodyOk := fun b => b.length == 16 && zeroAt b 10 6, need := fun _ _ _ => some 1 } (fun c s r =>
    let a := leAt r.body 0 8
    let n := leAt r.body 8 2
    if a % 4 != 0 || decide (2 ^ 48 < a + 4 * n) || !within n 1 256 then (10, [], c)
    else let x := (c.setErr false).mgmtWords ups s n a; (0, x.1, x.2))

/-- REG_WRITE (R465): a register of a control space. -/
def Chip.regWriteMsg (c : Chip) (m : Dgram) : Chip :=
  c.request m false { ty := 0x22, mgmt := true, bodyOk := fun b => b.length == 16 && zeroAt b 12 4, need := fun _ _ _ => some 6 } (fun c s r =>
    let a := leAt r.body 0 8
    match (if a % 4 = 0 ∧ a < 2 ^ 48 then c.decode a else .unlisted) with
    | .ctl d off => (0, [], c.writeReg (.mgmt ⟨(s - 4) % 4, Nat.mod_lt _ (by decide)⟩) d off (leAt r.body 8 4))
    | .unlisted => (10, [], c.setErr true)
    | _ => (10, [], c))

/-- The bits of a status register that raise line `b` cleared (R466, R541). -/
def Chip.clearSource (c : Chip) (b d off : Nat) : Chip :=
  let mine := (List.range 32).filter (fun i => lineBit d off i == some b)
  c.setReg d off (c.reg d off - (c.reg d off &&& maskOf mine))

/-- One bit of FAULT_CLEAR (R466): its sources, then the bit. -/
def Chip.faultClearBit (c : Chip) (b : Nat) : Chip :=
  (eachDo [b / 8, 0] (fun d c => eachDo (statusRegs d) (fun off c => c.clearSource b d off) c) c).clearBit b

/-- FAULT_CLEAR (R466): the reply names the bits of the mask that are clear. -/
def Chip.faultClearMsg (c : Chip) (m : Dgram) : Chip :=
  c.request m false { ty := 0x23, part := true, mgmt := true, bodyOk := fun b => b.length == 8, need := fun _ _ _ => some 2 } (fun c _ r =>
    let mask := leAt r.body 0 8
    let c1 := eachDo (bitList 64 mask) (fun b c => c.faultClearBit b) c
    (0, toLE 8 (mask - (mask &&& c1.fsw)), c1))

/-- TIME_STEP (R306). -/
def Chip.timeStepMsg (c : Chip) (m : Dgram) : Chip :=
  c.request m false { ty := 0x24, part := true, mgmt := true, bodyOk := fun b => b.length == 8, need := fun _ _ _ => some 3 } (fun c _ r =>
    let x := leAt r.body 0 8
    (0, [], { c with net := { c.net with steps := c.net.steps ++ [sext 64 x] } }.shav 2 1 0x0013 (x % 2 ^ 32) (x / 2 ^ 32) 0))

/-- POC_SWITCH (R264, R272): refused for a port of a SAFETY partition; power removed drops the images in progress as TRUNC. -/
def Chip.pocSwitchMsg (c : Chip) (m : Dgram) : Chip :=
  c.request m false { ty := 0x25, part := true, mgmt := true, bodyOk := fun b => b.length == 8 && zeroAt b 2 6, need := fun _ _ _ => some 6 } (fun c _ r =>
    let p := leAt r.body 0 1
    let on := leAt r.body 1 1
    let x := c.reg 0 (spBlk p)
    if 24 ≤ p ∨ 2 ≤ on then (10, [], c)
    else if c.sport p 1 0 != 0 && c.isSafety (c.sport p 2 0) then (6, [], c)
    else if c.sport p 1 0 != 1 || c.sport p 14 0 == 0 || bit x 7 || bit x 10 then (9, [], c)
    else
      let c1 := c.setFld 0 (spBlk p) 6 6 on
      (0, [], if on = 0 then (c1.dropPort p).modSp p (fun y => { y with high := 0, offNs := 0 }) else c1))

/-! ### Transfers -/

/-- UPD_STATE[1:0]: 0 idle, 1 staging, 2 writing, 3 written (R445). -/
def Chip.updState (c : Chip) (v : Nat) : Chip := c.setFld 0 (startBlk + 0x18) 1 0 v

/-- A step of an update in the shavings ring (R443). -/
def Chip.updTrace (c : Chip) (kind step result : Nat) : Chip := c.shav 0 1 0x0020 kind step result

/-- XFER_BEGIN (R439, R467). -/
def Chip.xferBegin (c : Chip) (m : Dgram) : Chip :=
  c.request m false { ty := 0x30, mgmt := true, recov := true, bodyOk := fun b => b.length == 8 && zeroAt b 1 3, need := fun _ _ _ => some 4 } (fun c s r =>
    let k := leAt r.body 0 1
    let total := leAt r.body 4 4
    let top := if k = 1 then 0xC00000 else if k = 2 then 0x200000 else 0x800000
    if c.ses.xfer.isSome || c.boot.staged.isSome then (4, [], c)
    else if !within k 1 (if s = 255 then 2 else 3) || !within total 1 top then (10, [], c)
    else
      let c1 := { c with ses := { c.ses with xfer := some { sess := s, kind := k, total := total } } }
      (0, [], ((c1.updState 1).setFld 0 (startBlk + 0x18) 3 2 (b2n (k == 2))).updTrace k 0 0))

/-- XFER_DATA (R467): offsets run on from 0. -/
def Chip.xferData (c : Chip) (m : Dgram) : Chip :=
  c.request m false { ty := 0x31, mgmt := true, recov := true, bodyOk := fun b => within b.length 72 1032 && zeroAt b 4 4, need := fun _ _ _ => some 4 } (fun c s r =>
    match c.ses.xfer with
    | none => (9, [], c)
    | some x =>
      let data := r.body.drop 8
      if x.sess ≠ s then (9, [], c)
      else if leAt r.body 0 4 ≠ x.data.length ∨ x.total < x.data.length + data.length then (10, [], c)
      else (0, [], { c with ses := { c.ses with xfer := some { x with data := x.data ++ data } } }))

/-- The version of the active package, 0 with none (R351, R354). -/
def Chip.pkgVersion (c : Chip) : Nat := if c.boot.pkgSlot = 0 then 0 else c.pkgField c.boot.pkgSlot 12 4

/-- The status of a finished transfer (R351, R417, R419, R426): 0, SIG or RANGE. -/
def Chip.xferStatus (c : Chip) (x : Xfer) (sig : Bool) : Nat :=
  if x.data.length ≠ x.total then 10
  else if !sig then 8
  else match x.kind with
    | 1 => 0
    | 2 => if (c.acceptCfg x.data true true).isSome then 0 else 10
    | _ => if c.pkgOk x.data true c.pkgVersion then 0 else 10

/-- XFER_END (R354, R439, R467): the image checked, and staged for FL0. -/
def Chip.xferEnd (c : Chip) (m : Dgram) (sig : Bool) : Chip :=
  c.request m false { ty := 0x32, mgmt := true, recov := true, bodyOk := fun b => b.isEmpty, need := fun _ _ _ => some 4 } (fun c s _ =>
    match c.ses.xfer with
    | none => (9, [], c)
    | some x =>
      if x.sess ≠ s then (9, [], c)
      else
        let st := c.xferStatus x sig
        let c1 := { c with ses := { c.ses with xfer := none } }
        if st = 0 then (0, [], ({ c1 with boot := { c1.boot with staged := some x } }.updState 2).updTrace x.kind 1 0)
        else (st, [], ((c1.updState 0).orReg 0 (startBlk + 0x18) 8).updTrace x.kind 1 st))

/-! ### Keys and records -/

/-- ATTEST (R420); the order and widths of its fields are log 55. -/
def Chip.attestBody (c : Chip) (nonce : Bytes) : Bytes :=
  let o := c.nv.otp
  nonce ++ toLE 16 o.deviceId ++ toLE 48 c.boot.fwHash ++ toLE 48 c.boot.cfgHash
    ++ (if c.boot.pkgSlot = 0 then toLE 8 0 else toLE 4 (c.pkgField c.boot.pkgSlot 8 4) ++ toLE 4 c.pkgVersion)
    ++ toLE 1 o.revoked ++ toLE 1 o.svnFw ++ toLE 1 o.svnCfg ++ toLE 1 (c.reg 0 (startBlk + 8)) ++ toLE 4 (c.reg 0 (startBlk + 0xC))

/-- ATTEST_REQ (R420): answered by a signed ATTEST, which is its cached reply. -/
def Chip.attest (c : Chip) (m : Dgram) : Chip :=
  let k : ReqKind := { ty := 0x33, mgmt := true, bodyOk := fun b => b.length == 32, need := fun _ _ _ => some 5 }
  match c.route m false with
  | .none => c
  | .drop => c.mbDrop
  | .to s r =>
    let x := c.sess s
    let good := decide (r.ty = 0x33) && decide (s < 8) && k.from s && c.sessOpen s && r.clean && k.bodyOk r.body && r.seq == (x.rx + 1) % 2 ^ 32
    if !good then c.request m false k (fun c _ _ => (0, [], c))
    else
      let c1 := (c.notePeer s m).modSess s (fun y => { y with rx := r.seq, live := true })
      let n := c1.nextSeq s
      let b := n.2.signedMsg { ty := 0x34, sess := s, flags := 1, seq := n.1, ref := r.seq } (c1.attestBody r.body)
      (b.2.queueFrame (b.2.sessPort s) 2 (b.2.sessFrame s b.1)).modSess s (fun y => { y with cache := b.1 })

/-- Owner key slot `i` revoked, and shown so in SEC_STATUS (R418, R436). -/
def Chip.revoke (c : Chip) (i : Nat) : Chip :=
  let r := c.nv.otp.revoked ||| 1 <<< i
  { c with nv := { c.nv with otp := { c.nv.otp with revoked := r } } }.setFld 0 (startBlk + 0x28) 7 4 r

/-- KEY_REVOKE (R418): a different slot signs, so an unrevoked slot always remains. -/
def Chip.keyRevoke (c : Chip) (m : Dgram) (sig : Bool) : Chip :=
  c.request m sig { ty := 0x35, mgmt := true, bodyOk := fun b => b.length == 36 && zeroAt b 2 2, need := fun _ _ _ => some 5 } (fun c s r =>
    let rev := leAt r.body 0 1
    let by_ := leAt r.body 1 1
    if 3 < rev ∨ 3 < by_ ∨ rev = by_ then (10, [], c)
    else if !c.slotGood by_ || leAt r.body 4 32 != (c.sess s).nonce then (8, [], c)
    else (0, [], c.revoke rev))

/-- RECORD_ACK (R393): the record's slot may be erased. -/
def Chip.recordAck (c : Chip) (m : Dgram) : Chip :=
  c.request m false { ty := 0x36, mgmt := true, bodyOk := fun b => b.length == 4, need := fun _ _ _ => some 5 } (fun c _ r =>
    let hit := fun (i : Nat) => let x := flashRead c.nv.fl0 (0xE50000 + 256 * i) 256; leAt x 0 4 == 0x5246594B && leAt x 140 4 == leAt r.body 0 4
    match (List.range 64).find? hit with
    | none => (10, [], c)
    | some i => (0, [], { c with nv := { c.nv with acked := tabSet false c.nv.acked i true } }))

/-! ### Commands -/

/-- HELLO. -/
def execHello (m : Dgram) (s : State) : Host.Outcome State Fault Refusal := .next { s with chip := s.chip.onPort m.port (·.hello m) }
/-- BYE. -/
def execBye (m : Dgram) (s : State) : Host.Outcome State Fault Refusal := .next { s with chip := s.chip.onPort m.port (·.bye m) }
/-- MGMT_OPEN. -/
def execMgmtOpen (m : Dgram) (s : State) : Host.Outcome State Fault Refusal := .next { s with chip := s.chip.onPort m.port (·.mgmtOpen m) }
/-- MGMT_AUTH. -/
def execMgmtAuth (m : Dgram) (sigOk : Bool) (s : State) : Host.Outcome State Fault Refusal := .next { s with chip := s.chip.onPort m.port (·.mgmtAuth m sigOk) }
/-- MGMT_AUTH_TIMEOUT. -/
def execMgmtAuthTimeout (ms : MSess) (s : State) : Host.Outcome State Fault Refusal := .next { s with chip := s.chip.awake (·.authTimeout (4 + ms)) }
/-- MGMT_SESSION_TIMEOUT. -/
def execMgmtSessionTimeout (ms : MSess) (s : State) : Host.Outcome State Fault Refusal := .next { s with chip := s.chip.awake (·.sessTimeout (4 + ms)) }
/-- REG_READ. -/
def execRegRead (m : Dgram) (ups : Upsets) (s : State) : Host.Outcome State Fault Refusal := .next { s with chip := s.chip.onPort m.port (·.regReadMsg m ups) }
/-- REG_WRITE. -/
def execRegWrite (m : Dgram) (s : State) : Host.Outcome State Fault Refusal := .next { s with chip := s.chip.onPort m.port (·.regWriteMsg m) }
/-- FAULT_CLEAR. -/
def execFaultClear (m : Dgram) (s : State) : Host.Outcome State Fault Refusal := .next { s with chip := s.chip.onPort m.port (·.faultClearMsg m) }
/-- TIME_STEP. -/
def execTimeStep (m : Dgram) (s : State) : Host.Outcome State Fault Refusal := .next { s with chip := s.chip.onPort m.port (·.timeStepMsg m) }
/-- POC_SWITCH. -/
def execPocSwitch (m : Dgram) (s : State) : Host.Outcome State Fault Refusal := .next { s with chip := s.chip.onPort m.port (·.pocSwitchMsg m) }
/-- XFER_BEGIN. -/
def execXferBegin (m : Dgram) (s : State) : Host.Outcome State Fault Refusal := .next { s with chip := s.chip.onPort m.port (·.xferBegin m) }
/-- XFER_DATA. -/
def execXferData (m : Dgram) (s : State) : Host.Outcome State Fault Refusal := .next { s with chip := s.chip.onPort m.port (·.xferData m) }
/-- XFER_END. -/
def execXferEnd (m : Dgram) (sigOk : Bool) (s : State) : Host.Outcome State Fault Refusal := .next { s with chip := s.chip.onPort m.port (·.xferEnd m sigOk) }
/-- ATTEST_REQ. -/
def execAttestReq (m : Dgram) (s : State) : Host.Outcome State Fault Refusal := .next { s with chip := s.chip.onPort m.port (·.attest m) }
/-- KEY_REVOKE. -/
def execKeyRevoke (m : Dgram) (sigOk : Bool) (s : State) : Host.Outcome State Fault Refusal := .next { s with chip := s.chip.onPort m.port (·.keyRevoke m sigOk) }
/-- RECORD_ACK. -/
def execRecordAck (m : Dgram) (s : State) : Host.Outcome State Fault Refusal := .next { s with chip := s.chip.onPort m.port (·.recordAck m) }

end Sys2Proof.Machine
end

