-- ==== Sys2Proof/Machine/Program.lean ====
section
/-! DEFINITION. Machine/Program.lean: program images (R436, R437) and the rules that reject a program at load against its partition's resources and the programs accepted before it
(R25–R27, R33, R38, R48, R49, R61, R66, R83, R113, R117, R127, R174, R175, R177, R179, R242, R260, R276, R323, R326, R360, R438, R510). -/
namespace Sys2Proof.Machine

/-- A task entry (R174) with its ranges as device addresses; a core-buffer range lies in the core buffer of its logical core's number. `own` is TB_OWNER. -/
structure TaskDef where
  die : Nat
  ent : Nat
  own : Nat
  cb : Nat
  cbN : Nat
  db : Nat
  dbN : Nat
  ddr : Nat
  ddrN : Nat
  budget : Nat := 0
  deriving DecidableEq, Repr

/-- A queue descriptor of a program: queue number and the descriptor (R48). -/
structure QDef where
  num : Nat
  x : Nat
  deriving DecidableEq, Repr

/-- A command list of a program: station number and descriptors. -/
structure LDef where
  st : Nat
  descs : List Nat
  deriving DecidableEq, Repr

/-- A program as one job runs it: tasks, queues, lists, weights by device address, window declarations (R436). -/
structure Prog where
  job : Nat
  part : Nat
  tasks : List TaskDef := []
  queues : List QDef := []
  lists : List LDef := []
  fills : List (Nat × Bytes) := []
  wins : List Nat := []
  deriving DecidableEq, Repr

/-! ### Places -/

/-- DDR5 that a partition owns, in record order, as device addresses and sizes: on one die, or for the HSD on every die (R175; log 51). -/
def Chip.ownDdr (c : Chip) (p d : Nat) : List (Nat × Nat) :=
  ((c.cfgAll 0x0202).filter (fun v => v.headD 0 == p && (d == 0 || v.getD 1 0 == d))).map (fun v => (dieBase (v.getD 1 0) + v.getD 2 0 * 1048576, v.getD 3 0 * 1048576))

/-- The address at an offset into ranges taken one after another. -/
def placeIn : List (Nat × Nat) → Nat → Option Nat
  | [], _ => none
  | r :: t, off => if off < r.2 then some (r.1 + off) else placeIn t (off - r.2)

/-- Whether `n` bytes at `a` lie inside ranges whose starts and sizes are whole MiB. -/
def coveredBy (rs : List (Nat × Nat)) (a n : Nat) : Bool :=
  n == 0 || (List.range ((a + n - 1) / 1048576 + 1 - a / 1048576)).all (fun i => rs.any (fun r => decide (r.1 ≤ (a / 1048576 + i) * 1048576 ∧ (a / 1048576 + i) * 1048576 < r.1 + r.2)))

/-- Whether `n` bytes at `a` meet a view or a ring (R260). -/
def Chip.onRing (c : Chip) (a n : Nat) : Bool :=
  c.ringList.any (fun s => match c.ringCfg s with
    | some g => !apart a n (g.entry 0) ((g.entries + 1) * g.stride) || !apart a n (dieBase g.die + g.view) g.stride
    | none => false)

/-! ### The image -/

/-- A chunk of a program image (R436). -/
structure Chunk where
  kind : Nat
  die : Nat
  idx : Nat
  data : Bytes
  dest : Nat
  reg : Nat
  deriving DecidableEq, Repr

/-- Chunk entry `i` of an image. -/
def chunkAt (img : Bytes) (i : Nat) : Option Chunk :=
  let e := slice img (64 + 32 * i) 32
  let off := leAt e 4 4
  let len := leAt e 8 4
  let k := leAt e 0 1
  if within k 1 6 && decide (leAt e 1 1 ≤ 7) && leAt e 3 1 == 0 && leAt e 24 8 == 0 && decide (64 + 32 * leAt img 20 2 ≤ off ∧ off + len + 96 ≤ img.length)
  then some ⟨k, leAt e 1 1, leAt e 2 1, slice img off len, leAt e 12 8, leAt e 20 4⟩ else none

/-- Header of a program image with its PROG record `v` (R417, R436). -/
def Chip.progHeadOk (c : Chip) (v : List Nat) (img : Bytes) : Bool :=
  let slot := leAt img 6 1
  leAt img 0 4 == 0x4750594B && leAt img 4 2 == 1 && decide (slot ≤ 3) && (tabGet [] c.nv.otp.keys slot != []) && !bit c.nv.otp.revoked slot && leAt img 7 1 == 0
    && leAt img 8 4 == img.length && leAt img 12 4 == v.getD 1 0 && within (leAt img 20 2) 1 4096 && (slice img 22 42).all (· == 0#8)

/-- A task entry of die `d` from its 64 bytes, with bases as offsets into the partition's ranges. -/
def Chip.taskFrom (c : Chip) (p d ent : Nat) (b : Bytes) : Option TaskDef :=
  let own := leAt b 0x30 4
  let cbN := leAt b 8 4
  let dbN := leAt b 0x18 4
  let ddrN := leAt b 0x28 8
  let ddr := placeIn (c.ownDdr p d) (leAt b 0x20 8)
  let zero := leAt b 0xC 4 == 0 && leAt b 0x1C 4 == 0 && leAt b 0x34 8 == 0 && leAt b 0x3C 4 == 0
  if b.length = 64 ∧ zero ∧ (ddrN = 0 ∨ ddr.isSome) then
    some ⟨d, ent, own, if cbN = 0 then 0 else dieBase d + cbBase (bits own 11 9) + leAt b 0 8, cbN, if dbN = 0 then 0 else dieBase d + dbBase + leAt b 0x10 8, dbN,
      if ddrN = 0 then 0 else ddr.getD 0, ddrN, 0⟩
  else none

/-- One chunk added to a program; local indices of queues and stations stay within their die (R25–R27). -/
def Chip.addChunk (c : Chip) (g : Prog) (k : Chunk) : Option Prog :=
  let n := k.data.length
  match k.kind with
  | 1 => if n % 16 = 0 ∧ k.dest + n / 16 ≤ 1024 then some { g with queues := g.queues ++ (List.range (n / 16)).map (fun i => ⟨k.die * 1024 + k.dest + i, leAt k.data (16 * i) 16⟩) } else none
  | 2 => if n % 64 = 0 then ((List.range (n / 64)).mapM (fun i => c.taskFrom g.part k.die (k.dest + i) (slice k.data (64 * i) 64))).map (fun ts => { g with tasks := g.tasks ++ ts })
      else none
  | 3 => if n % 64 = 0 ∧ k.dest = 0 ∧ k.idx < 128 then some { g with lists := g.lists ++ [⟨k.die * 128 + k.idx, (List.range (n / 64)).map (fun i => leAt k.data (64 * i) 64)⟩] } else none
  | 4 =>
    if n % 4 = 0 then
      some { g with tasks := g.tasks.map (fun t =>
        if t.die = k.die ∧ k.dest ≤ t.ent ∧ t.ent < k.dest + n / 4 then { t with budget := leAt k.data (4 * (t.ent - k.dest)) 4 } else t) }
    else none
  | 5 =>
    match ((c.cfgAll 0x0202).filter (fun v => v.headD 0 == g.part))[k.reg]? with
    | none => none
    | some v => if k.dest + n ≤ v.getD 3 0 * 1048576 then some { g with fills := g.fills ++ [(dieBase (v.getD 1 0) + v.getD 2 0 * 1048576 + k.dest, k.data)] } else none
  | _ => if n % 64 = 0 ∧ k.dest = 0 then some { g with wins := g.wins ++ (List.range (n / 64)).map (fun i => leAt k.data (64 * i) 64) } else none

/-- The program that an image holds for job `j` of partition `p`; budgets come after the tasks they belong to. -/
def Chip.parseProg (c : Chip) (v : List Nat) (j p : Nat) (img : Bytes) : Option Prog :=
  if !c.progHeadOk v img then none
  else match (List.range (leAt img 20 2)).mapM (chunkAt img) with
    | none => none
    | some ks => (ks.filter (·.kind != 4) ++ ks.filter (·.kind == 4)).foldlM (fun g k => c.addChunk g k) { job := j, part := p }

/-! ### Tasks -/

/-- Whether a station's number is present, may be named by a program and belongs to partition `p` (R25, R26, R31, R33). -/
def Chip.ownsStn (c : Chip) (p st : Nat) : Bool :=
  let d := st / 128
  let i := st % 128
  let pt := c.cfgBy 0x0201 p
  let rng := fun (n : Nat) => c.role n == 3 && bit (c.eport n 2 0) p
  if d = 0 then
    if i < 24 then c.sport i 1 0 == 1 && c.sport i 2 9 == p
    else if i < 32 then rng (i - 24)
    else if i < 34 then rng (i - 24)
    else if 40 ≤ i ∧ i < 64 then c.sport (i - 40) 1 0 == 2 && c.sport (i - 40) 2 9 == p
    else if i = 64 + p then true
    else (i == 72 || i == 73) && bit (pt 23 0) (i - 72)
  else if 8 ≤ d then false
  else if i < 32 then bit (pt 2 0) (8 * (d - 1) + i / 4)
  else if i = 96 then bit (pt 3 0) (d - 1)
  else i == 97 && (bits (pt 2 0) (8 * d - 1) (8 * d - 8) != 0 || pt (5 + d) 0 != 0)

/-- The station numbers that a task covers. -/
def TaskDef.stns (t : TaskDef) : List Nat :=
  if bit t.own 12 then [t.die * 128 + bits t.own 19 13] else (List.range 4).map (fun i => t.die * 128 + 4 * bits t.own 11 9 + i)

/-- Base and bound of a task for a region. -/
def TaskDef.range (t : TaskDef) (r : Nat) : Nat × Nat :=
  match r with
  | 0 => (t.cb, t.cbN)
  | 1 => (t.db, t.dbN)
  | 2 => (t.ddr, t.ddrN)
  | _ => (0, 0)

/-- The task of a program on a station (R49). -/
def Prog.taskOn (g : Prog) (st : Nat) : Option TaskDef := g.tasks.find? (fun t => t.stns.contains st)

/-- Bound of the program's task on a station, 0 without one. -/
def Prog.bound (g : Prog) (st r : Nat) : Nat := match g.taskOn st with | some t => (t.range r).2 | none => 0
/-- Base of the program's task on a station. -/
def Prog.base (g : Prog) (st r : Nat) : Nat := match g.taskOn st with | some t => (t.range r).1 | none => 0

/-- One task entry (R174, R175, R323, R326). -/
def Chip.taskOk (c : Chip) (g : Prog) (t : TaskDef) : Bool :=
  let core := !bit t.own 12
  let rel := c.cfgBy 0x0702 g.job 5 50
  let late := rel + t.budget + (if rel < c.cfg1 0x0701 3 0 then c.cfg1 0x0701 4 0 else 0)
  decide (t.ent < 256) && bit t.own 0 && bits t.own 6 1 == g.job && bits t.own 8 7 == g.part && decide (t.own < 2 ^ 20) && !(core && t.die == 0)
    && t.stns.all (c.ownsStn g.part) && !c.fenced t.die
    && (if core then t.cb % 256 == 0 && t.cbN % 256 == 0 && decide (t.cbN = 0 ∨ t.cb + t.cbN ≤ dieBase t.die + cbBase (bits t.own 11 9) + 0x3C0000) else t.cbN == 0)
    && t.db % 256 == 0 && t.dbN % 256 == 0 && decide (t.dbN = 0 ∨ t.db + t.dbN ≤ dieBase t.die + dbBase + (if t.die = 0 then 0x1000000 else 0x2000000))
    && t.ddr % 4096 == 0 && t.ddrN % 4096 == 0 && decide (t.ddrN < 2 ^ 35) && coveredBy (c.ownDdr g.part t.die) t.ddr t.ddrN
    && decide (late ≤ c.cfgBy 0x0702 g.job 6 0)

/-- The tasks of a program beside those accepted before (R49, R175): one entry and one task of a job for each place, and no range of two partitions overlaps. -/
def Chip.tasksOk (c : Chip) (acc : List Prog) (g : Prog) : Bool :=
  let old := acc.flatMap (·.tasks)
  g.tasks.all (c.taskOk g) && pairwise (fun a b => a.die != b.die || a.ent != b.ent) (g.tasks ++ old)
    && pairwise (· != ·) (g.tasks.flatMap (·.stns))
    && (acc.filter (fun o => o.part != g.part)).all (fun o => o.tasks.all (fun a => g.tasks.all (fun b => apart a.db a.dbN b.db b.dbN)))

/-! ### Queues -/

/-- Where a queue's slots lie (R49). -/
def Prog.qRange (g : Prog) (q : QDef) : Nat × Nat := (g.base (qCons q.x) (qRegion q.x) + qBase q.x, qDepth q.x * 2 ^ qLog2 q.x)

/-- Whether no fenced die lies on the way between two dies in R14's direction (R510). -/
def Chip.routeOk (c : Chip) (a b : Nat) : Bool :=
  !c.fenced a && !c.fenced b
    && (a == b || a == 0 || b == 0 || (if ringUp a b < 4 then c.ringClear a (ringUp a b) true else c.ringClear a (7 - ringUp a b) false))

/-- One queue descriptor (R27, R33, R48, R49, R260, R276, R360). -/
def Chip.queueOk (c : Chip) (g : Prog) (q : QDef) : Bool :=
  let x := q.x
  let d := q.num / 1024
  let cons := qCons x
  let r := g.qRange q
  decide (q.num % 1024 ≤ 1007) && qValid x && qPart x == g.part && within (qDepth x) 1 256 && within (qLog2 x) 8 20 && decide (qRegion x ≤ 2) && zeros x [(63, 45), (127, 104)]
    && qBase x % 256 == 0 && cons / 128 == d && c.ownsStn g.part cons && c.ownsStn g.part (qProd x)
    && (if d = 0 then qRegion x == 1 else true)
    && (if qRegion x = 0 then decide (cons % 128 < 32) && cons % 128 / 4 == qCore x && !qCarry x else qCore x == 0)
    && (qTurnOff x == 0 || qCarry x)
    && (g.taskOn cons).isSome && decide (qBase x + r.2 ≤ g.bound cons (qRegion x))
    && c.routeOk (qProd x / 128) d && !(qRegion x == 2 && c.onRing r.1 r.2)
    && !(stType cons == 8 && qProd x / 128 == 0) && !(stType cons == 9 && qTurnOff x == 0)

/-- The queues of a program beside those accepted before: numbers and slots apart, shares and the count of DDR5 queues kept (R34, R49). -/
def Chip.queuesOk (c : Chip) (acc : List Prog) (g : Prog) : Bool :=
  let old := acc.flatMap (fun o => o.queues.map (fun q => (o, q)))
  let mine := g.queues.map (fun q => (g, q))
  let all := old ++ mine
  g.queues.all (c.queueOk g)
    && pairwise (fun (a b : Prog × QDef) => a.2.num != b.2.num && apart (a.1.qRange a.2).1 (a.1.qRange a.2).2 (b.1.qRange b.2).1 (b.1.qRange b.2).2) all
    && (List.range 8).all (fun d =>
      let here := all.filter (fun x => x.2.num / 1024 == d)
      decide ((here.filter (fun x => qRegion x.2.x == 2)).length ≤ 64) && decide ((here.filter (fun x => x.1.part == g.part)).length ≤ c.cfgBy 0x0201 g.part (5 + d) 0))

/-! ### Commands -/

/-- The queue of a program with a number. -/
def Prog.queue (g : Prog) (n : Nat) : Option QDef := g.queues.find? (fun q => q.num == n)

/-- Whether window `w` of die `d` lies in the partition's allotment (R177). -/
def Chip.allotted (c : Chip) (p d w : Nat) : Bool :=
  let low := ((List.range p).map (fun o => c.cfgBy 0x0201 o (13 + d) 0)).foldl (· + ·) 0
  decide (low ≤ w ∧ w < low + c.cfgBy 0x0201 p (13 + d) 0)

/-- The queues that a command names: their ends, and what its station asks of them (R61, R83, R113, R117, R127, R242). -/
def queuesOf (g : Prog) (st d : Nat) : Bool :=
  let ins := (List.range (dNin d)).map (fun k => g.queue (dInQ d k))
  let outs := (List.range (dNout d)).map (fun k => g.queue (dOutQ d k))
  let all := ins ++ outs
  let q0 := ((ins.headD none).map (·.x)).getD 0
  let o0 := ((outs.headD none).map (·.x)).getD 0
  all.all (·.isSome) && ins.all (fun q => q.any (fun q => qCons q.x == st)) && outs.all (fun q => q.any (fun q => qProd q.x == st))
    && (match dType d with
      | 1 => qRegion q0 == 0 && qLog2 q0 == 13
      | 2 => decide (qRegion q0 ≤ 1) && decide (wfMinDepth d ≤ qDepth q0)
      | 5 => all.all (fun q => q.any (fun q => qRegion q.x != 0)) && decide (32 + 32 * bxKeepMax d ≤ 2 ^ qLog2 o0)
      | 6 => outs.all (fun q => q.any (fun q => qRegion q.x != 0))
      | 9 => decide (soLines d * soBytes d ≤ dTiles d * (2 ^ qLog2 q0 - 32))
      | _ => true)

/-- Windows and dies that a command reaches (R177, R260, R510). -/
def Chip.reachOk (c : Chip) (g : Prog) (st d : Nat) : Bool :=
  let die := st / 128
  let win := fun (e w : Nat) => c.allotted g.part e w && c.routeOk die e
  match dType d with
  | 4 =>
    let e := extent (dmDstOff d) (dstDims d)
    (dOp d == 3 || dmSrc d != 3 || win (rwDie (dmSrcOff d)) (rwWin (dmSrcOff d))) && (dOp d == 2 || dmDst d != 3 || win (rwDie (dmDstOff d)) (rwWin (dmDstOff d)))
      && !(dOp d == 1 && dmDst d == 2 && dmLen d != 0 && c.onRing (g.base st 2 + e.1.toNat) (e.2.toNat - e.1.toNat + dmLen d))
  | 6 =>
    if dOp d = 1 ∨ dOp d = 2 then win (xdPeer d) (xdWin d)
    else if dOp d = 0x10 then win die (xwWin d) && !(xwRegion d == 2 && c.onRing (g.base st 2 + xwOff d) (xwSize d))
    else if dOp d = 0x11 then win die (xwWin d)
    else (bitList 7 (xdMask d)).all (fun i => c.routeOk die (i + 1))
  | _ => true

/-- One descriptor of a program's list. -/
def Chip.descOk (c : Chip) (g : Prog) (st d : Nat) : Bool :=
  headOk (stType (if st / 128 ≠ 0 ∧ st % 128 < 32 then st + 32 else st)) d && progIds g.job d && paramsOk (g.bound st) (st / 128) (dType d) d && queuesOf g st d && c.reachOk g st d

/-- The commands of a program's list on a station. -/
def Prog.cmds (g : Prog) (st : Nat) : List Nat := (g.lists.filter (fun l => l.st == st)).flatMap (·.descs)

/-- Windows of one XD list (R179): an index is opened at most once and closed only after that. -/
def winOrder : List Nat → List Nat → Bool
  | _, [] => true
  | opened, d :: t =>
    if dOp d = 0x10 then !opened.contains (xwWin d) && winOrder (xwWin d :: opened) t
    else if dOp d = 0x11 then opened.contains (xwWin d) && winOrder opened t
    else winOrder opened t

/-- Whether two jobs can be launched in one turn (R360). -/
def Chip.meet (c : Chip) (j k : Nat) : Bool :=
  let g := Nat.gcd (c.cfgBy 0x0702 j 3 1) (c.cfgBy 0x0702 k 3 1)
  c.cfgBy 0x0702 j 4 0 % g == c.cfgBy 0x0702 k 4 0 % g

/-- The windows that a program opens, as die and index. -/
def Prog.opens (g : Prog) : List (Nat × Nat) :=
  g.wins.map (fun d => (0, xwWin d)) ++ g.lists.flatMap (fun l => (l.descs.filter (fun d => dType d == 6 && dOp d == 0x10)).map (fun d => (l.st / 128, xwWin d)))

/-- Where the windows lie that a program opens. -/
def Prog.winRanges (g : Prog) : List (Nat × Nat) :=
  let hsd := (g.tasks.filter (fun t => t.die == 0)).head?
  (g.wins.filterMap (fun d => hsd.map (fun t => ((t.range (xwRegion d)).1 + xwOff d, xwSize d))))
    ++ g.lists.flatMap (fun l => (l.descs.filter (fun d => dType d == 6 && dOp d == 0x10)).map (fun d => (g.base l.st (xwRegion d) + xwOff d, xwSize d)))

/-- The windows of a program beside those of the programs accepted before (R49, R177, R179, R180, R260). -/
def Chip.windowsOk (c : Chip) (acc : List Prog) (g : Prog) : Bool :=
  let hsd := (g.tasks.filter (fun t => t.die == 0)).head?
  let queues := (g :: acc).flatMap (fun o => o.queues.map o.qRange)
  let others := (acc.filter (fun o => c.meet o.job g.job)).flatMap (·.opens)
  g.wins.all (fun d => match hsd with
    | none => false
    | some t => headOk 6 d && dJob d == g.job && dOp d == 0x10 && c.allotted g.part 0 (xwWin d) && winParams (fun r => (t.range r).2) 0 d
        && !(xwRegion d == 2 && c.onRing (t.ddr + xwOff d) (xwSize d)))
    && pairwise (· != ·) g.opens && g.opens.all (fun w => !others.contains w)
    && g.winRanges.all (fun w => queues.all (fun q => apart w.1 w.2 q.1 q.2))
    && (acc.flatMap (·.winRanges)).all (fun w => g.queues.all (fun q => apart w.1 w.2 (g.qRange q).1 (g.qRange q).2))
    && g.lists.all (fun l => !isXd l.st || winOrder [] l.descs)

/-- Members of each collective match (R242). -/
def Prog.collOk (g : Prog) : Bool :=
  g.lists.all (fun l => !isXd l.st || (l.descs.filter isColl).all (fun d =>
    (xdMembers d).all (fun e =>
      match (g.cmds (e * 128 + 97)).filter (fun x => isColl x && xdColl x == xdColl d) with
      | [x] => dOp x == dOp d && xdMask x == xdMask d && dTiles x == dTiles d && xdElem x == xdElem d && xdPeer x == xdPeer d
      | _ => false)))

/-! ### EG and SO -/

/-- Staging bytes that a program's EG_MSG commands take in a turn (R360). -/
def Prog.stageBytes (g : Prog) : Nat :=
  sumOver (g.cmds (64 + g.part)) (fun d =>
    let l := dTiles d * 2 ^ qLog2 (((g.queue (dInQ d 0)).map (·.x)).getD 0)
    l + 80 * max 1 (cdiv l (max 1 (egMax d))))

/-- One cycle of the launch periods of a partition's jobs, in turns. -/
def Chip.cycle (c : Chip) (p : Nat) : Nat := (c.partJobs p).foldl (fun n j => Nat.lcm n (max 1 (c.cfgBy 0x0702 j 3 1))) 1

/-- The results of a partition (R360): message numbers, the largest frame and the staging area. -/
def Chip.resultsOk (c : Chip) (acc : List Prog) (g : Prog) : Bool :=
  let mine := acc.filter (fun o => o.part == g.part) ++ [g]
  let ids := fun (o : Prog) => (o.cmds (64 + o.part)).map egMsgId
  let port := c.sessRec (c.sessOf g.part) 1 0
  pairwise (· != ·) (ids g) && acc.all (fun o => o.part != g.part || !c.meet o.job g.job || (ids o).all (fun x => !(ids g).contains x))
    && (g.cmds (64 + g.part)).all (fun d => decide (32 + 16 + egMax d + 32 + 8 + 20 + 18 + 4 ≤ maxFrame port))
    && (List.range (c.cycle g.part)).all (fun t =>
      decide (sumOver (mine.filter (fun o => c.dueIn o.job t)) (·.stageBytes) + 96 + 4 * (c.partJobs g.part).length ≤ c.cfgBy 0x0903 g.part 1 256 * 1024))

/-- Whether the tiles of known payload sizes carry exactly what the SO_FRAMEs that take them send, as far as the sizes are known (R276; log 157). -/
def soExact : List Nat → List Nat → Bool
  | _, [] => true
  | sizes, d :: t => (decide (sizes.length < dTiles d) || (sizes.take (dTiles d)).sum == soLines d * soBytes d) && soExact (sizes.drop (dTiles d)) t

/-- Payload sizes of the tiles that programs put into a queue, where every producer states them: the DM_LOADs (R156). -/
def tileSizes (all : List Prog) (q : Nat) : List Nat :=
  let makers := all.flatMap (fun o => o.lists.flatMap (fun l => l.descs.filter (fun d => (List.range (dNout d)).any (fun k => dOutQ d k == q))))
  if makers.all (fun d => dType d == 4 && dOp d == 2) then makers.flatMap (fun d => List.replicate (dmCnt3 d) (dmLen d * dmCnt1 d * dmCnt2 d)) else []

/-- The frames of a source port carry what they say and, with their trailer lines, fit its rate in every turn (R276, R278). -/
def Chip.sourcesOk (c : Chip) (acc : List Prog) (g : Prog) : Bool :=
  (List.range 24).all (fun p =>
    let load := fun (o : Prog) => sumOver (o.cmds (40 + p)) (fun d => (soLines d * (soBytes d + 6) + 70) * 8)
    ((acc ++ [g]).all fun o => (((o.cmds (40 + p)).map (dInQ · 0)).eraseDups).all (fun q =>
      soExact (tileSizes (acc ++ [g]) q) ((o.cmds (40 + p)).filter (fun d => dInQ d 0 == q))))
    && (load g == 0 || (List.range (c.cycle g.part)).all (fun t =>
      decide (sumOver ((acc ++ [g]).filter (fun o => o.part == g.part && c.dueIn o.job t)) load * 1000000 ≤ gearRate (c.sport p 3 1) * 1000000 * c.periodUs))))

/-! ### The program -/

/-- The lists of a program (R38, R66): one a station, 1–4,096 descriptors, of a station that it owns and has a task on. -/
def Chip.listsOk (c : Chip) (g : Prog) : Bool :=
  pairwise (fun (a b : LDef) => a.st != b.st) g.lists
    && g.lists.all (fun l => c.ownsStn g.part l.st && !c.fenced (l.st / 128) && (g.taskOn l.st).isSome && within l.descs.length 1 4096 && l.descs.all (c.descOk g l.st))
    && ((List.range 8).drop 1).all (fun d => (List.range 8).all (fun l => coreOk (g.cmds (d * 128 + 4 * l)) (g.cmds (d * 128 + 4 * l + 1)) (g.cmds (d * 128 + 4 * l + 2))))

/-- The jobs of a list whose launches fall into turn `t`, by each one's weight, where that can matter at most `top` in every turn; jobs repeat after the least common multiple of their
periods (R35). -/
def Chip.everyTurn (c : Chip) (l : List (Nat × Nat)) (top : Nat) : Bool :=
  decide (sumOver l (·.2) ≤ top)
    || (List.range (l.foldl (fun n x => Nat.lcm n (max 1 (c.cfgBy 0x0702 x.1 3 1))) 1)).all (fun t => decide (sumOver (l.filter (fun x => c.dueIn x.1 t)) (·.2) ≤ top))

/-- At most 8 tasks per logical core and turn (R35; log 150), and at most 4,096 descriptors in a station's list of a turn (R66). -/
def Chip.turnsOk (c : Chip) (acc : List Prog) (g : Prog) : Bool :=
  let all := acc ++ [g]
  g.tasks.all (fun t => bit t.own 12 || c.everyTurn (all.flatMap (fun o =>
      (o.tasks.filter (fun u => u.die == t.die && !bit u.own 12 && bits u.own 11 9 == bits t.own 11 9)).map (fun _ => (o.job, 1)))) 8)
    && g.lists.all (fun l => c.everyTurn (all.flatMap (fun o =>
      (o.lists.filter (fun x => x.st == l.st && (!isXd l.st || o.part == g.part))).map (fun x => (o.job, x.descs.length)))) 4096)

/-- The SAFETY row of R219: a SAFETY partition whose tasks use a die's DDR5 has bandwidth reserved there. -/
def Chip.safetyOk (c : Chip) (g : Prog) : Bool :=
  !c.isSafety g.part || g.tasks.all (fun t => t.ddrN == 0
    || sumRec ((c.cfgAll 0x0202).filter (fun v => v.headD 0 == g.part && v.getD 1 0 == t.ddr >>> 44)) (·.getD 4 0) != 0)

/-- Every rule that rejects a program at load, given the programs accepted before it (R438). -/
def Chip.progOk (c : Chip) (acc : List Prog) (g : Prog) : Bool :=
  c.tasksOk acc g && c.queuesOk acc g && c.listsOk g && c.windowsOk acc g && g.collOk && c.resultsOk acc g && c.sourcesOk acc g
    && c.turnsOk acc g && c.safetyOk g

end Sys2Proof.Machine
end

