-- ==== Sys2Proof/Machine/Observe.lean ====
section
/-! DEFINITION. Machine/Observe.lean: reading counters (R481, R482), command-record tracing (R484–R486) and tensor dumps (R487–R489). -/
namespace Sys2Proof.Machine

/-! ### COUNTER_READ -/

/-- The words of a counter block from offset `o` on, sampled at once (R475, R481). -/
def Chip.counterWords (c : Chip) (d i o n : Nat) : Bytes := (List.range n).flatMap (fun w => toLE 4 (c.regVal d (cntBlk i + o + 4 * w)))

/-- The physical local index that a request names: an index below 32 of a compute die is a logical core's station (R25, R482). -/
def Chip.cntIndex (c : Chip) (d i : Nat) : Nat := if d ≠ 0 ∧ i < 32 then stIdx (c.physStn (d * 128 + i)) else i

/-- A COUNTER_READ body (R481): 24 bytes with its reserved bytes zero. -/
def cntBody (b : Bytes) : Bool := b.length == 24 && zeroAt b 15 1 && zeroAt b 20 4 && (decide (leAt b 0 1 ≤ 3) || leAt b 1 1 == 0)

/-- Whether a body is of kind `k`; one of no kind is refused by whichever command brings it. -/
def cntKind (k : Nat) (b : Bytes) : Bool := leAt b 0 1 == k || !within (leAt b 0 1) 1 5

/-- Partition of a partition session. -/
def Chip.sessPart (c : Chip) (s : Nat) : Nat := if s < 4 then (c.partOf s).getD 4 else 4

/-- Privilege for a station's counters (R482): READ for a program-visible station that the session's partition owns; the XD is shared, not owned (R31). -/
def Chip.stnNeed (c : Chip) (s : Nat) (b : Bytes) : Option Nat :=
  let d := leAt b 1 1
  let i := leAt b 2 1
  some (if s < 4 ∧ 1 ≤ d ∧ d ≤ 7 ∧ (i < 32 ∨ i = 96) ∧ c.ownsStn (c.sessPart s) (d * 128 + i) then 0 else 1)

/-- Kinds 1 and 2 (R481): `n` words from offset `o` of the station's block. -/
def Chip.counterRead (c : Chip) (m : Dgram) (k o n : Nat) : Chip :=
  c.request m false { ty := 0x20, mine := cntKind k, part := true, mgmt := true, bodyOk := cntBody, need := fun c s b => c.stnNeed s b } (fun c _ r =>
    let d := leAt r.body 1 1
    let i := c.cntIndex d (leAt r.body 2 1)
    if leAt r.body 0 1 ≠ k ∨ 7 < d ∨ 127 < leAt r.body 2 1 ∨ stType (d * 128 + i) = 0 then (10, [], c) else (0, c.counterWords d i o n, c))

/-- The newest turn whose always-on records are composed (R477). -/
def Chip.newestAo (c : Chip) : Nat := c.turn - 1

/-- The always-on record of unit `u` for turn `t`, none when it is not in the ring. -/
def Chip.aoRecord (c : Chip) (t u : Nat) : Option Bytes :=
  let b := tabGet [] c.obs.ao (aoKey t u)
  if !b.isEmpty && leAt b 0 8 == t then some b else none

/-- COUNTER_READ kind 3 (R477, R481, R482). -/
def Chip.counterAo (c : Chip) (m : Dgram) : Chip :=
  c.request m false { ty := 0x20, mine := cntKind 3, part := true, mgmt := true, bodyOk := cntBody,
                      need := fun c s b => some (if s < 4 ∧ leAt b 1 1 = 8 + c.sessPart s then 0 else 1) } (fun c _ r =>
    let u := leAt r.body 1 1
    let n := leAt r.body 3 1
    let first := if leAt r.body 4 8 = 0 then c.newestAo else leAt r.body 4 8
    if leAt r.body 0 1 ≠ 3 ∨ 11 < u ∨ !within n 1 16 then (10, [], c)
    else match (List.range n).mapM (fun i => c.aoRecord (first + i) u) with
      | some l => (0, l.flatMap id, c)
      | none => (10, [], c))

/-! ### Tracing -/

/-- The rings empty, for a subscription that answers the request `ref` (R485, R486). -/
def Chip.freshTrace (c : Chip) (ref : Nat) : Chip := { c with obs := { c.obs with ring := [], lost := 0, subRef := ref } }

/-- The subscription of session `s` begins with its filter and layer range (R486, R494). -/
def Chip.startTrace (c : Chip) (s filter layers ref : Nat) : Chip :=
  let c1 := (((c.setReg 0 obsBlk (1 + s <<< 1)).setReg 0 (obsBlk + 4) filter).setReg 0 (obsBlk + 8) layers).setReg 0 (obsBlk + 0xC) 0
  (eachDo ((List.range 8).drop 1) (fun d c => c.setReg d obsBlk 0) c1).freshTrace ref

/-- COUNTER_READ kind 4 (R482, R484, R486): the one subscription of the device. -/
def Chip.traceSubscribe (c : Chip) (m : Dgram) : Chip :=
  c.request m false { ty := 0x20, mine := cntKind 4, part := true, mgmt := true, bodyOk := cntBody,
                      need := fun c s b => some (if s < 4 ∧ leAt b 12 1 = 1 <<< c.sessPart s then 0 else 1) } (fun c s r =>
    let mask := leAt r.body 12 1
    let job := leAt r.body 13 1
    let dies := leAt r.body 14 1
    if leAt r.body 0 1 ≠ 4 ∨ 15 < mask ∨ (63 < job ∧ job ≠ 255) ∨ 127 < dies then (10, [], c)
    else if bit (c.reg 0 obsBlk) 0 then (4, [], c)
    else (0, [], c.startTrace s (mask + job <<< 4 + dies <<< 12) (leAt r.body 16 4) r.seq))

/-- COUNTER_READ kind 5 (R486). -/
def Chip.traceStop (c : Chip) (m : Dgram) : Chip :=
  c.request m false { ty := 0x20, mine := cntKind 5, part := true, mgmt := true, bodyOk := cntBody, need := fun _ _ _ => some 0 } (fun c s r =>
    if leAt r.body 0 1 ≠ 5 then (10, [], c)
    else if bit (c.reg 0 obsBlk) 0 && c.fld 0 obsBlk 3 1 == s then (0, [], c.endTrace s)
    else (9, [], c))

/-- Up to `n` records, at most `room d` of die `d`, die by die in ring order, and what is left. -/
def takeRecords (room : Nat → Nat) : Nat → Tab (List Bytes) → List Bytes × Tab (List Bytes)
  | _, [] => ([], [])
  | n, (d, l) :: t =>
    let k := min n (room d)
    let rest := takeRecords room (n - min k l.length) t
    (l.take k ++ rest.1, if l.length ≤ k then rest.2 else (d, l.drop k) :: rest.2)

/-- The reads of the records that left the rings `old`, of which `new` is left (R485). -/
def Chip.noteSent (c : Chip) (old new : Tab (List Bytes)) : Chip :=
  eachDo old (fun e c => c.noteTraffic e.1 (e.2.length - (tabGet [] new e.1).length)) c

/-- TRACE_RECORDS_SEND (R485, R486): the next records of the subscription, through TQ3, as far as the traffic limit lets them be read. -/
def Chip.traceSend (c : Chip) : Chip :=
  let x := takeRecords c.traceRoom 48 c.obs.ring
  if !bit (c.reg 0 obsBlk) 0 || x.1.isEmpty then c
  else
    let body := toLE 4 x.1.length ++ toLE 4 (min 0xFFFFFFFF c.obs.lost) ++ x.1.flatMap id
    let c1 := (c.tell (c.fld 0 obsBlk 3 1) 3 7 3 0 c.obs.subRef body).2
    (({ c1 with obs := { c1.obs with ring := x.2, lost := 0 } }).noteSent c.obs.ring x.2).addReg 0 (obsBlk + 0xC) x.1.length

/-! ### Dumps -/

/-- DUMP_REQ (R487). -/
def Chip.dumpReq (c : Chip) (m : Dgram) : Chip :=
  c.request m false { ty := 0x26, part := true, bodyOk := fun b => b.length == 24 && zeroAt b 6 2 && zeroAt b 20 4, need := fun _ _ _ => some 6 } (fun c s r =>
    let p := c.sessPart s
    let job := leAt r.body 5 1
    let turn := leAt r.body 8 8
    let kib := leAt r.body 16 4
    if c.isSafety p then (6, [], c)
    else if c.cfgBy 0x0201 p 22 0 = 0 then (9, [], c)
    else if !within turn (c.turn + 2) (c.turn + 1000) || !c.jobOf job p || !c.dueIn job turn || !within kib 64 16384 then (10, [], c)
    else if c.obs.dumps.any (fun x => x.part == p) then (4, [], c)
    else
      let x : Dump := { part := p, turn := turn, limit := kib * 1024, sess := s, ref := r.seq, layer := leAt r.body 0 2, opId := leAt r.body 2 2, outIx := leAt r.body 4 1, job := job }
      (0, [], ({ c with obs := { c.obs with dumps := c.obs.dumps ++ [x] } }.setReg 0 (obsBlk + 0x14) (1 + p <<< 2)).setReg 0 (obsBlk + 0x18) (turn % 2 ^ 32)))

/-- The first die from `d` on that has copied bytes of partition `p` beyond `sent`, of the dies that are left. -/
def Chip.dumpDie (c : Chip) (p sent : Nat) : List Nat → Option (Nat × Nat)
  | [] => none
  | d :: t => if sent < (tabGet [] c.obs.dump (p * 8 + d)).length then some (d, sent) else c.dumpDie p 0 t

/-- The bytes of a dump's next message: die, offset and data; none when nothing is left. -/
def Chip.dumpNext (c : Chip) (x : Dump) : Option (Nat × Nat × Bytes) :=
  (c.dumpDie x.part x.sentBytes ((List.range 8).drop x.die)).map (fun y => (y.1, y.2, slice (tabGet [] c.obs.dump (x.part * 8 + y.1)) y.2 1536))

/-- DUMP_SEND (R489): the next message of the partition's dump, once the record of its turn is final; after the last the area is free. -/
def Chip.dumpSend (c : Chip) (p : Nat) : Chip :=
  match c.obs.dumps.find? (fun x => x.part == p) with
  | none => c
  | some x =>
    if !(decide (x.turn < c.turn) || (c.turn == x.turn && c.record x.turn p != 0)) then c
    else
      let n := c.dumpNext x
      let die := (n.map (·.1)).getD 0
      let off := (n.map (·.2.1)).getD 0
      let data := (n.map (·.2.2)).getD []
      let y := { x with die := if die = 0 then x.die else die, sentBytes := off + data.length }
      let last := (c.dumpNext y).isNone
      let held := c.gateOf x.turn p == 2
      let flags := b2n last + 2 * b2n x.trunc + 4 * b2n (n.isNone) + 8 * b2n held
      let c1 := (c.tell x.sess 3 7 3 0 x.ref (toLE 8 x.turn ++ toLE 4 off ++ toLE 1 flags ++ toLE 1 die ++ toLE 2 0 ++ data)).2
      if last then
        { c1 with obs := { c1.obs with dumps := c1.obs.dumps.filter (fun z => z.part != p), dump := tabKeep (fun k => decide (k / 8 ≠ p)) c1.obs.dump } }.setReg 0 (obsBlk + 0x14) 0
      else { c1 with obs := { c1.obs with dumps := c1.obs.dumps.map (fun (z : Dump) => if z.part = p then y else z) } }.setReg 0 (obsBlk + 0x14) (3 + p <<< 2)

/-! ### Commands -/

/-- COUNTER_READ_STATION. -/
def execCounterReadStation (m : Dgram) (s : State) : Host.Outcome State Fault Refusal := .next { s with chip := s.chip.onPort m.port (·.counterRead m 1 0 128) }
/-- COUNTER_READ_SHADOW. -/
def execCounterReadShadow (m : Dgram) (s : State) : Host.Outcome State Fault Refusal := .next { s with chip := s.chip.onPort m.port (·.counterRead m 2 0x100 32) }
/-- COUNTER_READ_ALWAYS_ON. -/
def execCounterReadAlwaysOn (m : Dgram) (s : State) : Host.Outcome State Fault Refusal := .next { s with chip := s.chip.onPort m.port (·.counterAo m) }
/-- TRACE_SUBSCRIBE. -/
def execTraceSubscribe (m : Dgram) (s : State) : Host.Outcome State Fault Refusal := .next { s with chip := s.chip.onPort m.port (·.traceSubscribe m) }
/-- TRACE_STOP. -/
def execTraceStop (m : Dgram) (s : State) : Host.Outcome State Fault Refusal := .next { s with chip := s.chip.onPort m.port (·.traceStop m) }
/-- TRACE_RECORDS_SEND. -/
def execTraceRecordsSend (s : State) : Host.Outcome State Fault Refusal := .next { s with chip := s.chip.awake (·.traceSend) }
/-- DUMP_REQ. -/
def execDumpReq (m : Dgram) (s : State) : Host.Outcome State Fault Refusal := .next { s with chip := s.chip.onPort m.port (·.dumpReq m) }
/-- DUMP_SEND. -/
def execDumpSend (p : Part) (s : State) : Host.Outcome State Fault Refusal := .next { s with chip := s.chip.awake (·.dumpSend p) }

end Sys2Proof.Machine
end

