-- ==== Sys2Proof/Machine/Start.lean ====
section
/-! DEFINITION. Machine/Start.lean: the start sequence up to step 10 (R430–R433): flash, firmware, lockstep pairs, links, configuration, DDR5, ports, findings and their classes,
startup self-test with its repairs, and the start report (R434). No time passes within a command (log 57). -/
namespace Sys2Proof.Machine

/-! ### Findings and the report -/

/-- A finding as classed: its report entry's fields and the class of its FSW bit, 0 for none (R432, R434). -/
structure Fnd where
  code : Nat
  unit : Nat := 0
  action : Nat := 0
  bit : Nat := 255
  cls : Nat := 0
  expected : Nat := 0
  measured : Nat := 0
  deriving DecidableEq, Repr

/-- A unit of an entry: die and port, core, subchannel, module or lockstep unit (R434). -/
def unitOf (d x : Nat) : Nat := d * 32 + x

/-- The start stops (R433). -/
def Chip.halt (c : Chip) : Chip := c.orReg 0 startBlk 0x10

/-- A finding in the report, the shavings ring and, where it has a class, the FSW; action 7 stops the start (R432, R434, R443). -/
def Chip.find (c : Chip) (x : Fnd) : Chip :=
  let e : RepEnt := ⟨x.code, x.unit, x.action, x.bit, x.expected % 2 ^ 32, x.measured % 2 ^ 32⟩
  let c1 := if c.boot.report.length < 128 then { c with boot := { c.boot with report := c.boot.report ++ [e] } } else c
  let c2 := c1.shav 2 2 0x0002 x.code x.unit x.action
  let c3 := if x.cls = 0 then c2
    else c2.rise { bit := x.bit, cause := 0x25, die := x.unit / 32, src := if x.unit / 32 = 0 then 0 else 14, cls := x.cls }
  if x.action = 7 then c3.halt else c3

/-- The start report (R434): `outcome` 0 turns started, 1 stopped. -/
def Chip.startReport (c : Chip) (outcome : Nat) : Bytes :=
  let es := c.boot.report
  let hppr := sumOver ((List.range 8).drop 1) (fun d => c.fld d (ddrBlk 0 + 0x3C) 15 8 + c.fld d (ddrBlk 1 + 0x3C) 15 8)
  toLE 4 0x5253594B ++ toLE 2 es.length ++ toLE 1 outcome
    ++ toLE 1 (maskOf ((List.range 4).filter (fun p => (c.part p).started)) + 16 * maskOf ((List.range 4).filter c.hasPart))
    ++ toLE 4 (c.reg 0 (startBlk + 0xC)) ++ toLE 4 (c.reg 0 (startBlk + 0x14)) ++ toLE 2 (if outcome = 0 then c.fld 0 (startBlk + 4) 15 0 else 0xFFFF)
    ++ toLE 1 (c.fld 0 (startBlk + 8) 6 0) ++ toLE 1 (min 255 hppr) ++ toLE 12 0
    ++ es.flatMap (fun e => toLE 1 e.code ++ toLE 1 e.unit ++ toLE 1 e.action ++ toLE 1 e.fsw ++ toLE 4 e.expected ++ toLE 4 e.measured ++ toLE 4 0)

/-- The start report sent to every open management session and each started partition's session (R434). -/
def Chip.sendStartReport (c : Chip) (outcome : Nat) : Chip :=
  let b := c.startReport outcome
  let mgmt := [4, 5, 6, 7].filter (fun s => (c.sess s).isOpen)
  let parts := ((List.range 4).filter (fun p => c.hasPart p && (c.part p).started)).map c.sessOf
  eachDo (mgmt ++ parts) (fun s c => (c.tell s 2 0x12 0 0 0 b).2) c

/-- Step `n` completed: START_STATE and the shavings ring (R443, R445). -/
def Chip.stepDone (c : Chip) (n : Nat) : Chip :=
  (c.setFld 0 startBlk 3 0 n).shav (if n ≤ 3 then 10 else 2) 1 0x0001 n ((c.nowNs - c.boot.ns) / 1000000) 0

/-- Step `n` of the sequence, where nothing has stopped it. -/
def Chip.startStep (c : Chip) (n : Nat) (f : Chip → Chip) : Chip :=
  if c.stopped then c else let c1 := f c; if c1.stopped then c1 else c1.stepDone n

/-! ### Dies -/

/-- What was found at die `d`; a die without an entry is as it should be. -/
def dieFinds (f : Findings) (d : Nat) : Option DieFind := f.dies.find? (fun x => x.die.val + 1 == d)

/-- The compute dies. -/
def cdies : List Nat := [1, 2, 3, 4, 5, 6, 7]

/-- Die `d` fenced (R21, R445). -/
def Chip.fence (c : Chip) (d : Nat) : Chip := c.orReg 0 (startBlk + 8) (1 <<< (d - 1))

/-- Whether the CORE record lets the device start without die `d` (R428, R432). -/
def Chip.spareDie (c : Chip) (d : Nat) : Bool := c.cfgBy 0x0301 d 1 1 == 0

/-- The finding that fences die `d` (R432): a required die stops the start. -/
def Chip.findFence (c : Chip) (d : Nat) (x : Fnd) : Chip := (c.fence d).find { x with action := if c.spareDie d then 5 else 7 }

/-- DOM_ON (R502, R510, R512): every domain but those of fenced dies. -/
def Chip.domsOn (c : Chip) : Chip :=
  c.setReg 0 (pwrBlk + 8) (0x1F + maskOf ((cdies.filter (fun d => !c.fenced d)).flatMap (fun d => [2 + 3 * d, 3 + 3 * d, 4 + 3 * d])))

/-! ### Steps 2 and 3 -/

/-- OTP_STATE (R445). -/
def Chip.noteOtp (c : Chip) : Chip :=
  let o := c.nv.otp
  c.setReg 0 (startBlk + 0x28) (maskOf ((List.range 4).filter (fun k => tabGet [] o.keys k != [])) + (o.revoked % 16) <<< 4 + (o.svnFw % 128) <<< 8 + (o.svnCfg % 128) <<< 15)

/-- Step 2 (R422, R430): OTP, and FL0, which stops the start where it cannot be read or is too small. -/
def Chip.readRom (c : Chip) (f : Findings) : Chip :=
  let c1 := c.noteOtp
  if f.fl0.ok && decide (64 ≤ f.fl0.mib) then c1 else c1.find { code := 2, action := 7, bit := 6, expected := 64, measured := f.fl0.mib }

/-- Step 3 (R417, R419, R422, R430): the firmware image; without a good one the ROM enters recovery (R440). -/
def Chip.loadFw (c : Chip) (f : Findings) : Chip :=
  match f.fw with
  | none => c.orReg 0 startBlk 0x20
  | some w =>
    if w.svn.val < c.nv.otp.svnFw ∨ 0xC00000 < w.len then c.orReg 0 startBlk 0x20
    else
      let n := (c.nv.log.boots + 1) % 2 ^ 32
      let c1 := { c with nv := { c.nv with log := { c.nv.log with boots := n } },
                         boot := { c.boot with fwSvn := w.svn, fwHash := fromLE (sha384 (flashRead c.nv.fl0 0x10000 w.len)) } }
      (c1.setReg 0 (startBlk + 0xC) n).setReg 0 (startBlk + 0x10) w.version.toNat

/-- What the security core does at each start once its firmware runs (R393). -/
def Chip.startErase (c : Chip) : Chip := if c.stopped then c else c.eraseAhead

/-! ### Step 4 -/

/-- Copies of lockstep unit `u` in the repair record (R435). -/
def Chip.lostCopies (c : Chip) (u : Nat) : List Nat := (c.ecc.repair.filter (fun r => r.kind == 5 && r.unit == u)).map (·.index)

/-- The copies of unit `u` tested and paired (R391, R392, R398): broken copies are fenced, else the copy that the last verdict names. -/
def Chip.pairUp (c : Chip) (u mask : Nat) : Chip :=
  let v := tabGet 0 c.nv.verdicts u
  let found := bitList 3 mask
  let lost := if found.isEmpty ∧ 8 ≤ v then [v / 8 - 1] else found
  let c1 := eachDo lost (fun k c => c.addRepair ⟨5, u, u, 0xFF, k⟩) { c with nv := { c.nv with verdicts := tabSet 0 c.nv.verdicts u (v % 8) } }
  let off := c1.lostCopies u
  let good := ([0, 1, 2].filter (fun k => !off.contains k)).take 2
  c1.setReg 0 (lsUnit u) (good.getD 0 0 + good.getD 1 0 <<< 2 + maskOf off <<< 4 + b2n (good.length == 2 && good.contains 2) <<< 7 + (v % 8) <<< 8)

/-- Lanes of a module that the test finds failing in a direction and that no spare replaces yet (R228, R435). -/
def Chip.newLanes (c : Chip) (f : Findings) (d m rx : Nat) : List Nat :=
  let lanes := match dieFinds f d with | some x => (x.lanes.filter (fun (l : LaneFind) => l.mod.val == m && l.rx.val == rx)).map (fun (l : LaneFind) => l.lane.val) | none => []
  lanes.filter (fun l => !c.ecc.repair.any (fun r => r.kind == 4 && r.die == d && r.unit == m && r.spare % 2 == rx && r.index == l))

/-- Whether module `m` of die `d` is found down, at either end (R228, R246): it does not train, or has more than two failing lanes in a direction. -/
def Chip.downAt (c : Chip) (f : Findings) (d m : Nat) : Bool :=
  let own := fun (d m : Nat) => (match dieFinds f d with | some x => bit x.down.val m | none => false)
    || [0, 1].any (fun rx => decide (2 < c.sparesAt d m rx + (laneOrder (c.newLanes f d m rx)).length))
  own d m || (m != 0 && own (farDie d m) (farMod d m))

/-- The modules of die `d` trained (R228, R246): failing lanes replaced in ascending order, a module with more of them in a direction than spares down, both ends of such a module marked, and
XD_LANES written. -/
def Chip.trainDie (c : Chip) (f : Findings) (d : Nat) : Chip :=
  let fresh := fun (m rx : Nat) => c.newLanes f d m rx
  let down := (List.range 5).filter (fun m => c.downAt f d m)
  let c1 := eachDo ((List.range 5).filter (fun m => !down.contains m)) (fun m c => (c.replaceLanes d m 0 (fresh m 0)).replaceLanes d m 1 (fresh m 1)) c
  let c2 := eachDo down (fun m c => (c.setLink d m { c.link d m with down := true }).setLink (farDie d m) (farMod d m) { c.link (farDie d m) (farMod d m) with down := true }) c1
  let used := fun (e m : Nat) => min 3 (c2.sparesAt e m 0) + 4 * min 3 (c2.sparesAt e m 1)
  let c3 := c2.setReg d (xdBlk + 0x1C) (sumOver (List.range 5) (fun m => used d m <<< (4 * m)) + maskOf (down.map (· + 20)))
  c3.setReg 0 (xdBlkOf 0 d + 0x1C) (used 0 d + (b2n (down.contains 0)) <<< 20)

/-- Whether die `d` has lost its HSD link or both modules toward a neighbour (R228). -/
def Chip.cutOff (c : Chip) (d : Nat) : Bool :=
  let down := fun (m : Nat) => (c.link d m).down
  down 0 || (down 1 && down 2) || (down 3 && down 4)

/-- Step 4 (R228, R392, R430): links and lockstep pairs; a cut-off die and one without a Carver pair are fenced; without a Turner pair the start stops. -/
def Chip.powerUp (c : Chip) (f : Findings) : Chip :=
  let c1 := eachDo cdies (fun d c => (c.trainDie f d).pairUp d (match dieFinds f d with | some x => x.copies.val | none => 0)) (c.pairUp 0 f.turner)
  let c2 := eachDo cdies (fun d c => if c.cutOff d || decide (2 ≤ (c.lostCopies d).length) then c.fence d else c) c1
  if 2 ≤ (c2.lostCopies 0).length then c2.find { code := 7, action := 7, expected := 0, measured := maskOf (c2.lostCopies 0) } else c2.domsOn

/-! ### Steps 5 and 6 -/

/-- Bytes of the configuration image in FL0, none where its header is not one (R421, R423). -/
def Chip.cfgImage (c : Chip) : Option Bytes :=
  let h := flashRead c.nv.fl0 0xC10000 64
  let n := leAt h 8 4
  if leAt h 0 4 = 0x4943594B ∧ 160 ≤ n ∧ n ≤ 0x200000 then some (flashRead c.nv.fl0 0xC10000 n) else none

/-- An accepted configuration image in force: its records, hash, version and number (R422, R426). -/
def Chip.takeCfg (c : Chip) (b : Bytes) (rs : List Rec) : Chip :=
  { c with cfg := rs, boot := { c.boot with cfgHash := fromLE (sha384 (b.take (b.length - 96))), cfgSvn := leAt b 7 1 } }.setReg 0 (startBlk + 0x14) (leAt b 12 4)

/-- Step 5 (R422, R426, R430): the configuration image, and then FL1. -/
def Chip.loadCfg (c : Chip) (f : Findings) : Chip :=
  match c.cfgImage with
  | none => c.find { code := 0xF, action := 7, bit := 6 }
  | some b =>
    match c.acceptCfg b f.cfgSig f.keysOk with
    | none => c.find { code := 0xF, action := 7, bit := 6 }
    | some rs =>
      let c2 := c.takeCfg b rs
      let least := max 64 (c2.cfg1 0x0101 2 64)
      if f.fl1.ok && decide (least ≤ f.fl1.mib) then c2 else c2.find { code := 3, action := 7, bit := 6, expected := least, measured := f.fl1.mib }

/-- Step 6 (R303, R304, R312, R430): the TIME record, with src 0 adj at 0, and the first edges of the TS_OUT pins. -/
def Chip.startTime (c : Chip) : Chip :=
  let c1 := if c.timeRec 0 0 = 0 then (if c.tb.adj = 0 then c else c.newSegment c.nowF 0).setReg 0 (timeBlk + 0x0C) 0 |>.setTb 0 else c
  eachDo ((List.range 4).filter (fun n => c1.tsRec n 1 != 0)) (fun n c => { c with net := { c.net with tsOut := tabSet 0 c.net.tsOut n (c.edgeAfter n c.nowNs) } }) c1

/-! ### Step 7 -/

/-- Density code of the DDR record (R222). -/
def Chip.densCode (c : Chip) : Nat := (c.cfg1 0x0103 1 16 - 16) / 8

/-- Ranks and density code found at subchannel `s` of die `d` (R194). -/
def Chip.fitAt (c : Chip) (f : Findings) (d s : Nat) : Nat × Nat :=
  match (dieFinds f d).bind (fun x => x.fit.find? (fun y => y.1.val == s)) with
  | some x => (x.2.1.val, x.2.2.val)
  | none => (c.cfg1 0x0103 0 1, c.densCode)

/-- Whether subchannel `s` of die `d` fails training. -/
def untrainedAt (f : Findings) (d s : Nat) : Bool := match dieFinds f d with | some x => bit x.untrained.val s | none => false

/-- hPPR of a controller (R214): its first HARD row that is not yet repaired. -/
def Chip.hppr (c : Chip) (d s : Nat) : Chip :=
  let due := fun (r : RowEnt) => r.die == d && r.sub == s && r.hard && !r.fixed
  match c.ecc.rowList.find? due with
  | none => c
  | some r =>
    let c1 := { c with ecc := { c.ecc with rowList := c.ecc.rowList.map (fun x => if x = r then { x with fixed := true } else x) } }
    c1.setFld d (ddrBlk s + 0x3C) 15 8 1

/-- The SOFT rows that sPPR repairs, in list order: one a rank and bank group (R213). -/
def softRows : List Nat → List RowEnt → List RowEnt
  | _, [] => []
  | used, r :: t => if r.hard ∨ used.contains (r.row % 8) then softRows used t else r :: softRows (r.row % 8 :: used) t

/-- PPR of a controller (R212–R214, R222): rows repaired, each marked so, and listed rows left in service. -/
def Chip.ppr (c : Chip) (hard : Bool) (d s : Nat) : Chip :=
  let c1 := (if hard then c.hppr d s else c)
  let rows := c1.ecc.rowList.filter (fun r => r.die == d && r.sub == s && !(r.hard && r.fixed))
  let soft := softRows [] rows
  let n := soft.length
  let mark := fun (r : RowEnt) => if r.die == d && r.sub == s then { r with applied := r.fixed || soft.contains r } else r
  let c2 := { c1 with ecc := { c1.ecc with rowList := c1.ecc.rowList.map mark } }
  (c2.setFld d (ddrBlk s + 0x3C) 7 0 (min 255 n)).setFld d (ddrBlk s + 0x3C) 23 16 (min 255 (rows.length - n))

/-- Oscillator count at training of a rank (R210). -/
def oscAt (f : Findings) (d s r : Nat) : Nat := match dieFinds f d with | some x => (x.osc.getD (2 * s + r) 0).toNat | none => 0

/-- A controller trained (R194, R209, R210, R213, R214, R222). -/
def Chip.trainDdr (c : Chip) (f : Findings) (hard : Bool) (d s : Nat) : Chip :=
  let fit := c.fitAt f d s
  let o := ddrBlk s
  let c1 := c.setReg d o (fit.1 + fit.2 <<< 2 + (b2n !(untrainedAt f d s)) <<< 4)
  if untrainedAt f d s then c1
  else
    let c2 := c1.setReg d (o + 0x38) (oscAt f d s 0 + oscAt f d s 1 <<< 16)
    let osc := tabSet 0 (tabSet 0 c2.ecc.osc (4 * d + 2 * s) (oscAt f d s 0)) (4 * d + 2 * s + 1) (oscAt f d s 1)
    let rfm := match dieFinds f d with | some x => (x.rfm.1.toNat, x.rfm.2.toNat) | none => (0, 0)
    ({ c2 with ecc := { c2.ecc with osc := osc, rfm := tabSet (0, 0) c2.ecc.rfm d rfm } }).ppr hard d s

/-- Step 7 (R194, R196, R213, R214, R430): a die with a subchannel that fails training is fenced. -/
def Chip.startDdr (c : Chip) (f : Findings) (power : Bool) : Chip :=
  let hard := power && c.cfg1 0x0103 6 1 == 1
  eachDo (cdies.filter (fun d => !c.fenced d)) (fun d c =>
    let c1 := (c.trainDdr f hard d 0).trainDdr f hard d 1
    if untrainedAt f d 0 || untrainedAt f d 1 then c1.fence d else c1) c

/-! ### Step 8 -/

/-- What is known of a sensor port (R248, R273): link, the partner's highest gear, CSI-2 adaptation, virtual channels, the one-way delay in 2^−16 ns, length in cm, load in mA, script
acknowledged. -/
structure SpMeas where
  up : Bool
  gear : Nat
  csi : Bool
  vcs : Nat
  delay : Nat
  cm : Nat
  load : Nat
  script : Bool
  deriving DecidableEq, Repr

/-- The findings at a port, by SI index (R26). -/
def portFinds (f : Findings) (n : Nat) : Option PortFind := f.ports.find? (fun x => x.port.val == n)

/-- Virtual channels that a port's streams need. -/
def Chip.vcNeed (c : Chip) (p : Nat) : Nat := ((c.cfgAll 0x0402).filter (fun v => v.getD 1 0 == p)).foldl (fun n v => max n (v.getD 2 0 + 1)) 0

/-- Discovery at sensor port `p` (R248, R273): the cable length is cable_ns × vf_pct / 333.56 m; a partner that requires an option that R248 does not name fails it, and a port without an
entry is as its record expects. -/
def Chip.spMeas (c : Chip) (f : Findings) (p : Nat) : SpMeas :=
  let vf := c.sport p 8 70
  match portFinds f p with
  | some x =>
    let delay := (x.rtt - (1920 + c.sport p 12 0) * 65536) / 2
    ⟨x.up && !x.foreign, x.gear, x.csi, x.vcs, delay, delay * vf * 10000 / (33356 * 65536), x.load.toNat, x.script⟩
  | none => ⟨true, c.sport p 3 1, true, c.vcNeed p, c.sport p 6 0 * 33356 * 65536 / (10000 * max 1 vf), c.sport p 6 0, c.sport p 15 0, true⟩

/-- Whether a sink port supplies power over coax (R271). -/
def Chip.pocPort (c : Chip) (p : Nat) : Bool := c.sport p 1 0 == 1 && c.sport p 14 0 == 1

/-- A mismatch at a port (R274, R287): its row, and with miss_class 2 whether the port goes off and the class; expected and measured. -/
structure Miss where
  row : Nat
  off : Bool
  cls : Nat
  expected : Nat
  measured : Nat
  deriving DecidableEq, Repr

/-- The mismatches of sensor port `p` in the order of R274's rows. -/
def Chip.spMisses (c : Chip) (p : Nat) (m : SpMeas) : List Miss :=
  let gear := c.sport p 3 1
  let cm := c.sport p 6 0
  let tol := c.sport p 7 100
  let least := c.sport p 4 gear
  let when_ := fun (b : Bool) (x : Miss) => if b then [x] else []
  when_ (!m.up) ⟨1, true, 3, 1, 0⟩
    ++ when_ (m.up && decide (m.gear < gear)) ⟨2, decide (m.gear < least), if m.gear < least then 2 else 3, gear, m.gear⟩
    ++ when_ (m.up && (!m.csi || decide (m.vcs < c.vcNeed p))) ⟨3, true, 2, c.vcNeed p, m.vcs⟩
    ++ when_ (m.up && decide (cm + tol < m.cm ∨ m.cm + tol < cm)) ⟨4, false, 3, cm, m.cm⟩
    ++ when_ (c.pocPort p && decide (m.load < c.sport p 15 0 ∨ c.sport p 16 1023 < m.load)) ⟨5, true, 2, if m.load < c.sport p 15 0 then c.sport p 15 0 else c.sport p 16 1023, m.load⟩
    ++ when_ (m.up && c.sport p 21 0 != 0 && !m.script) ⟨6, true, 2, 1, 0⟩

/-- The I2C writes of a port's initialisation script (R273, R279). -/
def Chip.script (c : Chip) (p : Nat) : List (List Nat) := ((c.cfgAll 0x0404).drop (c.sport p 20 0)).take (c.sport p 21 0)

/-- Sensor port `p` brought up at the highest gear that both ends support, up to its record's, and its script sent (R250, R266, R271, R273, R281): retries used are kept where a reset keeps
them. -/
def Chip.bringSp (c : Chip) (f : Findings) (p : Nat) : Chip :=
  if c.sport p 1 0 = 0 then c
  else
    let m := c.spMeas f p
    let c1 := c.setReg 0 (spBlk p) (c.sport p 1 0 + (min m.gear (c.sport p 3 1) % 8) <<< 2 + (b2n m.up) <<< 5 + (b2n (c.pocPort p)) <<< 6 + c.fld 0 (spBlk p) 9 8 <<< 8)
    (c1.setReg 0 (spBlk p + 0x10) (min 0xFFFF m.cm + min 0xFFFF (10 * m.delay / 65536) <<< 16)).modSp p (fun x =>
      { x with delay := m.delay, i2c := if m.up then c.script p else [] })

/-- Link, cable result and length at Ethernet port `n` (R287). -/
def Chip.epMeas (c : Chip) (f : Findings) (n : Nat) : Bool × Nat × Nat :=
  match portFinds f (24 + n) with
  | some x => (x.up, x.cable.val, x.length.toNat)
  | none => (true, 0, c.eport n 13 0)

/-- The mismatches of Ethernet port `n` in the order of R287's rows. -/
def Chip.epMisses (c : Chip) (f : Findings) (n : Nat) : List Miss :=
  let m := c.epMeas f n
  let dm := c.eport n 13 0
  let tol := c.eport n 14 20
  if 8 ≤ n then (if m.1 then [] else [⟨4, true, 3, 1, 0⟩])
  else (if m.2.1 = 0 then [] else [⟨1, true, 2, 0, m.2.1⟩]) ++ (if m.1 then [] else [⟨2, true, 3, 1, 0⟩])
    ++ (if m.1 ∧ (dm + tol < m.2.2 ∨ m.2.2 + tol < dm) then [⟨3, false, 3, dm, m.2.2⟩] else [])

/-- Ethernet port `n` brought up (R287–R289, R317). -/
def Chip.bringEp (c : Chip) (f : Findings) (n : Nat) : Chip :=
  if c.role n = 0 then c
  else
    let m := c.epMeas f n
    let c1 := (c.setReg 0 (epBlk n) (c.role n + (if n < 8 then m.2.1 <<< 9 else 0))).setReg 0 (epBlk n + 0x10) (if n < 8 then m.2.2 else 0)
    if m.1 then c1.portUp n else c1

/-- Step 8 (R430). -/
def Chip.startPorts (c : Chip) (f : Findings) : Chip := eachDo (List.range 10) (fun n c => c.bringEp f n) (eachDo (List.range 24) (fun p c => c.bringSp f p) c)

/-! ### Step 9 -/

/-- What miss_class makes of a mismatch (R274, R287): action, class and whether the port goes off. -/
def Miss.act (x : Miss) (missClass : Nat) : Nat × Nat × Bool :=
  match missClass with
  | 0 => (7, 0, true)
  | 1 => (3, 2, true)
  | _ => (if x.off then 3 else 1, x.cls, x.off)

/-- A mismatch at sensor port `p`: SP_ERR_STATUS[3], and the port off (R274, R281). -/
def Chip.missSp (c : Chip) (p : Nat) (m : SpMeas) (x : Miss) : Chip :=
  let a := x.act (c.sport p 13 0)
  let c1 := c.spLatch p 0 0 (if x.row = 5 then m.load else 0) x.row
  let c2 := if a.1 = 7 then c1.raise 0 (spBlk p + 4) 3 0x25 else c1.orReg 0 (spBlk p + 4) 8
  let c3 := if a.2.2 then c2.setReg 0 (spBlk p) (c2.reg 0 (spBlk p) - (c2.reg 0 (spBlk p) &&& 0x60) ||| 0x400) else c2
  c3.find { code := 0xD, unit := unitOf 0 p, action := a.1, bit := 4, cls := a.2.1, expected := x.expected, measured := x.measured }

/-- A mismatch at Ethernet port `n`: EP_ERR_STATUS[3], and the port off (R287, R317); an MGMT port always has miss_class 0. -/
def Chip.missEp (c : Chip) (n : Nat) (x : Miss) : Chip :=
  let a := x.act (if c.role n = 2 then 0 else c.eport n 17 0)
  let c1 := c.epLatch n 0 0 x.row 0
  let c2 := if a.1 = 7 then c1.raise 0 (epBlk n + 4) 3 0x25 else c1.orReg 0 (epBlk n + 4) 8
  let c3 := if a.2.2 && a.1 != 7 then (c2.setFld 0 (epBlk n) 3 3 0).setFld 0 (epBlk n) 8 8 1 else c2
  c3.find { code := 0xE, unit := unitOf 0 n, action := a.1, bit := 5, cls := a.2.1, expected := x.expected, measured := x.measured }

/-- Nominal level of a rail in mV, by row of R515. -/
def railMv (row : Nat) : Nat := match row with | 1 => 1800 | 2 => 1800 | 4 => 1800 | 5 => 900 | 6 => 900 | 9 => 1100 | _ => 750

/-- Findings at the rails and flash parts (R432). -/
def Chip.findBoard (c : Chip) (f : Findings) : Chip :=
  let tol := c.cfg1 0x0101 3 3
  let bad := f.rails.filter (fun r => decide (railMv r.1 * tol < 100 * (r.2.toNat - railMv r.1) ∨ railMv r.1 * tol < 100 * (railMv r.1 - r.2.toNat)))
  let c1 := eachDo bad (fun r c => c.find { code := 1, unit := unitOf 0 r.1, action := 7, bit := 2, expected := railMv r.1, measured := r.2.toNat }) c
  let part := fun (code want have_ : Nat) (c : Chip) =>
    if want = 0 ∨ want = have_ then c else c.find { code := code, action := 7, bit := 6, expected := want, measured := have_ }
  part 3 (c.cfg1 0x0101 1 0) f.fl1.jedec.toNat (part 2 (c.cfg1 0x0101 0 0) f.fl0.jedec.toNat c1)

/-- Findings at die `d` of steps 4 and 7 (R432): links, lockstep copies, fitting, training, rows. -/
def Chip.findDie (c : Chip) (f : Findings) (d : Nat) : Chip :=
  let down := (List.range 5).filter (fun m => (c.link d m).down)
  let c1 := eachDo down (fun m c =>
    if c.cutOff d then c.findFence d { code := 6, unit := unitOf d m, bit := 8 * d + 4, cls := 2 } else c.find { code := 6, unit := unitOf d m, bit := 8 * d + 4 }) c
  let lost := c1.lostCopies d
  let c2 := if lost.isEmpty then c1
    else if 2 ≤ lost.length then c1.findFence d { code := 7, unit := unitOf d d, measured := maskOf lost }
    else c1.find { code := 7, unit := unitOf d d, measured := maskOf lost }
  if c2.cutOff d || decide (2 ≤ lost.length) then c2
  else
    let want := (c2.cfg1 0x0103 0 1, c2.densCode)
    let c3 := eachDo ([0, 1].filter (fun s => c2.fitAt f d s != want)) (fun s c =>
      let fit := c.fitAt f d s
      c.find { code := 4, unit := unitOf d s, action := 7, bit := 8 * d + 3, expected := want.1 + want.2 <<< 2, measured := fit.1 + fit.2 <<< 2 }) c2
    let c4 := eachDo ([0, 1].filter (fun s => untrainedAt f d s)) (fun s c => c.findFence d { code := 5, unit := unitOf d s, bit := 8 * d + 3, cls := 2, expected := 1 }) c3
    eachDo ([0, 1].filter (fun s => c4.fld d (ddrBlk s + 0x3C) 23 16 != 0)) (fun s c =>
      c.find { code := 0xC, unit := unitOf d s, action := 1, bit := 8 * d + 3, cls := 3, measured := c.fld d (ddrBlk s + 0x3C) 23 16 }) c4

/-- Whether partition `p` may start (R21, R287, R432): it owns nothing on a fenced die and its HOST port is on. -/
def Chip.canStart (c : Chip) (p : Nat) : Bool :=
  c.hasPart p && cdies.all (fun d => !c.fenced d || !c.ownsOn p d) && !bit (c.reg 0 (epBlk (c.sessRec (c.sessOf p) 1 0))) 8

/-- The start stops where no partition is left to start (R432). -/
def Chip.partsLeft (c : Chip) : Chip := if (List.range 4).any c.canStart then c else c.halt

/-- The findings at the ports in `sps` and `eps`. -/
def Chip.findPorts (c : Chip) (f : Findings) (sps eps : List Nat) : Chip :=
  let c1 := eachDo (sps.filter (fun p => c.sport p 1 0 != 0)) (fun p c => eachDo (c.spMisses p (c.spMeas f p)) (fun x c => c.missSp p (c.spMeas f p) x) c) c
  eachDo (eps.filter (fun n => c.role n != 0)) (fun n c => eachDo (c.epMisses f n) (fun x c => c.missEp n x) c) c1

/-- Step 9 (R430, R432): every finding compared with the image and classed. -/
def Chip.classAll (c : Chip) (f : Findings) : Chip :=
  let lost := c.lostCopies 0
  let c1 := if lost.isEmpty then c else c.find { code := 7, measured := maskOf lost }
  let c2 := eachDo cdies (fun d c => c.findDie f d) (c1.findBoard f)
  ((c2.findPorts f (List.range 24) (List.range 10)).domsOn).partsLeft

/-! ### Step 10 -/

/-- An SRAM row of a repair entry: its buffer's unit code and bank (R435). -/
def Repair.bank (r : Repair) : Nat × Nat × Nat := (r.die, r.unit, r.index / 65536)

/-- Repair entry of a failing row at die `d` (R435). -/
def rowRepair (d : Nat) (x : RowFind) : Repair :=
  let u := if x.buf.val = 0 then x.core.val else if x.buf.val = 1 then 16 + x.core.val else 47
  ⟨3, d, u, 0xFF, x.bank.val * 65536 + x.row.toNat⟩

/-- Each SRAM row's spare: its place among the rows of its bank, in the record's order (R166). -/
def spareRows : List Repair → List Repair → List Repair
  | _, [] => []
  | seen, r :: t =>
    let n := (seen.filter (fun x => x.bank == r.bank)).length
    (if r.kind = 3 ∧ n < 4 then { r with spare := n } else r) :: spareRows (if r.kind = 3 then r :: seen else seen) t

/-- Banks of die `d` with more failing rows than spares (R166), as buffer unit codes. -/
def Chip.brokenBufs (c : Chip) (d : Nat) : List Nat :=
  let rows := c.ecc.repair.filter (fun r => r.kind == 3 && r.die == d)
  ((rows.filter (fun r => decide (4 < (rows.filter (fun x => x.bank == r.bank)).length))).map (·.unit)).eraseDups

/-- Broken lanes of an array, from the record and the test (R104): ascending. -/
def Chip.brokenLanes (c : Chip) (dpus : List DpuFind) (d k a : Nat) : List Nat :=
  (List.range 64).filter (fun l => dpus.any (fun x => x.core.val == k && x.arr.val == a && x.lane.val == l)
    || c.ecc.repair.any (fun r => r.kind == 1 && r.die == d && r.unit == 4 * k + a && r.index == l))

/-- Spares of an array that work. -/
def goodSpares (dpus : List DpuFind) (k a : Nat) : List Nat := [0, 1].filter (fun s => !dpus.any (fun x => x.core.val == k && x.arr.val == a && x.lane.val == 64 + s))

/-- Whether an array cannot be repaired (R104). -/
def Chip.arrBroken (c : Chip) (dpus : List DpuFind) (d k a : Nat) : Bool :=
  dpus.any (fun x => x.core.val == k && x.arr.val == a && x.lane.val == 66) || decide ((goodSpares dpus k a).length < (c.brokenLanes dpus d k a).length)

/-- An array repaired (R104–R106, R435): DPU_MAP, the repair record and, where a spare is in use, a finding. -/
def Chip.repairArr (c : Chip) (dpus : List DpuFind) (d k a : Nat) : Chip :=
  let use := (c.brokenLanes dpus d k a).zip (goodSpares dpus k a)
  let half := use.foldl (fun n x => n + (x.1 + 64) <<< (8 * x.2)) 0
  let c1 := c.setFld d (mxBlk k + 0x20 + 4 * (a / 2)) (16 * (a % 2) + 15) (16 * (a % 2)) half
  let c2 := eachDo use (fun x c => c.addRepair ⟨1, d, 4 * k + a, x.2, x.1⟩) c1
  let fix := fun (r : Repair) => match use.find? (fun x => r.kind == 1 && r.die == d && r.unit == 4 * k + a && r.index == x.1) with
    | some x => { r with spare := x.2 }
    | none => r
  let c3 := { c2 with ecc := { c2.ecc with repair := c2.ecc.repair.map fix } }
  if use.isEmpty then c3 else c3.find { code := 0xB, unit := unitOf d k, measured := use.length }

/-- The broken cores of die `d` (R20, R104, R166, R435): by the structural test, the record, a broken buffer or an array beyond repair. -/
def Chip.brokenCores (c : Chip) (x : Option DieFind) (d : Nat) : List Nat :=
  let dpus := match x with | some x => x.dpus | none => []
  let mask := match x with | some x => x.cores.val | none => 0
  (List.range 9).filter (fun k => bit mask k || bit (c.reg d (tsBlk + 0xC)) (4 + k) || c.ecc.repair.any (fun r => r.kind == 2 && r.die == d && r.unit == k)
    || (c.brokenBufs d).contains k || (c.brokenBufs d).contains (16 + k) || (List.range 4).any (fun a => c.arrBroken dpus d k a))

/-- The core map of a die (R16, R20, R334, R340): of turn `t` with nine working cores, else the eight in ascending order. -/
def Chip.placeCores (c : Chip) (d t : Nat) (broken : List Nat) : Chip :=
  if broken.isEmpty then (c.setReg d (tsBlk + 0xC) 0).mapAt d t
  else
    let good := (List.range 9).filter (fun k => !broken.contains k)
    let c1 := c.setReg d (tsBlk + 0xC) (0xF + maskOf broken <<< 4 + 1 <<< 13)
    eachDo (good.zipIdx.take 8) (fun x c => c.setPhys d x.2 x.1) c1

/-- Self-test of one die (R20, R21, R104, R166, R432), whose map is that of turn `t`. -/
def Chip.testDie (c : Chip) (f : Findings) (t d : Nat) : Chip :=
  let x := dieFinds f d
  let rows := match x with | some x => x.rows | none => []
  let dpus := match x with | some x => x.dpus | none => []
  let c1 := eachDo rows (fun r c => c.addRepair (rowRepair d r)) c
  let c2 := { c1 with ecc := { c1.ecc with repair := spareRows [] c1.ecc.repair } }
  let bufs := c2.brokenBufs d
  let c3 := eachDo (bufs.filter (· < 32)) (fun u c => c.find { code := 0xA, unit := unitOf d (u % 16), action := 4, bit := 8 * d + 2, expected := 4 }) c2
  if bufs.contains 47 then c3.findFence d { code := 0xA, unit := unitOf d 0, bit := 8 * d + 2, cls := 2, expected := 4 }
  else
    let broken := c3.brokenCores x d
    let n := 9 - broken.length
    if 2 ≤ broken.length ∨ n < c3.cfgBy 0x0301 d 2 8 then
      c3.findFence d { code := 9, unit := unitOf d 0, bit := 8 * d, cls := 2, expected := c3.cfgBy 0x0301 d 2 8, measured := n }
    else
      let c4 := eachDo ((List.range 9).filter (fun k => !broken.contains k)) (fun k c => eachDo (List.range 4) (fun a c => c.repairArr dpus d k a) c) c3
      let c5 := eachDo broken (fun k c => c.find { code := 8, unit := unitOf d k, action := 4, bit := 8 * d, cls := 2, expected := 9, measured := 8 }) c4
      c5.placeCores d t broken

/-- Step 10 (R166, R430): every die's self-test, and the headstock buffer's. -/
def Chip.selfTest (c : Chip) (f : Findings) (t : Nat) : Chip :=
  let c0 := eachDo f.rows (fun r c => c.addRepair (rowRepair 0 r)) c
  let c1 := { c0 with ecc := { c0.ecc with repair := spareRows [] c0.ecc.repair } }
  let c2 := if (c1.brokenBufs 0).isEmpty then c1 else c1.find { code := 0xA, action := 7, bit := 7, expected := 4 }
  ((eachDo (cdies.filter (fun d => !c2.fenced d)) (fun d c => c.testDie f t d) c2).domsOn).partsLeft

end Sys2Proof.Machine
end

