-- ==== Sys2Proof/Machine/Load.lean ====
section
/-! DEFINITION. Machine/Load.lean: step 11 of the start sequence: programs checked and loaded (R436–R438, finding 0x10), and the blank package activated (R355, finding 0x11). -/
namespace Sys2Proof.Machine

/-! ### Programs -/

/-- The program of job `j` for its partition, where its signature verifies and it is well formed (R417, R436, R438). -/
def Chip.readProg (c : Chip) (f : Findings) (j : Nat) : Option Prog :=
  let ix := c.cfgBy 0x0702 j 2 0
  match c.cfgRec 0x0A01 ix with
  | none => none
  | some r =>
    if f.badProgs.any (fun x => x.val == ix) then none
    else c.parseProg r.vals j (c.jobPart j) (flashRead c.nv.fl1 (r.vals.getD 2 0) (r.vals.getD 3 0))

/-- Programs accepted so far, and the program indices rejected. -/
structure Checked where
  good : List Prog := []
  bad : List Nat := []
  deriving DecidableEq, Repr

/-- The programs of the partitions in `parts`, checked in the order of the JOB records against those accepted before (R438). -/
def Chip.checkProgs (c : Chip) (f : Findings) (parts : List Nat) : Checked :=
  (c.jobs.filter (fun j => parts.contains (c.jobPart j))).foldl (fun (s : Checked) j =>
    match c.readProg f j with
    | some g => if c.progOk s.good g then { s with good := s.good ++ [g] } else { s with bad := s.bad ++ [c.cfgBy 0x0702 j 2 0] }
    | none => { s with bad := s.bad ++ [c.cfgBy 0x0702 j 2 0] }) {}

/-- Partitions with a job that names a rejected program (R438). -/
def Chip.barred (c : Chip) (s : Checked) : List Nat :=
  (List.range 4).filter (fun p => (c.jobs.filter (fun j => c.jobPart j == p)).any (fun j => s.bad.contains (c.cfgBy 0x0702 j 2 0)))

/-- A word of a queue or task table, and the copy of the table that the firmware region keeps (R438, R508). -/
def Chip.putTable (c : Chip) (d off v : Nat) : Chip :=
  let c1 := c.setReg d off v
  { c1 with boot := { c1.boot with tables := tabSet 0#32 c1.boot.tables (regKey d off) (BitVec.ofNat 32 v) } }

/-- A queue descriptor in its table, and its queue EMPTY with its credits (R48, R51). -/
def Chip.loadQueue (c : Chip) (g : Prog) (q : QDef) : Chip :=
  let c1 := eachDo (List.range 4) (fun w c => c.putTable (q.num / 1024) (qdescOff (q.num % 1024) w) (bits q.x (32 * w + 31) (32 * w))) c
  c1.setQueue q.num { job := g.job, credits := qDepth q.x }

/-- A task entry (R174), and its budget. -/
def Chip.loadTask (c : Chip) (t : TaskDef) : Chip :=
  let o := taskBlk t.ent
  let words := [(0, t.cb % 2 ^ 32), (4, t.cb / 2 ^ 32), (8, t.cbN), (0x10, t.db % 2 ^ 32), (0x14, t.db / 2 ^ 32), (0x18, t.dbN), (0x20, t.ddr % 2 ^ 32), (0x24, t.ddr / 2 ^ 32),
    (0x28, t.ddrN % 2 ^ 32), (0x2C, t.ddrN / 2 ^ 32), (0x30, t.own)]
  let c1 := eachDo words (fun w c => c.putTable t.die (o + w.1) w.2) c
  c1.setTask t.die t.ent { budget := t.budget }

/-- Where a die's command lists lie (R66; log 46). -/
def Chip.cmdBase (c : Chip) (d : Nat) : Nat := if d = 0 then dbBase + 0xC00000 else c.fwBase d + 0x3000000

/-- A command list in the firmware region after those already there (R66). -/
def Chip.loadList (c : Chip) (g : Prog) (l : LDef) : Chip :=
  let d := l.st / 128
  let n := sumOver (c.wrk.lists.filter (fun e => e.key / 512 == d)) (·.n)
  let a := c.cmdBase d + 64 * n
  let e : ListEnt := ⟨stKey l.st (if isXd l.st then g.part else 0), g.job, a, l.descs.length⟩
  let c1 := { c with wrk := { c.wrk with lists := c.wrk.lists ++ [e] } }
  c1.fwWrite a (l.descs.flatMap (toLE 64))

/-- Senders and receivers, as src × 8 + dst, that one command of a station declares (R234; log 58): a remote window both ways, since the owner of a window sends what is read,
and every pair of a collective's members. -/
def sendsOf (st d : Nat) : List Nat :=
  let die := st / 128
  let both := fun (e : Nat) => [die * 8 + e, e * 8 + die]
  match dType d with
  | 4 => (if dmSrc d = 3 ∧ dOp d ≠ 3 then both (rwDie (dmSrcOff d)) else []) ++ (if dmDst d = 3 ∧ dOp d ≠ 2 then both (rwDie (dmDstOff d)) else [])
  | 6 => if isColl d then (xdMembers d).flatMap (fun a => (xdMembers d).map (fun b => a * 8 + b)) else if dOp d = 1 ∨ dOp d = 2 then both (xdPeer d) else []
  | _ => []

/-- The declaration of a program (R234; log 58): its cross-die queues and commands. -/
def Prog.sends (g : Prog) : Nat :=
  let all := g.queues.map (fun q => qProd q.x / 128 * 8 + q.num / 1024) ++ g.lists.flatMap (fun l => l.descs.flatMap (sendsOf l.st))
  maskOf ((all.filter (fun x => x / 8 != x % 8)).eraseDups)

/-- One program loaded (R438): tables, lists, weights, window declarations and the declared senders of its job. -/
def Chip.loadProg (c : Chip) (g : Prog) : Chip :=
  let c1 := eachDo g.tasks (fun t c => c.loadTask t) (eachDo g.queues (fun q c => c.loadQueue g q) c)
  let c2 := eachDo g.lists (fun l c => c.loadList g l) c1
  let c3 := eachDo g.fills (fun x c => c.fwWrite x.1 x.2) c2
  { c3 with wrk := { c3.wrk with hsdWins := c3.wrk.hsdWins ++ g.wins, sends := tabSet 0 c3.wrk.sends g.job g.sends } }

/-- Queue endpoints and core-buffer bases of programs, written for logical cores, put on the cores that carry them (R17, R176). -/
def Chip.placeTables (c : Chip) : Chip :=
  let cores := cdies.flatMap (fun d => (List.range 8).map (fun l => (d, l)))
  eachDo cores (fun x c => (c.moveEnds (moveStn x.1 (4 * x.2) (32 + 4 * c.physOf x.1 x.2))).rebindBases x.1 x.2 (c.physOf x.1 x.2)) c

/-! ### The blank package -/

/-- Where slot `s` (1 or 2) of a package lies in FL0 (R421). -/
def pkgOff (s : Nat) : Nat := if s = 1 then 0xF60000 else 0x1760000

/-- Bytes of the package in slot `s`, none where its header is not one. -/
def Chip.pkgBytes (c : Chip) (s : Nat) : Option Bytes :=
  let n := c.pkgField s 16 4
  if c.pkgField s 0 4 = 0x4254594B ∧ n ≤ 0x800000 then some (flashRead c.nv.fl0 (pkgOff s) n) else none

/-- Whether the package in slot `s` is accepted at start (R351). -/
def Chip.pkgGood (c : Chip) (f : Findings) (s : Nat) : Bool := match c.pkgBytes s with | some b => c.pkgOk b (bit f.pkgs.val (s - 1)) 0 | none => false

/-- A package's data copied into every die's firmware region (R354). -/
def Chip.copyPkg (c : Chip) (s : Nat) : Chip :=
  match c.pkgBytes s with
  | none => c
  | some b => eachDo (cdies.filter (fun d => !c.fenced d)) (fun d c => c.fwWrite (c.fwBase d + (s - 1) * 0x800000) b) c

/-- The package that a start activates (R355): the higher version, slot 0 on a tie; without one a configuration with a SAFETY partition or with a blank_count stops. -/
def Chip.startPkg (c : Chip) (f : Findings) : Chip :=
  let use := fun (s : Nat) => (c.copyPkg s).usePkg s
  match c.pkgGood f 1, c.pkgGood f 2 with
  | true, true => use (if c.pkgField 1 12 4 < c.pkgField 2 12 4 then 2 else 1)
  | true, false => use 1
  | false, true => use 2
  | false, false =>
    if (List.range 4).any (fun p => c.hasPart p && (c.isSafety p || c.cfgBy 0x0902 p 1 1 != 0)) then c.find { code := 0x11, action := 7, bit := 6, expected := c.cfg1 0x0901 0 0 }
    else c.usePkg 0

/-! ### Step 11 -/

/-- Step 11 (R355, R430, R432, R438): a rejected program keeps its partitions from starting; the others are loaded whole. -/
def Chip.loadAll (c : Chip) (f : Findings) : Chip :=
  let parts := (List.range 4).filter c.canStart
  let s := c.checkProgs f parts
  let barred := (c.barred s).filter parts.contains
  let c1 := eachDo barred (fun p c => c.find { code := 0x10, unit := unitOf 0 p, action := 6, bit := 6, cls := 2 }) c
  let go := parts.filter (fun p => !barred.contains p)
  if go.isEmpty then c1.halt
  else
    let c2 := eachDo (s.good.filter (fun g => go.contains g.part)) (fun g c => c.loadProg g) c1
    let c3 := ((eachDo go (fun p c => c.modPart p (fun x => { x with started := true })) c2).placeTables).freshRings 0
    c3.startPkg f

end Sys2Proof.Machine
end

