-- ==== Sys2Proof/Machine/Reset.lean ====
section
/-! DEFINITION. Machine/Reset.lean: the resets of the whole device (R507, R511), the start of turns (R304, R320, R335, R384, R419, R460) and what an update writes into FL0 (R354, R439). -/
namespace Sys2Proof.Machine

/-! ### Reset -/

/-- Offset and size of what an update of kind `k` replaces (R421); a package's slot `s`. -/
def updRegion (k s : Nat) : Nat × Nat := match k with | 1 => (0x10000, 0xC00000) | 2 => (0xC10000, 0x200000) | _ => (pkgOff s, 0x800000)

/-- The slot that a push writes (R354): of the lower erase count, unless it holds the active package. -/
def Chip.pushSlot (c : Chip) : Nat :=
  let s := if c.nv.log.erase0 ≤ c.nv.log.erase1 then 1 else 2
  if s = c.boot.pkgSlot then 3 - s else s

/-- FL0 with `n` bytes from offset `a` erased. -/
def Chip.eraseFl0 (c : Chip) (a n : Nat) : Chip := { c with nv := { c.nv with fl0 := flashErase c.nv.fl0 a n } }

/-- An update that a reset or a failure cuts off: its region is left erased (R439; log 59). -/
def Chip.dropStaged (c : Chip) : Chip :=
  match c.boot.staged with
  | none => c
  | some x =>
    let r := updRegion x.kind c.pushSlot
    { c.eraseFl0 r.1 r.2 with boot := { c.boot with staged := none } }

/-- Register bits that a warm reset keeps (R511): the time base and its pins, FHIST, the SSP, retries of power over coax, thermal warnings and counts of full tests. -/
def warmMask (d off : Nat) : Nat :=
  let all := 0xFFFFFFFF
  if d = 0 then
    if [0x0C, 0x10, 0x14, 0x18, 0x54, 0x58].contains (off - timeBlk) && decide (timeBlk ≤ off) then all
    else if [0x1C, 0x20, 0x24].contains (off - pwrBlk) && decide (pwrBlk ≤ off) then all
    else if off = fcBlk + 0x24 ∨ off = fcBlk + 0x28 then all
    else if spBlk 0 ≤ off ∧ off < spBlk 24 ∧ off % 0x80 = 0 then 0x300
    else 0
  else if tsBlk + 0x10 ≤ off ∧ off < tsBlk + 0x34 then 0xFFFF00
  else 0

/-- What power-on keeps (R511): OTP, both flash parts and what FL0 holds of repairs. -/
def Chip.coldParts (c : Chip) : Chip := { nv := c.nv, ecc := { repair := c.ecc.repair, rowList := c.ecc.rowList }, free := c.free }

/-- What a warm reset keeps as well (R511). -/
def Chip.warmParts (c : Chip) : Chip :=
  let k := c.clearRegs (fun d off => 0xFFFFFFFF - warmMask d off)
  let n := c.net
  { c.coldParts with
    tb := c.tb, regs := k.regs, flt := { ssp := c.flt.ssp },
    net := { oldK0 := n.oldK0, oldT0 := n.oldT0, oldAdj := n.oldAdj, syncNs := n.syncNs, adjTick := n.adjTick, want := n.want, tsIn := n.tsIn, lastIn := n.lastIn },
    boot := { ns := c.nowNs }, pwr := { warm := c.pwr.warm, pm := c.pwr.pm } }

/-- The end of a start that stopped (R433, R440): the MGMT ports come up, and without one the device is in ROM recovery. -/
def Chip.endStart (c : Chip) (f : Findings) : Chip :=
  if !c.stopped then c
  else
    let early := decide (c.fld 0 startBlk 3 0 < 8)
    let c1 := if early && !bit (c.reg 0 startBlk) 5 then eachDo c.mgmtPorts (fun n c => c.bringEp f n) c else c
    if bit (c1.reg 0 startBlk) 5 || !c1.mgmtPorts.any c1.linkUp then (c1.setFld 0 startBlk 5 4 2).setReg 0 (pwrBlk + 8) parkOn else c1

/-- Steps 1–11 of the start sequence (R430), after a reset of cause `cause` (R512). -/
def Chip.startSeq (c : Chip) (f : Findings) (power : Bool) (cause : Nat) : Chip :=
  let c1 := (c.setReg 0 (pwrBlk + 0x10) cause).startStep 1 (fun c => c)
  let c3 := (c1.startStep 2 (·.readRom f)).startStep 3 (fun c => (c.loadFw f).startErase)
  let c5 := (c3.startStep 4 (·.powerUp f)).startStep 5 (·.loadCfg f)
  let c7 := (c5.startStep 6 (·.startTime)).startStep 7 (·.startDdr f power)
  let c9 := (c7.startStep 8 (·.startPorts f)).startStep 9 (·.classAll f)
  ((c9.startStep 10 (·.selfTest f 0)).startStep 11 (·.loadAll f)).endStart f

/-- POWER_ON_RESET (R383, R430, R507): power applied, or PORST_N low for at least 10 µs, which latched class A ignores. -/
def Chip.powerOn (c : Chip) (byPin : Bool) (lowNs : Nat) (f : Findings) : Chip :=
  if byPin && (c.classA || decide (lowNs < 10000)) then c else (c.dropStaged.coldParts).startSeq f true 1

/-- WARM_RESET (R383, R440, R507): RESET_N low for at least 1 µs, or the SEC once ROM recovery has written an image; latched class A ignores RESET_N. -/
def Chip.warmStart (c : Chip) (lowNs : Nat) (f : Findings) : Chip :=
  let written := bit (c.reg 0 startBlk) 5 && c.fld 0 (startBlk + 0x18) 1 0 == 3
  if !written && (c.classA || decide (lowNs < 1000)) then c else (c.dropStaged.warmParts).startSeq f false (if written then 3 else 2)

/-! ### Turns start -/

/-- Task budgets of die `d` in turn `t` (R334, R335). -/
def Chip.loadIn (c : Chip) (d t : Nat) : Nat :=
  sumOver (c.wrk.tasks.filter (fun x => x.1 / 256 == d)) (fun x =>
    let own := c.reg d (taskBlk (x.1 % 256) + 0x30)
    if bit own 0 && c.dueIn (bits own 6 1) t && (c.part (bits own 8 7)).started then x.2.budget else 0)

/-- Among the 16 turns after `base`, the first with the largest load of die `d`: 1–16. -/
def Chip.heavyTurn (c : Chip) (d base : Nat) : Nat :=
  (List.range 16).foldl (fun best i => if c.loadIn d (base + best) < c.loadIn d (base + i + 1) then i + 1 else best) 1

/-- Each die's first full-load turn chosen (R335, R341): FULL_LOAD shows that of the lowest-numbered die in use (log 60). -/
def Chip.chooseFull (c : Chip) (base : Nat) : Chip :=
  let dies := cdies.filter (fun d => !c.fenced d)
  let full := dies.foldl (fun (t : Tab Nat) d => tabSet 0 t d (base + c.heavyTurn d base + 1)) []
  ({ c with wrk := { c.wrk with full := full } }).setReg 0 (tsBlk + 0x18) (match dies with | [] => 0 | d :: _ => c.heavyTurn d base % 16)

/-- OTP with thermometers of at least these lengths (R419). -/
def Otp.raised (o : Otp) (fw cfg : Nat) : Otp := { o with svnFw := max o.svnFw fw, svnCfg := max o.svnCfg cfg }

/-- The OTP thermometers raised to the versions that have run (R419). -/
def Chip.raiseSvn (c : Chip) : Chip := ({ c with nv := { c.nv with otp := c.nv.otp.raised c.boot.fwSvn c.boot.cfgSvn } }).noteOtp

/-- Whether the one session of a single-session configuration still has to negotiate (R460). -/
def Chip.awaitsHello (c : Chip) : Bool := c.oneSession && !(c.cfgAll 0x0203).any (fun v => c.isNeg (v.headD 0))

/-- START_TURNS (R304, R320, R335, R384, R419, R430, R434, R460): step 12. Without a lock the time base runs on to the end of start_wait_ms. -/
def Chip.startTurns (c : Chip) : Chip :=
  if c.stopped || c.fld 0 startBlk 3 0 != 11 || c.awaitsHello then c
  else
    let c1 := if c.tbState = 2 then c else c.advanceTo (c.boot.ns + c.timeRec 6 0 * 1000000)
    let c2 := if c1.tbState ≠ 2 then c1.raise 0 (timeBlk + 0x1C) 1 0x1E else c1
    let c3 := ({ c2 with flt := { c2.flt with armed := true } }).setReg 0 (startBlk + 4) (min 0xFFFF ((c2.nowNs - c2.boot.ns) / 1000000))
    let c4 := { c3 with wrk := { c3.wrk with firstNs := c3.gridAt (c3.nowNs + 1000000) } }
    (((c4.chooseFull 0).raiseSvn).stepDone 12).sendStartReport 0

/-! ### Updates -/

/-- The erase counts after an update of kind `k` erased its region (R354). -/
def Chip.countErase (c : Chip) (k : Nat) : Log :=
  let l := c.nv.log
  if k ≠ 3 then l else if c.pushSlot = 1 then { l with erase0 := l.erase0 + 1 } else { l with erase1 := l.erase1 + 1 }

/-- An update whose write failed: its region stays erased (R439; log 59). -/
def Chip.updFailed (c : Chip) (x : Xfer) : Chip :=
  let c0 := c.dropStaged
  (({ c0 with nv := { c0.nv with log := c.countErase x.kind } }.updState 0).orReg 0 (startBlk + 0x18) 8).updTrace x.kind 2 1

/-- The staged image in FL0 (R421, R439). -/
def Chip.updStored (c : Chip) (x : Xfer) : Chip :=
  let c0 := c.dropStaged
  { c0 with nv := { c0.nv with fl0 := flashWrite c0.nv.fl0 (updRegion x.kind c.pushSlot).1 x.data, log := c.countErase x.kind } }

/-- UPDATE_WRITTEN (R354, R439): the staged image in FL0, read back and compared, or the update failed; a package also lies in every die's firmware region and becomes active
at the next boundary. -/
def Chip.updWritten (c : Chip) (ok : Bool) : Chip :=
  match c.boot.staged with
  | none => c
  | some x =>
    if !ok then c.updFailed x
    else
      let c2 := (((c.updStored x).updState 3).setFld 0 (startBlk + 0x18) 3 3 0).updTrace x.kind 2 0
      if x.kind = 3 then { c2.copyPkg c.pushSlot with boot := { c2.boot with pkgNext := c.pushSlot } } else c2

/-- POWER_ON_RESET. -/
def execPowerOnReset (byPin : Bool) (lowNs : Nat) (f : Findings) (s : State) : Host.Outcome State Fault Refusal := .next { s with chip := s.chip.powerOn byPin lowNs f }
/-- WARM_RESET. -/
def execWarmReset (lowNs : Nat) (f : Findings) (s : State) : Host.Outcome State Fault Refusal := .next { s with chip := s.chip.warmStart lowNs f }
/-- START_TURNS. -/
def execStartTurns (s : State) : Host.Outcome State Fault Refusal := .next { s with chip := s.chip.awake (·.startTurns) }
/-- UPDATE_WRITTEN. -/
def execUpdateWritten (ok : Bool) (s : State) : Host.Outcome State Fault Refusal := .next { s with chip := s.chip.awake (·.updWritten ok) }

end Sys2Proof.Machine
end

