-- ==== Sys2Proof/Machine/Resume.lean ====
section
/-! DEFINITION. Machine/Resume.lean: STATE_MOVE_END: the end of the entry into PARK (R505, R511) and of a resume to ACTIVE (R503, R506). -/
namespace Sys2Proof.Machine

/-! ### PARK -/

/-- Register bits of a compute die that PARK keeps (R511): full-test counts, the fenced cores, the active package and the run of failed blanks, the DDR5 fitting with its training,
the lane maps, and the readings of R513 but for their counts of the turn. -/
def parkMask (off : Nat) : Nat :=
  let all := 0xFFFFFFFF
  if tsBlk + 0x10 ≤ off ∧ off < tsBlk + 0x34 then 0xFFFF00
  else if off = tsBlk + 0xC then 0x3FF0
  else if off = blkBlk + 0xC ∨ off = blkBlk + 0x10 ∨ off = blkBlk + 0x1C then all
  else if ddrBlk 0 ≤ off ∧ off < ddrBlk 2 then (if [0, 0x24, 0x28, 0x2C, 0x38, 0x3C].contains ((off - ddrBlk 0) % 0x100) then all else 0)
  else if mxBlk 0 ≤ off ∧ off < mxBlk 9 then (if [0x20, 0x24].contains ((off - mxBlk 0) % 0x40) then all else 0)
  else if pwrBlk ≤ off ∧ off < pwrBlk + 0x38 then 0xF00000
  else if pwrBlk + 0x38 ≤ off ∧ off < pwrBlk + 0x80 then all
  else 0

/-- Whether memory at a device address outlasts PARK (R511): DDR5 and the headstock buffer. -/
def Chip.outlasts (c : Chip) (a : Nat) : Bool := match c.decode a with | .ddr _ _ => true | .db d _ => d == 0 | _ => false

/-- What the Carvers write into their firmware regions (R505): queue and task tables, and the core maps. -/
def Chip.carverTables (c : Chip) : Tab Word := c.regs.filter (fun e => decide (16777216 ≤ e.1) && (inTables (e.1 % 16777216) || e.1 % 16777216 == tsBlk + 0x5C))

/-- A port switched off on entering PARK (R502, R505, R511). -/
def Chip.darkEp (c : Chip) (n : Nat) : Chip :=
  if c.role n = 2 then c else ((c.setFld 0 (epBlk n) 3 3 0).setFld 0 (epBlk n) 7 7 0).modEp n (fun _ => {})

/-- A sensor port and its power over coax switched off (R505). -/
def Chip.darkSp (c : Chip) (p : Nat) : Chip := (c.setFld 0 (spBlk p) 6 5 0).modSp p (fun x => { x with so := none, si := false, siDue := false, high := 0, offNs := 0 })

/-- Whether the time base has its master through a port that PARK switches off (R505). -/
def Chip.losesMaster (c : Chip) : Bool := c.timeRec 0 0 == 1 && c.tbState == 2 && (List.range 10).any (fun n => c.eport n 12 0 == 2 && c.role n != 2)

/-- The memories that outlast PARK, the rest lost (R511). -/
def Chip.parkMem (c : Chip) : Chip := { c with mem := tabKeep c.outlasts c.mem }

/-- Their poison marks, and no other error state of memory. -/
def Chip.parkEcc (c : Chip) : Chip :=
  { c with ecc := { c.ecc with poison := tabKeep (fun w => c.outlasts (8 * w)) c.ecc.poison, wb := [], checks := [], served := [] } }

/-- Stations, links and tests lose their state, and the tables saved are kept (R505). -/
def Chip.parkRest (c : Chip) (saved : Tab Word) : Chip :=
  { c with cmp := {}, lnk := {}, wrk := { c.wrk with tests := [], clks := [] }, pwr := { c.pwr with move := 0, saved := saved } }

/-- PARK entered (R505, R511, R512). -/
def Chip.enterPark (c : Chip) : Chip :=
  let saved := c.carverTables
  let c1 := c.parkMem.parkEcc.clearRegs (fun d off => if d = 0 then 0 else 0xFFFFFFFF - parkMask off)
  let c2 := eachDo (List.range 24) (fun p c => c.darkSp p) (eachDo (List.range 10) (fun n c => c.darkEp n) c1)
  let ret := maskOf ((cdies.filter (fun d => !c.fenced d)).map (fun d => 4 + 3 * d))
  let c3 := ((c2.setReg 0 pwrBlk 2).setReg 0 (pwrBlk + 8) parkOn).setReg 0 (pwrBlk + 0xC) ret
  let c4 := c3.parkRest saved
  if c4.losesMaster then c4.holdover else c4

/-! ### Resume -/

/-- The procedure of R210 on both ranks of a controller (R506), where a count was read. -/
def Chip.wakeDdr (c : Chip) (f : Findings) (d s : Nat) : Chip :=
  match dieFinds f d with
  | none => c
  | some x => eachDo [0, 1] (fun r c => match x.osc[2 * s + r]? with | some n => c.dqsCheck d s r n.toNat (!untrainedAt f d s) | none => c) c

/-- Queue endpoints moved from the cores of map `old` to those of the map in force, and the core-buffer bases with them (R17, R176). -/
def Chip.moveCores (c : Chip) (old : Nat → Nat → Nat) : Chip :=
  let f := fun (s : Nat) =>
    let d := s / 128
    let k := (s % 128 - 32) / 4
    if d = 0 ∨ s % 128 < 32 ∨ 68 ≤ s % 128 then s
    else match (List.range 8).find? (fun l => old d l == k) with
      | some l => coreStn d (c.physOf d l) ((s % 128 - 32) % 4)
      | none => s
  let cores := (cdies.filter (fun d => !c.fenced d)).flatMap (fun d => (List.range 8).map (fun l => (d, l)))
  eachDo cores (fun x c => c.rebindBases x.1 x.2 (c.physOf x.1 x.2)) (c.moveEnds f)

/-- The task and queue tables saved on entering PARK written again (R506). -/
def Chip.putSaved (c : Chip) (l : Tab Word) : Chip := { c with regs := l.foldl (fun (t : Tab Word) (e : Nat × Word) => tabSet 0#32 t e.1 e.2) c.regs }

/-- Steps 1–6 of the resume from PARK (R506): links, DDR5, tables, self-test and ports, with the actions of their findings. -/
def Chip.wake (c : Chip) (f : Findings) : Chip :=
  let c0 := { c with boot := { c.boot with report := [] } }
  let c1 := (c0.domsOn).setReg 0 (pwrBlk + 0xC) 0
  let c2 := eachDo (cdies.filter (fun d => !c1.fenced d)) (fun d c => ((c.trainDie f d).wakeDdr f d 0).wakeDdr f d 1) c1
  let c3 := c2.putSaved c.pwr.saved
  let old := fun d l => c3.physOf d l
  let cut := (cdies.filter (fun d => !c3.fenced d)).filter c3.cutOff
  let c4 := eachDo cut (fun d c => c.findFence d { code := 6, unit := unitOf d 0, bit := 8 * d + 4, cls := 2 }) c3
  let eps := (List.range 10).filter (fun n => c4.role n != 2)
  let c5 := eachDo eps (fun n c => c.bringEp f n) (eachDo (List.range 24) (fun p c => c.bringSp f p) c4)
  let c6 := c5.selfTest { f with rows := [] } c5.turn
  ((c6.moveCores old).findPorts f (List.range 24) eps).partsLeft

/-- Turns restart at the first grid instant at least 1 ms from now (R503). -/
def Chip.restart (c : Chip) : Chip := { c.setReg 0 pwrBlk 0 with wrk := { c.wrk with firstNs := c.gridAt (c.nowNs + 1000000) }, pwr := { c.pwr with move := 0, saved := [] } }

/-- The end of a resume from PARK (R506): a finding that would stop a start returns the device to PARK with a start report; else turns may restart, with new first full-load turns. -/
def Chip.endResume (c : Chip) (f : Findings) : Chip :=
  let c1 := c.wake f
  if c1.stopped then ((c1.setFld 0 startBlk 4 4 0).enterPark).sendStartReport 1
  else
    let c2 := eachDo ((List.range 4).filter (fun p => !c1.canStart p)) (fun p c => c.modPart p (fun x => { x with started := false })) c1
    let c3 := (c2.setFld 0 (pwrBlk + 0x10) 3 3 1).restart
    c3.chooseFull (c3.turn + (c3.wrk.firstNs - c3.turnStart) / c3.periodNs - 1)

/-- STATE_MOVE_END (R503, R505, R506). -/
def Chip.endMove (c : Chip) (f : Findings) : Chip :=
  match c.pwr.move with
  | 2 => c.enterPark
  | 3 => c.endResume f
  | 4 => c.restart
  | _ => c

/-- STATE_MOVE_END. -/
def execStateMoveEnd (f : Findings) (s : State) : Host.Outcome State Fault Refusal := .next { s with chip := s.chip.awake (·.endMove f) }

end Sys2Proof.Machine
end

