-- ==== Sys2Proof/Machine/Dispatch.lean ====
section
/-! DEFINITION. Machine/Dispatch.lean: one arm per command, each a direct call of that command's meaning. -/
namespace Sys2Proof.Machine

/-- The effect of a command on everything but the queue of waiting commands. -/
def exec (i : Instr) (s : State) : Host.Outcome State Fault Refusal :=
  match i with
  | .mxPass d c => Sys2Proof.Machine.execMxPass d c s
  | .mxPassBegin d c ups => Sys2Proof.Machine.execMxPassBegin d c ups s
  | .weightLoadDone d c => Sys2Proof.Machine.execWeightLoadDone d c s
  | .mxVectorIssue d c => Sys2Proof.Machine.execMxVectorIssue d c s
  | .mxRowWrite d c flts => Sys2Proof.Machine.execMxRowWrite d c flts s
  | .wfConv d c => Sys2Proof.Machine.execWfConv d c s
  | .wfPool d c => Sys2Proof.Machine.execWfPool d c s
  | .wfVectorDeliver d c ups => Sys2Proof.Machine.execWfVectorDeliver d c ups s
  | .vxChain d c res ups => Sys2Proof.Machine.execVxChain d c res ups s
  | .vxRow d c ups => Sys2Proof.Machine.execVxRow d c ups s
  | .vxReduce d c res => Sys2Proof.Machine.execVxReduce d c res s
  | .vxGather d c ups => Sys2Proof.Machine.execVxGather d c ups s
  | .vxScatter d c => Sys2Proof.Machine.execVxScatter d c s
  | .vxScatadd d c res => Sys2Proof.Machine.execVxScatadd d c res s
  | .vxBlankcmp d c => Sys2Proof.Machine.execVxBlankcmp d c s
  | .vxDrainRead d c ups => Sys2Proof.Machine.execVxDrainRead d c ups s
  | .dmCopy st ups => Sys2Proof.Machine.execDmCopy st ups s
  | .dmLoad st ups => Sys2Proof.Machine.execDmLoad st ups s
  | .dmStore st => Sys2Proof.Machine.execDmStore st s
  | .bxNms d => Sys2Proof.Machine.execBxNms d s
  | .xdPut d p ups => Sys2Proof.Machine.execXdPut d p ups s
  | .xdGet d p => Sys2Proof.Machine.execXdGet d p s
  | .xdBcast d p => Sys2Proof.Machine.execXdBcast d p s
  | .xdAllgather d p => Sys2Proof.Machine.execXdAllgather d p s
  | .xdRedscat d p ord flt => Sys2Proof.Machine.execXdRedscat d p ord flt s
  | .xdAllreduce d p ord flt => Sys2Proof.Machine.execXdAllreduce d p ord flt s
  | .xdWopen d p => Sys2Proof.Machine.execXdWopen d p s
  | .xdWclose d p => Sys2Proof.Machine.execXdWclose d p s
  | .xdWcloseComplete d p => Sys2Proof.Machine.execXdWcloseComplete d p s
  | .siRun pt => Sys2Proof.Machine.execSiRun pt s
  | .egMsg p bad => Sys2Proof.Machine.execEgMsg p bad s
  | .soFrame sp => Sys2Proof.Machine.execSoFrame sp s
  | .soFrameStart sp => Sys2Proof.Machine.execSoFrameStart sp s
  | .commandStart st p ups => Sys2Proof.Machine.execCommandStart st p ups s
  | .commandComplete st p => Sys2Proof.Machine.execCommandComplete st p s
  | .slotClaim q => Sys2Proof.Machine.execSlotClaim q s
  | .slotFull q ups => Sys2Proof.Machine.execSlotFull q ups s
  | .slotAcquire q ups => Sys2Proof.Machine.execSlotAcquire q ups s
  | .slotRelease q => Sys2Proof.Machine.execSlotRelease q s
  | .creditFlitSend q => Sys2Proof.Machine.execCreditFlitSend q s
  | .creditFlitArrive q n => Sys2Proof.Machine.execCreditFlitArrive q n s
  | .plainStoreAccept st p ups => Sys2Proof.Machine.execPlainStoreAccept st p ups s
  | .sramCeWriteback d => Sys2Proof.Machine.execSramCeWriteback d s
  | .sramScrubRead d buf ups => Sys2Proof.Machine.execSramScrubRead d buf ups s
  | .sramScrubForced d buf ups => Sys2Proof.Machine.execSramScrubForced d buf ups s
  | .remoteRequestArrive st p ups => Sys2Proof.Machine.execRemoteRequestArrive st p ups s
  | .remoteStatusReturn st p => Sys2Proof.Machine.execRemoteStatusReturn st p s
  | .ddrRequest d r ups => Sys2Proof.Machine.execDdrRequest d r ups s
  | .ddrRefreshDue d sub rank => Sys2Proof.Machine.execDdrRefreshDue d sub rank s
  | .mr4Read d sub rank code hot => Sys2Proof.Machine.execMr4Read d sub rank code hot s
  | .rfmIssue d sub bank => Sys2Proof.Machine.execRfmIssue d sub bank s
  | .dqsOscCheck d sub rank count marginOk => Sys2Proof.Machine.execDqsOscCheck d sub rank count marginOk s
  | .ddrPatrolScrub d sub ups => Sys2Proof.Machine.execDdrPatrolScrub d sub ups s
  | .resWindowEnd d waiting => Sys2Proof.Machine.execResWindowEnd d waiting s
  | .flitReceive l flit => Sys2Proof.Machine.execFlitReceive l flit s
  | .ackTimer l => Sys2Proof.Machine.execAckTimer l s
  | .nakReceive l sq => Sys2Proof.Machine.execNakReceive l sq s
  | .moduleRetrain l => Sys2Proof.Machine.execModuleRetrain l s
  | .retrainDone l badTx badRx => Sys2Proof.Machine.execRetrainDone l badTx badRx s
  | .digestTrailerArrive d src num tr => Sys2Proof.Machine.execDigestTrailerArrive d src num tr s
  | .tallyArrive d src p count => Sys2Proof.Machine.execTallyArrive d src p count s
  | .frameStartPacket sp vc frameNo retx hdr cap => Sys2Proof.Machine.execFrameStartPacket sp vc frameNo retx hdr cap s
  | .csiLinePacket sp vc dt data hdr crcOk retx => Sys2Proof.Machine.execCsiLinePacket sp vc dt data hdr crcOk retx s
  | .embeddedDataPacket sp vc data hdr crcOk retx => Sys2Proof.Machine.execEmbeddedDataPacket sp vc data hdr crcOk retx s
  | .frameEndPacket sp vc hdr retx => Sys2Proof.Machine.execFrameEndPacket sp vc hdr retx s
  | .ingestWrite sp vc => Sys2Proof.Machine.execIngestWrite sp vc s
  | .entryWritten sp vc => Sys2Proof.Machine.execEntryWritten sp vc s
  | .frameSyncLaunch sp off => Sys2Proof.Machine.execFrameSyncLaunch sp off s
  | .pocSample sp ma => Sys2Proof.Machine.execPocSample sp ma s
  | .pocRetry sp => Sys2Proof.Machine.execPocRetry sp s
  | .eyeMarginCheck sp low => Sys2Proof.Machine.execEyeMarginCheck sp low s
  | .ethFrameReceive ep f cap => Sys2Proof.Machine.execEthFrameReceive ep f cap s
  | .lidarWindowEnd l => Sys2Proof.Machine.execLidarWindowEnd l s
  | .tqFrameStart ep => Sys2Proof.Machine.execTqFrameStart ep s
  | .tq1Launch ep => Sys2Proof.Machine.execTq1Launch ep s
  | .macsecRekey ep => Sys2Proof.Machine.execMacsecRekey ep s
  | .sqiRead ep v => Sys2Proof.Machine.execSqiRead ep v s
  | .linkDrop ep => Sys2Proof.Machine.execLinkDrop ep s
  | .ptpSyncReceive ep off ppm => Sys2Proof.Machine.execPtpSyncReceive ep off ppm s
  | .adjSlew => Sys2Proof.Machine.execAdjSlew s
  | .syncTimeout => Sys2Proof.Machine.execSyncTimeout s
  | .ptpSyncSend ep => Sys2Proof.Machine.execPtpSyncSend ep s
  | .pdelayExchange ep mpd => Sys2Proof.Machine.execPdelayExchange ep mpd s
  | .announceSend ep => Sys2Proof.Machine.execAnnounceSend ep s
  | .tsInEdge pin rising phase pulse => Sys2Proof.Machine.execTsInEdge pin rising phase pulse s
  | .tsinDataLoRead pin who => Sys2Proof.Machine.execTsinDataLoRead pin who s
  | .tsOutEdge pin => Sys2Proof.Machine.execTsOutEdge pin s
  | .ppsEdge => Sys2Proof.Machine.execPpsEdge s
  | .turnBoundary env => Sys2Proof.Machine.execTurnBoundary env s
  | .taskRelease j => Sys2Proof.Machine.execTaskRelease j s
  | .blankSlotStart => Sys2Proof.Machine.execBlankSlotStart s
  | .blankSlotEnd => Sys2Proof.Machine.execBlankSlotEnd s
  | .blankVerdict d => Sys2Proof.Machine.execBlankVerdict d s
  | .budgetExpiry d k => Sys2Proof.Machine.execBudgetExpiry d k s
  | .deadlineExpiry j => Sys2Proof.Machine.execDeadlineExpiry j s
  | .stationResetByCarver st p => Sys2Proof.Machine.execStationResetByCarver st p s
  | .selftestSegmentDone d c v => Sys2Proof.Machine.execSelftestSegmentDone d c v s
  | .clockWindow d isl cycles ext => Sys2Proof.Machine.execClockWindow d isl cycles ext s
  | .gateDecision p => Sys2Proof.Machine.execGateDecision p s
  | .resultLaunch p => Sys2Proof.Machine.execResultLaunch p s
  | .errorLineLatch b phase => Sys2Proof.Machine.execErrorLineLatch b phase s
  | .faultRecordWritten => Sys2Proof.Machine.execFaultRecordWritten s
  | .reportResend => Sys2Proof.Machine.execReportResend s
  | .fcEscalate b cause who => Sys2Proof.Machine.execFcEscalate b cause who s
  | .fswClear mask who => Sys2Proof.Machine.execFswClear mask who s
  | .fltReadback n p => Sys2Proof.Machine.execFltReadback n p s
  | .lockstepMismatch u => Sys2Proof.Machine.execLockstepMismatch u s
  | .lockstepVerdict u v => Sys2Proof.Machine.execLockstepVerdict u v s
  | .agreementRead u a b => Sys2Proof.Machine.execAgreementRead u a b s
  | .debugHalt u => Sys2Proof.Machine.execDebugHalt u s
  | .sspCsFall => Sys2Proof.Machine.execSspCsFall s
  | .sspChallenge mosi => Sys2Proof.Machine.execSspChallenge mosi s
  | .wdResponseReady => Sys2Proof.Machine.execWdResponseReady s
  | .powerOnReset byPin lowNs f => Sys2Proof.Machine.execPowerOnReset byPin lowNs f s
  | .warmReset lowNs f => Sys2Proof.Machine.execWarmReset lowNs f s
  | .startTurns => Sys2Proof.Machine.execStartTurns s
  | .hello m => Sys2Proof.Machine.execHello m s
  | .bye m => Sys2Proof.Machine.execBye m s
  | .mgmtOpen m => Sys2Proof.Machine.execMgmtOpen m s
  | .mgmtAuth m sigOk => Sys2Proof.Machine.execMgmtAuth m sigOk s
  | .mgmtAuthTimeout ms => Sys2Proof.Machine.execMgmtAuthTimeout ms s
  | .mgmtSessionTimeout ms => Sys2Proof.Machine.execMgmtSessionTimeout ms s
  | .counterReadStation m => Sys2Proof.Machine.execCounterReadStation m s
  | .counterReadShadow m => Sys2Proof.Machine.execCounterReadShadow m s
  | .counterReadAlwaysOn m => Sys2Proof.Machine.execCounterReadAlwaysOn m s
  | .traceSubscribe m => Sys2Proof.Machine.execTraceSubscribe m s
  | .traceStop m => Sys2Proof.Machine.execTraceStop m s
  | .traceRecordsSend => Sys2Proof.Machine.execTraceRecordsSend s
  | .regRead m ups => Sys2Proof.Machine.execRegRead m ups s
  | .regWrite m => Sys2Proof.Machine.execRegWrite m s
  | .faultClear m => Sys2Proof.Machine.execFaultClear m s
  | .timeStep m => Sys2Proof.Machine.execTimeStep m s
  | .pocSwitch m => Sys2Proof.Machine.execPocSwitch m s
  | .dumpReq m => Sys2Proof.Machine.execDumpReq m s
  | .dumpSend p => Sys2Proof.Machine.execDumpSend p s
  | .xferBegin m => Sys2Proof.Machine.execXferBegin m s
  | .xferData m => Sys2Proof.Machine.execXferData m s
  | .xferEnd m sigOk => Sys2Proof.Machine.execXferEnd m sigOk s
  | .attestReq m => Sys2Proof.Machine.execAttestReq m s
  | .keyRevoke m sigOk => Sys2Proof.Machine.execKeyRevoke m sigOk s
  | .recordAck m => Sys2Proof.Machine.execRecordAck m s
  | .pwrReqIdle who => Sys2Proof.Machine.execPwrReqIdle who s
  | .pwrReqPark who => Sys2Proof.Machine.execPwrReqPark who s
  | .pwrReqActive who => Sys2Proof.Machine.execPwrReqActive who s
  | .domainGoodTimeout dom => Sys2Proof.Machine.execDomainGoodTimeout dom s
  | .rstReqPartition p who => Sys2Proof.Machine.execRstReqPartition p who s
  | .rstReqStation st who => Sys2Proof.Machine.execRstReqStation st who s
  | .undervoltage dom => Sys2Proof.Machine.execUndervoltage dom s
  | .overvoltage dom => Sys2Proof.Machine.execOvervoltage dom s
  | .refclkFail => Sys2Proof.Machine.execRefclkFail s
  | .islandClockFail d isl => Sys2Proof.Machine.execIslandClockFail d isl s
  | .thermalTrip d sensor => Sys2Proof.Machine.execThermalTrip d sensor s
  | .thermalWarning d sensor => Sys2Proof.Machine.execThermalWarning d sensor s
  | .ageingRead d isl count => Sys2Proof.Machine.execAgeingRead d isl count s
  | .pmbusPoll reads => Sys2Proof.Machine.execPmbusPoll reads s
  | .pmAlert fault => Sys2Proof.Machine.execPmAlert fault s
  | .splockPin lowNs => Sys2Proof.Machine.execSplockPin lowNs s
  | .splArmAtTurn turn who => Sys2Proof.Machine.execSplArmAtTurn turn who s
  | .splArmOnBit b who => Sys2Proof.Machine.execSplArmOnBit b who s
  | .splArmNow who => Sys2Proof.Machine.execSplArmNow who s
  | .debugScanRead tgt => Sys2Proof.Machine.execDebugScanRead tgt s
  | .qdescWrite d q w v who => Sys2Proof.Machine.execQdescWrite d q w v who s
  | .stCmdRegWrite st r v who => Sys2Proof.Machine.execStCmdRegWrite st r v who s
  | .mxInject d c v who => Sys2Proof.Machine.execMxInject d c v who s
  | .dpuMapWrite d c hi v who => Sys2Proof.Machine.execDpuMapWrite d c hi v who s
  | .taskEntryWrite d k w v who => Sys2Proof.Machine.execTaskEntryWrite d k w v who s
  | .w1cStatusClear d off v who => Sys2Proof.Machine.execW1cStatusClear d off v who s
  | .lowWordRead d off width who => Sys2Proof.Machine.execLowWordRead d off width who s
  | .drainStoreFwRead d c off who ups => Sys2Proof.Machine.execDrainStoreFwRead d c off who ups s
  | .registerWrite d off v width who => Sys2Proof.Machine.execRegisterWrite d off v width who s
  | .headstockPeriodicTest bad => Sys2Proof.Machine.execHeadstockPeriodicTest bad s
  | .sensorLinkLost sp => Sys2Proof.Machine.execSensorLinkLost sp s
  | .linkUp ep => Sys2Proof.Machine.execLinkUp ep s
  | .thermalWarningEnd d => Sys2Proof.Machine.execThermalWarningEnd d s
  | .updateWritten ok => Sys2Proof.Machine.execUpdateWritten ok s
  | .stateMoveEnd f => Sys2Proof.Machine.execStateMoveEnd f s
  | .debugUnlock ok => Sys2Proof.Machine.execDebugUnlock ok s

end Sys2Proof.Machine
end

