-- ==== Sys2Proof/Machine/Idle.lean ====
section
/-! DEFINITION. Machine/Idle.lean: what a step does when no command waits: one 4-ns tick of the always-on time base (log 1). -/
namespace Sys2Proof.Machine

/-- One tick of the time bus (R300). -/
def idle (s : State) : State :=
  { s with chip := { s.chip with tb := { s.chip.tb with tick := s.chip.tb.tick + 1 } } }

end Sys2Proof.Machine
end

