-- ==== Sys2Proof/Safety.lean ====
section
/-! DEFINITION. Safety.lean: the properties that claims about runs are stated with: the canonical form of every addressed store, what one-time-programmable memory may
do, and the safe state. -/
namespace Sys2Proof.Machine

/-- Every addressed store is in its one canonical form: memory, the registers, the poison marks and both flash parts, so that equal contents are equal data. -/
def Chip.canon (c : Chip) : Prop :=
  Memory.wf c.mem = true ∧ tabWf 0#32 c.regs = true ∧ tabWf false c.ecc.poison = true ∧ tabWf 0xFF#8 c.nv.fl0 = true ∧ tabWf 0xFF#8 c.nv.fl1 = true

/-- The state with chip `c`, its queue as it was. -/
def State.put (s : State) (c : Chip) : State := { s with chip := c }

/-- Stations work: no spindle lock holds the islands, turns are not stopped, and the device is ACTIVE (R382, R491, R502). -/
abbrev Chip.atWork (c : Chip) : Prop := c.locked = false ∧ c.turnState ≠ 2 ∧ c.pwrState = 0

/-- Memory, links and sensor ports are on: no spindle lock, and not in PARK (R491, R502). -/
abbrev Chip.isLive (c : Chip) : Prop := c.locked = false ∧ c.pwrState ≠ 2

/-- Ethernet port `n` hears and speaks: no spindle lock, and in PARK only a MGMT port (R491, R502). -/
abbrev Chip.hears (c : Chip) (n : Nat) : Prop := c.locked = false ∧ (c.pwrState = 2 → c.role n = 2)

/-- A datagram that brings session `n` the well-formed, new request `r`, which a session of its kind may send: what R446, R450, R453 and R454 ask of every request before its own type's
rules. A partition session's header names it and its partition is served. -/
abbrev Chip.asks (c : Chip) (m : Dgram) (sig : Bool) (n : Nat) (r : Req) : Prop :=
  c.hears m.port ∧ c.route m sig = .to n r ∧ c.sessOpen n = true ∧ r.clean = true ∧ ((c.sess n).live = true → r.seq = ((c.sess n).rx + 1) % 2 ^ 32 ∧ r.seq ≠ (c.sess n).rx) ∧
    (n < 4 → r.sess = n ∧ c.partServed n = true)

/-- The chip that has heard the request: its peer's addresses and its sequence number kept, no reply cached yet (R446, R454). -/
def Chip.heard (c : Chip) (m : Dgram) (n : Nat) (r : Req) : Chip := (c.notePeer n m).modSess n (fun y => { y with rx := r.seq, live := true, cache := [] })

/-- The parts of the chip that a command may touch or leave: each is one field of `Chip`, and one-time-programmable memory apart from the rest of what outlasts power. -/
inductive Comp where
  | tb | regs | latch | mem | ecc | fab | cmp | lnk | wrk | flt | obs | sns | net | boot | ses | pwr | nv | otp | cfg | free
  deriving DecidableEq, Repr

/-- Every part. -/
def Comp.all : List Comp := [.tb, .regs, .latch, .mem, .ecc, .fab, .cmp, .lnk, .wrk, .flt, .obs, .sns, .net, .boot, .ses, .pwr, .nv, .otp, .cfg, .free]

/-- One part is the same in both chips. -/
def Chip.same (a : Chip) (x : Comp) (b : Chip) : Prop :=
  match x with
  | .tb => b.tb = a.tb
  | .regs => b.regs = a.regs
  | .latch => b.latch = a.latch
  | .mem => b.mem = a.mem
  | .ecc => b.ecc = a.ecc
  | .fab => b.fab = a.fab
  | .cmp => b.cmp = a.cmp
  | .lnk => b.lnk = a.lnk
  | .wrk => b.wrk = a.wrk
  | .flt => b.flt = a.flt
  | .obs => b.obs = a.obs
  | .sns => b.sns = a.sns
  | .net => b.net = a.net
  | .boot => b.boot = a.boot
  | .ses => b.ses = a.ses
  | .pwr => b.pwr = a.pwr
  | .nv => b.nv = a.nv
  | .otp => b.nv.otp = a.nv.otp
  | .cfg => b.cfg = a.cfg
  | .free => b.free = a.free

/-- The parts of the chip that each command may touch (its frame): every other part stays as it is, whatever the state. -/
def touches (i : Instr) : List Comp :=
  match i with
  | .mxPass .. | .xdWcloseComplete .. => [.fab]
  | .mxPassBegin .. | .vxChain .. | .vxRow .. | .vxGather .. | .vxDrainRead .. | .dmCopy .. | .dmLoad .. | .xdPut .. | .commandStart ..
  | .slotAcquire .. => [.regs, .ecc, .fab, .cmp, .lnk, .wrk, .flt, .obs, .nv, .free]
  | .weightLoadDone .. => [.fab, .cmp, .lnk]
  | .mxVectorIssue .. | .wfConv .. | .wfPool .. => [.regs, .fab, .cmp]
  | .mxRowWrite .. => [.regs, .mem, .ecc, .cmp, .flt, .free]
  | .wfVectorDeliver .. => [.regs, .ecc, .fab, .cmp, .flt, .free]
  | .vxReduce .. | .vxScatter .. | .vxScatadd .. | .dmStore .. => [.regs, .fab, .cmp, .lnk, .wrk, .flt, .obs, .nv, .free]
  | .vxBlankcmp .. | .egMsg .. => [.regs, .fab, .wrk, .flt, .free]
  | .bxNms .. => [.regs, .fab, .free]
  | .xdGet .. | .xdWopen .. | .creditFlitArrive .. | .remoteStatusReturn .. => [.regs, .fab, .cmp, .lnk, .wrk, .flt, .obs, .nv]
  | .xdBcast .. | .xdAllgather .. | .xdRedscat .. | .xdAllreduce .. | .slotFull .. | .plainStoreAccept .. => [.regs, .mem, .ecc, .fab, .cmp, .lnk, .wrk, .flt, .obs, .nv, .free]
  | .xdWclose .. => [.regs, .fab]
  | .siRun .. => [.regs, .sns]
  | .soFrame .. => [.regs, .ecc, .fab, .sns, .free]
  | .soFrameStart .. => [.tb, .regs, .ecc, .fab, .sns]
  | .commandComplete .. => [.regs, .fab, .cmp, .lnk, .wrk, .obs]
  | .slotClaim .. => [.regs, .fab, .lnk]
  | .slotRelease .. | .creditFlitSend .. => [.fab, .lnk]
  | .sramCeWriteback .. | .ddrRefreshDue .. => [.ecc]
  | .sramScrubRead .. | .sramScrubForced .. => [.regs, .ecc, .flt, .free]
  | .remoteRequestArrive .. => [.regs, .mem, .ecc, .fab, .lnk, .flt, .free]
  | .ddrRequest .. => [.regs, .mem, .ecc, .flt, .free]
  | .mr4Read .. | .fswClear .. | .agreementRead .. | .sspCsFall .. | .sspChallenge .. => [.regs, .flt]
  | .rfmIssue .. => [.regs, .ecc]
  | .dqsOscCheck .. | .ddrPatrolScrub .. | .resWindowEnd .. => [.regs, .ecc, .flt]
  | .flitReceive .. => [.ecc, .lnk]
  | .ackTimer .. => [.lnk]
  | .nakReceive .. => [.regs, .lnk]
  | .moduleRetrain .. => [.regs, .lnk, .flt]
  | .retrainDone .. => [.regs, .ecc, .lnk, .flt]
  | .digestTrailerArrive .. | .tallyArrive .. => [.regs, .mem, .ecc, .fab, .cmp, .lnk, .wrk, .flt, .obs, .sns, .nv, .free]
  | .frameStartPacket .. | .csiLinePacket .. | .embeddedDataPacket .. | .frameEndPacket .. => [.regs, .lnk, .obs, .sns, .nv]
  | .ingestWrite .. | .entryWritten .. => [.regs, .mem, .ecc, .lnk, .flt, .sns, .free]
  | .frameSyncLaunch .. => [.tb, .sns]
  | .pocSample .. | .linkDrop .. | .sensorLinkLost .. => [.regs, .lnk, .flt, .obs, .sns, .nv]
  | .pocRetry .. => [.tb, .regs]
  | .eyeMarginCheck .. | .fltReadback .. | .lockstepMismatch .. | .debugHalt .. | .domainGoodTimeout .. | .undervoltage .. | .overvoltage ..
  | .refclkFail .. | .islandClockFail .. | .pmAlert .. | .headstockPeriodicTest .. => [.flt]
  | .ethFrameReceive .. => [.tb, .regs, .mem, .ecc, .lnk, .flt, .obs, .sns, .net, .nv, .free]
  | .lidarWindowEnd .. => [.tb, .regs, .mem, .ecc, .lnk, .flt, .sns, .free]
  | .tqFrameStart .. | .tq1Launch .. => [.tb, .regs, .ecc, .flt, .net]
  | .macsecRekey .. | .ptpSyncSend .. | .announceSend .. => [.net]
  | .sqiRead .. => [.regs, .flt, .net]
  | .ptpSyncReceive .. => [.tb, .regs, .flt, .net]
  | .adjSlew .. => [.tb, .regs, .net]
  | .syncTimeout .. | .wdResponseReady .. => [.tb, .regs, .flt]
  | .pdelayExchange .. | .tsInEdge .. | .linkUp .. => [.regs, .net]
  | .tsinDataLoRead .. => [.latch, .obs, .net]
  | .tsOutEdge .. | .ppsEdge .. => [.tb, .net]
  | .turnBoundary .. => [.tb, .regs, .mem, .ecc, .fab, .cmp, .lnk, .wrk, .flt, .obs, .sns, .net, .boot, .ses, .pwr, .nv, .free]
  | .taskRelease .. => [.tb, .regs, .lnk, .wrk]
  | .blankSlotStart .. => [.tb, .regs, .fab, .cmp, .wrk]
  | .blankSlotEnd .. => [.tb, .regs, .fab, .cmp]
  | .blankVerdict .. => [.tb, .regs, .wrk, .flt]
  | .budgetExpiry .. | .deadlineExpiry .. => [.tb, .regs, .fab, .cmp, .lnk, .wrk, .flt, .obs, .nv]
  | .stationResetByCarver .. | .rstReqStation .. => [.regs, .fab, .cmp, .lnk, .wrk]
  | .selftestSegmentDone .. => [.regs, .ecc, .wrk, .flt, .boot]
  | .clockWindow .. => [.regs, .wrk, .flt]
  | .gateDecision .. => [.regs, .ecc, .lnk, .wrk, .obs, .net, .ses, .nv]
  | .resultLaunch .. => [.tb, .regs, .ecc, .lnk, .wrk, .flt, .obs, .net, .ses, .nv]
  | .errorLineLatch .. | .fcEscalate .. => [.regs, .flt, .obs, .sns, .net, .ses, .nv, .free]
  | .faultRecordWritten .. => [.regs, .flt, .obs, .net, .ses, .nv, .free]
  | .reportResend .. => [.flt, .net]
  | .lockstepVerdict .. => [.regs, .obs, .nv]
  | .powerOnReset .. | .warmReset .. => Comp.all
  | .startTurns .. => [.tb, .regs, .wrk, .flt, .obs, .net, .ses, .nv, .otp]
  | .hello .. | .mgmtAuth .. | .counterReadStation .. | .counterReadShadow .. | .counterReadAlwaysOn .. | .xferData .. => [.regs, .net, .ses]
  | .bye .. | .traceSubscribe .. | .traceStop .. | .traceRecordsSend .. | .dumpReq .. | .dumpSend .. => [.regs, .obs, .net, .ses]
  | .mgmtOpen .. | .attestReq .. => [.regs, .net, .ses, .free]
  | .mgmtAuthTimeout .. | .mgmtSessionTimeout .. => [.tb, .regs, .obs, .ses]
  | .regRead .. => [.regs, .latch, .ecc, .flt, .obs, .net, .ses, .free]
  | .regWrite .. | .splArmAtTurn .. | .splArmOnBit .. | .splArmNow .. | .qdescWrite .. | .stCmdRegWrite .. | .mxInject .. | .dpuMapWrite ..
  | .taskEntryWrite .. | .w1cStatusClear .. => [.regs, .fab, .cmp, .lnk, .wrk, .flt, .obs, .sns, .net, .ses, .pwr, .nv, .free]
  | .faultClear .. => [.regs, .flt, .net, .ses]
  | .timeStep .. | .xferBegin .. => [.regs, .obs, .net, .ses, .nv]
  | .pocSwitch .. => [.regs, .lnk, .obs, .sns, .net, .ses, .nv]
  | .xferEnd .. => [.regs, .obs, .net, .boot, .ses, .nv]
  | .keyRevoke .. => [.regs, .net, .ses, .nv, .otp]
  | .recordAck .. => [.regs, .net, .ses, .nv]
  | .pwrReqIdle .. | .pwrReqPark .. | .pwrReqActive .. | .thermalWarning .. | .thermalWarningEnd .. => [.regs, .pwr]
  | .rstReqPartition .. => [.wrk]
  | .thermalTrip .. => [.regs, .flt, .pwr]
  | .ageingRead .. => [.regs, .nv, .free]
  | .pmbusPoll .. => [.pwr]
  | .splockPin .. => [.regs, .sns, .net]
  | .debugScanRead .. | .debugUnlock .. => [.obs]
  | .lowWordRead .. => [.latch, .ecc, .obs, .net]
  | .drainStoreFwRead .. => [.regs, .ecc, .flt, .obs, .free]
  | .registerWrite .. => [.regs, .ecc, .fab, .cmp, .lnk, .wrk, .flt, .obs, .sns, .net, .ses, .pwr, .nv, .free]
  | .updateWritten .. => [.regs, .mem, .ecc, .obs, .boot, .nv, .free]
  | .stateMoveEnd .. => [.regs, .mem, .ecc, .cmp, .lnk, .wrk, .flt, .obs, .sns, .net, .boot, .ses, .pwr, .nv]

/-- Whether owner key slot `i` can still verify a signature: it holds a key and is not revoked (R416, R418). -/
def Otp.usable (o : Otp) (i : Nat) : Bool := tabGet [] o.keys i != [] && !bit o.revoked i

/-- What one-time-programmable memory may do between two instants (R416, R418, R419): the serial and the keys stay, a revoked slot stays revoked, the thermometers of the
security versions never fall, and while a slot is usable one stays usable. -/
def Otp.goesTo (a b : Otp) : Prop :=
  b.deviceId = a.deviceId ∧ b.keys = a.keys ∧ (∀ i, bit a.revoked i = true → bit b.revoked i = true) ∧ a.svnFw ≤ b.svnFw ∧ a.svnCfg ≤ b.svnCfg ∧
    ((∃ i, i < 4 ∧ a.usable i = true) → ∃ i, i < 4 ∧ b.usable i = true)

/-- Whether class A is latched, the safe state (R382): FIRST_A holds a bit. -/
def Chip.inSafeState (c : Chip) : Bool := c.classA

end Sys2Proof.Machine
end

