-- ==== Sys2Proof/Certificates/Slice0/Obligations.lean ====
section
/-! DEFINITION. Certificates/Slice0/Obligations.lean: the statements for the provers. -/
open Sys2Proof Sys2Proof.Machine

/-- A step takes the command at the front of the queue and runs its effect with the queue's rest. -/
def Obligations.StepRunsFrontCommand : Prop :=
  ∀ (s : State) (i : Instr) (rest : List Instr), s.pending = i :: rest → step s = exec i { s with pending := rest }

/-- The model's choice (log 1): with no command waiting one tick of R300 passes, and nothing else changes. -/
def Obligations.EmptyQueueLetsTickPass : Prop :=
  ∀ (s : State), s.pending = [] → ∃ t, step s = .next t ∧ t.pending = [] ∧ t.chip = { s.chip with tb := { s.chip.tb with tick := s.chip.tb.tick + 1 } }

/-- R384, R434, R511: Before the start sequence no command waits, no turn runs, no FSW bit is latched, the FLT balls are at fault level, no lock holds, and memory lists
nothing. -/
def Obligations.ResetStateIsQuiet : Prop :=
  let c := State.reset.chip
  State.reset.pending = [] ∧ c.canon ∧ c.mem = [] ∧ c.fsw = 0 ∧ c.running = false ∧ c.fltLevel = true ∧ c.classA = false ∧ c.locked = false ∧ c.obs.unlocked = false ∧ c.ses.xfer = none ∧
    c.nv.otp.revoked = 0 ∧ ∀ n : Fin 8, c.sessOpen n = false

/-- Every step keeps memory, registers, poison marks and both flash parts in their one canonical form. -/
def Obligations.EveryStepKeepsCanon : Prop :=
  ∀ (s t : State), s.chip.canon → step s = .next t → t.chip.canon

/-- R416, R418, R419: In every step the serial and the owner keys stay, a revoked slot stays revoked, no security version falls, and while a key slot is usable one
stays usable. -/
def Obligations.EveryStepOnlyFusesOtp : Prop :=
  ∀ (s t : State), step s = .next t → s.chip.nv.otp.goesTo t.chip.nv.otp

/-- R300, R301: The tick count never runs back, and flash part FL1 is never written, in any step but a power-on reset's, which starts the count anew. -/
def Obligations.TicksNeverRunBack : Prop :=
  ∀ (s t : State), step s = .next t → t.chip.nv.fl1 = s.chip.nv.fl1 ∧ ((∀ b l f, s.pending.head? ≠ some (.powerOnReset b l f)) → s.chip.tb.tick ≤ t.chip.tb.tick)

/-- The frame of every command: whatever the state, a part of the chip that `touches` does not name for it stays as it is, and so does the queue. -/
def Obligations.CommandsTouchOnlyTheirParts : Prop :=
  ∀ (i : Instr) (s t : State), exec i s = .next t → t.pending = s.pending ∧ ∀ x ∈ Comp.all, x ∉ touches i → s.chip.same x t.chip

/-- Bytes stored at an address read back, poison marks do not change data, and every other byte stays; a register reads its last written value and every other register
stays. -/
def Obligations.StoresReadBack : Prop :=
  ∀ (c : Chip) (a : Nat) (b : Bytes) (pois : List Nat),
    (∀ x, (c.write a b pois).byte x = if a ≤ x ∧ x < a + b.length then b.getD (x - a) 0#8 else c.byte x) ∧
    (∀ d off v e o, off < 2 ^ 24 → o < 2 ^ 24 → (c.setReg d off v).reg e o = if e = d ∧ o = off then v % 2 ^ 32 else c.reg e o)

/-- The bytes of memory that the storing commands leave: a matrix row write all but its arrays' 256-byte rows, a filled slot all but its header and payload, a plain
store all but its bytes, and a served remote write all but its bytes in the window. -/
def Obligations.StoresTouchOnlyTheirBytes : Prop :=
  ∀ (s t : State),
    (∀ (d : CDie) (k : CoreIx) (flts : LaneFaults) (f : Flight) (rest : List Flight), exec (.mxRowWrite d k flts) s = .next t → (s.chip.mxOf (coreStn (d + 1) k 0)).pipe = f :: rest →
      ∀ a, (∀ w ∈ f.pass.wts, a < rowAddr (d + 1) k w.arr f.vec.tag ∨ rowAddr (d + 1) k w.arr f.vec.tag + 256 ≤ a) → t.chip.byte a = s.chip.byte a) ∧
    (∀ (q : QNum) (ups : Upsets) (r : Run) (j : Nat) (o : OutTile) (rest : List OutTile), exec (.slotFull q ups) s = .next t →
      let x := s.chip.qdesc q
      let qu := s.chip.queue q
      let dep := max 1 (qDepth x)
      let i := (qu.claimIx + dep - qu.count .filling % dep) % dep
      s.chip.filler (s.chip.keyOf (qProd x) (qPart x)) q = some (r, j) → r.outsOf j = o :: rest →
      ∀ a, a < s.chip.slotAddr q i ∨ s.chip.slotAddr q i + 32 + o.data.length ≤ a → t.chip.byte a = s.chip.byte a) ∧
    (∀ (st : Stn) (p : Part) (ups : Upsets) (r : Run) (x : Store) (rest : List Store), exec (.plainStoreAccept st p ups) s = .next t →
      (s.chip.station (stKey st (if isXd st then p else 0))).runs.find? (fun r => !r.stores.isEmpty) = some r → r.stores = x :: rest →
      ∀ a, a < x.addr ∨ x.addr + (if x.add then 4 else x.data.length) ≤ a → t.chip.byte a = s.chip.byte a) ∧
    (∀ (st : Stn) (p : Part) (ups : Upsets) (r : Run) (q : WReq) (rest : List WReq), exec (.remoteRequestArrive st p ups) s = .next t →
      s.chip.asker (stKey st (if isXd st then p else 0)) = some (r, q, rest) →
      ∀ a, a < s.chip.winStart q.die q.win + q.off ∨ s.chip.winStart q.die q.win + q.off + q.data.length ≤ a → t.chip.byte a = s.chip.byte a)

/-- R93: A floating lane whose products are not all finite answers the array NaN when an operand is NaN, when a product is infinity × 0, or when products of both
infinite signs occur; else the infinity of the infinite products' sign. -/
def Obligations.FloatingLaneNonfinite : Prop :=
  ∀ (act wt : Nat) (a : Act) (w : LaneW),
    let ps := laneProds act wt a w
    let inf := fun (x : Fv) => x = .inf true ∨ x = .inf false
    let infProd := fun (p : Fv × Fv) (sign : Bool) => p ∈ ps ∧ (inf p.1 ∨ inf p.2) ∧ (fvNeg p.1 != fvNeg p.2) = sign
    let isNan := (∃ p ∈ ps, p.1 = .nan ∨ p.2 = .nan ∨ (inf p.1 ∧ fvZero p.2 = true) ∨ (fvZero p.1 = true ∧ inf p.2)) ∨ ((∃ p, infProd p true) ∧ ∃ p, infProd p false)
    (isNan → laneFp act wt a w = 0x7FC00000) ∧
    (¬ isNan → ∀ p sign, infProd p sign → laneFp act wt a w = (if sign then 0xFF800000 else 0x7F800000))

/-- R142: The four rounding modes of the exact quotient x / d: to nearest with ties to even, to nearest with ties away from zero, toward zero, toward −∞. -/
def Obligations.IntegerRoundingModes : Prop :=
  ∀ (x : Int) (d : Nat), 0 < d →
    (∀ rnd, rnd < 2 → 2 * (roundDiv rnd x d * d - x).natAbs ≤ d) ∧
    (2 * (roundDiv 0 x d * d - x).natAbs = d → roundDiv 0 x d % 2 = 0) ∧
    (2 * (roundDiv 1 x d * d - x).natAbs = d → x.natAbs ≤ (roundDiv 1 x d * d).natAbs) ∧
    (roundDiv 2 x d * d).natAbs ≤ x.natAbs ∧ (x - roundDiv 2 x d * d).natAbs < d ∧ 0 ≤ roundDiv 2 x d * x ∧
    roundDiv 3 x d * d ≤ x ∧ x < (roundDiv 3 x d + 1) * d

/-- R82, R85, R86, R98: An MX takes its MX_PASS command; the pass begins with every weight tile of its arrays; and after the weight load the weight slots become EMPTY. -/
def Obligations.MatrixPassTakenAndLoaded : Prop :=
  ∀ (s : State) (d : CDie) (c : CoreIx) (r : Run), s.chip.atWork →
    let st := coreStn (d + 1) c 0
    let k := stKey st 0
    let m := s.chip.mxOf st
    let q := dInQ r.desc 0
    s.chip.curRun k = some r →
    (r.begun = false → dType r.desc = 1 → dOp r.desc = 1 →
      exec (.mxPass d c) s = .next (s.put (s.chip.setRun k { r with begun := true }))) ∧
    (∀ ups, r.begun = true → r.inDone = false → r.taken = 0 → (∀ p, m.pass = some p → p.left = 0) → (s.chip.queue q).frozen = false →
      let at_ := fun (i : Nat) => ((s.chip.queue q).acqIx + i) % max 1 (qDepth (s.chip.qdesc q))
      (∀ i < (mxArrays r.desc).length, ((s.chip.queue q).slot (at_ i)).st = .full ∧ s.chip.slotIn q (at_ i) = true ∧ hEos (fromLE (s.chip.peek (s.chip.slotAddr q (at_ i)) 32)) = false) →
      let x := (s.chip.waiting k 6 false).takeWeights st r q ups (mxArrays r.desc)
      (∀ w ∈ x.2.2, w.got = .ok) →
      exec (.mxPassBegin d c ups) s = .next (s.put (
        ((x.1.setRun k x.2.1).setMx st { m with pass := some { desc := r.desc, wts := x.2.2.map (·.wts), left := mxVecs r.desc, loading := true } }).stall st 3 64))) ∧
    (∀ p, m.pass = some p → p.loading = true →
      exec (.weightLoadDone d c) s = .next (s.put (
        (eachDo r.ins (fun t c => c.freeSlot t) (s.chip.setMx st { m with pass := some { p with loading := false } })).setRun k { r with ins := [] })))

/-- R84, R86, R87, R88, R89, R95: The oldest vector of the WF's buffer enters the pipeline of the MX whose arrays can all accept its row, and the oldest vector of the
pipeline writes its row in each array of its pass. -/
def Obligations.MatrixVectorsFlow : Prop :=
  ∀ (s : State) (d : CDie) (c : CoreIx), s.chip.atWork →
    let st := coreStn (d + 1) c 0
    let k := stKey st 0
    let m := s.chip.mxOf st
    let w := s.chip.wfOf (st + 1)
    (∀ p r v rest, m.pass = some p → s.chip.curRun k = some r → p.loading = false → p.left ≠ 0 → r.desc = p.desc → w.buf = v :: rest → v.pool = false →
      (∀ a ∈ mxArrays p.desc, s.chip.rowFree st a v.tag = true) →
      let c1 := (s.chip.setWf (st + 1) { w with buf := rest }).setMx st { pass := some { p with left := p.left - 1 }, pipe := m.pipe ++ [⟨v, p⟩] }
      let c2 := (c1.busy st 1).countOps st p.desc
      exec (.mxVectorIssue d c) s = .next (s.put (if p.left = 1 then c2.setRun k { r with inDone := true } else c2))) ∧
    (∀ flts f rest, m.pipe = f :: rest →
      let c1 := eachDo f.pass.wts (fun w c => c.arrayWrite st f.vec f.pass w flts) (s.chip.setMx st { m with pipe := rest })
      exec (.mxRowWrite d c flts) s = .next (s.put (
        if rest = [] ∧ (∃ p, m.pass = some p ∧ p.left = 0 ∧ p.desc = f.pass.desc) then c1.stall st 1 (mxLatency (mxWt f.pass.desc)) else c1)))

/-- R94, R95, R96: After a vector's rows are written, the row of each of its arrays is DONE where the vector is the last for the row, and ACCUM where it is not. -/
def Obligations.RowWriteMovesRowState : Prop :=
  ∀ (s : State) (d : CDie) (c : CoreIx) (flts : LaneFaults) (f : Flight) (rest : List Flight), s.chip.atWork →
    let st := coreStn (d + 1) c 0
    (s.chip.mxOf st).pipe = f :: rest → f.vec.tag < 1024 → (f.pass.wts.map (·.arr)).Nodup →
    ∃ t, exec (.mxRowWrite d c flts) s = .next t ∧
      ∀ w ∈ f.pass.wts, (t.chip.row st w.arr f.vec.tag).st = (if f.vec.last then RowSt.done else RowSt.accum)

/-- R112, R114, R116, R118, R121, R135: A WF takes its command at its first vector, counts the dead taps, and delivers its vectors one after another into its buffer of
4. -/
def Obligations.WindowVectorsDelivered : Prop :=
  ∀ (s : State) (d : CDie) (c : CoreIx) (r : Run), s.chip.atWork →
    let st := coreStn (d + 1) c 1
    let k := stKey st 0
    let w := s.chip.wfOf st
    let dead := wfKh r.desc * wfKw r.desc - (liveTaps r.desc).length
    let took := (s.chip.setRun k { r with begun := true }).setWf st { w with pos := 0 }
    let o := wfBlk ((stIdx st - 32) / 4)
    s.chip.curRun k = some r → dType r.desc = 2 →
    (r.begun = false → dOp r.desc = 1 → exec (.wfConv d c) s = .next (s.put (took.addReg (stDie st) (o + 4) (dead * wfBatches r.desc)))) ∧
    (r.begun = false → dOp r.desc = 2 → exec (.wfPool d c) s = .next (s.put (took.addReg (stDie st) (o + 4) dead))) ∧
    (∀ ups, r.begun = true → r.inDone = false → w.pos < wfTotal r.desc → w.buf.length < 4 →
      let x := s.chip.wfVector st r ups w.pos
      x.1.held = true →
      exec (.wfVectorDeliver d c ups) s = .next (s.put (x.1.chip.wfDelivered st r w x.1 x.2)) ∧
      (x.1.chip.wfDelivered st r w x.1 x.2).wfOf st = { pos := w.pos + 1, buf := w.buf ++ [x.2] })

/-- R94, R97, R138, R141, R145: A VX_CHAIN forms its next output tile from an input tile, from a pair of input tiles, from drained rows, or from pooled vectors after
their division. A chain with source 1 reads its next DONE row, 256 bytes of the drain store, and the row becomes FREE. -/
def Obligations.VectorChainFormsTiles : Prop :=
  (∀ (s : State) (d : CDie) (c : CoreIx) (res : OptLane) (ups : Upsets) (r : Run), s.chip.atWork →
    let st := coreStn (d + 1) c 2
    let oc := vxOutC r.desc
    let n := min (vxTileH r.desc * vxTileW r.desc) (vxRows r.desc - r.pos)
    s.chip.vxRun st 1 = some r →
    (∀ t, vxSrc r.desc = 0 → dNin r.desc < 2 → r.nextIn = some t →
      let a := s.chip.tileVals r t
      exec (.vxChain d c res ups) s = .next (s.put (
        a.1.formTile st a.2.1 res ups (tilePlace t.hdr) [] a.2.2 (hH t.hdr) (hW t.hdr) (hC t.hdr) (hN t.hdr) (fun r => r.advance t.ord)))) ∧
    (∀ t u, vxSrc r.desc = 0 → 2 ≤ dNin r.desc → r.nextIn = some t → r.paired 1 t.ord = some u →
      let a := s.chip.tileVals r t
      let b := a.1.tileVals a.2.1 u
      exec (.vxChain d c res ups) s = .next (s.put (
        b.1.formTile st b.2.1 res ups (tilePlace t.hdr) b.2.2 a.2.2 (hH t.hdr) (hW t.hdr) (hC t.hdr) (hN t.hdr) (fun r => r.advance t.ord)))) ∧
    (vxSrc r.desc = 1 → (r.pos + n) * popcount 4 (vxMask r.desc) ≤ r.taken1 →
      let x := chainDims r.desc n
      exec (.vxChain d c res ups) s = .next (s.put (
        s.chip.formTile st r res ups (lanePlace n oc) [] (gatherLanes r.acc (popcount 4 (vxMask r.desc)) oc r.pos n) x.1 x.2 oc 1 (fun r => r.made1 n)))) ∧
    (∀ v rest, vxSrc r.desc = 2 → (s.chip.wfOf (st - 1)).buf = v :: rest → v.pool = true →
      let g := max 1 (cdiv oc 64)
      let q := poolDiv r.desc v (res.bind (fun e => if e.stage = 5 then some (e.elem, e.delta) else none))
      let r1 := { r with acc := r.acc ++ q.1, pois := r.pois || v.pois, prov := r.prov || v.prov }
      let c1 := (s.chip.setWf (st - 1) { s.chip.wfOf (st - 1) with buf := rest }).setRun (stKey st 0) r1
      let m := r1.acc.length / (64 * g) - r.pos
      let x := chainDims r.desc m
      q.2 = none →
      exec (.vxChain d c res ups) s = .next (s.put (
        if vxTileH r.desc * vxTileW r.desc ≤ m ∨ v.last then
          c1.formTile st r1 res ups (lanePlace m oc) [] (gatherLanes r1.acc g oc r.pos m) x.1 x.2 oc 1 (fun r => r.made1 m)
        else c1.busy st 1)))) ∧
  (∀ (s : State) (d : CDie) (c : CoreIx) (ups : Upsets) (r : Run), s.chip.atWork →
    let st := coreStn (d + 1) c 2
    let arrs := bitList 4 (vxMask r.desc)
    let g := max 1 arrs.length
    let a := arrs.getD (r.taken1 % g) 0
    let row := vxRowBase r.desc + r.taken1 / g
    let x := s.chip.row (st - 2) a row
    s.chip.vxRun st 1 = some r → vxSrc r.desc = 1 → r.taken1 < vxRows r.desc * g → x.st = .done → x.chkfail = false → x.pois = false →
    let rd := s.chip.read (s.chip.readerOf st r.desc) ups (rowAddr (stDie st) ((stIdx st - 32) / 4) a row) 256
    let r1 := { r with acc := r.acc ++ (chunks 4 rd.2.1).map fromLE, taken1 := r.taken1 + 1, prov := r.prov || x.prov, pois := r.pois || !rd.2.2.isEmpty }
    exec (.vxDrainRead d c ups) s = .next (s.put (((rd.1.setRow (st - 2) a row {}).busy st 1).setRun (stKey st 0) r1)) ∧
    (((rd.1.setRow (st - 2) a row {}).busy st 1).setRun (stKey st 0) r1).row (st - 2) a row = {})

/-- R146, R147, R151, R152: VX_ROW normalises the next tile position by position, with its γ and β tables where the kind uses them, into one output tile of the
descriptor's format. VX_REDUCE over channels gives one tile of one channel for each input tile; over positions it carries the reduction from tile to tile and gives one
tile of one position after the last. -/
def Obligations.VectorRowsAndReductions : Prop :=
  (∀ (s : State) (d : CDie) (c : CoreIx) (ups : Upsets) (r : Run) (t : InTile), s.chip.atWork →
    let st := coreStn (d + 1) c 2
    let a := s.chip.tileVals r t
    let kind := vrKind r.desc
    let g := a.1.rowTable st r ups (kind == 1 || kind == 2) (vrGamma r.desc) (hC t.hdr)
    let b := g.1.rowTable st r ups (kind == 1) (vrBeta r.desc) (hC t.hdr)
    s.chip.vxRun st 2 = some r → r.nextIn = some t →
    ∀ x y, g.2 = .ok x → b.2 = .ok y →
    let ys := (chunks (hC t.hdr) a.2.2).flatMap (rowOp kind (vrEps r.desc) x.1 y.1)
    let lay := keepLay (hLay t.hdr) (vrOutFmt r.desc)
    let cv := convTile (vrOutFmt r.desc) lay (hH t.hdr) (hW t.hdr) (hC t.hdr) (hN t.hdr) ys
    let r1 := { a.2.1 with pois := a.2.1.pois || x.2 || y.2 }
    let o : OutTile := { k := 0, fmt := vrOutFmt r.desc, lay := lay, h := hH t.hdr, w := hW t.hdr, c := hC t.hdr, n := hN t.hdr, data := cv.1 }
    exec (.vxRow d c ups) s = .next (s.put (((b.1.addReg (stDie st) (vxOff st + 0x10) cv.2).busy st (cdiv ys.length 64)).setRun (stKey st 0) ((r1.emit o).advance t.ord)))) ∧
  (∀ (s : State) (d : CDie) (c : CoreIx) (r : Run) (t : InTile), s.chip.atWork →
    let st := coreStn (d + 1) c 2
    let a := s.chip.tileVals r t
    let rows := chunks (hC t.hdr) a.2.2
    let kind := vrKind r.desc
    let f := vrOutFmt r.desc
    let int := workInt (hFmt t.hdr)
    let step := fun (x : Red) (i v : Nat) => redSlip kind int 0 x i v
    s.chip.vxRun st 3 = some r → r.nextIn = some t →
    (vrAxis r.desc = true →
      let reds := rows.map (fun row => row.zipIdx.foldl (fun x v => step x v.2 v.1) ({} : Red))
      let o := redTile kind (vrRnd r.desc) f int (hH t.hdr) (hW t.hdr) 1 (hN t.hdr) reds
      (∀ x ∈ reds, x.bad = false) →
      exec (.vxReduce d c none) s = .next (s.put (((a.1.addReg (stDie st) (vxOff st + 0x10) o.2).busy st (cdiv a.2.2.length 64)).setRun (stKey st 0)
        ((a.2.1.emit { k := 0, fmt := f, h := hH t.hdr, w := hW t.hdr, c := 1, n := hN t.hdr, data := o.1 }).advance t.ord)))) ∧
    (vrAxis r.desc = false →
      let reds := rows.zipIdx.foldl (fun (l : List Red) row => (l.zip row.1).map (fun x => step x.1 (r.pos + row.2) x.2)) (if r.acc.isEmpty then List.replicate (hC t.hdr) {} else r.reds)
      let r1 := { a.2.1 with acc := reds.map (fun (x : Red) => x.val), acc2 := reds.map (fun (x : Red) => x.idx), pos := r.pos + rows.length }
      let o := redTile kind (vrRnd r.desc) f int 1 1 (hC t.hdr) 1 reds
      (∀ x ∈ reds, x.bad = false) →
      exec (.vxReduce d c none) s = .next (s.put (
        if dTiles r.desc ≤ r.made + 1 then ((a.1.addReg (stDie st) (vxOff st + 0x10) o.2).busy st (cdiv a.2.2.length 64)).setRun (stKey st 0)
          ((r1.emit { k := 0, fmt := f, h := 1, w := 1, c := hC t.hdr, n := 1, data := o.1 }).advance t.ord)
        else (a.1.busy st (cdiv a.2.2.length 64)).setRun (stKey st 0) (r1.advance t.ord)))))

/-- R148, R149, R150, R153, R164, R358: Gather reads the table row of each index of an index tile into one output tile; scatter issues each data row as a plain store at
its index's row, and scatter-add each of its elements as an addition. The comparator counts the failing elements of each triple; after the last, where any failed, it
latches the failure and raises the blank line of its die, and with none failed it raises nothing. -/
def Obligations.VectorIndexedAndBlank : Prop :=
  (∀ (s : State) (d : CDie) (c : CoreIx) (ups : Upsets) (r : Run) (t : InTile), s.chip.atWork →
    let st := coreStn (d + 1) c 2
    r.nextIn = some t →
    (s.chip.vxRun st 4 = some r →
      let ix := s.chip.indices r t
      let g := (ix.1.addReg (stDie st) (vxOff st + 0x14) (oorCount r.desc ix.2.2)).gatherRows st r ups ix.2.2 [] false
      ∀ b, g.2 = .ok b →
      exec (.vxGather d c ups) s = .next (s.put ((g.1.busy st (max 1 (ix.2.2.length * cdiv (vtRowBytes r.desc) 64))).setRun (stKey st 0)
        (({ ix.2.1 with pois := ix.2.1.pois || b.2 }.emit
          { k := 0, fmt := vtFmt r.desc, h := hH t.hdr, w := hW t.hdr, c := vtC r.desc, n := hN t.hdr * hC t.hdr, data := b.1 }).advance t.ord)))) ∧
    (∀ u, r.paired 1 t.ord = some u →
      let ix := s.chip.indices r u
      let rd := ix.1.payload t
      let c1 := rd.1.addReg (stDie st) (vxOff st + 0x14) (oorCount r.desc ix.2.2)
      let x := c1.scatterRows st r (tileRows t.hdr rd.2.1 rd.2.2) ix.2.2.zipIdx []
      x.2 = none →
      (s.chip.vxRun st 5 = some r →
        exec (.vxScatter d c) s = .next (s.put ((c1.busy st (max 1 ix.2.2.length)).setRun (stKey st 0) ({ ix.2.1 with stores := r.stores ++ x.1.map (fun (y : Nat × Store) => y.2) }.advance t.ord)))) ∧
      (s.chip.vxRun st 6 = some r →
        let adds := x.1.flatMap (fun (y : Nat × Store) => addStores y.2 none)
        exec (.vxScatadd d c none) s = .next (s.put ((c1.busy st (max 1 adds.length)).setRun (stKey st 0)
          ({ ix.2.1 with stores := r.stores ++ adds, pois := ix.2.1.pois || !rd.2.2.isEmpty }.advance t.ord)))))) ∧
  (∀ (s : State) (d : CDie) (c : CoreIx) (r : Run) (t u v : InTile), s.chip.atWork →
    let st := coreStn (d + 1) c 2
    let x := s.chip.readTriple t u v
    let el := tripleElems t u v x.2.1 x.2.2.1 x.2.2.2
    let fails := tripleFails (hFmt t.hdr) el
    let r1 := (r.countFails fails).advance t.ord
    let c1 := (x.1.setRun (stKey st 0) r1).busy st (max 1 el.length)
    s.chip.vxRun st 7 = some r → r.nextIn = some t → r.paired 1 t.ord = some u → r.paired 2 t.ord = some v →
    exec (.vxBlankcmp d c) s = .next (s.put (if r1.inDone then c1.blankResult st r1 else c1)) ∧
    r1.acc.getD 0 0 = r.acc.getD 0 0 + fails.length ∧
    (r1.acc.getD 0 0 = 0 → (c1.blankResult st r1).flt = c1.flt) ∧
    (r1.acc.getD 0 0 ≠ 0 → c1.reg (d + 1) blkBlk = 0 →
      (c1.blankResult st r1).fld (d + 1) (blkBlk + 4) 29 14 = r1.acc.getD 2 0xFFFF % 65536 ∧ (c1.blankResult st r1).reg (d + 1) (blkBlk + 0x24) = r1.acc.getD 1 0xFFFF % 65536 ∧
      bit ((c1.blankResult st r1).reg (d + 1) blkBlk) 0 = true))

/-- R71, R154, R156, R157, R158, R160, R184: A DM whose source is a window first asks for its data; then a copy moves its runs one after another and issues them as
stores, a load forms its next tile, and a store writes its next tile's runs or, with compression, gathers it; a command of length 0 is done at once. -/
def Obligations.DataMoverMovesRuns : Prop :=
  ∀ (s : State) (st : Stn) (ups : Upsets) (r : Run), s.chip.atWork →
    let c := s.chip
    let k := stKey st 0
    (dmLen r.desc = 0 →
      (c.dmRun st 1 = some r → exec (.dmCopy st ups) s = .next (s.put (c.setRun k r.movedAll))) ∧
      (c.dmRun st 2 = some r → exec (.dmLoad st ups) s = .next (s.put (c.setRun k { r.closeOuts with begun := true, inDone := true }))) ∧
      (c.dmRun st 3 = some r → exec (.dmStore st) s = .next (s.put (c.setRun k { r with begun := true, inDone := true })))) ∧
    (dmLen r.desc ≠ 0 → c.windowFull st r = false →
      (r.wantsSource = true → r.asked = false →
        let qs := c.srcReqs st r
        let c1 := (c.setRun k { r with asked := true, reqs := r.reqs ++ qs }).sendReqs (stDie st) (c.jobPart (dJob r.desc)) 0 qs
        (c.dmRun st 1 = some r → exec (.dmCopy st ups) s = .next (s.put c1)) ∧
        (c.dmRun st 2 = some r → exec (.dmLoad st ups) s = .next (s.put c1))) ∧
      (c.dmRun st 1 = some r → dmSrc r.desc ≠ 3 → dmComp r.desc = 0 →
        let w := c.writeContrib st r
        let x := w.2.copyBlocks st r ups w.1 (chunks (if dmXpose r.desc = 0 then 1 else 64) (copyIx r.desc)) [] []
        ∀ y, x.2 = .ok y → exec (.dmCopy st ups) s = .next (s.put (x.1.issueWrites st r w.1 (.ok y) (srcTotal r.desc) Run.movedAll))) ∧
      (c.dmRun st 1 = some r → r.wantsSource = false → dmSrc r.desc = 3 ∨ dmComp r.desc ≠ 0 →
        let x := c.copySteps st r ups (List.range (dmCnt3 r.desc)) []
        ∀ runs, x.2 = .ok runs → exec (.dmCopy st ups) s = .next (s.put (x.1.copyOut st r runs))) ∧
      (c.dmRun st 2 = some r → r.wantsSource = false →
        let x := c.stepData st r ups r.made
        ∀ y, x.2 = .ok y → exec (.dmLoad st ups) s = .next (s.put (x.1.loadTile st r y))) ∧
      (∀ t, c.dmRun st 3 = some r → r.nextIn = some t →
        let rd := c.payload t
        let m := if hZcomp t.hdr then (expandTile t.hdr rd.2.1).map (fun b => (b, !rd.2.2.isEmpty)) else marked rd.2.1 rd.2.2
        exec (.dmStore st) s = .next (s.put (if dmComp r.desc = 2 then rd.1.gatherTile st r t m else rd.1.storeTile st r t m))))

/-- R126, R129, R130, R131, R133, R134: BX_NMS, once it holds every input tile, keeps the boxes that suppression leaves of its best pre_k candidates, with anchors where
it has a third input: one tile of 32-byte records, or an EOS marker when none is kept; its counts of candidates and of those past pre_k wait for its completion, and its
cycles stay within the bound. -/
def Obligations.BoxNmsKeepsBestBoxes : Prop :=
  ∀ (s : State) (d : CDie) (r : Run), s.chip.atWork →
    let st : Nat := (d + 1) * 128 + 96
    let n := dTiles r.desc
    s.chip.curRun (stKey st 0) = some r → dType r.desc = 5 → dOp r.desc = 1 → r.inDone = false → r.status = 0 → n ≤ r.taken → n ≤ r.taken1 → (3 ≤ dNin r.desc → n ≤ r.taken2) →
    let bs := s.chip.bxRows r 0
    let ss := bs.1.bxRows r 1
    let an := if 3 ≤ dNin r.desc then (ss.1.bxRows r 2).2.1 else []
    let boxes := bs.2.1.zipIdx.map (fun b => bxDecode r.desc b.1 (an.getD b.2 []))
    let per := boxes.zipIdx.map (fun b => if b.1.finite then boxCands r.desc b.2 b.1 (ss.2.1.getD b.2 []) else ([], 0))
    let cands := sortCands (per.flatMap (fun x => x.1))
    let kept := suppress r.desc (cands.take (bxPreK r.desc)) []
    ∃ t r', exec (.bxNms d) s = .next t ∧ t.chip.curRun (stKey st 0) = some r' ∧ r'.inDone = true ∧ r'.status = 0 ∧
      r'.acc.getD 0 0 = cands.length ∧ r'.acc.getD 1 0 = cands.length - min (bxPreK r.desc) cands.length ∧ r'.acc.getD 3 0 ≤ bxBound r.desc cands.length kept.length ∧
      (kept = [] → ∃ o, r'.outs = r.outs ++ [o] ∧ o.eos = true) ∧
      (kept ≠ [] → ∃ o rest, r'.outs = r.outs ++ o :: rest ∧ o.eos = false ∧ o.data = kept.flatMap boxRecord ∧ o.w = kept.length)

/-- R56, R71, R178, R181, R182, R183, R229, R240: XD_PUT reads its local bytes, opens one contribution toward its peer and sends them as its write requests; XD_GET
first asks for the window's bytes and, when all have come, issues them as plain stores. XD_WOPEN writes its window table entry with open set, or with size 0 is rejected
with WINDOW_CLOSED; XD_WCLOSE clears open and remembers the close; and its completion ends the command. -/
def Obligations.ExchangesAndWindows : Prop :=
  (∀ (s : State) (d : CDie) (p : Part) (ups : Upsets) (r : Run) (a : Nat), s.chip.atWork →
    let k := xdKey (d + 1) p
    let x := r.desc
    let st := k / 4
    let part := s.chip.jobPart (dJob x)
    (s.chip.xdRun k 1 = some r → s.chip.xlate st r.task (xdRegion x) (xdLocOff x) (xdLen x) = some a → s.chip.linkFull (stDie st) (xdPeer x) = false →
      let rd := s.chip.readTask (s.chip.readerOf st x) ups a (xdLen x)
      let o := rd.1.openContrib (stDie st) (xdPeer x) part (dJob x) true
      let qs := writeReqs (xdPeer x) (xdWin x) (xdWinOff x) rd.2.1 rd.2.2 (conKey (xdPeer x) (stDie st) o.1 + 1)
      exec (.xdPut d p ups) s = .next (s.put ((((o.2.busyXd st (k % 4) (xdCycles (xdLen x))).setRun k { r.over with reqs := r.reqs ++ qs }).sendReqs (stDie st) part o.1 qs).shareOut (stDie st)))) ∧
    (s.chip.xdRun k 2 = some r → r.asked = false → s.chip.linkFull (stDie st) (xdPeer x) = false →
      let qs := readReqs ((xdPeer x) <<< 33 + (xdWin x) <<< 27 + xdWinOff x) (xdLen x) 0
      exec (.xdGet d p) s = .next (s.put ((s.chip.setRun k { r with asked := true, begun := true, reqs := r.reqs ++ qs }).sendReqs (stDie st) part 0 qs))) ∧
    (s.chip.xdRun k 2 = some r → r.asked = true → r.reqs = [] → r.rets = [] → s.chip.xlateW st r.task (xdRegion x) (xdLocOff x) (xdLen x) = some a →
      exec (.xdGet d p) s = .next (s.put ((s.chip.busyXd st (k % 4) (xdCycles (xdLen x))).setRun k { r.over with stores := r.stores ++ getStores r a })))) ∧
  (∀ (s : State) (d : CDie) (p : Part) (r : Run) (a : Nat), s.chip.atWork →
    let k := xdKey (d + 1) p
    let x := r.desc
    let w := winBlk (xwWin x)
    (s.chip.xdRun k 0x10 = some r → xwSize x ≠ 0 → s.chip.xlateW (k / 4) r.task (xwRegion x) (xwOff x) (xwSize x) = some a →
      exec (.xdWopen d p) s = .next (s.put (((s.chip.putWindow (d + 1) a x).busyXd (k / 4) (k % 4) 1).setRun k r.over)) ∧
      bit ((s.chip.putWindow (d + 1) a x).reg (d + 1) (w + 0xC)) 0 = true ∧ (s.chip.putWindow (d + 1) a x).reg (d + 1) (w + 8) = xwSize x % 2 ^ 32) ∧
    (s.chip.xdRun k 0x10 = some r → xwSize x = 0 → exec (.xdWopen d p) s = .next (s.put (s.chip.setRun k { r.over with closed := true }))) ∧
    (s.chip.xdRun k 0x11 = some r → r.begun = false →
      exec (.xdWclose d p) s = .next (s.put (((s.chip.closeWindow (d + 1) (xwWin x)).busyXd (k / 4) (k % 4) 1).setRun k { r with begun := true })) ∧
      bit ((s.chip.closeWindow (d + 1) (xwWin x)).reg (d + 1) (w + 0xC)) 0 = false ∧
      (bit (s.chip.reg (d + 1) (w + 0xC)) 0 = true → bit ((s.chip.closeWindow (d + 1) (xwWin x)).reg (d + 1) (w + 0xC)) 3 = true)) ∧
    (s.chip.xdRun k 0x11 = some r → r.begun = true → exec (.xdWcloseComplete d p) s = .next (s.put (s.chip.setRun k r.over))))

/-- R230, R240, R243, R244: Each invocation of a collective sends what its members have room for, forms the next output tile whose parts are there, and ends the command
when all is sent and formed. -/
def Obligations.CollectivesSendFormEnd : Prop :=
  ∀ (s : State) (d : CDie) (p : Part) (ord : List (Fin 7)) (flt : Option (Nat × BitVec 32)) (r : Run), s.chip.atWork →
    let k := xdKey (d + 1) p
    let x := s.chip.collSend k { r with begun := true }
    let g := x.1.collGather k x.2
    let fin := fun (c : Chip) => (c.collEnd k).shareOut (stDie (k / 4))
    (s.chip.xdRun k 3 = some r → exec (.xdBcast d p) s = .next (s.put (fin (x.1.collForm k x.2 [] none)))) ∧
    (s.chip.xdRun k 4 = some r → exec (.xdAllgather d p) s = .next (s.put (fin (x.1.collForm k x.2 [] none)))) ∧
    (s.chip.xdRun k 5 = some r → exec (.xdRedscat d p ord flt) s = .next (s.put (fin (x.1.collForm k x.2 (ord.map (fun i => i.val)) flt)))) ∧
    (s.chip.xdRun k 6 = some r → exec (.xdAllreduce d p ord flt) s = .next (s.put (fin (g.1.collForm k g.2 (ord.map (fun i => i.val)) flt))))

/-- R244: An INT32 reduction of tiles of equal length adds them element by element modulo 2^32, in whatever order they arrived. -/
def Obligations.IntegerReductionIgnoresOrder : Prop :=
  ∀ (l m : List Bytes), l.Perm m → (∀ b ∈ l, ∀ c ∈ l, b.length = c.length) → reduceTiles 6 l = reduceTiles 6 m

/-- R63, R67, R136, R164, R327, R473: An enabled station whose task is released and whose last command has issued its input reads starts the next command of its list:
it reads the 64-byte descriptor, clears the command's counters, adds the command to its work and shows it busy. The oldest command ends when everything it issued is
done, and only then its result registers change; after the last command of the list the shadow counters are taken, and the job's task ends when no command of it is
left. -/
def Obligations.StationStartsAndCompletes : Prop :=
  (∀ (s : State) (st : Stn) (p : Part) (ups : Upsets), s.chip.atWork →
    let k := stKey st (if isXd st then p else 0)
    let c := s.chip
    let x := c.station k
    let desc := c.listDesc k x.next
    let j := dJob desc
    stType st ≠ 7 → x.blank = none → bit (c.reg (stDie st) (stBlk (stIdx st))) 0 = true → x.next < c.listCount k → c.jobDead j = false → c.mayRun k j = true →
    (∀ l, x.runs.getLast? = some l → l.inDone = true ∧ dFence desc = false ∧ dJob l.desc = j) →
    let rd := c.read { kind := 2, job := j, part := c.jobPart j, safety := j != 255 && c.isSafety (c.jobPart j) } ups (c.listBase k + 64 * x.next) 64
    let c1 := (if x.next = 0 then rd.1 else rd.1.snapshot st).startCounters st desc x.next (c.cmdPart k j)
    exec (.commandStart st p ups) s = .next (s.put (
      if rd.2.2.isEmpty then
        (c1.modStation k (fun y => { y with runs := y.runs ++ [startRun desc y.next (c1.runTask k j)], next := y.next + 1, lastJob := j })).setFld (stDie st) (stBlk (stIdx st) + 0x14) 4 4 1
      else ((c1.modStation k (fun y => { y with next := y.next + 1, lastJob := j })).skipCmd k x.next stPoisoned).consume st j 4))) ∧
  (∀ (s : State) (st : Stn) (p : Part) (r : Run) (rest : List Run), s.chip.atWork →
    let k := stKey st (if isXd st then p else 0)
    (s.chip.station k).runs = r :: rest → (s.chip.station k).blank = none → r.settled = true → s.chip.pipeBusy st r.desc = false →
    let c2 := ((s.chip.endRegs st r).modStation k (fun y => { y with runs := rest })).endReal k r.ix (if r.status = stOk ∧ r.closed then stWindowClosed else r.status)
    let c3 := if rest.isEmpty ∧ c2.listCount k ≤ (c2.station k).next then c2.snapshot st else c2
    exec (.commandComplete st p) s = .next (s.put ((c3.taskDone k (dJob r.desc)).resume st)))

/-- R41, R45, R50, R51, R52, R229, R235, R243: A producer with a credit claims its queue's next slot, which becomes FILLING and costs the credit (a collective's claim
sends its members a credit flit); without one it waits for credit. The oldest claimed tile of a queue within one die is written payload then header into the oldest
FILLING slot, which becomes FULL with the next sequence number, and one of a queue across dies is delivered as a contribution; a consumer's current command then takes
that slot, which becomes DRAINING. -/
def Obligations.QueueSlotsFillInOrder : Prop :=
  (∀ (s : State) (q : QNum) (r : Run) (j : Nat), s.chip.atWork →
    let x := s.chip.qdesc q
    let qu := s.chip.queue q
    let k := s.chip.keyOf (qProd x) (qPart x)
    s.chip.claimant k q = some (r, j) → qValid x = true → qu.frozen = false → qu.count .filling < 4 →
    (qu.credits ≠ 0 →
      let c1 := s.chip.setQueue q { qu.setSlot qu.claimIx { qu.slot qu.claimIx with st := .filling } with
        claimIx := (qu.claimIx + 1) % max 1 (qDepth x), credits := qu.credits - 1, pwait := false }
      let c2 := (c1.waiting k 5 false).setRun k { r.setClaims j (r.claims j + 1) with pos := if isColl r.desc then r.pos + 1 else r.pos }
      exec (.slotClaim q) s = .next (s.put (if isColl r.desc then c2.collCredits k q r else c2))) ∧
    (qu.credits = 0 → exec (.slotClaim q) s = .next (s.put (((s.chip.setQueue q { qu with pwait := true }).waiting k 5 true).stall (k / 4) 5 1)))) ∧
  (∀ (s : State) (q : QNum) (ups : Upsets), s.chip.atWork →
    let x := s.chip.qdesc q
    let qu := s.chip.queue q
    (∀ r j t rest, 
      let k := s.chip.keyOf (qProd x) (qPart x)
      let dep := max 1 (qDepth x)
      let i := (qu.claimIx + dep - qu.count .filling % dep) % dep
      s.chip.filler k q = some (r, j) → r.outsOf j = t :: rest → qu.frozen = false → qu.count .filling ≠ 0 → groupWaits r (stDie (k / 4)) (qu.count .filling) = false → s.chip.slotIn q i = true →
      s.chip.linkFull (qProd x / 128) (qCons x / 128) = false →
      let pend := t.cids.filter (fun n => (s.chip.contrib n).st != .verified)
      let t' := { t with prov := t.prov || !pend.isEmpty, pois := t.pois || pend.any (fun n => (s.chip.contrib n).st == .failed) }
      let hdr := mkHdr (outHdr r t' s.chip.turn32 (s.chip.tilePart (dJob r.desc) x) qu.pseq)
      let c1 := (s.chip.setRun k { r.setClaims j (r.claims j - 1) with outs := dropFirst (fun y => y.k == j) r.outs }).dumpTile (stDie (k / 4)) r.desc j (toLE 32 hdr ++ t.data)
      (crossDie x = true → exec (.slotFull q ups) s = .next (s.put ((c1.deliverTile q i hdr t.data ups).busy (k / 4) 1))) ∧
      (crossDie x = false →
        let c2 := c1.fillSlot q i hdr t.data t.badAt t.prov (s.chip.readerOf (k / 4) r.desc) ups
        let c3 := pend.foldl (fun (c : Chip) n => c.setContrib n { c.contrib n with slots := (c.contrib n).slots ++ [(q.val, i)] }) c2
        exec (.slotFull q ups) s = .next (s.put (c3.busy (k / 4) 1)) ∧ ((c2.queue q).slot i).st = .full ∧ (c2.queue q).pseq = (c1.queue q).pseq + 1)) ∧
    (∀ r j,
      let k := s.chip.keyOf (qCons x) (qPart x)
      s.chip.curRun k = some r → inOf r.desc q = some j → qValid x = true → qu.frozen = false → r.status = 0 → r.inDone = false → dType r.desc ≠ 1 →
      r.takenOf j < (if j = 0 then dTiles r.desc else r.taken) → (qu.slot qu.acqIx).st = .full → s.chip.slotIn q qu.acqIx = true →
      (hEos (fromLE (s.chip.peek (s.chip.slotAddr q qu.acqIx) 32)) = true → dType r.desc ≠ 2 → ∀ t ∈ r.ins, t.used = true ∨ r.takenOf j ≤ t.ord) →
      let a := (s.chip.waiting k 6 false).acquire (k / 4) r j q ups
      exec (.slotAcquire q ups) s = .next (s.put (a.1.acquired k q qu.acqIx a.2.1 a.2.2)) ∧
      ((a.1.queue q).slot qu.acqIx).st = .draining ∧ (a.1.queue q).cseq = qu.cseq + 1))

/-- R50, R52: A tile that is done with leaves its slot EMPTY and gives one credit back, at once within a die and gathered toward another; gathered credits leave in one
flit, and arriving credits are added unless they would pass the depth. -/
def Obligations.SlotsReleaseCreditsReturn : Prop :=
  ∀ (s : State) (q : QNum), s.chip.atWork →
    let x := s.chip.qdesc q
    let qu := s.chip.queue q
    (∀ r t, let k := s.chip.keyOf (qCons x) (qPart x)
      s.chip.releaser k q = some (r, t) → qu.frozen = false → t.q = q →
      let qv := qu.setSlot t.slot {}
      let c1 := s.chip.setQueue q (if crossDie x then { qv with gathered := qu.gathered + 1 } else { qv with credits := qu.credits + 1 })
      exec (.slotRelease q) s = .next (s.put ((c1.pruneSlot q t.slot).setRun k { r with ins := dropFirst (fun y => y.q == q && y.used) r.ins }))) ∧
    (qu.gathered ≠ 0 → qu.frozen = false → crossDie x = true →
      exec (.creditFlitSend q) s = .next (s.put ((s.chip.setQueue q { qu with gathered := 0, flight := qu.flight + qu.gathered }).sendFlit (qCons x / 128) (qProd x / 128)
        (flitBody { ty := 6, src := qCons x / 128, dst := qProd x / 128, part := qPart x, target := q, info := qu.gathered } [])))) ∧
    (∀ n, qValid x = true → qu.frozen = false → qu.credits + n ≤ qDepth x →
      exec (.creditFlitArrive q n) s = .next (s.put (s.chip.setQueue q { qu with credits := qu.credits + n, flight := qu.flight - n })))

/-- R53, R70: A credit flit that would raise the counter above depth is discarded: the credits stay, the queue is frozen with QERR_STATUS[2], and its job ends. -/
def Obligations.CreditOverflowFreezesQueue : Prop :=
  ∀ (s : State) (q : QNum) (n : Nat), s.chip.atWork →
    let x := s.chip.qdesc q
    let qu := s.chip.queue q
    qValid x = true → qu.frozen = false → qDepth x < qu.credits + n → qu.job ≠ 255 → s.chip.jobDead qu.job = false →
    ∃ t, exec (.creditFlitArrive q n) s = .next t ∧ t.chip.queue q = { qu with frozen := true } ∧ bit (t.chip.reg (q / 1024) qerrStatus) 2 = true ∧ (t.chip.job qu.job).code = 7

/-- R56, R70, R150: The oldest plain store of a station that meets no FULL or DRAINING slot is written, and a scatter-add element is added modulo 2^32; one that meets
such a slot is dropped, the command ends SLOT_VIOLATION and QERR_STATUS[0] is set. -/
def Obligations.PlainStoresKeepSlotsWhole : Prop :=
  ∀ (s : State) (st : Stn) (p : Part) (ups : Upsets) (r : Run) (x : Store) (rest : List Store), s.chip.atWork →
    let k := stKey st (if isXd st then p else 0)
    (s.chip.station k).runs.find? (fun r => !r.stores.isEmpty) = some r → r.stores = x :: rest →
    (s.chip.slotHit x.addr x.data.length = none →
      let c1 := s.chip.setRun k { r with stores := rest }
      let who := c1.readerOf (k / 4) r.desc
      exec (.plainStoreAccept st p ups) s = .next (s.put (if x.add then c1.addElem x who ups else c1.write x.addr x.data x.pois who ups))) ∧
    (∀ q i, s.chip.slotHit x.addr x.data.length = some (q, i) →
      let t := ((s.chip.queueErr q i (k / 4) 0 0).endNow k r stSlotViolation).endJob (dJob r.desc) 6
      exec (.plainStoreAccept st p ups) s = .next (s.put t) ∧ t.mem = s.chip.mem)

/-- R173, R184, R185, R229: A remote request that fails a check of the owning die is counted there and answered with WINDOW_CLOSED or BOUND, and its memory stays; one
that passes is served: a write is written at the window's address, a read's bytes go back in one contribution of the command. A sender takes the next status of its
requests: a read's bytes enter the command's buffer, WINDOW_CLOSED is remembered, a read's refused bytes poisoned, and counted at a DM; BOUND ends the command. -/
def Obligations.RemoteRequestsServed : Prop :=
  (∀ (s : State) (st : Stn) (p : Part) (ups : Upsets) (r : Run) (q : WReq) (rest : List WReq), s.chip.isLive →
    let k := stKey st (if isXd st then p else 0)
    let src := stDie st
    let job := dJob r.desc
    let part := s.chip.jobPart job
    let a := s.chip.winStart q.die q.win + q.off
    let who : Reader := { kind := 0, job := job, part := part, safety := s.chip.isSafety part, st := k / 4 }
    let ok := s.chip.winCheck src part q
    s.chip.asker k = some (r, q, rest) →
    (ok ≠ stOk →
      let c1 := s.chip.addReg q.die (winBlk q.win + (if ok = stWindowClosed then 0x10 else 0x14)) 1
      let c2 := if q.wr then (if q.cid = 0 then c1 else c1.carryReq r q rest src part (q.cid - 1) q.data)
        else if r.cids = [] then c1 else c1.carryReq r q rest src part (r.cids.headD 0) []
      exec (.remoteRequestArrive st p ups) s = .next (s.put (c2.setRun k { r with reqs := rest, rets := r.rets ++ [{ req := q, status := ok, region := s.chip.winRegion q.die q.win }] })) ∧
      c2.mem = s.chip.mem) ∧
    (ok = stOk → q.wr = true →
      let c1 := s.chip.write a q.data q.pois who ups
      exec (.remoteRequestArrive st p ups) s = .next (s.put ((if q.cid = 0 then c1 else c1.carryReq r q rest src part (q.cid - 1) q.data).setRun k
        { r with reqs := rest, rets := r.rets ++ [{ req := q, status := stOk }] }))) ∧
    (ok = stOk → q.wr = false →
      let rd := s.chip.read who ups a q.len
      let o := rd.1.openContrib q.die src part job
      let key := if r.cids = [] then conKey src q.die o.1 else r.cids.headD 0
      let c1 := (if r.cids = [] then o.2 else rd.1).sendData
        { ty := 4, src := q.die, dst := src, part := part, target := q.win, offset := q.off / 8, contrib := key % 8192 } rd.2.1 rd.2.2
      exec (.remoteRequestArrive st p ups) s = .next (s.put ((c1.carryReq r q rest src part key rd.2.1).setRun k
        { r with reqs := rest, cids := [key], rets := r.rets ++ [{ req := q, status := stOk, data := rd.2.1, pois := rd.2.2 }] })))) ∧
  (∀ (s : State) (st : Stn) (p : Part) (r : Run) (x : WRet) (rest : List WRet), s.chip.isLive →
    let k := stKey st (if isXd st then p else 0)
    let shut := x.status == stWindowClosed
    let data := if shut then List.replicate x.req.len 0#8 else x.data
    let pois := if shut then List.range x.req.len else x.pois
    let r1 := { r with rets := rest, closed := r.closed || shut, acc2 := if shut && stType st == 6 then r.acc2 ++ [x.req.place] else r.acc2 }
    let r2 := if x.req.wr then r1 else { r1 with buf := placeBytes r1.buf x.req.place data, bufPois := r1.bufPois ++ pois.map (· + x.req.place) }
    let dm := dmBlk (if stDie st = 0 then stIdx st - 72 else (stIdx st - 32) / 4) + 0xC
    (s.chip.station k).runs.find? (fun r => !r.rets.isEmpty) = some r → r.rets = x :: rest →
    (x.status = stBound → exec (.remoteStatusReturn st p) s = .next (s.put (s.chip.boundFault k r x.region x.req.off (1 <<< 18 + x.req.win <<< 19 + x.req.die <<< 25)))) ∧
    (x.status ≠ stBound → exec (.remoteStatusReturn st p) s = .next (s.put (
      if shut && stType st == 4 then (s.chip.setRun k r2).addReg (stDie st) dm 1 else s.chip.setRun k r2))))

/-- R188, R190, R192, R199, R200, R203, R206, R208, R209, R210, R211, R218: A corrected SRAM word's write-back is done; a buffer's scrub engine reads its next line,
passing over a drain-store row in use, and completes a pass after the last; a forced scrub read also sets SRAM_ERR_STATUS[3]. A controller serves a read or a write of
one line; a same-bank refresh changes no data; an RFM is issued to a bank whose rolling activation count has reached RAAIMT, counted, and lowers the count; and MR4
keeps the rank's code, asks for twice the rate where a rank needs it, and raises the status above the operating limit (how refresh and RFM change the rolling counts
follows JESD79-5, log 132). The DQS oscillator check keeps a count within 2 % and else updates the delays, with an error where the margin stays low, and re-validates
its rank in the die's first full-load turn; patrol scrub reads the next block of the subchannel; and at the end of a metering window a partition that waited below its
reservation raises DDR_ERR_STATUS[7]. -/
def Obligations.MemoryControllersServe : Prop :=
  (∀ (s : State) (d : Die) (buf : Fin 19) (ups : Upsets), s.chip.isLive →
    let b : Nat := buf
    let x := s.chip.scrubAt d b
    let p := x % 2 ^ 20
    (∀ e : Nat × Bool, s.chip.ecc.wb.find? (fun e => e.1 / 2 ^ 41 == (d : Nat)) = some e →
      exec (.sramCeWriteback d) s = .next (s.put { s.chip with ecc := { s.chip.ecc with wb := tabSet false s.chip.ecc.wb e.1 false } })) ∧
    (b ∈ scrubBufs d →
      let inUse := ∃ k, scrubRow d b p = some k ∧ (tabGet {} s.chip.cmp.rows k).st ≠ .free
      let next := if scrubLines d b ≤ p + 1 then (x / 2 ^ 20 + 1) * 2 ^ 20 else x + 1
      (inUse →
        let c1 := { s.chip with ecc := { s.chip.ecc with scrub := tabSet 0 s.chip.ecc.scrub (d * 32 + b) next } }
        exec (.sramScrubRead d buf ups) s = .next (s.put (c1.setReg d (sramBlk + 0x14) (c1.scrubPasses d)))) ∧
      (¬ inUse →
        let c0 := (s.chip.read { kind := 1 } ups (scrubAddr d b p) 64).1
        let c1 := { c0 with ecc := { c0.ecc with scrub := tabSet 0 c0.ecc.scrub (d * 32 + b) next } }
        exec (.sramScrubRead d buf ups) s = .next (s.put (c1.setReg d (sramBlk + 0x14) (c1.scrubPasses d)))) ∧
      let l := s.chip.latchIf d sramBlk [(sramBlk + 4, sramDetail (s.chip.decode (scrubAddr d b p))), (sramBlk + 8, s.chip.turn32)]
      exec (.sramScrubForced d buf ups) s = .next (s.put ((l.raise d sramBlk 3 0).sramScrub d b ups)) ∧ bit ((l.raise d sramBlk 3 0).reg d sramBlk) 3 = true)) ∧
  (∀ (s : State) (d : CDie), s.chip.isLive →
    let die : Nat := d + 1
    let m := (tabGet (0, 0) s.chip.ecc.rfm die).1
    (∀ (r : DdrReq) (ups : Upsets), r.addr.toNat < s.chip.usable die → r.data = none →
      exec (.ddrRequest d r ups) s = .next (s.put (s.chip.read (s.chip.ddrReader r.who) ups (dieBase die + r.addr.toNat) (inLine r.addr.toNat r.len)).1)) ∧
    (∀ (r : DdrReq) (ups : Upsets) (b : Bytes), r.addr.toNat < s.chip.usable die → r.data = some b →
      ∃ t, exec (.ddrRequest d r ups) s = .next t ∧ t.chip.mem = memWrite s.chip.mem (dieBase die + r.addr.toNat) (b.take (inLine r.addr.toNat b.length))) ∧
    (∀ sub rank : Fin 2, ∃ t, exec (.ddrRefreshDue d sub rank) s = .next t ∧ t.chip.mem = s.chip.mem ∧ t.chip.regs = s.chip.regs ∧ t.chip.ecc.poison = s.chip.ecc.poison ∧
      tabGet 0 t.chip.ecc.refs ((die * 2 + sub) * 2 + rank) = (tabGet 0 s.chip.ecc.refs ((die * 2 + sub) * 2 + rank) + 1) % 4) ∧
    (∀ (sub : Fin 2) (bank : Fin 32),
      let k := bankKey die sub bank
      (m = 0 ∨ tabGet 0 s.chip.ecc.raa k < m → exec (.rfmIssue d sub bank) s = .next s) ∧
      (m ≠ 0 → m ≤ tabGet 0 s.chip.ecc.raa k → ∃ t, exec (.rfmIssue d sub bank) s = .next t ∧
        t.chip.regs = (s.chip.addReg die (ddrBlk sub + 0x30) 1).regs ∧ tabGet 0 t.chip.ecc.raa k = tabGet 0 s.chip.ecc.raa k - m)) ∧
    (∀ (sub rank : Fin 2) (code : Fin 8) (hot : Bool),
      let c1 := s.chip.setFld die (ddrBlk sub + 0x2C) (4 * rank + 2) (4 * rank) code
      let twice := mr4Twice (bits (c1.reg die (ddrBlk sub + 0x2C)) 2 0) || mr4Twice (bits (c1.reg die (ddrBlk sub + 0x2C)) 6 4) || hot
      let c2 := c1.setFld die (ddrBlk sub + 0x2C) 8 8 (b2n twice)
      (hot = false → exec (.mr4Read d sub rank code hot) s = .next (s.put c2)) ∧
      (hot = true → ∃ t, exec (.mr4Read d sub rank code hot) s = .next t ∧ bit (t.chip.reg die (ddrBlk sub + 4)) 5 = true ∧
        t.chip.reg die (ddrBlk sub + 0x2C) = c2.reg die (ddrBlk sub + 0x2C)))) ∧
  (∀ (s : State) (d : CDie) (sub : Fin 2), s.chip.isLive →
    let o := ddrBlk sub
    let die : Nat := d + 1
    (∀ (rank : Fin 2) (count : BitVec 16) (ok : Bool), 
      let k : Nat := (die * 2 + sub) * 2 + rank
      let ref := tabGet 0 s.chip.ecc.osc k
      let diff := if count.toNat < ref then ref - count.toNat else count.toNat - ref
      let c0 := if tabGet 0 s.chip.wrk.full die = s.chip.turn + 1 then { s.chip with ecc := { s.chip.ecc with reval := tabSet false s.chip.ecc.reval k true } } else s.chip
      let c1 := c0.setFld die (o + 0x38) (16 * rank + 15) (16 * rank) count.toNat
      let c2 := Chip.addReg { c1 with ecc := { c1.ecc with osc := tabSet 0 c1.ecc.osc k count.toNat } } die (o + 0x34) 1
      (50 * diff ≤ ref → exec (.dqsOscCheck d sub rank count ok) s = .next (s.put c1)) ∧
      (ref < 50 * diff → ok = true → exec (.dqsOscCheck d sub rank count ok) s = .next (s.put c2)) ∧
      (ref < 50 * diff → ok = false → ∃ t, exec (.dqsOscCheck d sub rank count ok) s = .next t ∧ bit (t.chip.reg die (o + 4)) 4 = true ∧ t.chip.ecc.osc = c2.ecc.osc)) ∧
    (∀ ups : Upsets, 
      let p := bits (s.chip.reg die (o + 0x24)) 24 0
      let a := dieBase die + blockAddr sub p
      let c1 := (eachDo (ups.filter (fun u => decide (a ≤ u.addr.toNat ∧ u.addr.toNat < a + 448))) (fun u c => c.upset { kind := 1 } u) s.chip).bursts die sub none 8
      exec (.ddrPatrolScrub d sub ups) s = .next (s.put (if c1.subBlocks die ≤ p + 1 then (c1.setReg die (o + 0x24) 0).addReg die (o + 0x28) 1 else c1.setReg die (o + 0x24) (p + 1)))) ∧
    (∀ (waiting : Fin 16) (p : Part), bit waiting p = true → tabGet 0 s.chip.ecc.served (die * 4 + p) < s.chip.reserved die p →
      ∃ t, exec (.resWindowEnd d waiting) s = .next t ∧ bit (t.chip.reg die (ddrBlk 0 + 4)) 7 = true ∧ ∀ i : Part, tabGet 0 t.chip.ecc.served (die * 4 + i) = 0))

/-- R23, R226, R227, R228: A flit that fails its CRC or comes out of sequence is answered with a nak naming the last good number; an ack frees the replay buffer and
lets waiting flits follow; one in sequence is counted, acknowledged after every sixteenth, passes the adapter's FIFO, and goes on toward its final die; and the ack
timer acknowledges what is open. A nak replays the flits after the number it names and counts them; a fourth nak of one number, or 64 replays in a turn, retrains the
module at both ends; retraining replaces the failing lanes while two spares in each direction last, and reports it; else it takes the module down at both ends. -/
def Obligations.FlitsAcknowledgedAndReplayed : Prop :=
  (∀ (s : State) (l : Lnk) (f : Bytes), s.chip.isLive → lnkOk l.die l.mod = true →
    let d : Nat := l.die
    let m : Nat := l.mod
    let x := s.chip.link d m
    let ctl := fun (ty : Nat) => some (ctlFlit d (farDie d m) ty ((x.rxSeq + 4095) % 4096))
    let nak := s.chip.setLink d m { x with out := ctl 9 }
    x.down = false →
    (x.retraining = false →
      (f.length ≠ 256 ∨ leAt f 252 4 ≠ crc32c (f.take 252) → exec (.flitReceive l f) s = .next (s.put nak)) ∧
      (f.length = 256 → leAt f 252 4 = crc32c (f.take 252) →
        (flitType f = 0 ∨ flitType f = 9 → exec (.flitReceive l f) s = .next s) ∧
        (flitType f = 8 → exec (.flitReceive l f) s = .next (s.put (s.chip.setLink d m (Link.drain { x with replay := x.replay.drop (ackedCount x (flitInfo f)) })))) ∧
        (flitType f ≠ 0 → flitType f ≠ 8 → flitType f ≠ 9 →
          (flitSeq f ≠ x.rxSeq → exec (.flitReceive l f) s = .next (s.put nak)) ∧
          (flitSeq f = x.rxSeq →
            let y := { x with rxSeq := (x.rxSeq + 1) % 4096, unacked := x.unacked + 1 }
            let c1 := (s.chip.setLink d m y).hsPut 3 d m 0 f
            let c2 := if 15 ≤ x.unacked then c1.setLink d m { y with out := some (ctlFlit d (farDie d m) 8 x.rxSeq), unacked := 0 } else c1
            exec (.flitReceive l f) s = .next (s.put (if flitDst f = d then c2 else c2.sendFlit d (flitDst f) (flitStrip f))))))) ∧
    (x.unacked ≠ 0 → exec (.ackTimer l) s = .next (s.put (s.chip.setLink d m { x with out := ctl 8, unacked := 0 })))) ∧
  (∀ (s : State) (l : Lnk), s.chip.isLive → lnkOk l.die l.mod = true →
    let d : Nat := l.die
    let m : Nat := l.mod
    let x := s.chip.link d m
    let o := farDie d m
    let n := farMod d m
    let at_ := if d = 0 then 0 else m
    (∀ sq : Fin 4096, x.down = false →
      let y := { x with replay := x.replay.drop (ackedCount x sq), nakSeq := sq, nakRun := (if x.nakSeq = sq then x.nakRun else 0) + 1, replays := x.replays + 1 }
      exec (.nakReceive l sq) s = .next (s.put ((s.chip.setLink d m y.drain).addReg d (xdBlkOf d o + 0x18) y.replay.length))) ∧
    (x.down = false → x.retraining = false → 4 ≤ x.nakRun ∨ 64 ≤ x.replays →
      let c1 := (s.chip.setLink d m { x with retraining := true }).setLink o n { s.chip.link o n with retraining := true }
      exec (.moduleRetrain l) s = .next (s.put ((c1.xdLatch o d 0 0 0 (if o = 0 then 0 else n)).raise o (xdBlkOf o d) 3 0x0D))) ∧
    (∀ tx rx : Lanes, x.retraining = true →
      let bad := fun (y : Lanes) => laneOrder (List.map (fun (k : Fin 16) => k.val) y)
      (s.chip.sparesAt d m 0 + (bad tx).length ≤ 2 → s.chip.sparesAt d m 1 + (bad rx).length ≤ 2 →
        let put := fun (r : Nat) (c : Chip) (k : Nat) => c.addRepair { kind := 4, die := d, unit := m, spare := r + 2 * c.sparesAt d m r, index := k }
        let c1 := ((bad rx).foldl (put 1) ((bad tx).foldl (put 0) s.chip)).noteLanes d m false |>.noteLanes o n false
        let c2 := if (tx ≠ [] ∨ rx ≠ []) ∧ s.chip.running = true then (c1.xdLatch d o 0 0 0 at_).raise d (xdBlkOf d o) 4 0x0D else c1
        exec (.retrainDone l tx rx) s = .next (s.put ((c2.moduleUp d m).moduleUp o n))) ∧
      (2 < s.chip.sparesAt d m 0 + (bad tx).length ∨ 2 < s.chip.sparesAt d m 1 + (bad rx).length →
        let c2 := (((s.chip.noteLanes d m true).noteLanes o n true).endDown o n).endDown d m
        let c3 := (c2.xdLatch d o 0 0 0 at_).raise d (xdBlkOf d o) 5 0x0E
        let lost := (modsTo d o).all (fun k => (c2.link d k).down)
        exec (.retrainDone l tx rx) s = .next (s.put (if lost then c3.raise d (xdBlkOf d o) 6 0x0F (esc := true) (cls := 1) else c3)))))

/-- R233, R234, R235, R236, R239: A trailer that matches the data verifies its contribution and one that does not fails it; a tally fails every contribution that it
counts and that has no trailer, and one that counts more than were seen fails the turn record of its partition. After a SAFETY contribution fails, the turn record of
its partition is FAILED and the digest line of the receiving die is high; a FAILED record stays FAILED. -/
def Obligations.DigestsDecideContributions : Prop :=
  (∀ (s : State) (d src : Die), s.chip.isLive →
    (∀ (num : Fin 8192) (tr : Trailer), 
      let k := conKey d src num
      let x := s.chip.contrib k
      s.chip.hasContrib k = true → x.st = .pending →
      (x.expects tr = true → exec (.digestTrailerArrive d src num tr) s = .next (s.put ((s.chip.verify d src num).updateRecord x.part))) ∧
      (x.expects tr = false → exec (.digestTrailerArrive d src num tr) s = .next (s.put ((s.chip.contribFail d src num 0).updateRecord x.part)))) ∧
    (∀ (p : Part) (n : Nat),
      let c1 := { s.chip with lnk := { s.chip.lnk with tallies := tabSet 0 s.chip.lnk.tallies ((d * 8 + src) * 4 + p) (n + 1) } }
      let known := s.chip.lnk.contribs.filter (fun e => e.1 / 8192 == d.val * 8 + src.val && e.2.part == p.val)
      let c2 := ((known.take n).filter (fun e => e.2.st == .pending)).foldl (fun (c : Chip) (e : Nat × Contrib) => c.contribFail d src (e.1 % 8192) 1) c1
      let c3 := if n ≤ known.length then c2
        else ((c2.xdLatch d src 0 p 0 0).raise d (xdBlkOf d src) 1 0x10 (esc := c2.isSafety p)).setRecord c2.turn32 p 2
      exec (.tallyArrive d src p n) s = .next (s.put (c3.updateRecord p)))) ∧
  (∀ (c : Chip) (dst src num i : Nat), dst < 8 → src < 8 → dst ≠ src → i < 2 → num < 8192 →
    let p := (c.contrib (conKey dst src num)).part
    p < 4 → (c.isSafety p = true → (c.contribFail dst src num i).record c.turn32 p = 2) ∧
    (∀ v, c.record c.turn32 p = 2 → (c.setRecord c.turn32 p v).record c.turn32 p = 2))

/-- R252, R255, R256, R257, R258, R263, R264, R265, R267: A Frame Start with a good header on a working sink port ends an image still in progress as TRUNC, stamps the
new one and claims the lowest FREE entry, which becomes WRITING with the turn tag; without a FREE entry the image is dropped as OVERRUN, a second of one turn as EXTRA,
one outside the sync turns as OFFSYNC. An image's good lines and embedded lines are kept in order; one that finds staging full drops the image as BACKLOG, a bad header
or CRC as CRC, a line of the wrong length or too many as TRUNC; a further embedded line is discarded; at Frame End an image with every line is complete, and one with
fewer is dropped as TRUNC. The SI takes what is in staging of a whole image, or of the one in progress, and writes what that completes of its embedded lines and planes
into its entry, as one contribution; of a whole image its header is then written last, the contribution's trailer follows, and the entry is VERIFYING. -/
def Obligations.ImagesCollectedAndWritten : Prop :=
  (∀ (s : State) (sp : SPort) (vc : Fin 4) (frameNo : BitVec 16) (retx : Nat) (hdr : HdrEcc) (cap : Capture) (strm : Nat) (g : RingCfg) (tag : Nat), s.chip.atWork →
    let n := if s.chip.sport sp 5 1 = 0 then 0 else retx
    let c := (s.chip.addReg 0 (spBlk sp + 0x30) n).csiCount sp (hdr == .corrected) false
    s.chip.sinkOn sp = true → c.streamOf sp vc = some strm → c.sinkOn sp = true → c.running = true →
    (hdr = .bad → exec (.frameStartPacket sp vc frameNo retx hdr cap) s = .next (s.put (c.dropSi strm 5))) ∧
    (hdr ≠ .bad →
      let c1 := c.dropSi strm 4
      let ts := c1.capture cap - (gearCorr (bits (c1.reg 0 (spBlk sp)) 4 2) + c1.sport sp 9 0 + n * 2000) * 65536 - (c1.sp sp).delay
      let bound := gearErr (bits (c1.reg 0 (spBlk sp)) 4 2) + 2 + c1.sport sp 10 0 + n * 40 + capWiden cap
      let c2 := c1.setReg64 0 (spBlk sp + 0x18) (ts / 65536)
      let r := { c2.ring strm with seen := tag + 1 }
      c2.ringCfg strm = some g → c2.tagOf ts = some tag →
      (g.sync tag = false → exec (.frameStartPacket sp vc frameNo retx hdr cap) s = .next (s.put (c2.noteDrop strm 8))) ∧
      (g.sync tag = true →
        (r.ents.any (fun e => e.2.st != .free && e.2.tag == tag) = true → exec (.frameStartPacket sp vc frameNo retx hdr cap) s = .next (s.put (c2.noteDrop strm 3))) ∧
        (r.ents.any (fun e => e.2.st != .free && e.2.tag == tag) = false →
          (∀ e, c2.freeEntry strm = some e → exec (.frameStartPacket sp vc frameNo retx hdr cap) s = .next (s.put (c2.setRing strm
            { r.setEnt e ⟨.writing, tag⟩ with img := some { ent := e, tag := tag, ts := ts, bound := bound, stretch := cap.ext != 0, retx := n != 0, frameNo := frameNo.toNat } }))) ∧
          (c2.freeEntry strm = none → exec (.frameStartPacket sp vc frameNo retx hdr cap) s = .next (s.put ((c2.setRing strm r).noteDrop strm 1))))))) ∧
  (∀ (s : State) (sp : SPort) (vc : Fin 4) (data : Bytes) (hdr : HdrEcc) (retx strm : Nat) (i : Img), s.chip.atWork →
    let c := (s.chip.addReg 0 (spBlk sp + 0x30) (if s.chip.sport sp 5 1 = 0 then 0 else retx)).csiCount sp (hdr == .corrected) false
    let v := (c.stream strm).getD []
    let full := 262144 < c.staged sp + data.length
    s.chip.sinkOn sp = true → c.sinkOn sp = true → c.streamOf sp vc = some strm → (c.ring strm).img = some i →
    (∀ (dt : Fin 64) (ok : Bool), dt.val ≠ 0x12 → dt.val = v.getD 3 0 →
      (hdr = .bad ∨ ok = false → exec (.csiLinePacket sp vc dt data hdr ok retx) s = .next (s.put (c.dropSi strm 5))) ∧
      (hdr ≠ .bad → ok = true →
        (data.length ≠ lineBytes v ∨ v.getD 5 0 ≤ i.lines.length → exec (.csiLinePacket sp vc dt data hdr ok retx) s = .next (s.put (c.dropSi strm 4))) ∧
        (data.length = lineBytes v → i.lines.length < v.getD 5 0 → exec (.csiLinePacket sp vc dt data hdr ok retx) s =
          .next (s.put (if full then c.dropSi strm 6 else c.setRing strm { c.ring strm with img := some { i with lines := i.lines ++ [data] } }))))) ∧
    (∀ (dt : Fin 64) (ok : Bool), dt.val ≠ 0x12 → dt.val ≠ v.getD 3 0 →
      let c1 := c.csiCount sp false true
      exec (.csiLinePacket sp vc dt data hdr ok retx) s = .next (s.put (if hdr != .bad && ok then c1 else c1.dropSi strm 5))) ∧
    (∀ ok : Bool,
      (hdr = .bad ∨ ok = false → exec (.embeddedDataPacket sp vc data hdr ok retx) s = .next (s.put (c.dropSi strm 5))) ∧
      (hdr ≠ .bad → ok = true → i.lines = [] → i.emb.length < v.getD 6 0 → exec (.embeddedDataPacket sp vc data hdr ok retx) s =
        .next (s.put (if full then c.dropSi strm 6 else c.setRing strm { c.ring strm with img := some { i with emb := i.emb ++ [data] } }))) ∧
      (hdr ≠ .bad → ok = true → i.lines ≠ [] ∨ v.getD 6 0 ≤ i.emb.length → exec (.embeddedDataPacket sp vc data hdr ok retx) s = .next (s.put (c.csiCount sp false true)))) ∧
    (exec (.frameEndPacket sp vc hdr retx) s = .next (s.put (if hdr = .bad then c.dropSi strm 5 else if i.lines.length ≠ v.getD 5 0 then c.dropSi strm 4
      else c.setRing strm { c.ring strm with img := none, out := (c.ring strm).out ++ [{ i with ended := true }] })))) ∧
  (∀ (s : State) (sp : SPort) (vc : Fin 4) (strm : Nat) (i : Img) (rest : List Img) (g : RingCfg), s.chip.atWork →
    let c := s.chip
    let part := c.ringPart strm
    c.streamOf sp vc = some strm → c.ringCfg strm = some g →
    (let v := (c.stream strm).getD []
      let old := c.soFar v { i with ended := false } i.tookEmb i.took
      let new := c.soFar v i i.emb.length i.lines.length
      let fresh := ((new.1.zipIdx.map (fun x => let n := ((old.1.getD x.2 (0, [])).2).length; (x.1.1 + n, x.1.2.drop n))).filter (fun b => !b.2.isEmpty))
      let o := if i.opened then (i.num, c) else c.openContrib 0 g.die part 255
      let c2 := (fresh.foldl (fun c b => c.ingestBytes g strm i.ent b.1 o.1 part b.2 true) o.2).addReg 0 (spBlk g.port + 0x38) (new.2 - old.2)
      let j := { i with tookEmb := i.emb.length, took := i.lines.length, opened := true, num := o.1, written := i.ended, sat := i.sat || decide (old.2 < new.2) }
      ((c.ring strm).out = i :: rest → i.written = false → exec (.ingestWrite sp vc) s = .next (s.put (c2.setRing strm { c2.ring strm with out := j :: rest }))) ∧
      ((c.ring strm).out = [] → (c.ring strm).img = some i → i.emb.drop i.tookEmb ++ i.lines.drop i.took ≠ [] →
        exec (.ingestWrite sp vc) s = .next (s.put (c2.setRing strm { c2.ring strm with img := some j })))) ∧
    ((c.ring strm).out = i :: rest → i.written = true →
      let h := entryHdr 1 0 strm (i.tag % 2 ^ 32) i.ts i.bound (b2n i.stretch + 2 * b2n i.retx + 4 * b2n i.sat) i.frameNo (embBytes i.emb).length ((c.ring strm).ready + 1) g.offs
      let c1 := c.ingestBytes g strm i.ent 0 i.num part h false
      exec (.entryWritten sp vc) s = .next (s.put ((c1.setRing strm { (c1.ring strm).setEnt i.ent ⟨.verifying, i.tag⟩ with out := rest }).sendTrailer 0 g.die part i.num))))

/-- R23, R253, R268, R277, R278: An SI begins the command written for the turn; a sync message leaves at its launch instant; a source frame starts at its launch time if
the gate released its turn, and sends the lines of each tile, or consumes them where it is held; after the last tile the trailer line and Frame End follow. -/
def Obligations.SensorPortsSendOnTime : Prop :=
  ∀ (s : State), s.chip.atWork →
    (∀ pt : SiPort, (s.chip.sp pt).siDue = true →
      exec (.siRun pt) s = .next (s.put (((s.chip.modSp pt (fun x => { x with siDue := false, si := true, cmd := x.next })).setFld 0 (stBlk pt + 0x14) 4 4 1).addReg 0 (stBlk pt + 0x10)
        (b2n (s.chip.sp pt).si)))) ∧
    (∀ (sp : SPort) (off strm : Nat) (g : RingCfg), strm ∈ s.chip.streamsOf sp → s.chip.ringCfg strm = some g → ((s.chip.stream strm).getD []).getD 18 0 = off →
      s.chip.running = true → bits (s.chip.reg 0 (spBlk sp)) 1 0 = 1 → bit (s.chip.reg 0 (spBlk sp)) 10 = false →
      let at_ := fun (start : Nat) => start + off * 1000 - 1280 - (s.chip.sp sp).delay / 65536 - s.chip.sport sp 11 0
      let now := at_ s.chip.turnStart
      let next := at_ s.chip.turnEnd
      let sent := fun (t : Nat) => exec (.frameSyncLaunch sp off) s = .next (s.put ((s.chip.advanceTo t).modSp sp (fun x => { x with sync := t })))
      (g.sync s.chip.turn = true → (s.chip.sp sp).sync < now → sent now) ∧
      (g.sync (s.chip.turn + 1) = true → now ≤ (s.chip.sp sp).sync → (s.chip.sp sp).sync < next → next < s.chip.turnEnd → sent next)) ∧
    (∀ (sp : SPort) (r : Run) (t : InTile) (more : List InTile), s.chip.soRun sp = some r → r.ins = t :: more → r.pos = 0 → (s.chip.sp sp).so = none →
      let c1 := (s.chip.setRun (stKey (40 + sp) 0) { r with pos := 1 }).advanceTo (s.chip.turnStart + soLaunch r.desc * 1000)
      let part := s.chip.jobPart (dJob r.desc)
      let g := s.chip.gateOf (hTurn t.hdr) part
      let f : SoFrame := { desc := r.desc, part := part, turn := hTurn t.hdr, started := g == 1, held := g != 1 }
      exec (.soFrameStart sp) s = .next (s.put (
        if g = 1 then (c1.modSp sp (fun x => { x with tx := [] })).sendCsi sp (some f) [csiPacket 0 (soVc r.desc) (toLE 2 (c1.sp sp).frames)]
        else (c1.addReg 0 (spBlk sp + 0x40) (b2n (g == 2))).modSp sp (fun x => { x with so := some f })))) ∧
    (∀ (sp : SPort) (r : Run) (t : InTile) (x : SoFrame), s.chip.soRun sp = some r → r.pos ≠ 0 → r.nextIn = some t → (s.chip.sp sp).so = some x →
      let rd := s.chip.payload t
      let y := { x with buf := x.buf ++ rd.2.1, bad := x.bad || t.pois || t.prov || !rd.2.2.isEmpty }
      let e := if x.held then (y, []) else soEmit r.desc y
      let c1 := ((rd.1.busy (40 + sp) 1).setRun (stKey (40 + sp) 0) (r.advance t.ord)).sendCsi sp (some e.1) e.2
      exec (.soFrame sp) s = .next (s.put (if (r.advance t.ord).inDone then c1.soEnd sp e.1 else c1))) ∧
    (∀ (sp : SPort) (x : SoFrame), s.chip.soRun sp = none → (s.chip.sp sp).so = some x → exec (.soFrame sp) s = .next (s.put (s.chip.soCut sp x)))

/-- R264, R270, R272, R274, R335: A lost sensor link drops its images; the third current sample in a row above the trip switches a coax port off with SP_ERR_STATUS[1],
and 100 ms later it comes on again; a low eye margin raises FSW bit 4. -/
def Obligations.SensorPortFaultsHandled : Prop :=
  ∀ (s : State) (sp : SPort), s.chip.isLive →
    let b := spBlk sp
    let x := s.chip.reg 0 b
    let drop := fun (c : Chip) => (c.streamsOf sp).foldl (fun c s => c.dropSi s 4) c
    (bit x 5 = true → exec (.sensorLinkLost sp) s = .next (s.put ((((drop s.chip).setFld 0 b 5 5 0).spLatch sp 0 4 0 0).raise 0 (b + 4) 2 0x1C))) ∧
    (∀ ma : BitVec 16, bit x 6 = true →
      let m := min 1023 ma.toNat
      let c1 := (s.chip.setFld 0 (b + 0x14) 9 0 m).setFld 0 (b + 0x14) 25 16 (max (s.chip.fld 0 (b + 0x14) 25 16) m)
      (m ≤ s.chip.sport sp 17 1023 → m ≠ 1023 → exec (.pocSample sp ma) s = .next (s.put (c1.modSp sp (fun x => { x with high := 0 })))) ∧
      (s.chip.sport sp 17 1023 < m ∨ m = 1023 →
        ((s.chip.sp sp).high < 2 → exec (.pocSample sp ma) s = .next (s.put (c1.modSp sp (fun x => { x with high := (s.chip.sp sp).high + 1 })))) ∧
        (2 ≤ (s.chip.sp sp).high →
          let c3 := ((drop c1).setFld 0 b 6 6 0).setFld 0 b 7 7 (b2n (decide (s.chip.sport sp 19 1 ≤ c1.fld 0 b 9 8)))
          exec (.pocSample sp ma) s = .next (s.put (((c3.modSp sp (fun x => { x with high := 0, offNs := c3.nowNs })).spLatch sp 0 4 m 0).raise 0 (b + 4) 1 0x1C))))) ∧
    (bit x 6 = false → bit x 7 = false → s.chip.sport sp 14 0 ≠ 0 → (s.chip.sp sp).offNs ≠ 0 →
      exec (.pocRetry sp) s = .next (s.put (((s.chip.advanceTo ((s.chip.sp sp).offNs + 100000000)).setFld 0 b 6 6 1).setFld 0 b 9 8 (bits x 9 8 + 1)))) ∧
    (bits x 1 0 ≠ 0 → exec (.eyeMarginCheck sp true) s = .next (s.put (s.chip.rise { bit := 4, cause := 0x1C, die := 0, src := 0 })))

/-- R285, R286, R289, R294, R295, R298: A received frame with a bad FCS, too long, or with a foreign VLAN tag is discarded and counted in EP_RXDROP, and marks the
window of the lidar it came from as lossy; one that fails MACsec, or falls before the replay window, is counted by EP_SECFAIL. A good datagram for the port's role is
counted and forwarded, and a lidar's packet joins the frame of its window; at the window's end the rest of the frame is written into its entry, header last, and its
contribution closes. -/
def Obligations.EthernetFramesDelivered : Prop :=
  (∀ (s : State) (n : EPort) (f : EthFrame) (cap : Capture), s.chip.hears n → s.chip.role n ≠ 0 → s.chip.linkUp n = true →
    let p := etherParse f.bytes
    let drop := s.chip.addReg 0 (epBlk n + 0x18) 1
    let badTag := ∃ v, p.1 = some v ∧ v ≠ s.chip.eport n 5 0
    (f.fcsOk = false → exec (.ethFrameReceive n f cap) s = .next (s.put drop)) ∧
    (f.fcsOk = true → maxFrame n < f.bytes.length + 4 ∨ badTag → exec (.ethFrameReceive n f cap) s =
      .next (s.put (drop.lidarLoss n (if p.2.1 = 0x0800 then ipParse p.2.2 else none) (s.chip.capture cap - (s.chip.rxCorr n).1)))) ∧
    (f.fcsOk = true → f.bytes.length + 4 ≤ maxFrame n → ¬badTag → s.chip.eport n 8 0 = 1 → p.2.1 ≠ 0x888E → p.2.1 ≠ 0x88F7 →
      (bit (s.chip.reg 0 (epBlk n)) 7 = false → exec (.ethFrameReceive n f cap) s = .next (s.put drop)) ∧
      (bit (s.chip.reg 0 (epBlk n)) 7 = true → f.macsecOk = false ∨ f.pn + s.chip.eport n 11 0 < (s.chip.ep n).rxPn →
        exec (.ethFrameReceive n f cap) s = .next (s.put (s.chip.addReg 0 (epBlk n + 0x28) 1))))) ∧
  (∀ (s : State),
    (∀ (n : EPort) (f : EthFrame) (cap : Capture) (u : Udp), s.chip.hears n → s.chip.role n ≠ 0 → s.chip.linkUp n = true →
      let p := etherParse f.bytes
      let c := if s.chip.eport n 8 0 = 1 then s.chip.modEp n (fun x => { x with rxPn := max x.rxPn (f.pn + 1) }) else s.chip
      f.fcsOk = true → f.bytes.length + 4 ≤ maxFrame n → (∀ v, p.1 = some v → v = s.chip.eport n 5 0) →
      (s.chip.eport n 8 0 = 1 → bit (s.chip.reg 0 (epBlk n)) 7 = true ∧ f.macsecOk = true ∧ (s.chip.ep n).rxPn ≤ f.pn + s.chip.eport n 11 0) →
      p.2.1 = 0x0800 → ipParse p.2.2 = some u → c.roleTakes n u = true → u.sumOk = true →
      (c.role n ≠ 3 → exec (.ethFrameReceive n f cap) s = .next (s.put (((c.hsPut 5 0 (24 + n) 0 f.bytes).addReg 0 (epBlk n + 0x14) 1).forward n f.bytes))) ∧
      (∀ l, c.role n = 3 → c.lidarOf n u = some l →
        let k := c.rxCorr n
        exec (.ethFrameReceive n f cap) s = .next (s.put
          (((c.hsPut 5 0 (24 + n) 0 f.bytes).lidarPacket n l (c.capture cap - k.1) (2 + k.2 + capWiden cap) (cap.ext != 0) u.body).forward n f.bytes)))) ∧
    (∀ (l : Lidar) (i : Img) (g : RingCfg) (v : List Nat), s.chip.atWork →
      let strm : Nat := 48 + l
      (s.chip.ring strm).img = some i → s.chip.ringCfg strm = some g → s.chip.lidar l = some v →
      let c0 := s.chip.advanceTo (s.chip.startOf i.frameNo + v.getD 4 0 * 1000 + s.chip.periodNs * g.div)
      let part := c0.ringPart strm
      let old := (lidarBody { i with lines := i.lines.take i.took }).length
      let o := if i.opened then (i.num, c0) else c0.openContrib 0 g.die part 255
      let left := (lidarBody i).drop old
      let c1 := if left = [] then o.2 else o.2.ingestBytes g strm i.ent (64 + old) o.1 part left true
      let r := s.chip.ring strm
      let h := entryHdr 2 0 l (i.tag % 2 ^ 32) i.ts i.bound (b2n i.stretch + 8 * b2n (r.lossy.contains i.frameNo)) (min 0xFFFF i.emb.length) (sumOver i.emb (·.length)) (r.ready + 1) g.offs
      let c2 := c1.ingestBytes g strm i.ent 0 o.1 part h false
      exec (.lidarWindowEnd l) s = .next (s.put ((c2.setRing strm { (c2.ring strm).setEnt i.ent ⟨.verifying, i.tag⟩ with
        img := none, lossy := r.lossy.filter (fun w => decide (i.frameNo < w)) }).sendTrailer 0 g.die part o.1))))

/-- R288, R289, R290, R291, R292, R293: With the wire free, the highest-priority queue whose head may start does so, and EP_TXFRAMES counts it; a TQ1 head starts at its
launch time less the transmit correction; one that reached the head past its tolerance is discarded, and one that leaves late otherwise is sent and counted. At its
limit the packet number restarts with a new SAK, which MKA distributes; the SQI is stored and enough low readings in a row set EP_ERR_STATUS[0]; a dropped link drops
its lidars' frames, ends the secure association and sets EP_ERR_STATUS[1]; and a trained link is up again. -/
def Obligations.EthernetSendsAndFollowsLink : Prop :=
  (∀ (s : State) (n : EPort) (f : Frame) (rest : List Frame), s.chip.hears n → s.chip.linkUp n = true →
    let c := s.chip
    let x := c.ep n
    x.wire = none →
    (x.tq1 = [] → c.maySend n f = true →
      (x.tq0 = f :: rest → exec (.tqFrameStart n) s = .next (s.put ((c.modEp n (fun x => { x with tq0 := x.tq0.drop 1 })).startFrame n f))) ∧
      (x.tq0 = [] → x.tq2 = f :: rest → exec (.tqFrameStart n) s = .next (s.put ((c.modEp n (fun x => { x with tq2 := x.tq2.drop 1 })).startFrame n f))) ∧
      (x.tq0 = [] → x.tq2 = [] → x.tq3 = f :: rest → exec (.tqFrameStart n) s = .next (s.put ((c.modEp n (fun x => { x with tq3 := x.tq3.drop 1 })).startFrame n f)))) ∧
    (x.tq1 = f :: rest → c.maySend n f = true →
      let c1 := c.advanceTo (f.due - c.txCorr n)
      c1.ep n = x →
      let c2 := c1.modEp n (fun x => { x with tq1 := x.tq1.drop 1, headNs := c1.nowNs })
      let late := f.due + launchTol n < c1.nowNs + c1.txCorr n
      let past := f.due + c1.eport n 19 0 * 1000 < x.headNs
      exec (.tq1Launch n) s = .next (s.put (
        if ¬late then c2.startFrame n f
        else if past then ((c2.addReg 0 (epBlk n + 0x20) 1).epLatch n 0 0 0 (f.part - 1)).raise 0 (epBlk n + 4) 2 0x1D
        else (c2.addReg 0 (epBlk n + 0x24) 1).startFrame n f)))) ∧
  (∀ (s : State) (n : EPort), s.chip.hears n →
    let c := s.chip
    (c.eport n 8 0 = 1 → (if c.eport n 9 1 < 2 then 0xC0000000 else 2 ^ 62) ≤ (c.ep n).pn →
      exec (.macsecRekey n) s = .next (s.put ((c.modEp n (fun x => { x with pn := 0, rxPn := 0 })).mkaSend n))) ∧
    (∀ v : Fin 8, c.role n ≠ 0 → n.val < 8 →
      let run := if v.val < c.eport n 15 3 then (c.ep n).sqiRun + 1 else 0
      let c1 := (c.setFld 0 (epBlk n) 6 4 v).modEp n (fun x => { x with sqiRun := run })
      exec (.sqiRead n v) s = .next (s.put (if run ≠ 0 ∧ c.eport n 16 50 ≤ run then (c1.epLatch n 0 0 0 0).raise 0 (epBlk n + 4) 0 0x1D else c1))) ∧
    (c.linkUp n = true →
      let c1 := (c.lidarsOf n).foldl (fun c s => match (c.ring s).img with | some i => c.lidarDrop s i.frameNo 4 | none => c) c
      exec (.linkDrop n) s = .next (s.put ((((c1.setFld 0 (epBlk n) 3 3 0).setFld 0 (epBlk n) 7 7 0).epLatch n 0 0 0 0).raise 0 (epBlk n + 4) 1 0x1D))) ∧
    (c.role n ≠ 0 → bit (c.reg 0 (epBlk n)) 8 = false →
      exec (.linkUp n) s = .next (s.put (((c.setFld 0 (epBlk n) 3 3 1).setFld 0 (epBlk n) 7 7 0).mkaSend n)) ∧ (c.portUp n).linkUp n = true))

/-- R320, R321, R324: A boundary ends the running turn and begins the next: the turn number rises by one, and the turn starts at the time base's value there, which
without a time step is the first grid instant that leaves the turn its length. Once the pins have left fault level, turn 0 starts at its grid instant; in the safe state
no turn begins. -/
def Obligations.BoundaryBeginsNextTurn : Prop :=
  (∀ (s : State) (env : BoundaryEnv), s.chip.locked = false → s.chip.turnState = 1 → s.chip.fld 0 (obsBlk + 0x1C) 1 0 ≠ 1 →
    let c0 := s.chip.advanceTo s.chip.turnEnd
    let b := c0.boundaryStep
    let c2 := (b.2.closeTurn.boundaryCounters env).boundaryPower
    exec (.turnBoundary env) s = .next (s.put (c2.boundaryWork (s.chip.turn + 1) (c2.pwrState == 0 && (!c2.pwr.idleTurns || decide (c2.wrk.firstNs ≤ c2.nowNs))) b.1)) ∧
    ∃ t, exec (.turnBoundary env) s = .next t ∧ t.chip.turn = (s.chip.turn + 1) % 2 ^ 64 ∧ t.chip.turnState = 1 ∧ t.chip.turnStart = t.chip.nowNs % 2 ^ 64 ∧
      (s.chip.net.steps = [] → s.chip.net.lockStep = none → bit (t.chip.reg 0 (tsBlk + 0x10)) 2 = false)) ∧
  (∀ (s : State) (env : BoundaryEnv), s.chip.locked = false →
    (s.chip.turnState = 0 → s.chip.flt.armed = true → ∃ t, exec (.turnBoundary env) s = .next t ∧ t.chip.turn = 0 ∧ t.chip.turnState = 1) ∧
    (s.chip.turnState = 2 → exec (.turnBoundary env) s = .next s))

/-- R17: A rotation puts the logical core of the core due to rest on the core that has rested, and every other logical core stays where it is. -/
def Obligations.RotationMovesOneCore : Prop :=
  ∀ (c : Chip) (d l : Nat), 1 ≤ d → d < 8 → l < 8 →
    let old := c.fld d (tsBlk + 0xC) 3 0
    let new := (old + 1) % 9
    old < 9 → c.logOf d new = some l →
    (c.rotate d).physOf d l = old ∧ (c.rotate d).fld d (tsBlk + 0xC) 3 0 = new ∧ ∀ m, m < 8 → m ≠ l → (c.rotate d).physOf d m = c.physOf d m

/-- R323, R327, R328, R464, R509: A launched job's tasks are released at its release instant; a budget or deadline that runs out is a timing fault and the job is
missed; and a Carver resets a station still at a terminated job's command. A job that misses its budget in the turn ends with status 2, and one that misses its deadline
with status 3; a job whose end is decided keeps its first cause. -/
def Obligations.TasksReleasedAndSupervised : Prop :=
  (∀ (s : State),
    (∀ j : JobIx, s.chip.atWork → 
      let ts := s.chip.jobTasks j
      s.chip.running = true → s.chip.launched j = true → s.chip.jobDead j = false → (∀ t ∈ ts, (s.chip.task t.1 t.2).released = false) →
      let c1 := s.chip.advanceTo (s.chip.turnStart + s.chip.cfgBy 0x0702 j 5 50 * 1000)
      let c2 := eachDo (c1.wrk.hsdWins.filter (fun x => dJob x == j)) (fun x c => c.openHsd j x) c1
      let c3 := eachDo ts (fun t c => c.setTask t.1 t.2 { c.task t.1 t.2 with released := true }) c2
      exec (.taskRelease j) s = .next (s.put (eachDo ts (fun t c => if (c.keysOfTask t.1 t.2).any (c.jobLeft j) then c else c.endTask t.1 t.2) c3).settle)) ∧
    (∀ (d : Die) (k : TaskIx), s.chip.atWork →
      let j := bits (s.chip.owner d k) 6 1
      s.chip.running = true → bit (s.chip.owner d k) 0 = true → (s.chip.task d k).released = true → (s.chip.task d k).ended = false → s.chip.jobDead j = false →
      exec (.budgetExpiry d k) s = .next (s.put
        (((s.chip.advanceTo (s.chip.budgetNs (s.chip.cfgBy 0x0702 j 5 50) (s.chip.task d k).budget)).timeFault d k 0).missJob d j 2))) ∧
    (∀ (j : JobIx) (t : Nat × Nat) (ts : List (Nat × Nat)), s.chip.atWork → s.chip.running = true → s.chip.launched j = true → s.chip.jobDead j = false →
      let c1 := s.chip.advanceTo (s.chip.turnStart + s.chip.cfgBy 0x0702 j 6 0 * 1000)
      (c1.jobTasks j).filter (fun t => !(c1.task t.1 t.2).ended) = t :: ts →
      exec (.deadlineExpiry j) s = .next (s.put ((eachDo (t :: ts) (fun t c => c.timeFault t.1 t.2 1) c1).missJob t.1 j 3))) ∧
    (∀ (st : Stn) (p : Part), s.chip.isLive → (∃ i : Part, ∃ r ∈ (s.chip.realStation (stKey st i)).runs, s.chip.jobDead (dJob r.desc) = true) →
      exec (.stationResetByCarver st p) s = .next (s.put (s.chip.stationReset st).settle))) ∧
  (∀ (c : Chip) (j code : Nat), j < 64 → code ≠ 0 →
    ((c.job j).code = 0 → ((c.endJob j code).job j).code = code) ∧
    ((c.job j).code ≠ 0 → c.endJob j code = c) ∧
    (∀ i, i ≠ j → (c.endJob j code).job i = c.job i))

/-- R509: A station reset ends the station's commands, zeroes its list registers, leaves status ABORTED and counts itself, and no queue changes. -/
def Obligations.StationResetClearsStation : Prop :=
  ∀ (s : State) (st : Stn) (who : Src), s.chip.locked = false → s.chip.openMgmt who = true → stType st ≠ 0 →
    exec (.rstReqStation st who) s = .next (s.put (s.chip.stationReset st).settle) ∧
    let c := s.chip.stationReset st
    c.fab.queues = s.chip.fab.queues ∧ (∀ p : Part, c.station (stKey st p) = {}) ∧ c.reg64 (stDie st) (stBlk (stIdx st) + 4) = 0 ∧ c.reg (stDie st) (stBlk (stIdx st) + 0xC) = 0 ∧
    c.reg (stDie st) (stBlk (stIdx st) + 0x10) = 0 ∧ c.fld (stDie st) (stBlk (stIdx st) + 0x14) 6 0 = stAborted ∧
    c.fld 0 (pwrBlk + 0x18) 15 0 = min 0xFFFF (s.chip.fld 0 (pwrBlk + 0x18) 15 0 + 1)

/-- R325, R347: The blank slot starts at blank_off_us with every covered station held; it ends blank_us later with the stations whose blank has ended resumed; and 50 µs
after it a die without a failing or late blank passes. -/
def Obligations.BlankSlotRunsAndJudges : Prop :=
  ∀ (s : State), s.chip.atWork →
    (s.chip.running = true → s.chip.wrk.slotNs = 0 →
      let c1 := s.chip.advanceTo (s.chip.turnStart + s.chip.cfg1 0x0701 3 0 * 1000)
      let c2 := { c1.orReg 0 (tsBlk + 0x10) 8 with wrk := { c1.wrk with slotNs := c1.nowNs } }
      exec .blankSlotStart s = .next (s.put (eachDo ((List.range 8).drop 1) (fun d c => c.holdDie d) c2))) ∧
    (bit (s.chip.reg 0 (tsBlk + 0x10)) 3 = true →
      let c2 := (s.chip.advanceTo (s.chip.wrk.slotNs + s.chip.cfg1 0x0701 4 0 * 1000)).setFld 0 (tsBlk + 0x10) 3 3 0
      exec .blankSlotEnd s = .next (s.put (eachDo ((c2.fab.held.map (fun h => h.1 / 4)).eraseDups) (fun st c => c.resume st) c2))) ∧
    (∀ d : CDie, s.chip.wrk.slotNs ≠ 0 → bit (s.chip.reg 0 (tsBlk + 0x10)) 3 = false → s.chip.fenced (d + 1) = false → s.chip.running = true → tabGet 0 s.chip.wrk.verdicts (d + 1) = 0 →
      s.chip.lateBlank (d + 1) = none →
      (tabGet false s.chip.wrk.blankBad (d + 1) = false →
        let c1 := s.chip.advanceTo (s.chip.wrk.slotNs + (s.chip.cfg1 0x0701 4 0 + 50) * 1000)
        exec (.blankVerdict d) s = .next (s.put ((c1.noteVerdict (d + 1) 1).setFld (d + 1) (blkBlk + 0x1C) 3 0 0))) ∧
      (tabGet false s.chip.wrk.blankBad (d + 1) = true → ∃ t, exec (.blankVerdict d) s = .next t ∧ tabGet 0 t.chip.wrk.verdicts (d + 1) = 2))

/-- R330, R332, R336, R337: A passed segment of the resting core advances its checkpoint; a failed one is recorded for repair and sets TS_STATUS[3]; a clock window
counts its cycles IDLE at the island's stations without work and enters the island's sustained clock; and a failed periodic test raises its bit. -/
def Obligations.CoresAndClocksTested : Prop :=
  ∀ (s : State),
    (∀ (d : CDie) (c : CoreIx), s.chip.isLive → s.chip.fenced (d + 1) = false → s.chip.running = true → s.chip.testCore (d + 1) s.chip.turn = some c →
      bit (s.chip.reg (d + 1) (tsBlk + 0xC)) 13 = false →
      exec (.selftestSegmentDone d c .pass) s = .next (s.put (s.chip.segPass (d + 1) c)) ∧
      exec (.selftestSegmentDone d c .other) s = .next (s.put (s.chip.segFail (d + 1) c ⟨2, d + 1, c, 0xFF, 0⟩)) ∧
      (s.chip.fld (d + 1) (tsBlk + 0x10 + 4 * c) 5 0 < 47 →
        (s.chip.segPass (d + 1) c).fld (d + 1) (tsBlk + 0x10 + 4 * c) 5 0 = s.chip.fld (d + 1) (tsBlk + 0x10 + 4 * c) 5 0 + 1)) ∧
    (∀ (d : CDie) (i : Fin 14) (n : Nat) (ext : BitVec 32), s.chip.isLive → s.chip.fenced (d + 1) = false →
      let c1 := (s.chip.noteExt (d + 1) i ext.toNat).countIdle (d + 1) i n
      exec (.clockWindow d i n ext) s = .next (s.put (if i.val < 10 then c1.sustain (d + 1) i n else c1))) ∧
    (∀ b : Fin 8, s.chip.locked = false → exec (.headstockPeriodicTest (some b)) s = .next (s.put (s.chip.rise { bit := b, cause := 0x24, die := 0, src := 0 })))

/-- R360, R361, R362, R363, R368, R461: The EG reads its next tile into staging and rechecks it; a tile still PROVISIONAL waits. The gate withholds a partition's turn
when a condition has failed and releases it when all are met; a turn undecided at the launch instant is withheld as LATE, and the port starts the partition's first
datagram. -/
def Obligations.EgressAndGateDecide : Prop :=
  (∀ (s : State) (p : Part) (bad : ReadFault) (r : Run) (t : InTile), s.chip.atWork →
    s.chip.curRun (egKey p) = some r → dType r.desc = 8 → dOp r.desc = 1 → r.inDone = false → r.status = 0 → r.nextIn = some t →
    (t.prov = true → (s.chip.contrib (hdrContrib t.hdr)).st = .pending → exec (.egMsg p bad) s = .next s) ∧
    (t.prov = false → exec (.egMsg p bad) s = .next (s.put (s.chip.egTile p bad r t))) ∧
    (t.prov = false → t.pois = true → bit ((s.chip.egTile p bad r t).reg 0 (gateBlk p)) 3 = true)) ∧
  (∀ (s : State) (p : Part), s.chip.locked = false →
    (s.chip.gateOpen p = true →
      let f := s.chip.settle.gateCause p
      (f.1 ≠ 0 → exec (.gateDecision p) s = .next (s.put (s.chip.settle.withhold p f.1 f.2.1 f.2.2))) ∧
      (f.1 = 0 → s.chip.settle.gateReady p = true → exec (.gateDecision p) s = .next (s.put (s.chip.settle.release p))) ∧
      (f.1 = 0 → s.chip.settle.gateReady p = false → exec (.gateDecision p) s = .next (s.put s.chip.settle))) ∧
    (s.chip.running = true → s.chip.pwrState = 0 → (s.chip.part p).started = true →
      let c1 := (s.chip.advanceTo (s.chip.launchNs p - s.chip.txCorr (s.chip.sessPort (s.chip.sessOf p)))).settle
      (c1.gateOpen p = false → c1.negotiated p = true → exec (.resultLaunch p) s = .next (s.put (c1.tq1Launch (c1.sessPort (c1.sessOf p))))) ∧
      (c1.gateOpen p = true → (c1.gateCause p).1 = 0 →
        let c2 := c1.withhold p 6 (c1.gateCause p).2.1 (c1.gateCause p).2.2
        exec (.resultLaunch p) s = .next (s.put (if c2.negotiated p then c2.tq1Launch (c2.sessPort (c2.sessOf p)) else c2)))))

/-- R361, R363: The first failed condition is found in the rule's order: a FAILED record, a failed blank of a die involved, a latched class A fault, a poisoned or
failed result tile, and a job ended by poison, a header error, a credit overflow or a digest failure. A withheld turn's staging is discarded and its gate decision is
final. -/
def Obligations.GateConditionsInOrder : Prop :=
  (∀ (c : Chip) (p : Part),
    (c.record c.turn32 p = 2 → (c.gateCause p).1 = 2) ∧
    (c.record c.turn32 p ≠ 2 → (∀ d, c.blankCounts p d = true → tabGet 0 c.wrk.verdicts d ≠ 2) →
      (c.classA = true → (c.gateCause p).1 = 5) ∧
      (c.classA = false → (c.part p).fail = 0 → (∀ j ∈ c.partJobs p, withholds (c.job j).code = false) → (c.gateCause p).1 = 0))) ∧
  (∀ (c : Chip) (p : Part) (cause msg die : Nat), cause < 8 → msg < 65536 → die < 8 →
    ((c.withhold p cause msg die).part p).staged = [] ∧ (c.withhold p cause msg die).gateOf c.turn32 p = 2 ∧ (c.withhold p cause msg die).gateOpen p = false)

/-- R301, R302, R303, R304, R305: A Sync's offset is kept and steers adj while the device is locked; the first offset is removed by one step, at once before turns start
and else at the boundary; adj moves towards its target within the slope and the limit, but keeps its value in HOLDOVER; and three Sync intervals without a Sync are
HOLDOVER. The target itself is the Turner's (log 40). A port that gives time sends a Sync with its Follow_Up and an Announce; every port of the domain sends a delay
request, and a mean delay above the threshold leaves the link not asCapable. -/
def Obligations.TimeBaseFollowsMaster : Prop :=
  (∀ (s : State),
    let c := s.chip
    (∀ (n : EPort) (off want : Int), c.hears n → c.timeRec 0 0 = 1 → c.eport n 12 0 = 2 → c.linkUp n = true → (c.ep n).asCapable = true →
      let c1 := c.setReg 0 (timeBlk + 0x14) (satReg off)
      let c2 := { c1 with net := { c1.net with syncNs := c1.nowNs, want := clampInt (-c.adjLimit) c.adjLimit want } }
      (2 ≤ c.tbState → exec (.ptpSyncReceive n off want) s = .next (s.put (c2.setTb 2))) ∧
      (c.tbState < 2 → c.turnState = 0 → exec (.ptpSyncReceive n off want) s = .next (s.put ((c2.stepTime (-off)).setTb 2))) ∧
      (c.tbState < 2 → c.turnState ≠ 0 →
        exec (.ptpSyncReceive n off want) s = .next (s.put (Chip.setTb { c2 with net := { c2.net with lockStep := some (-off) } } 1)))) ∧
    (c.locked = false → c.timeRec 0 0 = 1 → c.tbState ≠ 3 → ∃ t, exec .adjSlew s = .next t ∧
      t.chip.tb.adj = clampInt (-c.adjLimit) c.adjLimit (c.tb.adj + clampInt (-c.adjSlope) c.adjSlope (c.net.want - c.tb.adj)) ∧
      -c.adjLimit ≤ t.chip.tb.adj ∧ t.chip.tb.adj ≤ c.adjLimit ∧ t.chip.tb.k0 = t.chip.tb.tick ∧ t.chip.tb.tick = max c.tb.tick (c.net.adjTick + 250000)) ∧
    (c.tbState = 3 → exec .adjSlew s = .next s) ∧
    (c.locked = false → c.tbState = 2 → c.timeRec 0 0 = 1 →
      exec .syncTimeout s = .next (s.put (c.advanceTo (c.net.syncNs + 3 * c.syncInterval)).holdover) ∧ (c.advanceTo (c.net.syncNs + 3 * c.syncInterval)).holdover.tbState = 3)) ∧
  (∀ (s : State) (n : EPort), s.chip.hears n → s.chip.ptpOn n = true →
    let c := s.chip
    (c.eport n 12 0 = 1 → exec (.ptpSyncSend n) s = .next (s.put ((c.ptpSend n 0 64 []).ptpSend n 8 94 (toBE 8 c.nowNs ++ toBE 2 c.nowFrac ++ toBE 4 0)))) ∧
    (c.eport n 12 0 = 1 → exec (.announceSend n) s = .next (s.put (if c.tbState = 2 then c.ptpSend n 11 94 c.net.gm
      else c.ptpSend n 11 94 (toLE 1 (c.timeRec 7 248) ++ toLE 1 (c.timeRec 9 248) ++ toBE 3 0 ++ toLE 1 (c.timeRec 8 248) ++ c.clockId)))) ∧
    (∀ mpd, ∃ t, exec (.pdelayExchange n mpd) s = .next t ∧ (t.chip.ep n).mpd = mpd ∧ (t.chip.ep n).asCapable = decide (mpd ≤ c.timeRec 5 800) ∧
      (c.eport n 12 0 = 2 → t.chip.reg 0 (timeBlk + 0x18) = mpd % 2 ^ 32)))

/-- R5, R311, R312, R318: A selected edge goes into its pin's FIFO of 8, or is counted as lost; reading the low word pops the oldest entry, whose other words are
latched; and an output pin drives its next scheduled edge, PPS the next whole second. -/
def Obligations.TimingPinsCaptureAndDrive : Prop :=
  ∀ (s : State) (p : Pin),
    let c := s.chip
    let o := timeBlk + 0x24 + 0xC * p.val
    (∀ (rising : Bool) (ph : Fin 4) (pulse : Nat), bit (c.timeRec (10 + p) 0) (if rising then 0 else 1) = true → 10 ≤ pulse →
      let t := c.tb.at c.tb.tick ph / 65536 - 157286
      let fifo := tabGet [] c.net.tsIn p
      (fifo.length < 8 → tabGet 0 c.net.lastIn p + 200 * 65536 ≤ t + 1 ∨ tabGet 0 c.net.lastIn p = 0 →
        ∃ u, exec (.tsInEdge p rising ph pulse) s = .next u ∧ tabGet [] u.chip.net.tsIn p = fifo ++ [⟨t, rising⟩]) ∧
      (8 ≤ fifo.length → exec (.tsInEdge p rising ph pulse) s = .next (s.put (c.tsLost p)))) ∧
    (∀ who, c.locked = false → c.reaches who = true →
      (tabGet [] c.net.tsIn p = [] → ∃ u, exec (.tsinDataLoRead p who) s = .next u ∧ u.chip.obs.value = 0 ∧ u.chip.net = c.net) ∧
      (∀ e rest, tabGet [] c.net.tsIn p = e :: rest → ∃ u, exec (.tsinDataLoRead p who) s = .next u ∧
        u.chip.obs.value = e.ts / 65536 % 2 ^ 32 ∧ tabGet [] u.chip.net.tsIn p = rest ∧
        tabGet 0 u.chip.latch (srcNum who * 2 ^ 32 + regKey 0 (o + 4)) = e.ts / 65536 / 2 ^ 32 % 2 ^ 32 + 1)) ∧
    (c.tsRec p 1 = 1 → c.net.silent = false →
      let e := tabGet 0 c.net.tsOut p
      ∃ u, exec (.tsOutEdge p) s = .next u ∧ tabGet 0 u.chip.net.tsOut p = e + 1 ∧ tabGet false u.chip.net.tsHigh p = (e % 2 == 0) ∧ u.chip.tb = (c.advanceTo (c.edgeNs p e)).tb) ∧
    (c.timeRec 14 0 = 1 → c.net.silent = false → ∃ u, exec .ppsEdge s = .next u ∧ u.chip.net.pps = !c.net.pps ∧
      u.chip.tb = (c.advanceTo (if c.net.pps then c.nowNs / 1000000000 * 1000000000 + c.timeRec 15 100 * 1000000 else cdiv c.nowNs 1000000000 * 1000000000)).tb)

/-- R374, R376, R378, R380: The collector takes the oldest rise of a bit's line, stamped with the time base; the Turner pair's escalation is a class A event; an open
management session clears the bits of its mask. One bit is cleared only when it is latched in class B or C and its line is low; a class A bit stays. -/
def Obligations.CollectorLatchesAndClears : Prop :=
  (∀ (s : State),
    let c := s.chip
    (∀ (b : FswBit) (ph : Fin 4) (r : Rise), c.flt.rises.find? (fun r => r.bit == b.val) = some r →
      exec (.errorLineLatch b ph) s = .next (s.put (Chip.latchEvent { c with flt := { c.flt with rises := c.flt.rises.erase r } } r (c.tb.at c.tb.tick ph)))) ∧
    (∀ (b : FswBit) (cause : BitVec 8), c.locked = false →
      exec (.fcEscalate b cause .turner) s = .next (s.put (c.latchEvent { bit := b, cause := cause.toNat, die := 0, src := 0, esc := true, cls := 1 } c.nowF))) ∧
    (∀ (mask : BitVec 64) (who : Src), c.locked = false → c.openMgmt who = true →
      exec (.fswClear mask who) s = .next (s.put (eachDo (bitList 64 mask.toNat) (fun b c => c.clearBit b) c)))) ∧
  (∀ (c : Chip) (b : Nat), b < 64 →
    (c.fcls b = 1 → c.clearBit b = c) ∧ (c.lineHigh b = true → c.clearBit b = c) ∧
    (c.fsw.testBit b = true → c.fcls b ≠ 1 → c.lineHigh b = false →
      (c.clearBit b).fsw.testBit b = false ∧ ∀ i, i < 64 → i ≠ b → (c.clearBit b).fsw.testBit i = c.fsw.testBit i))

/-- R376, R379, R381, R382: The first class A event sets its FSW bit and FIRST_A, brings the FLT balls to fault level and ends turns. -/
def Obligations.ClassAEventEntersSafeState : Prop :=
  ∀ (c : Chip) (r : Rise) (t : Nat), r.bit < 64 → c.fsw.testBit r.bit = false → c.riseClass r = 1 → c.flt.seq = none → c.locked = false →
    let x := c.latchEvent r t
    x.fsw.testBit r.bit = true ∧ x.fcls r.bit = 1 ∧ x.classA = true ∧ x.fltLevel = true ∧ x.running = false ∧ bits (x.reg 0 (fcBlk + 0x1C)) 5 0 = r.bit ∧ x.net.silent = true

/-- R382, R393, R394: A class A sequence's record goes into the lowest erased slot of FL0 with its signed report, and the ring's tail follows; the second and third
copies are resent. -/
def Obligations.FaultRecordKeptAndReported : Prop :=
  ∀ (s : State) (x : Seq), s.chip.flt.seq = some x → s.chip.locked = false →
    let c := s.chip
    (x.record = [] →
      let d := c.drawSteps
      let sec := x.bit == 1
      let c1 := d.2.countRecord
      let r := c1.faultRecord x (b2n (!sec) + 2 * b2n sec + 4 + 1 <<< 3 + 32 * b2n c.freeRecord.isNone)
        [d.1.getD 0 0 % 41, d.1.getD 1 0 % 41, d.1.getD 2 0 % 1001, c.nowNs - x.ns] c1.nv.log.records
      exec .faultRecordWritten s = .next (s.put ((((c1.storeRecord x c.freeRecord r).orReg 0 (fcBlk + 0x18) (128 * b2n c.freeRecord.isSome)).shav 0 4 0x0030 4 x.bit x.cause).mirrorTail)) ∧
      r.length = 256) ∧
    (x.copies = 1 ∨ x.copies = 2 →
      exec .reportResend s = .next (s.put (Chip.sendReport { c with flt := { c.flt with seq := some { x with copies := x.copies + 1 } } } x.report)))

/-- R384, R385, R386, R387, R388, R389, R390, R391: Equal FLT balls at two reads in a row are a class A event; a lockstep mismatch halts the pair and raises its line; a
verdict is kept for the next start; both copies of an agreement read get the AND; and a debug halt stops both. A fall of chip select counts and freezes the 16-byte
frame; a good challenge with a new sequence number is kept and its response is due; a bad one is counted; and the Turner publishes the response when it is due. -/
def Obligations.LockstepAndSafetyPort : Prop :=
  (∀ (s : State) (u : Unit8),
    let c := s.chip
    (∀ n p : Bool, n ≠ p → exec (.fltReadback n p) s = .next (s.put { c with flt := { c.flt with equal := 0 } })) ∧
    (∀ n : Bool, c.flt.equal = 1 → exec (.fltReadback n n) s = .next (s.put (Chip.rise { c with flt := { c.flt with equal := 2 } } { bit := 2, cause := 0x26, die := 0, src := 0, cls := 1 }))) ∧
    (c.locked = false → c.unitRuns u = true → ∃ t, exec (.lockstepMismatch u) s = .next t ∧ t.chip.unitRuns u = false ∧
      ∃ r : Rise, t.chip.flt.rises = c.flt.rises ++ [r] ∧ r.bit = (if u.val = 0 then 0 else 8 * u.val + 5) ∧ r.cause = 0x11 ∧ r.cls = 1) ∧
    (∀ v : LsVerdict, c.locked = false → (c.unit u).halted = true →
      ∃ t, exec (.lockstepVerdict u v) s = .next t ∧ t.chip.fld 0 (lsUnit u) 15 8 = lsCode v ∧ tabGet 0 t.chip.nv.verdicts u % 8 = lsCode v) ∧
    (∀ a b : BitVec 32, c.locked = false → c.unitRuns u = true → ∃ t, exec (.agreementRead u a b) s = .next t ∧
      (t.chip.unit u).value = (a &&& b).toNat ∧ (t.chip.unit u).pending = (a ||| b).toNat ∧
      (a ≠ b → t.chip.fld 0 (lsUnit u) 31 16 = min 0xFFFF (c.fld 0 (lsUnit u) 31 16 + 1))) ∧
    (c.locked = false → c.obs.unlocked = true → ∃ t, exec (.debugHalt u) s = .next t ∧ t.chip.unitRuns u = false ∧ (t.chip.unit u).halted = (c.unit u).halted ∧ t.chip.flt.rises = c.flt.rises)) ∧
  (∀ (s : State),
    let c := s.chip
    (∃ t, exec .sspCsFall s = .next t ∧ t.chip.flt.ssp.count = (c.flt.ssp.count + 1) % 256 ∧ t.chip.flt.ssp.frame = (c.setFld 0 (fcBlk + 0x24) 15 0 (min 0xFFFF (c.fld 0 (fcBlk + 0x24) 15 0 + 1))).sspFrame ((c.flt.ssp.count + 1) % 256)) ∧
    (∀ m : Bytes, m.length = 16 → (∃ b ∈ m, b ≠ 0#8) →
      (c.cfg ≠ [] → crc16 (m.take 14) = leAt m 14 2 → (∀ b ∈ slice m 3 11, b = 0#8) → leAt m 2 1 + 1 ≠ c.flt.ssp.last →
        ∃ t, exec (.sspChallenge m) s = .next t ∧ t.chip.flt.ssp.valid = false ∧ t.chip.flt.ssp.due = some (c.nowNs + c.cfg1 0x0801 69 200 * 1000) ∧
          t.chip.fld 0 (fcBlk + 0x28) 15 0 = leAt m 0 2 ∧ t.chip.flt.ssp.accepted = c.flt.ssp.accepted + 1) ∧
      (crc16 (m.take 14) ≠ leAt m 14 2 → ∃ t, exec (.sspChallenge m) s = .next t ∧ t.chip.flt.ssp = c.flt.ssp ∧
        t.chip.fld 0 (fcBlk + 0x24) 23 16 = min 0xFF (c.fld 0 (fcBlk + 0x24) 23 16 + 1))) ∧
    (∀ due, c.flt.ssp.due = some due → c.locked = false → c.classA = false → c.unitRuns 0 = true →
      ∃ t, exec .wdResponseReady s = .next t ∧ t.chip.flt.ssp.valid = true ∧ t.chip.flt.ssp.due = none ∧
        t.chip.fld 0 (fcBlk + 0x28) 31 16 = c.wdResponse (c.fld 0 (fcBlk + 0x28) 15 0) (c.fld 0 (fcBlk + 0x24) 31 24) (c.flt.ssp.accepted % 256)))

/-- R304, R354, R383, R430, R439, R505, R506, R507: A power-on keeps only what outlasts power and starts the device; a warm reset keeps a little more; turns may start
after step 11; a state move ends in PARK or ACTIVE; and a written update is in FL0, or its region is erased. -/
def Obligations.ResetsStartTheDevice : Prop :=
  ∀ (s : State),
    let c := s.chip
    (∀ (byPin : Bool) (low : Nat) (f : Findings), byPin = false ∨ (c.classA = false ∧ 10000 ≤ low) →
      exec (.powerOnReset byPin low f) s = .next (s.put ((c.dropStaged.coldParts).startSeq f true 1))) ∧
    (∀ (low : Nat) (f : Findings), (bit (c.reg 0 startBlk) 5 && c.fld 0 (startBlk + 0x18) 1 0 == 3) = false → c.classA = false → 1000 ≤ low →
      exec (.warmReset low f) s = .next (s.put ((c.dropStaged.warmParts).startSeq f false 2))) ∧
    (c.locked = false → c.stopped = false → c.fld 0 startBlk 3 0 = 11 → c.awaitsHello = false → ∃ t, exec .startTurns s = .next t ∧ t.chip.flt.armed = true ∧
      t.chip.fld 0 startBlk 3 0 = 12 ∧ c.boot.fwSvn ≤ t.chip.nv.otp.svnFw ∧ c.boot.cfgSvn ≤ t.chip.nv.otp.svnCfg) ∧
    (∀ f : Findings, c.locked = false →
      (c.pwr.move = 2 → exec (.stateMoveEnd f) s = .next (s.put c.enterPark)) ∧
      (c.pwr.move = 3 → exec (.stateMoveEnd f) s = .next (s.put (c.endResume f))) ∧
      (c.pwr.move = 4 → exec (.stateMoveEnd f) s = .next (s.put c.restart) ∧ c.restart.pwrState = 0)) ∧
    (∀ x : Xfer, c.locked = false → c.boot.staged = some x →
      exec (.updateWritten false) s = .next (s.put (c.updFailed x)) ∧
      (x.kind ≠ 3 → ∃ t, exec (.updateWritten true) s = .next t ∧ t.chip.fld 0 (startBlk + 0x18) 1 0 = 3 ∧ t.chip.boot.staged = none ∧
        t.chip.nv.fl0 = flashWrite (c.dropStaged).nv.fl0 (updRegion x.kind c.pushSlot).1 x.data))

/-- R452, R456, R458, R459: A HELLO that offers an accepted version is answered with HELLO_ACK and the negotiation waits for the boundary; a BYE is answered and ends a
partition session's negotiation at the next boundary, a management session at once; MGMT_OPEN reserves the lowest free session with a nonce, MGMT_AUTH over that nonce
opens it, and 5 s or 60 s of silence end it. -/
def Obligations.SessionsOpenAndEnd : Prop :=
  ∀ (s : State) (m : Dgram) (r : Req) (n : Nat),
    let c := s.chip
    (∀ g, c.hears m.port → c.route m false = .to n r → n < 4 → r.ty = 1 → r.clean = true → r.sess = n → r.body.length = 16 → zeroAt r.body 4 12 = true → c.partServed n = true →
      ((c.sess n).live && r.seq == (c.sess n).rx && leAt (c.sess n).cache 6 2 == 2) = false → c.negotiate n r = some g →
      exec (.hello m) s = .next (s.put (c.helloAck n r g)) ∧ ((c.helloAck n r g).sess n).next = some (some g) ∧ ((c.helloAck n r g).sess n).neg = (c.sess n).neg) ∧
    (c.asks m false n r → n < 4 → r.ty = 3 → r.body = [] →
      exec (.bye m) s = .next (s.put (((c.heard m n r).modSess n (fun x => { x with next := some none })).reply n r.seq 0 []))) ∧
    (c.asks m false n r → 4 ≤ n → n < 8 → (c.sess n).live = true → r.ty = 3 → r.body = [] → ∃ t, exec (.bye m) s = .next t ∧ t.chip.sess n = {} ∧ t.chip.sessOpen n = false) ∧
    (c.hears m.port → c.recovering = false → c.linkUp m.port = true → c.role m.port = 2 → m.dstUdp.toNat = 19290 → parseMsg m.body false = some r → r.ty = 4 → r.clean = true → r.body = [] →
      c.reopened m r = none → [4, 5, 6, 7].find? (fun s => !c.inUse s) = some n →
      exec (.mgmtOpen m) s = .next (s.put (c.challenge m r n)) ∧ ((c.challenge m r n).sess n).reserved = true ∧ ((c.challenge m r n).sess n).isOpen = false) ∧
    (c.hears m.port → c.route m true = .to n r → 4 ≤ n → n < 8 → r.ty = 6 → r.clean = true → r.body.length = 36 → zeroAt r.body 1 3 = true → (c.sess n).isOpen = false →
      ((c.sess n).live = true → r.seq = ((c.sess n).rx + 1) % 2 ^ 32 ∧ r.seq ≠ (c.sess n).rx) → leAt r.body 0 1 ≤ 3 → c.slotGood (leAt r.body 0 1) = true → leAt r.body 4 32 = (c.sess n).nonce →
      exec (.mgmtAuth m true) s = .next (s.put (((c.heard m n r).modSess n (fun x => { x with isOpen := true })).reply n r.seq 0 []))) ∧
    (∀ i : MSess, c.locked = false →
      ((c.sess (4 + i)).reserved = true → (c.sess (4 + i)).isOpen = false →
        exec (.mgmtAuthTimeout i) s = .next (s.put ((c.advanceTo ((c.sess (4 + i)).lastNs + 5000000000)).endSession (4 + i)))) ∧
      ((c.sess (4 + i)).isOpen = true → exec (.mgmtSessionTimeout i) s = .next (s.put ((c.advanceTo ((c.sess (4 + i)).lastNs + 60000000000)).endSession (4 + i)))))

/-- R272, R306, R465, R466: REG_READ returns the words of a range; REG_WRITE writes a control-space register; FAULT_CLEAR clears its bits' sources and the bits, and
answers which of the mask are clear; TIME_STEP queues its step for the boundary; POC_SWITCH switches a coax port that no SAFETY partition uses, and drops its images
where it switches it off. -/
def Obligations.MailboxActsOnDevice : Prop :=
  ∀ (s : State) (m : Dgram) (r : Req) (n : Nat) (ups : Upsets), s.chip.asks m false n r →
    let h := s.chip.heard m n r
    let a := leAt r.body 0 8
    let k := leAt r.body 8 2
    (4 ≤ n → n < 8 → r.ty = 0x21 → r.body.length = 16 → zeroAt r.body 10 6 = true → a % 4 = 0 → a + 4 * k ≤ 2 ^ 48 → within k 1 256 = true →
      let w := (h.setErr false).mgmtWords ups n k a
      exec (.regRead m ups) s = .next (s.put (w.2.reply n r.seq 0 w.1))) ∧
    (∀ (i : Fin 4) (d off : Nat), n = 4 + i → r.ty = 0x22 → r.body.length = 16 → zeroAt r.body 12 4 = true → a % 4 = 0 → a < 2 ^ 48 → h.decode a = .ctl d off →
      exec (.regWrite m) s = .next (s.put ((h.writeReg (.mgmt i) d off (leAt r.body 8 4)).reply n r.seq 0 []))) ∧
    (n < 8 → r.ty = 0x23 → r.body.length = 8 → h.holds n (some 2) = true →
      let c1 := eachDo (bitList 64 a) (fun b c => c.faultClearBit b) h
      exec (.faultClear m) s = .next (s.put (c1.reply n r.seq 0 (toLE 8 (a - (a &&& c1.fsw)))))) ∧
    (n < 8 → r.ty = 0x24 → r.body.length = 8 → h.holds n (some 3) = true →
      exec (.timeStep m) s = .next (s.put ((Chip.shav { h with net := { h.net with steps := h.net.steps ++ [sext 64 a] } } 2 1 0x0013 (a % 2 ^ 32) (a / 2 ^ 32) 0).reply n r.seq 0 []))) ∧
    (n < 8 → r.ty = 0x25 → r.body.length = 8 → zeroAt r.body 2 6 = true → h.holds n (some 6) = true →
      let p := leAt r.body 0 1
      let x := h.reg 0 (spBlk p)
      p < 24 → h.sport p 1 0 = 1 → h.isSafety (h.sport p 2 0) = false → h.sport p 14 0 ≠ 0 → bit x 7 = false → bit x 10 = false →
      (leAt r.body 1 1 = 1 → exec (.pocSwitch m) s = .next (s.put ((h.setFld 0 (spBlk p) 6 6 1).reply n r.seq 0 []))) ∧
      (leAt r.body 1 1 = 0 → exec (.pocSwitch m) s = .next (s.put ((((h.setFld 0 (spBlk p) 6 6 0).dropPort p).modSp p (fun y => { y with high := 0, offNs := 0 })).reply n r.seq 0 []))))

/-- R393, R417, R418, R420, R439, R467: A transfer begins, takes its data in order, and ends with the image checked and staged; ATTEST is signed over the host's nonce;
KEY_REVOKE signed by another good slot revokes its slot; and RECORD_ACK lets its record's slot be erased. -/
def Obligations.TransfersKeysRecordsServed : Prop :=
  ∀ (s : State) (m : Dgram) (r : Req) (n : Nat),
    let h := s.chip.heard m n r
    let b := r.body
    (s.chip.asks m false n r → (4 ≤ n ∧ n < 8) ∨ n = 255 →
      (r.ty = 0x30 → b.length = 8 → zeroAt b 1 3 = true → s.chip.ses.xfer = none → s.chip.boot.staged = none →
        let k := leAt b 0 1
        within k 1 (if n = 255 then 2 else 3) = true → within (leAt b 4 4) 1 (if k = 1 then 0xC00000 else if k = 2 then 0x200000 else 0x800000) = true →
        let c1 := { h with ses := { h.ses with xfer := some { sess := n, kind := k, total := leAt b 4 4 } } }
        exec (.xferBegin m) s = .next (s.put ((((c1.updState 1).setFld 0 (startBlk + 0x18) 3 2 (b2n (k == 2))).updTrace k 0 0).reply n r.seq 0 []))) ∧
      (∀ x : Xfer, s.chip.ses.xfer = some x → x.sess = n →
        (r.ty = 0x31 → within b.length 72 1032 = true → zeroAt b 4 4 = true → leAt b 0 4 = x.data.length → x.data.length + (b.length - 8) ≤ x.total →
          exec (.xferData m) s = .next (s.put (Chip.reply { h with ses := { h.ses with xfer := some { x with data := x.data ++ b.drop 8 } } } n r.seq 0 []))) ∧
        (∀ sig, r.ty = 0x32 → b = [] → h.xferStatus x sig = 0 →
          let c1 := { h with ses := { h.ses with xfer := none } }
          exec (.xferEnd m sig) s = .next (s.put (((Chip.updState { c1 with boot := { c1.boot with staged := some x } } 2).updTrace x.kind 1 0).reply n r.seq 0 []))) ∧
        (∀ sig, r.ty = 0x32 → b = [] → h.xferStatus x sig ≠ 0 →
          let c1 := { h with ses := { h.ses with xfer := none } }
          exec (.xferEnd m sig) s = .next (s.put ((((c1.updState 0).orReg 0 (startBlk + 0x18) 8).updTrace x.kind 1 (h.xferStatus x sig)).reply n r.seq (h.xferStatus x sig) []))))) ∧
    (4 ≤ n → n < 8 →
      (s.chip.asks m false n r → (s.chip.sess n).live = true → r.ty = 0x33 → b.length = 32 → ∃ t, exec (.attestReq m) s = .next t ∧ (t.chip.sess n).rx = r.seq ∧
        leAt (t.chip.sess n).cache 6 2 = 0x34 ∧ slice (t.chip.sess n).cache 32 32 = b ∧ t.chip.nv.otp = s.chip.nv.otp) ∧
      (s.chip.asks m true n r → r.ty = 0x35 → b.length = 36 → zeroAt b 2 2 = true → leAt b 0 1 ≤ 3 → leAt b 1 1 ≤ 3 → leAt b 0 1 ≠ leAt b 1 1 → s.chip.slotGood (leAt b 1 1) = true →
        leAt b 4 32 = (s.chip.sess n).nonce →
        exec (.keyRevoke m true) s = .next (s.put ((h.revoke (leAt b 0 1)).reply n r.seq 0 [])) ∧ ((h.revoke (leAt b 0 1)).reply n r.seq 0 []).slotGood (leAt b 0 1) = false ∧
        ((h.revoke (leAt b 0 1)).reply n r.seq 0 []).slotGood (leAt b 1 1) = true) ∧
      (∀ i, s.chip.asks m false n r → r.ty = 0x36 → b.length = 4 →
        (List.range 64).find? (fun i => let x := flashRead s.chip.nv.fl0 (0xE50000 + 256 * i) 256; leAt x 0 4 == 0x5246594B && leAt x 140 4 == leAt b 0 4) = some i →
        exec (.recordAck m) s = .next (s.put (Chip.reply { h with nv := { h.nv with acked := tabSet false h.nv.acked i true } } n r.seq 0 []))))

/-- R481, R482, R484, R486, R487, R489: COUNTER_READ returns a station's counters, its shadow, or always-on records; one session at a time holds the trace subscription
and gets its records, until it stops; and a dump request of a PERFORMANCE partition is kept for its turn and sent when the turn's record is final. -/
def Obligations.ObservationServed : Prop :=
  ∀ (s : State),
    (∀ (m : Dgram) (r : Req) (n : Nat), s.chip.asks m false n r → n < 8 →
      let h := s.chip.heard m n r
      let b := r.body
      (r.ty = 0x20 → cntBody b = true →
        (∀ d i, leAt b 1 1 = d → leAt b 2 1 = i → h.holds n (h.stnNeed n b) = true → d ≤ 7 → i ≤ 127 → stType (d * 128 + h.cntIndex d i) ≠ 0 →
          (leAt b 0 1 = 1 → exec (.counterReadStation m) s = .next (s.put (h.reply n r.seq 0 (h.counterWords d (h.cntIndex d i) 0 128)))) ∧
          (leAt b 0 1 = 2 → exec (.counterReadShadow m) s = .next (s.put (h.reply n r.seq 0 (h.counterWords d (h.cntIndex d i) 0x100 32))))) ∧
        (∀ l, leAt b 0 1 = 3 → h.holds n (some (if n < 4 ∧ leAt b 1 1 = 8 + h.sessPart n then 0 else 1)) = true → leAt b 1 1 ≤ 11 → within (leAt b 3 1) 1 16 = true →
          (List.range (leAt b 3 1)).mapM (fun i => h.aoRecord ((if leAt b 4 8 = 0 then h.newestAo else leAt b 4 8) + i) (leAt b 1 1)) = some l →
          exec (.counterReadAlwaysOn m) s = .next (s.put (h.reply n r.seq 0 (l.flatMap id)))) ∧
        (leAt b 0 1 = 4 → h.holds n (some (if n < 4 ∧ leAt b 12 1 = 1 <<< h.sessPart n then 0 else 1)) = true → leAt b 12 1 ≤ 15 → leAt b 13 1 ≤ 63 ∨ leAt b 13 1 = 255 → leAt b 14 1 ≤ 127 →
          (bit (s.chip.reg 0 obsBlk) 0 = false →
            exec (.traceSubscribe m) s = .next (s.put ((h.startTrace n (leAt b 12 1 + leAt b 13 1 <<< 4 + leAt b 14 1 <<< 12) (leAt b 16 4) r.seq).reply n r.seq 0 []))) ∧
          (bit (s.chip.reg 0 obsBlk) 0 = true → exec (.traceSubscribe m) s = .next (s.put (h.reply n r.seq 4 [])))) ∧
        (leAt b 0 1 = 5 → h.holds n (some 0) = true → bit (s.chip.reg 0 obsBlk) 0 = true → s.chip.fld 0 obsBlk 3 1 = n →
          exec (.traceStop m) s = .next (s.put ((h.endTrace n).reply n r.seq 0 [])) ∧ bit ((h.endTrace n).reg 0 obsBlk) 0 = false)) ∧
      (n < 4 → r.ty = 0x26 → b.length = 24 → zeroAt b 6 2 = true → zeroAt b 20 4 = true → h.holds n (some 6) = true →
        let p := h.sessPart n
        let turn := leAt b 8 8
        h.isSafety p = false → h.cfgBy 0x0201 p 22 0 ≠ 0 → within turn (h.turn + 2) (h.turn + 1000) = true → h.jobOf (leAt b 5 1) p = true → h.dueIn (leAt b 5 1) turn = true →
        within (leAt b 16 4) 64 16384 = true → h.obs.dumps.any (fun x => x.part == p) = false →
        ∃ t x, exec (.dumpReq m) s = .next t ∧ t.chip.obs.dumps = h.obs.dumps ++ [x] ∧ x.part = p ∧ x.turn = turn ∧ x.limit = leAt b 16 4 * 1024 ∧ x.job = leAt b 5 1 ∧ x.sess = n)) ∧
    (s.chip.locked = false → bit (s.chip.reg 0 obsBlk) 0 = true →
      let x := takeRecords s.chip.traceRoom 48 s.chip.obs.ring
      x.1 ≠ [] → ∃ t, exec .traceRecordsSend s = .next t ∧ t.chip.obs.ring = x.2 ∧ t.chip.obs.lost = 0 ∧ x.1.length ≤ 48 ∧
        t.chip.reg 0 (obsBlk + 0xC) = min 0xFFFFFFFF (s.chip.reg 0 (obsBlk + 0xC) + x.1.length)) ∧
    (∀ (p : Part) (x : Dump), s.chip.locked = false → s.chip.obs.dumps.find? (fun x => x.part == p.val) = some x → x.turn < s.chip.turn →
      s.chip.dumpNext x = none → ∃ t, exec (.dumpSend p) s = .next t ∧ t.chip.obs.dumps = s.chip.obs.dumps.filter (fun z => z.part != p.val))

/-- R503, R507, R508: A management session's request for IDLE or PARK waits for the next boundary, its request for ACTIVE starts the resume, and its reset of a
partition waits for the boundary. -/
def Obligations.PowerRequestsTaken : Prop :=
  ∀ (s : State) (who : Src), s.chip.locked = false →
    let c := s.chip
    (c.takesPower who = true → c.pwrState ≠ 2 →
      exec (.pwrReqIdle who) s = .next (s.put (Chip.setFld { c with pwr := { c.pwr with want := 1 } } 0 pwrBlk 2 2 1)) ∧
      exec (.pwrReqPark who) s = .next (s.put (Chip.setFld { c with pwr := { c.pwr with want := 2 } } 0 pwrBlk 2 2 1))) ∧
    (c.takesPower who = true → c.pwrState ≠ 0 → ∃ t, exec (.pwrReqActive who) s = .next t ∧ t.chip.pwrState = 3 ∧ t.chip.pwr.move = (if c.pwrState = 2 then 3 else 4) ∧ t.chip.pwr.want = 0) ∧
    (∀ p : Part, c.openMgmt who = true → c.hasPart p = true → exec (.rstReqPartition p who) s = .next (s.put (c.modPart p (fun x => { x with reset := 1 })))) ∧
    (c.takesPower who = false → exec (.pwrReqIdle who) s = .next s ∧ exec (.pwrReqPark who) s = .next s ∧ exec (.pwrReqActive who) s = .next s)

/-- R377, R496, R499, R501, R512, R535: Supply, clock and thermal trips and a domain that does not report good raise class A events on the bit of their die, whatever
FCLASS gives; a thermal warning shows in MON_STATUS until every sensor has cooled; an oscillator's first count is kept and later ones give the slowdown; and PMBus
readings are kept, a fault among them raising bit 2. -/
def Obligations.MonitorsRaiseClassA : Prop :=
  ∀ (s : State),
    let c := s.chip
    let trip := fun (d cause bit : Nat) => s.put (c.rise { bit := bit, cause := cause, die := d, src := if d = 0 then 0 else 16, cls := 1 })
    (∀ dom : Dom,
      let d := if dom.val < 5 then 0 else (dom.val - 5) / 3 + 1
      exec (.undervoltage dom) s = .next (trip d 0x18 (if d = 0 then 2 else 8 * d + 7)) ∧ exec (.overvoltage dom) s = .next (trip d 0x18 (if d = 0 then 2 else 8 * d + 7)) ∧
      (c.locked = false → bit (c.reg 0 (pwrBlk + 8)) (domBit dom) = false → c.fenced d = false → exec (.domainGoodTimeout dom) s = .next (trip d 0x18 (if d = 0 then 2 else 8 * d + 7)))) ∧
    exec .refclkFail s = .next (trip 0 0x19 3) ∧
    (∀ (d : Die) (i : Fin 14), exec (.islandClockFail d i) s = .next (trip d 0x19 (if d.val = 0 then 3 else 8 * d.val + 7))) ∧
    (∀ (d : Die) (i : Fin 4), ∃ t u v, exec (.thermalWarning d i) s = .next t ∧ bit (t.chip.reg 0 (pwrBlk + 0x24)) d = true ∧ t.chip.flt = c.flt ∧
      exec (.thermalTrip d i) s = .next u ∧ (∃ r : Rise, u.chip.flt.rises = c.flt.rises ++ [r] ∧ r.cause = 0x1A ∧ r.cls = 1 ∧ r.bit = (if d.val = 0 then 2 else 8 * d.val + 7)) ∧
      exec (.thermalWarningEnd d) s = .next v ∧ bit (v.chip.reg 0 (pwrBlk + 0x24)) d = false ∧ v.chip.flt = c.flt) ∧
    (∀ (d : CDie) (i : Fin 14) (n : Nat), c.isLive → c.fenced (d + 1) = false →
      (tabGet 0 c.nv.log.rings ((d + 1) * 16 + i) = 0 → ∃ t, exec (.ageingRead d i n) s = .next t ∧ tabGet 0 t.chip.nv.log.rings ((d + 1) * 16 + i) = n ∧ t.chip.regs = c.regs) ∧
      (∀ k : Nat, tabGet 0 c.nv.log.rings ((d + 1) * 16 + i) = k → k ≠ 0 → n ≤ k → (k - n) * 10000 % k = 0 → (k - n) * 10000 / k < 32768 →
        ∃ t, exec (.ageingRead d i n) s = .next t ∧ t.chip.reg (d + 1) (pwrBlk + 0x40 + 4 * i) = (k - n) * 10000 / k)) ∧
    (∀ reads : PmReads, c.locked = false → ∃ t, exec (.pmbusPoll reads) s = .next t ∧ (∀ x ∈ reads.getLast?, tabGet 0 t.chip.pwr.pm x.addr = x.volt.toNat + x.curr.toNat * 65536 + x.temp.toNat * 4294967296)) ∧
    (c.locked = false → exec (.pmAlert true) s = .next (s.put (c.rise { bit := 2, cause := 0x18, die := 0, src := 0 })) ∧ exec (.pmAlert false) s = .next s)

/-- R490, R491, R492, R494: A good credential unlocks the debug port; while it is unlocked and no class A is latched, the SPLOCK pin held low, or SPL_ARM with mode 3,
locks the spindle at once, with source, time and turn kept; modes 1 and 2 arm it at a turn or on a bit; and during a lock any register, SRAM word or handshake FIFO
entry can be read, and DDR5 not. -/
def Obligations.SpindleLockStopsDevice : Prop :=
  ∀ (s : State),
    let c := s.chip
    exec (.debugUnlock true) s = .next (s.put { c with obs := { c.obs with unlocked := true } }) ∧ exec (.debugUnlock false) s = .next s ∧
    (c.obs.unlocked = true → c.classA = false → c.locked = false →
      (∀ ns, 40 ≤ ns → ∃ t, exec (.splockPin ns) s = .next t ∧ t.chip.locked = true ∧ t.chip.reg 0 (obsBlk + 0x28) = 1 ∧ t.chip.reg64 0 (obsBlk + 0x2C) = c.nowNs % 2 ^ 64 ∧
        t.chip.reg 0 (obsBlk + 0x34) = c.turn32) ∧
      (∃ t, exec (.splArmNow .debug) s = .next t ∧ t.chip.locked = true ∧ t.chip.fld 0 (obsBlk + 0x28) 2 1 = 3 ∧ t.chip.reg 0 (obsBlk + 0x1C) = 3) ∧
      (∀ b : FswBit, ∃ t, exec (.splArmOnBit b .debug) s = .next t ∧ t.chip.locked = false ∧ t.chip.reg 0 (obsBlk + 0x1C) = 2 + 4 * b.val) ∧
      (∀ turn : BitVec 64, ∃ t, exec (.splArmAtTurn turn .debug) s = .next t ∧ t.chip.locked = false ∧ t.chip.reg 0 (obsBlk + 0x1C) = 1 ∧ t.chip.reg64 0 (obsBlk + 0x20) = turn.toNat)) ∧
    (c.locked = true → (∀ (d : Die) (off : BitVec 24), exec (.debugScanRead (.reg d off)) s = .next (s.put (c.answer (c.regVal d off.toNat)))) ∧
      (∀ (a : BitVec 48) (d off : Nat), c.decode a.toNat = .db d off → c.dieOn d = true → exec (.debugScanRead (.sram a)) s = .next (s.put (c.answer (c.scanWord a.toNat)))) ∧
      (∀ (a : BitVec 48) (d off : Nat), c.decode a.toNat = .ddr d off → exec (.debugScanRead (.sram a)) s = .next (s.put (c.answer 0))) ∧
      (∀ k d u out i, exec (.debugScanRead (.fifo k d u out i)) s = .next (s.put (c.answer (c.fifoEntry k d u (b2n out) i)))))

/-- R5, R6, R23, R67, R69, R106, R171, R174: A write stores a read-write register's fields unless its block refuses, a one clears its bit of a status register, and a
write that is no aligned 32-bit word, or of a read-only register, changes none; a low word's read latches its high word for that requester; a drain store reads zero
while its core holds a task; and who does not reach the registers gets nothing. -/
def Obligations.RegisterAccessesKeepRules : Prop :=
  ∀ (s : State) (who : Src), s.chip.locked = false →
    let c := s.chip
    (c.reaches who = false → ∀ (d : Die) (off : BitVec 24) (v : BitVec 32) (width : Nat) (e : CDie) (k : CoreIx) (ups : Upsets),
      exec (.registerWrite d off v width who) s = .next s ∧ exec (.lowWordRead d off width who) s = .next s ∧ exec (.drainStoreFwRead e k off who ups) s = .next s) ∧
    (c.reaches who = true →
      (∀ (d : Die) (q : Fin 1024) (w : Fin 4) (v : BitVec 32), c.dieOn d = true →
        exec (.qdescWrite d q w v who) s = .next (s.put (if c.jobRuns (c.queue (d * 1024 + q.val)).job then c
          else c.setReg d (qdescOff q w) (v.toNat &&& rwMask d (qdescOff q w))))) ∧
      (∀ (st : Stn) (r : Fin 3) (v : BitVec 32), c.dieOn (stDie st) = true →
        let o := stBlk (stIdx st) + 4 + 4 * r
        exec (.stCmdRegWrite st r v who) s = .next (s.put (if bit (c.reg (stDie st) (stBlk (stIdx st) + 0x14)) 4 then c else c.setReg (stDie st) o (v.toNat &&& rwMask (stDie st) o)))) ∧
      (∀ (d : CDie) (k : CoreIx) (v : BitVec 32), c.dieOn (d + 1) = true →
        exec (.mxInject d k v who) s = .next (s.put (if mayInject who then c.setReg (d + 1) (mxBlk k + 0x28) (v.toNat &&& 0x3FFF) else c)) ∧
        (∀ hi : Bool, exec (.dpuMapWrite d k hi v who) s =
          .next (s.put (if c.coreHolds (d + 1) k then c else c.setReg (d + 1) (mxBlk k + 0x20 + 4 * b2n hi) (v.toNat &&& 0x7F7F7F7F))))) ∧
      (∀ (d : Die) (k : TaskIx) (w : Fin 16) (v : BitVec 32), c.dieOn d = true →
        let o := taskBlk k + 4 * w.val
        exec (.taskEntryWrite d k w v who) s = .next (s.put (if ((c.task d k).released && !(c.task d k).ended) || rwMask d o == 0 then c else c.setReg d o (v.toNat &&& rwMask d o)))) ∧
      (∀ (d : Die) (off : BitVec 24) (v : BitVec 32), c.dieOn d = true → isW1c d off.toNat = true → off.toNat % 4 = 0 →
        ∃ t, exec (.w1cStatusClear d off v who) s = .next t ∧ ∀ i, i < 32 → bit (t.chip.reg d off.toNat) i = (bit (c.reg d off.toNat) i && !bit v.toNat i)) ∧
      (∀ (d : Die) (off : BitVec 24) (v : BitVec 32),
        let o := off.toNat
        let x := c.fwPass who d o v.toNat 0
        (∀ width, width ≠ 4 → exec (.registerWrite d off v width who) s = .next s) ∧
        (o % 4 ≠ 0 ∨ c.dieOn d = false → exec (.registerWrite d off v 4 who) s = .next (s.put x)) ∧
        (o % 4 = 0 → c.dieOn d = true → exec (.registerWrite d off v 4 who) s = .next (s.put (
          if isW1c d o then x.setReg d o (x.reg d o - (x.reg d o &&& v.toNat))
          else if d.val = 0 ∧ o = fcBlk then x.fswClear v.toNat who
          else if d.val = 0 ∧ o = fcBlk + 4 then x.fswClear (v.toNat <<< 32) who
          else if d.val = 0 ∧ o = fcBlk + 0x20 then (if bit v.toNat 16 then x.fcEscalate (bits v.toNat 5 0) (bits v.toNat 15 8) who else x)
          else if d.val = 0 ∧ o = pwrBlk + 4 then x.pwrReq v.toNat who
          else if d.val = 0 ∧ o = pwrBlk + 0x14 then x.rstReq v.toNat who
          else if d.val ≠ 0 ∧ mxBlk 0 ≤ o ∧ o < mxBlk 9 ∧ o % 0x40 = 0x28 then (if mayInject who then x.setReg d o (v.toNat &&& 0x3FFF) else x)
          else if rwMask d o = 0 ∨ x.writeHeld who d o = true then x
          else if d.val = 0 ∧ o = obsBlk + 0x1C then (x.setReg d o (v.toNat &&& 0xFF)).armNow
          else x.setReg d o (v.toNat &&& rwMask d o))))) ∧
      (∀ (d : Die) (off : BitVec 24),
        let o := off.toNat
        let x := c.fwPass who d o 0 0
        let n := (o - timeBlk - 0x24) / 0xC
        let inTs := d.val = 0 ∧ timeBlk + 0x24 ≤ o ∧ o < timeBlk + 0x54 ∧ (o - timeBlk - 0x24) % 0xC = 0
        let gives := fun (v : Nat) (y : Chip) => exec (.lowWordRead d off 4 who) s = .next (s.put (((y.fwPass who d o v 1).answer v).setErr false))
        (∀ width, width ≠ 4 → exec (.lowWordRead d off width who) s = .next (s.put ((c.answer 0).setErr false))) ∧
        (o % 4 ≠ 0 ∨ c.dieOn d = false → gives 0 x) ∧
        (o % 4 = 0 → c.dieOn d = true →
          (inTs → gives (x.tsInRead n who).obs.value (x.tsInRead n who)) ∧
          (¬inTs → isLow d o = true →
            let y := x.latchWord who d (o + 4) (x.regVal d (o + 4))
            gives (x.regVal d o) (if d.val = 0 ∧ o = timeBlk then y.latchWord who 0 (o + 8) (x.regVal 0 (o + 8)) else y)) ∧
          (¬inTs → isLow d o = false →
            let v := tabGet 0 c.latch (srcNum who * 2 ^ 32 + regKey d o)
            gives (if isLatched d o = true ∧ v ≠ 0 then v - 1 else x.regVal d o) x))) ∧
      (∀ (d : CDie) (k : CoreIx) (off : BitVec 24) (ups : Upsets), c.pwrState ≠ 2 →
        let no := mayDrain who = false ∨ c.coreHolds (d + 1) k = true ∨ c.dieOn (d + 1) = false ∨ 0x100000 ≤ off.toNat
        let r := c.read {} ups (dieBase (d + 1) + dsBase k + off.toNat / 8 * 8) 8
        (no → exec (.drainStoreFwRead d k off who ups) s = .next (s.put ((c.answer 0).setErr true))) ∧
        (¬no → exec (.drainStoreFwRead d k off who ups) s = .next (s.put ((r.1.answer (fromLE r.2.1)).setErr false)))))
end

