-- ==== Sys2Proof/Laws/Tab.lean ====
section
/-! SUPPORT. Laws/Tab.lean: what a sparse table answers after a write, and that every table operation keeps the canonical form. -/
namespace Sys2Proof.Machine

variable {α : Type}

@[simp] theorem tabGet_nil (d : α) (i : Nat) : tabGet d [] i = d := rfl

theorem tabGet_tabPut_self (d v : α) (t : Tab α) (i : Nat) : tabGet d (tabPut t i v) i = v := by
  induction t with
  | nil => simp [tabPut, tabGet]
  | cons kv t ih =>
    obtain ⟨k, w⟩ := kv
    rcases lt_trichotomy i k with h | rfl | h
    · simp [tabPut, tabGet, h]
    · simp [tabPut, tabGet]
    · simp [tabPut, tabGet, show ¬ i < k by omega, show i ≠ k by omega, ih]

theorem tabGet_tabPut_ne (d v : α) (t : Tab α) {i j : Nat} (hne : j ≠ i) : tabGet d (tabPut t i v) j = tabGet d t j := by
  induction t with
  | nil => simp [tabPut, tabGet, hne]
  | cons kv t ih =>
    obtain ⟨k, w⟩ := kv
    rcases lt_trichotomy i k with h | rfl | h
    · simp [tabPut, tabGet, h, hne]
    · simp [tabPut, tabGet, hne]
    · simp [tabPut, tabGet, show ¬ i < k by omega, show i ≠ k by omega, ih]

theorem tabGet_filter_self (d : α) (t : Tab α) (i : Nat) : tabGet d (t.filter (fun kv => kv.1 != i)) i = d := by
  induction t with
  | nil => rfl
  | cons kv t ih =>
    obtain ⟨k, w⟩ := kv
    by_cases h : k = i
    · simp [h, ih]
    · simp [h, tabGet, ih, Ne.symm h]

theorem tabGet_filter_ne (d : α) (t : Tab α) {i j : Nat} (hne : j ≠ i) : tabGet d (t.filter (fun kv => kv.1 != i)) j = tabGet d t j := by
  induction t with
  | nil => rfl
  | cons kv t ih =>
    obtain ⟨k, w⟩ := kv
    by_cases h : k = i
    · simp [h, tabGet, hne, ih]
    · simp [h, tabGet, ih]

/-- A written place answers what was written. -/
@[simp] theorem tabGet_tabSet_self [DecidableEq α] (d v : α) (t : Tab α) (i : Nat) : tabGet d (tabSet d t i v) i = v := by
  by_cases hv : v = d
  · simp [tabSet, hv, tabGet_filter_self]
  · simp [tabSet, hv, tabGet_tabPut_self]

/-- Every other place answers as before. -/
theorem tabGet_tabSet_ne [DecidableEq α] (d v : α) (t : Tab α) {i j : Nat} (hne : j ≠ i) : tabGet d (tabSet d t i v) j = tabGet d t j := by
  by_cases hv : v = d
  · simp [tabSet, hv, tabGet_filter_ne d t hne]
  · simp [tabSet, hv, tabGet_tabPut_ne d v t hne]

theorem tabGet_tabSet [DecidableEq α] (d v : α) (t : Tab α) (i j : Nat) : tabGet d (tabSet d t i v) j = if j = i then v else tabGet d t j := by
  by_cases h : j = i
  · subst h; simp
  · simp [h, tabGet_tabSet_ne]

@[simp] theorem tabGet_tabMod_self [DecidableEq α] (d : α) (t : Tab α) (i : Nat) (f : α → α) : tabGet d (tabMod d t i f) i = f (tabGet d t i) :=
  tabGet_tabSet_self d _ t i

theorem tabGet_tabMod_ne [DecidableEq α] (d : α) (t : Tab α) {i j : Nat} (f : α → α) (hne : j ≠ i) : tabGet d (tabMod d t i f) j = tabGet d t j :=
  tabGet_tabSet_ne d _ t hne

/-! ### The canonical form -/

theorem tabWfFrom_mono [DecidableEq α] (d : α) {lo lo' : Nat} {t : Tab α} (h : tabWfFrom d lo t = true) (hl : lo' ≤ lo) : tabWfFrom d lo' t = true := by
  cases t with
  | nil => rfl
  | cons kv t =>
    simp only [tabWfFrom, Bool.and_eq_true, decide_eq_true_eq] at h ⊢
    exact ⟨⟨by omega, h.1.2⟩, h.2⟩

theorem tabWfFrom_tabPut [DecidableEq α] (d v : α) (hv : v ≠ d) {t : Tab α} {lo i : Nat} (h : tabWfFrom d lo t = true) (hi : lo ≤ i) :
    tabWfFrom d lo (tabPut t i v) = true := by
  induction t generalizing lo with
  | nil => simp [tabPut, tabWfFrom, hv, hi]
  | cons kv t ih =>
    obtain ⟨k, w⟩ := kv
    simp only [tabWfFrom, Bool.and_eq_true, decide_eq_true_eq] at h
    rcases lt_trichotomy i k with hik | rfl | hik
    · simp only [tabPut, hik, if_true, tabWfFrom, Bool.and_eq_true, decide_eq_true_eq]
      exact ⟨⟨hi, hv⟩, ⟨by omega, h.1.2⟩, h.2⟩
    · simp only [tabPut, lt_irrefl, if_false, if_true, tabWfFrom, Bool.and_eq_true, decide_eq_true_eq]
      exact ⟨⟨hi, hv⟩, h.2⟩
    · simp only [tabPut, show ¬ i < k by omega, show i ≠ k by omega, if_false, tabWfFrom, Bool.and_eq_true, decide_eq_true_eq]
      exact ⟨h.1, ih h.2 (by omega)⟩

/-- Entries left out of a canonical table leave a canonical table. -/
theorem tabWf_filter [DecidableEq α] (d : α) {t : Tab α} (p : Nat × α → Bool) (h : tabWf d t = true) : tabWf d (t.filter p) = true := by
  suffices H : ∀ (t : Tab α) (lo : Nat), tabWfFrom d lo t = true → tabWfFrom d lo (t.filter p) = true from H t 0 h
  intro t
  induction t with
  | nil => intro _ h; exact h
  | cons kv t ih =>
    intro lo h
    simp only [tabWfFrom, Bool.and_eq_true, decide_eq_true_eq] at h
    by_cases hp : p kv = true
    · simp only [List.filter, hp, tabWfFrom, Bool.and_eq_true, decide_eq_true_eq]
      exact ⟨h.1, ih _ h.2⟩
    · simp only [List.filter, hp]
      exact tabWfFrom_mono d (ih _ h.2) (by omega)

/-- A write keeps the canonical form. -/
theorem tabWf_tabSet [DecidableEq α] (d v : α) {t : Tab α} (i : Nat) (h : tabWf d t = true) : tabWf d (tabSet d t i v) = true := by
  by_cases hv : v = d
  · simpa [tabSet, hv] using tabWf_filter d _ h
  · simp only [tabSet, hv, if_false]
    exact tabWfFrom_tabPut d v hv h (Nat.zero_le i)

theorem tabWf_nil [DecidableEq α] (d : α) : tabWf d [] = true := rfl

theorem tabWf_tabMod [DecidableEq α] (d : α) {t : Tab α} (i : Nat) (f : α → α) (h : tabWf d t = true) : tabWf d (tabMod d t i f) = true :=
  tabWf_tabSet d _ i h

theorem tabWf_tabKeep [DecidableEq α] (d : α) {t : Tab α} (p : Nat → Bool) (h : tabWf d t = true) : tabWf d (tabKeep p t) = true :=
  tabWf_filter d _ h

theorem tabWf_tabMap [DecidableEq α] (d : α) {t : Tab α} (f : Nat → α → α) (h : tabWf d t = true) : tabWf d (tabMap d f t) = true := by
  suffices H : ∀ (t : Tab α) (lo : Nat), tabWfFrom d lo t = true → tabWfFrom d lo (tabMap d f t) = true from H t 0 h
  intro t
  induction t with
  | nil => intro _ h; exact h
  | cons kv t ih =>
    intro lo h
    simp only [tabWfFrom, Bool.and_eq_true, decide_eq_true_eq] at h
    by_cases hv : f kv.1 kv.2 = d
    · simp only [tabMap, List.filterMap, hv, if_true]
      exact tabWfFrom_mono d (ih _ h.2) (by omega)
    · simp only [tabMap, List.filterMap, hv, if_false, tabWfFrom, Bool.and_eq_true, decide_eq_true_eq]
      exact ⟨⟨h.1.1, hv⟩, ih _ h.2⟩

/-- A fold of writes keeps the canonical form. -/
theorem tabWf_foldl_tabSet [DecidableEq α] (d : α) {t : Tab α} (l : List (Nat × α)) (h : tabWf d t = true) :
    tabWf d (l.foldl (fun t e => tabSet d t e.1 e.2) t) = true := by
  induction l generalizing t with
  | nil => exact h
  | cons e l ih => exact ih (tabWf_tabSet d _ _ h)

end Sys2Proof.Machine
end

