-- ==== Sys2Proof/Laws/State.lean ====
section
/-! SUPPORT. Laws/State.lean: for every basic update of the chip, the parts it leaves (one lemma per field) and what its own reader answers afterwards. -/
namespace Sys2Proof.Machine

/-! ### setReg -/

@[simp] theorem Chip.setReg_tb (c : Chip) (d off v : Nat) : (c.setReg d off v).tb = c.tb := rfl
@[simp] theorem Chip.setReg_latch (c : Chip) (d off v : Nat) : (c.setReg d off v).latch = c.latch := rfl
@[simp] theorem Chip.setReg_mem (c : Chip) (d off v : Nat) : (c.setReg d off v).mem = c.mem := rfl
@[simp] theorem Chip.setReg_ecc (c : Chip) (d off v : Nat) : (c.setReg d off v).ecc = c.ecc := rfl
@[simp] theorem Chip.setReg_fab (c : Chip) (d off v : Nat) : (c.setReg d off v).fab = c.fab := rfl
@[simp] theorem Chip.setReg_cmp (c : Chip) (d off v : Nat) : (c.setReg d off v).cmp = c.cmp := rfl
@[simp] theorem Chip.setReg_lnk (c : Chip) (d off v : Nat) : (c.setReg d off v).lnk = c.lnk := rfl
@[simp] theorem Chip.setReg_wrk (c : Chip) (d off v : Nat) : (c.setReg d off v).wrk = c.wrk := rfl
@[simp] theorem Chip.setReg_flt (c : Chip) (d off v : Nat) : (c.setReg d off v).flt = c.flt := rfl
@[simp] theorem Chip.setReg_obs (c : Chip) (d off v : Nat) : (c.setReg d off v).obs = c.obs := rfl
@[simp] theorem Chip.setReg_sns (c : Chip) (d off v : Nat) : (c.setReg d off v).sns = c.sns := rfl
@[simp] theorem Chip.setReg_net (c : Chip) (d off v : Nat) : (c.setReg d off v).net = c.net := rfl
@[simp] theorem Chip.setReg_boot (c : Chip) (d off v : Nat) : (c.setReg d off v).boot = c.boot := rfl
@[simp] theorem Chip.setReg_ses (c : Chip) (d off v : Nat) : (c.setReg d off v).ses = c.ses := rfl
@[simp] theorem Chip.setReg_pwr (c : Chip) (d off v : Nat) : (c.setReg d off v).pwr = c.pwr := rfl
@[simp] theorem Chip.setReg_nv (c : Chip) (d off v : Nat) : (c.setReg d off v).nv = c.nv := rfl
@[simp] theorem Chip.setReg_cfg (c : Chip) (d off v : Nat) : (c.setReg d off v).cfg = c.cfg := rfl
@[simp] theorem Chip.setReg_free (c : Chip) (d off v : Nat) : (c.setReg d off v).free = c.free := rfl

/-! ### setReg64 -/

@[simp] theorem Chip.setReg64_tb (c : Chip) (d off v : Nat) : (c.setReg64 d off v).tb = c.tb := rfl
@[simp] theorem Chip.setReg64_latch (c : Chip) (d off v : Nat) : (c.setReg64 d off v).latch = c.latch := rfl
@[simp] theorem Chip.setReg64_mem (c : Chip) (d off v : Nat) : (c.setReg64 d off v).mem = c.mem := rfl
@[simp] theorem Chip.setReg64_ecc (c : Chip) (d off v : Nat) : (c.setReg64 d off v).ecc = c.ecc := rfl
@[simp] theorem Chip.setReg64_fab (c : Chip) (d off v : Nat) : (c.setReg64 d off v).fab = c.fab := rfl
@[simp] theorem Chip.setReg64_cmp (c : Chip) (d off v : Nat) : (c.setReg64 d off v).cmp = c.cmp := rfl
@[simp] theorem Chip.setReg64_lnk (c : Chip) (d off v : Nat) : (c.setReg64 d off v).lnk = c.lnk := rfl
@[simp] theorem Chip.setReg64_wrk (c : Chip) (d off v : Nat) : (c.setReg64 d off v).wrk = c.wrk := rfl
@[simp] theorem Chip.setReg64_flt (c : Chip) (d off v : Nat) : (c.setReg64 d off v).flt = c.flt := rfl
@[simp] theorem Chip.setReg64_obs (c : Chip) (d off v : Nat) : (c.setReg64 d off v).obs = c.obs := rfl
@[simp] theorem Chip.setReg64_sns (c : Chip) (d off v : Nat) : (c.setReg64 d off v).sns = c.sns := rfl
@[simp] theorem Chip.setReg64_net (c : Chip) (d off v : Nat) : (c.setReg64 d off v).net = c.net := rfl
@[simp] theorem Chip.setReg64_boot (c : Chip) (d off v : Nat) : (c.setReg64 d off v).boot = c.boot := rfl
@[simp] theorem Chip.setReg64_ses (c : Chip) (d off v : Nat) : (c.setReg64 d off v).ses = c.ses := rfl
@[simp] theorem Chip.setReg64_pwr (c : Chip) (d off v : Nat) : (c.setReg64 d off v).pwr = c.pwr := rfl
@[simp] theorem Chip.setReg64_nv (c : Chip) (d off v : Nat) : (c.setReg64 d off v).nv = c.nv := rfl
@[simp] theorem Chip.setReg64_cfg (c : Chip) (d off v : Nat) : (c.setReg64 d off v).cfg = c.cfg := rfl
@[simp] theorem Chip.setReg64_free (c : Chip) (d off v : Nat) : (c.setReg64 d off v).free = c.free := rfl

/-! ### addReg -/

@[simp] theorem Chip.addReg_tb (c : Chip) (d off v : Nat) : (c.addReg d off v).tb = c.tb := rfl
@[simp] theorem Chip.addReg_latch (c : Chip) (d off v : Nat) : (c.addReg d off v).latch = c.latch := rfl
@[simp] theorem Chip.addReg_mem (c : Chip) (d off v : Nat) : (c.addReg d off v).mem = c.mem := rfl
@[simp] theorem Chip.addReg_ecc (c : Chip) (d off v : Nat) : (c.addReg d off v).ecc = c.ecc := rfl
@[simp] theorem Chip.addReg_fab (c : Chip) (d off v : Nat) : (c.addReg d off v).fab = c.fab := rfl
@[simp] theorem Chip.addReg_cmp (c : Chip) (d off v : Nat) : (c.addReg d off v).cmp = c.cmp := rfl
@[simp] theorem Chip.addReg_lnk (c : Chip) (d off v : Nat) : (c.addReg d off v).lnk = c.lnk := rfl
@[simp] theorem Chip.addReg_wrk (c : Chip) (d off v : Nat) : (c.addReg d off v).wrk = c.wrk := rfl
@[simp] theorem Chip.addReg_flt (c : Chip) (d off v : Nat) : (c.addReg d off v).flt = c.flt := rfl
@[simp] theorem Chip.addReg_obs (c : Chip) (d off v : Nat) : (c.addReg d off v).obs = c.obs := rfl
@[simp] theorem Chip.addReg_sns (c : Chip) (d off v : Nat) : (c.addReg d off v).sns = c.sns := rfl
@[simp] theorem Chip.addReg_net (c : Chip) (d off v : Nat) : (c.addReg d off v).net = c.net := rfl
@[simp] theorem Chip.addReg_boot (c : Chip) (d off v : Nat) : (c.addReg d off v).boot = c.boot := rfl
@[simp] theorem Chip.addReg_ses (c : Chip) (d off v : Nat) : (c.addReg d off v).ses = c.ses := rfl
@[simp] theorem Chip.addReg_pwr (c : Chip) (d off v : Nat) : (c.addReg d off v).pwr = c.pwr := rfl
@[simp] theorem Chip.addReg_nv (c : Chip) (d off v : Nat) : (c.addReg d off v).nv = c.nv := rfl
@[simp] theorem Chip.addReg_cfg (c : Chip) (d off v : Nat) : (c.addReg d off v).cfg = c.cfg := rfl
@[simp] theorem Chip.addReg_free (c : Chip) (d off v : Nat) : (c.addReg d off v).free = c.free := rfl

/-! ### orReg -/

@[simp] theorem Chip.orReg_tb (c : Chip) (d off v : Nat) : (c.orReg d off v).tb = c.tb := rfl
@[simp] theorem Chip.orReg_latch (c : Chip) (d off v : Nat) : (c.orReg d off v).latch = c.latch := rfl
@[simp] theorem Chip.orReg_mem (c : Chip) (d off v : Nat) : (c.orReg d off v).mem = c.mem := rfl
@[simp] theorem Chip.orReg_ecc (c : Chip) (d off v : Nat) : (c.orReg d off v).ecc = c.ecc := rfl
@[simp] theorem Chip.orReg_fab (c : Chip) (d off v : Nat) : (c.orReg d off v).fab = c.fab := rfl
@[simp] theorem Chip.orReg_cmp (c : Chip) (d off v : Nat) : (c.orReg d off v).cmp = c.cmp := rfl
@[simp] theorem Chip.orReg_lnk (c : Chip) (d off v : Nat) : (c.orReg d off v).lnk = c.lnk := rfl
@[simp] theorem Chip.orReg_wrk (c : Chip) (d off v : Nat) : (c.orReg d off v).wrk = c.wrk := rfl
@[simp] theorem Chip.orReg_flt (c : Chip) (d off v : Nat) : (c.orReg d off v).flt = c.flt := rfl
@[simp] theorem Chip.orReg_obs (c : Chip) (d off v : Nat) : (c.orReg d off v).obs = c.obs := rfl
@[simp] theorem Chip.orReg_sns (c : Chip) (d off v : Nat) : (c.orReg d off v).sns = c.sns := rfl
@[simp] theorem Chip.orReg_net (c : Chip) (d off v : Nat) : (c.orReg d off v).net = c.net := rfl
@[simp] theorem Chip.orReg_boot (c : Chip) (d off v : Nat) : (c.orReg d off v).boot = c.boot := rfl
@[simp] theorem Chip.orReg_ses (c : Chip) (d off v : Nat) : (c.orReg d off v).ses = c.ses := rfl
@[simp] theorem Chip.orReg_pwr (c : Chip) (d off v : Nat) : (c.orReg d off v).pwr = c.pwr := rfl
@[simp] theorem Chip.orReg_nv (c : Chip) (d off v : Nat) : (c.orReg d off v).nv = c.nv := rfl
@[simp] theorem Chip.orReg_cfg (c : Chip) (d off v : Nat) : (c.orReg d off v).cfg = c.cfg := rfl
@[simp] theorem Chip.orReg_free (c : Chip) (d off v : Nat) : (c.orReg d off v).free = c.free := rfl

/-! ### setFld -/

@[simp] theorem Chip.setFld_tb (c : Chip) (d off hi lo v : Nat) : (c.setFld d off hi lo v).tb = c.tb := rfl
@[simp] theorem Chip.setFld_latch (c : Chip) (d off hi lo v : Nat) : (c.setFld d off hi lo v).latch = c.latch := rfl
@[simp] theorem Chip.setFld_mem (c : Chip) (d off hi lo v : Nat) : (c.setFld d off hi lo v).mem = c.mem := rfl
@[simp] theorem Chip.setFld_ecc (c : Chip) (d off hi lo v : Nat) : (c.setFld d off hi lo v).ecc = c.ecc := rfl
@[simp] theorem Chip.setFld_fab (c : Chip) (d off hi lo v : Nat) : (c.setFld d off hi lo v).fab = c.fab := rfl
@[simp] theorem Chip.setFld_cmp (c : Chip) (d off hi lo v : Nat) : (c.setFld d off hi lo v).cmp = c.cmp := rfl
@[simp] theorem Chip.setFld_lnk (c : Chip) (d off hi lo v : Nat) : (c.setFld d off hi lo v).lnk = c.lnk := rfl
@[simp] theorem Chip.setFld_wrk (c : Chip) (d off hi lo v : Nat) : (c.setFld d off hi lo v).wrk = c.wrk := rfl
@[simp] theorem Chip.setFld_flt (c : Chip) (d off hi lo v : Nat) : (c.setFld d off hi lo v).flt = c.flt := rfl
@[simp] theorem Chip.setFld_obs (c : Chip) (d off hi lo v : Nat) : (c.setFld d off hi lo v).obs = c.obs := rfl
@[simp] theorem Chip.setFld_sns (c : Chip) (d off hi lo v : Nat) : (c.setFld d off hi lo v).sns = c.sns := rfl
@[simp] theorem Chip.setFld_net (c : Chip) (d off hi lo v : Nat) : (c.setFld d off hi lo v).net = c.net := rfl
@[simp] theorem Chip.setFld_boot (c : Chip) (d off hi lo v : Nat) : (c.setFld d off hi lo v).boot = c.boot := rfl
@[simp] theorem Chip.setFld_ses (c : Chip) (d off hi lo v : Nat) : (c.setFld d off hi lo v).ses = c.ses := rfl
@[simp] theorem Chip.setFld_pwr (c : Chip) (d off hi lo v : Nat) : (c.setFld d off hi lo v).pwr = c.pwr := rfl
@[simp] theorem Chip.setFld_nv (c : Chip) (d off hi lo v : Nat) : (c.setFld d off hi lo v).nv = c.nv := rfl
@[simp] theorem Chip.setFld_cfg (c : Chip) (d off hi lo v : Nat) : (c.setFld d off hi lo v).cfg = c.cfg := rfl
@[simp] theorem Chip.setFld_free (c : Chip) (d off hi lo v : Nat) : (c.setFld d off hi lo v).free = c.free := rfl

/-! ### advanceTo -/

@[simp] theorem Chip.advanceTo_regs (c : Chip) (n : Nat) : (c.advanceTo n).regs = c.regs := rfl
@[simp] theorem Chip.advanceTo_latch (c : Chip) (n : Nat) : (c.advanceTo n).latch = c.latch := rfl
@[simp] theorem Chip.advanceTo_mem (c : Chip) (n : Nat) : (c.advanceTo n).mem = c.mem := rfl
@[simp] theorem Chip.advanceTo_ecc (c : Chip) (n : Nat) : (c.advanceTo n).ecc = c.ecc := rfl
@[simp] theorem Chip.advanceTo_fab (c : Chip) (n : Nat) : (c.advanceTo n).fab = c.fab := rfl
@[simp] theorem Chip.advanceTo_cmp (c : Chip) (n : Nat) : (c.advanceTo n).cmp = c.cmp := rfl
@[simp] theorem Chip.advanceTo_lnk (c : Chip) (n : Nat) : (c.advanceTo n).lnk = c.lnk := rfl
@[simp] theorem Chip.advanceTo_wrk (c : Chip) (n : Nat) : (c.advanceTo n).wrk = c.wrk := rfl
@[simp] theorem Chip.advanceTo_flt (c : Chip) (n : Nat) : (c.advanceTo n).flt = c.flt := rfl
@[simp] theorem Chip.advanceTo_obs (c : Chip) (n : Nat) : (c.advanceTo n).obs = c.obs := rfl
@[simp] theorem Chip.advanceTo_sns (c : Chip) (n : Nat) : (c.advanceTo n).sns = c.sns := rfl
@[simp] theorem Chip.advanceTo_net (c : Chip) (n : Nat) : (c.advanceTo n).net = c.net := rfl
@[simp] theorem Chip.advanceTo_boot (c : Chip) (n : Nat) : (c.advanceTo n).boot = c.boot := rfl
@[simp] theorem Chip.advanceTo_ses (c : Chip) (n : Nat) : (c.advanceTo n).ses = c.ses := rfl
@[simp] theorem Chip.advanceTo_pwr (c : Chip) (n : Nat) : (c.advanceTo n).pwr = c.pwr := rfl
@[simp] theorem Chip.advanceTo_nv (c : Chip) (n : Nat) : (c.advanceTo n).nv = c.nv := rfl
@[simp] theorem Chip.advanceTo_cfg (c : Chip) (n : Nat) : (c.advanceTo n).cfg = c.cfg := rfl
@[simp] theorem Chip.advanceTo_free (c : Chip) (n : Nat) : (c.advanceTo n).free = c.free := rfl
@[simp] theorem Chip.advanceTo_reg (c : Chip) (n : Nat) (e o : Nat) : (c.advanceTo n).reg e o = c.reg e o := rfl
@[simp] theorem Chip.advanceTo_reg64 (c : Chip) (n : Nat) (e o : Nat) : (c.advanceTo n).reg64 e o = c.reg64 e o := rfl
@[simp] theorem Chip.advanceTo_fld (c : Chip) (n : Nat) (e o hi lo : Nat) : (c.advanceTo n).fld e o hi lo = c.fld e o hi lo := rfl

/-! ### ticks -/

@[simp] theorem Chip.ticks_regs (c : Chip) (n : Nat) : (c.ticks n).regs = c.regs := rfl
@[simp] theorem Chip.ticks_latch (c : Chip) (n : Nat) : (c.ticks n).latch = c.latch := rfl
@[simp] theorem Chip.ticks_mem (c : Chip) (n : Nat) : (c.ticks n).mem = c.mem := rfl
@[simp] theorem Chip.ticks_ecc (c : Chip) (n : Nat) : (c.ticks n).ecc = c.ecc := rfl
@[simp] theorem Chip.ticks_fab (c : Chip) (n : Nat) : (c.ticks n).fab = c.fab := rfl
@[simp] theorem Chip.ticks_cmp (c : Chip) (n : Nat) : (c.ticks n).cmp = c.cmp := rfl
@[simp] theorem Chip.ticks_lnk (c : Chip) (n : Nat) : (c.ticks n).lnk = c.lnk := rfl
@[simp] theorem Chip.ticks_wrk (c : Chip) (n : Nat) : (c.ticks n).wrk = c.wrk := rfl
@[simp] theorem Chip.ticks_flt (c : Chip) (n : Nat) : (c.ticks n).flt = c.flt := rfl
@[simp] theorem Chip.ticks_obs (c : Chip) (n : Nat) : (c.ticks n).obs = c.obs := rfl
@[simp] theorem Chip.ticks_sns (c : Chip) (n : Nat) : (c.ticks n).sns = c.sns := rfl
@[simp] theorem Chip.ticks_net (c : Chip) (n : Nat) : (c.ticks n).net = c.net := rfl
@[simp] theorem Chip.ticks_boot (c : Chip) (n : Nat) : (c.ticks n).boot = c.boot := rfl
@[simp] theorem Chip.ticks_ses (c : Chip) (n : Nat) : (c.ticks n).ses = c.ses := rfl
@[simp] theorem Chip.ticks_pwr (c : Chip) (n : Nat) : (c.ticks n).pwr = c.pwr := rfl
@[simp] theorem Chip.ticks_nv (c : Chip) (n : Nat) : (c.ticks n).nv = c.nv := rfl
@[simp] theorem Chip.ticks_cfg (c : Chip) (n : Nat) : (c.ticks n).cfg = c.cfg := rfl
@[simp] theorem Chip.ticks_free (c : Chip) (n : Nat) : (c.ticks n).free = c.free := rfl
@[simp] theorem Chip.ticks_reg (c : Chip) (n : Nat) (e o : Nat) : (c.ticks n).reg e o = c.reg e o := rfl
@[simp] theorem Chip.ticks_reg64 (c : Chip) (n : Nat) (e o : Nat) : (c.ticks n).reg64 e o = c.reg64 e o := rfl
@[simp] theorem Chip.ticks_fld (c : Chip) (n : Nat) (e o hi lo : Nat) : (c.ticks n).fld e o hi lo = c.fld e o hi lo := rfl

/-! ### poke -/

@[simp] theorem Chip.poke_tb (c : Chip) (a : Nat) (b : Bytes) : (c.poke a b).tb = c.tb := rfl
@[simp] theorem Chip.poke_regs (c : Chip) (a : Nat) (b : Bytes) : (c.poke a b).regs = c.regs := rfl
@[simp] theorem Chip.poke_latch (c : Chip) (a : Nat) (b : Bytes) : (c.poke a b).latch = c.latch := rfl
@[simp] theorem Chip.poke_ecc (c : Chip) (a : Nat) (b : Bytes) : (c.poke a b).ecc = c.ecc := rfl
@[simp] theorem Chip.poke_fab (c : Chip) (a : Nat) (b : Bytes) : (c.poke a b).fab = c.fab := rfl
@[simp] theorem Chip.poke_cmp (c : Chip) (a : Nat) (b : Bytes) : (c.poke a b).cmp = c.cmp := rfl
@[simp] theorem Chip.poke_lnk (c : Chip) (a : Nat) (b : Bytes) : (c.poke a b).lnk = c.lnk := rfl
@[simp] theorem Chip.poke_wrk (c : Chip) (a : Nat) (b : Bytes) : (c.poke a b).wrk = c.wrk := rfl
@[simp] theorem Chip.poke_flt (c : Chip) (a : Nat) (b : Bytes) : (c.poke a b).flt = c.flt := rfl
@[simp] theorem Chip.poke_obs (c : Chip) (a : Nat) (b : Bytes) : (c.poke a b).obs = c.obs := rfl
@[simp] theorem Chip.poke_sns (c : Chip) (a : Nat) (b : Bytes) : (c.poke a b).sns = c.sns := rfl
@[simp] theorem Chip.poke_net (c : Chip) (a : Nat) (b : Bytes) : (c.poke a b).net = c.net := rfl
@[simp] theorem Chip.poke_boot (c : Chip) (a : Nat) (b : Bytes) : (c.poke a b).boot = c.boot := rfl
@[simp] theorem Chip.poke_ses (c : Chip) (a : Nat) (b : Bytes) : (c.poke a b).ses = c.ses := rfl
@[simp] theorem Chip.poke_pwr (c : Chip) (a : Nat) (b : Bytes) : (c.poke a b).pwr = c.pwr := rfl
@[simp] theorem Chip.poke_nv (c : Chip) (a : Nat) (b : Bytes) : (c.poke a b).nv = c.nv := rfl
@[simp] theorem Chip.poke_cfg (c : Chip) (a : Nat) (b : Bytes) : (c.poke a b).cfg = c.cfg := rfl
@[simp] theorem Chip.poke_free (c : Chip) (a : Nat) (b : Bytes) : (c.poke a b).free = c.free := rfl
@[simp] theorem Chip.poke_reg (c : Chip) (a : Nat) (b : Bytes) (e o : Nat) : (c.poke a b).reg e o = c.reg e o := rfl
@[simp] theorem Chip.poke_reg64 (c : Chip) (a : Nat) (b : Bytes) (e o : Nat) : (c.poke a b).reg64 e o = c.reg64 e o := rfl
@[simp] theorem Chip.poke_fld (c : Chip) (a : Nat) (b : Bytes) (e o hi lo : Nat) : (c.poke a b).fld e o hi lo = c.fld e o hi lo := rfl

/-! ### setPois -/

@[simp] theorem Chip.setPois_tb (c : Chip) (a : Nat) (b : Bool) : (c.setPois a b).tb = c.tb := rfl
@[simp] theorem Chip.setPois_regs (c : Chip) (a : Nat) (b : Bool) : (c.setPois a b).regs = c.regs := rfl
@[simp] theorem Chip.setPois_latch (c : Chip) (a : Nat) (b : Bool) : (c.setPois a b).latch = c.latch := rfl
@[simp] theorem Chip.setPois_mem (c : Chip) (a : Nat) (b : Bool) : (c.setPois a b).mem = c.mem := rfl
@[simp] theorem Chip.setPois_fab (c : Chip) (a : Nat) (b : Bool) : (c.setPois a b).fab = c.fab := rfl
@[simp] theorem Chip.setPois_cmp (c : Chip) (a : Nat) (b : Bool) : (c.setPois a b).cmp = c.cmp := rfl
@[simp] theorem Chip.setPois_lnk (c : Chip) (a : Nat) (b : Bool) : (c.setPois a b).lnk = c.lnk := rfl
@[simp] theorem Chip.setPois_wrk (c : Chip) (a : Nat) (b : Bool) : (c.setPois a b).wrk = c.wrk := rfl
@[simp] theorem Chip.setPois_flt (c : Chip) (a : Nat) (b : Bool) : (c.setPois a b).flt = c.flt := rfl
@[simp] theorem Chip.setPois_obs (c : Chip) (a : Nat) (b : Bool) : (c.setPois a b).obs = c.obs := rfl
@[simp] theorem Chip.setPois_sns (c : Chip) (a : Nat) (b : Bool) : (c.setPois a b).sns = c.sns := rfl
@[simp] theorem Chip.setPois_net (c : Chip) (a : Nat) (b : Bool) : (c.setPois a b).net = c.net := rfl
@[simp] theorem Chip.setPois_boot (c : Chip) (a : Nat) (b : Bool) : (c.setPois a b).boot = c.boot := rfl
@[simp] theorem Chip.setPois_ses (c : Chip) (a : Nat) (b : Bool) : (c.setPois a b).ses = c.ses := rfl
@[simp] theorem Chip.setPois_pwr (c : Chip) (a : Nat) (b : Bool) : (c.setPois a b).pwr = c.pwr := rfl
@[simp] theorem Chip.setPois_nv (c : Chip) (a : Nat) (b : Bool) : (c.setPois a b).nv = c.nv := rfl
@[simp] theorem Chip.setPois_cfg (c : Chip) (a : Nat) (b : Bool) : (c.setPois a b).cfg = c.cfg := rfl
@[simp] theorem Chip.setPois_free (c : Chip) (a : Nat) (b : Bool) : (c.setPois a b).free = c.free := rfl
@[simp] theorem Chip.setPois_reg (c : Chip) (a : Nat) (b : Bool) (e o : Nat) : (c.setPois a b).reg e o = c.reg e o := rfl
@[simp] theorem Chip.setPois_reg64 (c : Chip) (a : Nat) (b : Bool) (e o : Nat) : (c.setPois a b).reg64 e o = c.reg64 e o := rfl
@[simp] theorem Chip.setPois_fld (c : Chip) (a : Nat) (b : Bool) (e o hi lo : Nat) : (c.setPois a b).fld e o hi lo = c.fld e o hi lo := rfl

/-! ### rise -/

@[simp] theorem Chip.rise_tb (c : Chip) (r : Rise) : (c.rise r).tb = c.tb := rfl
@[simp] theorem Chip.rise_regs (c : Chip) (r : Rise) : (c.rise r).regs = c.regs := rfl
@[simp] theorem Chip.rise_latch (c : Chip) (r : Rise) : (c.rise r).latch = c.latch := rfl
@[simp] theorem Chip.rise_mem (c : Chip) (r : Rise) : (c.rise r).mem = c.mem := rfl
@[simp] theorem Chip.rise_ecc (c : Chip) (r : Rise) : (c.rise r).ecc = c.ecc := rfl
@[simp] theorem Chip.rise_fab (c : Chip) (r : Rise) : (c.rise r).fab = c.fab := rfl
@[simp] theorem Chip.rise_cmp (c : Chip) (r : Rise) : (c.rise r).cmp = c.cmp := rfl
@[simp] theorem Chip.rise_lnk (c : Chip) (r : Rise) : (c.rise r).lnk = c.lnk := rfl
@[simp] theorem Chip.rise_wrk (c : Chip) (r : Rise) : (c.rise r).wrk = c.wrk := rfl
@[simp] theorem Chip.rise_obs (c : Chip) (r : Rise) : (c.rise r).obs = c.obs := rfl
@[simp] theorem Chip.rise_sns (c : Chip) (r : Rise) : (c.rise r).sns = c.sns := rfl
@[simp] theorem Chip.rise_net (c : Chip) (r : Rise) : (c.rise r).net = c.net := rfl
@[simp] theorem Chip.rise_boot (c : Chip) (r : Rise) : (c.rise r).boot = c.boot := rfl
@[simp] theorem Chip.rise_ses (c : Chip) (r : Rise) : (c.rise r).ses = c.ses := rfl
@[simp] theorem Chip.rise_pwr (c : Chip) (r : Rise) : (c.rise r).pwr = c.pwr := rfl
@[simp] theorem Chip.rise_nv (c : Chip) (r : Rise) : (c.rise r).nv = c.nv := rfl
@[simp] theorem Chip.rise_cfg (c : Chip) (r : Rise) : (c.rise r).cfg = c.cfg := rfl
@[simp] theorem Chip.rise_free (c : Chip) (r : Rise) : (c.rise r).free = c.free := rfl
@[simp] theorem Chip.rise_reg (c : Chip) (r : Rise) (e o : Nat) : (c.rise r).reg e o = c.reg e o := rfl
@[simp] theorem Chip.rise_reg64 (c : Chip) (r : Rise) (e o : Nat) : (c.rise r).reg64 e o = c.reg64 e o := rfl
@[simp] theorem Chip.rise_fld (c : Chip) (r : Rise) (e o hi lo : Nat) : (c.rise r).fld e o hi lo = c.fld e o hi lo := rfl

/-! ### modUnit -/

@[simp] theorem Chip.modUnit_tb (c : Chip) (u : Nat) (f : Lock → Lock) : (c.modUnit u f).tb = c.tb := rfl
@[simp] theorem Chip.modUnit_regs (c : Chip) (u : Nat) (f : Lock → Lock) : (c.modUnit u f).regs = c.regs := rfl
@[simp] theorem Chip.modUnit_latch (c : Chip) (u : Nat) (f : Lock → Lock) : (c.modUnit u f).latch = c.latch := rfl
@[simp] theorem Chip.modUnit_mem (c : Chip) (u : Nat) (f : Lock → Lock) : (c.modUnit u f).mem = c.mem := rfl
@[simp] theorem Chip.modUnit_ecc (c : Chip) (u : Nat) (f : Lock → Lock) : (c.modUnit u f).ecc = c.ecc := rfl
@[simp] theorem Chip.modUnit_fab (c : Chip) (u : Nat) (f : Lock → Lock) : (c.modUnit u f).fab = c.fab := rfl
@[simp] theorem Chip.modUnit_cmp (c : Chip) (u : Nat) (f : Lock → Lock) : (c.modUnit u f).cmp = c.cmp := rfl
@[simp] theorem Chip.modUnit_lnk (c : Chip) (u : Nat) (f : Lock → Lock) : (c.modUnit u f).lnk = c.lnk := rfl
@[simp] theorem Chip.modUnit_wrk (c : Chip) (u : Nat) (f : Lock → Lock) : (c.modUnit u f).wrk = c.wrk := rfl
@[simp] theorem Chip.modUnit_obs (c : Chip) (u : Nat) (f : Lock → Lock) : (c.modUnit u f).obs = c.obs := rfl
@[simp] theorem Chip.modUnit_sns (c : Chip) (u : Nat) (f : Lock → Lock) : (c.modUnit u f).sns = c.sns := rfl
@[simp] theorem Chip.modUnit_net (c : Chip) (u : Nat) (f : Lock → Lock) : (c.modUnit u f).net = c.net := rfl
@[simp] theorem Chip.modUnit_boot (c : Chip) (u : Nat) (f : Lock → Lock) : (c.modUnit u f).boot = c.boot := rfl
@[simp] theorem Chip.modUnit_ses (c : Chip) (u : Nat) (f : Lock → Lock) : (c.modUnit u f).ses = c.ses := rfl
@[simp] theorem Chip.modUnit_pwr (c : Chip) (u : Nat) (f : Lock → Lock) : (c.modUnit u f).pwr = c.pwr := rfl
@[simp] theorem Chip.modUnit_nv (c : Chip) (u : Nat) (f : Lock → Lock) : (c.modUnit u f).nv = c.nv := rfl
@[simp] theorem Chip.modUnit_cfg (c : Chip) (u : Nat) (f : Lock → Lock) : (c.modUnit u f).cfg = c.cfg := rfl
@[simp] theorem Chip.modUnit_free (c : Chip) (u : Nat) (f : Lock → Lock) : (c.modUnit u f).free = c.free := rfl
@[simp] theorem Chip.modUnit_reg (c : Chip) (u : Nat) (f : Lock → Lock) (e o : Nat) : (c.modUnit u f).reg e o = c.reg e o := rfl
@[simp] theorem Chip.modUnit_reg64 (c : Chip) (u : Nat) (f : Lock → Lock) (e o : Nat) : (c.modUnit u f).reg64 e o = c.reg64 e o := rfl
@[simp] theorem Chip.modUnit_fld (c : Chip) (u : Nat) (f : Lock → Lock) (e o hi lo : Nat) : (c.modUnit u f).fld e o hi lo = c.fld e o hi lo := rfl

/-! ### setSeq -/

@[simp] theorem Chip.setSeq_tb (c : Chip) (x : Seq) : (c.setSeq x).tb = c.tb := rfl
@[simp] theorem Chip.setSeq_regs (c : Chip) (x : Seq) : (c.setSeq x).regs = c.regs := rfl
@[simp] theorem Chip.setSeq_latch (c : Chip) (x : Seq) : (c.setSeq x).latch = c.latch := rfl
@[simp] theorem Chip.setSeq_mem (c : Chip) (x : Seq) : (c.setSeq x).mem = c.mem := rfl
@[simp] theorem Chip.setSeq_ecc (c : Chip) (x : Seq) : (c.setSeq x).ecc = c.ecc := rfl
@[simp] theorem Chip.setSeq_fab (c : Chip) (x : Seq) : (c.setSeq x).fab = c.fab := rfl
@[simp] theorem Chip.setSeq_cmp (c : Chip) (x : Seq) : (c.setSeq x).cmp = c.cmp := rfl
@[simp] theorem Chip.setSeq_lnk (c : Chip) (x : Seq) : (c.setSeq x).lnk = c.lnk := rfl
@[simp] theorem Chip.setSeq_wrk (c : Chip) (x : Seq) : (c.setSeq x).wrk = c.wrk := rfl
@[simp] theorem Chip.setSeq_obs (c : Chip) (x : Seq) : (c.setSeq x).obs = c.obs := rfl
@[simp] theorem Chip.setSeq_sns (c : Chip) (x : Seq) : (c.setSeq x).sns = c.sns := rfl
@[simp] theorem Chip.setSeq_net (c : Chip) (x : Seq) : (c.setSeq x).net = c.net := rfl
@[simp] theorem Chip.setSeq_boot (c : Chip) (x : Seq) : (c.setSeq x).boot = c.boot := rfl
@[simp] theorem Chip.setSeq_ses (c : Chip) (x : Seq) : (c.setSeq x).ses = c.ses := rfl
@[simp] theorem Chip.setSeq_pwr (c : Chip) (x : Seq) : (c.setSeq x).pwr = c.pwr := rfl
@[simp] theorem Chip.setSeq_nv (c : Chip) (x : Seq) : (c.setSeq x).nv = c.nv := rfl
@[simp] theorem Chip.setSeq_cfg (c : Chip) (x : Seq) : (c.setSeq x).cfg = c.cfg := rfl
@[simp] theorem Chip.setSeq_free (c : Chip) (x : Seq) : (c.setSeq x).free = c.free := rfl
@[simp] theorem Chip.setSeq_reg (c : Chip) (x : Seq) (e o : Nat) : (c.setSeq x).reg e o = c.reg e o := rfl
@[simp] theorem Chip.setSeq_reg64 (c : Chip) (x : Seq) (e o : Nat) : (c.setSeq x).reg64 e o = c.reg64 e o := rfl
@[simp] theorem Chip.setSeq_fld (c : Chip) (x : Seq) (e o hi lo : Nat) : (c.setSeq x).fld e o hi lo = c.fld e o hi lo := rfl

/-! ### modPart -/

@[simp] theorem Chip.modPart_tb (c : Chip) (p : Nat) (f : PartSt → PartSt) : (c.modPart p f).tb = c.tb := rfl
@[simp] theorem Chip.modPart_regs (c : Chip) (p : Nat) (f : PartSt → PartSt) : (c.modPart p f).regs = c.regs := rfl
@[simp] theorem Chip.modPart_latch (c : Chip) (p : Nat) (f : PartSt → PartSt) : (c.modPart p f).latch = c.latch := rfl
@[simp] theorem Chip.modPart_mem (c : Chip) (p : Nat) (f : PartSt → PartSt) : (c.modPart p f).mem = c.mem := rfl
@[simp] theorem Chip.modPart_ecc (c : Chip) (p : Nat) (f : PartSt → PartSt) : (c.modPart p f).ecc = c.ecc := rfl
@[simp] theorem Chip.modPart_fab (c : Chip) (p : Nat) (f : PartSt → PartSt) : (c.modPart p f).fab = c.fab := rfl
@[simp] theorem Chip.modPart_cmp (c : Chip) (p : Nat) (f : PartSt → PartSt) : (c.modPart p f).cmp = c.cmp := rfl
@[simp] theorem Chip.modPart_lnk (c : Chip) (p : Nat) (f : PartSt → PartSt) : (c.modPart p f).lnk = c.lnk := rfl
@[simp] theorem Chip.modPart_flt (c : Chip) (p : Nat) (f : PartSt → PartSt) : (c.modPart p f).flt = c.flt := rfl
@[simp] theorem Chip.modPart_obs (c : Chip) (p : Nat) (f : PartSt → PartSt) : (c.modPart p f).obs = c.obs := rfl
@[simp] theorem Chip.modPart_sns (c : Chip) (p : Nat) (f : PartSt → PartSt) : (c.modPart p f).sns = c.sns := rfl
@[simp] theorem Chip.modPart_net (c : Chip) (p : Nat) (f : PartSt → PartSt) : (c.modPart p f).net = c.net := rfl
@[simp] theorem Chip.modPart_boot (c : Chip) (p : Nat) (f : PartSt → PartSt) : (c.modPart p f).boot = c.boot := rfl
@[simp] theorem Chip.modPart_ses (c : Chip) (p : Nat) (f : PartSt → PartSt) : (c.modPart p f).ses = c.ses := rfl
@[simp] theorem Chip.modPart_pwr (c : Chip) (p : Nat) (f : PartSt → PartSt) : (c.modPart p f).pwr = c.pwr := rfl
@[simp] theorem Chip.modPart_nv (c : Chip) (p : Nat) (f : PartSt → PartSt) : (c.modPart p f).nv = c.nv := rfl
@[simp] theorem Chip.modPart_cfg (c : Chip) (p : Nat) (f : PartSt → PartSt) : (c.modPart p f).cfg = c.cfg := rfl
@[simp] theorem Chip.modPart_free (c : Chip) (p : Nat) (f : PartSt → PartSt) : (c.modPart p f).free = c.free := rfl
@[simp] theorem Chip.modPart_reg (c : Chip) (p : Nat) (f : PartSt → PartSt) (e o : Nat) : (c.modPart p f).reg e o = c.reg e o := rfl
@[simp] theorem Chip.modPart_reg64 (c : Chip) (p : Nat) (f : PartSt → PartSt) (e o : Nat) : (c.modPart p f).reg64 e o = c.reg64 e o := rfl
@[simp] theorem Chip.modPart_fld (c : Chip) (p : Nat) (f : PartSt → PartSt) (e o hi lo : Nat) : (c.modPart p f).fld e o hi lo = c.fld e o hi lo := rfl

/-! ### setJob -/

@[simp] theorem Chip.setJob_tb (c : Chip) (j : Nat) (v : JobSt) : (c.setJob j v).tb = c.tb := rfl
@[simp] theorem Chip.setJob_regs (c : Chip) (j : Nat) (v : JobSt) : (c.setJob j v).regs = c.regs := rfl
@[simp] theorem Chip.setJob_latch (c : Chip) (j : Nat) (v : JobSt) : (c.setJob j v).latch = c.latch := rfl
@[simp] theorem Chip.setJob_mem (c : Chip) (j : Nat) (v : JobSt) : (c.setJob j v).mem = c.mem := rfl
@[simp] theorem Chip.setJob_ecc (c : Chip) (j : Nat) (v : JobSt) : (c.setJob j v).ecc = c.ecc := rfl
@[simp] theorem Chip.setJob_fab (c : Chip) (j : Nat) (v : JobSt) : (c.setJob j v).fab = c.fab := rfl
@[simp] theorem Chip.setJob_cmp (c : Chip) (j : Nat) (v : JobSt) : (c.setJob j v).cmp = c.cmp := rfl
@[simp] theorem Chip.setJob_lnk (c : Chip) (j : Nat) (v : JobSt) : (c.setJob j v).lnk = c.lnk := rfl
@[simp] theorem Chip.setJob_flt (c : Chip) (j : Nat) (v : JobSt) : (c.setJob j v).flt = c.flt := rfl
@[simp] theorem Chip.setJob_obs (c : Chip) (j : Nat) (v : JobSt) : (c.setJob j v).obs = c.obs := rfl
@[simp] theorem Chip.setJob_sns (c : Chip) (j : Nat) (v : JobSt) : (c.setJob j v).sns = c.sns := rfl
@[simp] theorem Chip.setJob_net (c : Chip) (j : Nat) (v : JobSt) : (c.setJob j v).net = c.net := rfl
@[simp] theorem Chip.setJob_boot (c : Chip) (j : Nat) (v : JobSt) : (c.setJob j v).boot = c.boot := rfl
@[simp] theorem Chip.setJob_ses (c : Chip) (j : Nat) (v : JobSt) : (c.setJob j v).ses = c.ses := rfl
@[simp] theorem Chip.setJob_pwr (c : Chip) (j : Nat) (v : JobSt) : (c.setJob j v).pwr = c.pwr := rfl
@[simp] theorem Chip.setJob_nv (c : Chip) (j : Nat) (v : JobSt) : (c.setJob j v).nv = c.nv := rfl
@[simp] theorem Chip.setJob_cfg (c : Chip) (j : Nat) (v : JobSt) : (c.setJob j v).cfg = c.cfg := rfl
@[simp] theorem Chip.setJob_free (c : Chip) (j : Nat) (v : JobSt) : (c.setJob j v).free = c.free := rfl
@[simp] theorem Chip.setJob_reg (c : Chip) (j : Nat) (v : JobSt) (e o : Nat) : (c.setJob j v).reg e o = c.reg e o := rfl
@[simp] theorem Chip.setJob_reg64 (c : Chip) (j : Nat) (v : JobSt) (e o : Nat) : (c.setJob j v).reg64 e o = c.reg64 e o := rfl
@[simp] theorem Chip.setJob_fld (c : Chip) (j : Nat) (v : JobSt) (e o hi lo : Nat) : (c.setJob j v).fld e o hi lo = c.fld e o hi lo := rfl

/-! ### setTask -/

@[simp] theorem Chip.setTask_tb (c : Chip) (d k : Nat) (v : TaskSt) : (c.setTask d k v).tb = c.tb := rfl
@[simp] theorem Chip.setTask_regs (c : Chip) (d k : Nat) (v : TaskSt) : (c.setTask d k v).regs = c.regs := rfl
@[simp] theorem Chip.setTask_latch (c : Chip) (d k : Nat) (v : TaskSt) : (c.setTask d k v).latch = c.latch := rfl
@[simp] theorem Chip.setTask_mem (c : Chip) (d k : Nat) (v : TaskSt) : (c.setTask d k v).mem = c.mem := rfl
@[simp] theorem Chip.setTask_ecc (c : Chip) (d k : Nat) (v : TaskSt) : (c.setTask d k v).ecc = c.ecc := rfl
@[simp] theorem Chip.setTask_fab (c : Chip) (d k : Nat) (v : TaskSt) : (c.setTask d k v).fab = c.fab := rfl
@[simp] theorem Chip.setTask_cmp (c : Chip) (d k : Nat) (v : TaskSt) : (c.setTask d k v).cmp = c.cmp := rfl
@[simp] theorem Chip.setTask_lnk (c : Chip) (d k : Nat) (v : TaskSt) : (c.setTask d k v).lnk = c.lnk := rfl
@[simp] theorem Chip.setTask_flt (c : Chip) (d k : Nat) (v : TaskSt) : (c.setTask d k v).flt = c.flt := rfl
@[simp] theorem Chip.setTask_obs (c : Chip) (d k : Nat) (v : TaskSt) : (c.setTask d k v).obs = c.obs := rfl
@[simp] theorem Chip.setTask_sns (c : Chip) (d k : Nat) (v : TaskSt) : (c.setTask d k v).sns = c.sns := rfl
@[simp] theorem Chip.setTask_net (c : Chip) (d k : Nat) (v : TaskSt) : (c.setTask d k v).net = c.net := rfl
@[simp] theorem Chip.setTask_boot (c : Chip) (d k : Nat) (v : TaskSt) : (c.setTask d k v).boot = c.boot := rfl
@[simp] theorem Chip.setTask_ses (c : Chip) (d k : Nat) (v : TaskSt) : (c.setTask d k v).ses = c.ses := rfl
@[simp] theorem Chip.setTask_pwr (c : Chip) (d k : Nat) (v : TaskSt) : (c.setTask d k v).pwr = c.pwr := rfl
@[simp] theorem Chip.setTask_nv (c : Chip) (d k : Nat) (v : TaskSt) : (c.setTask d k v).nv = c.nv := rfl
@[simp] theorem Chip.setTask_cfg (c : Chip) (d k : Nat) (v : TaskSt) : (c.setTask d k v).cfg = c.cfg := rfl
@[simp] theorem Chip.setTask_free (c : Chip) (d k : Nat) (v : TaskSt) : (c.setTask d k v).free = c.free := rfl
@[simp] theorem Chip.setTask_reg (c : Chip) (d k : Nat) (v : TaskSt) (e o : Nat) : (c.setTask d k v).reg e o = c.reg e o := rfl
@[simp] theorem Chip.setTask_reg64 (c : Chip) (d k : Nat) (v : TaskSt) (e o : Nat) : (c.setTask d k v).reg64 e o = c.reg64 e o := rfl
@[simp] theorem Chip.setTask_fld (c : Chip) (d k : Nat) (v : TaskSt) (e o hi lo : Nat) : (c.setTask d k v).fld e o hi lo = c.fld e o hi lo := rfl

/-! ### setStation -/

@[simp] theorem Chip.setStation_tb (c : Chip) (k : Nat) (v : Station) : (c.setStation k v).tb = c.tb := rfl
@[simp] theorem Chip.setStation_regs (c : Chip) (k : Nat) (v : Station) : (c.setStation k v).regs = c.regs := rfl
@[simp] theorem Chip.setStation_latch (c : Chip) (k : Nat) (v : Station) : (c.setStation k v).latch = c.latch := rfl
@[simp] theorem Chip.setStation_mem (c : Chip) (k : Nat) (v : Station) : (c.setStation k v).mem = c.mem := rfl
@[simp] theorem Chip.setStation_ecc (c : Chip) (k : Nat) (v : Station) : (c.setStation k v).ecc = c.ecc := rfl
@[simp] theorem Chip.setStation_cmp (c : Chip) (k : Nat) (v : Station) : (c.setStation k v).cmp = c.cmp := rfl
@[simp] theorem Chip.setStation_lnk (c : Chip) (k : Nat) (v : Station) : (c.setStation k v).lnk = c.lnk := rfl
@[simp] theorem Chip.setStation_wrk (c : Chip) (k : Nat) (v : Station) : (c.setStation k v).wrk = c.wrk := rfl
@[simp] theorem Chip.setStation_flt (c : Chip) (k : Nat) (v : Station) : (c.setStation k v).flt = c.flt := rfl
@[simp] theorem Chip.setStation_obs (c : Chip) (k : Nat) (v : Station) : (c.setStation k v).obs = c.obs := rfl
@[simp] theorem Chip.setStation_sns (c : Chip) (k : Nat) (v : Station) : (c.setStation k v).sns = c.sns := rfl
@[simp] theorem Chip.setStation_net (c : Chip) (k : Nat) (v : Station) : (c.setStation k v).net = c.net := rfl
@[simp] theorem Chip.setStation_boot (c : Chip) (k : Nat) (v : Station) : (c.setStation k v).boot = c.boot := rfl
@[simp] theorem Chip.setStation_ses (c : Chip) (k : Nat) (v : Station) : (c.setStation k v).ses = c.ses := rfl
@[simp] theorem Chip.setStation_pwr (c : Chip) (k : Nat) (v : Station) : (c.setStation k v).pwr = c.pwr := rfl
@[simp] theorem Chip.setStation_nv (c : Chip) (k : Nat) (v : Station) : (c.setStation k v).nv = c.nv := rfl
@[simp] theorem Chip.setStation_cfg (c : Chip) (k : Nat) (v : Station) : (c.setStation k v).cfg = c.cfg := rfl
@[simp] theorem Chip.setStation_free (c : Chip) (k : Nat) (v : Station) : (c.setStation k v).free = c.free := rfl
@[simp] theorem Chip.setStation_reg (c : Chip) (k : Nat) (v : Station) (e o : Nat) : (c.setStation k v).reg e o = c.reg e o := rfl
@[simp] theorem Chip.setStation_reg64 (c : Chip) (k : Nat) (v : Station) (e o : Nat) : (c.setStation k v).reg64 e o = c.reg64 e o := rfl
@[simp] theorem Chip.setStation_fld (c : Chip) (k : Nat) (v : Station) (e o hi lo : Nat) : (c.setStation k v).fld e o hi lo = c.fld e o hi lo := rfl

/-! ### modStation -/

@[simp] theorem Chip.modStation_tb (c : Chip) (k : Nat) (f : Station → Station) : (c.modStation k f).tb = c.tb := rfl
@[simp] theorem Chip.modStation_regs (c : Chip) (k : Nat) (f : Station → Station) : (c.modStation k f).regs = c.regs := rfl
@[simp] theorem Chip.modStation_latch (c : Chip) (k : Nat) (f : Station → Station) : (c.modStation k f).latch = c.latch := rfl
@[simp] theorem Chip.modStation_mem (c : Chip) (k : Nat) (f : Station → Station) : (c.modStation k f).mem = c.mem := rfl
@[simp] theorem Chip.modStation_ecc (c : Chip) (k : Nat) (f : Station → Station) : (c.modStation k f).ecc = c.ecc := rfl
@[simp] theorem Chip.modStation_cmp (c : Chip) (k : Nat) (f : Station → Station) : (c.modStation k f).cmp = c.cmp := rfl
@[simp] theorem Chip.modStation_lnk (c : Chip) (k : Nat) (f : Station → Station) : (c.modStation k f).lnk = c.lnk := rfl
@[simp] theorem Chip.modStation_wrk (c : Chip) (k : Nat) (f : Station → Station) : (c.modStation k f).wrk = c.wrk := rfl
@[simp] theorem Chip.modStation_flt (c : Chip) (k : Nat) (f : Station → Station) : (c.modStation k f).flt = c.flt := rfl
@[simp] theorem Chip.modStation_obs (c : Chip) (k : Nat) (f : Station → Station) : (c.modStation k f).obs = c.obs := rfl
@[simp] theorem Chip.modStation_sns (c : Chip) (k : Nat) (f : Station → Station) : (c.modStation k f).sns = c.sns := rfl
@[simp] theorem Chip.modStation_net (c : Chip) (k : Nat) (f : Station → Station) : (c.modStation k f).net = c.net := rfl
@[simp] theorem Chip.modStation_boot (c : Chip) (k : Nat) (f : Station → Station) : (c.modStation k f).boot = c.boot := rfl
@[simp] theorem Chip.modStation_ses (c : Chip) (k : Nat) (f : Station → Station) : (c.modStation k f).ses = c.ses := rfl
@[simp] theorem Chip.modStation_pwr (c : Chip) (k : Nat) (f : Station → Station) : (c.modStation k f).pwr = c.pwr := rfl
@[simp] theorem Chip.modStation_nv (c : Chip) (k : Nat) (f : Station → Station) : (c.modStation k f).nv = c.nv := rfl
@[simp] theorem Chip.modStation_cfg (c : Chip) (k : Nat) (f : Station → Station) : (c.modStation k f).cfg = c.cfg := rfl
@[simp] theorem Chip.modStation_free (c : Chip) (k : Nat) (f : Station → Station) : (c.modStation k f).free = c.free := rfl
@[simp] theorem Chip.modStation_reg (c : Chip) (k : Nat) (f : Station → Station) (e o : Nat) : (c.modStation k f).reg e o = c.reg e o := rfl
@[simp] theorem Chip.modStation_reg64 (c : Chip) (k : Nat) (f : Station → Station) (e o : Nat) : (c.modStation k f).reg64 e o = c.reg64 e o := rfl
@[simp] theorem Chip.modStation_fld (c : Chip) (k : Nat) (f : Station → Station) (e o hi lo : Nat) : (c.modStation k f).fld e o hi lo = c.fld e o hi lo := rfl

/-! ### setRun -/

@[simp] theorem Chip.setRun_tb (c : Chip) (k : Nat) (r : Run) : (c.setRun k r).tb = c.tb := rfl
@[simp] theorem Chip.setRun_regs (c : Chip) (k : Nat) (r : Run) : (c.setRun k r).regs = c.regs := rfl
@[simp] theorem Chip.setRun_latch (c : Chip) (k : Nat) (r : Run) : (c.setRun k r).latch = c.latch := rfl
@[simp] theorem Chip.setRun_mem (c : Chip) (k : Nat) (r : Run) : (c.setRun k r).mem = c.mem := rfl
@[simp] theorem Chip.setRun_ecc (c : Chip) (k : Nat) (r : Run) : (c.setRun k r).ecc = c.ecc := rfl
@[simp] theorem Chip.setRun_cmp (c : Chip) (k : Nat) (r : Run) : (c.setRun k r).cmp = c.cmp := rfl
@[simp] theorem Chip.setRun_lnk (c : Chip) (k : Nat) (r : Run) : (c.setRun k r).lnk = c.lnk := rfl
@[simp] theorem Chip.setRun_wrk (c : Chip) (k : Nat) (r : Run) : (c.setRun k r).wrk = c.wrk := rfl
@[simp] theorem Chip.setRun_flt (c : Chip) (k : Nat) (r : Run) : (c.setRun k r).flt = c.flt := rfl
@[simp] theorem Chip.setRun_obs (c : Chip) (k : Nat) (r : Run) : (c.setRun k r).obs = c.obs := rfl
@[simp] theorem Chip.setRun_sns (c : Chip) (k : Nat) (r : Run) : (c.setRun k r).sns = c.sns := rfl
@[simp] theorem Chip.setRun_net (c : Chip) (k : Nat) (r : Run) : (c.setRun k r).net = c.net := rfl
@[simp] theorem Chip.setRun_boot (c : Chip) (k : Nat) (r : Run) : (c.setRun k r).boot = c.boot := rfl
@[simp] theorem Chip.setRun_ses (c : Chip) (k : Nat) (r : Run) : (c.setRun k r).ses = c.ses := rfl
@[simp] theorem Chip.setRun_pwr (c : Chip) (k : Nat) (r : Run) : (c.setRun k r).pwr = c.pwr := rfl
@[simp] theorem Chip.setRun_nv (c : Chip) (k : Nat) (r : Run) : (c.setRun k r).nv = c.nv := rfl
@[simp] theorem Chip.setRun_cfg (c : Chip) (k : Nat) (r : Run) : (c.setRun k r).cfg = c.cfg := rfl
@[simp] theorem Chip.setRun_free (c : Chip) (k : Nat) (r : Run) : (c.setRun k r).free = c.free := rfl
@[simp] theorem Chip.setRun_reg (c : Chip) (k : Nat) (r : Run) (e o : Nat) : (c.setRun k r).reg e o = c.reg e o := rfl
@[simp] theorem Chip.setRun_reg64 (c : Chip) (k : Nat) (r : Run) (e o : Nat) : (c.setRun k r).reg64 e o = c.reg64 e o := rfl
@[simp] theorem Chip.setRun_fld (c : Chip) (k : Nat) (r : Run) (e o hi lo : Nat) : (c.setRun k r).fld e o hi lo = c.fld e o hi lo := rfl

/-! ### setQueue -/

@[simp] theorem Chip.setQueue_tb (c : Chip) (q : Nat) (v : Queue) : (c.setQueue q v).tb = c.tb := rfl
@[simp] theorem Chip.setQueue_regs (c : Chip) (q : Nat) (v : Queue) : (c.setQueue q v).regs = c.regs := rfl
@[simp] theorem Chip.setQueue_latch (c : Chip) (q : Nat) (v : Queue) : (c.setQueue q v).latch = c.latch := rfl
@[simp] theorem Chip.setQueue_mem (c : Chip) (q : Nat) (v : Queue) : (c.setQueue q v).mem = c.mem := rfl
@[simp] theorem Chip.setQueue_ecc (c : Chip) (q : Nat) (v : Queue) : (c.setQueue q v).ecc = c.ecc := rfl
@[simp] theorem Chip.setQueue_cmp (c : Chip) (q : Nat) (v : Queue) : (c.setQueue q v).cmp = c.cmp := rfl
@[simp] theorem Chip.setQueue_lnk (c : Chip) (q : Nat) (v : Queue) : (c.setQueue q v).lnk = c.lnk := rfl
@[simp] theorem Chip.setQueue_wrk (c : Chip) (q : Nat) (v : Queue) : (c.setQueue q v).wrk = c.wrk := rfl
@[simp] theorem Chip.setQueue_flt (c : Chip) (q : Nat) (v : Queue) : (c.setQueue q v).flt = c.flt := rfl
@[simp] theorem Chip.setQueue_obs (c : Chip) (q : Nat) (v : Queue) : (c.setQueue q v).obs = c.obs := rfl
@[simp] theorem Chip.setQueue_sns (c : Chip) (q : Nat) (v : Queue) : (c.setQueue q v).sns = c.sns := rfl
@[simp] theorem Chip.setQueue_net (c : Chip) (q : Nat) (v : Queue) : (c.setQueue q v).net = c.net := rfl
@[simp] theorem Chip.setQueue_boot (c : Chip) (q : Nat) (v : Queue) : (c.setQueue q v).boot = c.boot := rfl
@[simp] theorem Chip.setQueue_ses (c : Chip) (q : Nat) (v : Queue) : (c.setQueue q v).ses = c.ses := rfl
@[simp] theorem Chip.setQueue_pwr (c : Chip) (q : Nat) (v : Queue) : (c.setQueue q v).pwr = c.pwr := rfl
@[simp] theorem Chip.setQueue_nv (c : Chip) (q : Nat) (v : Queue) : (c.setQueue q v).nv = c.nv := rfl
@[simp] theorem Chip.setQueue_cfg (c : Chip) (q : Nat) (v : Queue) : (c.setQueue q v).cfg = c.cfg := rfl
@[simp] theorem Chip.setQueue_free (c : Chip) (q : Nat) (v : Queue) : (c.setQueue q v).free = c.free := rfl
@[simp] theorem Chip.setQueue_reg (c : Chip) (q : Nat) (v : Queue) (e o : Nat) : (c.setQueue q v).reg e o = c.reg e o := rfl
@[simp] theorem Chip.setQueue_reg64 (c : Chip) (q : Nat) (v : Queue) (e o : Nat) : (c.setQueue q v).reg64 e o = c.reg64 e o := rfl
@[simp] theorem Chip.setQueue_fld (c : Chip) (q : Nat) (v : Queue) (e o hi lo : Nat) : (c.setQueue q v).fld e o hi lo = c.fld e o hi lo := rfl

/-! ### setMx -/

@[simp] theorem Chip.setMx_tb (c : Chip) (st : Nat) (v : Mx) : (c.setMx st v).tb = c.tb := rfl
@[simp] theorem Chip.setMx_regs (c : Chip) (st : Nat) (v : Mx) : (c.setMx st v).regs = c.regs := rfl
@[simp] theorem Chip.setMx_latch (c : Chip) (st : Nat) (v : Mx) : (c.setMx st v).latch = c.latch := rfl
@[simp] theorem Chip.setMx_mem (c : Chip) (st : Nat) (v : Mx) : (c.setMx st v).mem = c.mem := rfl
@[simp] theorem Chip.setMx_ecc (c : Chip) (st : Nat) (v : Mx) : (c.setMx st v).ecc = c.ecc := rfl
@[simp] theorem Chip.setMx_fab (c : Chip) (st : Nat) (v : Mx) : (c.setMx st v).fab = c.fab := rfl
@[simp] theorem Chip.setMx_lnk (c : Chip) (st : Nat) (v : Mx) : (c.setMx st v).lnk = c.lnk := rfl
@[simp] theorem Chip.setMx_wrk (c : Chip) (st : Nat) (v : Mx) : (c.setMx st v).wrk = c.wrk := rfl
@[simp] theorem Chip.setMx_flt (c : Chip) (st : Nat) (v : Mx) : (c.setMx st v).flt = c.flt := rfl
@[simp] theorem Chip.setMx_obs (c : Chip) (st : Nat) (v : Mx) : (c.setMx st v).obs = c.obs := rfl
@[simp] theorem Chip.setMx_sns (c : Chip) (st : Nat) (v : Mx) : (c.setMx st v).sns = c.sns := rfl
@[simp] theorem Chip.setMx_net (c : Chip) (st : Nat) (v : Mx) : (c.setMx st v).net = c.net := rfl
@[simp] theorem Chip.setMx_boot (c : Chip) (st : Nat) (v : Mx) : (c.setMx st v).boot = c.boot := rfl
@[simp] theorem Chip.setMx_ses (c : Chip) (st : Nat) (v : Mx) : (c.setMx st v).ses = c.ses := rfl
@[simp] theorem Chip.setMx_pwr (c : Chip) (st : Nat) (v : Mx) : (c.setMx st v).pwr = c.pwr := rfl
@[simp] theorem Chip.setMx_nv (c : Chip) (st : Nat) (v : Mx) : (c.setMx st v).nv = c.nv := rfl
@[simp] theorem Chip.setMx_cfg (c : Chip) (st : Nat) (v : Mx) : (c.setMx st v).cfg = c.cfg := rfl
@[simp] theorem Chip.setMx_free (c : Chip) (st : Nat) (v : Mx) : (c.setMx st v).free = c.free := rfl
@[simp] theorem Chip.setMx_reg (c : Chip) (st : Nat) (v : Mx) (e o : Nat) : (c.setMx st v).reg e o = c.reg e o := rfl
@[simp] theorem Chip.setMx_reg64 (c : Chip) (st : Nat) (v : Mx) (e o : Nat) : (c.setMx st v).reg64 e o = c.reg64 e o := rfl
@[simp] theorem Chip.setMx_fld (c : Chip) (st : Nat) (v : Mx) (e o hi lo : Nat) : (c.setMx st v).fld e o hi lo = c.fld e o hi lo := rfl

/-! ### setWf -/

@[simp] theorem Chip.setWf_tb (c : Chip) (st : Nat) (v : Wf) : (c.setWf st v).tb = c.tb := rfl
@[simp] theorem Chip.setWf_regs (c : Chip) (st : Nat) (v : Wf) : (c.setWf st v).regs = c.regs := rfl
@[simp] theorem Chip.setWf_latch (c : Chip) (st : Nat) (v : Wf) : (c.setWf st v).latch = c.latch := rfl
@[simp] theorem Chip.setWf_mem (c : Chip) (st : Nat) (v : Wf) : (c.setWf st v).mem = c.mem := rfl
@[simp] theorem Chip.setWf_ecc (c : Chip) (st : Nat) (v : Wf) : (c.setWf st v).ecc = c.ecc := rfl
@[simp] theorem Chip.setWf_fab (c : Chip) (st : Nat) (v : Wf) : (c.setWf st v).fab = c.fab := rfl
@[simp] theorem Chip.setWf_lnk (c : Chip) (st : Nat) (v : Wf) : (c.setWf st v).lnk = c.lnk := rfl
@[simp] theorem Chip.setWf_wrk (c : Chip) (st : Nat) (v : Wf) : (c.setWf st v).wrk = c.wrk := rfl
@[simp] theorem Chip.setWf_flt (c : Chip) (st : Nat) (v : Wf) : (c.setWf st v).flt = c.flt := rfl
@[simp] theorem Chip.setWf_obs (c : Chip) (st : Nat) (v : Wf) : (c.setWf st v).obs = c.obs := rfl
@[simp] theorem Chip.setWf_sns (c : Chip) (st : Nat) (v : Wf) : (c.setWf st v).sns = c.sns := rfl
@[simp] theorem Chip.setWf_net (c : Chip) (st : Nat) (v : Wf) : (c.setWf st v).net = c.net := rfl
@[simp] theorem Chip.setWf_boot (c : Chip) (st : Nat) (v : Wf) : (c.setWf st v).boot = c.boot := rfl
@[simp] theorem Chip.setWf_ses (c : Chip) (st : Nat) (v : Wf) : (c.setWf st v).ses = c.ses := rfl
@[simp] theorem Chip.setWf_pwr (c : Chip) (st : Nat) (v : Wf) : (c.setWf st v).pwr = c.pwr := rfl
@[simp] theorem Chip.setWf_nv (c : Chip) (st : Nat) (v : Wf) : (c.setWf st v).nv = c.nv := rfl
@[simp] theorem Chip.setWf_cfg (c : Chip) (st : Nat) (v : Wf) : (c.setWf st v).cfg = c.cfg := rfl
@[simp] theorem Chip.setWf_free (c : Chip) (st : Nat) (v : Wf) : (c.setWf st v).free = c.free := rfl
@[simp] theorem Chip.setWf_reg (c : Chip) (st : Nat) (v : Wf) (e o : Nat) : (c.setWf st v).reg e o = c.reg e o := rfl
@[simp] theorem Chip.setWf_reg64 (c : Chip) (st : Nat) (v : Wf) (e o : Nat) : (c.setWf st v).reg64 e o = c.reg64 e o := rfl
@[simp] theorem Chip.setWf_fld (c : Chip) (st : Nat) (v : Wf) (e o hi lo : Nat) : (c.setWf st v).fld e o hi lo = c.fld e o hi lo := rfl

/-! ### setRow -/

@[simp] theorem Chip.setRow_tb (c : Chip) (st a r : Nat) (v : Row) : (c.setRow st a r v).tb = c.tb := rfl
@[simp] theorem Chip.setRow_regs (c : Chip) (st a r : Nat) (v : Row) : (c.setRow st a r v).regs = c.regs := rfl
@[simp] theorem Chip.setRow_latch (c : Chip) (st a r : Nat) (v : Row) : (c.setRow st a r v).latch = c.latch := rfl
@[simp] theorem Chip.setRow_mem (c : Chip) (st a r : Nat) (v : Row) : (c.setRow st a r v).mem = c.mem := rfl
@[simp] theorem Chip.setRow_ecc (c : Chip) (st a r : Nat) (v : Row) : (c.setRow st a r v).ecc = c.ecc := rfl
@[simp] theorem Chip.setRow_fab (c : Chip) (st a r : Nat) (v : Row) : (c.setRow st a r v).fab = c.fab := rfl
@[simp] theorem Chip.setRow_lnk (c : Chip) (st a r : Nat) (v : Row) : (c.setRow st a r v).lnk = c.lnk := rfl
@[simp] theorem Chip.setRow_wrk (c : Chip) (st a r : Nat) (v : Row) : (c.setRow st a r v).wrk = c.wrk := rfl
@[simp] theorem Chip.setRow_flt (c : Chip) (st a r : Nat) (v : Row) : (c.setRow st a r v).flt = c.flt := rfl
@[simp] theorem Chip.setRow_obs (c : Chip) (st a r : Nat) (v : Row) : (c.setRow st a r v).obs = c.obs := rfl
@[simp] theorem Chip.setRow_sns (c : Chip) (st a r : Nat) (v : Row) : (c.setRow st a r v).sns = c.sns := rfl
@[simp] theorem Chip.setRow_net (c : Chip) (st a r : Nat) (v : Row) : (c.setRow st a r v).net = c.net := rfl
@[simp] theorem Chip.setRow_boot (c : Chip) (st a r : Nat) (v : Row) : (c.setRow st a r v).boot = c.boot := rfl
@[simp] theorem Chip.setRow_ses (c : Chip) (st a r : Nat) (v : Row) : (c.setRow st a r v).ses = c.ses := rfl
@[simp] theorem Chip.setRow_pwr (c : Chip) (st a r : Nat) (v : Row) : (c.setRow st a r v).pwr = c.pwr := rfl
@[simp] theorem Chip.setRow_nv (c : Chip) (st a r : Nat) (v : Row) : (c.setRow st a r v).nv = c.nv := rfl
@[simp] theorem Chip.setRow_cfg (c : Chip) (st a r : Nat) (v : Row) : (c.setRow st a r v).cfg = c.cfg := rfl
@[simp] theorem Chip.setRow_free (c : Chip) (st a r : Nat) (v : Row) : (c.setRow st a r v).free = c.free := rfl
@[simp] theorem Chip.setRow_reg (c : Chip) (st a r : Nat) (v : Row) (e o : Nat) : (c.setRow st a r v).reg e o = c.reg e o := rfl
@[simp] theorem Chip.setRow_reg64 (c : Chip) (st a r : Nat) (v : Row) (e o : Nat) : (c.setRow st a r v).reg64 e o = c.reg64 e o := rfl
@[simp] theorem Chip.setRow_fld (c : Chip) (st a r : Nat) (v : Row) (e o hi lo : Nat) : (c.setRow st a r v).fld e o hi lo = c.fld e o hi lo := rfl

/-! ### setLink -/

@[simp] theorem Chip.setLink_tb (c : Chip) (d m : Nat) (v : Link) : (c.setLink d m v).tb = c.tb := rfl
@[simp] theorem Chip.setLink_regs (c : Chip) (d m : Nat) (v : Link) : (c.setLink d m v).regs = c.regs := rfl
@[simp] theorem Chip.setLink_latch (c : Chip) (d m : Nat) (v : Link) : (c.setLink d m v).latch = c.latch := rfl
@[simp] theorem Chip.setLink_mem (c : Chip) (d m : Nat) (v : Link) : (c.setLink d m v).mem = c.mem := rfl
@[simp] theorem Chip.setLink_ecc (c : Chip) (d m : Nat) (v : Link) : (c.setLink d m v).ecc = c.ecc := rfl
@[simp] theorem Chip.setLink_fab (c : Chip) (d m : Nat) (v : Link) : (c.setLink d m v).fab = c.fab := rfl
@[simp] theorem Chip.setLink_cmp (c : Chip) (d m : Nat) (v : Link) : (c.setLink d m v).cmp = c.cmp := rfl
@[simp] theorem Chip.setLink_wrk (c : Chip) (d m : Nat) (v : Link) : (c.setLink d m v).wrk = c.wrk := rfl
@[simp] theorem Chip.setLink_flt (c : Chip) (d m : Nat) (v : Link) : (c.setLink d m v).flt = c.flt := rfl
@[simp] theorem Chip.setLink_obs (c : Chip) (d m : Nat) (v : Link) : (c.setLink d m v).obs = c.obs := rfl
@[simp] theorem Chip.setLink_sns (c : Chip) (d m : Nat) (v : Link) : (c.setLink d m v).sns = c.sns := rfl
@[simp] theorem Chip.setLink_net (c : Chip) (d m : Nat) (v : Link) : (c.setLink d m v).net = c.net := rfl
@[simp] theorem Chip.setLink_boot (c : Chip) (d m : Nat) (v : Link) : (c.setLink d m v).boot = c.boot := rfl
@[simp] theorem Chip.setLink_ses (c : Chip) (d m : Nat) (v : Link) : (c.setLink d m v).ses = c.ses := rfl
@[simp] theorem Chip.setLink_pwr (c : Chip) (d m : Nat) (v : Link) : (c.setLink d m v).pwr = c.pwr := rfl
@[simp] theorem Chip.setLink_nv (c : Chip) (d m : Nat) (v : Link) : (c.setLink d m v).nv = c.nv := rfl
@[simp] theorem Chip.setLink_cfg (c : Chip) (d m : Nat) (v : Link) : (c.setLink d m v).cfg = c.cfg := rfl
@[simp] theorem Chip.setLink_free (c : Chip) (d m : Nat) (v : Link) : (c.setLink d m v).free = c.free := rfl
@[simp] theorem Chip.setLink_reg (c : Chip) (d m : Nat) (v : Link) (e o : Nat) : (c.setLink d m v).reg e o = c.reg e o := rfl
@[simp] theorem Chip.setLink_reg64 (c : Chip) (d m : Nat) (v : Link) (e o : Nat) : (c.setLink d m v).reg64 e o = c.reg64 e o := rfl
@[simp] theorem Chip.setLink_fld (c : Chip) (d m : Nat) (v : Link) (e o hi lo : Nat) : (c.setLink d m v).fld e o hi lo = c.fld e o hi lo := rfl

/-! ### setContrib -/

@[simp] theorem Chip.setContrib_tb (c : Chip) (k : Nat) (v : Contrib) : (c.setContrib k v).tb = c.tb := rfl
@[simp] theorem Chip.setContrib_regs (c : Chip) (k : Nat) (v : Contrib) : (c.setContrib k v).regs = c.regs := rfl
@[simp] theorem Chip.setContrib_latch (c : Chip) (k : Nat) (v : Contrib) : (c.setContrib k v).latch = c.latch := rfl
@[simp] theorem Chip.setContrib_mem (c : Chip) (k : Nat) (v : Contrib) : (c.setContrib k v).mem = c.mem := rfl
@[simp] theorem Chip.setContrib_ecc (c : Chip) (k : Nat) (v : Contrib) : (c.setContrib k v).ecc = c.ecc := rfl
@[simp] theorem Chip.setContrib_fab (c : Chip) (k : Nat) (v : Contrib) : (c.setContrib k v).fab = c.fab := rfl
@[simp] theorem Chip.setContrib_cmp (c : Chip) (k : Nat) (v : Contrib) : (c.setContrib k v).cmp = c.cmp := rfl
@[simp] theorem Chip.setContrib_wrk (c : Chip) (k : Nat) (v : Contrib) : (c.setContrib k v).wrk = c.wrk := rfl
@[simp] theorem Chip.setContrib_flt (c : Chip) (k : Nat) (v : Contrib) : (c.setContrib k v).flt = c.flt := rfl
@[simp] theorem Chip.setContrib_obs (c : Chip) (k : Nat) (v : Contrib) : (c.setContrib k v).obs = c.obs := rfl
@[simp] theorem Chip.setContrib_sns (c : Chip) (k : Nat) (v : Contrib) : (c.setContrib k v).sns = c.sns := rfl
@[simp] theorem Chip.setContrib_net (c : Chip) (k : Nat) (v : Contrib) : (c.setContrib k v).net = c.net := rfl
@[simp] theorem Chip.setContrib_boot (c : Chip) (k : Nat) (v : Contrib) : (c.setContrib k v).boot = c.boot := rfl
@[simp] theorem Chip.setContrib_ses (c : Chip) (k : Nat) (v : Contrib) : (c.setContrib k v).ses = c.ses := rfl
@[simp] theorem Chip.setContrib_pwr (c : Chip) (k : Nat) (v : Contrib) : (c.setContrib k v).pwr = c.pwr := rfl
@[simp] theorem Chip.setContrib_nv (c : Chip) (k : Nat) (v : Contrib) : (c.setContrib k v).nv = c.nv := rfl
@[simp] theorem Chip.setContrib_cfg (c : Chip) (k : Nat) (v : Contrib) : (c.setContrib k v).cfg = c.cfg := rfl
@[simp] theorem Chip.setContrib_free (c : Chip) (k : Nat) (v : Contrib) : (c.setContrib k v).free = c.free := rfl
@[simp] theorem Chip.setContrib_reg (c : Chip) (k : Nat) (v : Contrib) (e o : Nat) : (c.setContrib k v).reg e o = c.reg e o := rfl
@[simp] theorem Chip.setContrib_reg64 (c : Chip) (k : Nat) (v : Contrib) (e o : Nat) : (c.setContrib k v).reg64 e o = c.reg64 e o := rfl
@[simp] theorem Chip.setContrib_fld (c : Chip) (k : Nat) (v : Contrib) (e o hi lo : Nat) : (c.setContrib k v).fld e o hi lo = c.fld e o hi lo := rfl

/-! ### modSp -/

@[simp] theorem Chip.modSp_tb (c : Chip) (p : Nat) (f : SPortSt → SPortSt) : (c.modSp p f).tb = c.tb := rfl
@[simp] theorem Chip.modSp_regs (c : Chip) (p : Nat) (f : SPortSt → SPortSt) : (c.modSp p f).regs = c.regs := rfl
@[simp] theorem Chip.modSp_latch (c : Chip) (p : Nat) (f : SPortSt → SPortSt) : (c.modSp p f).latch = c.latch := rfl
@[simp] theorem Chip.modSp_mem (c : Chip) (p : Nat) (f : SPortSt → SPortSt) : (c.modSp p f).mem = c.mem := rfl
@[simp] theorem Chip.modSp_ecc (c : Chip) (p : Nat) (f : SPortSt → SPortSt) : (c.modSp p f).ecc = c.ecc := rfl
@[simp] theorem Chip.modSp_fab (c : Chip) (p : Nat) (f : SPortSt → SPortSt) : (c.modSp p f).fab = c.fab := rfl
@[simp] theorem Chip.modSp_cmp (c : Chip) (p : Nat) (f : SPortSt → SPortSt) : (c.modSp p f).cmp = c.cmp := rfl
@[simp] theorem Chip.modSp_lnk (c : Chip) (p : Nat) (f : SPortSt → SPortSt) : (c.modSp p f).lnk = c.lnk := rfl
@[simp] theorem Chip.modSp_wrk (c : Chip) (p : Nat) (f : SPortSt → SPortSt) : (c.modSp p f).wrk = c.wrk := rfl
@[simp] theorem Chip.modSp_flt (c : Chip) (p : Nat) (f : SPortSt → SPortSt) : (c.modSp p f).flt = c.flt := rfl
@[simp] theorem Chip.modSp_obs (c : Chip) (p : Nat) (f : SPortSt → SPortSt) : (c.modSp p f).obs = c.obs := rfl
@[simp] theorem Chip.modSp_net (c : Chip) (p : Nat) (f : SPortSt → SPortSt) : (c.modSp p f).net = c.net := rfl
@[simp] theorem Chip.modSp_boot (c : Chip) (p : Nat) (f : SPortSt → SPortSt) : (c.modSp p f).boot = c.boot := rfl
@[simp] theorem Chip.modSp_ses (c : Chip) (p : Nat) (f : SPortSt → SPortSt) : (c.modSp p f).ses = c.ses := rfl
@[simp] theorem Chip.modSp_pwr (c : Chip) (p : Nat) (f : SPortSt → SPortSt) : (c.modSp p f).pwr = c.pwr := rfl
@[simp] theorem Chip.modSp_nv (c : Chip) (p : Nat) (f : SPortSt → SPortSt) : (c.modSp p f).nv = c.nv := rfl
@[simp] theorem Chip.modSp_cfg (c : Chip) (p : Nat) (f : SPortSt → SPortSt) : (c.modSp p f).cfg = c.cfg := rfl
@[simp] theorem Chip.modSp_free (c : Chip) (p : Nat) (f : SPortSt → SPortSt) : (c.modSp p f).free = c.free := rfl
@[simp] theorem Chip.modSp_reg (c : Chip) (p : Nat) (f : SPortSt → SPortSt) (e o : Nat) : (c.modSp p f).reg e o = c.reg e o := rfl
@[simp] theorem Chip.modSp_reg64 (c : Chip) (p : Nat) (f : SPortSt → SPortSt) (e o : Nat) : (c.modSp p f).reg64 e o = c.reg64 e o := rfl
@[simp] theorem Chip.modSp_fld (c : Chip) (p : Nat) (f : SPortSt → SPortSt) (e o hi lo : Nat) : (c.modSp p f).fld e o hi lo = c.fld e o hi lo := rfl

/-! ### setRing -/

@[simp] theorem Chip.setRing_tb (c : Chip) (s : Nat) (v : Ring) : (c.setRing s v).tb = c.tb := rfl
@[simp] theorem Chip.setRing_regs (c : Chip) (s : Nat) (v : Ring) : (c.setRing s v).regs = c.regs := rfl
@[simp] theorem Chip.setRing_latch (c : Chip) (s : Nat) (v : Ring) : (c.setRing s v).latch = c.latch := rfl
@[simp] theorem Chip.setRing_mem (c : Chip) (s : Nat) (v : Ring) : (c.setRing s v).mem = c.mem := rfl
@[simp] theorem Chip.setRing_ecc (c : Chip) (s : Nat) (v : Ring) : (c.setRing s v).ecc = c.ecc := rfl
@[simp] theorem Chip.setRing_fab (c : Chip) (s : Nat) (v : Ring) : (c.setRing s v).fab = c.fab := rfl
@[simp] theorem Chip.setRing_cmp (c : Chip) (s : Nat) (v : Ring) : (c.setRing s v).cmp = c.cmp := rfl
@[simp] theorem Chip.setRing_lnk (c : Chip) (s : Nat) (v : Ring) : (c.setRing s v).lnk = c.lnk := rfl
@[simp] theorem Chip.setRing_wrk (c : Chip) (s : Nat) (v : Ring) : (c.setRing s v).wrk = c.wrk := rfl
@[simp] theorem Chip.setRing_flt (c : Chip) (s : Nat) (v : Ring) : (c.setRing s v).flt = c.flt := rfl
@[simp] theorem Chip.setRing_obs (c : Chip) (s : Nat) (v : Ring) : (c.setRing s v).obs = c.obs := rfl
@[simp] theorem Chip.setRing_net (c : Chip) (s : Nat) (v : Ring) : (c.setRing s v).net = c.net := rfl
@[simp] theorem Chip.setRing_boot (c : Chip) (s : Nat) (v : Ring) : (c.setRing s v).boot = c.boot := rfl
@[simp] theorem Chip.setRing_ses (c : Chip) (s : Nat) (v : Ring) : (c.setRing s v).ses = c.ses := rfl
@[simp] theorem Chip.setRing_pwr (c : Chip) (s : Nat) (v : Ring) : (c.setRing s v).pwr = c.pwr := rfl
@[simp] theorem Chip.setRing_nv (c : Chip) (s : Nat) (v : Ring) : (c.setRing s v).nv = c.nv := rfl
@[simp] theorem Chip.setRing_cfg (c : Chip) (s : Nat) (v : Ring) : (c.setRing s v).cfg = c.cfg := rfl
@[simp] theorem Chip.setRing_free (c : Chip) (s : Nat) (v : Ring) : (c.setRing s v).free = c.free := rfl
@[simp] theorem Chip.setRing_reg (c : Chip) (s : Nat) (v : Ring) (e o : Nat) : (c.setRing s v).reg e o = c.reg e o := rfl
@[simp] theorem Chip.setRing_reg64 (c : Chip) (s : Nat) (v : Ring) (e o : Nat) : (c.setRing s v).reg64 e o = c.reg64 e o := rfl
@[simp] theorem Chip.setRing_fld (c : Chip) (s : Nat) (v : Ring) (e o hi lo : Nat) : (c.setRing s v).fld e o hi lo = c.fld e o hi lo := rfl

/-! ### modEp -/

@[simp] theorem Chip.modEp_tb (c : Chip) (n : Nat) (f : EPortSt → EPortSt) : (c.modEp n f).tb = c.tb := rfl
@[simp] theorem Chip.modEp_regs (c : Chip) (n : Nat) (f : EPortSt → EPortSt) : (c.modEp n f).regs = c.regs := rfl
@[simp] theorem Chip.modEp_latch (c : Chip) (n : Nat) (f : EPortSt → EPortSt) : (c.modEp n f).latch = c.latch := rfl
@[simp] theorem Chip.modEp_mem (c : Chip) (n : Nat) (f : EPortSt → EPortSt) : (c.modEp n f).mem = c.mem := rfl
@[simp] theorem Chip.modEp_ecc (c : Chip) (n : Nat) (f : EPortSt → EPortSt) : (c.modEp n f).ecc = c.ecc := rfl
@[simp] theorem Chip.modEp_fab (c : Chip) (n : Nat) (f : EPortSt → EPortSt) : (c.modEp n f).fab = c.fab := rfl
@[simp] theorem Chip.modEp_cmp (c : Chip) (n : Nat) (f : EPortSt → EPortSt) : (c.modEp n f).cmp = c.cmp := rfl
@[simp] theorem Chip.modEp_lnk (c : Chip) (n : Nat) (f : EPortSt → EPortSt) : (c.modEp n f).lnk = c.lnk := rfl
@[simp] theorem Chip.modEp_wrk (c : Chip) (n : Nat) (f : EPortSt → EPortSt) : (c.modEp n f).wrk = c.wrk := rfl
@[simp] theorem Chip.modEp_flt (c : Chip) (n : Nat) (f : EPortSt → EPortSt) : (c.modEp n f).flt = c.flt := rfl
@[simp] theorem Chip.modEp_obs (c : Chip) (n : Nat) (f : EPortSt → EPortSt) : (c.modEp n f).obs = c.obs := rfl
@[simp] theorem Chip.modEp_sns (c : Chip) (n : Nat) (f : EPortSt → EPortSt) : (c.modEp n f).sns = c.sns := rfl
@[simp] theorem Chip.modEp_boot (c : Chip) (n : Nat) (f : EPortSt → EPortSt) : (c.modEp n f).boot = c.boot := rfl
@[simp] theorem Chip.modEp_ses (c : Chip) (n : Nat) (f : EPortSt → EPortSt) : (c.modEp n f).ses = c.ses := rfl
@[simp] theorem Chip.modEp_pwr (c : Chip) (n : Nat) (f : EPortSt → EPortSt) : (c.modEp n f).pwr = c.pwr := rfl
@[simp] theorem Chip.modEp_nv (c : Chip) (n : Nat) (f : EPortSt → EPortSt) : (c.modEp n f).nv = c.nv := rfl
@[simp] theorem Chip.modEp_cfg (c : Chip) (n : Nat) (f : EPortSt → EPortSt) : (c.modEp n f).cfg = c.cfg := rfl
@[simp] theorem Chip.modEp_free (c : Chip) (n : Nat) (f : EPortSt → EPortSt) : (c.modEp n f).free = c.free := rfl
@[simp] theorem Chip.modEp_reg (c : Chip) (n : Nat) (f : EPortSt → EPortSt) (e o : Nat) : (c.modEp n f).reg e o = c.reg e o := rfl
@[simp] theorem Chip.modEp_reg64 (c : Chip) (n : Nat) (f : EPortSt → EPortSt) (e o : Nat) : (c.modEp n f).reg64 e o = c.reg64 e o := rfl
@[simp] theorem Chip.modEp_fld (c : Chip) (n : Nat) (f : EPortSt → EPortSt) (e o hi lo : Nat) : (c.modEp n f).fld e o hi lo = c.fld e o hi lo := rfl

/-! ### modSess -/

@[simp] theorem Chip.modSess_tb (c : Chip) (i : Nat) (f : Sess → Sess) : (c.modSess i f).tb = c.tb := rfl
@[simp] theorem Chip.modSess_regs (c : Chip) (i : Nat) (f : Sess → Sess) : (c.modSess i f).regs = c.regs := rfl
@[simp] theorem Chip.modSess_latch (c : Chip) (i : Nat) (f : Sess → Sess) : (c.modSess i f).latch = c.latch := rfl
@[simp] theorem Chip.modSess_mem (c : Chip) (i : Nat) (f : Sess → Sess) : (c.modSess i f).mem = c.mem := rfl
@[simp] theorem Chip.modSess_ecc (c : Chip) (i : Nat) (f : Sess → Sess) : (c.modSess i f).ecc = c.ecc := rfl
@[simp] theorem Chip.modSess_fab (c : Chip) (i : Nat) (f : Sess → Sess) : (c.modSess i f).fab = c.fab := rfl
@[simp] theorem Chip.modSess_cmp (c : Chip) (i : Nat) (f : Sess → Sess) : (c.modSess i f).cmp = c.cmp := rfl
@[simp] theorem Chip.modSess_lnk (c : Chip) (i : Nat) (f : Sess → Sess) : (c.modSess i f).lnk = c.lnk := rfl
@[simp] theorem Chip.modSess_wrk (c : Chip) (i : Nat) (f : Sess → Sess) : (c.modSess i f).wrk = c.wrk := rfl
@[simp] theorem Chip.modSess_flt (c : Chip) (i : Nat) (f : Sess → Sess) : (c.modSess i f).flt = c.flt := rfl
@[simp] theorem Chip.modSess_obs (c : Chip) (i : Nat) (f : Sess → Sess) : (c.modSess i f).obs = c.obs := rfl
@[simp] theorem Chip.modSess_sns (c : Chip) (i : Nat) (f : Sess → Sess) : (c.modSess i f).sns = c.sns := rfl
@[simp] theorem Chip.modSess_net (c : Chip) (i : Nat) (f : Sess → Sess) : (c.modSess i f).net = c.net := rfl
@[simp] theorem Chip.modSess_boot (c : Chip) (i : Nat) (f : Sess → Sess) : (c.modSess i f).boot = c.boot := rfl
@[simp] theorem Chip.modSess_pwr (c : Chip) (i : Nat) (f : Sess → Sess) : (c.modSess i f).pwr = c.pwr := rfl
@[simp] theorem Chip.modSess_nv (c : Chip) (i : Nat) (f : Sess → Sess) : (c.modSess i f).nv = c.nv := rfl
@[simp] theorem Chip.modSess_cfg (c : Chip) (i : Nat) (f : Sess → Sess) : (c.modSess i f).cfg = c.cfg := rfl
@[simp] theorem Chip.modSess_free (c : Chip) (i : Nat) (f : Sess → Sess) : (c.modSess i f).free = c.free := rfl
@[simp] theorem Chip.modSess_reg (c : Chip) (i : Nat) (f : Sess → Sess) (e o : Nat) : (c.modSess i f).reg e o = c.reg e o := rfl
@[simp] theorem Chip.modSess_reg64 (c : Chip) (i : Nat) (f : Sess → Sess) (e o : Nat) : (c.modSess i f).reg64 e o = c.reg64 e o := rfl
@[simp] theorem Chip.modSess_fld (c : Chip) (i : Nat) (f : Sess → Sess) (e o hi lo : Nat) : (c.modSess i f).fld e o hi lo = c.fld e o hi lo := rfl

/-! ### answer -/

@[simp] theorem Chip.answer_tb (c : Chip) (v : Nat) : (c.answer v).tb = c.tb := rfl
@[simp] theorem Chip.answer_regs (c : Chip) (v : Nat) : (c.answer v).regs = c.regs := rfl
@[simp] theorem Chip.answer_latch (c : Chip) (v : Nat) : (c.answer v).latch = c.latch := rfl
@[simp] theorem Chip.answer_mem (c : Chip) (v : Nat) : (c.answer v).mem = c.mem := rfl
@[simp] theorem Chip.answer_ecc (c : Chip) (v : Nat) : (c.answer v).ecc = c.ecc := rfl
@[simp] theorem Chip.answer_fab (c : Chip) (v : Nat) : (c.answer v).fab = c.fab := rfl
@[simp] theorem Chip.answer_cmp (c : Chip) (v : Nat) : (c.answer v).cmp = c.cmp := rfl
@[simp] theorem Chip.answer_lnk (c : Chip) (v : Nat) : (c.answer v).lnk = c.lnk := rfl
@[simp] theorem Chip.answer_wrk (c : Chip) (v : Nat) : (c.answer v).wrk = c.wrk := rfl
@[simp] theorem Chip.answer_flt (c : Chip) (v : Nat) : (c.answer v).flt = c.flt := rfl
@[simp] theorem Chip.answer_sns (c : Chip) (v : Nat) : (c.answer v).sns = c.sns := rfl
@[simp] theorem Chip.answer_net (c : Chip) (v : Nat) : (c.answer v).net = c.net := rfl
@[simp] theorem Chip.answer_boot (c : Chip) (v : Nat) : (c.answer v).boot = c.boot := rfl
@[simp] theorem Chip.answer_ses (c : Chip) (v : Nat) : (c.answer v).ses = c.ses := rfl
@[simp] theorem Chip.answer_pwr (c : Chip) (v : Nat) : (c.answer v).pwr = c.pwr := rfl
@[simp] theorem Chip.answer_nv (c : Chip) (v : Nat) : (c.answer v).nv = c.nv := rfl
@[simp] theorem Chip.answer_cfg (c : Chip) (v : Nat) : (c.answer v).cfg = c.cfg := rfl
@[simp] theorem Chip.answer_free (c : Chip) (v : Nat) : (c.answer v).free = c.free := rfl
@[simp] theorem Chip.answer_reg (c : Chip) (v : Nat) (e o : Nat) : (c.answer v).reg e o = c.reg e o := rfl
@[simp] theorem Chip.answer_reg64 (c : Chip) (v : Nat) (e o : Nat) : (c.answer v).reg64 e o = c.reg64 e o := rfl
@[simp] theorem Chip.answer_fld (c : Chip) (v : Nat) (e o hi lo : Nat) : (c.answer v).fld e o hi lo = c.fld e o hi lo := rfl

/-! ### hsPut -/

@[simp] theorem Chip.hsPut_tb (c : Chip) (kind die u dir : Nat) (b : Bytes) : (c.hsPut kind die u dir b).tb = c.tb := rfl
@[simp] theorem Chip.hsPut_regs (c : Chip) (kind die u dir : Nat) (b : Bytes) : (c.hsPut kind die u dir b).regs = c.regs := rfl
@[simp] theorem Chip.hsPut_latch (c : Chip) (kind die u dir : Nat) (b : Bytes) : (c.hsPut kind die u dir b).latch = c.latch := rfl
@[simp] theorem Chip.hsPut_mem (c : Chip) (kind die u dir : Nat) (b : Bytes) : (c.hsPut kind die u dir b).mem = c.mem := rfl
@[simp] theorem Chip.hsPut_fab (c : Chip) (kind die u dir : Nat) (b : Bytes) : (c.hsPut kind die u dir b).fab = c.fab := rfl
@[simp] theorem Chip.hsPut_cmp (c : Chip) (kind die u dir : Nat) (b : Bytes) : (c.hsPut kind die u dir b).cmp = c.cmp := rfl
@[simp] theorem Chip.hsPut_lnk (c : Chip) (kind die u dir : Nat) (b : Bytes) : (c.hsPut kind die u dir b).lnk = c.lnk := rfl
@[simp] theorem Chip.hsPut_wrk (c : Chip) (kind die u dir : Nat) (b : Bytes) : (c.hsPut kind die u dir b).wrk = c.wrk := rfl
@[simp] theorem Chip.hsPut_flt (c : Chip) (kind die u dir : Nat) (b : Bytes) : (c.hsPut kind die u dir b).flt = c.flt := rfl
@[simp] theorem Chip.hsPut_obs (c : Chip) (kind die u dir : Nat) (b : Bytes) : (c.hsPut kind die u dir b).obs = c.obs := rfl
@[simp] theorem Chip.hsPut_sns (c : Chip) (kind die u dir : Nat) (b : Bytes) : (c.hsPut kind die u dir b).sns = c.sns := rfl
@[simp] theorem Chip.hsPut_net (c : Chip) (kind die u dir : Nat) (b : Bytes) : (c.hsPut kind die u dir b).net = c.net := rfl
@[simp] theorem Chip.hsPut_boot (c : Chip) (kind die u dir : Nat) (b : Bytes) : (c.hsPut kind die u dir b).boot = c.boot := rfl
@[simp] theorem Chip.hsPut_ses (c : Chip) (kind die u dir : Nat) (b : Bytes) : (c.hsPut kind die u dir b).ses = c.ses := rfl
@[simp] theorem Chip.hsPut_pwr (c : Chip) (kind die u dir : Nat) (b : Bytes) : (c.hsPut kind die u dir b).pwr = c.pwr := rfl
@[simp] theorem Chip.hsPut_nv (c : Chip) (kind die u dir : Nat) (b : Bytes) : (c.hsPut kind die u dir b).nv = c.nv := rfl
@[simp] theorem Chip.hsPut_cfg (c : Chip) (kind die u dir : Nat) (b : Bytes) : (c.hsPut kind die u dir b).cfg = c.cfg := rfl
@[simp] theorem Chip.hsPut_free (c : Chip) (kind die u dir : Nat) (b : Bytes) : (c.hsPut kind die u dir b).free = c.free := rfl
@[simp] theorem Chip.hsPut_reg (c : Chip) (kind die u dir : Nat) (b : Bytes) (e o : Nat) : (c.hsPut kind die u dir b).reg e o = c.reg e o := rfl
@[simp] theorem Chip.hsPut_reg64 (c : Chip) (kind die u dir : Nat) (b : Bytes) (e o : Nat) : (c.hsPut kind die u dir b).reg64 e o = c.reg64 e o := rfl
@[simp] theorem Chip.hsPut_fld (c : Chip) (kind die u dir : Nat) (b : Bytes) (e o hi lo : Nat) : (c.hsPut kind die u dir b).fld e o hi lo = c.fld e o hi lo := rfl

/-! ### setErr -/

@[simp] theorem Chip.setErr_tb (c : Chip) (e : Bool) : (c.setErr e).tb = c.tb := rfl
@[simp] theorem Chip.setErr_regs (c : Chip) (e : Bool) : (c.setErr e).regs = c.regs := rfl
@[simp] theorem Chip.setErr_latch (c : Chip) (e : Bool) : (c.setErr e).latch = c.latch := rfl
@[simp] theorem Chip.setErr_mem (c : Chip) (e : Bool) : (c.setErr e).mem = c.mem := rfl
@[simp] theorem Chip.setErr_ecc (c : Chip) (e : Bool) : (c.setErr e).ecc = c.ecc := rfl
@[simp] theorem Chip.setErr_fab (c : Chip) (e : Bool) : (c.setErr e).fab = c.fab := rfl
@[simp] theorem Chip.setErr_cmp (c : Chip) (e : Bool) : (c.setErr e).cmp = c.cmp := rfl
@[simp] theorem Chip.setErr_lnk (c : Chip) (e : Bool) : (c.setErr e).lnk = c.lnk := rfl
@[simp] theorem Chip.setErr_wrk (c : Chip) (e : Bool) : (c.setErr e).wrk = c.wrk := rfl
@[simp] theorem Chip.setErr_flt (c : Chip) (e : Bool) : (c.setErr e).flt = c.flt := rfl
@[simp] theorem Chip.setErr_sns (c : Chip) (e : Bool) : (c.setErr e).sns = c.sns := rfl
@[simp] theorem Chip.setErr_net (c : Chip) (e : Bool) : (c.setErr e).net = c.net := rfl
@[simp] theorem Chip.setErr_boot (c : Chip) (e : Bool) : (c.setErr e).boot = c.boot := rfl
@[simp] theorem Chip.setErr_ses (c : Chip) (e : Bool) : (c.setErr e).ses = c.ses := rfl
@[simp] theorem Chip.setErr_pwr (c : Chip) (e : Bool) : (c.setErr e).pwr = c.pwr := rfl
@[simp] theorem Chip.setErr_nv (c : Chip) (e : Bool) : (c.setErr e).nv = c.nv := rfl
@[simp] theorem Chip.setErr_cfg (c : Chip) (e : Bool) : (c.setErr e).cfg = c.cfg := rfl
@[simp] theorem Chip.setErr_free (c : Chip) (e : Bool) : (c.setErr e).free = c.free := rfl
@[simp] theorem Chip.setErr_reg (c : Chip) (e : Bool) (e o : Nat) : (c.setErr e).reg e o = c.reg e o := rfl
@[simp] theorem Chip.setErr_reg64 (c : Chip) (e : Bool) (e o : Nat) : (c.setErr e).reg64 e o = c.reg64 e o := rfl
@[simp] theorem Chip.setErr_fld (c : Chip) (e : Bool) (e o hi lo : Nat) : (c.setErr e).fld e o hi lo = c.fld e o hi lo := rfl

/-! ### The readers -/

@[simp] theorem Chip.station_setStation (c : Chip) (k : Nat) (v : Station) : (c.setStation k v).station k = v := by simp [Chip.station, Chip.setStation]
theorem Chip.station_setStation_ne (c : Chip) (v : Station) {k i : Nat} (h : i ≠ k) : (c.setStation k v).station i = c.station i := by
  simp [Chip.station, Chip.setStation, tabGet_tabSet_ne _ _ _ h]
@[simp] theorem Chip.station_modStation (c : Chip) (k : Nat) (f : Station → Station) : (c.modStation k f).station k = f (c.station k) := by simp [Chip.modStation]
theorem Chip.station_modStation_ne (c : Chip) (f : Station → Station) {k i : Nat} (h : i ≠ k) : (c.modStation k f).station i = c.station i := by
  simp [Chip.modStation, Chip.station_setStation_ne _ _ h]
@[simp] theorem Chip.queue_setQueue (c : Chip) (q : Nat) (v : Queue) : (c.setQueue q v).queue q = v := by simp [Chip.queue, Chip.setQueue]
theorem Chip.queue_setQueue_ne (c : Chip) (v : Queue) {q i : Nat} (h : i ≠ q) : (c.setQueue q v).queue i = c.queue i := by
  simp [Chip.queue, Chip.setQueue, tabGet_tabSet_ne _ _ _ h]
@[simp] theorem Queue.slot_setSlot (x : Queue) (i : Nat) (v : SlotInfo) : (x.setSlot i v).slot i = v := by simp [Queue.slot, Queue.setSlot]
@[simp] theorem Chip.part_modPart (c : Chip) (p : Nat) (f : PartSt → PartSt) : (c.modPart p f).part p = f (c.part p) := by simp [Chip.part, Chip.modPart]
@[simp] theorem Chip.job_setJob (c : Chip) (j : Nat) (v : JobSt) : (c.setJob j v).job j = v := by simp [Chip.job, Chip.setJob]
theorem Chip.job_setJob_ne (c : Chip) (v : JobSt) {j i : Nat} (h : i ≠ j) : (c.setJob j v).job i = c.job i := by simp [Chip.job, Chip.setJob, tabGet_tabSet_ne _ _ _ h]
@[simp] theorem Chip.task_setTask (c : Chip) (d k : Nat) (v : TaskSt) : (c.setTask d k v).task d k = v := by simp [Chip.task, Chip.setTask]
@[simp] theorem Chip.mxOf_setMx (c : Chip) (st : Nat) (v : Mx) : (c.setMx st v).mxOf st = v := by simp [Chip.mxOf, Chip.setMx]
@[simp] theorem Chip.wfOf_setWf (c : Chip) (st : Nat) (v : Wf) : (c.setWf st v).wfOf st = v := by simp [Chip.wfOf, Chip.setWf]
@[simp] theorem Chip.row_setRow (c : Chip) (st a r : Nat) (v : Row) : (c.setRow st a r v).row st a r = v := by simp [Chip.row, Chip.setRow]
theorem Chip.row_setRow_ne (c : Chip) (v : Row) {st a r st' a' r' : Nat} (h : rowKey st' a' r' ≠ rowKey st a r) : (c.setRow st a r v).row st' a' r' = c.row st' a' r' := by
  simp [Chip.row, Chip.setRow, tabGet_tabSet_ne _ _ _ h]
@[simp] theorem Chip.link_setLink (c : Chip) (d m : Nat) (v : Link) : (c.setLink d m v).link d m = v := by simp [Chip.link, Chip.setLink]
@[simp] theorem Chip.ring_setRing (c : Chip) (s : Nat) (v : Ring) : (c.setRing s v).ring s = v := by simp [Chip.ring, Chip.setRing]
@[simp] theorem Chip.sp_modSp (c : Chip) (p : Nat) (f : SPortSt → SPortSt) : (c.modSp p f).sp p = f (c.sp p) := by simp [Chip.sp, Chip.modSp]
@[simp] theorem Chip.ep_modEp (c : Chip) (n : Nat) (f : EPortSt → EPortSt) : (c.modEp n f).ep n = f (c.ep n) := by simp [Chip.ep, Chip.modEp]
@[simp] theorem Chip.sess_modSess (c : Chip) (i : Nat) (f : Sess → Sess) : (c.modSess i f).sess i = f (c.sess i) := by simp [Chip.sess, Chip.modSess]
theorem Chip.sess_modSess_ne (c : Chip) (f : Sess → Sess) {i j : Nat} (h : j ≠ i) : (c.modSess i f).sess j = c.sess j := by
  simp [Chip.sess, Chip.modSess, tabGet_tabMod_ne _ _ _ h]
@[simp] theorem Chip.unit_modUnit (c : Chip) (u : Nat) (f : Lock → Lock) : (c.modUnit u f).unit u = f (c.unit u) := by simp [Chip.unit, Chip.modUnit]

/-! ### Registers -/

/-- A register reads what was last written into it, and a write of one register leaves every other. -/
theorem Chip.reg_setReg (c : Chip) (d off v e o : Nat) : (c.setReg d off v).reg e o = if regKey e o = regKey d off then v % 2 ^ 32 else c.reg e o := by
  simp only [Chip.reg, Chip.setReg, tabGet_tabSet]
  split <;> simp
@[simp] theorem Chip.reg_setReg_self (c : Chip) (d off v : Nat) : (c.setReg d off v).reg d off = v % 2 ^ 32 := by simp [Chip.reg_setReg]
theorem Chip.reg_setReg_ne (c : Chip) (d off v e o : Nat) (h : regKey e o ≠ regKey d off) : (c.setReg d off v).reg e o = c.reg e o := by simp [Chip.reg_setReg, h]
/-- Registers of offsets below 2^24 are apart where the die or the offset differs. -/
theorem regKey_eq {d off e o : Nat} (h1 : off < 2 ^ 24) (h2 : o < 2 ^ 24) : regKey e o = regKey d off ↔ e = d ∧ o = off := by
  simp only [regKey]; omega
/-- A register holds 32 bits. -/
theorem Chip.reg_lt (c : Chip) (d off : Nat) : c.reg d off < 2 ^ 32 := (tabGet 0#32 c.regs (regKey d off)).isLt
/-- A 64-bit pair reads what was last written into it. -/
@[simp] theorem Chip.reg64_setReg64 (c : Chip) (d off v : Nat) : (c.setReg64 d off v).reg64 d off = v % 2 ^ 64 := by
  simp only [Chip.reg64, Chip.setReg64, Chip.reg_setReg, regKey]
  have : ¬ d * 16777216 + off = d * 16777216 + (off + 4) := by omega
  simp only [this, if_true, if_false]
  omega

end Sys2Proof.Machine
end

