-- ==== Sys2Proof/Laws/Bits.lean ====
section
/-! SUPPORT. Laws/Bits.lean: fields of words: what a replaced field reads and that it leaves every bit outside it. -/
namespace Sys2Proof.Machine

/-- Bit `i` of a word whose field [hi:lo] was replaced. -/
theorem testBit_putBits (x hi lo v i : Nat) (h : lo ≤ hi) :
    (putBits x hi lo v).testBit i = if lo ≤ i ∧ i ≤ hi then v.testBit (i - lo) else x.testBit i := by
  have e : putBits x hi lo v = 2 ^ lo * (2 ^ (hi + 1 - lo) * (x >>> lo / 2 ^ (hi + 1 - lo)) + v % 2 ^ (hi + 1 - lo)) + x % 2 ^ lo := by
    simp only [putBits, bits, Nat.shiftLeft_eq, Nat.shiftRight_eq_div_pow]
    have h1 := Nat.div_add_mod x (2 ^ lo)
    have h2 := Nat.div_add_mod (x / 2 ^ lo) (2 ^ (hi + 1 - lo))
    generalize 2 ^ lo = a at *
    generalize 2 ^ (hi + 1 - lo) = b at *
    generalize hq : x / a = q at *
    generalize q / b = p at *
    generalize q % b = m at *
    generalize v % b = w at *
    generalize x % a = r at *
    subst h2
    have : x = a * (b * p) + a * m + r := by rw [← h1]; ring
    have e2 : m * a = a * m := Nat.mul_comm _ _
    rw [e2, this]
    have : a * (b * p) + a * m + r - a * m = a * (b * p) + r := by omega
    rw [this]; ring
  rw [e]
  by_cases h1 : i < lo
  · have : ¬ (lo ≤ i ∧ i ≤ hi) := by omega
    rw [if_neg this, Nat.testBit_two_pow_mul_add _ (Nat.mod_lt _ (Nat.two_pow_pos lo)), if_pos h1]
    simp [Nat.testBit_mod_two_pow, h1]
  · rw [Nat.testBit_two_pow_mul_add _ (Nat.mod_lt _ (Nat.two_pow_pos lo)), if_neg h1, Nat.testBit_two_pow_mul_add _ (Nat.mod_lt _ (Nat.two_pow_pos _))]
    by_cases h2 : i ≤ hi
    · rw [if_pos (by omega), if_pos (by omega), Nat.testBit_mod_two_pow]
      simp [show i - lo < hi + 1 - lo by omega]
    · rw [if_neg (by omega), if_neg (by omega), ← Nat.shiftRight_eq_div_pow, Nat.testBit_shiftRight, Nat.testBit_shiftRight]
      congr 1; omega

/-- Bit `i` of a field. -/
theorem testBit_bits (x hi lo i : Nat) : (bits x hi lo).testBit i = (decide (i < hi + 1 - lo) && x.testBit (lo + i)) := by
  simp [bits, Nat.testBit_mod_two_pow, Nat.testBit_shiftRight]

/-- A replaced field reads what was put there. -/
theorem bits_putBits (x hi lo v : Nat) (h : lo ≤ hi) : bits (putBits x hi lo v) hi lo = v % 2 ^ (hi + 1 - lo) := by
  apply Nat.eq_of_testBit_eq
  intro i
  rw [testBit_bits, testBit_putBits _ _ _ _ _ h, Nat.testBit_mod_two_pow]
  by_cases k : i < hi + 1 - lo
  · simp [k, show lo + i ≤ hi by omega]
  · simp [k]

/-- A field apart from the replaced one reads as before. -/
theorem bits_putBits_ne (x hi lo v a b : Nat) (h : lo ≤ hi) (k : a < lo ∨ hi < b) : bits (putBits x hi lo v) a b = bits x a b := by
  apply Nat.eq_of_testBit_eq
  intro i
  rw [testBit_bits, testBit_bits]
  by_cases m : i < a + 1 - b
  · rw [testBit_putBits _ _ _ _ _ h, if_neg (by omega)]
  · simp [m]

/-- A word with a replaced field stays within 32 bits. -/
theorem putBits_lt (x hi lo v : Nat) (h : lo ≤ hi) (k : hi < 32) (hx : x < 2 ^ 32) : putBits x hi lo v < 2 ^ 32 := by
  apply Nat.lt_pow_two_of_testBit
  intro i hi'
  rw [testBit_putBits _ _ _ _ _ h, if_neg (by omega)]
  exact Nat.testBit_lt_two_pow (Nat.lt_of_lt_of_le hx (Nat.pow_le_pow_right (by decide) hi'))

/-- A register with a replaced field. -/
theorem Chip.reg_setFld (c : Chip) (d off hi lo v : Nat) (h : lo ≤ hi) (k : hi < 32) : (c.setFld d off hi lo v).reg d off = putBits (c.reg d off) hi lo v := by
  rw [Chip.setFld, Chip.reg_setReg_self, Nat.mod_eq_of_lt (putBits_lt _ _ _ _ h k (c.reg_lt d off))]

/-- A replaced field of a register reads what was put there. -/
theorem Chip.fld_setFld_self (c : Chip) (d off hi lo v : Nat) (h : lo ≤ hi) (k : hi < 32) : (c.setFld d off hi lo v).fld d off hi lo = v % 2 ^ (hi + 1 - lo) := by
  rw [Chip.fld, c.reg_setFld _ _ _ _ _ h k, bits_putBits _ _ _ _ h]

/-- Another field of that register, apart from the replaced one, reads as before. -/
theorem Chip.fld_setFld_ne (c : Chip) (d off hi lo v a b : Nat) (h : lo ≤ hi) (k : hi < 32) (m : a < lo ∨ hi < b) :
    (c.setFld d off hi lo v).fld d off a b = c.fld d off a b := by
  rw [Chip.fld, c.reg_setFld _ _ _ _ _ h k, bits_putBits_ne _ _ _ _ _ _ h m, Chip.fld]

/-- A field of another register reads as before. -/
theorem Chip.fld_setReg_ne (c : Chip) (d off v e o a b : Nat) (h : regKey e o ≠ regKey d off) : (c.setReg d off v).fld e o a b = c.fld e o a b := by
  rw [Chip.fld, c.reg_setReg_ne _ _ _ _ _ h, Chip.fld]

/-- Another register than the one with the replaced field reads as before. -/
theorem Chip.reg_setFld_ne (c : Chip) (d off hi lo v e o : Nat) (h : regKey e o ≠ regKey d off) : (c.setFld d off hi lo v).reg e o = c.reg e o := c.reg_setReg_ne _ _ _ _ _ h

/-- A register with bits set. -/
theorem Chip.bit_orReg (c : Chip) (d off m i : Nat) (h : i < 32) : bit ((c.orReg d off m).reg d off) i = (bit (c.reg d off) i || bit m i) := by
  simp only [bit, Chip.orReg, Chip.reg_setReg_self, Nat.testBit_mod_two_pow, h, Nat.testBit_or]
  simp

end Sys2Proof.Machine
end

