-- ==== Sys2Proof/Laws/Follows.lean ====
section
/-! SUPPORT. Laws/Follows.lean: what an effect keeps of the chip it began with, as one relation that every operation of the model is shown to respect: the addressed stores stay
canonical, one-time-programmable memory only moves forward, the time bus never runs back, FL1 stays, and so does every part that the operation does not touch. -/
namespace Sys2Proof.Machine

/-- The chip that an effect began with, and the parts that must stay. -/
structure Kept where
  old : Chip
  keep : Comp → Bool

/-- The chip keeps what `z` says. -/
structure Kept.Follows (z : Kept) (c : Chip) : Prop where
  canon : z.old.canon → c.canon
  otp : z.old.nv.otp.goesTo c.nv.otp
  tick : z.old.tb.tick ≤ c.tb.tick
  fl1 : c.nv.fl1 = z.old.nv.fl1
  same : ∀ x, z.keep x = true → z.old.same x c

/-- These parts may change. -/
def Kept.Free (z : Kept) (l : List Comp) : Prop := ∀ x ∈ l, z.keep x = false

variable {z : Kept} {c : Chip} {l m : List Comp}

theorem Kept.Free.sub (h : z.Free l) (k : m.all (fun x => l.contains x) = true) : z.Free m := fun x hx =>
  h x (by have := List.all_eq_true.mp k x hx; simpa using this)

/-- Every part but those of `l` must stay. -/
def Kept.but (l : List Comp) (c : Chip) : Kept := { old := c, keep := fun x => !l.contains x }

theorem Kept.but_free (l : List Comp) (c : Chip) : (Kept.but l c).Free l := fun x hx => by
  have : l.contains x = true := by simpa using hx
  show (!l.contains x) = false
  rw [this]; rfl

theorem Otp.goesTo_refl (a : Otp) : a.goesTo a := ⟨rfl, rfl, fun _ h => h, Nat.le_refl _, Nat.le_refl _, fun h => h⟩

theorem Otp.goesTo_trans {a b c : Otp} (h : a.goesTo b) (k : b.goesTo c) : a.goesTo c :=
  ⟨k.1.trans h.1, k.2.1.trans h.2.1, fun i x => k.2.2.1 i (h.2.2.1 i x), h.2.2.2.1.trans k.2.2.2.1, h.2.2.2.2.1.trans k.2.2.2.2.1,
    fun x => k.2.2.2.2.2 (h.2.2.2.2.2 x)⟩

theorem Chip.same_refl (c : Chip) (x : Comp) : c.same x c := by cases x <;> rfl

theorem Chip.same_trans {a b c : Chip} {x : Comp} (h : a.same x b) (k : b.same x c) : a.same x c := by
  cases x <;> exact Eq.trans k h

theorem Kept.but_follows (l : List Comp) (c : Chip) : (Kept.but l c).Follows c := ⟨fun h => h, Otp.goesTo_refl _, Nat.le_refl _, rfl, fun _ _ => c.same_refl _⟩

/-- What may change, or stays from one chip to the next, is kept. -/
theorem Kept.Follows.next (h : z.Follows c) (hm : z.Free l) (d : Chip) (k : ∀ x, x ∈ l ∨ c.same x d) : ∀ x, z.keep x = true → z.old.same x d := fun x hx =>
  match k x with
  | .inl hl => absurd (hm x hl) (by simp [hx])
  | .inr hs => Chip.same_trans (h.same x hx) hs

/-- Fields that hold no store may change where they are free, and the time bus may run on. -/
theorem follows_upd (hm : z.Free l) (h : z.Follows c) (t : TimeBase) (e : Ecc) (n : Nv) (latch fab cmp lnk wrk flt obs sns net boot ses pwr free)
    (ht : c.tb.tick ≤ t.tick) (he : e.poison = c.ecc.poison) (h1 : n.otp = c.nv.otp) (h2 : n.fl0 = c.nv.fl0) (h3 : n.fl1 = c.nv.fl1)
    (k : ∀ x, x ∈ l ∨ c.same x ⟨t, c.regs, latch, c.mem, e, fab, cmp, lnk, wrk, flt, obs, sns, net, boot, ses, pwr, n, c.cfg, free⟩) :
    z.Follows ⟨t, c.regs, latch, c.mem, e, fab, cmp, lnk, wrk, flt, obs, sns, net, boot, ses, pwr, n, c.cfg, free⟩ :=
  ⟨fun x => by have := h.canon x; simp only [Chip.canon] at *; rw [he, h2, h3]; exact this, by show z.old.nv.otp.goesTo n.otp; rw [h1]; exact h.otp,
    h.tick.trans ht, h3.trans h.fl1, h.next hm _ k⟩

/-- A field of memory kept across power may take any canonical contents in FL0. -/
theorem follows_nv (hm : z.Free l) (h : z.Follows c) (n : Nv) (hl : Comp.nv ∈ l) (h1 : n.otp = c.nv.otp)
    (h2 : tabWf 0xFF#8 c.nv.fl0 = true → tabWf 0xFF#8 n.fl0 = true) (h3 : n.fl1 = c.nv.fl1) : z.Follows { c with nv := n } :=
  ⟨fun x => by have := h.canon x; simp only [Chip.canon] at *; rw [h3]; exact ⟨this.1, this.2.1, this.2.2.1, h2 this.2.2.2.1, this.2.2.2.2⟩,
    by show z.old.nv.otp.goesTo n.otp; rw [h1]; exact h.otp, h.tick, h3.trans h.fl1,
    h.next hm _ (fun x => by cases x <;> first | exact .inr rfl | exact .inr h1 | exact .inl hl)⟩

/-- The registers may take any canonical contents. -/
theorem follows_regs (hm : z.Free [.regs]) (h : z.Follows c) (r : Tab Word) (hr : tabWf 0#32 c.regs = true → tabWf 0#32 r = true) :
    z.Follows { c with regs := r } :=
  ⟨fun x => by have := h.canon x; simp only [Chip.canon] at *; exact ⟨this.1, hr this.2.1, this.2.2⟩, h.otp, h.tick, h.fl1,
    h.next hm _ (fun x => by cases x <;> first | exact .inr rfl | exact .inl (by decide))⟩

/-- Memory may take any canonical contents. -/
theorem follows_mem (hm : z.Free [.mem]) (h : z.Follows c) (r : List Host.Cell) (hr : Memory.wf c.mem = true → Memory.wf r = true) : z.Follows { c with mem := r } :=
  ⟨fun x => by have := h.canon x; simp only [Chip.canon] at *; exact ⟨hr this.1, this.2⟩, h.otp, h.tick, h.fl1,
    h.next hm _ (fun x => by cases x <;> first | exact .inr rfl | exact .inl (by decide))⟩

/-- The poison marks may take any canonical contents. -/
theorem follows_poison (hm : z.Free [.ecc]) (h : z.Follows c) (e : Ecc) (he : tabWf false c.ecc.poison = true → tabWf false e.poison = true) :
    z.Follows { c with ecc := e } :=
  ⟨fun x => by have := h.canon x; simp only [Chip.canon] at *; exact ⟨this.1, this.2.1, he this.2.2.1, this.2.2.2⟩, h.otp, h.tick, h.fl1,
    h.next hm _ (fun x => by cases x <;> first | exact .inr rfl | exact .inl (by decide))⟩

/-- One-time-programmable memory may move forward. -/
theorem follows_otp (hm : z.Free [.otp, .nv]) (h : z.Follows c) (o : Otp) (ho : c.nv.otp.goesTo o) : z.Follows { c with nv := { c.nv with otp := o } } :=
  ⟨h.canon, Otp.goesTo_trans h.otp ho, h.tick, h.fl1, h.next hm _ (fun x => by cases x <;> first | exact .inr rfl | exact .inl (by decide))⟩

theorem follows_ite {p : Prop} [Decidable p] {x y : Chip} (hx : z.Follows x) (hy : z.Follows y) : z.Follows (if p then x else y) := by
  split
  · exact hx
  · exact hy

theorem follows_eachDo {α : Type} {f : α → Chip → Chip} (hf : ∀ x k, z.Follows k → z.Follows (f x k)) (l : List α) (h : z.Follows c) :
    z.Follows (eachDo l f c) := by
  induction l generalizing c with
  | nil => exact h
  | cons x l ih => exact ih (hf x c h)

/-- A fold over a chip with something beside it, found there by `g`. -/
theorem follows_fold {α σ : Type} (g : σ → Chip) {f : σ → α → σ} (hf : ∀ s x, z.Follows (g s) → z.Follows (g (f s x))) (l : List α) (s : σ)
    (h : z.Follows (g s)) : z.Follows (g (l.foldl f s)) := by
  induction l generalizing s with
  | nil => exact h
  | cons x l ih => exact ih _ (hf s x h)

/-- A fold over a chip paired with something. -/
theorem follows_foldl {α β : Type} {f : Chip × β → α → Chip × β} (hf : ∀ s x, z.Follows s.1 → z.Follows (f s x).1) (l : List α) (s : Chip × β)
    (h : z.Follows s.1) : z.Follows (l.foldl f s).1 := follows_fold (·.1) hf l s h

theorem memWf_memWrite {m : List Host.Cell} (h : Memory.wf m = true) (i : Nat) (b : Bytes) : Memory.wf (memWrite m i b) = true := by
  induction b generalizing m i with
  | nil => exact h
  | cons x b ih => exact ih (tabWf_tabSet 0#8 x i h) (i + 1)

theorem tabWf_flashWrite {f : Tab Byte} (h : tabWf 0xFF#8 f = true) (i : Nat) (b : Bytes) : tabWf 0xFF#8 (flashWrite f i b) = true := by
  induction b generalizing f i with
  | nil => exact h
  | cons x b ih => exact ih (tabWf_tabSet 0xFF#8 x i h) (i + 1)

theorem tabWf_flashErase {f : Tab Byte} (h : tabWf 0xFF#8 f = true) (i n : Nat) : tabWf 0xFF#8 (flashErase f i n) = true := tabWf_tabKeep _ _ h

end Sys2Proof.Machine
end

