-- ==== Sys2Proof/Laws/FollowsBase.lean ====
section
/-! SUPPORT. Laws/FollowsBase.lean: every operation of registers, jobs, memory, queues, tiles and engines keeps what `Chip.Follows` says. -/
namespace Sys2Proof.Machine

theorem Chip.setReg_follows {z : Kept} {c : Chip} (d off v : Nat) (h : z.Follows c) (hm : z.Free [.regs]) : z.Follows (c.setReg d off v) :=
  follows_regs hm h _ (fun x => tabWf_tabSet 0#32 _ _ x)

theorem Chip.setReg64_follows {z : Kept} {c : Chip} (d off v : Nat) (hz : z.Follows c) (hm : z.Free [.regs]) : z.Follows (Chip.setReg64 c d off v) := by
  unfold Chip.setReg64; try with_reducible dsimp only
  repeat' first | (with_reducible assumption) | (with_reducible apply Chip.setReg_follows)

theorem Chip.addReg_follows {z : Kept} {c : Chip} (d off n : Nat) (hz : z.Follows c) (hm : z.Free [.regs]) : z.Follows (Chip.addReg c d off n) := by
  unfold Chip.addReg; try with_reducible dsimp only
  repeat' first | (with_reducible assumption) | (with_reducible apply Chip.setReg_follows)

theorem Chip.addReg48_follows {z : Kept} {c : Chip} (d off n : Nat) (hz : z.Follows c) (hm : z.Free [.regs]) : z.Follows (Chip.addReg48 c d off n) := by
  unfold Chip.addReg48; try with_reducible dsimp only
  repeat' first | (with_reducible assumption) | (with_reducible apply Chip.setReg64_follows)

theorem Chip.orReg_follows {z : Kept} {c : Chip} (d off m : Nat) (hz : z.Follows c) (hm : z.Free [.regs]) : z.Follows (Chip.orReg c d off m) := by
  unfold Chip.orReg; try with_reducible dsimp only
  repeat' first | (with_reducible assumption) | (with_reducible apply Chip.setReg_follows)

theorem Chip.setFld_follows {z : Kept} {c : Chip} (d off hi lo v : Nat) (hz : z.Follows c) (hm : z.Free [.regs]) : z.Follows (Chip.setFld c d off hi lo v) := by
  unfold Chip.setFld; try with_reducible dsimp only
  repeat' first | (with_reducible assumption) | (with_reducible apply Chip.setReg_follows)

theorem Chip.draw_follows {z : Kept} {c : Chip} (hz : z.Follows c) (hm : z.Free [.free]) : z.Follows (Chip.draw c).2 := by
  unfold Chip.draw; try with_reducible dsimp only
  repeat' first | (with_reducible assumption) | exact rfl | exact Nat.le_refl _ | (with_reducible apply follows_upd hm) | (intro x; cases x <;> first | exact .inl (by decide) | exact .inr rfl)

theorem Chip.advanceTo_follows {z : Kept} {c : Chip} (ns : Nat) (hz : z.Follows c) (hm : z.Free [.tb]) : z.Follows (Chip.advanceTo c ns) := by
  unfold Chip.advanceTo; try with_reducible dsimp only
  repeat' first | (with_reducible assumption) | exact rfl | exact Nat.le_max_left _ _ | (with_reducible apply follows_upd hm) | (intro x; cases x <;> first | exact .inl (by decide) | exact .inr rfl)

theorem Chip.ticks_follows {z : Kept} {c : Chip} (n : Nat) (hz : z.Follows c) (hm : z.Free [.tb]) : z.Follows (Chip.ticks c n) := by
  unfold Chip.ticks; try with_reducible dsimp only
  repeat' first | (with_reducible assumption) | exact rfl | exact Nat.le_add_right _ _ | (with_reducible apply follows_upd hm) | (intro x; cases x <;> first | exact .inl (by decide) | exact .inr rfl)

theorem Chip.mirror_follows {z : Kept} {c : Chip} (e : Nat) (h : z.Follows c) (hm : z.Free [.regs, .nv]) : z.Follows (c.mirror e) := by
  have hs : z.Follows (c.setFld 0 (startBlk + 0x24) 15 0 (bits e 127 112)) := Chip.setFld_follows _ _ _ _ _ h (hm.sub (by decide))
  have hn : (c.setFld 0 (startBlk + 0x24) 15 0 (bits e 127 112)).nv = c.nv := rfl
  unfold Chip.mirror
  generalize c.setFld 0 (startBlk + 0x24) 15 0 (bits e 127 112) = k at hs hn
  have hf : ∀ f : Tab Byte, tabWf 0xFF#8 f = true → tabWf 0xFF#8 (if c.nv.mirrored % 127 = 0 then
      flashWrite (flashErase f (0xE60000 + 4096 * (c.nv.mirrored / 127 % 256)) 4096) (0xE60000 + 4096 * (c.nv.mirrored / 127 % 256))
        (toLE 4 (c.nv.mirrored / 127) ++ toLE 4 c.nv.log.boots ++ toLE 2 (bits e 127 112) ++ toLE 22 0) else f) = true := by
    intro f x
    split
    · exact tabWf_flashWrite (tabWf_flashErase x _ _) _ _
    · exact x
  refine follows_nv hm hs _ (by decide) (by rw [hn]) (fun x => tabWf_flashWrite (hf c.nv.fl0 (by rw [← hn]; exact x)) _ _) (by rw [hn])

theorem Chip.shav_follows {z : Kept} {c : Chip} (source level tp a0 a1 a2 : Nat) (hz : z.Follows c) (hm : z.Free [.regs, .obs, .nv]) : z.Follows (Chip.shav c source level tp a0 a1 a2) := by
  unfold Chip.shav; try with_reducible dsimp only
  repeat' first | (with_reducible assumption) | exact hm.sub (by decide) | (with_reducible apply Chip.mirror_follows) | (with_reducible apply Chip.addReg_follows) | (with_reducible apply Chip.setReg_follows) | (with_reducible apply follows_ite) | split | exact rfl | exact Nat.le_refl _ | (with_reducible apply follows_upd hm) | (intro x; cases x <;> first | exact .inl (by decide) | exact .inr rfl)

theorem Chip.rise_follows {z : Kept} {c : Chip} (r : Rise) (hz : z.Follows c) (hm : z.Free [.flt]) : z.Follows (Chip.rise c r) := by
  unfold Chip.rise; try with_reducible dsimp only
  repeat' first | (with_reducible assumption) | exact rfl | exact Nat.le_refl _ | (with_reducible apply follows_upd hm) | (intro x; cases x <;> first | exact .inl (by decide) | exact .inr rfl)

theorem Chip.raise_follows {z : Kept} {c : Chip} (d off i cause : Nat) (esc : Bool) (cls : Nat) (hz : z.Follows c) (hm : z.Free [.regs, .flt]) : z.Follows (Chip.raise c d off i cause esc cls) := by
  unfold Chip.raise; try with_reducible dsimp only
  repeat' first | (with_reducible assumption) | exact hm.sub (by decide) | (with_reducible apply Chip.rise_follows) | (with_reducible apply Chip.orReg_follows) | (with_reducible apply follows_ite) | split

theorem Chip.escalate_follows {z : Kept} {c : Chip} (b cause die src : Nat) (hz : z.Follows c) (hm : z.Free [.flt]) : z.Follows (Chip.escalate c b cause die src) := by
  unfold Chip.escalate; try with_reducible dsimp only
  repeat' first | (with_reducible assumption) | (with_reducible apply Chip.rise_follows)

theorem Chip.modPart_follows {z : Kept} {c : Chip} (p : Nat) (f : PartSt → PartSt) (hz : z.Follows c) (hm : z.Free [.wrk]) : z.Follows (Chip.modPart c p f) := by
  unfold Chip.modPart; try with_reducible dsimp only
  repeat' first | (with_reducible assumption) | exact rfl | exact Nat.le_refl _ | (with_reducible apply follows_upd hm) | (intro x; cases x <;> first | exact .inl (by decide) | exact .inr rfl)

theorem Chip.noteEnd_follows {z : Kept} {c : Chip} (p : Nat) (hz : z.Follows c) (hm : z.Free [.wrk]) : z.Follows (Chip.noteEnd c p) := by
  unfold Chip.noteEnd; try with_reducible dsimp only
  repeat' first | (with_reducible assumption) | (with_reducible apply Chip.modPart_follows)

theorem Chip.setJob_follows {z : Kept} {c : Chip} (j : Nat) (v : JobSt) (hz : z.Follows c) (hm : z.Free [.wrk]) : z.Follows (Chip.setJob c j v) := by
  unfold Chip.setJob; try with_reducible dsimp only
  repeat' first | (with_reducible assumption) | exact rfl | exact Nat.le_refl _ | (with_reducible apply follows_upd hm) | (intro x; cases x <;> first | exact .inl (by decide) | exact .inr rfl)

theorem Chip.setStation_follows {z : Kept} {c : Chip} (k : Nat) (v : Station) (hz : z.Follows c) (hm : z.Free [.fab]) : z.Follows (Chip.setStation c k v) := by
  unfold Chip.setStation; try with_reducible dsimp only
  repeat' first | (with_reducible assumption) | exact rfl | exact Nat.le_refl _ | (with_reducible apply follows_upd hm) | (intro x; cases x <;> first | exact .inl (by decide) | exact .inr rfl)

theorem Chip.modStation_follows {z : Kept} {c : Chip} (k : Nat) (f : Station → Station) (hz : z.Follows c) (hm : z.Free [.fab]) : z.Follows (Chip.modStation c k f) := by
  unfold Chip.modStation; try with_reducible dsimp only
  repeat' first | (with_reducible assumption) | (with_reducible apply Chip.setStation_follows)

theorem Chip.modReal_follows {z : Kept} {c : Chip} (k : Nat) (f : Station → Station) (hz : z.Follows c) (hm : z.Free [.fab]) : z.Follows (Chip.modReal c k f) := by
  unfold Chip.modReal; try with_reducible dsimp only
  repeat' first | (with_reducible assumption) | (with_reducible apply Chip.modStation_follows) | (with_reducible apply follows_ite) | split | exact rfl | exact Nat.le_refl _ | (with_reducible apply follows_upd hm) | (intro x; cases x <;> first | exact .inl (by decide) | exact .inr rfl)

theorem Chip.noteStatus_follows {z : Kept} {c : Chip} (k ix s : Nat) (hz : z.Follows c) (hm : z.Free [.regs, .fab]) : z.Follows (Chip.noteStatus c k ix s) := by
  unfold Chip.noteStatus; try with_reducible dsimp only
  repeat' first | (with_reducible assumption) | exact hm.sub (by decide) | (with_reducible apply Chip.modReal_follows) | (with_reducible apply Chip.setFld_follows) | (with_reducible apply follows_ite)

theorem Chip.endReal_follows {z : Kept} {c : Chip} (k ix s : Nat) (hz : z.Follows c) (hm : z.Free [.regs, .fab]) : z.Follows (Chip.endReal c k ix s) := by
  unfold Chip.endReal; try with_reducible dsimp only
  repeat' first | (with_reducible assumption) | exact hm.sub (by decide) | (with_reducible apply Chip.noteStatus_follows) | (with_reducible apply Chip.modReal_follows) | (with_reducible apply Chip.addReg_follows)

theorem Chip.endJobAt_follows {z : Kept} {c : Chip} (k j s : Nat) (hz : z.Follows c) (hm : z.Free [.regs, .fab]) : z.Follows (Chip.endJobAt c k j s) := by
  unfold Chip.endJobAt; try with_reducible dsimp only
  repeat' first | (with_reducible assumption) | (with_reducible apply Chip.endReal_follows) | (with_reducible apply follows_eachDo) | intro _ _ _

theorem Chip.endJob_follows {z : Kept} {c : Chip} (j code : Nat) (hz : z.Follows c) (hm : z.Free [.regs, .fab, .cmp, .lnk, .wrk, .obs, .nv]) : z.Follows (Chip.endJob c j code) := by
  unfold Chip.endJob; try with_reducible dsimp only
  repeat' first | (with_reducible assumption) | exact hm.sub (by decide) | (with_reducible apply Chip.endJobAt_follows) | (with_reducible apply Chip.setJob_follows) | (with_reducible apply Chip.noteEnd_follows) | (with_reducible apply Chip.shav_follows) | (with_reducible apply follows_eachDo) | (with_reducible apply follows_ite) | intro _ _ _ | split | exact rfl | exact Nat.le_refl _ | (with_reducible apply follows_upd hm) | (intro x; cases x <;> first | exact .inl (by decide) | exact .inr rfl)

theorem Chip.poke_follows {z : Kept} {c : Chip} (i : Nat) (b : Bytes) (h : z.Follows c) (hm : z.Free [.mem]) : z.Follows (c.poke i b) :=
  follows_mem hm h _ (fun x => memWf_memWrite x _ _)

theorem Chip.setPois_follows {z : Kept} {c : Chip} (i : Nat) (b : Bool) (h : z.Follows c) (hm : z.Free [.ecc]) : z.Follows (c.setPois i b) :=
  follows_poison hm h _ (fun x => tabWf_tabSet false _ _ x)

theorem Chip.latchIf_follows {z : Kept} {c : Chip} (d stat : Nat) (l : List (Nat × Nat)) (hz : z.Follows c) (hm : z.Free [.regs]) : z.Follows (Chip.latchIf c d stat l) := by
  unfold Chip.latchIf; try with_reducible dsimp only
  repeat' first | (with_reducible assumption) | (with_reducible apply Chip.setReg_follows) | (with_reducible apply follows_eachDo) | (with_reducible apply follows_ite) | intro _ _ _

theorem Chip.addRepair_follows {z : Kept} {c : Chip} (r : Repair) (hz : z.Follows c) (hm : z.Free [.ecc]) : z.Follows (Chip.addRepair c r) := by
  unfold Chip.addRepair; try with_reducible dsimp only
  repeat' first | (with_reducible assumption) | (with_reducible apply follows_ite) | split | exact rfl | exact Nat.le_refl _ | (with_reducible apply follows_upd hm) | (intro x; cases x <;> first | exact .inl (by decide) | exact .inr rfl)

theorem Chip.sramCe_follows {z : Kept} {c : Chip} (d a : Nat) (t : Target) (who : Reader) (hz : z.Follows c) (hm : z.Free [.regs, .ecc, .flt]) : z.Follows (Chip.sramCe c d a t who) := by
  unfold Chip.sramCe; try with_reducible dsimp only
  repeat' first | (with_reducible assumption) | exact hm.sub (by decide) | (with_reducible apply Chip.addRepair_follows) | (with_reducible apply Chip.latchIf_follows) | (with_reducible apply Chip.raise_follows) | (with_reducible apply Chip.addReg_follows) | (with_reducible apply follows_ite) | split | exact rfl | exact Nat.le_refl _ | (with_reducible apply follows_upd hm) | (intro x; cases x <;> first | exact .inl (by decide) | exact .inr rfl)

theorem Chip.sramUe_follows {z : Kept} {c : Chip} (d a : Nat) (t : Target) (who : Reader) (hz : z.Follows c) (hm : z.Free [.regs, .ecc, .flt]) : z.Follows (Chip.sramUe c d a t who) := by
  unfold Chip.sramUe; try with_reducible dsimp only
  repeat' first | (with_reducible assumption) | exact hm.sub (by decide) | (with_reducible apply Chip.latchIf_follows) | (with_reducible apply Chip.setPois_follows) | (with_reducible apply Chip.raise_follows) | (with_reducible apply Chip.addReg_follows)

theorem Chip.ddrLatch_follows {z : Kept} {c : Chip} (d a : Nat) (l : DramLoc) (who : Reader) (hz : z.Follows c) (hm : z.Free [.regs]) : z.Follows (Chip.ddrLatch c d a l who) := by
  unfold Chip.ddrLatch; try with_reducible dsimp only
  repeat' first | (with_reducible assumption) | (with_reducible apply Chip.latchIf_follows)

theorem Chip.retireRow_follows {z : Kept} {c : Chip} (d a : Nat) (l : DramLoc) (who : Reader) (hz : z.Follows c) (hm : z.Free [.regs, .ecc, .flt]) : z.Follows (Chip.retireRow c d a l who) := by
  unfold Chip.retireRow; try with_reducible dsimp only
  repeat' first | (with_reducible assumption) | exact hm.sub (by decide) | (with_reducible apply Chip.ddrLatch_follows) | (with_reducible apply Chip.raise_follows) | (with_reducible apply follows_ite) | split | exact rfl | exact Nat.le_refl _ | (with_reducible apply follows_upd hm) | (intro x; cases x <;> first | exact .inl (by decide) | exact .inr rfl)

theorem Chip.ddrCe_follows {z : Kept} {c : Chip} (d a : Nat) (chk : Bool) (who : Reader) (hz : z.Follows c) (hm : z.Free [.regs, .ecc, .flt]) : z.Follows (Chip.ddrCe c d a chk who) := by
  unfold Chip.ddrCe; try with_reducible dsimp only
  repeat' first | (with_reducible assumption) | exact hm.sub (by decide) | (with_reducible apply Chip.retireRow_follows) | (with_reducible apply Chip.ddrLatch_follows) | (with_reducible apply Chip.raise_follows) | (with_reducible apply Chip.addReg_follows) | (with_reducible apply follows_ite) | split | exact rfl | exact Nat.le_refl _ | (with_reducible apply follows_upd hm) | (intro x; cases x <;> first | exact .inl (by decide) | exact .inr rfl)

theorem Chip.ddrUe_follows {z : Kept} {c : Chip} (d a : Nat) (chk : Bool) (who : Reader) (hz : z.Follows c) (hm : z.Free [.regs, .ecc, .flt]) : z.Follows (Chip.ddrUe c d a chk who) := by
  unfold Chip.ddrUe; try with_reducible dsimp only
  repeat' first | (with_reducible assumption) | exact hm.sub (by decide) | (with_reducible apply Chip.retireRow_follows) | (with_reducible apply Chip.ddrLatch_follows) | (with_reducible apply Chip.setPois_follows) | (with_reducible apply Chip.raise_follows) | (with_reducible apply Chip.addReg_follows) | (with_reducible apply follows_eachDo) | (with_reducible apply follows_ite) | intro _ _ _

theorem Chip.upset_follows {z : Kept} {c : Chip} (who : Reader) (u : Upset) (hz : z.Follows c) (hm : z.Free [.regs, .ecc, .flt]) : z.Follows (Chip.upset c who u) := by
  unfold Chip.upset; try with_reducible dsimp only
  repeat' first | (with_reducible assumption) | (with_reducible apply Chip.ddrUe_follows) | (with_reducible apply Chip.ddrCe_follows) | (with_reducible apply Chip.sramUe_follows) | (with_reducible apply Chip.sramCe_follows) | (with_reducible apply follows_ite) | split

theorem Chip.meter_follows {z : Kept} {c : Chip} (d : Nat) (own : Option Nat) (n : Nat) (hz : z.Follows c) (hm : z.Free [.ecc]) : z.Follows (Chip.meter c d own n) := by
  unfold Chip.meter; try with_reducible dsimp only
  repeat' first | (with_reducible assumption) | split | exact rfl | exact Nat.le_refl _ | (with_reducible apply follows_upd hm) | (intro x; cases x <;> first | exact .inl (by decide) | exact .inr rfl)

theorem Chip.bursts_follows {z : Kept} {c : Chip} (d sub : Nat) (own : Option Nat) (n : Nat) (hz : z.Follows c) (hm : z.Free [.regs, .ecc]) : z.Follows (Chip.bursts c d sub own n) := by
  unfold Chip.bursts; try with_reducible dsimp only
  repeat' first | (with_reducible assumption) | exact hm.sub (by decide) | (with_reducible apply Chip.meter_follows) | (with_reducible apply Chip.addReg_follows) | split

theorem Chip.checkBursts_follows {z : Kept} {c : Chip} (d sub : Nat) (own : Option Nat) (n : Nat) (hz : z.Follows c) (hm : z.Free [.regs, .ecc]) : z.Follows (Chip.checkBursts c d sub own n) := by
  unfold Chip.checkBursts; try with_reducible dsimp only
  repeat' first | (with_reducible assumption) | exact hm.sub (by decide) | (with_reducible apply Chip.meter_follows) | (with_reducible apply Chip.addReg_follows)

theorem Chip.checkLine_follows {z : Kept} {c : Chip} (d sub b : Nat) (wr : Bool) (own : Option Nat) (hz : z.Follows c) (hm : z.Free [.regs, .ecc, .free]) : z.Follows (Chip.checkLine c d sub b wr own) := by
  unfold Chip.checkLine; try with_reducible dsimp only
  repeat' first | (with_reducible assumption) | exact hm.sub (by decide) | (with_reducible apply Chip.checkBursts_follows) | (with_reducible apply Chip.draw_follows) | (with_reducible apply follows_ite) | split | exact rfl | exact Nat.le_refl _ | (with_reducible apply follows_upd hm) | (intro x; cases x <;> first | exact .inl (by decide) | exact .inr rfl)

theorem Chip.rfmBank_follows {z : Kept} {c : Chip} (d sub b : Nat) (hz : z.Follows c) (hm : z.Free [.regs, .ecc]) : z.Follows (Chip.rfmBank c d sub b) := by
  unfold Chip.rfmBank; try with_reducible dsimp only
  repeat' first | (with_reducible assumption) | exact hm.sub (by decide) | (with_reducible apply Chip.addReg_follows) | exact rfl | exact Nat.le_refl _ | (with_reducible apply follows_upd hm) | (intro x; cases x <;> first | exact .inl (by decide) | exact .inr rfl)

theorem Chip.activate_follows {z : Kept} {c : Chip} (d : Nat) (l : DramLoc) (hz : z.Follows c) (hm : z.Free [.regs, .ecc]) : z.Follows (Chip.activate c d l) := by
  unfold Chip.activate; try with_reducible dsimp only
  repeat' first | (with_reducible assumption) | (with_reducible apply Chip.rfmBank_follows) | (with_reducible apply follows_ite) | split | exact rfl | exact Nat.le_refl _ | (with_reducible apply follows_upd hm) | (intro x; cases x <;> first | exact .inl (by decide) | exact .inr rfl)

theorem Chip.access_follows {z : Kept} {c : Chip} (d a n : Nat) (wr : Bool) (own : Option Nat) (hz : z.Follows c) (hm : z.Free [.regs, .ecc, .free]) : z.Follows (Chip.access c d a n wr own) := by
  unfold Chip.access; try with_reducible dsimp only
  repeat' first | (with_reducible assumption) | exact hm.sub (by decide) | (with_reducible apply Chip.activate_follows) | (with_reducible apply Chip.checkLine_follows) | (with_reducible apply Chip.bursts_follows) | (with_reducible apply follows_eachDo) | (with_reducible apply follows_ite) | intro _ _ _

theorem Chip.ddrAccess_follows {z : Kept} {c : Chip} (who : Option Reader) (a n : Nat) (wr : Bool) (hz : z.Follows c) (hm : z.Free [.regs, .ecc, .free]) : z.Follows (Chip.ddrAccess c who a n wr) := by
  unfold Chip.ddrAccess; try with_reducible dsimp only
  repeat' first | (with_reducible assumption) | (with_reducible apply Chip.access_follows) | split

theorem Chip.hsPut_follows {z : Kept} {c : Chip} (kind die u dir : Nat) (b : Bytes) (hz : z.Follows c) (hm : z.Free [.ecc]) : z.Follows (Chip.hsPut c kind die u dir b) := by
  unfold Chip.hsPut; try with_reducible dsimp only
  repeat' first | (with_reducible assumption) | exact rfl | exact Nat.le_refl _ | (with_reducible apply follows_upd hm) | (intro x; cases x <;> first | exact .inl (by decide) | exact .inr rfl)

theorem Chip.hsPass_follows {z : Kept} {c : Chip} (st a : Nat) (toMem : Bool) (b : Bytes) (hz : z.Follows c) (hm : z.Free [.ecc]) : z.Follows (Chip.hsPass c st a toMem b) := by
  unfold Chip.hsPass; try with_reducible dsimp only
  repeat' first | (with_reducible assumption) | (with_reducible apply Chip.hsPut_follows) | (with_reducible apply follows_ite) | split

theorem Chip.busy_follows {z : Kept} {c : Chip} (st n : Nat) (hz : z.Follows c) (hm : z.Free [.regs]) : z.Follows (Chip.busy c st n) := by
  unfold Chip.busy; try with_reducible dsimp only
  repeat' first | (with_reducible assumption) | (with_reducible apply Chip.addReg48_follows) | (with_reducible apply follows_ite)

theorem Chip.stallAt_follows {z : Kept} {c : Chip} (st r n : Nat) (hz : z.Follows c) (hm : z.Free [.regs]) : z.Follows (Chip.stallAt c st r n) := by
  unfold Chip.stallAt; try with_reducible dsimp only
  repeat' first | (with_reducible assumption) | (with_reducible apply Chip.addReg48_follows)

theorem Chip.stall_follows {z : Kept} {c : Chip} (st r n : Nat) (hz : z.Follows c) (hm : z.Free [.regs]) : z.Follows (Chip.stall c st r n) := by
  unfold Chip.stall; try with_reducible dsimp only
  repeat' first | (with_reducible assumption) | (with_reducible apply Chip.stallAt_follows) | (with_reducible apply follows_ite)

theorem Chip.bank_follows {z : Kept} {c : Chip} (st : Nat) (hz : z.Follows c) (hm : z.Free [.regs, .free]) : z.Follows (Chip.bank c st) := by
  unfold Chip.bank; try with_reducible dsimp only
  repeat' first | (with_reducible assumption) | exact hm.sub (by decide) | (with_reducible apply Chip.stall_follows) | (with_reducible apply Chip.draw_follows) | (with_reducible apply follows_ite)

theorem Chip.markLive_follows {z : Kept} {c : Chip} (a n : Nat) (hz : z.Follows c) (hm : z.Free [.ecc]) : z.Follows (Chip.markLive c a n) := by
  unfold Chip.markLive; try with_reducible dsimp only
  repeat' first | (with_reducible assumption) | (with_reducible apply follows_ite) | split | exact rfl | exact Nat.le_refl _ | (with_reducible apply follows_upd hm) | (intro x; cases x <;> first | exact .inl (by decide) | exact .inr rfl)

theorem Chip.look_follows {z : Kept} {c : Chip} (a n : Nat) (hz : z.Follows c) (hm : z.Free [.free]) : z.Follows (Chip.look c a n).1 := by
  unfold Chip.look; try with_reducible dsimp only
  repeat' first | (with_reducible assumption) | split | exact rfl | exact Nat.le_refl _ | (with_reducible apply follows_upd hm) | (intro x; cases x <;> first | exact .inl (by decide) | exact .inr rfl)

theorem Chip.read_follows {z : Kept} {c : Chip} (who : Reader) (ups : Upsets) (a n : Nat) (hz : z.Follows c) (hm : z.Free [.regs, .ecc, .flt, .free]) : z.Follows (Chip.read c who ups a n).1 := by
  unfold Chip.read; try with_reducible dsimp only
  repeat' first | (with_reducible assumption) | exact hm.sub (by decide) | (with_reducible apply Chip.look_follows) | (with_reducible apply Chip.bank_follows) | (with_reducible apply Chip.hsPass_follows) | (with_reducible apply Chip.ddrAccess_follows) | (with_reducible apply Chip.upset_follows) | (with_reducible apply follows_eachDo) | (with_reducible apply follows_ite) | intro _ _ _

theorem Chip.write_follows {z : Kept} {c : Chip} (a : Nat) (b : Bytes) (pois : List Nat) (who : Reader) (ups : Upsets) (hz : z.Follows c) (hm : z.Free [.regs, .mem, .ecc, .flt, .free]) : z.Follows (Chip.write c a b pois who ups) := by
  unfold Chip.write; try with_reducible dsimp only
  repeat' first | (with_reducible assumption) | exact hm.sub (by decide) | (with_reducible apply Chip.markLive_follows) | (with_reducible apply Chip.bank_follows) | (with_reducible apply Chip.hsPass_follows) | (with_reducible apply Chip.ddrAccess_follows) | (with_reducible apply Chip.upset_follows) | (with_reducible apply Chip.setPois_follows) | (with_reducible apply Chip.poke_follows) | (with_reducible apply follows_eachDo) | (with_reducible apply follows_ite) | intro _ _ _

theorem Chip.setRing_follows {z : Kept} {c : Chip} (s : Nat) (v : Ring) (hz : z.Follows c) (hm : z.Free [.sns]) : z.Follows (Chip.setRing c s v) := by
  unfold Chip.setRing; try with_reducible dsimp only
  repeat' first | (with_reducible assumption) | exact rfl | exact Nat.le_refl _ | (with_reducible apply follows_upd hm) | (intro x; cases x <;> first | exact .inl (by decide) | exact .inr rfl)

theorem Chip.readTask_follows {z : Kept} {c : Chip} (who : Reader) (ups : Upsets) (a n : Nat) (hz : z.Follows c) (hm : z.Free [.regs, .ecc, .flt, .free]) : z.Follows (Chip.readTask c who ups a n).1 := by
  unfold Chip.readTask; try with_reducible dsimp only
  repeat' first | (with_reducible assumption) | (with_reducible apply Chip.read_follows) | (with_reducible apply follows_foldl) | intro _ _ _

theorem Chip.noteDrop_follows {z : Kept} {c : Chip} (s reason : Nat) (hz : z.Follows c) (hm : z.Free [.regs, .obs, .nv]) : z.Follows (Chip.noteDrop c s reason) := by
  unfold Chip.noteDrop; try with_reducible dsimp only
  repeat' first | (with_reducible assumption) | exact hm.sub (by decide) | (with_reducible apply Chip.shav_follows) | (with_reducible apply Chip.setFld_follows)

theorem Chip.dropImage_follows {z : Kept} {c : Chip} (s reason : Nat) (hz : z.Follows c) (hm : z.Free [.regs, .obs, .sns, .nv]) : z.Follows (Chip.dropImage c s reason) := by
  unfold Chip.dropImage; try with_reducible dsimp only
  repeat' first | (with_reducible assumption) | exact hm.sub (by decide) | (with_reducible apply Chip.noteDrop_follows) | (with_reducible apply Chip.setRing_follows) | split

theorem Chip.madeReady_follows {z : Kept} {c : Chip} (s e : Nat) (hz : z.Follows c) (hm : z.Free [.regs, .sns]) : z.Follows (Chip.madeReady c s e) := by
  unfold Chip.madeReady; try with_reducible dsimp only
  repeat' first | (with_reducible assumption) | exact hm.sub (by decide) | (with_reducible apply Chip.setRing_follows) | (with_reducible apply Chip.setFld_follows) | (with_reducible apply follows_ite)

theorem Chip.ingestFailed_follows {z : Kept} {c : Chip} (s e : Nat) (hz : z.Follows c) (hm : z.Free [.regs, .obs, .sns, .nv]) : z.Follows (Chip.ingestFailed c s e) := by
  unfold Chip.ingestFailed; try with_reducible dsimp only
  repeat' first | (with_reducible assumption) | exact hm.sub (by decide) | (with_reducible apply Chip.noteDrop_follows) | (with_reducible apply Chip.setRing_follows) | (with_reducible apply follows_ite)

theorem Chip.setQueue_follows {z : Kept} {c : Chip} (q : Nat) (v : Queue) (hz : z.Follows c) (hm : z.Free [.fab]) : z.Follows (Chip.setQueue c q v) := by
  unfold Chip.setQueue; try with_reducible dsimp only
  repeat' first | (with_reducible assumption) | exact rfl | exact Nat.le_refl _ | (with_reducible apply follows_upd hm) | (intro x; cases x <;> first | exact .inl (by decide) | exact .inr rfl)

theorem Chip.queueErr_follows {z : Kept} {c : Chip} (q slot st i cause : Nat) (hz : z.Follows c) (hm : z.Free [.regs, .flt]) : z.Follows (Chip.queueErr c q slot st i cause) := by
  unfold Chip.queueErr; try with_reducible dsimp only
  repeat' first | (with_reducible assumption) | exact hm.sub (by decide) | (with_reducible apply Chip.latchIf_follows) | (with_reducible apply Chip.raise_follows)

theorem Chip.setRun_follows {z : Kept} {c : Chip} (k : Nat) (r : Run) (hz : z.Follows c) (hm : z.Free [.fab]) : z.Follows (Chip.setRun c k r) := by
  unfold Chip.setRun; try with_reducible dsimp only
  repeat' first | (with_reducible assumption) | (with_reducible apply Chip.modStation_follows)

theorem Chip.poisonCount_follows {z : Kept} {c : Chip} (d p : Nat) (hz : z.Follows c) (hm : z.Free [.wrk, .flt]) : z.Follows (Chip.poisonCount c d p) := by
  unfold Chip.poisonCount; try with_reducible dsimp only
  repeat' first | (with_reducible assumption) | exact hm.sub (by decide) | (with_reducible apply Chip.modPart_follows) | (with_reducible apply Chip.escalate_follows) | (with_reducible apply follows_ite)

theorem Chip.consume_follows {z : Kept} {c : Chip} (st j code : Nat) (hz : z.Follows c) (hm : z.Free [.regs, .fab, .cmp, .lnk, .wrk, .flt, .obs, .nv]) : z.Follows (Chip.consume c st j code) := by
  unfold Chip.consume; try with_reducible dsimp only
  repeat' first | (with_reducible assumption) | exact hm.sub (by decide) | (with_reducible apply Chip.poisonCount_follows) | (with_reducible apply Chip.latchIf_follows) | (with_reducible apply Chip.endJob_follows) | (with_reducible apply Chip.setJob_follows) | (with_reducible apply Chip.raise_follows) | (with_reducible apply Chip.addReg_follows) | (with_reducible apply follows_ite)

theorem Chip.endPoisoned_follows {z : Kept} {c : Chip} (k : Nat) (r : Run) (s : Nat) (hz : z.Follows c) (hm : z.Free [.regs, .fab, .cmp, .lnk, .wrk, .flt, .obs, .nv]) : z.Follows (Chip.endPoisoned c k r s) := by
  unfold Chip.endPoisoned; try with_reducible dsimp only
  repeat' first | (with_reducible assumption) | exact hm.sub (by decide) | (with_reducible apply Chip.consume_follows) | (with_reducible apply Chip.setRun_follows)

theorem Chip.endEos_follows {z : Kept} {c : Chip} (k : Nat) (r : Run) (hz : z.Follows c) (hm : z.Free [.fab]) : z.Follows (Chip.endEos c k r) := by
  unfold Chip.endEos; try with_reducible dsimp only
  repeat' first | (with_reducible assumption) | (with_reducible apply Chip.setRun_follows)

theorem Chip.endNow_follows {z : Kept} {c : Chip} (k : Nat) (r : Run) (s : Nat) (hz : z.Follows c) (hm : z.Free [.regs, .fab]) : z.Follows (Chip.endNow c k r s) := by
  unfold Chip.endNow; try with_reducible dsimp only
  repeat' first | (with_reducible assumption) | exact hm.sub (by decide) | (with_reducible apply Chip.endReal_follows) | (with_reducible apply Chip.modStation_follows) | (with_reducible apply follows_ite)

theorem Chip.boundFault_follows {z : Kept} {c : Chip} (k : Nat) (r : Run) (region off rem : Nat) (hz : z.Follows c) (hm : z.Free [.regs, .fab, .cmp, .lnk, .wrk, .flt, .obs, .nv]) : z.Follows (Chip.boundFault c k r region off rem) := by
  unfold Chip.boundFault; try with_reducible dsimp only
  repeat' first | (with_reducible assumption) | exact hm.sub (by decide) | (with_reducible apply Chip.endNow_follows) | (with_reducible apply Chip.latchIf_follows) | (with_reducible apply Chip.endJob_follows) | (with_reducible apply Chip.raise_follows) | (with_reducible apply Chip.addReg_follows) | split | exact rfl | exact Nat.le_refl _ | (with_reducible apply follows_upd hm) | (intro x; cases x <;> first | exact .inl (by decide) | exact .inr rfl)

theorem Chip.setRecord_follows {z : Kept} {c : Chip} (t p v : Nat) (hz : z.Follows c) (hm : z.Free [.wrk]) : z.Follows (Chip.setRecord c t p v) := by
  unfold Chip.setRecord; try with_reducible dsimp only
  repeat' first | (with_reducible assumption) | (with_reducible apply follows_ite) | split | exact rfl | exact Nat.le_refl _ | (with_reducible apply follows_upd hm) | (intro x; cases x <;> first | exact .inl (by decide) | exact .inr rfl)

theorem Chip.payload_follows {z : Kept} {c : Chip} (t : InTile) (hz : z.Follows c) (hm : z.Free [.free]) : z.Follows (Chip.payload c t).1 := by
  unfold Chip.payload; try with_reducible dsimp only
  repeat' first | (with_reducible assumption) | (with_reducible apply Chip.look_follows)

theorem Chip.awake_follows {z : Kept} {c : Chip} (f : Chip → Chip) (hz : z.Follows c) (hf : ∀ k0, z.Follows k0 → z.Follows (f k0)) : z.Follows (Chip.awake c f) := by
  unfold Chip.awake; try with_reducible dsimp only
  repeat' first | (with_reducible assumption) | (with_reducible apply hf) | (with_reducible apply follows_ite)

theorem Chip.live_follows {z : Kept} {c : Chip} (f : Chip → Chip) (hz : z.Follows c) (hf : ∀ k0, z.Follows k0 → z.Follows (f k0)) : z.Follows (Chip.live c f) := by
  unfold Chip.live; try with_reducible dsimp only
  repeat' first | (with_reducible assumption) | (with_reducible apply hf) | (with_reducible apply follows_ite)

theorem Chip.work_follows {z : Kept} {c : Chip} (f : Chip → Chip) (hz : z.Follows c) (hf : ∀ k0, z.Follows k0 → z.Follows (f k0)) : z.Follows (Chip.work c f) := by
  unfold Chip.work; try with_reducible dsimp only
  repeat' first | (with_reducible assumption) | (with_reducible apply hf) | (with_reducible apply follows_ite)

theorem Chip.busyXd_follows {z : Kept} {c : Chip} (st p n : Nat) (hz : z.Follows c) (hm : z.Free [.regs]) : z.Follows (Chip.busyXd c st p n) := by
  unfold Chip.busyXd; try with_reducible dsimp only
  repeat' first | (with_reducible assumption) | (with_reducible apply Chip.busy_follows) | (with_reducible apply Chip.addReg48_follows)

theorem Chip.noteTraffic_follows {z : Kept} {c : Chip} (d n : Nat) (hz : z.Follows c) (hm : z.Free [.obs]) : z.Follows (Chip.noteTraffic c d n) := by
  unfold Chip.noteTraffic; try with_reducible dsimp only
  repeat' first | (with_reducible assumption) | (with_reducible apply follows_ite) | split | exact rfl | exact Nat.le_refl _ | (with_reducible apply follows_upd hm) | (intro x; cases x <;> first | exact .inl (by decide) | exact .inr rfl)

theorem Chip.writeRecord_follows {z : Kept} {c : Chip} (st : Nat) (hz : z.Follows c) (hm : z.Free [.regs, .obs]) : z.Follows (Chip.writeRecord c st) := by
  unfold Chip.writeRecord; try with_reducible dsimp only
  repeat' first | (with_reducible assumption) | exact hm.sub (by decide) | (with_reducible apply Chip.noteTraffic_follows) | (with_reducible apply Chip.addReg_follows) | (with_reducible apply follows_ite) | split | exact rfl | exact Nat.le_refl _ | (with_reducible apply follows_upd hm) | (intro x; cases x <;> first | exact .inl (by decide) | exact .inr rfl)

theorem Chip.snapshot_follows {z : Kept} {c : Chip} (st : Nat) (hz : z.Follows c) (hm : z.Free [.regs, .obs]) : z.Follows (Chip.snapshot c st) := by
  unfold Chip.snapshot; try with_reducible dsimp only
  repeat' first | (with_reducible assumption) | exact hm.sub (by decide) | (with_reducible apply Chip.writeRecord_follows) | (with_reducible apply Chip.setReg_follows) | (with_reducible apply follows_eachDo) | (with_reducible apply follows_ite) | intro _ _ _

theorem Chip.startCounters_follows {z : Kept} {c : Chip} (st desc ix p : Nat) (hz : z.Follows c) (hm : z.Free [.regs]) : z.Follows (Chip.startCounters c st desc ix p) := by
  unfold Chip.startCounters; try with_reducible dsimp only
  repeat' first | (with_reducible assumption) | (with_reducible apply Chip.setReg_follows)

theorem Chip.dumpTile_follows {z : Kept} {c : Chip} (d desc k : Nat) (tile : Bytes) (hz : z.Follows c) (hm : z.Free [.regs, .obs]) : z.Follows (Chip.dumpTile c d desc k tile) := by
  unfold Chip.dumpTile; try with_reducible dsimp only
  repeat' first | (with_reducible assumption) | exact hm.sub (by decide) | (with_reducible apply Chip.setReg_follows) | (with_reducible apply follows_ite) | split | exact rfl | exact Nat.le_refl _ | (with_reducible apply follows_upd hm) | (intro x; cases x <;> first | exact .inl (by decide) | exact .inr rfl)

theorem Chip.acquire_follows {z : Kept} {c : Chip} (st : Nat) (r : Run) (j q : Nat) (ups : Upsets) (hz : z.Follows c) (hm : z.Free [.regs, .ecc, .fab, .flt, .free]) : z.Follows (Chip.acquire c st r j q ups).1 := by
  unfold Chip.acquire; try with_reducible dsimp only
  repeat' first | (with_reducible assumption) | exact hm.sub (by decide) | (with_reducible apply Chip.setQueue_follows) | (with_reducible apply Chip.read_follows) | (with_reducible apply follows_ite)

theorem Chip.acquired_follows {z : Kept} {c : Chip} (k q slot : Nat) (r : Run) (a : Acq) (hz : z.Follows c) (hm : z.Free [.regs, .fab, .cmp, .lnk, .wrk, .flt, .obs, .nv]) : z.Follows (Chip.acquired c k q slot r a) := by
  unfold Chip.acquired; try with_reducible dsimp only
  repeat' first | (with_reducible assumption) | exact hm.sub (by decide) | (with_reducible apply Chip.endEos_follows) | (with_reducible apply Chip.endPoisoned_follows) | (with_reducible apply Chip.setRun_follows) | (with_reducible apply Chip.queueErr_follows) | split

theorem Chip.setLink_follows {z : Kept} {c : Chip} (d m : Nat) (v : Link) (hz : z.Follows c) (hm : z.Free [.lnk]) : z.Follows (Chip.setLink c d m v) := by
  unfold Chip.setLink; try with_reducible dsimp only
  repeat' first | (with_reducible assumption) | exact rfl | exact Nat.le_refl _ | (with_reducible apply follows_upd hm) | (intro x; cases x <;> first | exact .inl (by decide) | exact .inr rfl)

theorem Chip.sendFlit_follows {z : Kept} {c : Chip} (a b : Nat) (body : Bytes) (hz : z.Follows c) (hm : z.Free [.lnk]) : z.Follows (Chip.sendFlit c a b body) := by
  unfold Chip.sendFlit; try with_reducible dsimp only
  repeat' first | (with_reducible assumption) | (with_reducible apply Chip.setLink_follows)

theorem Chip.sendData_follows {z : Kept} {c : Chip} (h : FlitHdr) (b : Bytes) (pois : List Nat) (hz : z.Follows c) (hm : z.Free [.lnk]) : z.Follows (Chip.sendData c h b pois) := by
  unfold Chip.sendData; try with_reducible dsimp only
  repeat' first | (with_reducible assumption) | (with_reducible apply Chip.sendFlit_follows) | (with_reducible apply follows_eachDo) | intro _ _ _

theorem Chip.setContrib_follows {z : Kept} {c : Chip} (k : Nat) (v : Contrib) (hz : z.Follows c) (hm : z.Free [.lnk]) : z.Follows (Chip.setContrib c k v) := by
  unfold Chip.setContrib; try with_reducible dsimp only
  repeat' first | (with_reducible assumption) | exact rfl | exact Nat.le_refl _ | (with_reducible apply follows_upd hm) | (intro x; cases x <;> first | exact .inl (by decide) | exact .inr rfl)

theorem Chip.addPending_follows {z : Kept} {c : Chip} (d o : Nat) (up : Bool) (hz : z.Follows c) (hm : z.Free [.regs]) : z.Follows (Chip.addPending c d o up) := by
  unfold Chip.addPending; try with_reducible dsimp only
  repeat' first | (with_reducible assumption) | (with_reducible apply Chip.setFld_follows)

theorem Chip.openContrib_follows {z : Kept} {c : Chip} (src dst part job : Nat) (xd : Bool) (hz : z.Follows c) (hm : z.Free [.regs, .lnk]) : z.Follows (Chip.openContrib c src dst part job xd).2 := by
  unfold Chip.openContrib; try with_reducible dsimp only
  repeat' first | (with_reducible assumption) | exact hm.sub (by decide) | (with_reducible apply Chip.addPending_follows) | (with_reducible apply Chip.setContrib_follows) | (with_reducible apply Chip.addReg_follows) | exact rfl | exact Nat.le_refl _ | (with_reducible apply follows_upd hm) | (intro x; cases x <;> first | exact .inl (by decide) | exact .inr rfl)

theorem Chip.sendTrailer_follows {z : Kept} {c : Chip} (src dst part num : Nat) (hz : z.Follows c) (hm : z.Free [.lnk]) : z.Follows (Chip.sendTrailer c src dst part num) := by
  unfold Chip.sendTrailer; try with_reducible dsimp only
  repeat' first | (with_reducible assumption) | (with_reducible apply Chip.sendFlit_follows)

theorem Chip.rewriteHdr_follows {z : Kept} {c : Chip} (q i : Nat) (f : Nat → Nat) (hz : z.Follows c) (hm : z.Free [.regs, .mem, .ecc, .flt, .free]) : z.Follows (Chip.rewriteHdr c q i f) := by
  unfold Chip.rewriteHdr; try with_reducible dsimp only
  repeat' first | (with_reducible assumption) | (with_reducible apply Chip.write_follows)

theorem Chip.verify_follows {z : Kept} {c : Chip} (dst src num : Nat) (hz : z.Follows c) (hm : z.Free [.regs, .mem, .ecc, .fab, .lnk, .flt, .sns, .free]) : z.Follows (Chip.verify c dst src num) := by
  unfold Chip.verify; try with_reducible dsimp only
  repeat' first | (with_reducible assumption) | exact hm.sub (by decide) | (with_reducible apply Chip.rewriteHdr_follows) | (with_reducible apply Chip.addPending_follows) | (with_reducible apply Chip.setContrib_follows) | (with_reducible apply Chip.setQueue_follows) | (with_reducible apply Chip.madeReady_follows) | (with_reducible apply Chip.addReg_follows) | (with_reducible apply follows_eachDo) | (with_reducible apply follows_ite) | intro _ _ _

theorem Chip.xdLatch_follows {z : Kept} {c : Chip} (d o num part job m : Nat) (hz : z.Follows c) (hm : z.Free [.regs]) : z.Follows (Chip.xdLatch c d o num part job m) := by
  unfold Chip.xdLatch; try with_reducible dsimp only
  repeat' first | (with_reducible assumption) | (with_reducible apply Chip.latchIf_follows)

theorem Chip.contribFail_follows {z : Kept} {c : Chip} (dst src num i : Nat) (hz : z.Follows c) (hm : z.Free [.regs, .mem, .ecc, .fab, .cmp, .lnk, .wrk, .flt, .obs, .sns, .nv, .free]) : z.Follows (Chip.contribFail c dst src num i) := by
  unfold Chip.contribFail; try with_reducible dsimp only
  repeat' first | (with_reducible assumption) | exact hm.sub (by decide) | (with_reducible apply Chip.xdLatch_follows) | (with_reducible apply Chip.rewriteHdr_follows) | (with_reducible apply Chip.setContrib_follows) | (with_reducible apply Chip.setRecord_follows) | (with_reducible apply Chip.ingestFailed_follows) | (with_reducible apply Chip.endJob_follows) | (with_reducible apply Chip.raise_follows) | (with_reducible apply follows_eachDo) | (with_reducible apply follows_ite) | intro _ _ _

theorem Chip.shareOut_follows {z : Kept} {c : Chip} (d : Nat) (hz : z.Follows c) (hm : z.Free [.lnk]) : z.Follows (Chip.shareOut c d) := by
  unfold Chip.shareOut; try with_reducible dsimp only
  repeat' first | (with_reducible assumption) | (with_reducible apply Chip.setLink_follows) | (with_reducible apply follows_eachDo) | intro _ _ _

theorem Chip.setTask_follows {z : Kept} {c : Chip} (d k : Nat) (v : TaskSt) (hz : z.Follows c) (hm : z.Free [.wrk]) : z.Follows (Chip.setTask c d k v) := by
  unfold Chip.setTask; try with_reducible dsimp only
  repeat' first | (with_reducible assumption) | exact rfl | exact Nat.le_refl _ | (with_reducible apply follows_upd hm) | (intro x; cases x <;> first | exact .inl (by decide) | exact .inr rfl)

theorem Chip.updateRecord_follows {z : Kept} {c : Chip} (p : Nat) (hz : z.Follows c) (hm : z.Free [.lnk, .wrk]) : z.Follows (Chip.updateRecord c p) := by
  unfold Chip.updateRecord; try with_reducible dsimp only
  repeat' first | (with_reducible assumption) | exact hm.sub (by decide) | (with_reducible apply Chip.setRecord_follows) | (with_reducible apply follows_ite) | split | exact rfl | exact Nat.le_refl _ | (with_reducible apply follows_upd hm) | (intro x; cases x <;> first | exact .inl (by decide) | exact .inr rfl)

theorem Chip.sendTallies_follows {z : Kept} {c : Chip} (p d : Nat) (hz : z.Follows c) (hm : z.Free [.lnk]) : z.Follows (Chip.sendTallies c p d) := by
  unfold Chip.sendTallies; try with_reducible dsimp only
  repeat' first | (with_reducible assumption) | (with_reducible apply Chip.sendFlit_follows) | (with_reducible apply follows_eachDo) | (with_reducible apply follows_ite) | intro _ _ _ | split | exact rfl | exact Nat.le_refl _ | (with_reducible apply follows_upd hm) | (intro x; cases x <;> first | exact .inl (by decide) | exact .inr rfl)

theorem Chip.settle_follows {z : Kept} {c : Chip} (hz : z.Follows c) (hm : z.Free [.lnk, .wrk]) : z.Follows (Chip.settle c) := by
  unfold Chip.settle; try with_reducible dsimp only
  repeat' first | (with_reducible assumption) | exact hm.sub (by decide) | (with_reducible apply Chip.sendTallies_follows) | (with_reducible apply Chip.updateRecord_follows) | (with_reducible apply follows_eachDo) | (with_reducible apply follows_ite) | intro _ _ _

theorem Chip.pruneSlot_follows {z : Kept} {c : Chip} (q i : Nat) (hz : z.Follows c) (hm : z.Free [.lnk]) : z.Follows (Chip.pruneSlot c q i) := by
  unfold Chip.pruneSlot; try with_reducible dsimp only
  repeat' first | (with_reducible assumption) | exact rfl | exact Nat.le_refl _ | (with_reducible apply follows_upd hm) | (intro x; cases x <;> first | exact .inl (by decide) | exact .inr rfl)

theorem Chip.fillSlot_follows {z : Kept} {c : Chip} (q i hdr : Nat) (payload : Bytes) (bad : List Nat) (sentProv : Bool) (who : Reader) (ups : Upsets) (hz : z.Follows c) (hm : z.Free [.regs, .mem, .ecc, .fab, .lnk, .flt, .free]) : z.Follows (Chip.fillSlot c q i hdr payload bad sentProv who ups) := by
  unfold Chip.fillSlot; try with_reducible dsimp only
  repeat' first | (with_reducible assumption) | exact hm.sub (by decide) | (with_reducible apply Chip.pruneSlot_follows) | (with_reducible apply Chip.setQueue_follows) | (with_reducible apply Chip.write_follows)

theorem Chip.deliverTile_follows {z : Kept} {c : Chip} (q i hdr : Nat) (payload : Bytes) (ups : Upsets) (hz : z.Follows c) (hm : z.Free [.regs, .mem, .ecc, .fab, .lnk, .flt, .free]) : z.Follows (Chip.deliverTile c q i hdr payload ups) := by
  unfold Chip.deliverTile; try with_reducible dsimp only
  repeat' first | (with_reducible assumption) | exact hm.sub (by decide) | (with_reducible apply Chip.fillSlot_follows) | (with_reducible apply Chip.sendTrailer_follows) | (with_reducible apply Chip.openContrib_follows) | (with_reducible apply Chip.setContrib_follows) | (with_reducible apply Chip.sendData_follows)

theorem Chip.waiting_follows {z : Kept} {c : Chip} (k b : Nat) (v : Bool) (hz : z.Follows c) (hm : z.Free [.regs]) : z.Follows (Chip.waiting c k b v) := by
  unfold Chip.waiting; try with_reducible dsimp only
  repeat' first | (with_reducible assumption) | (with_reducible apply Chip.setFld_follows) | (with_reducible apply follows_ite)

theorem Chip.collCredits_follows {z : Kept} {c : Chip} (k q : Nat) (r : Run) (hz : z.Follows c) (hm : z.Free [.lnk]) : z.Follows (Chip.collCredits c k q r) := by
  unfold Chip.collCredits; try with_reducible dsimp only
  repeat' first | (with_reducible assumption) | (with_reducible apply Chip.sendFlit_follows) | (with_reducible apply follows_eachDo) | intro _ _ _

theorem Chip.slotClaim_follows {z : Kept} {c : Chip} (q : Nat) (hz : z.Follows c) (hm : z.Free [.regs, .fab, .lnk]) : z.Follows (Chip.slotClaim c q) := by
  unfold Chip.slotClaim; try with_reducible dsimp only
  repeat' first | (with_reducible assumption) | exact hm.sub (by decide) | (with_reducible apply Chip.collCredits_follows) | (with_reducible apply Chip.waiting_follows) | (with_reducible apply Chip.setRun_follows) | (with_reducible apply Chip.setQueue_follows) | (with_reducible apply Chip.stall_follows) | (with_reducible apply follows_ite) | split

theorem Chip.slotFull_follows {z : Kept} {c : Chip} (q : Nat) (ups : Upsets) (hz : z.Follows c) (hm : z.Free [.regs, .mem, .ecc, .fab, .cmp, .lnk, .wrk, .flt, .obs, .nv, .free]) : z.Follows (Chip.slotFull c q ups) := by
  unfold Chip.slotFull; try with_reducible dsimp only
  repeat' first | (with_reducible assumption) | exact hm.sub (by decide) | (with_reducible apply Chip.deliverTile_follows) | (with_reducible apply Chip.fillSlot_follows) | (with_reducible apply Chip.setContrib_follows) | (with_reducible apply Chip.dumpTile_follows) | (with_reducible apply Chip.boundFault_follows) | (with_reducible apply Chip.setRun_follows) | (with_reducible apply Chip.stall_follows) | (with_reducible apply Chip.busy_follows) | (with_reducible apply follows_eachDo) | (with_reducible apply follows_ite) | intro _ _ _ | split

theorem Chip.slotAcquire_follows {z : Kept} {c : Chip} (q : Nat) (ups : Upsets) (hz : z.Follows c) (hm : z.Free [.regs, .ecc, .fab, .cmp, .lnk, .wrk, .flt, .obs, .nv, .free]) : z.Follows (Chip.slotAcquire c q ups) := by
  unfold Chip.slotAcquire; try with_reducible dsimp only
  repeat' first | (with_reducible assumption) | exact hm.sub (by decide) | (with_reducible apply Chip.waiting_follows) | (with_reducible apply Chip.acquired_follows) | (with_reducible apply Chip.acquire_follows) | (with_reducible apply Chip.boundFault_follows) | (with_reducible apply Chip.setQueue_follows) | (with_reducible apply Chip.stall_follows) | (with_reducible apply follows_ite) | split

theorem Chip.freeSlot_follows {z : Kept} {c : Chip} (t : InTile) (hz : z.Follows c) (hm : z.Free [.fab, .lnk]) : z.Follows (Chip.freeSlot c t) := by
  unfold Chip.freeSlot; try with_reducible dsimp only
  repeat' first | (with_reducible assumption) | exact hm.sub (by decide) | (with_reducible apply Chip.pruneSlot_follows) | (with_reducible apply Chip.setQueue_follows) | (with_reducible apply follows_ite)

theorem Chip.slotRelease_follows {z : Kept} {c : Chip} (q : Nat) (hz : z.Follows c) (hm : z.Free [.fab, .lnk]) : z.Follows (Chip.slotRelease c q) := by
  unfold Chip.slotRelease; try with_reducible dsimp only
  repeat' first | (with_reducible assumption) | exact hm.sub (by decide) | (with_reducible apply Chip.freeSlot_follows) | (with_reducible apply Chip.setRun_follows) | (with_reducible apply follows_ite) | split

theorem Chip.creditFlitSend_follows {z : Kept} {c : Chip} (q : Nat) (hz : z.Follows c) (hm : z.Free [.fab, .lnk]) : z.Follows (Chip.creditFlitSend c q) := by
  unfold Chip.creditFlitSend; try with_reducible dsimp only
  repeat' first | (with_reducible assumption) | exact hm.sub (by decide) | (with_reducible apply Chip.sendFlit_follows) | (with_reducible apply Chip.setQueue_follows) | (with_reducible apply follows_ite)

theorem Chip.creditFlitArrive_follows {z : Kept} {c : Chip} (q n : Nat) (hz : z.Follows c) (hm : z.Free [.regs, .fab, .cmp, .lnk, .wrk, .flt, .obs, .nv]) : z.Follows (Chip.creditFlitArrive c q n) := by
  unfold Chip.creditFlitArrive; try with_reducible dsimp only
  repeat' first | (with_reducible assumption) | exact hm.sub (by decide) | (with_reducible apply Chip.queueErr_follows) | (with_reducible apply Chip.setQueue_follows) | (with_reducible apply Chip.endJob_follows) | (with_reducible apply follows_ite)

theorem Chip.addElem_follows {z : Kept} {c : Chip} (s : Store) (who : Reader) (ups : Upsets) (hz : z.Follows c) (hm : z.Free [.regs, .mem, .ecc, .flt, .free]) : z.Follows (Chip.addElem c s who ups) := by
  unfold Chip.addElem; try with_reducible dsimp only
  repeat' first | (with_reducible assumption) | exact hm.sub (by decide) | (with_reducible apply Chip.write_follows) | (with_reducible apply Chip.setPois_follows) | (with_reducible apply follows_ite)

theorem Chip.plainStoreAccept_follows {z : Kept} {c : Chip} (k : Nat) (ups : Upsets) (hz : z.Follows c) (hm : z.Free [.regs, .mem, .ecc, .fab, .cmp, .lnk, .wrk, .flt, .obs, .nv, .free]) : z.Follows (Chip.plainStoreAccept c k ups) := by
  unfold Chip.plainStoreAccept; try with_reducible dsimp only
  repeat' first | (with_reducible assumption) | exact hm.sub (by decide) | (with_reducible apply Chip.addElem_follows) | (with_reducible apply Chip.endNow_follows) | (with_reducible apply Chip.setRun_follows) | (with_reducible apply Chip.queueErr_follows) | (with_reducible apply Chip.write_follows) | (with_reducible apply Chip.endJob_follows) | (with_reducible apply follows_ite) | split

end Sys2Proof.Machine
end

