-- ==== Sys2Proof/Laws/FollowsIo.lean ====
section
/-! SUPPORT. Laws/FollowsIo.lean: every operation of links, sensors, messages, faults, Ethernet and clocks keeps what `Chip.Follows` says. -/
namespace Sys2Proof.Machine

theorem Chip.sendCtl_follows {z : Kept} {c : Chip} (d m ty : Nat) (hz : z.Follows c) (hm : z.Free [.lnk]) : z.Follows (Chip.sendCtl c d m ty) := by
  unfold Chip.sendCtl; try with_reducible dsimp only
  repeat' first | (with_reducible assumption) | (with_reducible apply Chip.setLink_follows)

theorem Chip.flitReceive_follows {z : Kept} {c : Chip} (d m : Nat) (f : Bytes) (hz : z.Follows c) (hm : z.Free [.ecc, .lnk]) : z.Follows (Chip.flitReceive c d m f) := by
  unfold Chip.flitReceive; try with_reducible dsimp only
  repeat' first | (with_reducible assumption) | exact hm.sub (by decide) | (with_reducible apply Chip.sendCtl_follows) | (with_reducible apply Chip.sendFlit_follows) | (with_reducible apply Chip.setLink_follows) | (with_reducible apply Chip.hsPut_follows) | (with_reducible apply follows_ite)

theorem Chip.ackTimer_follows {z : Kept} {c : Chip} (d m : Nat) (hz : z.Follows c) (hm : z.Free [.lnk]) : z.Follows (Chip.ackTimer c d m) := by
  unfold Chip.ackTimer; try with_reducible dsimp only
  repeat' first | (with_reducible assumption) | (with_reducible apply Chip.sendCtl_follows) | (with_reducible apply follows_ite)

theorem Chip.nakReceive_follows {z : Kept} {c : Chip} (d m s : Nat) (hz : z.Follows c) (hm : z.Free [.regs, .lnk]) : z.Follows (Chip.nakReceive c d m s) := by
  unfold Chip.nakReceive; try with_reducible dsimp only
  repeat' first | (with_reducible assumption) | exact hm.sub (by decide) | (with_reducible apply Chip.setLink_follows) | (with_reducible apply Chip.addReg_follows) | (with_reducible apply follows_ite)

theorem Chip.moduleRetrain_follows {z : Kept} {c : Chip} (d m : Nat) (hz : z.Follows c) (hm : z.Free [.regs, .lnk, .flt]) : z.Follows (Chip.moduleRetrain c d m) := by
  unfold Chip.moduleRetrain; try with_reducible dsimp only
  repeat' first | (with_reducible assumption) | exact hm.sub (by decide) | (with_reducible apply Chip.xdLatch_follows) | (with_reducible apply Chip.setLink_follows) | (with_reducible apply Chip.raise_follows) | (with_reducible apply follows_ite)

theorem Chip.noteLanes_follows {z : Kept} {c : Chip} (d m : Nat) (down : Bool) (hz : z.Follows c) (hm : z.Free [.regs]) : z.Follows (Chip.noteLanes c d m down) := by
  unfold Chip.noteLanes; try with_reducible dsimp only
  repeat' first | (with_reducible assumption) | (with_reducible apply Chip.setFld_follows)

theorem Chip.replaceLanes_follows {z : Kept} {c : Chip} (d m rx : Nat) (lanes : List Nat) (hz : z.Follows c) (hm : z.Free [.ecc]) : z.Follows (Chip.replaceLanes c d m rx lanes) := by
  unfold Chip.replaceLanes; try with_reducible dsimp only
  repeat' first | (with_reducible assumption) | (with_reducible apply Chip.addRepair_follows) | (with_reducible apply follows_eachDo) | intro _ _ _

theorem Chip.endDown_follows {z : Kept} {c : Chip} (d m : Nat) (hz : z.Follows c) (hm : z.Free [.lnk]) : z.Follows (Chip.endDown c d m) := by
  unfold Chip.endDown; try with_reducible dsimp only
  repeat' first | (with_reducible assumption) | (with_reducible apply Chip.setLink_follows) | split

theorem Chip.moduleDown_follows {z : Kept} {c : Chip} (d m : Nat) (hz : z.Follows c) (hm : z.Free [.regs, .lnk, .flt]) : z.Follows (Chip.moduleDown c d m) := by
  unfold Chip.moduleDown; try with_reducible dsimp only
  repeat' first | (with_reducible assumption) | exact hm.sub (by decide) | (with_reducible apply Chip.endDown_follows) | (with_reducible apply Chip.xdLatch_follows) | (with_reducible apply Chip.raise_follows) | (with_reducible apply follows_ite)

theorem Chip.moduleUp_follows {z : Kept} {c : Chip} (d m : Nat) (hz : z.Follows c) (hm : z.Free [.lnk]) : z.Follows (Chip.moduleUp c d m) := by
  unfold Chip.moduleUp; try with_reducible dsimp only
  repeat' first | (with_reducible assumption) | (with_reducible apply Chip.setLink_follows)

theorem Chip.retrainDone_follows {z : Kept} {c : Chip} (d m : Nat) (badTx badRx : List Nat) (hz : z.Follows c) (hm : z.Free [.regs, .ecc, .lnk, .flt]) : z.Follows (Chip.retrainDone c d m badTx badRx) := by
  unfold Chip.retrainDone; try with_reducible dsimp only
  repeat' first | (with_reducible assumption) | exact hm.sub (by decide) | (with_reducible apply Chip.moduleUp_follows) | (with_reducible apply Chip.moduleDown_follows) | (with_reducible apply Chip.endDown_follows) | (with_reducible apply Chip.replaceLanes_follows) | (with_reducible apply Chip.noteLanes_follows) | (with_reducible apply Chip.xdLatch_follows) | (with_reducible apply Chip.raise_follows) | (with_reducible apply follows_ite)

theorem Chip.trailerArrive_follows {z : Kept} {c : Chip} (d src num : Nat) (t : Trailer) (hz : z.Follows c) (hm : z.Free [.regs, .mem, .ecc, .fab, .cmp, .lnk, .wrk, .flt, .obs, .sns, .nv, .free]) : z.Follows (Chip.trailerArrive c d src num t) := by
  unfold Chip.trailerArrive; try with_reducible dsimp only
  repeat' first | (with_reducible assumption) | exact hm.sub (by decide) | (with_reducible apply Chip.updateRecord_follows) | (with_reducible apply Chip.contribFail_follows) | (with_reducible apply Chip.verify_follows) | (with_reducible apply follows_ite)

theorem Chip.tallyArrive_follows {z : Kept} {c : Chip} (d src p n : Nat) (hz : z.Follows c) (hm : z.Free [.regs, .mem, .ecc, .fab, .cmp, .lnk, .wrk, .flt, .obs, .sns, .nv, .free]) : z.Follows (Chip.tallyArrive c d src p n) := by
  unfold Chip.tallyArrive; try with_reducible dsimp only
  repeat' first | (with_reducible assumption) | exact hm.sub (by decide) | (with_reducible apply Chip.updateRecord_follows) | (with_reducible apply Chip.contribFail_follows) | (with_reducible apply Chip.xdLatch_follows) | (with_reducible apply Chip.setRecord_follows) | (with_reducible apply Chip.raise_follows) | (with_reducible apply follows_eachDo) | (with_reducible apply follows_ite) | intro _ _ _ | split | exact rfl | exact Nat.le_refl _ | (with_reducible apply follows_upd hm) | (intro x; cases x <;> first | exact .inl (by decide) | exact .inr rfl)

theorem Chip.modSp_follows {z : Kept} {c : Chip} (p : Nat) (f : SPortSt → SPortSt) (hz : z.Follows c) (hm : z.Free [.sns]) : z.Follows (Chip.modSp c p f) := by
  unfold Chip.modSp; try with_reducible dsimp only
  repeat' first | (with_reducible assumption) | exact rfl | exact Nat.le_refl _ | (with_reducible apply follows_upd hm) | (intro x; cases x <;> first | exact .inl (by decide) | exact .inr rfl)

theorem Chip.spLatch_follows {z : Kept} {c : Chip} (p strm reason ma find : Nat) (hz : z.Follows c) (hm : z.Free [.regs]) : z.Follows (Chip.spLatch c p strm reason ma find) := by
  unfold Chip.spLatch; try with_reducible dsimp only
  repeat' first | (with_reducible assumption) | (with_reducible apply Chip.latchIf_follows)

theorem Chip.beginImage_follows {z : Kept} {c : Chip} (s : Nat) (mk : Nat → Nat → Img) (tag : Option Nat) (hz : z.Follows c) (hm : z.Free [.regs, .obs, .sns, .nv]) : z.Follows (Chip.beginImage c s mk tag) := by
  unfold Chip.beginImage; try with_reducible dsimp only
  repeat' first | (with_reducible assumption) | exact hm.sub (by decide) | (with_reducible apply Chip.noteDrop_follows) | (with_reducible apply Chip.setRing_follows) | (with_reducible apply follows_ite) | split

theorem Chip.dropSi_follows {z : Kept} {c : Chip} (s reason : Nat) (hz : z.Follows c) (hm : z.Free [.regs, .lnk, .obs, .sns, .nv]) : z.Follows (Chip.dropSi c s reason) := by
  unfold Chip.dropSi; try with_reducible dsimp only
  repeat' first | (with_reducible assumption) | exact hm.sub (by decide) | (with_reducible apply Chip.sendTrailer_follows) | (with_reducible apply Chip.setContrib_follows) | (with_reducible apply Chip.dropImage_follows) | (with_reducible apply follows_ite) | split

theorem Chip.csiCount_follows {z : Kept} {c : Chip} (p : Nat) (corr disc : Bool) (hz : z.Follows c) (hm : z.Free [.regs]) : z.Follows (Chip.csiCount c p corr disc) := by
  unfold Chip.csiCount; try with_reducible dsimp only
  repeat' first | (with_reducible assumption) | (with_reducible apply Chip.setFld_follows) | (with_reducible apply follows_ite)

theorem Chip.packet_follows {z : Kept} {c : Chip} (p retx : Nat) (hdr : HdrEcc) (hz : z.Follows c) (hm : z.Free [.regs]) : z.Follows (Chip.packet c p retx hdr) := by
  unfold Chip.packet; try with_reducible dsimp only
  repeat' first | (with_reducible assumption) | (with_reducible apply Chip.csiCount_follows) | (with_reducible apply Chip.addReg_follows) | (with_reducible apply follows_ite)

theorem Chip.frameStart_follows {z : Kept} {c : Chip} (p vc frameNo retx : Nat) (hdr : HdrEcc) (cap : Capture) (hz : z.Follows c) (hm : z.Free [.regs, .lnk, .obs, .sns, .nv]) : z.Follows (Chip.frameStart c p vc frameNo retx hdr cap) := by
  unfold Chip.frameStart; try with_reducible dsimp only
  repeat' first | (with_reducible assumption) | exact hm.sub (by decide) | (with_reducible apply Chip.dropSi_follows) | (with_reducible apply Chip.beginImage_follows) | (with_reducible apply Chip.setReg64_follows) | (with_reducible apply follows_ite) | split

theorem Chip.packetIn_follows {z : Kept} {c : Chip} (p s : Nat) (data : Bytes) (hdr : HdrEcc) (crcOk : Bool) (keep : Img → Option Img) (hz : z.Follows c) (hm : z.Free [.regs, .lnk, .obs, .sns, .nv]) : z.Follows (Chip.packetIn c p s data hdr crcOk keep) := by
  unfold Chip.packetIn; try with_reducible dsimp only
  repeat' first | (with_reducible assumption) | exact hm.sub (by decide) | (with_reducible apply Chip.csiCount_follows) | (with_reducible apply Chip.dropSi_follows) | (with_reducible apply Chip.setRing_follows) | (with_reducible apply follows_ite) | split

theorem Chip.embedded_follows {z : Kept} {c : Chip} (p vc : Nat) (data : Bytes) (hdr : HdrEcc) (crcOk : Bool) (hz : z.Follows c) (hm : z.Free [.regs, .lnk, .obs, .sns, .nv]) : z.Follows (Chip.embedded c p vc data hdr crcOk) := by
  unfold Chip.embedded; try with_reducible dsimp only
  repeat' first | (with_reducible assumption) | (with_reducible apply Chip.packetIn_follows) | (with_reducible apply follows_ite) | split

theorem Chip.csiLine_follows {z : Kept} {c : Chip} (p vc dt : Nat) (data : Bytes) (hdr : HdrEcc) (crcOk : Bool) (hz : z.Follows c) (hm : z.Free [.regs, .lnk, .obs, .sns, .nv]) : z.Follows (Chip.csiLine c p vc dt data hdr crcOk) := by
  unfold Chip.csiLine; try with_reducible dsimp only
  repeat' first | (with_reducible assumption) | exact hm.sub (by decide) | (with_reducible apply Chip.embedded_follows) | (with_reducible apply Chip.packetIn_follows) | (with_reducible apply Chip.csiCount_follows) | (with_reducible apply Chip.dropSi_follows) | (with_reducible apply follows_ite) | split

theorem Chip.frameEnd_follows {z : Kept} {c : Chip} (p vc : Nat) (hdr : HdrEcc) (hz : z.Follows c) (hm : z.Free [.regs, .lnk, .obs, .sns, .nv]) : z.Follows (Chip.frameEnd c p vc hdr) := by
  unfold Chip.frameEnd; try with_reducible dsimp only
  repeat' first | (with_reducible assumption) | exact hm.sub (by decide) | (with_reducible apply Chip.dropSi_follows) | (with_reducible apply Chip.setRing_follows) | (with_reducible apply follows_ite) | split

theorem Chip.ingestBytes_follows {z : Kept} {c : Chip} (g : RingCfg) (s e off num part : Nat) (b : Bytes) (more : Bool) (hz : z.Follows c) (hm : z.Free [.regs, .mem, .ecc, .lnk, .flt, .free]) : z.Follows (Chip.ingestBytes c g s e off num part b more) := by
  unfold Chip.ingestBytes; try with_reducible dsimp only
  repeat' first | (with_reducible assumption) | exact hm.sub (by decide) | (with_reducible apply Chip.setContrib_follows) | (with_reducible apply Chip.sendData_follows) | (with_reducible apply Chip.write_follows) | (with_reducible apply Chip.hsPut_follows) | (with_reducible apply follows_ite)

theorem Chip.takeStaged_follows {z : Kept} {c : Chip} (g : RingCfg) (s : Nat) (i : Img) (hz : z.Follows c) (hm : z.Free [.regs, .mem, .ecc, .lnk, .flt, .free]) : z.Follows (Chip.takeStaged c g s i).1 := by
  unfold Chip.takeStaged; try with_reducible dsimp only
  repeat' first | (with_reducible assumption) | exact hm.sub (by decide) | (with_reducible apply Chip.ingestBytes_follows) | (with_reducible apply Chip.openContrib_follows) | (with_reducible apply Chip.addReg_follows) | (with_reducible apply follows_eachDo) | intro _ _ _ | split

theorem Chip.ingestWrite_follows {z : Kept} {c : Chip} (p vc : Nat) (hz : z.Follows c) (hm : z.Free [.regs, .mem, .ecc, .lnk, .flt, .sns, .free]) : z.Follows (Chip.ingestWrite c p vc) := by
  unfold Chip.ingestWrite; try with_reducible dsimp only
  repeat' first | (with_reducible assumption) | exact hm.sub (by decide) | (with_reducible apply Chip.takeStaged_follows) | (with_reducible apply Chip.setRing_follows) | (with_reducible apply follows_ite) | split

theorem Chip.entryWritten_follows {z : Kept} {c : Chip} (p vc : Nat) (hz : z.Follows c) (hm : z.Free [.regs, .mem, .ecc, .lnk, .flt, .sns, .free]) : z.Follows (Chip.entryWritten c p vc) := by
  unfold Chip.entryWritten; try with_reducible dsimp only
  repeat' first | (with_reducible assumption) | exact hm.sub (by decide) | (with_reducible apply Chip.ingestBytes_follows) | (with_reducible apply Chip.sendTrailer_follows) | (with_reducible apply Chip.setRing_follows) | (with_reducible apply follows_ite) | split

theorem Chip.dropPort_follows {z : Kept} {c : Chip} (p : Nat) (hz : z.Follows c) (hm : z.Free [.regs, .lnk, .obs, .sns, .nv]) : z.Follows (Chip.dropPort c p) := by
  unfold Chip.dropPort; try with_reducible dsimp only
  repeat' first | (with_reducible assumption) | (with_reducible apply Chip.dropSi_follows) | (with_reducible apply follows_eachDo) | intro _ _ _

theorem Chip.sensorLost_follows {z : Kept} {c : Chip} (p : Nat) (hz : z.Follows c) (hm : z.Free [.regs, .lnk, .flt, .obs, .sns, .nv]) : z.Follows (Chip.sensorLost c p) := by
  unfold Chip.sensorLost; try with_reducible dsimp only
  repeat' first | (with_reducible assumption) | exact hm.sub (by decide) | (with_reducible apply Chip.dropPort_follows) | (with_reducible apply Chip.spLatch_follows) | (with_reducible apply Chip.raise_follows) | (with_reducible apply Chip.setFld_follows) | (with_reducible apply follows_ite)

theorem Chip.syncLaunch_follows {z : Kept} {c : Chip} (p off : Nat) (hz : z.Follows c) (hm : z.Free [.tb, .sns]) : z.Follows (Chip.syncLaunch c p off) := by
  unfold Chip.syncLaunch; try with_reducible dsimp only
  repeat' first | (with_reducible assumption) | exact hm.sub (by decide) | (with_reducible apply Chip.modSp_follows) | (with_reducible apply Chip.advanceTo_follows) | (with_reducible apply follows_ite)

theorem Chip.pocSample_follows {z : Kept} {c : Chip} (p ma : Nat) (hz : z.Follows c) (hm : z.Free [.regs, .lnk, .flt, .obs, .sns, .nv]) : z.Follows (Chip.pocSample c p ma) := by
  unfold Chip.pocSample; try with_reducible dsimp only
  repeat' first | (with_reducible assumption) | exact hm.sub (by decide) | (with_reducible apply Chip.dropPort_follows) | (with_reducible apply Chip.spLatch_follows) | (with_reducible apply Chip.modSp_follows) | (with_reducible apply Chip.raise_follows) | (with_reducible apply Chip.setFld_follows) | (with_reducible apply follows_ite)

theorem Chip.pocRetry_follows {z : Kept} {c : Chip} (p : Nat) (hz : z.Follows c) (hm : z.Free [.tb, .regs]) : z.Follows (Chip.pocRetry c p) := by
  unfold Chip.pocRetry; try with_reducible dsimp only
  repeat' first | (with_reducible assumption) | exact hm.sub (by decide) | (with_reducible apply Chip.advanceTo_follows) | (with_reducible apply Chip.setFld_follows) | (with_reducible apply follows_ite)

theorem Chip.eyeCheck_follows {z : Kept} {c : Chip} (p : Nat) (low : Bool) (hz : z.Follows c) (hm : z.Free [.flt]) : z.Follows (Chip.eyeCheck c p low) := by
  unfold Chip.eyeCheck; try with_reducible dsimp only
  repeat' first | (with_reducible assumption) | (with_reducible apply Chip.rise_follows) | (with_reducible apply follows_ite)

theorem Chip.siRun_follows {z : Kept} {c : Chip} (p : Nat) (hz : z.Follows c) (hm : z.Free [.regs, .sns]) : z.Follows (Chip.siRun c p) := by
  unfold Chip.siRun; try with_reducible dsimp only
  repeat' first | (with_reducible assumption) | exact hm.sub (by decide) | (with_reducible apply Chip.modSp_follows) | (with_reducible apply Chip.setFld_follows) | (with_reducible apply Chip.addReg_follows) | (with_reducible apply follows_ite)

theorem Chip.sendCsi_follows {z : Kept} {c : Chip} (p : Nat) (so : Option SoFrame) (l : List Bytes) (hz : z.Follows c) (hm : z.Free [.ecc, .sns]) : z.Follows (Chip.sendCsi c p so l) := by
  unfold Chip.sendCsi; try with_reducible dsimp only
  repeat' first | (with_reducible assumption) | exact hm.sub (by decide) | (with_reducible apply Chip.modSp_follows) | (with_reducible apply Chip.hsPut_follows)

theorem Chip.soEnd_follows {z : Kept} {c : Chip} (p : Nat) (s : SoFrame) (hz : z.Follows c) (hm : z.Free [.regs, .ecc, .sns]) : z.Follows (Chip.soEnd c p s) := by
  unfold Chip.soEnd; try with_reducible dsimp only
  repeat' first | (with_reducible assumption) | exact hm.sub (by decide) | (with_reducible apply Chip.sendCsi_follows) | (with_reducible apply Chip.modSp_follows) | (with_reducible apply Chip.addReg_follows) | (with_reducible apply follows_ite)

theorem Chip.soCut_follows {z : Kept} {c : Chip} (p : Nat) (s : SoFrame) (hz : z.Follows c) (hm : z.Free [.regs, .ecc, .sns]) : z.Follows (Chip.soCut c p s) := by
  unfold Chip.soCut; try with_reducible dsimp only
  repeat' first | (with_reducible assumption) | exact hm.sub (by decide) | (with_reducible apply Chip.soEnd_follows) | (with_reducible apply Chip.sendCsi_follows)

theorem Chip.soStart_follows {z : Kept} {c : Chip} (p : Nat) (hz : z.Follows c) (hm : z.Free [.tb, .regs, .ecc, .fab, .sns]) : z.Follows (Chip.soStart c p) := by
  unfold Chip.soStart; try with_reducible dsimp only
  repeat' first | (with_reducible assumption) | exact hm.sub (by decide) | (with_reducible apply Chip.soCut_follows) | (with_reducible apply Chip.sendCsi_follows) | (with_reducible apply Chip.modSp_follows) | (with_reducible apply Chip.setRun_follows) | (with_reducible apply Chip.advanceTo_follows) | (with_reducible apply Chip.addReg_follows) | (with_reducible apply follows_ite) | split

theorem Chip.soFrame_follows {z : Kept} {c : Chip} (p : Nat) (hz : z.Follows c) (hm : z.Free [.regs, .ecc, .fab, .sns, .free]) : z.Follows (Chip.soFrame c p) := by
  unfold Chip.soFrame; try with_reducible dsimp only
  repeat' first | (with_reducible assumption) | exact hm.sub (by decide) | (with_reducible apply Chip.soCut_follows) | (with_reducible apply Chip.soEnd_follows) | (with_reducible apply Chip.sendCsi_follows) | (with_reducible apply Chip.payload_follows) | (with_reducible apply Chip.setRun_follows) | (with_reducible apply Chip.busy_follows) | (with_reducible apply follows_ite) | split

theorem Chip.modEp_follows {z : Kept} {c : Chip} (n : Nat) (f : EPortSt → EPortSt) (hz : z.Follows c) (hm : z.Free [.net]) : z.Follows (Chip.modEp c n f) := by
  unfold Chip.modEp; try with_reducible dsimp only
  repeat' first | (with_reducible assumption) | exact rfl | exact Nat.le_refl _ | (with_reducible apply follows_upd hm) | (intro x; cases x <;> first | exact .inl (by decide) | exact .inr rfl)

theorem Chip.queueFrame_follows {z : Kept} {c : Chip} (port q : Nat) (f : Frame) (hz : z.Follows c) (hm : z.Free [.net]) : z.Follows (Chip.queueFrame c port q f) := by
  unfold Chip.queueFrame; try with_reducible dsimp only
  repeat' first | (with_reducible assumption) | (with_reducible apply Chip.modEp_follows)

theorem Chip.sign_follows {z : Kept} {c : Chip} (hz : z.Follows c) (hm : z.Free [.free]) : z.Follows (Chip.sign c).2 := by
  unfold Chip.sign; try with_reducible dsimp only
  repeat' first | (with_reducible assumption) | exact rfl | exact Nat.le_refl _ | (with_reducible apply follows_upd hm) | (intro x; cases x <;> first | exact .inl (by decide) | exact .inr rfl)

theorem Chip.signedMsg_follows {z : Kept} {c : Chip} (h : MsgHdr) (body : Bytes) (hz : z.Follows c) (hm : z.Free [.free]) : z.Follows (Chip.signedMsg c h body).2 := by
  unfold Chip.signedMsg; try with_reducible dsimp only
  repeat' first | (with_reducible assumption) | (with_reducible apply Chip.sign_follows)

theorem Chip.modSess_follows {z : Kept} {c : Chip} (i : Nat) (f : Sess → Sess) (hz : z.Follows c) (hm : z.Free [.ses]) : z.Follows (Chip.modSess c i f) := by
  unfold Chip.modSess; try with_reducible dsimp only
  repeat' first | (with_reducible assumption) | exact rfl | exact Nat.le_refl _ | (with_reducible apply follows_upd hm) | (intro x; cases x <;> first | exact .inl (by decide) | exact .inr rfl)

theorem Chip.nextSeq_follows {z : Kept} {c : Chip} (i : Nat) (hz : z.Follows c) (hm : z.Free [.ses]) : z.Follows (Chip.nextSeq c i).2 := by
  unfold Chip.nextSeq; try with_reducible dsimp only
  repeat' first | (with_reducible assumption) | (with_reducible apply Chip.modSess_follows)

theorem Chip.tell_follows {z : Kept} {c : Chip} (s q ty flags status ref : Nat) (body : Bytes) (hz : z.Follows c) (hm : z.Free [.net, .ses]) : z.Follows (Chip.tell c s q ty flags status ref body).2 := by
  unfold Chip.tell; try with_reducible dsimp only
  repeat' first | (with_reducible assumption) | exact hm.sub (by decide) | (with_reducible apply Chip.nextSeq_follows) | (with_reducible apply Chip.queueFrame_follows)

theorem Chip.sendReport_follows {z : Kept} {c : Chip} (b : Bytes) (hz : z.Follows c) (hm : z.Free [.net]) : z.Follows (Chip.sendReport c b) := by
  unfold Chip.sendReport; try with_reducible dsimp only
  repeat' first | (with_reducible assumption) | (with_reducible apply Chip.queueFrame_follows)

theorem Chip.spLock_follows {z : Kept} {c : Chip} (src b : Nat) (hz : z.Follows c) (hm : z.Free [.regs, .sns, .net]) : z.Follows (Chip.spLock c src b) := by
  unfold Chip.spLock; try with_reducible dsimp only
  repeat' first | (with_reducible assumption) | exact hm.sub (by decide) | (with_reducible apply Chip.setReg64_follows) | (with_reducible apply Chip.setReg_follows) | (with_reducible apply follows_ite) | split | exact rfl | exact Nat.le_refl _ | (with_reducible apply follows_upd hm) | (intro x; cases x <;> first | exact .inl (by decide) | exact .inr rfl)

theorem Chip.spLockBit_follows {z : Kept} {c : Chip} (b : Nat) (hz : z.Follows c) (hm : z.Free [.regs, .sns, .net]) : z.Follows (Chip.spLockBit c b) := by
  unfold Chip.spLockBit; try with_reducible dsimp only
  repeat' first | (with_reducible assumption) | (with_reducible apply Chip.spLock_follows) | (with_reducible apply follows_ite)

theorem Chip.reportMsg_follows {z : Kept} {c : Chip} (record : Bytes) (hz : z.Follows c) (hm : z.Free [.ses, .free]) : z.Follows (Chip.reportMsg c record).2 := by
  unfold Chip.reportMsg; try with_reducible dsimp only
  repeat' first | (with_reducible assumption) | exact hm.sub (by decide) | (with_reducible apply Chip.nextSeq_follows) | (with_reducible apply Chip.signedMsg_follows)

theorem Chip.reportCopy_follows {z : Kept} {c : Chip} (s : Nat) (record : Bytes) (hz : z.Follows c) (hm : z.Free [.net, .ses, .free]) : z.Follows (Chip.reportCopy c s record) := by
  unfold Chip.reportCopy; try with_reducible dsimp only
  repeat' first | (with_reducible assumption) | exact hm.sub (by decide) | (with_reducible apply Chip.nextSeq_follows) | (with_reducible apply Chip.signedMsg_follows) | (with_reducible apply Chip.queueFrame_follows)

theorem Chip.reportB_follows {z : Kept} {c : Chip} (x : Seq) (hz : z.Follows c) (hm : z.Free [.flt, .net, .ses, .nv, .free]) : z.Follows (Chip.reportB c x) := by
  unfold Chip.reportB; try with_reducible dsimp only
  repeat' first | (with_reducible assumption) | exact hm.sub (by decide) | (with_reducible apply Chip.reportCopy_follows) | (with_reducible apply Chip.reportMsg_follows) | (with_reducible apply Chip.sendReport_follows) | (with_reducible apply Chip.draw_follows) | (with_reducible apply follows_eachDo) | (with_reducible apply follows_ite) | intro _ _ _ | split | exact rfl | exact Nat.le_refl _ | (with_reducible apply follows_upd hm) | (intro x; cases x <;> first | exact .inl (by decide) | exact .inr rfl)

theorem Chip.silence_follows {z : Kept} {c : Chip} (hz : z.Follows c) (hm : z.Free [.regs, .net]) : z.Follows (Chip.silence c) := by
  unfold Chip.silence; try with_reducible dsimp only
  repeat' first | (with_reducible assumption) | exact hm.sub (by decide) | (with_reducible apply Chip.setFld_follows) | exact rfl | exact Nat.le_refl _ | (with_reducible apply follows_upd hm) | (intro x; cases x <;> first | exact .inl (by decide) | exact .inr rfl)

theorem Chip.safeState_follows {z : Kept} {c : Chip} (r : Rise) (t : Nat) (hz : z.Follows c) (hm : z.Free [.regs, .flt, .obs, .net, .nv]) : z.Follows (Chip.safeState c r t) := by
  unfold Chip.safeState; try with_reducible dsimp only
  repeat' first | (with_reducible assumption) | exact hm.sub (by decide) | (with_reducible apply Chip.silence_follows) | (with_reducible apply Chip.shav_follows) | (with_reducible apply Chip.setReg_follows) | (with_reducible apply follows_ite) | split | exact rfl | exact Nat.le_refl _ | (with_reducible apply follows_upd hm) | (intro x; cases x <;> first | exact .inl (by decide) | exact .inr rfl)

theorem Chip.latchEvent_follows {z : Kept} {c : Chip} (r : Rise) (t : Nat) (hz : z.Follows c) (hm : z.Free [.regs, .flt, .obs, .sns, .net, .ses, .nv, .free]) : z.Follows (Chip.latchEvent c r t) := by
  unfold Chip.latchEvent; try with_reducible dsimp only
  repeat' first | (with_reducible assumption) | exact hm.sub (by decide) | (with_reducible apply Chip.safeState_follows) | (with_reducible apply Chip.reportB_follows) | (with_reducible apply Chip.spLockBit_follows) | (with_reducible apply Chip.shav_follows) | (with_reducible apply Chip.setFld_follows) | (with_reducible apply Chip.setReg64_follows) | (with_reducible apply Chip.setReg_follows) | (with_reducible apply follows_ite) | split

theorem Chip.errorLatch_follows {z : Kept} {c : Chip} (b ph : Nat) (hz : z.Follows c) (hm : z.Free [.regs, .flt, .obs, .sns, .net, .ses, .nv, .free]) : z.Follows (Chip.errorLatch c b ph) := by
  unfold Chip.errorLatch; try with_reducible dsimp only
  repeat' first | (with_reducible assumption) | (with_reducible apply Chip.latchEvent_follows) | split | exact rfl | exact Nat.le_refl _ | (with_reducible apply follows_upd hm) | (intro x; cases x <;> first | exact .inl (by decide) | exact .inr rfl)

theorem Chip.fcEscalate_follows {z : Kept} {c : Chip} (b cause : Nat) (who : Src) (hz : z.Follows c) (hm : z.Free [.regs, .flt, .obs, .sns, .net, .ses, .nv, .free]) : z.Follows (Chip.fcEscalate c b cause who) := by
  unfold Chip.fcEscalate; try with_reducible dsimp only
  repeat' first | (with_reducible assumption) | (with_reducible apply Chip.latchEvent_follows) | (with_reducible apply follows_ite)

theorem Chip.dropLost_follows {z : Kept} {c : Chip} (b : Nat) (hz : z.Follows c) (hm : z.Free [.flt]) : z.Follows (Chip.dropLost c b) := by
  unfold Chip.dropLost; try with_reducible dsimp only
  repeat' first | (with_reducible assumption) | exact rfl | exact Nat.le_refl _ | (with_reducible apply follows_upd hm) | (intro x; cases x <;> first | exact .inl (by decide) | exact .inr rfl)

theorem Chip.clearBit_follows {z : Kept} {c : Chip} (b : Nat) (hz : z.Follows c) (hm : z.Free [.regs, .flt]) : z.Follows (Chip.clearBit c b) := by
  unfold Chip.clearBit; try with_reducible dsimp only
  repeat' first | (with_reducible assumption) | exact hm.sub (by decide) | (with_reducible apply Chip.dropLost_follows) | (with_reducible apply Chip.setFld_follows) | (with_reducible apply Chip.setReg64_follows) | (with_reducible apply follows_ite)

theorem Chip.fswClear_follows {z : Kept} {c : Chip} (mask : Nat) (who : Src) (hz : z.Follows c) (hm : z.Free [.regs, .flt]) : z.Follows (Chip.fswClear c mask who) := by
  unfold Chip.fswClear; try with_reducible dsimp only
  repeat' first | (with_reducible assumption) | (with_reducible apply Chip.clearBit_follows) | (with_reducible apply follows_eachDo) | (with_reducible apply follows_ite) | intro _ _ _

theorem Chip.eraseSector_follows {z : Kept} {c : Chip} (k : Nat) (hz : z.Follows c) (hm : z.Free [.nv]) : z.Follows (c.eraseSector k) :=
  follows_nv hm hz _ (by decide) rfl (fun x => tabWf_flashErase x _ _) rfl

theorem Chip.eraseAhead_follows {z : Kept} {c : Chip} (hz : z.Follows c) (hm : z.Free [.nv]) : z.Follows (Chip.eraseAhead c) := by
  unfold Chip.eraseAhead; try with_reducible dsimp only
  repeat' first | (with_reducible assumption) | (with_reducible apply Chip.eraseSector_follows) | (with_reducible apply follows_eachDo) | (with_reducible apply follows_ite) | intro _ _ _

theorem Chip.putRecord_follows {z : Kept} {c : Chip} (s : Option Nat) (r : Bytes) (hz : z.Follows c) (hm : z.Free [.nv]) : z.Follows (c.putRecord s r) := by
  cases s with
  | none => exact hz
  | some i => exact follows_nv hm hz { c.nv with fl0 := flashWrite c.nv.fl0 (0xE50000 + 256 * i) r, acked := tabSet false c.nv.acked i false } (by decide) rfl (fun x => tabWf_flashWrite x _ _) rfl

theorem Chip.mirrorTail_follows {z : Kept} {c : Chip} (hz : z.Follows c) (hm : z.Free [.regs, .nv]) : z.Follows (Chip.mirrorTail c) := by
  unfold Chip.mirrorTail; try with_reducible dsimp only
  repeat' first | (with_reducible assumption) | (with_reducible apply Chip.mirror_follows) | (with_reducible apply follows_eachDo) | intro _ _ _

theorem Chip.drawSteps_follows {z : Kept} {c : Chip} (hz : z.Follows c) (hm : z.Free [.free]) : z.Follows (Chip.drawSteps c).2 := by
  unfold Chip.drawSteps; try with_reducible dsimp only
  repeat' first | (with_reducible assumption) | (with_reducible apply Chip.draw_follows)

theorem Chip.countRecord_follows {z : Kept} {c : Chip} (hz : z.Follows c) (hm : z.Free [.nv]) : z.Follows (Chip.countRecord c) := by
  unfold Chip.countRecord; try with_reducible dsimp only
  repeat' first | (with_reducible assumption) | exact rfl | exact Nat.le_refl _ | (with_reducible apply follows_upd hm) | (intro x; cases x <;> first | exact .inl (by decide) | exact .inr rfl)

theorem Chip.setSeq_follows {z : Kept} {c : Chip} (x : Seq) (hz : z.Follows c) (hm : z.Free [.flt]) : z.Follows (Chip.setSeq c x) := by
  unfold Chip.setSeq; try with_reducible dsimp only
  repeat' first | (with_reducible assumption) | exact rfl | exact Nat.le_refl _ | (with_reducible apply follows_upd hm) | (intro x; cases x <;> first | exact .inl (by decide) | exact .inr rfl)

theorem Chip.storeRecord_follows {z : Kept} {c : Chip} (x : Seq) (slot : Option Nat) (r : Bytes) (hz : z.Follows c) (hm : z.Free [.regs, .flt, .net, .ses, .nv, .free]) : z.Follows (Chip.storeRecord c x slot r) := by
  unfold Chip.storeRecord; try with_reducible dsimp only
  repeat' first | (with_reducible assumption) | exact hm.sub (by decide) | (with_reducible apply Chip.setSeq_follows) | (with_reducible apply Chip.putRecord_follows) | (with_reducible apply Chip.reportMsg_follows) | (with_reducible apply Chip.sendReport_follows) | (with_reducible apply Chip.orReg_follows) | (with_reducible apply follows_ite)

theorem Chip.recordWritten_follows {z : Kept} {c : Chip} (hz : z.Follows c) (hm : z.Free [.regs, .flt, .obs, .net, .ses, .nv, .free]) : z.Follows (Chip.recordWritten c) := by
  unfold Chip.recordWritten; try with_reducible dsimp only
  repeat' first | (with_reducible assumption) | exact hm.sub (by decide) | (with_reducible apply Chip.storeRecord_follows) | (with_reducible apply Chip.countRecord_follows) | (with_reducible apply Chip.drawSteps_follows) | (with_reducible apply Chip.mirrorTail_follows) | (with_reducible apply Chip.shav_follows) | (with_reducible apply Chip.orReg_follows) | (with_reducible apply follows_ite) | split

theorem Chip.resend_follows {z : Kept} {c : Chip} (hz : z.Follows c) (hm : z.Free [.flt, .net]) : z.Follows (Chip.resend c) := by
  unfold Chip.resend; try with_reducible dsimp only
  repeat' first | (with_reducible assumption) | exact hm.sub (by decide) | (with_reducible apply Chip.sendReport_follows) | (with_reducible apply follows_ite) | split | exact rfl | exact Nat.le_refl _ | (with_reducible apply follows_upd hm) | (intro x; cases x <;> first | exact .inl (by decide) | exact .inr rfl)

theorem Chip.readback_follows {z : Kept} {c : Chip} (n p : Bool) (hz : z.Follows c) (hm : z.Free [.flt]) : z.Follows (Chip.readback c n p) := by
  unfold Chip.readback; try with_reducible dsimp only
  repeat' first | (with_reducible assumption) | (with_reducible apply Chip.rise_follows) | (with_reducible apply follows_ite) | split | exact rfl | exact Nat.le_refl _ | (with_reducible apply follows_upd hm) | (intro x; cases x <;> first | exact .inl (by decide) | exact .inr rfl)

theorem Chip.modUnit_follows {z : Kept} {c : Chip} (u : Nat) (f : Lock → Lock) (hz : z.Follows c) (hm : z.Free [.flt]) : z.Follows (Chip.modUnit c u f) := by
  unfold Chip.modUnit; try with_reducible dsimp only
  repeat' first | (with_reducible assumption) | exact rfl | exact Nat.le_refl _ | (with_reducible apply follows_upd hm) | (intro x; cases x <;> first | exact .inl (by decide) | exact .inr rfl)

theorem Chip.lsMismatch_follows {z : Kept} {c : Chip} (u : Nat) (hz : z.Follows c) (hm : z.Free [.flt]) : z.Follows (Chip.lsMismatch c u) := by
  unfold Chip.lsMismatch; try with_reducible dsimp only
  repeat' first | (with_reducible assumption) | (with_reducible apply Chip.modUnit_follows) | (with_reducible apply Chip.rise_follows) | (with_reducible apply follows_ite)

theorem Chip.lsVerdict_follows {z : Kept} {c : Chip} (u : Nat) (v : LsVerdict) (hz : z.Follows c) (hm : z.Free [.regs, .obs, .nv]) : z.Follows (Chip.lsVerdict c u v) := by
  unfold Chip.lsVerdict; try with_reducible dsimp only
  repeat' first | (with_reducible assumption) | exact hm.sub (by decide) | (with_reducible apply Chip.shav_follows) | (with_reducible apply Chip.setFld_follows) | (with_reducible apply follows_ite) | split | exact rfl | exact Nat.le_refl _ | (with_reducible apply follows_upd hm) | (intro x; cases x <;> first | exact .inl (by decide) | exact .inr rfl)

theorem Chip.agreement_follows {z : Kept} {c : Chip} (u a b : Nat) (hz : z.Follows c) (hm : z.Free [.regs, .flt]) : z.Follows (Chip.agreement c u a b) := by
  unfold Chip.agreement; try with_reducible dsimp only
  repeat' first | (with_reducible assumption) | exact hm.sub (by decide) | (with_reducible apply Chip.modUnit_follows) | (with_reducible apply Chip.setFld_follows) | (with_reducible apply follows_ite)

theorem Chip.debugHalt_follows {z : Kept} {c : Chip} (u : Nat) (hz : z.Follows c) (hm : z.Free [.flt]) : z.Follows (Chip.debugHalt c u) := by
  unfold Chip.debugHalt; try with_reducible dsimp only
  repeat' first | (with_reducible assumption) | (with_reducible apply Chip.modUnit_follows) | (with_reducible apply follows_ite)

theorem Chip.sspFall_follows {z : Kept} {c : Chip} (hz : z.Follows c) (hm : z.Free [.regs, .flt]) : z.Follows (Chip.sspFall c) := by
  unfold Chip.sspFall; try with_reducible dsimp only
  repeat' first | (with_reducible assumption) | exact hm.sub (by decide) | (with_reducible apply Chip.setFld_follows) | exact rfl | exact Nat.le_refl _ | (with_reducible apply follows_upd hm) | (intro x; cases x <;> first | exact .inl (by decide) | exact .inr rfl)

theorem Chip.sspChallenge_follows {z : Kept} {c : Chip} (m : Bytes) (hz : z.Follows c) (hm : z.Free [.regs, .flt]) : z.Follows (Chip.sspChallenge c m) := by
  unfold Chip.sspChallenge; try with_reducible dsimp only
  repeat' first | (with_reducible assumption) | exact hm.sub (by decide) | (with_reducible apply Chip.setFld_follows) | (with_reducible apply Chip.setReg_follows) | (with_reducible apply follows_ite) | split | exact rfl | exact Nat.le_refl _ | (with_reducible apply follows_upd hm) | (intro x; cases x <;> first | exact .inl (by decide) | exact .inr rfl)

theorem Chip.wdReady_follows {z : Kept} {c : Chip} (hz : z.Follows c) (hm : z.Free [.tb, .regs, .flt]) : z.Follows (Chip.wdReady c) := by
  unfold Chip.wdReady; try with_reducible dsimp only
  repeat' first | (with_reducible assumption) | exact hm.sub (by decide) | (with_reducible apply Chip.advanceTo_follows) | (with_reducible apply Chip.setFld_follows) | (with_reducible apply follows_ite) | split | exact rfl | exact Nat.le_refl _ | (with_reducible apply follows_upd hm) | (intro x; cases x <;> first | exact .inl (by decide) | exact .inr rfl)

theorem Chip.epLatch_follows {z : Kept} {c : Chip} (n lid reason find part : Nat) (hz : z.Follows c) (hm : z.Free [.regs]) : z.Follows (Chip.epLatch c n lid reason find part) := by
  unfold Chip.epLatch; try with_reducible dsimp only
  repeat' first | (with_reducible assumption) | (with_reducible apply Chip.latchIf_follows)

theorem Chip.lidarDrop_follows {z : Kept} {c : Chip} (s win reason : Nat) (hz : z.Follows c) (hm : z.Free [.regs, .lnk, .obs, .sns, .nv]) : z.Follows (Chip.lidarDrop c s win reason) := by
  unfold Chip.lidarDrop; try with_reducible dsimp only
  repeat' first | (with_reducible assumption) | exact hm.sub (by decide) | (with_reducible apply Chip.dropSi_follows) | (with_reducible apply Chip.setRing_follows)

theorem Chip.takeLidar_follows {z : Kept} {c : Chip} (g : RingCfg) (s : Nat) (i : Img) (hz : z.Follows c) (hm : z.Free [.regs, .mem, .ecc, .lnk, .flt, .free]) : z.Follows (Chip.takeLidar c g s i).1 := by
  unfold Chip.takeLidar; try with_reducible dsimp only
  repeat' first | (with_reducible assumption) | exact hm.sub (by decide) | (with_reducible apply Chip.ingestBytes_follows) | (with_reducible apply Chip.openContrib_follows) | (with_reducible apply follows_ite) | split

theorem Chip.lidarEnd_follows {z : Kept} {c : Chip} (l : Nat) (hz : z.Follows c) (hm : z.Free [.tb, .regs, .mem, .ecc, .lnk, .flt, .sns, .free]) : z.Follows (Chip.lidarEnd c l) := by
  unfold Chip.lidarEnd; try with_reducible dsimp only
  repeat' first | (with_reducible assumption) | exact hm.sub (by decide) | (with_reducible apply Chip.takeLidar_follows) | (with_reducible apply Chip.ingestBytes_follows) | (with_reducible apply Chip.sendTrailer_follows) | (with_reducible apply Chip.setRing_follows) | (with_reducible apply Chip.advanceTo_follows) | split

theorem Chip.lidarJoin_follows {z : Kept} {c : Chip} (n l w ts bound : Nat) (stretch : Bool) (body : Bytes) (hz : z.Follows c) (hm : z.Free [.regs, .mem, .ecc, .lnk, .flt, .obs, .sns, .nv, .free]) : z.Follows (Chip.lidarJoin c n l w ts bound stretch body) := by
  unfold Chip.lidarJoin; try with_reducible dsimp only
  repeat' first | (with_reducible assumption) | exact hm.sub (by decide) | (with_reducible apply Chip.takeLidar_follows) | (with_reducible apply Chip.lidarDrop_follows) | (with_reducible apply Chip.beginImage_follows) | (with_reducible apply Chip.setRing_follows) | (with_reducible apply Chip.addReg_follows) | (with_reducible apply follows_ite) | split

theorem Chip.lidarPacket_follows {z : Kept} {c : Chip} (n l ts bound : Nat) (stretch : Bool) (body : Bytes) (hz : z.Follows c) (hm : z.Free [.tb, .regs, .mem, .ecc, .lnk, .flt, .obs, .sns, .nv, .free]) : z.Follows (Chip.lidarPacket c n l ts bound stretch body) := by
  unfold Chip.lidarPacket; try with_reducible dsimp only
  repeat' first | (with_reducible assumption) | exact hm.sub (by decide) | (with_reducible apply Chip.lidarJoin_follows) | (with_reducible apply Chip.lidarEnd_follows) | (with_reducible apply Chip.addReg_follows) | (with_reducible apply follows_ite) | split

theorem Chip.lidarLoss_follows {z : Kept} {c : Chip} (n : Nat) (u : Option Udp) (ts : Nat) (hz : z.Follows c) (hm : z.Free [.sns]) : z.Follows (Chip.lidarLoss c n u ts) := by
  unfold Chip.lidarLoss; try with_reducible dsimp only
  repeat' first | (with_reducible assumption) | (with_reducible apply Chip.setRing_follows) | split

theorem Chip.forward_follows {z : Kept} {c : Chip} (n : Nat) (b : Bytes) (hz : z.Follows c) (hm : z.Free [.regs, .net]) : z.Follows (Chip.forward c n b) := by
  unfold Chip.forward; try with_reducible dsimp only
  repeat' first | (with_reducible assumption) | exact hm.sub (by decide) | (with_reducible apply Chip.queueFrame_follows) | (with_reducible apply Chip.addReg_follows) | (with_reducible apply follows_eachDo) | (with_reducible apply follows_ite) | intro _ _ _

theorem Chip.ptpSend_follows {z : Kept} {c : Chip} (n ty len : Nat) (data : Bytes) (hz : z.Follows c) (hm : z.Free [.net]) : z.Follows (Chip.ptpSend c n ty len data) := by
  unfold Chip.ptpSend; try with_reducible dsimp only
  repeat' first | (with_reducible assumption) | (with_reducible apply Chip.queueFrame_follows) | (with_reducible apply Chip.modEp_follows)

theorem Chip.ptpReceive_follows {z : Kept} {c : Chip} (n : Nat) (b : Bytes) (hz : z.Follows c) (hm : z.Free [.net]) : z.Follows (Chip.ptpReceive c n b) := by
  unfold Chip.ptpReceive; try with_reducible dsimp only
  repeat' first | (with_reducible assumption) | (with_reducible apply Chip.ptpSend_follows) | (with_reducible apply follows_ite) | split | exact rfl | exact Nat.le_refl _ | (with_reducible apply follows_upd hm) | (intro x; cases x <;> first | exact .inl (by decide) | exact .inr rfl)

theorem Chip.mkaSend_follows {z : Kept} {c : Chip} (n : Nat) (hz : z.Follows c) (hm : z.Free [.net]) : z.Follows (Chip.mkaSend c n) := by
  unfold Chip.mkaSend; try with_reducible dsimp only
  repeat' first | (with_reducible assumption) | (with_reducible apply Chip.queueFrame_follows) | (with_reducible apply follows_ite)

theorem Chip.mkaReceive_follows {z : Kept} {c : Chip} (n : Nat) (hz : z.Follows c) (hm : z.Free [.regs, .net]) : z.Follows (Chip.mkaReceive c n) := by
  unfold Chip.mkaReceive; try with_reducible dsimp only
  repeat' first | (with_reducible assumption) | exact hm.sub (by decide) | (with_reducible apply Chip.modEp_follows) | (with_reducible apply Chip.setFld_follows) | (with_reducible apply follows_ite)

theorem Chip.ethTake_follows {z : Kept} {c : Chip} (n : Nat) (f : EthFrame) (cap : Capture) (hz : z.Follows c) (hm : z.Free [.tb, .regs, .mem, .ecc, .lnk, .flt, .obs, .sns, .net, .nv, .free]) : z.Follows (Chip.ethTake c n f cap) := by
  unfold Chip.ethTake; try with_reducible dsimp only
  repeat' first | (with_reducible assumption) | exact hm.sub (by decide) | (with_reducible apply Chip.mkaReceive_follows) | (with_reducible apply Chip.ptpReceive_follows) | (with_reducible apply Chip.forward_follows) | (with_reducible apply Chip.lidarLoss_follows) | (with_reducible apply Chip.lidarPacket_follows) | (with_reducible apply Chip.hsPut_follows) | (with_reducible apply Chip.addReg_follows) | (with_reducible apply follows_ite) | split

theorem Chip.ethReceive_follows {z : Kept} {c : Chip} (n : Nat) (f : EthFrame) (cap : Capture) (hz : z.Follows c) (hm : z.Free [.tb, .regs, .mem, .ecc, .lnk, .flt, .obs, .sns, .net, .nv, .free]) : z.Follows (Chip.ethReceive c n f cap) := by
  unfold Chip.ethReceive; try with_reducible dsimp only
  repeat' first | (with_reducible assumption) | exact hm.sub (by decide) | (with_reducible apply Chip.ethTake_follows) | (with_reducible apply Chip.lidarLoss_follows) | (with_reducible apply Chip.modEp_follows) | (with_reducible apply Chip.addReg_follows) | (with_reducible apply follows_ite)

theorem Chip.startFrame_follows {z : Kept} {c : Chip} (n : Nat) (f : Frame) (hz : z.Follows c) (hm : z.Free [.regs, .ecc, .net]) : z.Follows (Chip.startFrame c n f) := by
  unfold Chip.startFrame; try with_reducible dsimp only
  repeat' first | (with_reducible assumption) | exact hm.sub (by decide) | (with_reducible apply Chip.modEp_follows) | (with_reducible apply Chip.hsPut_follows) | (with_reducible apply Chip.addReg_follows)

theorem Chip.launchHead_follows {z : Kept} {c : Chip} (n : Nat) (f : Frame) (hz : z.Follows c) (hm : z.Free [.regs, .ecc, .flt, .net]) : z.Follows (Chip.launchHead c n f) := by
  unfold Chip.launchHead; try with_reducible dsimp only
  repeat' first | (with_reducible assumption) | exact hm.sub (by decide) | (with_reducible apply Chip.startFrame_follows) | (with_reducible apply Chip.epLatch_follows) | (with_reducible apply Chip.modEp_follows) | (with_reducible apply Chip.raise_follows) | (with_reducible apply Chip.addReg_follows) | (with_reducible apply follows_ite)

theorem Chip.wireFree_follows {z : Kept} {c : Chip} (n : Nat) (hz : z.Follows c) (hm : z.Free [.tb]) : z.Follows (Chip.wireFree c n) := by
  unfold Chip.wireFree; try with_reducible dsimp only
  repeat' first | (with_reducible assumption) | (with_reducible apply Chip.advanceTo_follows) | (with_reducible apply follows_ite)

theorem Chip.tqStart_follows {z : Kept} {c : Chip} (n : Nat) (hz : z.Follows c) (hm : z.Free [.tb, .regs, .ecc, .flt, .net]) : z.Follows (Chip.tqStart c n) := by
  unfold Chip.tqStart; try with_reducible dsimp only
  repeat' first | (with_reducible assumption) | exact hm.sub (by decide) | (with_reducible apply Chip.wireFree_follows) | (with_reducible apply Chip.launchHead_follows) | (with_reducible apply Chip.startFrame_follows) | (with_reducible apply Chip.modEp_follows) | (with_reducible apply follows_ite) | split

theorem Chip.tq1Launch_follows {z : Kept} {c : Chip} (n : Nat) (hz : z.Follows c) (hm : z.Free [.tb, .regs, .ecc, .flt, .net]) : z.Follows (Chip.tq1Launch c n) := by
  unfold Chip.tq1Launch; try with_reducible dsimp only
  repeat' first | (with_reducible assumption) | exact hm.sub (by decide) | (with_reducible apply Chip.wireFree_follows) | (with_reducible apply Chip.launchHead_follows) | (with_reducible apply Chip.advanceTo_follows) | (with_reducible apply follows_ite) | split

theorem Chip.rekey_follows {z : Kept} {c : Chip} (n : Nat) (hz : z.Follows c) (hm : z.Free [.net]) : z.Follows (Chip.rekey c n) := by
  unfold Chip.rekey; try with_reducible dsimp only
  repeat' first | (with_reducible assumption) | (with_reducible apply Chip.mkaSend_follows) | (with_reducible apply Chip.modEp_follows) | (with_reducible apply follows_ite)

theorem Chip.sqiRead_follows {z : Kept} {c : Chip} (n v : Nat) (hz : z.Follows c) (hm : z.Free [.regs, .flt, .net]) : z.Follows (Chip.sqiRead c n v) := by
  unfold Chip.sqiRead; try with_reducible dsimp only
  repeat' first | (with_reducible assumption) | exact hm.sub (by decide) | (with_reducible apply Chip.epLatch_follows) | (with_reducible apply Chip.modEp_follows) | (with_reducible apply Chip.raise_follows) | (with_reducible apply Chip.setFld_follows) | (with_reducible apply follows_ite)

theorem Chip.linkDrop_follows {z : Kept} {c : Chip} (n : Nat) (hz : z.Follows c) (hm : z.Free [.regs, .lnk, .flt, .obs, .sns, .nv]) : z.Follows (Chip.linkDrop c n) := by
  unfold Chip.linkDrop; try with_reducible dsimp only
  repeat' first | (with_reducible assumption) | exact hm.sub (by decide) | (with_reducible apply Chip.lidarDrop_follows) | (with_reducible apply Chip.epLatch_follows) | (with_reducible apply Chip.raise_follows) | (with_reducible apply Chip.setFld_follows) | (with_reducible apply follows_eachDo) | (with_reducible apply follows_ite) | intro _ _ _ | split

theorem Chip.portUp_follows {z : Kept} {c : Chip} (n : Nat) (hz : z.Follows c) (hm : z.Free [.regs, .net]) : z.Follows (Chip.portUp c n) := by
  unfold Chip.portUp; try with_reducible dsimp only
  repeat' first | (with_reducible assumption) | exact hm.sub (by decide) | (with_reducible apply Chip.mkaSend_follows) | (with_reducible apply Chip.setFld_follows)

theorem Chip.linkIsUp_follows {z : Kept} {c : Chip} (n : Nat) (hz : z.Follows c) (hm : z.Free [.regs, .net]) : z.Follows (Chip.linkIsUp c n) := by
  unfold Chip.linkIsUp; try with_reducible dsimp only
  repeat' first | (with_reducible assumption) | (with_reducible apply Chip.portUp_follows) | (with_reducible apply follows_ite)

theorem Chip.onPort_follows {z : Kept} {c : Chip} (n : Nat) (f : Chip → Chip) (hz : z.Follows c) (hf : ∀ k0, z.Follows k0 → z.Follows (f k0)) : z.Follows (Chip.onPort c n f) := by
  unfold Chip.onPort; try with_reducible dsimp only
  repeat' first | (with_reducible assumption) | (with_reducible apply hf) | (with_reducible apply follows_ite)

theorem Chip.setTb_follows {z : Kept} {c : Chip} (v : Nat) (hz : z.Follows c) (hm : z.Free [.regs]) : z.Follows (Chip.setTb c v) := by
  unfold Chip.setTb; try with_reducible dsimp only
  repeat' first | (with_reducible assumption) | (with_reducible apply Chip.setFld_follows)

theorem Chip.newSegment_follows {z : Kept} {c : Chip} (t0 : Nat) (adj : Int) (hz : z.Follows c) (hm : z.Free [.tb, .net]) : z.Follows (Chip.newSegment c t0 adj) := by
  unfold Chip.newSegment; try with_reducible dsimp only
  repeat' first | (with_reducible assumption) | exact rfl | exact Nat.le_refl _ | (with_reducible apply follows_upd hm) | (intro x; cases x <;> first | exact .inl (by decide) | exact .inr rfl)

theorem Chip.tsOutStep_follows {z : Kept} {c : Chip} (n : Nat) (hz : z.Follows c) (hm : z.Free [.regs, .net]) : z.Follows (Chip.tsOutStep c n) := by
  unfold Chip.tsOutStep; try with_reducible dsimp only
  repeat' first | (with_reducible assumption) | exact hm.sub (by decide) | (with_reducible apply Chip.setFld_follows) | (with_reducible apply follows_ite) | split | exact rfl | exact Nat.le_refl _ | (with_reducible apply follows_upd hm) | (intro x; cases x <;> first | exact .inl (by decide) | exact .inr rfl)

theorem Chip.stepTime_follows {z : Kept} {c : Chip} (d : Int) (hz : z.Follows c) (hm : z.Free [.tb, .regs, .flt, .net]) : z.Follows (Chip.stepTime c d) := by
  unfold Chip.stepTime; try with_reducible dsimp only
  repeat' first | (with_reducible assumption) | exact hm.sub (by decide) | (with_reducible apply Chip.tsOutStep_follows) | (with_reducible apply Chip.newSegment_follows) | (with_reducible apply Chip.raise_follows) | (with_reducible apply Chip.setFld_follows) | (with_reducible apply Chip.setReg_follows) | (with_reducible apply follows_eachDo) | intro _ _ _ | exact rfl | exact Nat.le_refl _ | (with_reducible apply follows_upd hm) | (intro x; cases x <;> first | exact .inl (by decide) | exact .inr rfl)

theorem Chip.syncReceive_follows {z : Kept} {c : Chip} (n : Nat) (off : Int) (want : Int) (hz : z.Follows c) (hm : z.Free [.tb, .regs, .flt, .net]) : z.Follows (Chip.syncReceive c n off want) := by
  unfold Chip.syncReceive; try with_reducible dsimp only
  repeat' first | (with_reducible assumption) | exact hm.sub (by decide) | (with_reducible apply Chip.stepTime_follows) | (with_reducible apply Chip.setTb_follows) | (with_reducible apply Chip.setReg_follows) | (with_reducible apply follows_ite) | split | exact rfl | exact Nat.le_refl _ | (with_reducible apply follows_upd hm) | (intro x; cases x <;> first | exact .inl (by decide) | exact .inr rfl)

theorem Chip.adjSlew_follows {z : Kept} {c : Chip} (hz : z.Follows c) (hm : z.Free [.tb, .regs, .net]) : z.Follows (Chip.adjSlew c) := by
  unfold Chip.adjSlew; try with_reducible dsimp only
  repeat' first | (with_reducible assumption) | exact hm.sub (by decide) | (with_reducible apply Chip.newSegment_follows) | (with_reducible apply Chip.setReg_follows) | (with_reducible apply follows_ite) | split | exact rfl | exact Nat.le_refl _ | exact Nat.le_max_left _ _ | (with_reducible apply follows_upd hm) | (intro x; cases x <;> first | exact .inl (by decide) | exact .inr rfl)

theorem Chip.holdover_follows {z : Kept} {c : Chip} (hz : z.Follows c) (hm : z.Free [.regs, .flt]) : z.Follows (Chip.holdover c) := by
  unfold Chip.holdover; try with_reducible dsimp only
  repeat' first | (with_reducible assumption) | exact hm.sub (by decide) | (with_reducible apply Chip.setTb_follows) | (with_reducible apply Chip.raise_follows)

theorem Chip.syncTimeout_follows {z : Kept} {c : Chip} (hz : z.Follows c) (hm : z.Free [.tb, .regs, .flt]) : z.Follows (Chip.syncTimeout c) := by
  unfold Chip.syncTimeout; try with_reducible dsimp only
  repeat' first | (with_reducible assumption) | exact hm.sub (by decide) | (with_reducible apply Chip.holdover_follows) | (with_reducible apply Chip.advanceTo_follows) | (with_reducible apply follows_ite)

theorem Chip.syncSend_follows {z : Kept} {c : Chip} (n : Nat) (hz : z.Follows c) (hm : z.Free [.net]) : z.Follows (Chip.syncSend c n) := by
  unfold Chip.syncSend; try with_reducible dsimp only
  repeat' first | (with_reducible assumption) | (with_reducible apply Chip.ptpSend_follows) | (with_reducible apply follows_ite)

theorem Chip.pdelay_follows {z : Kept} {c : Chip} (n mpd : Nat) (hz : z.Follows c) (hm : z.Free [.regs, .net]) : z.Follows (Chip.pdelay c n mpd) := by
  unfold Chip.pdelay; try with_reducible dsimp only
  repeat' first | (with_reducible assumption) | exact hm.sub (by decide) | (with_reducible apply Chip.ptpSend_follows) | (with_reducible apply Chip.modEp_follows) | (with_reducible apply Chip.setReg_follows) | (with_reducible apply follows_ite)

theorem Chip.announce_follows {z : Kept} {c : Chip} (n : Nat) (hz : z.Follows c) (hm : z.Free [.net]) : z.Follows (Chip.announce c n) := by
  unfold Chip.announce; try with_reducible dsimp only
  repeat' first | (with_reducible assumption) | (with_reducible apply Chip.ptpSend_follows) | (with_reducible apply follows_ite)

theorem Chip.tsLost_follows {z : Kept} {c : Chip} (n : Nat) (hz : z.Follows c) (hm : z.Free [.regs]) : z.Follows (Chip.tsLost c n) := by
  unfold Chip.tsLost; try with_reducible dsimp only
  repeat' first | (with_reducible assumption) | (with_reducible apply Chip.setFld_follows)

theorem Chip.tsIn_follows {z : Kept} {c : Chip} (n : Nat) (rising : Bool) (ph pulse : Nat) (hz : z.Follows c) (hm : z.Free [.regs, .net]) : z.Follows (Chip.tsIn c n rising ph pulse) := by
  unfold Chip.tsIn; try with_reducible dsimp only
  repeat' first | (with_reducible assumption) | exact hm.sub (by decide) | (with_reducible apply Chip.tsLost_follows) | (with_reducible apply follows_ite) | split | exact rfl | exact Nat.le_refl _ | (with_reducible apply follows_upd hm) | (intro x; cases x <;> first | exact .inl (by decide) | exact .inr rfl)

theorem Chip.latchWord_follows {z : Kept} {c : Chip} (who : Src) (d off v : Nat) (hz : z.Follows c) (hm : z.Free [.latch]) : z.Follows (Chip.latchWord c who d off v) := by
  unfold Chip.latchWord; try with_reducible dsimp only
  repeat' first | (with_reducible assumption) | exact rfl | exact Nat.le_refl _ | (with_reducible apply follows_upd hm) | (intro x; cases x <;> first | exact .inl (by decide) | exact .inr rfl)

theorem Chip.answer_follows {z : Kept} {c : Chip} (v : Nat) (hz : z.Follows c) (hm : z.Free [.obs]) : z.Follows (Chip.answer c v) := by
  unfold Chip.answer; try with_reducible dsimp only
  repeat' first | (with_reducible assumption) | exact rfl | exact Nat.le_refl _ | (with_reducible apply follows_upd hm) | (intro x; cases x <;> first | exact .inl (by decide) | exact .inr rfl)

theorem Chip.setErr_follows {z : Kept} {c : Chip} (e : Bool) (hz : z.Follows c) (hm : z.Free [.obs]) : z.Follows (Chip.setErr c e) := by
  unfold Chip.setErr; try with_reducible dsimp only
  repeat' first | (with_reducible assumption) | exact rfl | exact Nat.le_refl _ | (with_reducible apply follows_upd hm) | (intro x; cases x <;> first | exact .inl (by decide) | exact .inr rfl)

theorem Chip.tsInRead_follows {z : Kept} {c : Chip} (n : Nat) (who : Src) (hz : z.Follows c) (hm : z.Free [.latch, .obs, .net]) : z.Follows (Chip.tsInRead c n who) := by
  unfold Chip.tsInRead; try with_reducible dsimp only
  repeat' first | (with_reducible assumption) | exact hm.sub (by decide) | (with_reducible apply Chip.answer_follows) | (with_reducible apply Chip.latchWord_follows) | (with_reducible apply follows_ite) | split | exact rfl | exact Nat.le_refl _ | (with_reducible apply follows_upd hm) | (intro x; cases x <;> first | exact .inl (by decide) | exact .inr rfl)

theorem Chip.tsOutEdge_follows {z : Kept} {c : Chip} (n : Nat) (hz : z.Follows c) (hm : z.Free [.tb, .net]) : z.Follows (Chip.tsOutEdge c n) := by
  unfold Chip.tsOutEdge; try with_reducible dsimp only
  repeat' first | (with_reducible assumption) | exact hm.sub (by decide) | (with_reducible apply Chip.advanceTo_follows) | (with_reducible apply follows_ite) | split | exact rfl | exact Nat.le_refl _ | (with_reducible apply follows_upd hm) | (intro x; cases x <;> first | exact .inl (by decide) | exact .inr rfl)

theorem Chip.ppsEdge_follows {z : Kept} {c : Chip} (hz : z.Follows c) (hm : z.Free [.tb, .net]) : z.Follows (Chip.ppsEdge c) := by
  unfold Chip.ppsEdge; try with_reducible dsimp only
  repeat' first | (with_reducible assumption) | exact hm.sub (by decide) | (with_reducible apply Chip.advanceTo_follows) | (with_reducible apply follows_ite) | split | exact rfl | exact Nat.le_refl _ | (with_reducible apply follows_upd hm) | (intro x; cases x <;> first | exact .inl (by decide) | exact .inr rfl)

end Sys2Proof.Machine
end

