-- ==== Sys2Proof/Laws/FollowsEngines.lean ====
section
/-! SUPPORT. Laws/FollowsEngines.lean: every operation of gates, always-on units and the matrix, mover, exchange and memory engines keeps what `Chip.Follows` says. -/
namespace Sys2Proof.Machine

theorem Chip.gateFail_follows {z : Kept} {c : Chip} (p cause msg die i : Nat) (hz : z.Follows c) (hm : z.Free [.regs, .wrk, .flt]) : z.Follows (Chip.gateFail c p cause msg die i) := by
  unfold Chip.gateFail; try with_reducible dsimp only
  repeat' first | (with_reducible assumption) | exact hm.sub (by decide) | (with_reducible apply Chip.latchIf_follows) | (with_reducible apply Chip.modPart_follows) | (with_reducible apply Chip.raise_follows)

theorem Chip.egDone_follows {z : Kept} {c : Chip} (p : Nat) (r : Run) (hz : z.Follows c) (hm : z.Free [.wrk]) : z.Follows (Chip.egDone c p r) := by
  unfold Chip.egDone; try with_reducible dsimp only
  repeat' first | (with_reducible assumption) | (with_reducible apply Chip.noteEnd_follows) | (with_reducible apply Chip.modPart_follows)

theorem Chip.egTile_follows {z : Kept} {c : Chip} (p : Nat) (fault : ReadFault) (r : Run) (t : InTile) (hz : z.Follows c) (hm : z.Free [.regs, .fab, .wrk, .flt, .free]) : z.Follows (Chip.egTile c p fault r t) := by
  unfold Chip.egTile; try with_reducible dsimp only
  repeat' first | (with_reducible assumption) | exact hm.sub (by decide) | (with_reducible apply Chip.egDone_follows) | (with_reducible apply Chip.gateFail_follows) | (with_reducible apply Chip.payload_follows) | (with_reducible apply Chip.setRun_follows) | (with_reducible apply Chip.busy_follows) | (with_reducible apply follows_ite)

theorem Chip.egMsg_follows {z : Kept} {c : Chip} (p : Nat) (fault : ReadFault) (hz : z.Follows c) (hm : z.Free [.regs, .fab, .wrk, .flt, .free]) : z.Follows (Chip.egMsg c p fault) := by
  unfold Chip.egMsg; try with_reducible dsimp only
  repeat' first | (with_reducible assumption) | exact hm.sub (by decide) | (with_reducible apply Chip.egTile_follows) | (with_reducible apply Chip.stall_follows) | (with_reducible apply follows_ite) | split

theorem Chip.sendDgram_follows {z : Kept} {c : Chip} (p ty msg frag flags : Nat) (body : Bytes) (hz : z.Follows c) (hm : z.Free [.regs, .ecc, .net, .ses]) : z.Follows (Chip.sendDgram c p ty msg frag flags body) := by
  unfold Chip.sendDgram; try with_reducible dsimp only
  repeat' first | (with_reducible assumption) | exact hm.sub (by decide) | (with_reducible apply Chip.nextSeq_follows) | (with_reducible apply Chip.queueFrame_follows) | (with_reducible apply Chip.hsPut_follows) | (with_reducible apply Chip.setReg_follows)

theorem Chip.noteDecide_follows {z : Kept} {c : Chip} (p : Nat) (hz : z.Follows c) (hm : z.Free [.regs]) : z.Follows (Chip.noteDecide c p) := by
  unfold Chip.noteDecide; try with_reducible dsimp only
  repeat' first | (with_reducible assumption) | (with_reducible apply Chip.setReg_follows)

theorem Chip.withhold_follows {z : Kept} {c : Chip} (p cause msg die : Nat) (hz : z.Follows c) (hm : z.Free [.regs, .ecc, .wrk, .obs, .net, .ses, .nv]) : z.Follows (Chip.withhold c p cause msg die) := by
  unfold Chip.withhold; try with_reducible dsimp only
  repeat' first | (with_reducible assumption) | exact hm.sub (by decide) | (with_reducible apply Chip.noteDecide_follows) | (with_reducible apply Chip.sendDgram_follows) | (with_reducible apply Chip.latchIf_follows) | (with_reducible apply Chip.modPart_follows) | (with_reducible apply Chip.shav_follows) | (with_reducible apply Chip.orReg_follows) | (with_reducible apply Chip.addReg_follows) | (with_reducible apply follows_ite) | split | exact rfl | exact Nat.le_refl _ | (with_reducible apply follows_upd hm) | (intro x; cases x <;> first | exact .inl (by decide) | exact .inr rfl)

theorem Chip.release_follows {z : Kept} {c : Chip} (p : Nat) (hz : z.Follows c) (hm : z.Free [.regs, .ecc, .wrk, .net, .ses]) : z.Follows (Chip.release c p) := by
  unfold Chip.release; try with_reducible dsimp only
  repeat' first | (with_reducible assumption) | exact hm.sub (by decide) | (with_reducible apply Chip.noteDecide_follows) | (with_reducible apply Chip.sendDgram_follows) | (with_reducible apply Chip.setJob_follows) | (with_reducible apply Chip.modPart_follows) | (with_reducible apply Chip.addReg_follows) | (with_reducible apply Chip.setReg64_follows) | (with_reducible apply follows_eachDo) | (with_reducible apply follows_ite) | intro _ _ _ | split | exact rfl | exact Nat.le_refl _ | (with_reducible apply follows_upd hm) | (intro x; cases x <;> first | exact .inl (by decide) | exact .inr rfl)

theorem Chip.gateDecide_follows {z : Kept} {c : Chip} (p : Nat) (hz : z.Follows c) (hm : z.Free [.regs, .ecc, .lnk, .wrk, .obs, .net, .ses, .nv]) : z.Follows (Chip.gateDecide c p) := by
  unfold Chip.gateDecide; try with_reducible dsimp only
  repeat' first | (with_reducible assumption) | exact hm.sub (by decide) | (with_reducible apply Chip.release_follows) | (with_reducible apply Chip.withhold_follows) | (with_reducible apply Chip.settle_follows) | (with_reducible apply follows_ite)

theorem Chip.resultLaunch_follows {z : Kept} {c : Chip} (p : Nat) (hz : z.Follows c) (hm : z.Free [.tb, .regs, .ecc, .lnk, .wrk, .flt, .obs, .net, .ses, .nv]) : z.Follows (Chip.resultLaunch c p) := by
  unfold Chip.resultLaunch; try with_reducible dsimp only
  repeat' first | (with_reducible assumption) | exact hm.sub (by decide) | (with_reducible apply Chip.withhold_follows) | (with_reducible apply Chip.tq1Launch_follows) | (with_reducible apply Chip.settle_follows) | (with_reducible apply Chip.advanceTo_follows) | (with_reducible apply follows_ite)

theorem Chip.composeAo_follows {z : Kept} {c : Chip} (env : BoundaryEnv) (hz : z.Follows c) (hm : z.Free [.regs, .obs]) : z.Follows (Chip.composeAo c env) := by
  unfold Chip.composeAo; try with_reducible dsimp only
  repeat' first | (with_reducible assumption) | exact hm.sub (by decide) | (with_reducible apply Chip.setReg_follows) | exact rfl | exact Nat.le_refl _ | (with_reducible apply follows_upd hm) | (intro x; cases x <;> first | exact .inl (by decide) | exact .inr rfl)

theorem Chip.sendCounters_follows {z : Kept} {c : Chip} (hz : z.Follows c) (hm : z.Free [.net, .ses]) : z.Follows (Chip.sendCounters c) := by
  unfold Chip.sendCounters; try with_reducible dsimp only
  repeat' first | (with_reducible assumption) | (with_reducible apply Chip.tell_follows) | (with_reducible apply follows_eachDo) | (with_reducible apply follows_ite) | intro _ _ _ | split

theorem Chip.clearRegs_follows {z : Kept} {c : Chip} (mask : Nat → Nat → Nat) (hz : z.Follows c) (hm : z.Free [.regs]) : z.Follows (c.clearRegs mask) :=
  follows_regs hm hz _ (fun x => tabWf_tabMap 0#32 _ x)

theorem Chip.noteTj_follows {z : Kept} {c : Chip} (env : BoundaryEnv) (hz : z.Follows c) (hm : z.Free [.regs]) : z.Follows (Chip.noteTj c env) := by
  unfold Chip.noteTj; try with_reducible dsimp only
  repeat' first | (with_reducible assumption) | (with_reducible apply Chip.setReg_follows) | (with_reducible apply follows_eachDo) | intro _ _ _

theorem Chip.freshCounts_follows {z : Kept} {c : Chip} (hz : z.Follows c) (hm : z.Free [.wrk]) : z.Follows (Chip.freshCounts c) := by
  unfold Chip.freshCounts; try with_reducible dsimp only
  repeat' first | (with_reducible assumption) | exact rfl | exact Nat.le_refl _ | (with_reducible apply follows_upd hm) | (intro x; cases x <;> first | exact .inl (by decide) | exact .inr rfl)

theorem Chip.copyCounters_follows {z : Kept} {c : Chip} (hz : z.Follows c) (hm : z.Free [.obs]) : z.Follows (Chip.copyCounters c) := by
  unfold Chip.copyCounters; try with_reducible dsimp only
  repeat' first | (with_reducible assumption) | split | exact rfl | exact Nat.le_refl _ | (with_reducible apply follows_upd hm) | (intro x; cases x <;> first | exact .inl (by decide) | exact .inr rfl)

theorem Chip.boundaryCounters_follows {z : Kept} {c : Chip} (env : BoundaryEnv) (hz : z.Follows c) (hm : z.Free [.regs, .wrk, .obs, .net, .ses]) : z.Follows (Chip.boundaryCounters c env) := by
  unfold Chip.boundaryCounters; try with_reducible dsimp only
  repeat' first | (with_reducible assumption) | exact hm.sub (by decide) | (with_reducible apply Chip.copyCounters_follows) | (with_reducible apply Chip.freshCounts_follows) | (with_reducible apply Chip.noteTj_follows) | (with_reducible apply Chip.clearRegs_follows) | (with_reducible apply Chip.sendCounters_follows) | (with_reducible apply Chip.composeAo_follows)

theorem Chip.sendReqs_follows {z : Kept} {c : Chip} (src part num : Nat) (qs : List WReq) (hz : z.Follows c) (hm : z.Free [.lnk]) : z.Follows (Chip.sendReqs c src part num qs) := by
  unfold Chip.sendReqs; try with_reducible dsimp only
  repeat' first | (with_reducible assumption) | (with_reducible apply Chip.sendData_follows) | (with_reducible apply Chip.sendFlit_follows) | (with_reducible apply follows_eachDo) | (with_reducible apply follows_ite) | intro _ _ _

theorem Chip.carryReq_follows {z : Kept} {c : Chip} (r : Run) (q : WReq) (rest : List WReq) (src part key : Nat) (b : Bytes) (hz : z.Follows c) (hm : z.Free [.lnk]) : z.Follows (Chip.carryReq c r q rest src part key b) := by
  unfold Chip.carryReq; try with_reducible dsimp only
  repeat' first | (with_reducible assumption) | (with_reducible apply Chip.sendTrailer_follows) | (with_reducible apply Chip.setContrib_follows) | (with_reducible apply follows_ite)

theorem Chip.remoteRequestArrive_follows {z : Kept} {c : Chip} (k : Nat) (ups : Upsets) (hz : z.Follows c) (hm : z.Free [.regs, .mem, .ecc, .fab, .lnk, .flt, .free]) : z.Follows (Chip.remoteRequestArrive c k ups) := by
  unfold Chip.remoteRequestArrive; try with_reducible dsimp only
  repeat' first | (with_reducible assumption) | exact hm.sub (by decide) | (with_reducible apply Chip.carryReq_follows) | (with_reducible apply Chip.openContrib_follows) | (with_reducible apply Chip.sendData_follows) | (with_reducible apply Chip.setRun_follows) | (with_reducible apply Chip.write_follows) | (with_reducible apply Chip.read_follows) | (with_reducible apply Chip.addReg_follows) | (with_reducible apply follows_ite) | split

theorem Chip.remoteStatusReturn_follows {z : Kept} {c : Chip} (k : Nat) (hz : z.Follows c) (hm : z.Free [.regs, .fab, .cmp, .lnk, .wrk, .flt, .obs, .nv]) : z.Follows (Chip.remoteStatusReturn c k) := by
  unfold Chip.remoteStatusReturn; try with_reducible dsimp only
  repeat' first | (with_reducible assumption) | exact hm.sub (by decide) | (with_reducible apply Chip.boundFault_follows) | (with_reducible apply Chip.setRun_follows) | (with_reducible apply Chip.addReg_follows) | (with_reducible apply follows_ite) | split

theorem Chip.moved_follows {z : Kept} {c : Chip} (st n : Nat) (hz : z.Follows c) (hm : z.Free [.regs]) : z.Follows (Chip.moved c st n) := by
  unfold Chip.moved; try with_reducible dsimp only
  repeat' first | (with_reducible assumption) | (with_reducible apply Chip.addReg48_follows)

theorem Chip.readOver_follows {z : Kept} {c : Chip} (who : Reader) (ups : Upsets) (ss : List Store) (a n : Nat) (hz : z.Follows c) (hm : z.Free [.regs, .ecc, .flt, .free]) : z.Follows (c.readOver who ups ss a n).1 := by
  unfold Chip.readOver
  with_reducible dsimp only
  split
  · exact Chip.readTask_follows _ _ _ _ hz (hm.sub (by decide))
  · exact Chip.readTask_follows _ _ _ _ hz (hm.sub (by decide))

theorem Chip.readRuns_follows {z : Kept} (st : Nat) (r : Run) (ups : Upsets) (ss : List Store) (l : List (Nat × Nat × Nat)) (bs : List Marked) {c : Chip}
    (hz : z.Follows c) (hm : z.Free [.regs, .ecc, .flt, .free]) : z.Follows (c.readRuns st r ups ss l bs).1 := by
  induction l generalizing c bs with
  | nil => exact hz
  | cons x l ih =>
    unfold Chip.readRuns
    with_reducible dsimp only
    split
    · exact hz
    · exact ih _ (Chip.readOver_follows _ _ _ _ _ hz (hm.sub (by decide)))

theorem Chip.streamData_follows {z : Kept} {c : Chip} (st : Nat) (r : Run) (ups : Upsets) (hz : z.Follows c) (hm : z.Free [.regs, .ecc, .flt, .free]) : z.Follows (Chip.streamData c st r ups).1 := by
  unfold Chip.streamData; try with_reducible dsimp only
  repeat' first | (with_reducible assumption) | (with_reducible apply Chip.readTask_follows) | split

theorem Chip.stepData_follows {z : Kept} {c : Chip} (st : Nat) (r : Run) (ups : Upsets) (i3 : Nat) (hz : z.Follows c) (hm : z.Free [.regs, .ecc, .flt, .free]) : z.Follows (Chip.stepData c st r ups i3).1 := by
  unfold Chip.stepData; try with_reducible dsimp only
  repeat' first | (with_reducible assumption) | (with_reducible apply Chip.streamData_follows) | (with_reducible apply Chip.readRuns_follows) | split

theorem Chip.askSource_follows {z : Kept} {c : Chip} (st : Nat) (r : Run) (hz : z.Follows c) (hm : z.Free [.fab, .lnk]) : z.Follows (Chip.askSource c st r) := by
  unfold Chip.askSource; try with_reducible dsimp only
  repeat' first | (with_reducible assumption) | exact hm.sub (by decide) | (with_reducible apply Chip.sendReqs_follows) | (with_reducible apply Chip.setRun_follows) | (with_reducible apply follows_ite)

theorem Chip.writeContrib_follows {z : Kept} {c : Chip} (st : Nat) (r : Run) (hz : z.Follows c) (hm : z.Free [.regs, .lnk]) : z.Follows (Chip.writeContrib c st r).2 := by
  unfold Chip.writeContrib; try with_reducible dsimp only
  repeat' first | (with_reducible assumption) | (with_reducible apply Chip.openContrib_follows) | split

theorem Chip.issueWrites_follows {z : Kept} {c : Chip} (st : Nat) (r : Run) (cid : Nat) (x : Except Nat (List Store × List WReq)) (n : Nat) (fin : Run → Run) (hz : z.Follows c) (hm : z.Free [.regs, .fab, .cmp, .lnk, .wrk, .flt, .obs, .nv]) : z.Follows (Chip.issueWrites c st r cid x n fin) := by
  unfold Chip.issueWrites; try with_reducible dsimp only
  repeat' first | (with_reducible assumption) | exact hm.sub (by decide) | (with_reducible apply Chip.moved_follows) | (with_reducible apply Chip.sendReqs_follows) | (with_reducible apply Chip.boundFault_follows) | (with_reducible apply Chip.setRun_follows) | (with_reducible apply Chip.busy_follows) | split

theorem Chip.copyBlocks_follows {z : Kept} (st : Nat) (r : Run) (ups : Upsets) (cid : Nat) (l : List (List (Nat × Nat × Nat))) (ss : List Store) (qs : List WReq) {c : Chip}
    (hz : z.Follows c) (hm : z.Free [.regs, .ecc, .flt, .free]) : z.Follows (c.copyBlocks st r ups cid l ss qs).1 := by
  induction l generalizing c ss qs with
  | nil => exact hz
  | cons x l ih =>
    unfold Chip.copyBlocks
    with_reducible dsimp only
    have hx := Chip.readRuns_follows st r ups ss x [] hz (hm.sub (by decide))
    split
    · exact hx
    · split
      · exact hx
      · exact ih _ _ hx

theorem Chip.copySteps_follows {z : Kept} (st : Nat) (r : Run) (ups : Upsets) (l : List Nat) (acc : List (Nat × Marked)) {c : Chip}
    (hz : z.Follows c) (hm : z.Free [.regs, .ecc, .flt, .free]) : z.Follows (c.copySteps st r ups l acc).1 := by
  induction l generalizing c acc with
  | nil => exact hz
  | cons x l ih =>
    unfold Chip.copySteps
    with_reducible dsimp only
    have hx := Chip.stepData_follows st r ups x hz (hm.sub (by decide))
    split
    · exact hx
    · exact ih _ hx

theorem Chip.writeOut_follows {z : Kept} {c : Chip} (st : Nat) (r : Run) (cid : Nat) (out : List (Nat × Marked)) (n : Nat) (fin : Run → Run) (hz : z.Follows c) (hm : z.Free [.regs, .fab, .cmp, .lnk, .wrk, .flt, .obs, .nv]) : z.Follows (Chip.writeOut c st r cid out n fin) := by
  unfold Chip.writeOut; try with_reducible dsimp only
  repeat' first | (with_reducible assumption) | (with_reducible apply Chip.issueWrites_follows)

theorem Chip.copyOut_follows {z : Kept} {c : Chip} (st : Nat) (r : Run) (runs : List (Nat × Marked)) (hz : z.Follows c) (hm : z.Free [.regs, .fab, .cmp, .lnk, .wrk, .flt, .obs, .nv]) : z.Follows (Chip.copyOut c st r runs) := by
  unfold Chip.copyOut; try with_reducible dsimp only
  repeat' first | (with_reducible assumption) | exact hm.sub (by decide) | (with_reducible apply Chip.writeOut_follows) | (with_reducible apply Chip.writeContrib_follows)

theorem Chip.copyMove_follows {z : Kept} {c : Chip} (st : Nat) (r : Run) (ups : Upsets) (hz : z.Follows c) (hm : z.Free [.regs, .ecc, .fab, .cmp, .lnk, .wrk, .flt, .obs, .nv, .free]) : z.Follows (Chip.copyMove c st r ups) := by
  unfold Chip.copyMove; try with_reducible dsimp only
  repeat' first | (with_reducible assumption) | exact hm.sub (by decide) | (with_reducible apply Chip.copyOut_follows) | (with_reducible apply Chip.copySteps_follows) | (with_reducible apply Chip.copyBlocks_follows) | (with_reducible apply Chip.issueWrites_follows) | (with_reducible apply Chip.writeContrib_follows) | (with_reducible apply Chip.boundFault_follows) | (with_reducible apply follows_ite) | split

theorem Chip.dmCopy_follows {z : Kept} {c : Chip} (st : Nat) (ups : Upsets) (hz : z.Follows c) (hm : z.Free [.regs, .ecc, .fab, .cmp, .lnk, .wrk, .flt, .obs, .nv, .free]) : z.Follows (Chip.dmCopy c st ups) := by
  unfold Chip.dmCopy; try with_reducible dsimp only
  repeat' first | (with_reducible assumption) | exact hm.sub (by decide) | (with_reducible apply Chip.copyMove_follows) | (with_reducible apply Chip.askSource_follows) | (with_reducible apply Chip.setRun_follows) | (with_reducible apply Chip.stall_follows) | (with_reducible apply follows_ite) | split

theorem Chip.loadTile_follows {z : Kept} {c : Chip} (st : Nat) (r : Run) (runs : List Marked) (hz : z.Follows c) (hm : z.Free [.regs, .fab]) : z.Follows (Chip.loadTile c st r runs) := by
  unfold Chip.loadTile; try with_reducible dsimp only
  repeat' first | (with_reducible assumption) | exact hm.sub (by decide) | (with_reducible apply Chip.moved_follows) | (with_reducible apply Chip.setRun_follows) | (with_reducible apply Chip.busy_follows)

theorem Chip.dmLoad_follows {z : Kept} {c : Chip} (st : Nat) (ups : Upsets) (hz : z.Follows c) (hm : z.Free [.regs, .ecc, .fab, .cmp, .lnk, .wrk, .flt, .obs, .nv, .free]) : z.Follows (Chip.dmLoad c st ups) := by
  unfold Chip.dmLoad; try with_reducible dsimp only
  repeat' first | (with_reducible assumption) | exact hm.sub (by decide) | (with_reducible apply Chip.loadTile_follows) | (with_reducible apply Chip.askSource_follows) | (with_reducible apply Chip.stepData_follows) | (with_reducible apply Chip.boundFault_follows) | (with_reducible apply Chip.setRun_follows) | (with_reducible apply Chip.stall_follows) | (with_reducible apply follows_ite) | split

theorem Chip.gatherTile_follows {z : Kept} {c : Chip} (st : Nat) (r : Run) (t : InTile) (m : Marked) (hz : z.Follows c) (hm : z.Free [.regs, .fab, .cmp, .lnk, .wrk, .flt, .obs, .nv]) : z.Follows (Chip.gatherTile c st r t m) := by
  unfold Chip.gatherTile; try with_reducible dsimp only
  repeat' first | (with_reducible assumption) | exact hm.sub (by decide) | (with_reducible apply Chip.writeOut_follows) | (with_reducible apply Chip.writeContrib_follows) | (with_reducible apply Chip.moved_follows) | (with_reducible apply Chip.setRun_follows) | (with_reducible apply follows_ite)

theorem Chip.storeTile_follows {z : Kept} {c : Chip} (st : Nat) (r : Run) (t : InTile) (m : Marked) (hz : z.Follows c) (hm : z.Free [.regs, .fab, .cmp, .lnk, .wrk, .flt, .obs, .nv]) : z.Follows (Chip.storeTile c st r t m) := by
  unfold Chip.storeTile; try with_reducible dsimp only
  repeat' first | (with_reducible assumption) | exact hm.sub (by decide) | (with_reducible apply Chip.writeOut_follows) | (with_reducible apply Chip.writeContrib_follows) | split

theorem Chip.dmStore_follows {z : Kept} {c : Chip} (st : Nat) (hz : z.Follows c) (hm : z.Free [.regs, .fab, .cmp, .lnk, .wrk, .flt, .obs, .nv, .free]) : z.Follows (Chip.dmStore c st) := by
  unfold Chip.dmStore; try with_reducible dsimp only
  repeat' first | (with_reducible assumption) | exact hm.sub (by decide) | (with_reducible apply Chip.storeTile_follows) | (with_reducible apply Chip.gatherTile_follows) | (with_reducible apply Chip.payload_follows) | (with_reducible apply Chip.setRun_follows) | (with_reducible apply Chip.stall_follows) | (with_reducible apply follows_ite) | split

theorem Chip.xdPut_follows {z : Kept} {c : Chip} (k : Nat) (ups : Upsets) (hz : z.Follows c) (hm : z.Free [.regs, .ecc, .fab, .cmp, .lnk, .wrk, .flt, .obs, .nv, .free]) : z.Follows (Chip.xdPut c k ups) := by
  unfold Chip.xdPut; try with_reducible dsimp only
  repeat' first | (with_reducible assumption) | exact hm.sub (by decide) | (with_reducible apply Chip.sendReqs_follows) | (with_reducible apply Chip.shareOut_follows) | (with_reducible apply Chip.openContrib_follows) | (with_reducible apply Chip.busyXd_follows) | (with_reducible apply Chip.boundFault_follows) | (with_reducible apply Chip.setRun_follows) | (with_reducible apply Chip.readTask_follows) | (with_reducible apply Chip.stall_follows) | (with_reducible apply follows_ite) | split

theorem Chip.xdGet_follows {z : Kept} {c : Chip} (k : Nat) (hz : z.Follows c) (hm : z.Free [.regs, .fab, .cmp, .lnk, .wrk, .flt, .obs, .nv]) : z.Follows (Chip.xdGet c k) := by
  unfold Chip.xdGet; try with_reducible dsimp only
  repeat' first | (with_reducible assumption) | exact hm.sub (by decide) | (with_reducible apply Chip.sendReqs_follows) | (with_reducible apply Chip.busyXd_follows) | (with_reducible apply Chip.boundFault_follows) | (with_reducible apply Chip.setRun_follows) | (with_reducible apply Chip.stall_follows) | (with_reducible apply follows_ite) | split

theorem Chip.collAdd_follows {z : Kept} {c : Chip} (m : CollMsg) (hz : z.Follows c) (hm : z.Free [.lnk]) : z.Follows (Chip.collAdd c m) := by
  unfold Chip.collAdd; try with_reducible dsimp only
  repeat' first | (with_reducible assumption) | exact rfl | exact Nat.le_refl _ | (with_reducible apply follows_upd hm) | (intro x; cases x <;> first | exact .inl (by decide) | exact .inr rfl)

theorem Chip.collContrib_follows {z : Kept} {c : Chip} (r : Run) (me m : Nat) (hz : z.Follows c) (hm : z.Free [.regs, .lnk]) : z.Follows (Chip.collContrib c r me m).1 := by
  unfold Chip.collContrib; try with_reducible dsimp only
  repeat' first | (with_reducible assumption) | (with_reducible apply Chip.openContrib_follows) | split

theorem Chip.collCarry_follows {z : Kept} {c : Chip} (r : Run) (me m slot key : Nat) (t : OutTile) (hz : z.Follows c) (hm : z.Free [.lnk]) : z.Follows (Chip.collCarry c r me m slot key t) := by
  unfold Chip.collCarry; try with_reducible dsimp only
  repeat' first | (with_reducible assumption) | (with_reducible apply Chip.sendTrailer_follows) | (with_reducible apply Chip.setContrib_follows) | (with_reducible apply Chip.sendData_follows) | (with_reducible apply follows_ite)

theorem Chip.collPut_follows {z : Kept} {c : Chip} (r : Run) (me m phase slot : Nat) (t : OutTile) (hz : z.Follows c) (hm : z.Free [.regs, .lnk]) : z.Follows (Chip.collPut c r me m phase slot t).1 := by
  unfold Chip.collPut; try with_reducible dsimp only
  repeat' first | (with_reducible assumption) | exact hm.sub (by decide) | (with_reducible apply Chip.collCarry_follows) | (with_reducible apply Chip.collContrib_follows) | (with_reducible apply Chip.collAdd_follows) | split

theorem collSendTo_follows {z : Kept} (k n : Nat) (tile : OutTile) (s : Chip × Run) (m : Nat × Nat) (hz : z.Follows s.1) (hm : z.Free [.regs, .lnk]) :
    z.Follows (collSendTo k n tile s m).1 := by
  unfold collSendTo
  split
  · exact hz
  · split
    · exact Chip.stall_follows _ _ _ hz (hm.sub (by decide))
    · exact Chip.busyXd_follows _ _ _ (Chip.collPut_follows _ _ _ _ _ _ hz (hm.sub (by decide))) (hm.sub (by decide))

theorem Chip.collSendTile_follows {z : Kept} {c : Chip} (k : Nat) (r : Run) (t : InTile) (hz : z.Follows c) (hm : z.Free [.regs, .lnk, .free]) : z.Follows (c.collSendTile k r t).1 :=
  follows_foldl (fun s m h => collSendTo_follows k _ _ s m h (hm.sub (by decide))) _ _ (Chip.payload_follows t hz (hm.sub (by decide)))

theorem Chip.collSend_follows {z : Kept} {c : Chip} (k : Nat) (r : Run) (hz : z.Follows c) (hm : z.Free [.regs, .lnk, .free]) : z.Follows (c.collSend k r).1 :=
  follows_foldl (fun s t h => Chip.collSendTile_follows k s.2 t h (hm.sub (by decide))) _ _ hz

theorem Chip.collTake_follows {z : Kept} {c : Chip} (ms : List CollMsg) (hz : z.Follows c) (hm : z.Free [.lnk]) : z.Follows (Chip.collTake c ms) := by
  unfold Chip.collTake; try with_reducible dsimp only
  repeat' first | (with_reducible assumption) | exact rfl | exact Nat.le_refl _ | (with_reducible apply follows_upd hm) | (intro x; cases x <;> first | exact .inl (by decide) | exact .inr rfl)

theorem Chip.poisonGroup_follows {z : Kept} {c : Chip} (q lo hi : Nat) (hz : z.Follows c) (hm : z.Free [.regs, .mem, .ecc, .flt, .free]) : z.Follows (Chip.poisonGroup c q lo hi) := by
  unfold Chip.poisonGroup; try with_reducible dsimp only
  repeat' first | (with_reducible assumption) | (with_reducible apply Chip.rewriteHdr_follows) | (with_reducible apply follows_eachDo) | (with_reducible apply follows_ite) | intro _ _ _

theorem Chip.groupBad_follows {z : Kept} {c : Chip} (k : Nat) (r : Run) (lo hi : Nat) (hz : z.Follows c) (hm : z.Free [.regs, .mem, .ecc, .fab, .cmp, .lnk, .wrk, .flt, .obs, .nv, .free]) : z.Follows (Chip.groupBad c k r lo hi) := by
  unfold Chip.groupBad; try with_reducible dsimp only
  repeat' first | (with_reducible assumption) | exact hm.sub (by decide) | (with_reducible apply Chip.poisonGroup_follows) | (with_reducible apply Chip.xdLatch_follows) | (with_reducible apply Chip.endPoisoned_follows) | (with_reducible apply Chip.raise_follows)

theorem Chip.groupCheck_follows {z : Kept} {c : Chip} (k : Nat) (r : Run) (lo hi : Nat) (hz : z.Follows c) (hm : z.Free [.regs, .mem, .ecc, .fab, .cmp, .lnk, .wrk, .flt, .obs, .nv, .free]) : z.Follows (Chip.groupCheck c k r lo hi) := by
  unfold Chip.groupCheck; try with_reducible dsimp only
  repeat' first | (with_reducible assumption) | exact hm.sub (by decide) | (with_reducible apply Chip.groupBad_follows) | (with_reducible apply Chip.setRun_follows) | (with_reducible apply follows_ite)

theorem collGatherTo_follows {z : Kept} (k : Nat) (m : CollMsg) (s : Chip × Run) (o : Nat) (hz : z.Follows s.1) (hm : z.Free [.regs, .lnk]) :
    z.Follows (collGatherTo k m s o).1 := by
  unfold collGatherTo
  with_reducible dsimp only
  split
  · exact hz
  · split
    · exact Chip.stall_follows _ _ _ hz (hm.sub (by decide))
    · exact Chip.collPut_follows _ _ _ _ _ _ hz (hm.sub (by decide))

theorem Chip.collGather_follows {z : Kept} {c : Chip} (k : Nat) (r : Run) (hz : z.Follows c) (hm : z.Free [.regs, .lnk]) : z.Follows (c.collGather k r).1 := by
  unfold Chip.collGather
  with_reducible dsimp only
  split
  · exact hz
  · exact follows_foldl (fun s m h => follows_foldl (fun s o h => collGatherTo_follows k m s o h (hm.sub (by decide))) _ s h) _ _ hz

theorem Chip.collReduce_follows {z : Kept} {c : Chip} (k : Nat) (r : Run) (ms : List CollMsg) (ord : List Nat) (flt : Option (Nat × BitVec 32)) (hz : z.Follows c) (hm : z.Free [.regs, .mem, .ecc, .fab, .cmp, .lnk, .wrk, .flt, .obs, .nv, .free]) : z.Follows (Chip.collReduce c k r ms ord flt) := by
  unfold Chip.collReduce; try with_reducible dsimp only
  repeat' first | (with_reducible assumption) | exact hm.sub (by decide) | (with_reducible apply Chip.groupCheck_follows) | (with_reducible apply Chip.collTake_follows) | (with_reducible apply Chip.collAdd_follows) | (with_reducible apply Chip.setRun_follows) | (with_reducible apply follows_ite)

theorem Chip.collForm_follows {z : Kept} {c : Chip} (k : Nat) (r : Run) (ord : List Nat) (flt : Option (Nat × BitVec 32)) (hz : z.Follows c) (hm : z.Free [.regs, .mem, .ecc, .fab, .cmp, .lnk, .wrk, .flt, .obs, .nv, .free]) : z.Follows (Chip.collForm c k r ord flt) := by
  unfold Chip.collForm; try with_reducible dsimp only
  repeat' first | (with_reducible assumption) | exact hm.sub (by decide) | (with_reducible apply Chip.collReduce_follows) | (with_reducible apply Chip.collTake_follows) | (with_reducible apply Chip.setRun_follows) | (with_reducible apply follows_ite) | split

theorem Chip.collEnd_follows {z : Kept} {c : Chip} (k : Nat) (hz : z.Follows c) (hm : z.Free [.fab, .lnk]) : z.Follows (Chip.collEnd c k) := by
  unfold Chip.collEnd; try with_reducible dsimp only
  repeat' first | (with_reducible assumption) | exact hm.sub (by decide) | (with_reducible apply Chip.collTake_follows) | (with_reducible apply Chip.setRun_follows) | (with_reducible apply follows_ite) | split

theorem Chip.collective_follows {z : Kept} {c : Chip} (k op : Nat) (ord : List Nat) (flt : Option (Nat × BitVec 32)) (hz : z.Follows c) (hm : z.Free [.regs, .mem, .ecc, .fab, .cmp, .lnk, .wrk, .flt, .obs, .nv, .free]) : z.Follows (Chip.collective c k op ord flt) := by
  unfold Chip.collective; try with_reducible dsimp only
  repeat' first | (with_reducible assumption) | exact hm.sub (by decide) | (with_reducible apply Chip.collEnd_follows) | (with_reducible apply Chip.collForm_follows) | (with_reducible apply Chip.collGather_follows) | (with_reducible apply Chip.collSend_follows) | (with_reducible apply Chip.shareOut_follows) | split

theorem Chip.putWindow_follows {z : Kept} {c : Chip} (die a d : Nat) (hz : z.Follows c) (hm : z.Free [.regs]) : z.Follows (Chip.putWindow c die a d) := by
  unfold Chip.putWindow; try with_reducible dsimp only
  repeat' first | (with_reducible assumption) | (with_reducible apply Chip.setReg_follows)

theorem Chip.xdWopen_follows {z : Kept} {c : Chip} (k : Nat) (hz : z.Follows c) (hm : z.Free [.regs, .fab, .cmp, .lnk, .wrk, .flt, .obs, .nv]) : z.Follows (Chip.xdWopen c k) := by
  unfold Chip.xdWopen; try with_reducible dsimp only
  repeat' first | (with_reducible assumption) | exact hm.sub (by decide) | (with_reducible apply Chip.putWindow_follows) | (with_reducible apply Chip.busyXd_follows) | (with_reducible apply Chip.boundFault_follows) | (with_reducible apply Chip.setRun_follows) | (with_reducible apply follows_ite) | split

theorem Chip.closeWindow_follows {z : Kept} {c : Chip} (d w : Nat) (hz : z.Follows c) (hm : z.Free [.regs]) : z.Follows (Chip.closeWindow c d w) := by
  unfold Chip.closeWindow; try with_reducible dsimp only
  repeat' first | (with_reducible assumption) | (with_reducible apply Chip.setFld_follows) | (with_reducible apply follows_ite)

theorem Chip.xdWclose_follows {z : Kept} {c : Chip} (k : Nat) (hz : z.Follows c) (hm : z.Free [.regs, .fab]) : z.Follows (Chip.xdWclose c k) := by
  unfold Chip.xdWclose; try with_reducible dsimp only
  repeat' first | (with_reducible assumption) | exact hm.sub (by decide) | (with_reducible apply Chip.closeWindow_follows) | (with_reducible apply Chip.busyXd_follows) | (with_reducible apply Chip.setRun_follows) | (with_reducible apply follows_ite) | split

theorem Chip.xdWcloseComplete_follows {z : Kept} {c : Chip} (k : Nat) (hz : z.Follows c) (hm : z.Free [.fab]) : z.Follows (Chip.xdWcloseComplete c k) := by
  unfold Chip.xdWcloseComplete; try with_reducible dsimp only
  repeat' first | (with_reducible assumption) | (with_reducible apply Chip.setRun_follows) | split

theorem Chip.setMx_follows {z : Kept} {c : Chip} (st : Nat) (v : Mx) (hz : z.Follows c) (hm : z.Free [.cmp]) : z.Follows (Chip.setMx c st v) := by
  unfold Chip.setMx; try with_reducible dsimp only
  repeat' first | (with_reducible assumption) | exact rfl | exact Nat.le_refl _ | (with_reducible apply follows_upd hm) | (intro x; cases x <;> first | exact .inl (by decide) | exact .inr rfl)

theorem Chip.setWf_follows {z : Kept} {c : Chip} (st : Nat) (v : Wf) (hz : z.Follows c) (hm : z.Free [.cmp]) : z.Follows (Chip.setWf c st v) := by
  unfold Chip.setWf; try with_reducible dsimp only
  repeat' first | (with_reducible assumption) | exact rfl | exact Nat.le_refl _ | (with_reducible apply follows_upd hm) | (intro x; cases x <;> first | exact .inl (by decide) | exact .inr rfl)

theorem Chip.setRow_follows {z : Kept} {c : Chip} (st a r : Nat) (v : Row) (hz : z.Follows c) (hm : z.Free [.cmp]) : z.Follows (Chip.setRow c st a r v) := by
  unfold Chip.setRow; try with_reducible dsimp only
  repeat' first | (with_reducible assumption) | exact rfl | exact Nat.le_refl _ | (with_reducible apply follows_upd hm) | (intro x; cases x <;> first | exact .inl (by decide) | exact .inr rfl)

theorem Chip.mxPass_follows {z : Kept} {c : Chip} (st : Nat) (hz : z.Follows c) (hm : z.Free [.fab]) : z.Follows (Chip.mxPass c st) := by
  unfold Chip.mxPass; try with_reducible dsimp only
  repeat' first | (with_reducible assumption) | (with_reducible apply Chip.setRun_follows) | (with_reducible apply follows_ite) | split

theorem Chip.takeWeights_follows {z : Kept} (st : Nat) (r : Run) (q : Nat) (ups : Upsets) (l : List Nat) {c : Chip} (hz : z.Follows c) (hm : z.Free [.regs, .ecc, .fab, .flt, .free]) :
    z.Follows (c.takeWeights st r q ups l).1 := by
  induction l generalizing c r with
  | nil => exact hz
  | cons x l ih =>
    unfold Chip.takeWeights
    with_reducible dsimp only
    refine ih _ ?_
    have hx := Chip.acquire_follows st r 0 q ups hz (hm.sub (by decide))
    split
    · split
      · exact Chip.payload_follows _ hx (hm.sub (by decide))
      · exact hx
    · exact hx

theorem Chip.weightLoadDone_follows {z : Kept} {c : Chip} (st : Nat) (hz : z.Follows c) (hm : z.Free [.fab, .cmp, .lnk]) : z.Follows (Chip.weightLoadDone c st) := by
  unfold Chip.weightLoadDone; try with_reducible dsimp only
  repeat' first | (with_reducible assumption) | exact hm.sub (by decide) | (with_reducible apply Chip.setMx_follows) | (with_reducible apply Chip.freeSlot_follows) | (with_reducible apply Chip.setRun_follows) | (with_reducible apply follows_eachDo) | (with_reducible apply follows_ite) | intro _ _ _ | split

theorem Chip.countOps_follows {z : Kept} {c : Chip} (st desc : Nat) (hz : z.Follows c) (hm : z.Free [.regs]) : z.Follows (Chip.countOps c st desc) := by
  unfold Chip.countOps; try with_reducible dsimp only
  repeat' first | (with_reducible assumption) | (with_reducible apply Chip.addReg48_follows) | (with_reducible apply follows_ite)

theorem Chip.mxPassBegin_follows {z : Kept} {c : Chip} (st : Nat) (ups : Upsets) (hz : z.Follows c) (hm : z.Free [.regs, .ecc, .fab, .cmp, .lnk, .wrk, .flt, .obs, .nv, .free]) : z.Follows (Chip.mxPassBegin c st ups) := by
  unfold Chip.mxPassBegin; try with_reducible dsimp only
  repeat' first | (with_reducible assumption) | exact hm.sub (by decide) | (with_reducible apply Chip.takeWeights_follows) | (with_reducible apply Chip.setMx_follows) | (with_reducible apply Chip.waiting_follows) | (with_reducible apply Chip.acquired_follows) | (with_reducible apply Chip.boundFault_follows) | (with_reducible apply Chip.setRun_follows) | (with_reducible apply Chip.queueErr_follows) | (with_reducible apply Chip.setQueue_follows) | (with_reducible apply Chip.stall_follows) | (with_reducible apply follows_eachDo) | (with_reducible apply follows_ite) | intro _ _ _ | split

theorem Chip.mxVectorIssue_follows {z : Kept} {c : Chip} (st : Nat) (hz : z.Follows c) (hm : z.Free [.regs, .fab, .cmp]) : z.Follows (Chip.mxVectorIssue c st) := by
  unfold Chip.mxVectorIssue; try with_reducible dsimp only
  repeat' first | (with_reducible assumption) | exact hm.sub (by decide) | (with_reducible apply Chip.countOps_follows) | (with_reducible apply Chip.setWf_follows) | (with_reducible apply Chip.setMx_follows) | (with_reducible apply Chip.setRun_follows) | (with_reducible apply Chip.stall_follows) | (with_reducible apply Chip.busy_follows) | (with_reducible apply follows_ite) | split

theorem Chip.mxCheck_follows {z : Kept} {c : Chip} (st a kind row desc : Nat) (k : Check) (hz : z.Follows c) (hm : z.Free [.regs, .flt]) : z.Follows (Chip.mxCheck c st a kind row desc k) := by
  unfold Chip.mxCheck; try with_reducible dsimp only
  repeat' first | (with_reducible assumption) | exact hm.sub (by decide) | (with_reducible apply Chip.latchIf_follows) | (with_reducible apply Chip.raise_follows) | (with_reducible apply Chip.addReg_follows) | (with_reducible apply follows_ite)

theorem Chip.arrayWrite_follows {z : Kept} {c : Chip} (st : Nat) (v : Vec) (p : Pass) (w : Weights) (fs : LaneFaults) (hz : z.Follows c) (hm : z.Free [.regs, .mem, .ecc, .cmp, .flt, .free]) : z.Follows (Chip.arrayWrite c st v p w fs) := by
  unfold Chip.arrayWrite; try with_reducible dsimp only
  repeat' first | (with_reducible assumption) | exact hm.sub (by decide) | (with_reducible apply Chip.mxCheck_follows) | (with_reducible apply Chip.setRow_follows) | (with_reducible apply Chip.write_follows) | (with_reducible apply Chip.addReg_follows) | (with_reducible apply Chip.setReg_follows) | (with_reducible apply follows_ite)

theorem Chip.mxRowWrite_follows {z : Kept} {c : Chip} (st : Nat) (fs : LaneFaults) (hz : z.Follows c) (hm : z.Free [.regs, .mem, .ecc, .cmp, .flt, .free]) : z.Follows (Chip.mxRowWrite c st fs) := by
  unfold Chip.mxRowWrite; try with_reducible dsimp only
  repeat' first | (with_reducible assumption) | exact hm.sub (by decide) | (with_reducible apply Chip.arrayWrite_follows) | (with_reducible apply Chip.setMx_follows) | (with_reducible apply Chip.stall_follows) | (with_reducible apply follows_eachDo) | (with_reducible apply follows_ite) | intro _ _ _ | split

theorem Chip.hsd_follows {z : Kept} {c : Chip} (d : Nat) (f : Chip → Chip) (hz : z.Follows c) (hf : ∀ k0, z.Follows k0 → z.Follows (f k0)) : z.Follows (Chip.hsd c d f) := by
  unfold Chip.hsd; try with_reducible dsimp only
  repeat' first | (with_reducible assumption) | (with_reducible apply hf) | (with_reducible apply Chip.live_follows) | (with_reducible apply Chip.awake_follows) | (with_reducible apply follows_ite)

theorem Chip.sramWriteback_follows {z : Kept} {c : Chip} (d : Nat) (hz : z.Follows c) (hm : z.Free [.ecc]) : z.Follows (Chip.sramWriteback c d) := by
  unfold Chip.sramWriteback; try with_reducible dsimp only
  repeat' first | (with_reducible assumption) | split | exact rfl | exact Nat.le_refl _ | (with_reducible apply follows_upd hm) | (intro x; cases x <;> first | exact .inl (by decide) | exact .inr rfl)

theorem Chip.sramScrub_follows {z : Kept} {c : Chip} (d b : Nat) (ups : Upsets) (hz : z.Follows c) (hm : z.Free [.regs, .ecc, .flt, .free]) : z.Follows (Chip.sramScrub c d b ups) := by
  unfold Chip.sramScrub; try with_reducible dsimp only
  repeat' first | (with_reducible assumption) | exact hm.sub (by decide) | (with_reducible apply Chip.read_follows) | (with_reducible apply Chip.setReg_follows) | (with_reducible apply follows_ite) | split | exact rfl | exact Nat.le_refl _ | (with_reducible apply follows_upd hm) | (intro x; cases x <;> first | exact .inl (by decide) | exact .inr rfl)

theorem Chip.sramScrubForced_follows {z : Kept} {c : Chip} (d b : Nat) (ups : Upsets) (hz : z.Follows c) (hm : z.Free [.regs, .ecc, .flt, .free]) : z.Follows (Chip.sramScrubForced c d b ups) := by
  unfold Chip.sramScrubForced; try with_reducible dsimp only
  repeat' first | (with_reducible assumption) | exact hm.sub (by decide) | (with_reducible apply Chip.sramScrub_follows) | (with_reducible apply Chip.latchIf_follows) | (with_reducible apply Chip.raise_follows) | (with_reducible apply follows_ite)

theorem Chip.ddrRequest_follows {z : Kept} {c : Chip} (d : Nat) (r : DdrReq) (ups : Upsets) (hz : z.Follows c) (hm : z.Free [.regs, .mem, .ecc, .flt, .free]) : z.Follows (Chip.ddrRequest c d r ups) := by
  unfold Chip.ddrRequest; try with_reducible dsimp only
  repeat' first | (with_reducible assumption) | exact hm.sub (by decide) | (with_reducible apply Chip.read_follows) | (with_reducible apply Chip.hsPut_follows) | (with_reducible apply Chip.access_follows) | (with_reducible apply Chip.upset_follows) | (with_reducible apply Chip.setPois_follows) | (with_reducible apply Chip.poke_follows) | (with_reducible apply follows_eachDo) | (with_reducible apply follows_ite) | intro _ _ _ | split

theorem Chip.ddrRefresh_follows {z : Kept} {c : Chip} (d sub rank : Nat) (hz : z.Follows c) (hm : z.Free [.ecc]) : z.Follows (Chip.ddrRefresh c d sub rank) := by
  unfold Chip.ddrRefresh; try with_reducible dsimp only
  repeat' first | (with_reducible assumption) | split | exact rfl | exact Nat.le_refl _ | (with_reducible apply follows_upd hm) | (intro x; cases x <;> first | exact .inl (by decide) | exact .inr rfl)

theorem Chip.mr4Read_follows {z : Kept} {c : Chip} (d sub rank code : Nat) (hot : Bool) (hz : z.Follows c) (hm : z.Free [.regs, .flt]) : z.Follows (Chip.mr4Read c d sub rank code hot) := by
  unfold Chip.mr4Read; try with_reducible dsimp only
  repeat' first | (with_reducible assumption) | exact hm.sub (by decide) | (with_reducible apply Chip.latchIf_follows) | (with_reducible apply Chip.raise_follows) | (with_reducible apply Chip.setFld_follows) | (with_reducible apply follows_ite)

theorem Chip.rfm_follows {z : Kept} {c : Chip} (d sub b : Nat) (hz : z.Follows c) (hm : z.Free [.regs, .ecc]) : z.Follows (Chip.rfm c d sub b) := by
  unfold Chip.rfm; try with_reducible dsimp only
  repeat' first | (with_reducible assumption) | (with_reducible apply Chip.rfmBank_follows) | (with_reducible apply follows_ite)

theorem Chip.dqsCheck_follows {z : Kept} {c : Chip} (d sub rank count : Nat) (marginOk : Bool) (hz : z.Follows c) (hm : z.Free [.regs, .ecc, .flt]) : z.Follows (Chip.dqsCheck c d sub rank count marginOk) := by
  unfold Chip.dqsCheck; try with_reducible dsimp only
  repeat' first | (with_reducible assumption) | exact hm.sub (by decide) | (with_reducible apply Chip.latchIf_follows) | (with_reducible apply Chip.raise_follows) | (with_reducible apply Chip.setFld_follows) | (with_reducible apply Chip.addReg_follows) | (with_reducible apply follows_ite) | split | exact rfl | exact Nat.le_refl _ | (with_reducible apply follows_upd hm) | (intro x; cases x <;> first | exact .inl (by decide) | exact .inr rfl)

theorem Chip.patrolScrub_follows {z : Kept} {c : Chip} (d sub : Nat) (ups : Upsets) (hz : z.Follows c) (hm : z.Free [.regs, .ecc, .flt]) : z.Follows (Chip.patrolScrub c d sub ups) := by
  unfold Chip.patrolScrub; try with_reducible dsimp only
  repeat' first | (with_reducible assumption) | exact hm.sub (by decide) | (with_reducible apply Chip.bursts_follows) | (with_reducible apply Chip.upset_follows) | (with_reducible apply Chip.addReg_follows) | (with_reducible apply Chip.setReg_follows) | (with_reducible apply follows_eachDo) | (with_reducible apply follows_ite) | intro _ _ _

theorem Chip.resWindowEnd_follows {z : Kept} {c : Chip} (d waiting : Nat) (hz : z.Follows c) (hm : z.Free [.regs, .ecc, .flt]) : z.Follows (Chip.resWindowEnd c d waiting) := by
  unfold Chip.resWindowEnd; try with_reducible dsimp only
  repeat' first | (with_reducible assumption) | exact hm.sub (by decide) | (with_reducible apply Chip.latchIf_follows) | (with_reducible apply Chip.raise_follows) | (with_reducible apply Chip.setFld_follows) | (with_reducible apply follows_eachDo) | intro _ _ _ | exact rfl | exact Nat.le_refl _ | (with_reducible apply follows_upd hm) | (intro x; cases x <;> first | exact .inl (by decide) | exact .inr rfl)

end Sys2Proof.Machine
end

