-- ==== Sys2Proof/Laws/FollowsTurn.lean ====
section
/-! SUPPORT. Laws/FollowsTurn.lean: every operation of the turn boundary, commands, supervision and blanks keeps what `Chip.Follows` says. -/
namespace Sys2Proof.Machine

theorem Chip.fwWrite_follows {z : Kept} {c : Chip} (a : Nat) (b : Bytes) (hz : z.Follows c) (hm : z.Free [.regs, .mem, .ecc, .free]) : z.Follows (Chip.fwWrite c a b) := by
  unfold Chip.fwWrite; try with_reducible dsimp only
  repeat' first | (with_reducible assumption) | exact hm.sub (by decide) | (with_reducible apply Chip.ddrAccess_follows) | (with_reducible apply Chip.setPois_follows) | (with_reducible apply Chip.poke_follows) | (with_reducible apply follows_eachDo) | intro _ _ _

theorem Chip.resolveCarry_follows {z : Kept} {c : Chip} (q : Nat) (hz : z.Follows c) (hm : z.Free [.regs, .mem, .ecc, .flt, .free]) : z.Follows (Chip.resolveCarry c q) := by
  unfold Chip.resolveCarry; try with_reducible dsimp only
  repeat' first | (with_reducible assumption) | (with_reducible apply Chip.rewriteHdr_follows) | (with_reducible apply follows_eachDo) | (with_reducible apply follows_ite) | intro _ _ _ | split

theorem Chip.boundaryQueue_follows {z : Kept} {c : Chip} (t q : Nat) (hz : z.Follows c) (hm : z.Free [.regs, .fab, .obs, .nv]) : z.Follows (Chip.boundaryQueue c t q) := by
  unfold Chip.boundaryQueue; try with_reducible dsimp only
  repeat' first | (with_reducible assumption) | exact hm.sub (by decide) | (with_reducible apply Chip.setQueue_follows) | (with_reducible apply Chip.shav_follows) | (with_reducible apply follows_ite)

theorem Chip.freshQueues_follows {z : Kept} {c : Chip} (hz : z.Follows c) (hm : z.Free [.fab]) : z.Follows (Chip.freshQueues c) := by
  unfold Chip.freshQueues; try with_reducible dsimp only
  repeat' first | (with_reducible assumption) | (with_reducible apply Chip.setQueue_follows) | (with_reducible apply follows_eachDo) | intro _ _ _

theorem Chip.closeWindows_follows {z : Kept} {c : Chip} (hz : z.Follows c) (hm : z.Free [.regs]) : z.Follows (Chip.closeWindows c) := by
  unfold Chip.closeWindows; try with_reducible dsimp only
  repeat' first | (with_reducible assumption) | (with_reducible apply Chip.clearRegs_follows)

theorem Chip.moveEnds_follows {z : Kept} {c : Chip} (f : Nat → Nat) (hz : z.Follows c) (hm : z.Free [.regs]) : z.Follows (c.moveEnds f) :=
  follows_regs (hm.sub (by decide)) hz _ (fun x => tabWf_tabMap 0#32 _ x)

theorem Chip.rebindBases_follows {z : Kept} {c : Chip} (d l k : Nat) (hz : z.Follows c) (hm : z.Free [.regs]) : z.Follows (Chip.rebindBases c d l k) := by
  unfold Chip.rebindBases; try with_reducible dsimp only
  repeat' first | (with_reducible assumption) | (with_reducible apply Chip.setReg64_follows) | (with_reducible apply follows_eachDo) | (with_reducible apply follows_ite) | intro _ _ _

theorem Chip.rebindCore_follows {z : Kept} {c : Chip} (d l a b : Nat) (hz : z.Follows c) (hm : z.Free [.regs]) : z.Follows (Chip.rebindCore c d l a b) := by
  unfold Chip.rebindCore; try with_reducible dsimp only
  repeat' first | (with_reducible assumption) | (with_reducible apply Chip.rebindBases_follows) | (with_reducible apply Chip.moveEnds_follows)

theorem Chip.setPhys_follows {z : Kept} {c : Chip} (d l k : Nat) (hz : z.Follows c) (hm : z.Free [.regs]) : z.Follows (Chip.setPhys c d l k) := by
  unfold Chip.setPhys; try with_reducible dsimp only
  repeat' first | (with_reducible assumption) | (with_reducible apply Chip.setFld_follows)

theorem Chip.setTest_follows {z : Kept} {c : Chip} (d k : Nat) (v : TestSt) (hz : z.Follows c) (hm : z.Free [.wrk]) : z.Follows (Chip.setTest c d k v) := by
  unfold Chip.setTest; try with_reducible dsimp only
  repeat' first | (with_reducible assumption) | exact rfl | exact Nat.le_refl _ | (with_reducible apply follows_upd hm) | (intro x; cases x <;> first | exact .inl (by decide) | exact .inr rfl)

theorem Chip.tsRaise_follows {z : Kept} {c : Chip} (d i cause detail : Nat) (esc : Bool) (hz : z.Follows c) (hm : z.Free [.regs, .wrk, .flt]) : z.Follows (Chip.tsRaise c d i cause detail esc) := by
  unfold Chip.tsRaise; try with_reducible dsimp only
  repeat' first | (with_reducible assumption) | exact hm.sub (by decide) | (with_reducible apply Chip.latchIf_follows) | (with_reducible apply Chip.raise_follows) | split | exact rfl | exact Nat.le_refl _ | (with_reducible apply follows_upd hm) | (intro x; cases x <;> first | exact .inl (by decide) | exact .inr rfl)

theorem Chip.restEnds_follows {z : Kept} {c : Chip} (d : Nat) (hz : z.Follows c) (hm : z.Free [.regs, .wrk, .flt]) : z.Follows (Chip.restEnds c d) := by
  unfold Chip.restEnds; try with_reducible dsimp only
  repeat' first | (with_reducible assumption) | exact hm.sub (by decide) | (with_reducible apply Chip.tsRaise_follows) | (with_reducible apply Chip.setTest_follows) | (with_reducible apply Chip.setFld_follows) | (with_reducible apply follows_ite) | split

theorem Chip.restBegins_follows {z : Kept} {c : Chip} (d t : Nat) (hz : z.Follows c) (hm : z.Free [.wrk]) : z.Follows (Chip.restBegins c d t) := by
  unfold Chip.restBegins; try with_reducible dsimp only
  repeat' first | (with_reducible assumption) | (with_reducible apply Chip.setTest_follows) | (with_reducible apply follows_ite) | split

theorem Chip.rotate_follows {z : Kept} {c : Chip} (d : Nat) (hz : z.Follows c) (hm : z.Free [.regs]) : z.Follows (Chip.rotate c d) := by
  unfold Chip.rotate; try with_reducible dsimp only
  repeat' first | (with_reducible assumption) | (with_reducible apply Chip.setPhys_follows) | (with_reducible apply Chip.rebindCore_follows) | (with_reducible apply Chip.setFld_follows) | split

theorem Chip.keepCores_follows {z : Kept} {c : Chip} (d : Nat) (hz : z.Follows c) (hm : z.Free [.boot]) : z.Follows (Chip.keepCores c d) := by
  unfold Chip.keepCores; try with_reducible dsimp only
  repeat' first | (with_reducible assumption) | exact rfl | exact Nat.le_refl _ | (with_reducible apply follows_upd hm) | (intro x; cases x <;> first | exact .inl (by decide) | exact .inr rfl)

theorem Chip.withdraw_follows {z : Kept} {c : Chip} (d k : Nat) (hz : z.Follows c) (hm : z.Free [.regs, .wrk, .flt, .obs, .boot, .nv]) : z.Follows (Chip.withdraw c d k) := by
  unfold Chip.withdraw; try with_reducible dsimp only
  repeat' first | (with_reducible assumption) | exact hm.sub (by decide) | (with_reducible apply Chip.keepCores_follows) | (with_reducible apply Chip.tsRaise_follows) | (with_reducible apply Chip.shav_follows) | (with_reducible apply Chip.setReg_follows)

theorem Chip.coreStep_follows {z : Kept} {c : Chip} (t d : Nat) (hz : z.Follows c) (hm : z.Free [.regs, .wrk, .flt, .obs, .boot, .nv]) : z.Follows (Chip.coreStep c t d) := by
  unfold Chip.coreStep; try with_reducible dsimp only
  repeat' first | (with_reducible assumption) | exact hm.sub (by decide) | (with_reducible apply Chip.withdraw_follows) | (with_reducible apply Chip.rotate_follows) | (with_reducible apply Chip.restBegins_follows) | (with_reducible apply follows_ite) | split

theorem Chip.mapAt_follows {z : Kept} {c : Chip} (d t : Nat) (hz : z.Follows c) (hm : z.Free [.regs]) : z.Follows (Chip.mapAt c d t) := by
  unfold Chip.mapAt; try with_reducible dsimp only
  repeat' first | (with_reducible assumption) | (with_reducible apply Chip.setPhys_follows) | (with_reducible apply Chip.setFld_follows) | (with_reducible apply follows_eachDo) | intro _ _ _

theorem Chip.setPresent_follows {z : Kept} {c : Chip} (s : Nat) (hz : z.Follows c) (hm : z.Free [.wrk]) : z.Follows (Chip.setPresent c s) := by
  unfold Chip.setPresent; try with_reducible dsimp only
  repeat' first | (with_reducible assumption) | (with_reducible apply Chip.modPart_follows)

theorem Chip.missImage_follows {z : Kept} {c : Chip} (s : Nat) (g : RingCfg) (hz : z.Follows c) (hm : z.Free [.regs, .flt]) : z.Follows (Chip.missImage c s g) := by
  unfold Chip.missImage; try with_reducible dsimp only
  repeat' first | (with_reducible assumption) | exact hm.sub (by decide) | (with_reducible apply Chip.epLatch_follows) | (with_reducible apply Chip.spLatch_follows) | (with_reducible apply Chip.raise_follows) | (with_reducible apply Chip.setFld_follows) | (with_reducible apply follows_ite)

theorem Chip.mapFill_follows {z : Kept} {c : Chip} (s : Nat) (g : RingCfg) (t : Nat) (hz : z.Follows c) (hm : z.Free [.regs, .mem, .ecc, .sns, .free]) : z.Follows (Chip.mapFill c s g t) := by
  unfold Chip.mapFill; try with_reducible dsimp only
  repeat' first | (with_reducible assumption) | exact hm.sub (by decide) | (with_reducible apply Chip.fwWrite_follows) | (with_reducible apply Chip.setRing_follows)

theorem Chip.outdated_follows {z : Kept} {c : Chip} (t s : Nat) (hz : z.Follows c) (hm : z.Free [.regs, .obs, .sns, .nv]) : z.Follows (Chip.outdated c t s) := by
  unfold Chip.outdated; try with_reducible dsimp only
  repeat' first | (with_reducible assumption) | exact hm.sub (by decide) | (with_reducible apply Chip.noteDrop_follows) | (with_reducible apply Chip.setRing_follows) | (with_reducible apply follows_eachDo) | intro _ _ _

theorem Chip.remap_follows {z : Kept} {c : Chip} (t s : Nat) (hz : z.Follows c) (hm : z.Free [.regs, .mem, .ecc, .wrk, .flt, .obs, .sns, .nv, .free]) : z.Follows (Chip.remap c t s) := by
  unfold Chip.remap; try with_reducible dsimp only
  repeat' first | (with_reducible assumption) | exact hm.sub (by decide) | (with_reducible apply Chip.outdated_follows) | (with_reducible apply Chip.mapFill_follows) | (with_reducible apply Chip.missImage_follows) | (with_reducible apply Chip.setPresent_follows) | (with_reducible apply Chip.noteDrop_follows) | (with_reducible apply Chip.setRing_follows) | (with_reducible apply Chip.shav_follows) | (with_reducible apply Chip.setFld_follows) | (with_reducible apply follows_eachDo) | (with_reducible apply follows_ite) | intro _ _ _ | split

theorem Chip.freshRings_follows {z : Kept} {c : Chip} (t : Nat) (hz : z.Follows c) (hm : z.Free [.regs, .mem, .ecc, .sns, .free]) : z.Follows (Chip.freshRings c t) := by
  unfold Chip.freshRings; try with_reducible dsimp only
  repeat' first | (with_reducible assumption) | exact hm.sub (by decide) | (with_reducible apply Chip.mapFill_follows) | (with_reducible apply Chip.setRing_follows) | (with_reducible apply follows_eachDo) | intro _ _ _ | split

theorem Chip.clearLists_follows {z : Kept} {c : Chip} (hz : z.Follows c) (hm : z.Free [.regs, .fab, .cmp]) : z.Follows (Chip.clearLists c) := by
  unfold Chip.clearLists; try with_reducible dsimp only
  repeat' first | (with_reducible assumption) | exact hm.sub (by decide) | (with_reducible apply Chip.clearRegs_follows) | split | exact rfl | exact Nat.le_refl _ | (with_reducible apply follows_upd hm) | (intro x; cases x <;> first | exact .inl (by decide) | exact .inr rfl)

theorem Chip.giveList_follows {z : Kept} {c : Chip} (k addr n : Nat) (hz : z.Follows c) (hm : z.Free [.regs, .fab]) : z.Follows (Chip.giveList c k addr n) := by
  unfold Chip.giveList; try with_reducible dsimp only
  repeat' first | (with_reducible assumption) | exact hm.sub (by decide) | (with_reducible apply Chip.setFld_follows) | (with_reducible apply Chip.setReg64_follows) | (with_reducible apply Chip.setReg_follows) | (with_reducible apply follows_ite) | split | exact rfl | exact Nat.le_refl _ | (with_reducible apply follows_upd hm) | (intro x; cases x <;> first | exact .inl (by decide) | exact .inr rfl)

theorem Chip.stationList_follows {z : Kept} {c : Chip} (key n : Nat) (hz : z.Follows c) (hm : z.Free [.regs, .mem, .ecc, .fab, .free]) : z.Follows (Chip.stationList c key n).1 := by
  unfold Chip.stationList; try with_reducible dsimp only
  repeat' first | (with_reducible assumption) | exact hm.sub (by decide) | (with_reducible apply Chip.giveList_follows) | (with_reducible apply Chip.fwWrite_follows) | split

theorem Chip.dieLists_follows {z : Kept} {c : Chip} (keys : List Nat) (d : Nat) (hz : z.Follows c) (hm : z.Free [.regs, .mem, .ecc, .fab, .free]) : z.Follows (c.dieLists keys d) :=
  follows_foldl (fun s k h => Chip.stationList_follows k s.2 h (hm.sub (by decide))) _ _ hz

theorem Chip.writeLists_follows {z : Kept} {c : Chip} (hz : z.Follows c) (hm : z.Free [.regs, .mem, .ecc, .fab, .cmp, .free]) : z.Follows (Chip.writeLists c) := by
  unfold Chip.writeLists; try with_reducible dsimp only
  repeat' first | (with_reducible assumption) | exact hm.sub (by decide) | (with_reducible apply Chip.dieLists_follows) | (with_reducible apply Chip.clearLists_follows) | (with_reducible apply follows_eachDo) | intro _ _ _

theorem Chip.dueSi_follows {z : Kept} {c : Chip} (hz : z.Follows c) (hm : z.Free [.regs, .mem, .ecc, .fab, .sns, .free]) : z.Follows (Chip.dueSi c) := by
  unfold Chip.dueSi; try with_reducible dsimp only
  repeat' first | (with_reducible assumption) | exact hm.sub (by decide) | (with_reducible apply Chip.giveList_follows) | (with_reducible apply Chip.fwWrite_follows) | (with_reducible apply Chip.modSp_follows) | (with_reducible apply follows_eachDo) | intro _ _ _

theorem Chip.bindFw_follows {z : Kept} {c : Chip} (d cmpStn q prod : Nat) (hz : z.Follows c) (hm : z.Free [.regs, .fab]) : z.Follows (Chip.bindFw c d cmpStn q prod) := by
  unfold Chip.bindFw; try with_reducible dsimp only
  repeat' first | (with_reducible assumption) | exact hm.sub (by decide) | (with_reducible apply Chip.setQueue_follows) | (with_reducible apply Chip.setReg64_follows)

theorem Chip.bindBlank_follows {z : Kept} {c : Chip} (t d : Nat) (hz : z.Follows c) (hm : z.Free [.regs, .fab]) : z.Follows (Chip.bindBlank c t d) := by
  unfold Chip.bindBlank; try with_reducible dsimp only
  repeat' first | (with_reducible assumption) | exact hm.sub (by decide) | (with_reducible apply Chip.bindFw_follows) | (with_reducible apply Chip.setReg_follows) | (with_reducible apply follows_eachDo) | (with_reducible apply follows_ite) | intro _ _ _

theorem Chip.asLoaded_follows {z : Kept} {c : Chip} (p : Nat) (hz : z.Follows c) (hm : z.Free [.regs]) : z.Follows (c.asLoaded p) :=
  follows_regs (hm.sub (by decide)) hz _ (fun x => tabWf_foldl_tabSet 0#32 _ x)

theorem Chip.resetPart_follows {z : Kept} {c : Chip} (p : Nat) (hz : z.Follows c) (hm : z.Free [.regs, .fab, .ses]) : z.Follows (Chip.resetPart c p) := by
  unfold Chip.resetPart; try with_reducible dsimp only
  repeat' first | (with_reducible assumption) | exact hm.sub (by decide) | (with_reducible apply Chip.asLoaded_follows) | (with_reducible apply Chip.rebindBases_follows) | (with_reducible apply Chip.moveEnds_follows) | (with_reducible apply Chip.clearRegs_follows) | (with_reducible apply Chip.modSess_follows) | (with_reducible apply Chip.setQueue_follows) | (with_reducible apply Chip.setFld_follows) | (with_reducible apply follows_eachDo) | intro _ _ _

theorem Chip.usePkg_follows {z : Kept} {c : Chip} (s : Nat) (hz : z.Follows c) (hm : z.Free [.regs, .boot]) : z.Follows (Chip.usePkg c s) := by
  unfold Chip.usePkg; try with_reducible dsimp only
  repeat' first | (with_reducible assumption) | exact hm.sub (by decide) | (with_reducible apply Chip.setReg_follows) | (with_reducible apply follows_eachDo) | intro _ _ _ | split | exact rfl | exact Nat.le_refl _ | (with_reducible apply follows_upd hm) | (intro x; cases x <;> first | exact .inl (by decide) | exact .inr rfl)

theorem Chip.applySessions_follows {z : Kept} {c : Chip} (hz : z.Follows c) (hm : z.Free [.ses]) : z.Follows (Chip.applySessions c) := by
  unfold Chip.applySessions; try with_reducible dsimp only
  repeat' first | (with_reducible assumption) | (with_reducible apply Chip.modSess_follows) | (with_reducible apply follows_eachDo) | intro _ _ _ | split

theorem Chip.armDumps_follows {z : Kept} {c : Chip} (t : Nat) (hz : z.Follows c) (hm : z.Free [.regs]) : z.Follows (Chip.armDumps c t) := by
  unfold Chip.armDumps; try with_reducible dsimp only
  repeat' first | (with_reducible assumption) | (with_reducible apply Chip.clearRegs_follows) | (with_reducible apply Chip.setReg_follows) | (with_reducible apply follows_eachDo) | intro _ _ _

theorem Chip.closeTurn_follows {z : Kept} {c : Chip} (hz : z.Follows c) (hm : z.Free [.regs, .wrk, .flt]) : z.Follows (Chip.closeTurn c) := by
  unfold Chip.closeTurn; try with_reducible dsimp only
  repeat' first | (with_reducible assumption) | exact hm.sub (by decide) | (with_reducible apply Chip.restEnds_follows) | (with_reducible apply Chip.modPart_follows) | (with_reducible apply Chip.setFld_follows) | (with_reducible apply Chip.orReg_follows) | (with_reducible apply follows_eachDo) | (with_reducible apply follows_ite) | intro _ _ _

theorem Chip.freshTurn_follows {z : Kept} {c : Chip} (t : Nat) (hz : z.Follows c) (hm : z.Free [.regs, .ecc, .lnk, .wrk]) : z.Follows (Chip.freshTurn c t) := by
  unfold Chip.freshTurn; try with_reducible dsimp only
  repeat' first | (with_reducible assumption) | exact hm.sub (by decide) | (with_reducible apply Chip.clearRegs_follows) | split | exact rfl | exact Nat.le_refl _ | (with_reducible apply follows_upd hm) | (intro x; cases x <;> first | exact .inl (by decide) | exact .inr rfl)

theorem Chip.launchJobs_follows {z : Kept} {c : Chip} (t : Nat) (hz : z.Follows c) (hm : z.Free [.wrk]) : z.Follows (Chip.launchJobs c t) := by
  unfold Chip.launchJobs; try with_reducible dsimp only
  repeat' first | (with_reducible assumption) | (with_reducible apply Chip.setJob_follows) | (with_reducible apply follows_eachDo) | intro _ _ _

theorem Chip.beginTurn_follows {z : Kept} {c : Chip} (t : Nat) (stepped : Bool) (hz : z.Follows c) (hm : z.Free [.regs]) : z.Follows (Chip.beginTurn c t stepped) := by
  unfold Chip.beginTurn; try with_reducible dsimp only
  repeat' first | (with_reducible assumption) | (with_reducible apply Chip.setReg64_follows) | (with_reducible apply Chip.setReg_follows)

theorem Chip.boundaryStep_follows {z : Kept} {c : Chip} (hz : z.Follows c) (hm : z.Free [.tb, .regs, .flt, .net]) : z.Follows (Chip.boundaryStep c).2 := by
  unfold Chip.boundaryStep; try with_reducible dsimp only
  repeat' first | (with_reducible assumption) | exact hm.sub (by decide) | (with_reducible apply Chip.stepTime_follows) | (with_reducible apply Chip.setTb_follows) | split | exact rfl | exact Nat.le_refl _ | (with_reducible apply follows_upd hm) | (intro x; cases x <;> first | exact .inl (by decide) | exact .inr rfl)

theorem Chip.boundaryPower_follows {z : Kept} {c : Chip} (hz : z.Follows c) (hm : z.Free [.regs, .pwr]) : z.Follows (Chip.boundaryPower c) := by
  unfold Chip.boundaryPower; try with_reducible dsimp only
  repeat' first | (with_reducible assumption) | exact hm.sub (by decide) | (with_reducible apply Chip.setReg_follows) | split | exact rfl | exact Nat.le_refl _ | (with_reducible apply follows_upd hm) | (intro x; cases x <;> first | exact .inl (by decide) | exact .inr rfl)

theorem Chip.boundaryQueues_follows {z : Kept} {c : Chip} (t : Nat) (hz : z.Follows c) (hm : z.Free [.regs, .mem, .ecc, .fab, .wrk, .flt, .obs, .boot, .ses, .nv, .free]) : z.Follows (Chip.boundaryQueues c t) := by
  unfold Chip.boundaryQueues; try with_reducible dsimp only
  repeat' first | (with_reducible assumption) | exact hm.sub (by decide) | (with_reducible apply Chip.resetPart_follows) | (with_reducible apply Chip.coreStep_follows) | (with_reducible apply Chip.closeWindows_follows) | (with_reducible apply Chip.boundaryQueue_follows) | (with_reducible apply Chip.resolveCarry_follows) | (with_reducible apply Chip.modPart_follows) | (with_reducible apply follows_eachDo) | (with_reducible apply follows_ite) | intro _ _ _

theorem Chip.boundaryJobs_follows {z : Kept} {c : Chip} (old t : Nat) (hz : z.Follows c) (hm : z.Free [.regs, .mem, .ecc, .fab, .cmp, .wrk, .flt, .obs, .sns, .pwr, .nv, .free]) : z.Follows (Chip.boundaryJobs c old t) := by
  unfold Chip.boundaryJobs; try with_reducible dsimp only
  repeat' first | (with_reducible assumption) | exact hm.sub (by decide) | (with_reducible apply Chip.launchJobs_follows) | (with_reducible apply Chip.bindBlank_follows) | (with_reducible apply Chip.dueSi_follows) | (with_reducible apply Chip.writeLists_follows) | (with_reducible apply Chip.freshRings_follows) | (with_reducible apply Chip.remap_follows) | (with_reducible apply Chip.freshQueues_follows) | (with_reducible apply follows_eachDo) | intro _ _ _ | split | exact rfl | exact Nat.le_refl _ | (with_reducible apply follows_upd hm) | (intro x; cases x <;> first | exact .inl (by decide) | exact .inr rfl)

theorem Chip.boundaryWork_follows {z : Kept} {c : Chip} (t : Nat) (run stepped : Bool) (hz : z.Follows c) (hm : z.Free [.regs, .mem, .ecc, .fab, .cmp, .lnk, .wrk, .flt, .obs, .sns, .boot, .ses, .pwr, .nv, .free]) : z.Follows (Chip.boundaryWork c t run stepped) := by
  unfold Chip.boundaryWork; try with_reducible dsimp only
  repeat' first | (with_reducible assumption) | exact hm.sub (by decide) | (with_reducible apply Chip.boundaryJobs_follows) | (with_reducible apply Chip.boundaryQueues_follows) | (with_reducible apply Chip.beginTurn_follows) | (with_reducible apply Chip.freshTurn_follows) | (with_reducible apply Chip.armDumps_follows) | (with_reducible apply Chip.applySessions_follows) | (with_reducible apply Chip.usePkg_follows) | (with_reducible apply Chip.clearLists_follows) | (with_reducible apply follows_ite)

theorem Chip.turnBoundary_follows {z : Kept} {c : Chip} (env : BoundaryEnv) (hz : z.Follows c) (hm : z.Free [.tb, .regs, .mem, .ecc, .fab, .cmp, .lnk, .wrk, .flt, .obs, .sns, .net, .boot, .ses, .pwr, .nv, .free]) : z.Follows (Chip.turnBoundary c env) := by
  unfold Chip.turnBoundary; try with_reducible dsimp only
  repeat' first | (with_reducible assumption) | exact hm.sub (by decide) | (with_reducible apply Chip.boundaryWork_follows) | (with_reducible apply Chip.boundaryPower_follows) | (with_reducible apply Chip.boundaryStep_follows) | (with_reducible apply Chip.beginTurn_follows) | (with_reducible apply Chip.launchJobs_follows) | (with_reducible apply Chip.closeTurn_follows) | (with_reducible apply Chip.armDumps_follows) | (with_reducible apply Chip.applySessions_follows) | (with_reducible apply Chip.bindBlank_follows) | (with_reducible apply Chip.dueSi_follows) | (with_reducible apply Chip.writeLists_follows) | (with_reducible apply Chip.restBegins_follows) | (with_reducible apply Chip.boundaryCounters_follows) | (with_reducible apply Chip.spLock_follows) | (with_reducible apply Chip.shav_follows) | (with_reducible apply Chip.advanceTo_follows) | (with_reducible apply Chip.setFld_follows) | (with_reducible apply follows_eachDo) | (with_reducible apply follows_ite) | intro _ _ _

theorem Chip.skipCmd_follows {z : Kept} {c : Chip} (k ix s : Nat) (hz : z.Follows c) (hm : z.Free [.regs, .fab]) : z.Follows (Chip.skipCmd c k ix s) := by
  unfold Chip.skipCmd; try with_reducible dsimp only
  repeat' first | (with_reducible assumption) | exact hm.sub (by decide) | (with_reducible apply Chip.noteStatus_follows) | (with_reducible apply Chip.addReg_follows)

theorem Chip.endTask_follows {z : Kept} {c : Chip} (d t : Nat) (hz : z.Follows c) (hm : z.Free [.wrk]) : z.Follows (Chip.endTask c d t) := by
  unfold Chip.endTask; try with_reducible dsimp only
  repeat' first | (with_reducible assumption) | (with_reducible apply Chip.setTask_follows) | (with_reducible apply Chip.noteEnd_follows) | (with_reducible apply follows_ite)

theorem Chip.taskDone_follows {z : Kept} {c : Chip} (k j : Nat) (hz : z.Follows c) (hm : z.Free [.lnk, .wrk]) : z.Follows (Chip.taskDone c k j) := by
  unfold Chip.taskDone; try with_reducible dsimp only
  repeat' first | (with_reducible assumption) | exact hm.sub (by decide) | (with_reducible apply Chip.endTask_follows) | (with_reducible apply Chip.settle_follows) | (with_reducible apply follows_ite)

theorem Chip.launch_follows {z : Kept} {c : Chip} (k desc j : Nat) (ups : Upsets) (hz : z.Follows c) (hm : z.Free [.regs, .ecc, .fab, .cmp, .lnk, .wrk, .flt, .obs, .nv, .free]) : z.Follows (Chip.launch c k desc j ups) := by
  unfold Chip.launch; try with_reducible dsimp only
  repeat' first | (with_reducible assumption) | exact hm.sub (by decide) | (with_reducible apply Chip.skipCmd_follows) | (with_reducible apply Chip.startCounters_follows) | (with_reducible apply Chip.snapshot_follows) | (with_reducible apply Chip.consume_follows) | (with_reducible apply Chip.read_follows) | (with_reducible apply Chip.modStation_follows) | (with_reducible apply Chip.setFld_follows) | (with_reducible apply follows_ite) | split

theorem Chip.commandStart_follows {z : Kept} {c : Chip} (k : Nat) (ups : Upsets) (hz : z.Follows c) (hm : z.Free [.regs, .ecc, .fab, .cmp, .lnk, .wrk, .flt, .obs, .nv, .free]) : z.Follows (Chip.commandStart c k ups) := by
  unfold Chip.commandStart; try with_reducible dsimp only
  repeat' first | (with_reducible assumption) | exact hm.sub (by decide) | (with_reducible apply Chip.launch_follows) | (with_reducible apply Chip.stall_follows) | (with_reducible apply Chip.modStation_follows) | (with_reducible apply follows_ite) | split

theorem Chip.resume_follows {z : Kept} {c : Chip} (st : Nat) (hz : z.Follows c) (hm : z.Free [.regs, .fab, .cmp]) : z.Follows (Chip.resume c st) := by
  unfold Chip.resume; try with_reducible dsimp only
  repeat' first | (with_reducible assumption) | exact hm.sub (by decide) | (with_reducible apply Chip.stallAt_follows) | (with_reducible apply Chip.setStation_follows) | (with_reducible apply follows_eachDo) | (with_reducible apply follows_ite) | intro _ _ _ | split | exact rfl | exact Nat.le_refl _ | (with_reducible apply follows_upd hm) | (intro x; cases x <;> first | exact .inl (by decide) | exact .inr rfl)

theorem Chip.endRegs_follows {z : Kept} {c : Chip} (st : Nat) (r : Run) (hz : z.Follows c) (hm : z.Free [.regs]) : z.Follows (Chip.endRegs c st r) := by
  unfold Chip.endRegs; try with_reducible dsimp only
  repeat' first | (with_reducible assumption) | (with_reducible apply Chip.setReg_follows) | (with_reducible apply follows_ite)

theorem Chip.commandComplete_follows {z : Kept} {c : Chip} (k : Nat) (hz : z.Follows c) (hm : z.Free [.regs, .fab, .cmp, .lnk, .wrk, .obs]) : z.Follows (Chip.commandComplete c k) := by
  unfold Chip.commandComplete; try with_reducible dsimp only
  repeat' first | (with_reducible assumption) | exact hm.sub (by decide) | (with_reducible apply Chip.endRegs_follows) | (with_reducible apply Chip.resume_follows) | (with_reducible apply Chip.taskDone_follows) | (with_reducible apply Chip.snapshot_follows) | (with_reducible apply Chip.endReal_follows) | (with_reducible apply Chip.modStation_follows) | (with_reducible apply follows_ite) | split

theorem Chip.openHsd_follows {z : Kept} {c : Chip} (j desc : Nat) (hz : z.Follows c) (hm : z.Free [.regs]) : z.Follows (Chip.openHsd c j desc) := by
  unfold Chip.openHsd; try with_reducible dsimp only
  repeat' first | (with_reducible assumption) | (with_reducible apply Chip.putWindow_follows) | (with_reducible apply follows_ite) | split

theorem Chip.taskRelease_follows {z : Kept} {c : Chip} (j : Nat) (hz : z.Follows c) (hm : z.Free [.tb, .regs, .lnk, .wrk]) : z.Follows (Chip.taskRelease c j) := by
  unfold Chip.taskRelease; try with_reducible dsimp only
  repeat' first | (with_reducible assumption) | exact hm.sub (by decide) | (with_reducible apply Chip.openHsd_follows) | (with_reducible apply Chip.endTask_follows) | (with_reducible apply Chip.settle_follows) | (with_reducible apply Chip.setTask_follows) | (with_reducible apply Chip.advanceTo_follows) | (with_reducible apply follows_eachDo) | (with_reducible apply follows_ite) | intro _ _ _

theorem Chip.timeoutRuns_follows {z : Kept} {c : Chip} (j : Nat) (hz : z.Follows c) (hm : z.Free [.regs, .fab]) : z.Follows (Chip.timeoutRuns c j) := by
  unfold Chip.timeoutRuns; try with_reducible dsimp only
  repeat' first | (with_reducible assumption) | (with_reducible apply Chip.endReal_follows) | (with_reducible apply follows_eachDo) | intro _ _ _

theorem Chip.noteMiss_follows {z : Kept} {c : Chip} (p j b : Nat) (hz : z.Follows c) (hm : z.Free [.regs, .wrk, .flt]) : z.Follows (Chip.noteMiss c p j b) := by
  unfold Chip.noteMiss; try with_reducible dsimp only
  repeat' first | (with_reducible assumption) | exact hm.sub (by decide) | (with_reducible apply Chip.modPart_follows) | (with_reducible apply Chip.escalate_follows) | (with_reducible apply Chip.setFld_follows) | (with_reducible apply follows_ite)

theorem Chip.timeFault_follows {z : Kept} {c : Chip} (d k i : Nat) (hz : z.Follows c) (hm : z.Free [.regs, .wrk, .flt]) : z.Follows (Chip.timeFault c d k i) := by
  unfold Chip.timeFault; try with_reducible dsimp only
  repeat' first | (with_reducible assumption) | (with_reducible apply Chip.tsRaise_follows)

theorem Chip.missJob_follows {z : Kept} {c : Chip} (d j code : Nat) (hz : z.Follows c) (hm : z.Free [.regs, .fab, .cmp, .lnk, .wrk, .flt, .obs, .nv]) : z.Follows (Chip.missJob c d j code) := by
  unfold Chip.missJob; try with_reducible dsimp only
  repeat' first | (with_reducible assumption) | exact hm.sub (by decide) | (with_reducible apply Chip.noteMiss_follows) | (with_reducible apply Chip.timeoutRuns_follows) | (with_reducible apply Chip.settle_follows) | (with_reducible apply Chip.endJob_follows) | (with_reducible apply follows_ite)

theorem Chip.budgetExpiry_follows {z : Kept} {c : Chip} (d k : Nat) (hz : z.Follows c) (hm : z.Free [.tb, .regs, .fab, .cmp, .lnk, .wrk, .flt, .obs, .nv]) : z.Follows (Chip.budgetExpiry c d k) := by
  unfold Chip.budgetExpiry; try with_reducible dsimp only
  repeat' first | (with_reducible assumption) | exact hm.sub (by decide) | (with_reducible apply Chip.missJob_follows) | (with_reducible apply Chip.timeFault_follows) | (with_reducible apply Chip.advanceTo_follows) | (with_reducible apply follows_ite)

theorem Chip.deadlineExpiry_follows {z : Kept} {c : Chip} (j : Nat) (hz : z.Follows c) (hm : z.Free [.tb, .regs, .fab, .cmp, .lnk, .wrk, .flt, .obs, .nv]) : z.Follows (Chip.deadlineExpiry c j) := by
  unfold Chip.deadlineExpiry; try with_reducible dsimp only
  repeat' first | (with_reducible assumption) | exact hm.sub (by decide) | (with_reducible apply Chip.missJob_follows) | (with_reducible apply Chip.timeFault_follows) | (with_reducible apply Chip.advanceTo_follows) | (with_reducible apply follows_eachDo) | (with_reducible apply follows_ite) | intro _ _ _ | split

theorem Chip.stationReset_follows {z : Kept} {c : Chip} (st : Nat) (hz : z.Follows c) (hm : z.Free [.regs, .fab, .cmp]) : z.Follows (Chip.stationReset c st) := by
  unfold Chip.stationReset; try with_reducible dsimp only
  repeat' first | (with_reducible assumption) | exact hm.sub (by decide) | (with_reducible apply Chip.setStation_follows) | (with_reducible apply Chip.setFld_follows) | (with_reducible apply Chip.setReg64_follows) | (with_reducible apply Chip.setReg_follows) | (with_reducible apply follows_eachDo) | intro _ _ _ | exact rfl | exact Nat.le_refl _ | (with_reducible apply follows_upd hm) | (intro x; cases x <;> first | exact .inl (by decide) | exact .inr rfl)

theorem Chip.carverReset_follows {z : Kept} {c : Chip} (st : Nat) (hz : z.Follows c) (hm : z.Free [.regs, .fab, .cmp, .lnk, .wrk]) : z.Follows (Chip.carverReset c st) := by
  unfold Chip.carverReset; try with_reducible dsimp only
  repeat' first | (with_reducible assumption) | exact hm.sub (by decide) | (with_reducible apply Chip.stationReset_follows) | (with_reducible apply Chip.settle_follows) | (with_reducible apply follows_ite)

theorem Chip.segPass_follows {z : Kept} {c : Chip} (d k : Nat) (hz : z.Follows c) (hm : z.Free [.regs, .wrk]) : z.Follows (Chip.segPass c d k) := by
  unfold Chip.segPass; try with_reducible dsimp only
  repeat' first | (with_reducible assumption) | exact hm.sub (by decide) | (with_reducible apply Chip.setTest_follows) | (with_reducible apply Chip.setFld_follows) | (with_reducible apply Chip.setReg_follows) | (with_reducible apply follows_ite)

theorem Chip.segFail_follows {z : Kept} {c : Chip} (d k : Nat) (e : Repair) (hz : z.Follows c) (hm : z.Free [.regs, .ecc, .wrk, .flt, .boot]) : z.Follows (Chip.segFail c d k e) := by
  unfold Chip.segFail; try with_reducible dsimp only
  repeat' first | (with_reducible assumption) | exact hm.sub (by decide) | (with_reducible apply Chip.segPass_follows) | (with_reducible apply Chip.tsRaise_follows) | (with_reducible apply Chip.addRepair_follows) | (with_reducible apply follows_ite) | split | exact rfl | exact Nat.le_refl _ | (with_reducible apply follows_upd hm) | (intro x; cases x <;> first | exact .inl (by decide) | exact .inr rfl)

theorem Chip.segmentDone_follows {z : Kept} {c : Chip} (d k : Nat) (v : SegVerdict) (hz : z.Follows c) (hm : z.Free [.regs, .ecc, .wrk, .flt, .boot]) : z.Follows (Chip.segmentDone c d k v) := by
  unfold Chip.segmentDone; try with_reducible dsimp only
  repeat' first | (with_reducible assumption) | exact hm.sub (by decide) | (with_reducible apply Chip.segFail_follows) | (with_reducible apply Chip.segPass_follows) | (with_reducible apply follows_ite) | split

theorem Chip.sustain_follows {z : Kept} {c : Chip} (d i n : Nat) (hz : z.Follows c) (hm : z.Free [.regs, .wrk, .flt]) : z.Follows (Chip.sustain c d i n) := by
  unfold Chip.sustain; try with_reducible dsimp only
  repeat' first | (with_reducible assumption) | exact hm.sub (by decide) | (with_reducible apply Chip.tsRaise_follows) | (with_reducible apply Chip.setReg_follows) | (with_reducible apply follows_ite) | split | exact rfl | exact Nat.le_refl _ | (with_reducible apply follows_upd hm) | (intro x; cases x <;> first | exact .inl (by decide) | exact .inr rfl)

theorem Chip.noteExt_follows {z : Kept} {c : Chip} (d i ext : Nat) (hz : z.Follows c) (hm : z.Free [.regs]) : z.Follows (Chip.noteExt c d i ext) := by
  unfold Chip.noteExt; try with_reducible dsimp only
  repeat' first | (with_reducible assumption) | (with_reducible apply Chip.setReg_follows)

theorem Chip.countIdle_follows {z : Kept} {c : Chip} (d i n : Nat) (hz : z.Follows c) (hm : z.Free [.regs]) : z.Follows (Chip.countIdle c d i n) := by
  unfold Chip.countIdle; try with_reducible dsimp only
  repeat' first | (with_reducible assumption) | (with_reducible apply Chip.addReg48_follows) | (with_reducible apply follows_eachDo) | (with_reducible apply follows_ite) | intro _ _ _

theorem Chip.clockWindow_follows {z : Kept} {c : Chip} (d i n ext : Nat) (hz : z.Follows c) (hm : z.Free [.regs, .wrk, .flt]) : z.Follows (Chip.clockWindow c d i n ext) := by
  unfold Chip.clockWindow; try with_reducible dsimp only
  repeat' first | (with_reducible assumption) | exact hm.sub (by decide) | (with_reducible apply Chip.countIdle_follows) | (with_reducible apply Chip.noteExt_follows) | (with_reducible apply Chip.sustain_follows) | (with_reducible apply follows_ite)

theorem Chip.periodicTest_follows {z : Kept} {c : Chip} (bad : HsElem) (hz : z.Follows c) (hm : z.Free [.flt]) : z.Follows (Chip.periodicTest c bad) := by
  unfold Chip.periodicTest; try with_reducible dsimp only
  repeat' first | (with_reducible assumption) | (with_reducible apply Chip.rise_follows) | split

theorem Chip.holdStation_follows {z : Kept} {c : Chip} (k : Nat) (l : List Nat) (hz : z.Follows c) (hm : z.Free [.fab, .cmp]) : z.Follows (Chip.holdStation c k l) := by
  unfold Chip.holdStation; try with_reducible dsimp only
  repeat' first | (with_reducible assumption) | exact hm.sub (by decide) | (with_reducible apply Chip.setStation_follows) | split | exact rfl | exact Nat.le_refl _ | (with_reducible apply follows_upd hm) | (intro x; cases x <;> first | exact .inl (by decide) | exact .inr rfl)

theorem Chip.holdDie_follows {z : Kept} {c : Chip} (d : Nat) (hz : z.Follows c) (hm : z.Free [.regs, .fab, .cmp]) : z.Follows (Chip.holdDie c d) := by
  unfold Chip.holdDie; try with_reducible dsimp only
  repeat' first | (with_reducible assumption) | exact hm.sub (by decide) | (with_reducible apply Chip.holdStation_follows) | (with_reducible apply Chip.addReg_follows) | (with_reducible apply follows_eachDo) | (with_reducible apply follows_ite) | intro _ _ _

theorem Chip.slotStart_follows {z : Kept} {c : Chip} (hz : z.Follows c) (hm : z.Free [.tb, .regs, .fab, .cmp, .wrk]) : z.Follows (Chip.slotStart c) := by
  unfold Chip.slotStart; try with_reducible dsimp only
  repeat' first | (with_reducible assumption) | exact hm.sub (by decide) | (with_reducible apply Chip.holdDie_follows) | (with_reducible apply Chip.advanceTo_follows) | (with_reducible apply Chip.orReg_follows) | (with_reducible apply follows_eachDo) | (with_reducible apply follows_ite) | intro _ _ _ | split | exact rfl | exact Nat.le_refl _ | (with_reducible apply follows_upd hm) | (intro x; cases x <;> first | exact .inl (by decide) | exact .inr rfl)

theorem Chip.slotEnd_follows {z : Kept} {c : Chip} (hz : z.Follows c) (hm : z.Free [.tb, .regs, .fab, .cmp]) : z.Follows (Chip.slotEnd c) := by
  unfold Chip.slotEnd; try with_reducible dsimp only
  repeat' first | (with_reducible assumption) | exact hm.sub (by decide) | (with_reducible apply Chip.resume_follows) | (with_reducible apply Chip.advanceTo_follows) | (with_reducible apply Chip.setFld_follows) | (with_reducible apply follows_eachDo) | (with_reducible apply follows_ite) | intro _ _ _

theorem Chip.noteVerdict_follows {z : Kept} {c : Chip} (d v : Nat) (hz : z.Follows c) (hm : z.Free [.wrk]) : z.Follows (Chip.noteVerdict c d v) := by
  unfold Chip.noteVerdict; try with_reducible dsimp only
  repeat' first | (with_reducible assumption) | (with_reducible apply Chip.noteEnd_follows) | (with_reducible apply follows_eachDo) | intro _ _ _ | exact rfl | exact Nat.le_refl _ | (with_reducible apply follows_upd hm) | (intro x; cases x <;> first | exact .inl (by decide) | exact .inr rfl)

theorem Chip.blankVerdict_follows {z : Kept} {c : Chip} (d : Nat) (hz : z.Follows c) (hm : z.Free [.tb, .regs, .wrk, .flt]) : z.Follows (Chip.blankVerdict c d) := by
  unfold Chip.blankVerdict; try with_reducible dsimp only
  repeat' first | (with_reducible assumption) | exact hm.sub (by decide) | (with_reducible apply Chip.noteVerdict_follows) | (with_reducible apply Chip.latchIf_follows) | (with_reducible apply Chip.escalate_follows) | (with_reducible apply Chip.raise_follows) | (with_reducible apply Chip.advanceTo_follows) | (with_reducible apply Chip.setFld_follows) | (with_reducible apply follows_ite) | split

end Sys2Proof.Machine
end

