-- ==== Sys2Proof/Laws/FollowsVector.lean ====
section
/-! SUPPORT. Laws/FollowsVector.lean: every operation of the window, vector and box engines keeps what `Chip.Follows` says. -/
namespace Sys2Proof.Machine

theorem Chip.zRead_follows {z : Kept} {c : Chip} (st : Nat) (who : Reader) (ups : Upsets) (base off n : Nat) (hz : z.Follows c) (hm : z.Free [.regs, .ecc, .flt, .free]) : z.Follows (Chip.zRead c st who ups base off n).1 := by
  unfold Chip.zRead; try with_reducible dsimp only
  repeat' first | (with_reducible assumption) | exact hm.sub (by decide) | (with_reducible apply Chip.read_follows) | (with_reducible apply Chip.upset_follows) | (with_reducible apply Chip.addReg_follows) | (with_reducible apply follows_foldl) | (with_reducible apply follows_eachDo) | intro _ _ _

theorem Chip.pixBlock_follows {z : Kept} {c : Chip} (st desc : Nat) (ups : Upsets) (t : InTile) (row col blk : Nat) (hz : z.Follows c) (hm : z.Free [.regs, .ecc, .flt, .free]) : z.Follows (Chip.pixBlock c st desc ups t row col blk).1 := by
  unfold Chip.pixBlock; try with_reducible dsimp only
  repeat' first | (with_reducible assumption) | (with_reducible apply Chip.zRead_follows) | (with_reducible apply Chip.read_follows) | split

theorem nextBlock_follows {z : Kept} (st desc : Nat) (ups : Upsets) (t : InTile) (row col blocks b0 : Nat) (s : PixRead) (i : Nat) (hz : z.Follows s.chip) (hm : z.Free [.regs, .ecc, .flt, .free]) :
    z.Follows (nextBlock st desc ups t row col blocks b0 s i).chip := by
  unfold nextBlock
  split
  · exact Chip.pixBlock_follows _ _ _ _ _ _ _ hz (hm.sub (by decide))
  · exact hz
theorem Chip.pixels_follows {z : Kept} {c : Chip} (st : Nat) (r : Run) (ups : Upsets) (row col : Tap) (b0 n : Nat) (hz : z.Follows c) (hm : z.Free [.regs, .ecc, .flt, .free]) :
    z.Follows (c.pixels st r ups row col b0 n).chip := by
  unfold Chip.pixels; with_reducible dsimp only
  split
  · split
    · exact hz
    · exact follows_fold (fun (p : PixRead) => p.chip) (fun s x h => nextBlock_follows _ _ _ _ _ _ _ _ s x h (hm.sub (by decide))) (List.range n) ⟨c, [], [], false, true, true, 0, 0⟩ hz
  · exact hz

theorem Chip.wfTake_follows {z : Kept} {c : Chip} (st op : Nat) (hz : z.Follows c) (hm : z.Free [.regs, .fab, .cmp]) : z.Follows (Chip.wfTake c st op) := by
  unfold Chip.wfTake; try with_reducible dsimp only
  repeat' first | (with_reducible assumption) | exact hm.sub (by decide) | (with_reducible apply Chip.setWf_follows) | (with_reducible apply Chip.setRun_follows) | (with_reducible apply Chip.addReg_follows) | (with_reducible apply follows_ite) | split

theorem follows_cyc {z : Kept} {p : PixRead} (n : Nat) (v : Vec) (h : z.Follows p.chip) : z.Follows (({ p with cyc := n } : PixRead), v).1.chip := h
theorem Chip.convVector_follows {z : Kept} {c : Chip} (st : Nat) (r : Run) (ups : Upsets) (i : Nat) (hz : z.Follows c) (hm : z.Free [.regs, .ecc, .flt, .free]) : z.Follows (c.convVector st r ups i).1.chip := by
  unfold Chip.convVector
  exact follows_cyc _ _ (Chip.pixels_follows _ _ _ _ _ _ _ hz (hm.sub (by decide)))

theorem Chip.poolTaps_follows {z : Kept} {c : Chip} (st : Nat) (r : Run) (ups : Upsets) (oy ox b0 n : Nat) (l : List (Nat × Nat)) (acc : Option (List Nat)) (k : Nat) (p : PixRead)
    (hp : z.Follows p.chip) (hm : z.Free [.regs, .ecc, .flt, .free]) : z.Follows (c.poolTaps st r ups oy ox b0 n l acc k p).2.2.chip := by
  induction l generalizing acc k p with
  | nil => exact hp
  | cons x l ih =>
    unfold Chip.poolTaps
    with_reducible dsimp only
    split
    · exact ih _ _ _ (Chip.pixels_follows _ _ _ _ _ _ _ hp (hm.sub (by decide)))
    · exact ih _ _ _ hp

theorem Chip.poolVector_follows {z : Kept} {c : Chip} (st : Nat) (r : Run) (ups : Upsets) (i : Nat) (hz : z.Follows c) (hm : z.Free [.regs, .ecc, .flt, .free]) : z.Follows (Chip.poolVector c st r ups i).1.chip := by
  unfold Chip.poolVector; try with_reducible dsimp only
  repeat' first | (with_reducible assumption) | (with_reducible apply Chip.poolTaps_follows)

theorem Chip.wfVector_follows {z : Kept} {c : Chip} (st : Nat) (r : Run) (ups : Upsets) (i : Nat) (hz : z.Follows c) (hm : z.Free [.regs, .ecc, .flt, .free]) : z.Follows (Chip.wfVector c st r ups i).1.chip := by
  unfold Chip.wfVector; try with_reducible dsimp only
  repeat' first | (with_reducible assumption) | (with_reducible apply Chip.poolVector_follows) | (with_reducible apply Chip.convVector_follows) | split

theorem Chip.wfDelivered_follows {z : Kept} {c : Chip} (st : Nat) (r : Run) (w : Wf) (x : PixRead) (v : Vec) (hz : z.Follows c) (hm : z.Free [.regs, .fab, .cmp]) : z.Follows (Chip.wfDelivered c st r w x v) := by
  unfold Chip.wfDelivered; try with_reducible dsimp only
  repeat' first | (with_reducible assumption) | exact hm.sub (by decide) | (with_reducible apply Chip.setWf_follows) | (with_reducible apply Chip.setRun_follows) | (with_reducible apply Chip.busy_follows) | (with_reducible apply Chip.addReg_follows) | (with_reducible apply follows_ite)

theorem Chip.wfVectorDeliver_follows {z : Kept} {c : Chip} (st : Nat) (ups : Upsets) (hz : z.Follows c) (hm : z.Free [.regs, .ecc, .fab, .cmp, .flt, .free]) : z.Follows (Chip.wfVectorDeliver c st ups) := by
  unfold Chip.wfVectorDeliver; try with_reducible dsimp only
  repeat' first | (with_reducible assumption) | exact hm.sub (by decide) | (with_reducible apply Chip.wfDelivered_follows) | (with_reducible apply Chip.wfVector_follows) | (with_reducible apply Chip.setRun_follows) | (with_reducible apply Chip.stall_follows) | (with_reducible apply follows_ite) | split

theorem Chip.residue_follows {z : Kept} {c : Chip} (st desc lane code : Nat) (hz : z.Follows c) (hm : z.Free [.regs, .flt]) : z.Follows (Chip.residue c st desc lane code) := by
  unfold Chip.residue; try with_reducible dsimp only
  repeat' first | (with_reducible assumption) | exact hm.sub (by decide) | (with_reducible apply Chip.latchIf_follows) | (with_reducible apply Chip.raise_follows)

theorem Chip.endBadTile_follows {z : Kept} {c : Chip} (st : Nat) (r : Run) (bad : List OutTile) (hz : z.Follows c) (hm : z.Free [.regs, .fab, .cmp, .lnk, .wrk, .flt, .obs, .nv]) : z.Follows (Chip.endBadTile c st r bad) := by
  unfold Chip.endBadTile; try with_reducible dsimp only
  repeat' first | (with_reducible assumption) | exact hm.sub (by decide) | (with_reducible apply Chip.consume_follows) | (with_reducible apply Chip.setRun_follows)

theorem Chip.table_follows {z : Kept} {c : Chip} (st : Nat) (r : Run) (ups : Upsets) (u n : Nat) (hz : z.Follows c) (hm : z.Free [.regs, .ecc, .flt, .free]) : z.Follows (Chip.table c st r ups u n).1 := by
  unfold Chip.table; try with_reducible dsimp only
  repeat' first | (with_reducible assumption) | (with_reducible apply Chip.read_follows) | split

theorem Chip.stages_follows {z : Kept} (st : Nat) (r : Run) (ups : Upsets) (ch : Nat) (el : List Nat) (slip : Option (Nat × Nat × Int)) (i : Nat) (l : List (Nat × Bool)) (w : Work) {c : Chip}
    (hz : z.Follows c) (hm : z.Free [.regs, .ecc, .flt, .free]) : z.Follows (c.stages st r ups ch el slip i l w).1 := by
  induction l generalizing c i w with
  | nil => exact hz
  | cons x l ih =>
    unfold Chip.stages
    with_reducible dsimp only
    have hx := Chip.table_follows st r ups (sgImm x.1) ch hz (hm.sub (by decide))
    split
    · split
      · exact hx
      · exact ih _ _ hx
    · exact ih _ _ hz

theorem Chip.formTile_follows {z : Kept} {c : Chip} (st : Nat) (r : Run) (res : OptLane) (ups : Upsets) (at' : Nat → Option (Nat × Nat)) (el vs : List Nat) (h w ch n : Nat) (fin : Run → Run) (hz : z.Follows c) (hm : z.Free [.regs, .ecc, .fab, .cmp, .lnk, .wrk, .flt, .obs, .nv, .free]) : z.Follows (Chip.formTile c st r res ups at' el vs h w ch n fin) := by
  unfold Chip.formTile; try with_reducible dsimp only
  repeat' first | (with_reducible assumption) | exact hm.sub (by decide) | (with_reducible apply Chip.stages_follows) | (with_reducible apply Chip.endBadTile_follows) | (with_reducible apply Chip.residue_follows) | (with_reducible apply Chip.boundFault_follows) | (with_reducible apply Chip.setRun_follows) | (with_reducible apply Chip.busy_follows) | (with_reducible apply Chip.addReg_follows) | split

theorem Chip.tileVals_follows {z : Kept} {c : Chip} (r : Run) (t : InTile) (hz : z.Follows c) (hm : z.Free [.free]) : z.Follows (Chip.tileVals c r t).1 := by
  unfold Chip.tileVals; try with_reducible dsimp only
  repeat' first | (with_reducible assumption) | (with_reducible apply Chip.payload_follows)

theorem Chip.chainTile_follows {z : Kept} {c : Chip} (st : Nat) (r : Run) (res : OptLane) (ups : Upsets) (hz : z.Follows c) (hm : z.Free [.regs, .ecc, .fab, .cmp, .lnk, .wrk, .flt, .obs, .nv, .free]) : z.Follows (Chip.chainTile c st r res ups) := by
  unfold Chip.chainTile; try with_reducible dsimp only
  repeat' first | (with_reducible assumption) | exact hm.sub (by decide) | (with_reducible apply Chip.tileVals_follows) | (with_reducible apply Chip.formTile_follows) | (with_reducible apply Chip.stall_follows) | (with_reducible apply follows_ite) | split

theorem Chip.chainRows_follows {z : Kept} {c : Chip} (st : Nat) (r : Run) (res : OptLane) (ups : Upsets) (hz : z.Follows c) (hm : z.Free [.regs, .ecc, .fab, .cmp, .lnk, .wrk, .flt, .obs, .nv, .free]) : z.Follows (Chip.chainRows c st r res ups) := by
  unfold Chip.chainRows; try with_reducible dsimp only
  repeat' first | (with_reducible assumption) | exact hm.sub (by decide) | (with_reducible apply Chip.formTile_follows) | (with_reducible apply Chip.stall_follows) | (with_reducible apply follows_ite)

theorem Chip.chainPool_follows {z : Kept} {c : Chip} (st : Nat) (r : Run) (res : OptLane) (ups : Upsets) (hz : z.Follows c) (hm : z.Free [.regs, .ecc, .fab, .cmp, .lnk, .wrk, .flt, .obs, .nv, .free]) : z.Follows (Chip.chainPool c st r res ups) := by
  unfold Chip.chainPool; try with_reducible dsimp only
  repeat' first | (with_reducible assumption) | exact hm.sub (by decide) | (with_reducible apply Chip.formTile_follows) | (with_reducible apply Chip.endBadTile_follows) | (with_reducible apply Chip.residue_follows) | (with_reducible apply Chip.setWf_follows) | (with_reducible apply Chip.setRun_follows) | (with_reducible apply Chip.stall_follows) | (with_reducible apply Chip.busy_follows) | (with_reducible apply Chip.draw_follows) | (with_reducible apply follows_ite) | split

theorem Chip.vxChain_follows {z : Kept} {c : Chip} (st : Nat) (res : OptLane) (ups : Upsets) (hz : z.Follows c) (hm : z.Free [.regs, .ecc, .fab, .cmp, .lnk, .wrk, .flt, .obs, .nv, .free]) : z.Follows (Chip.vxChain c st res ups) := by
  unfold Chip.vxChain; try with_reducible dsimp only
  repeat' first | (with_reducible assumption) | (with_reducible apply Chip.chainPool_follows) | (with_reducible apply Chip.chainRows_follows) | (with_reducible apply Chip.chainTile_follows) | (with_reducible apply follows_ite) | split

theorem Chip.vxDrainRead_follows {z : Kept} {c : Chip} (st : Nat) (ups : Upsets) (hz : z.Follows c) (hm : z.Free [.regs, .ecc, .fab, .cmp, .lnk, .wrk, .flt, .obs, .nv, .free]) : z.Follows (Chip.vxDrainRead c st ups) := by
  unfold Chip.vxDrainRead; try with_reducible dsimp only
  repeat' first | (with_reducible assumption) | exact hm.sub (by decide) | (with_reducible apply Chip.setRow_follows) | (with_reducible apply Chip.endPoisoned_follows) | (with_reducible apply Chip.setRun_follows) | (with_reducible apply Chip.read_follows) | (with_reducible apply Chip.stall_follows) | (with_reducible apply Chip.busy_follows) | (with_reducible apply follows_ite) | split

theorem Chip.rowTable_follows {z : Kept} {c : Chip} (st : Nat) (r : Run) (ups : Upsets) (use : Bool) (u n : Nat) (hz : z.Follows c) (hm : z.Free [.regs, .ecc, .flt, .free]) : z.Follows (Chip.rowTable c st r ups use u n).1 := by
  unfold Chip.rowTable; try with_reducible dsimp only
  repeat' first | (with_reducible assumption) | (with_reducible apply Chip.table_follows) | split

theorem Chip.vxRow_follows {z : Kept} {c : Chip} (st : Nat) (ups : Upsets) (hz : z.Follows c) (hm : z.Free [.regs, .ecc, .fab, .cmp, .lnk, .wrk, .flt, .obs, .nv, .free]) : z.Follows (Chip.vxRow c st ups) := by
  unfold Chip.vxRow; try with_reducible dsimp only
  repeat' first | (with_reducible assumption) | exact hm.sub (by decide) | (with_reducible apply Chip.rowTable_follows) | (with_reducible apply Chip.tileVals_follows) | (with_reducible apply Chip.boundFault_follows) | (with_reducible apply Chip.setRun_follows) | (with_reducible apply Chip.stall_follows) | (with_reducible apply Chip.busy_follows) | (with_reducible apply Chip.addReg_follows) | split

theorem Chip.vxReduce_follows {z : Kept} {c : Chip} (st : Nat) (res : OptLane) (hz : z.Follows c) (hm : z.Free [.regs, .fab, .cmp, .lnk, .wrk, .flt, .obs, .nv, .free]) : z.Follows (Chip.vxReduce c st res) := by
  unfold Chip.vxReduce; try with_reducible dsimp only
  repeat' first | (with_reducible assumption) | exact hm.sub (by decide) | (with_reducible apply Chip.tileVals_follows) | (with_reducible apply Chip.endBadTile_follows) | (with_reducible apply Chip.residue_follows) | (with_reducible apply Chip.setRun_follows) | (with_reducible apply Chip.stall_follows) | (with_reducible apply Chip.busy_follows) | (with_reducible apply Chip.addReg_follows) | (with_reducible apply follows_ite) | split

theorem Chip.indices_follows {z : Kept} {c : Chip} (r : Run) (t : InTile) (hz : z.Follows c) (hm : z.Free [.free]) : z.Follows (Chip.indices c r t).1 := by
  unfold Chip.indices; try with_reducible dsimp only
  repeat' first | (with_reducible assumption) | (with_reducible apply Chip.payload_follows)

theorem Chip.gatherRows_follows {z : Kept} (st : Nat) (r : Run) (ups : Upsets) (l : List Nat) (b : Bytes) (p : Bool) {c : Chip} (hz : z.Follows c) (hm : z.Free [.regs, .ecc, .flt, .free]) :
    z.Follows (c.gatherRows st r ups l b p).1 := by
  induction l generalizing c b p with
  | nil => exact hz
  | cons x l ih =>
    unfold Chip.gatherRows
    with_reducible dsimp only
    split
    · exact ih _ _ hz
    · split
      · exact hz
      · exact ih _ _ (Chip.readTask_follows _ _ _ _ hz (hm.sub (by decide)))

theorem Chip.vxGather_follows {z : Kept} {c : Chip} (st : Nat) (ups : Upsets) (hz : z.Follows c) (hm : z.Free [.regs, .ecc, .fab, .cmp, .lnk, .wrk, .flt, .obs, .nv, .free]) : z.Follows (Chip.vxGather c st ups) := by
  unfold Chip.vxGather; try with_reducible dsimp only
  repeat' first | (with_reducible assumption) | exact hm.sub (by decide) | (with_reducible apply Chip.gatherRows_follows) | (with_reducible apply Chip.indices_follows) | (with_reducible apply Chip.boundFault_follows) | (with_reducible apply Chip.setRun_follows) | (with_reducible apply Chip.stall_follows) | (with_reducible apply Chip.busy_follows) | (with_reducible apply Chip.addReg_follows) | split

theorem Chip.vxScatter_follows {z : Kept} {c : Chip} (st : Nat) (hz : z.Follows c) (hm : z.Free [.regs, .fab, .cmp, .lnk, .wrk, .flt, .obs, .nv, .free]) : z.Follows (Chip.vxScatter c st) := by
  unfold Chip.vxScatter; try with_reducible dsimp only
  repeat' first | (with_reducible assumption) | exact hm.sub (by decide) | (with_reducible apply Chip.indices_follows) | (with_reducible apply Chip.payload_follows) | (with_reducible apply Chip.boundFault_follows) | (with_reducible apply Chip.setRun_follows) | (with_reducible apply Chip.stall_follows) | (with_reducible apply Chip.busy_follows) | (with_reducible apply Chip.addReg_follows) | split

theorem Chip.vxScatadd_follows {z : Kept} {c : Chip} (st : Nat) (res : OptLane) (hz : z.Follows c) (hm : z.Free [.regs, .fab, .cmp, .lnk, .wrk, .flt, .obs, .nv, .free]) : z.Follows (Chip.vxScatadd c st res) := by
  unfold Chip.vxScatadd; try with_reducible dsimp only
  repeat' first | (with_reducible assumption) | exact hm.sub (by decide) | (with_reducible apply Chip.indices_follows) | (with_reducible apply Chip.endBadTile_follows) | (with_reducible apply Chip.residue_follows) | (with_reducible apply Chip.payload_follows) | (with_reducible apply Chip.boundFault_follows) | (with_reducible apply Chip.setRun_follows) | (with_reducible apply Chip.stall_follows) | (with_reducible apply Chip.busy_follows) | (with_reducible apply Chip.addReg_follows) | (with_reducible apply follows_ite) | split

theorem Chip.failBlank_follows {z : Kept} {c : Chip} (d : Nat) (hz : z.Follows c) (hm : z.Free [.wrk]) : z.Follows (Chip.failBlank c d) := by
  unfold Chip.failBlank; try with_reducible dsimp only
  repeat' first | (with_reducible assumption) | exact rfl | exact Nat.le_refl _ | (with_reducible apply follows_upd hm) | (intro x; cases x <;> first | exact .inl (by decide) | exact .inr rfl)

theorem Chip.readTriple_follows {z : Kept} {c : Chip} (t : InTile) (u : InTile) (v : InTile) (hz : z.Follows c) (hm : z.Free [.free]) : z.Follows (Chip.readTriple c t u v).1 := by
  unfold Chip.readTriple; try with_reducible dsimp only
  repeat' first | (with_reducible assumption) | (with_reducible apply Chip.payload_follows)

theorem Chip.blankResult_follows {z : Kept} {c : Chip} (st : Nat) (r : Run) (hz : z.Follows c) (hm : z.Free [.regs, .wrk, .flt]) : z.Follows (Chip.blankResult c st r) := by
  unfold Chip.blankResult; try with_reducible dsimp only
  repeat' first | (with_reducible assumption) | exact hm.sub (by decide) | (with_reducible apply Chip.failBlank_follows) | (with_reducible apply Chip.latchIf_follows) | (with_reducible apply Chip.raise_follows) | (with_reducible apply Chip.setReg_follows) | (with_reducible apply follows_ite)

theorem Chip.vxBlankcmp_follows {z : Kept} {c : Chip} (st : Nat) (hz : z.Follows c) (hm : z.Free [.regs, .fab, .wrk, .flt, .free]) : z.Follows (Chip.vxBlankcmp c st) := by
  unfold Chip.vxBlankcmp; try with_reducible dsimp only
  repeat' first | (with_reducible assumption) | exact hm.sub (by decide) | (with_reducible apply Chip.blankResult_follows) | (with_reducible apply Chip.readTriple_follows) | (with_reducible apply Chip.setRun_follows) | (with_reducible apply Chip.stall_follows) | (with_reducible apply Chip.busy_follows) | (with_reducible apply follows_ite) | split

theorem Chip.bxRows_follows {z : Kept} {c : Chip} (r : Run) (j : Nat) (hz : z.Follows c) (hm : z.Free [.free]) : z.Follows (Chip.bxRows c r j).1 := by
  unfold Chip.bxRows; try with_reducible dsimp only
  repeat' first | (with_reducible assumption) | (with_reducible apply Chip.payload_follows) | (with_reducible apply follows_foldl) | intro _ _ _

theorem Chip.bxNms_follows {z : Kept} {c : Chip} (st : Nat) (hz : z.Follows c) (hm : z.Free [.regs, .fab, .free]) : z.Follows (Chip.bxNms c st) := by
  unfold Chip.bxNms; try with_reducible dsimp only
  repeat' first | (with_reducible assumption) | exact hm.sub (by decide) | (with_reducible apply Chip.bxRows_follows) | (with_reducible apply Chip.setRun_follows) | (with_reducible apply Chip.stall_follows) | (with_reducible apply Chip.busy_follows) | (with_reducible apply Chip.draw_follows) | (with_reducible apply Chip.addReg_follows) | (with_reducible apply follows_ite) | split

end Sys2Proof.Machine
end

