-- ==== Sys2Proof/Laws/FollowsHost.lean ====
section
/-! SUPPORT. Laws/FollowsHost.lean: every operation of power, register access, programs, mailbox and observation keeps what `Chip.Follows` says. -/
namespace Sys2Proof.Machine

theorem Chip.monitor_follows {z : Kept} {c : Chip} (b cause die : Nat) (hz : z.Follows c) (hm : z.Free [.flt]) : z.Follows (Chip.monitor c b cause die) := by
  unfold Chip.monitor; try with_reducible dsimp only
  repeat' first | (with_reducible assumption) | (with_reducible apply Chip.rise_follows)

theorem Chip.supplyTrip_follows {z : Kept} {c : Chip} (dom : Nat) (hz : z.Follows c) (hm : z.Free [.flt]) : z.Follows (Chip.supplyTrip c dom) := by
  unfold Chip.supplyTrip; try with_reducible dsimp only
  repeat' first | (with_reducible assumption) | (with_reducible apply Chip.monitor_follows)

theorem Chip.domTimeout_follows {z : Kept} {c : Chip} (dom : Nat) (hz : z.Follows c) (hm : z.Free [.flt]) : z.Follows (Chip.domTimeout c dom) := by
  unfold Chip.domTimeout; try with_reducible dsimp only
  repeat' first | (with_reducible assumption) | (with_reducible apply Chip.supplyTrip_follows) | (with_reducible apply follows_ite)

theorem Chip.warm_follows {z : Kept} {c : Chip} (d sensor : Nat) (hz : z.Follows c) (hm : z.Free [.regs, .pwr]) : z.Follows (Chip.warm c d sensor) := by
  unfold Chip.warm; try with_reducible dsimp only
  repeat' first | (with_reducible assumption) | exact hm.sub (by decide) | (with_reducible apply Chip.setFld_follows) | exact rfl | exact Nat.le_refl _ | (with_reducible apply follows_upd hm) | (intro x; cases x <;> first | exact .inl (by decide) | exact .inr rfl)

theorem Chip.thermalTrip_follows {z : Kept} {c : Chip} (d sensor : Nat) (hz : z.Follows c) (hm : z.Free [.regs, .flt, .pwr]) : z.Follows (Chip.thermalTrip c d sensor) := by
  unfold Chip.thermalTrip; try with_reducible dsimp only
  repeat' first | (with_reducible assumption) | exact hm.sub (by decide) | (with_reducible apply Chip.warm_follows) | (with_reducible apply Chip.monitor_follows)

theorem Chip.cool_follows {z : Kept} {c : Chip} (d : Nat) (hz : z.Follows c) (hm : z.Free [.regs, .pwr]) : z.Follows (Chip.cool c d) := by
  unfold Chip.cool; try with_reducible dsimp only
  repeat' first | (with_reducible assumption) | exact hm.sub (by decide) | (with_reducible apply Chip.setFld_follows) | exact rfl | exact Nat.le_refl _ | (with_reducible apply follows_upd hm) | (intro x; cases x <;> first | exact .inl (by decide) | exact .inr rfl)

theorem Chip.ageing_follows {z : Kept} {c : Chip} (d i n : Nat) (hz : z.Follows c) (hm : z.Free [.regs, .nv, .free]) : z.Follows (Chip.ageing c d i n) := by
  unfold Chip.ageing; try with_reducible dsimp only
  repeat' first | (with_reducible assumption) | exact hm.sub (by decide) | (with_reducible apply Chip.draw_follows) | (with_reducible apply Chip.setReg_follows) | (with_reducible apply follows_ite) | split | exact rfl | exact Nat.le_refl _ | (with_reducible apply follows_upd hm) | (intro x; cases x <;> first | exact .inl (by decide) | exact .inr rfl)

theorem Chip.pmPoll_follows {z : Kept} {c : Chip} (reads : PmReads) (hz : z.Follows c) (hm : z.Free [.pwr]) : z.Follows (Chip.pmPoll c reads) := by
  unfold Chip.pmPoll; try with_reducible dsimp only
  repeat' first | (with_reducible assumption) | exact rfl | exact Nat.le_refl _ | (with_reducible apply follows_upd hm) | (intro x; cases x <;> first | exact .inl (by decide) | exact .inr rfl)

theorem Chip.pmAlert_follows {z : Kept} {c : Chip} (fault : Bool) (hz : z.Follows c) (hm : z.Free [.flt]) : z.Follows (Chip.pmAlert c fault) := by
  unfold Chip.pmAlert; try with_reducible dsimp only
  repeat' first | (with_reducible assumption) | (with_reducible apply Chip.rise_follows) | (with_reducible apply follows_ite)

theorem Chip.askQuiet_follows {z : Kept} {c : Chip} (v : Nat) (who : Src) (hz : z.Follows c) (hm : z.Free [.regs, .pwr]) : z.Follows (Chip.askQuiet c v who) := by
  unfold Chip.askQuiet; try with_reducible dsimp only
  repeat' first | (with_reducible assumption) | exact hm.sub (by decide) | (with_reducible apply Chip.setFld_follows) | (with_reducible apply follows_ite) | split | exact rfl | exact Nat.le_refl _ | (with_reducible apply follows_upd hm) | (intro x; cases x <;> first | exact .inl (by decide) | exact .inr rfl)

theorem Chip.askActive_follows {z : Kept} {c : Chip} (who : Src) (hz : z.Follows c) (hm : z.Free [.regs, .pwr]) : z.Follows (Chip.askActive c who) := by
  unfold Chip.askActive; try with_reducible dsimp only
  repeat' first | (with_reducible assumption) | exact hm.sub (by decide) | (with_reducible apply Chip.setReg_follows) | (with_reducible apply follows_ite) | split | exact rfl | exact Nat.le_refl _ | (with_reducible apply follows_upd hm) | (intro x; cases x <;> first | exact .inl (by decide) | exact .inr rfl)

theorem Chip.pwrReq_follows {z : Kept} {c : Chip} (v : Nat) (who : Src) (hz : z.Follows c) (hm : z.Free [.regs, .pwr]) : z.Follows (Chip.pwrReq c v who) := by
  unfold Chip.pwrReq; try with_reducible dsimp only
  repeat' first | (with_reducible assumption) | (with_reducible apply Chip.askActive_follows) | (with_reducible apply Chip.askQuiet_follows) | (with_reducible apply follows_ite) | split

theorem Chip.askPartReset_follows {z : Kept} {c : Chip} (p : Nat) (who : Src) (hz : z.Follows c) (hm : z.Free [.wrk]) : z.Follows (Chip.askPartReset c p who) := by
  unfold Chip.askPartReset; try with_reducible dsimp only
  repeat' first | (with_reducible assumption) | (with_reducible apply Chip.modPart_follows) | (with_reducible apply follows_ite)

theorem Chip.askStationReset_follows {z : Kept} {c : Chip} (st : Nat) (who : Src) (hz : z.Follows c) (hm : z.Free [.regs, .fab, .cmp, .lnk, .wrk]) : z.Follows (Chip.askStationReset c st who) := by
  unfold Chip.askStationReset; try with_reducible dsimp only
  repeat' first | (with_reducible assumption) | exact hm.sub (by decide) | (with_reducible apply Chip.stationReset_follows) | (with_reducible apply Chip.settle_follows) | (with_reducible apply follows_ite)

theorem Chip.rstReq_follows {z : Kept} {c : Chip} (v : Nat) (who : Src) (hz : z.Follows c) (hm : z.Free [.regs, .fab, .cmp, .lnk, .wrk]) : z.Follows (Chip.rstReq c v who) := by
  unfold Chip.rstReq; try with_reducible dsimp only
  repeat' first | (with_reducible assumption) | exact hm.sub (by decide) | (with_reducible apply Chip.askStationReset_follows) | (with_reducible apply Chip.askPartReset_follows) | (with_reducible apply follows_ite) | split

theorem Chip.readReg_follows {z : Kept} {c : Chip} (who : Src) (d off : Nat) (hz : z.Follows c) (hm : z.Free [.latch, .obs, .net]) : z.Follows (Chip.readReg c who d off).2 := by
  unfold Chip.readReg; try with_reducible dsimp only
  repeat' first | (with_reducible assumption) | exact hm.sub (by decide) | (with_reducible apply Chip.tsInRead_follows) | (with_reducible apply Chip.latchWord_follows) | (with_reducible apply follows_ite) | split

theorem Chip.fwPass_follows {z : Kept} {c : Chip} (who : Src) (d off v dir : Nat) (hz : z.Follows c) (hm : z.Free [.ecc]) : z.Follows (Chip.fwPass c who d off v dir) := by
  unfold Chip.fwPass; try with_reducible dsimp only
  repeat' first | (with_reducible assumption) | (with_reducible apply Chip.hsPut_follows) | split

theorem Chip.lowRead_follows {z : Kept} {c : Chip} (d off width : Nat) (who : Src) (hz : z.Follows c) (hm : z.Free [.latch, .ecc, .obs, .net]) : z.Follows (Chip.lowRead c d off width who) := by
  unfold Chip.lowRead; try with_reducible dsimp only
  repeat' first | (with_reducible assumption) | exact hm.sub (by decide) | (with_reducible apply Chip.fwPass_follows) | (with_reducible apply Chip.readReg_follows) | (with_reducible apply Chip.setErr_follows) | (with_reducible apply Chip.answer_follows) | (with_reducible apply follows_ite)

theorem Chip.armNow_follows {z : Kept} {c : Chip} (hz : z.Follows c) (hm : z.Free [.regs, .sns, .net]) : z.Follows (Chip.armNow c) := by
  unfold Chip.armNow; try with_reducible dsimp only
  repeat' first | (with_reducible assumption) | (with_reducible apply Chip.spLock_follows) | (with_reducible apply follows_ite)

theorem Chip.writeReg_follows {z : Kept} {c : Chip} (who : Src) (d off v : Nat) (hz : z.Follows c) (hm : z.Free [.regs, .fab, .cmp, .lnk, .wrk, .flt, .obs, .sns, .net, .ses, .pwr, .nv, .free]) : z.Follows (Chip.writeReg c who d off v) := by
  unfold Chip.writeReg; try with_reducible dsimp only
  repeat' first | (with_reducible assumption) | exact hm.sub (by decide) | (with_reducible apply Chip.armNow_follows) | (with_reducible apply Chip.rstReq_follows) | (with_reducible apply Chip.pwrReq_follows) | (with_reducible apply Chip.fswClear_follows) | (with_reducible apply Chip.fcEscalate_follows) | (with_reducible apply Chip.setReg_follows) | (with_reducible apply follows_ite)

theorem Chip.registerWrite_follows {z : Kept} {c : Chip} (who : Src) (d off v width : Nat) (hz : z.Follows c) (hm : z.Free [.regs, .ecc, .fab, .cmp, .lnk, .wrk, .flt, .obs, .sns, .net, .ses, .pwr, .nv, .free]) : z.Follows (Chip.registerWrite c who d off v width) := by
  unfold Chip.registerWrite; try with_reducible dsimp only
  repeat' first | (with_reducible assumption) | exact hm.sub (by decide) | (with_reducible apply Chip.writeReg_follows) | (with_reducible apply Chip.fwPass_follows) | (with_reducible apply follows_ite)

theorem Chip.dsRead_follows {z : Kept} {c : Chip} (d k off : Nat) (who : Src) (ups : Upsets) (hz : z.Follows c) (hm : z.Free [.regs, .ecc, .flt, .obs, .free]) : z.Follows (Chip.dsRead c d k off who ups) := by
  unfold Chip.dsRead; try with_reducible dsimp only
  repeat' first | (with_reducible assumption) | exact hm.sub (by decide) | (with_reducible apply Chip.setErr_follows) | (with_reducible apply Chip.answer_follows) | (with_reducible apply Chip.read_follows) | (with_reducible apply follows_ite)

theorem Chip.scan_follows {z : Kept} {c : Chip} (tgt : ScanTarget) (hz : z.Follows c) (hm : z.Free [.obs]) : z.Follows (Chip.scan c tgt) := by
  unfold Chip.scan; try with_reducible dsimp only
  repeat' first | (with_reducible assumption) | (with_reducible apply Chip.answer_follows) | (with_reducible apply follows_ite) | split

theorem Chip.unlock_follows {z : Kept} {c : Chip} (ok : Bool) (hz : z.Follows c) (hm : z.Free [.obs]) : z.Follows (Chip.unlock c ok) := by
  unfold Chip.unlock; try with_reducible dsimp only
  repeat' first | (with_reducible assumption) | (with_reducible apply follows_ite) | split | exact rfl | exact Nat.le_refl _ | (with_reducible apply follows_upd hm) | (intro x; cases x <;> first | exact .inl (by decide) | exact .inr rfl)

theorem Chip.arm_follows {z : Kept} {c : Chip} (who : Src) (m b : Nat) (hz : z.Follows c) (hm : z.Free [.regs, .fab, .cmp, .lnk, .wrk, .flt, .obs, .sns, .net, .ses, .pwr, .nv, .free]) : z.Follows (Chip.arm c who m b) := by
  unfold Chip.arm; try with_reducible dsimp only
  repeat' first | (with_reducible assumption) | (with_reducible apply Chip.writeReg_follows)

theorem Chip.armTurn_follows {z : Kept} {c : Chip} (who : Src) (turn : Nat) (hz : z.Follows c) (hm : z.Free [.regs, .fab, .cmp, .lnk, .wrk, .flt, .obs, .sns, .net, .ses, .pwr, .nv, .free]) : z.Follows (Chip.armTurn c who turn) := by
  unfold Chip.armTurn; try with_reducible dsimp only
  repeat' first | (with_reducible assumption) | (with_reducible apply Chip.arm_follows) | (with_reducible apply Chip.writeReg_follows)

theorem Chip.mbDrop_follows {z : Kept} {c : Chip} (hz : z.Follows c) (hm : z.Free [.regs]) : z.Follows (Chip.mbDrop c) := by
  unfold Chip.mbDrop; try with_reducible dsimp only
  repeat' first | (with_reducible assumption) | (with_reducible apply Chip.addReg_follows)

theorem Chip.refuse_follows {z : Kept} {c : Chip} (m : Dgram) (r : Req) (status : Nat) (hz : z.Follows c) (hm : z.Free [.regs, .net]) : z.Follows (Chip.refuse c m r status) := by
  unfold Chip.refuse; try with_reducible dsimp only
  repeat' first | (with_reducible assumption) | exact hm.sub (by decide) | (with_reducible apply Chip.queueFrame_follows) | (with_reducible apply Chip.addReg_follows)

theorem Chip.reply_follows {z : Kept} {c : Chip} (s ref status : Nat) (body : Bytes) (hz : z.Follows c) (hm : z.Free [.regs, .net, .ses]) : z.Follows (Chip.reply c s ref status body) := by
  unfold Chip.reply; try with_reducible dsimp only
  repeat' first | (with_reducible assumption) | exact hm.sub (by decide) | (with_reducible dsimp only) | (with_reducible apply Chip.tell_follows) | (with_reducible apply Chip.modSess_follows) | (with_reducible apply Chip.addReg_follows) | (with_reducible apply follows_ite)

theorem Chip.notePeer_follows {z : Kept} {c : Chip} (s : Nat) (m : Dgram) (hz : z.Follows c) (hm : z.Free [.ses]) : z.Follows (Chip.notePeer c s m) := by
  unfold Chip.notePeer; try with_reducible dsimp only
  repeat' first | (with_reducible assumption) | (with_reducible dsimp only) | (with_reducible apply Chip.modSess_follows)

theorem Chip.sendAgain_follows {z : Kept} {c : Chip} (s : Nat) (hz : z.Follows c) (hm : z.Free [.net]) : z.Follows (Chip.sendAgain c s) := by
  unfold Chip.sendAgain; try with_reducible dsimp only
  repeat' first | (with_reducible assumption) | (with_reducible apply Chip.queueFrame_follows) | (with_reducible apply follows_ite)

theorem Chip.serve_follows {z : Kept} {c : Chip} (s : Nat) (r : Req) (k : ReqKind) (act : Chip → Nat × Bytes × Chip) (hz : z.Follows c) (hact : ∀ k0, z.Follows k0 → z.Follows (act k0).2.2) (hm : z.Free [.regs, .net, .ses]) : z.Follows (Chip.serve c s r k act) := by
  unfold Chip.serve; try with_reducible dsimp only
  repeat' first | (with_reducible assumption) | exact hm.sub (by decide) | (with_reducible dsimp only) | (with_reducible apply hact) | (with_reducible apply Chip.sendAgain_follows) | (with_reducible apply Chip.reply_follows) | (with_reducible apply Chip.modSess_follows) | (with_reducible apply follows_ite)

theorem Chip.request_follows {z : Kept} {c : Chip} (m : Dgram) (sig : Bool) (k : ReqKind) (act : Chip → Nat → Req → Nat × Bytes × Chip) (hz : z.Follows c)
    (hact : ∀ x s r, z.Follows x → z.Follows (act x s r).2.2) (hm : z.Free [.regs, .net, .ses]) : z.Follows (c.request m sig k act) := by
  have hn : ∀ s, z.Follows (if s = 256 then c else c.notePeer s m) := fun s => follows_ite hz (Chip.notePeer_follows s m hz (hm.sub (by decide)))
  unfold Chip.request
  with_reducible dsimp only
  split
  · exact hz
  · exact Chip.mbDrop_follows hz (hm.sub (by decide))
  · exact follows_ite hz (follows_ite (Chip.refuse_follows _ _ _ (hn _) (hm.sub (by decide))) (Chip.serve_follows _ _ _ _ (hn _) (fun x hx => hact x _ _ hx) (hm.sub (by decide))))

theorem Chip.endTrace_follows {z : Kept} {c : Chip} (s : Nat) (hz : z.Follows c) (hm : z.Free [.regs, .obs]) : z.Follows (Chip.endTrace c s) := by
  unfold Chip.endTrace; try with_reducible dsimp only
  repeat' first | (with_reducible assumption) | exact hm.sub (by decide) | (with_reducible apply Chip.setReg_follows) | (with_reducible apply follows_ite) | split | exact rfl | exact Nat.le_refl _ | (with_reducible apply follows_upd hm) | (intro x; cases x <;> first | exact .inl (by decide) | exact .inr rfl)

theorem Chip.endXfer_follows {z : Kept} {c : Chip} (s : Nat) (hz : z.Follows c) (hm : z.Free [.regs, .ses]) : z.Follows (Chip.endXfer c s) := by
  unfold Chip.endXfer; try with_reducible dsimp only
  repeat' first | (with_reducible assumption) | exact hm.sub (by decide) | (with_reducible dsimp only) | (with_reducible apply Chip.setFld_follows) | (with_reducible apply follows_ite) | split | exact rfl | exact Nat.le_refl _ | (with_reducible apply follows_upd hm) | (intro x; cases x <;> first | exact .inl (by decide) | exact .inr rfl)

theorem Chip.endSession_follows {z : Kept} {c : Chip} (s : Nat) (hz : z.Follows c) (hm : z.Free [.regs, .obs, .ses]) : z.Follows (Chip.endSession c s) := by
  unfold Chip.endSession; try with_reducible dsimp only
  repeat' first | (with_reducible assumption) | exact hm.sub (by decide) | (with_reducible dsimp only) | (with_reducible apply Chip.endXfer_follows) | (with_reducible apply Chip.endTrace_follows) | (with_reducible apply Chip.modSess_follows)

theorem Chip.helloAck_follows {z : Kept} {c : Chip} (s : Nat) (r : Req) (n : Neg) (hz : z.Follows c) (hm : z.Free [.net, .ses]) : z.Follows (Chip.helloAck c s r n) := by
  unfold Chip.helloAck; try with_reducible dsimp only
  repeat' first | (with_reducible assumption) | exact hm.sub (by decide) | (with_reducible dsimp only) | (with_reducible apply Chip.modSess_follows) | (with_reducible apply Chip.queueFrame_follows)

theorem Chip.hello_follows {z : Kept} {c : Chip} (m : Dgram) (hz : z.Follows c) (hm : z.Free [.regs, .net, .ses]) : z.Follows (Chip.hello c m) := by
  unfold Chip.hello; try with_reducible dsimp only
  repeat' first | (with_reducible assumption) | exact hm.sub (by decide) | (with_reducible dsimp only) | (with_reducible apply Chip.helloAck_follows) | (with_reducible refine Chip.serve_follows _ _ _ _ ?_ (fun _ _ => ?_) (hm.sub (by decide))) | (with_reducible apply Chip.sendAgain_follows) | (with_reducible apply Chip.notePeer_follows) | (with_reducible apply Chip.reply_follows) | (with_reducible apply Chip.refuse_follows) | (with_reducible apply Chip.mbDrop_follows) | (with_reducible apply follows_ite) | split

theorem Chip.byeReply_follows {z : Kept} {c : Chip} (m : Dgram) (hz : z.Follows c) (hm : z.Free [.regs, .net, .ses]) : z.Follows (Chip.byeReply c m) := by
  unfold Chip.byeReply; try with_reducible dsimp only
  repeat' first | (with_reducible assumption) | exact hm.sub (by decide) | (with_reducible dsimp only) | (with_reducible refine Chip.request_follows _ _ _ _ (by assumption) (fun _ _ _ _ => ?_) (hm.sub (by decide))) | (with_reducible apply Chip.modSess_follows) | (with_reducible apply follows_ite)

theorem Chip.bye_follows {z : Kept} {c : Chip} (m : Dgram) (hz : z.Follows c) (hm : z.Free [.regs, .obs, .net, .ses]) : z.Follows (c.bye m) :=
  follows_ite (Chip.endSession_follows _ (Chip.byeReply_follows m hz (hm.sub (by decide))) (hm.sub (by decide))) (Chip.byeReply_follows m hz (hm.sub (by decide)))

theorem Chip.drawNonce_follows {z : Kept} {c : Chip} (hz : z.Follows c) (hm : z.Free [.free]) : z.Follows c.drawNonce.2 := by
  unfold Chip.drawNonce
  generalize List.range 4 = l
  refine follows_fold (fun (x : Nat × Chip) => x.2) (f := fun (x : Nat × Chip) i => (x.1 + x.2.draw.1 % 2 ^ 64 * 2 ^ (64 * i), x.2.draw.2)) (fun _ _ h => ?_) l (0, c) hz
  exact Chip.draw_follows h (hm.sub (by decide))

theorem Chip.challenge_follows {z : Kept} {c : Chip} (m : Dgram) (r : Req) (s : Nat) (hz : z.Follows c) (hm : z.Free [.net, .ses, .free]) : z.Follows (c.challenge m r s) := by
  unfold Chip.challenge
  with_reducible dsimp only
  exact Chip.modSess_follows _ _ (Chip.tell_follows _ _ _ _ _ _ _ (Chip.modSess_follows _ _ (Chip.drawNonce_follows hz (hm.sub (by decide))) (hm.sub (by decide))) (hm.sub (by decide))) (hm.sub (by decide))

theorem Chip.mgmtOpen_follows {z : Kept} {c : Chip} (m : Dgram) (hz : z.Follows c) (hm : z.Free [.regs, .net, .ses, .free]) : z.Follows (Chip.mgmtOpen c m) := by
  unfold Chip.mgmtOpen; try with_reducible dsimp only
  repeat' first | (with_reducible assumption) | exact hm.sub (by decide) | (with_reducible dsimp only) | (with_reducible apply Chip.challenge_follows) | (with_reducible apply Chip.sendAgain_follows) | (with_reducible apply Chip.refuse_follows) | (with_reducible apply Chip.mbDrop_follows) | (with_reducible apply follows_ite) | split

theorem Chip.mgmtAuth_follows {z : Kept} {c : Chip} (m : Dgram) (sig : Bool) (hz : z.Follows c) (hm : z.Free [.regs, .net, .ses]) : z.Follows (Chip.mgmtAuth c m sig) := by
  unfold Chip.mgmtAuth; try with_reducible dsimp only
  repeat' first | (with_reducible assumption) | exact hm.sub (by decide) | (with_reducible dsimp only) | (with_reducible refine Chip.serve_follows _ _ _ _ ?_ (fun _ _ => ?_) (hm.sub (by decide))) | (with_reducible apply Chip.notePeer_follows) | (with_reducible apply Chip.refuse_follows) | (with_reducible apply Chip.mbDrop_follows) | (with_reducible apply Chip.modSess_follows) | (with_reducible apply follows_ite) | split

theorem Chip.authTimeout_follows {z : Kept} {c : Chip} (s : Nat) (hz : z.Follows c) (hm : z.Free [.tb, .regs, .obs, .ses]) : z.Follows (Chip.authTimeout c s) := by
  unfold Chip.authTimeout; try with_reducible dsimp only
  repeat' first | (with_reducible assumption) | exact hm.sub (by decide) | (with_reducible apply Chip.endSession_follows) | (with_reducible apply Chip.advanceTo_follows) | (with_reducible apply follows_ite)

theorem Chip.sessTimeout_follows {z : Kept} {c : Chip} (s : Nat) (hz : z.Follows c) (hm : z.Free [.tb, .regs, .obs, .ses]) : z.Follows (Chip.sessTimeout c s) := by
  unfold Chip.sessTimeout; try with_reducible dsimp only
  repeat' first | (with_reducible assumption) | exact hm.sub (by decide) | (with_reducible apply Chip.endSession_follows) | (with_reducible apply Chip.advanceTo_follows) | (with_reducible apply follows_ite)

theorem Chip.mgmtWord_follows {z : Kept} {c : Chip} (ups : Upsets) (s a : Nat) (hz : z.Follows c) (hm : z.Free [.regs, .latch, .ecc, .flt, .obs, .net, .free]) : z.Follows (Chip.mgmtWord c ups s a).2 := by
  unfold Chip.mgmtWord; try with_reducible dsimp only
  repeat' first | (with_reducible assumption) | exact hm.sub (by decide) | (with_reducible dsimp only) | (with_reducible apply Chip.readReg_follows) | (with_reducible apply Chip.setErr_follows) | (with_reducible apply Chip.read_follows) | split

theorem Chip.mgmtWords_follows {z : Kept} (ups : Upsets) (s n a : Nat) {c : Chip} (hz : z.Follows c) (hm : z.Free [.regs, .latch, .ecc, .flt, .obs, .net, .free]) : z.Follows (c.mgmtWords ups s n a).2 := by
  induction n generalizing c a with
  | zero => exact hz
  | succ n ih => exact ih _ (Chip.mgmtWord_follows _ _ _ hz (hm.sub (by decide)))

theorem Chip.regReadMsg_follows {z : Kept} {c : Chip} (m : Dgram) (ups : Upsets) (hz : z.Follows c) (hm : z.Free [.regs, .latch, .ecc, .flt, .obs, .net, .ses, .free]) : z.Follows (Chip.regReadMsg c m ups) := by
  unfold Chip.regReadMsg; try with_reducible dsimp only
  repeat' first | (with_reducible assumption) | exact hm.sub (by decide) | (with_reducible dsimp only) | (with_reducible apply Chip.mgmtWords_follows) | (with_reducible refine Chip.request_follows _ _ _ _ (by assumption) (fun _ _ _ _ => ?_) (hm.sub (by decide))) | (with_reducible apply Chip.setErr_follows) | split

theorem Chip.regWriteMsg_follows {z : Kept} {c : Chip} (m : Dgram) (hz : z.Follows c) (hm : z.Free [.regs, .fab, .cmp, .lnk, .wrk, .flt, .obs, .sns, .net, .ses, .pwr, .nv, .free]) : z.Follows (Chip.regWriteMsg c m) := by
  unfold Chip.regWriteMsg; try with_reducible dsimp only
  repeat' first | (with_reducible assumption) | exact hm.sub (by decide) | (with_reducible dsimp only) | (with_reducible refine Chip.request_follows _ _ _ _ (by assumption) (fun _ _ _ _ => ?_) (hm.sub (by decide))) | (with_reducible apply Chip.writeReg_follows) | (with_reducible apply Chip.setErr_follows) | split

theorem Chip.clearSource_follows {z : Kept} {c : Chip} (b d off : Nat) (hz : z.Follows c) (hm : z.Free [.regs]) : z.Follows (Chip.clearSource c b d off) := by
  unfold Chip.clearSource; try with_reducible dsimp only
  repeat' first | (with_reducible assumption) | (with_reducible dsimp only) | (with_reducible apply Chip.setReg_follows)

theorem Chip.faultClearBit_follows {z : Kept} {c : Chip} (b : Nat) (hz : z.Follows c) (hm : z.Free [.regs, .flt]) : z.Follows (Chip.faultClearBit c b) := by
  unfold Chip.faultClearBit; try with_reducible dsimp only
  repeat' first | (with_reducible assumption) | exact hm.sub (by decide) | (with_reducible dsimp only) | (with_reducible apply Chip.clearSource_follows) | (with_reducible apply Chip.clearBit_follows) | (with_reducible apply follows_eachDo) | intro _ _ _

theorem Chip.faultClearMsg_follows {z : Kept} {c : Chip} (m : Dgram) (hz : z.Follows c) (hm : z.Free [.regs, .flt, .net, .ses]) : z.Follows (Chip.faultClearMsg c m) := by
  unfold Chip.faultClearMsg; try with_reducible dsimp only
  repeat' first | (with_reducible assumption) | exact hm.sub (by decide) | (with_reducible dsimp only) | (with_reducible apply Chip.faultClearBit_follows) | (with_reducible refine Chip.request_follows _ _ _ _ (by assumption) (fun _ _ _ _ => ?_) (hm.sub (by decide))) | (with_reducible apply follows_eachDo) | intro _ _ _

theorem Chip.timeStepMsg_follows {z : Kept} {c : Chip} (m : Dgram) (hz : z.Follows c) (hm : z.Free [.regs, .obs, .net, .ses, .nv]) : z.Follows (Chip.timeStepMsg c m) := by
  unfold Chip.timeStepMsg; try with_reducible dsimp only
  repeat' first | (with_reducible assumption) | exact hm.sub (by decide) | (with_reducible dsimp only) | (with_reducible refine Chip.request_follows _ _ _ _ (by assumption) (fun _ _ _ _ => ?_) (hm.sub (by decide))) | (with_reducible apply Chip.shav_follows) | exact rfl | exact Nat.le_refl _ | (with_reducible apply follows_upd hm) | (intro x; cases x <;> first | exact .inl (by decide) | exact .inr rfl)

theorem Chip.pocSwitchMsg_follows {z : Kept} {c : Chip} (m : Dgram) (hz : z.Follows c) (hm : z.Free [.regs, .lnk, .obs, .sns, .net, .ses, .nv]) : z.Follows (Chip.pocSwitchMsg c m) := by
  unfold Chip.pocSwitchMsg; try with_reducible dsimp only
  repeat' first | (with_reducible assumption) | exact hm.sub (by decide) | (with_reducible dsimp only) | (with_reducible refine Chip.request_follows _ _ _ _ (by assumption) (fun _ _ _ _ => ?_) (hm.sub (by decide))) | (with_reducible apply Chip.dropPort_follows) | (with_reducible apply Chip.modSp_follows) | (with_reducible apply Chip.setFld_follows) | (with_reducible apply follows_ite) | split

theorem Chip.updState_follows {z : Kept} {c : Chip} (v : Nat) (hz : z.Follows c) (hm : z.Free [.regs]) : z.Follows (Chip.updState c v) := by
  unfold Chip.updState; try with_reducible dsimp only
  repeat' first | (with_reducible assumption) | (with_reducible apply Chip.setFld_follows)

theorem Chip.updTrace_follows {z : Kept} {c : Chip} (kind step result : Nat) (hz : z.Follows c) (hm : z.Free [.regs, .obs, .nv]) : z.Follows (Chip.updTrace c kind step result) := by
  unfold Chip.updTrace; try with_reducible dsimp only
  repeat' first | (with_reducible assumption) | (with_reducible apply Chip.shav_follows)

theorem Chip.xferBegin_follows {z : Kept} {c : Chip} (m : Dgram) (hz : z.Follows c) (hm : z.Free [.regs, .obs, .net, .ses, .nv]) : z.Follows (Chip.xferBegin c m) := by
  unfold Chip.xferBegin; try with_reducible dsimp only
  repeat' first | (with_reducible assumption) | exact hm.sub (by decide) | (with_reducible dsimp only) | (with_reducible apply Chip.updTrace_follows) | (with_reducible apply Chip.updState_follows) | (with_reducible refine Chip.request_follows _ _ _ _ (by assumption) (fun _ _ _ _ => ?_) (hm.sub (by decide))) | (with_reducible apply Chip.setFld_follows) | split | exact rfl | exact Nat.le_refl _ | (with_reducible apply follows_upd hm) | (intro x; cases x <;> first | exact .inl (by decide) | exact .inr rfl)

theorem Chip.xferData_follows {z : Kept} {c : Chip} (m : Dgram) (hz : z.Follows c) (hm : z.Free [.regs, .net, .ses]) : z.Follows (Chip.xferData c m) := by
  unfold Chip.xferData; try with_reducible dsimp only
  repeat' first | (with_reducible assumption) | exact hm.sub (by decide) | (with_reducible dsimp only) | (with_reducible refine Chip.request_follows _ _ _ _ (by assumption) (fun _ _ _ _ => ?_) (hm.sub (by decide))) | split | exact rfl | exact Nat.le_refl _ | (with_reducible apply follows_upd hm) | (intro x; cases x <;> first | exact .inl (by decide) | exact .inr rfl)

theorem Chip.xferEnd_follows {z : Kept} {c : Chip} (m : Dgram) (sig : Bool) (hz : z.Follows c) (hm : z.Free [.regs, .obs, .net, .boot, .ses, .nv]) : z.Follows (Chip.xferEnd c m sig) := by
  unfold Chip.xferEnd; try with_reducible dsimp only
  repeat' first | (with_reducible assumption) | exact hm.sub (by decide) | (with_reducible dsimp only) | (with_reducible apply Chip.updTrace_follows) | (with_reducible apply Chip.updState_follows) | (with_reducible refine Chip.request_follows _ _ _ _ (by assumption) (fun _ _ _ _ => ?_) (hm.sub (by decide))) | (with_reducible apply Chip.orReg_follows) | split | exact rfl | exact Nat.le_refl _ | (with_reducible apply follows_upd hm) | (intro x; cases x <;> first | exact .inl (by decide) | exact .inr rfl)

theorem Chip.attest_follows {z : Kept} {c : Chip} (m : Dgram) (hz : z.Follows c) (hm : z.Free [.regs, .net, .ses, .free]) : z.Follows (Chip.attest c m) := by
  unfold Chip.attest; try with_reducible dsimp only
  repeat' first | (with_reducible assumption) | exact hm.sub (by decide) | (with_reducible dsimp only) | (with_reducible refine Chip.request_follows _ _ _ _ (by assumption) (fun _ _ _ _ => ?_) (hm.sub (by decide))) | (with_reducible apply Chip.notePeer_follows) | (with_reducible apply Chip.mbDrop_follows) | (with_reducible apply Chip.nextSeq_follows) | (with_reducible apply Chip.modSess_follows) | (with_reducible apply Chip.signedMsg_follows) | (with_reducible apply Chip.queueFrame_follows) | (with_reducible apply follows_ite) | split

theorem Otp.goesTo_revoke (o : Otp) (i j : Nat) (hj : j < 4) (hij : i ≠ j) (hu : o.usable j = true) :
    o.goesTo { o with revoked := o.revoked ||| 1 <<< i } := by
  have hb : ∀ k, bit (o.revoked ||| 1 <<< i) k = (bit o.revoked k || decide (i = k)) := by
    intro k; simp only [bit, Nat.testBit_or, Nat.one_shiftLeft, Nat.testBit_two_pow]
  refine ⟨rfl, rfl, fun k hk => ?_, Nat.le_refl _, Nat.le_refl _, fun _ => ⟨j, hj, ?_⟩⟩
  · show bit (o.revoked ||| 1 <<< i) k = true
    rw [hb, hk, Bool.true_or]
  · simp only [Otp.usable, hb, hij, decide_false, Bool.or_false] at hu ⊢
    exact hu
theorem Chip.revoke_follows {z : Kept} {c : Chip} (i j : Nat) (hj : j < 4) (hij : i ≠ j) (hu : c.nv.otp.usable j = true) (hz : z.Follows c)
    (hm : z.Free [.regs, .nv, .otp]) : z.Follows (c.revoke i) :=
  Chip.setFld_follows _ _ _ _ _ (follows_otp (hm.sub (by decide)) hz _ (Otp.goesTo_revoke _ i j hj hij hu)) (hm.sub (by decide))

theorem Chip.keyRevoke_follows {z : Kept} {c : Chip} (m : Dgram) (sig : Bool) (hz : z.Follows c) (hm : z.Free [.regs, .net, .ses, .nv, .otp]) : z.Follows (c.keyRevoke m sig) := by
  unfold Chip.keyRevoke
  refine Chip.request_follows _ _ _ _ hz (fun k s r hk => ?_) (hm.sub (by decide))
  with_reducible dsimp only
  split
  · exact hk
  · split
    · exact hk
    · rename_i h1 h2
      simp only [not_or, Bool.or_eq_true, Bool.not_eq_true', Bool.not_eq_true] at h1 h2
      exact Chip.revoke_follows _ (leAt r.body 1 1) (by omega) h1.2.2 (by simpa [Otp.usable, Chip.slotGood] using h2.1) hk (hm.sub (by decide))

theorem Chip.recordAck_follows {z : Kept} {c : Chip} (m : Dgram) (hz : z.Follows c) (hm : z.Free [.regs, .net, .ses, .nv]) : z.Follows (Chip.recordAck c m) := by
  unfold Chip.recordAck; try with_reducible dsimp only
  repeat' first | (with_reducible assumption) | exact hm.sub (by decide) | (with_reducible dsimp only) | (with_reducible refine Chip.request_follows _ _ _ _ (by assumption) (fun _ _ _ _ => ?_) (hm.sub (by decide))) | split | exact rfl | exact Nat.le_refl _ | (with_reducible apply follows_upd hm) | (intro x; cases x <;> first | exact .inl (by decide) | exact .inr rfl)

theorem Chip.counterRead_follows {z : Kept} {c : Chip} (m : Dgram) (k o n : Nat) (hz : z.Follows c) (hm : z.Free [.regs, .net, .ses]) : z.Follows (Chip.counterRead c m k o n) := by
  unfold Chip.counterRead; try with_reducible dsimp only
  repeat' first | (with_reducible assumption) | exact hm.sub (by decide) | (with_reducible dsimp only) | (with_reducible refine Chip.request_follows _ _ _ _ (by assumption) (fun _ _ _ _ => ?_) (hm.sub (by decide))) | split

theorem Chip.counterAo_follows {z : Kept} {c : Chip} (m : Dgram) (hz : z.Follows c) (hm : z.Free [.regs, .net, .ses]) : z.Follows (Chip.counterAo c m) := by
  unfold Chip.counterAo; try with_reducible dsimp only
  repeat' first | (with_reducible assumption) | exact hm.sub (by decide) | (with_reducible dsimp only) | (with_reducible refine Chip.request_follows _ _ _ _ (by assumption) (fun _ _ _ _ => ?_) (hm.sub (by decide))) | split

theorem Chip.freshTrace_follows {z : Kept} {c : Chip} (ref : Nat) (hz : z.Follows c) (hm : z.Free [.obs]) : z.Follows (Chip.freshTrace c ref) := by
  unfold Chip.freshTrace; try with_reducible dsimp only
  repeat' first | (with_reducible assumption) | exact rfl | exact Nat.le_refl _ | (with_reducible apply follows_upd hm) | (intro x; cases x <;> first | exact .inl (by decide) | exact .inr rfl)

theorem Chip.startTrace_follows {z : Kept} {c : Chip} (s filter layers ref : Nat) (hz : z.Follows c) (hm : z.Free [.regs, .obs]) : z.Follows (Chip.startTrace c s filter layers ref) := by
  unfold Chip.startTrace; try with_reducible dsimp only
  repeat' first | (with_reducible assumption) | exact hm.sub (by decide) | (with_reducible dsimp only) | (with_reducible apply Chip.freshTrace_follows) | (with_reducible apply Chip.setReg_follows) | (with_reducible apply follows_eachDo) | intro _ _ _

theorem Chip.traceSubscribe_follows {z : Kept} {c : Chip} (m : Dgram) (hz : z.Follows c) (hm : z.Free [.regs, .obs, .net, .ses]) : z.Follows (Chip.traceSubscribe c m) := by
  unfold Chip.traceSubscribe; try with_reducible dsimp only
  repeat' first | (with_reducible assumption) | exact hm.sub (by decide) | (with_reducible dsimp only) | (with_reducible apply Chip.startTrace_follows) | (with_reducible refine Chip.request_follows _ _ _ _ (by assumption) (fun _ _ _ _ => ?_) (hm.sub (by decide))) | split

theorem Chip.traceStop_follows {z : Kept} {c : Chip} (m : Dgram) (hz : z.Follows c) (hm : z.Free [.regs, .obs, .net, .ses]) : z.Follows (Chip.traceStop c m) := by
  unfold Chip.traceStop; try with_reducible dsimp only
  repeat' first | (with_reducible assumption) | exact hm.sub (by decide) | (with_reducible dsimp only) | (with_reducible apply Chip.endTrace_follows) | (with_reducible refine Chip.request_follows _ _ _ _ (by assumption) (fun _ _ _ _ => ?_) (hm.sub (by decide))) | split

theorem Chip.noteSent_follows {z : Kept} {c : Chip} (old : Tab (List Bytes)) (new : Tab (List Bytes)) (hz : z.Follows c) (hm : z.Free [.obs]) : z.Follows (Chip.noteSent c old new) := by
  unfold Chip.noteSent; try with_reducible dsimp only
  repeat' first | (with_reducible assumption) | (with_reducible dsimp only) | (with_reducible apply Chip.noteTraffic_follows) | (with_reducible apply follows_eachDo) | intro _ _ _

theorem Chip.traceSend_follows {z : Kept} {c : Chip} (hz : z.Follows c) (hm : z.Free [.regs, .obs, .net, .ses]) : z.Follows (Chip.traceSend c) := by
  unfold Chip.traceSend; try with_reducible dsimp only
  repeat' first | (with_reducible assumption) | exact hm.sub (by decide) | (with_reducible apply Chip.noteSent_follows) | (with_reducible apply Chip.tell_follows) | (with_reducible apply Chip.addReg_follows) | (with_reducible apply follows_ite) | split | exact rfl | exact Nat.le_refl _ | (with_reducible apply follows_upd hm) | (intro x; cases x <;> first | exact .inl (by decide) | exact .inr rfl)

theorem Chip.dumpReq_follows {z : Kept} {c : Chip} (m : Dgram) (hz : z.Follows c) (hm : z.Free [.regs, .obs, .net, .ses]) : z.Follows (Chip.dumpReq c m) := by
  unfold Chip.dumpReq; try with_reducible dsimp only
  repeat' first | (with_reducible assumption) | exact hm.sub (by decide) | (with_reducible dsimp only) | (with_reducible refine Chip.request_follows _ _ _ _ (by assumption) (fun _ _ _ _ => ?_) (hm.sub (by decide))) | (with_reducible apply Chip.setReg_follows) | split | exact rfl | exact Nat.le_refl _ | (with_reducible apply follows_upd hm) | (intro x; cases x <;> first | exact .inl (by decide) | exact .inr rfl)

theorem Chip.dumpSend_follows {z : Kept} {c : Chip} (p : Nat) (hz : z.Follows c) (hm : z.Free [.regs, .obs, .net, .ses]) : z.Follows (Chip.dumpSend c p) := by
  unfold Chip.dumpSend; try with_reducible dsimp only
  repeat' first | (with_reducible assumption) | exact hm.sub (by decide) | (with_reducible dsimp only) | (with_reducible apply Chip.tell_follows) | (with_reducible apply Chip.setReg_follows) | (with_reducible apply follows_ite) | split | exact rfl | exact Nat.le_refl _ | (with_reducible apply follows_upd hm) | (intro x; cases x <;> first | exact .inl (by decide) | exact .inr rfl)

end Sys2Proof.Machine
end

