-- ==== Sys2Proof/Laws/FollowsStart.lean ====
section
/-! SUPPORT. Laws/FollowsStart.lean: every operation of the start sequence, loads, resets and resume keeps what `Chip.Follows` says. -/
namespace Sys2Proof.Machine

theorem Chip.halt_follows {z : Kept} {c : Chip} (hz : z.Follows c) (hm : z.Free [.regs]) : z.Follows (Chip.halt c) := by
  unfold Chip.halt; try with_reducible dsimp only
  repeat' first | (with_reducible assumption) | (with_reducible apply Chip.orReg_follows)

theorem Chip.find_follows {z : Kept} {c : Chip} (x : Fnd) (hz : z.Follows c) (hm : z.Free [.regs, .flt, .obs, .boot, .nv]) : z.Follows (Chip.find c x) := by
  unfold Chip.find; try with_reducible dsimp only
  repeat' first | (with_reducible assumption) | exact hm.sub (by decide) | (with_reducible apply Chip.halt_follows) | (with_reducible apply Chip.rise_follows) | (with_reducible apply Chip.shav_follows) | (with_reducible apply follows_ite) | split | exact rfl | exact Nat.le_refl _ | (with_reducible apply follows_upd hm) | (intro x; cases x <;> first | exact .inl (by decide) | exact .inr rfl)

theorem Chip.sendStartReport_follows {z : Kept} {c : Chip} (outcome : Nat) (hz : z.Follows c) (hm : z.Free [.net, .ses]) : z.Follows (Chip.sendStartReport c outcome) := by
  unfold Chip.sendStartReport; try with_reducible dsimp only
  repeat' first | (with_reducible assumption) | (with_reducible apply Chip.tell_follows) | (with_reducible apply follows_eachDo) | intro _ _ _

theorem Chip.stepDone_follows {z : Kept} {c : Chip} (n : Nat) (hz : z.Follows c) (hm : z.Free [.regs, .obs, .nv]) : z.Follows (Chip.stepDone c n) := by
  unfold Chip.stepDone; try with_reducible dsimp only
  repeat' first | (with_reducible assumption) | exact hm.sub (by decide) | (with_reducible apply Chip.shav_follows) | (with_reducible apply Chip.setFld_follows)

theorem Chip.startStep_follows {z : Kept} {c : Chip} (n : Nat) (f : Chip → Chip) (hz : z.Follows c) (hf : ∀ k0, z.Follows k0 → z.Follows (f k0)) (hm : z.Free [.regs, .obs, .nv]) : z.Follows (Chip.startStep c n f) := by
  unfold Chip.startStep; try with_reducible dsimp only
  repeat' first | (with_reducible assumption) | (with_reducible apply hf) | (with_reducible apply Chip.stepDone_follows) | (with_reducible apply follows_ite)

theorem Chip.fence_follows {z : Kept} {c : Chip} (d : Nat) (hz : z.Follows c) (hm : z.Free [.regs]) : z.Follows (Chip.fence c d) := by
  unfold Chip.fence; try with_reducible dsimp only
  repeat' first | (with_reducible assumption) | (with_reducible apply Chip.orReg_follows)

theorem Chip.findFence_follows {z : Kept} {c : Chip} (d : Nat) (x : Fnd) (hz : z.Follows c) (hm : z.Free [.regs, .flt, .obs, .boot, .nv]) : z.Follows (Chip.findFence c d x) := by
  unfold Chip.findFence; try with_reducible dsimp only
  repeat' first | (with_reducible assumption) | exact hm.sub (by decide) | (with_reducible apply Chip.fence_follows) | (with_reducible apply Chip.find_follows)

theorem Chip.domsOn_follows {z : Kept} {c : Chip} (hz : z.Follows c) (hm : z.Free [.regs]) : z.Follows (Chip.domsOn c) := by
  unfold Chip.domsOn; try with_reducible dsimp only
  repeat' first | (with_reducible assumption) | (with_reducible apply Chip.setReg_follows)

theorem Chip.noteOtp_follows {z : Kept} {c : Chip} (hz : z.Follows c) (hm : z.Free [.regs]) : z.Follows (Chip.noteOtp c) := by
  unfold Chip.noteOtp; try with_reducible dsimp only
  repeat' first | (with_reducible assumption) | (with_reducible apply Chip.setReg_follows)

theorem Chip.readRom_follows {z : Kept} {c : Chip} (f : Findings) (hz : z.Follows c) (hm : z.Free [.regs, .flt, .obs, .boot, .nv]) : z.Follows (Chip.readRom c f) := by
  unfold Chip.readRom; try with_reducible dsimp only
  repeat' first | (with_reducible assumption) | exact hm.sub (by decide) | (with_reducible apply Chip.noteOtp_follows) | (with_reducible apply Chip.find_follows) | (with_reducible apply follows_ite)

theorem Chip.loadFw_follows {z : Kept} {c : Chip} (f : Findings) (hz : z.Follows c) (hm : z.Free [.regs, .boot, .nv]) : z.Follows (Chip.loadFw c f) := by
  unfold Chip.loadFw; try with_reducible dsimp only
  repeat' first | (with_reducible assumption) | exact hm.sub (by decide) | (with_reducible apply Chip.orReg_follows) | (with_reducible apply Chip.setReg_follows) | (with_reducible apply follows_ite) | split | exact rfl | exact Nat.le_refl _ | (with_reducible apply follows_upd hm) | (intro x; cases x <;> first | exact .inl (by decide) | exact .inr rfl)

theorem Chip.startErase_follows {z : Kept} {c : Chip} (hz : z.Follows c) (hm : z.Free [.nv]) : z.Follows (Chip.startErase c) := by
  unfold Chip.startErase; try with_reducible dsimp only
  repeat' first | (with_reducible assumption) | (with_reducible apply Chip.eraseAhead_follows) | (with_reducible apply follows_ite)

theorem Chip.pairUp_follows {z : Kept} {c : Chip} (u mask : Nat) (hz : z.Follows c) (hm : z.Free [.regs, .ecc, .nv]) : z.Follows (Chip.pairUp c u mask) := by
  unfold Chip.pairUp; try with_reducible dsimp only
  repeat' first | (with_reducible assumption) | exact hm.sub (by decide) | (with_reducible apply Chip.addRepair_follows) | (with_reducible apply Chip.setReg_follows) | (with_reducible apply follows_eachDo) | intro _ _ _ | split | exact rfl | exact Nat.le_refl _ | (with_reducible apply follows_upd hm) | (intro x; cases x <;> first | exact .inl (by decide) | exact .inr rfl)

theorem Chip.trainDie_follows {z : Kept} {c : Chip} (f : Findings) (d : Nat) (hz : z.Follows c) (hm : z.Free [.regs, .ecc, .lnk]) : z.Follows (Chip.trainDie c f d) := by
  unfold Chip.trainDie; try with_reducible dsimp only
  repeat' first | (with_reducible assumption) | exact hm.sub (by decide) | (with_reducible apply Chip.replaceLanes_follows) | (with_reducible apply Chip.setLink_follows) | (with_reducible apply Chip.setReg_follows) | (with_reducible apply follows_eachDo) | intro _ _ _

theorem Chip.powerUp_follows {z : Kept} {c : Chip} (f : Findings) (hz : z.Follows c) (hm : z.Free [.regs, .ecc, .lnk, .flt, .obs, .boot, .nv]) : z.Follows (Chip.powerUp c f) := by
  unfold Chip.powerUp; try with_reducible dsimp only
  repeat' first | (with_reducible assumption) | exact hm.sub (by decide) | (with_reducible apply Chip.trainDie_follows) | (with_reducible apply Chip.pairUp_follows) | (with_reducible apply Chip.domsOn_follows) | (with_reducible apply Chip.fence_follows) | (with_reducible apply Chip.find_follows) | (with_reducible apply follows_eachDo) | (with_reducible apply follows_ite) | intro _ _ _

theorem Chip.takeCfg_follows {z : Kept} {c : Chip} (b : Bytes) (rs : List Rec) (hz : z.Follows c) (hm : z.Free [.regs, .boot, .cfg]) : z.Follows (c.takeCfg b rs) := by
  unfold Chip.takeCfg
  generalize fromLE (sha384 (b.take (b.length - 96))) = h
  refine Chip.setReg_follows _ _ _ ⟨hz.canon, hz.otp, hz.tick, hz.fl1, hz.next hm _ (fun x => ?_)⟩ (hm.sub (by decide))
  cases x <;> first | exact .inl (by decide) | exact .inr rfl

theorem Chip.loadCfg_follows {z : Kept} {c : Chip} (f : Findings) (hz : z.Follows c) (hm : z.Free [.regs, .flt, .obs, .boot, .nv, .cfg]) : z.Follows (Chip.loadCfg c f) := by
  unfold Chip.loadCfg; try with_reducible dsimp only
  repeat' first | (with_reducible assumption) | exact hm.sub (by decide) | (with_reducible apply Chip.takeCfg_follows) | (with_reducible apply Chip.find_follows) | (with_reducible apply follows_ite) | split

theorem Chip.startTime_follows {z : Kept} {c : Chip} (hz : z.Follows c) (hm : z.Free [.tb, .regs, .net]) : z.Follows (Chip.startTime c) := by
  unfold Chip.startTime; try with_reducible dsimp only
  repeat' first | (with_reducible assumption) | exact hm.sub (by decide) | (with_reducible apply Chip.newSegment_follows) | (with_reducible apply Chip.setTb_follows) | (with_reducible apply Chip.setReg_follows) | (with_reducible apply follows_eachDo) | (with_reducible apply follows_ite) | intro _ _ _ | split | exact rfl | exact Nat.le_refl _ | (with_reducible apply follows_upd hm) | (intro x; cases x <;> first | exact .inl (by decide) | exact .inr rfl)

theorem Chip.hppr_follows {z : Kept} {c : Chip} (d s : Nat) (hz : z.Follows c) (hm : z.Free [.regs, .ecc]) : z.Follows (Chip.hppr c d s) := by
  unfold Chip.hppr; try with_reducible dsimp only
  repeat' first | (with_reducible assumption) | exact hm.sub (by decide) | (with_reducible apply Chip.setFld_follows) | split | exact rfl | exact Nat.le_refl _ | (with_reducible apply follows_upd hm) | (intro x; cases x <;> first | exact .inl (by decide) | exact .inr rfl)

theorem Chip.ppr_follows {z : Kept} {c : Chip} (hard : Bool) (d s : Nat) (hz : z.Follows c) (hm : z.Free [.regs, .ecc]) : z.Follows (Chip.ppr c hard d s) := by
  unfold Chip.ppr; try with_reducible dsimp only
  repeat' first | (with_reducible assumption) | exact hm.sub (by decide) | (with_reducible apply Chip.hppr_follows) | (with_reducible apply Chip.setFld_follows) | split | exact rfl | exact Nat.le_refl _ | (with_reducible apply follows_upd hm) | (intro x; cases x <;> first | exact .inl (by decide) | exact .inr rfl)

theorem Chip.trainDdr_follows {z : Kept} {c : Chip} (f : Findings) (hard : Bool) (d s : Nat) (hz : z.Follows c) (hm : z.Free [.regs, .ecc]) : z.Follows (Chip.trainDdr c f hard d s) := by
  unfold Chip.trainDdr; try with_reducible dsimp only
  repeat' first | (with_reducible assumption) | exact hm.sub (by decide) | (with_reducible apply Chip.ppr_follows) | (with_reducible apply Chip.setReg_follows) | (with_reducible apply follows_ite) | split | exact rfl | exact Nat.le_refl _ | (with_reducible apply follows_upd hm) | (intro x; cases x <;> first | exact .inl (by decide) | exact .inr rfl)

theorem Chip.startDdr_follows {z : Kept} {c : Chip} (f : Findings) (power : Bool) (hz : z.Follows c) (hm : z.Free [.regs, .ecc]) : z.Follows (Chip.startDdr c f power) := by
  unfold Chip.startDdr; try with_reducible dsimp only
  repeat' first | (with_reducible assumption) | exact hm.sub (by decide) | (with_reducible apply Chip.trainDdr_follows) | (with_reducible apply Chip.fence_follows) | (with_reducible apply follows_eachDo) | (with_reducible apply follows_ite) | intro _ _ _

theorem Chip.bringSp_follows {z : Kept} {c : Chip} (f : Findings) (p : Nat) (hz : z.Follows c) (hm : z.Free [.regs, .sns]) : z.Follows (Chip.bringSp c f p) := by
  unfold Chip.bringSp; try with_reducible dsimp only
  repeat' first | (with_reducible assumption) | exact hm.sub (by decide) | (with_reducible apply Chip.modSp_follows) | (with_reducible apply Chip.setReg_follows) | (with_reducible apply follows_ite)

theorem Chip.bringEp_follows {z : Kept} {c : Chip} (f : Findings) (n : Nat) (hz : z.Follows c) (hm : z.Free [.regs, .net]) : z.Follows (Chip.bringEp c f n) := by
  unfold Chip.bringEp; try with_reducible dsimp only
  repeat' first | (with_reducible assumption) | exact hm.sub (by decide) | (with_reducible apply Chip.portUp_follows) | (with_reducible apply Chip.setReg_follows) | (with_reducible apply follows_ite)

theorem Chip.startPorts_follows {z : Kept} {c : Chip} (f : Findings) (hz : z.Follows c) (hm : z.Free [.regs, .sns, .net]) : z.Follows (Chip.startPorts c f) := by
  unfold Chip.startPorts; try with_reducible dsimp only
  repeat' first | (with_reducible assumption) | exact hm.sub (by decide) | (with_reducible apply Chip.bringEp_follows) | (with_reducible apply Chip.bringSp_follows) | (with_reducible apply follows_eachDo) | intro _ _ _

theorem Chip.missSp_follows {z : Kept} {c : Chip} (p : Nat) (m : SpMeas) (x : Miss) (hz : z.Follows c) (hm : z.Free [.regs, .flt, .obs, .boot, .nv]) : z.Follows (Chip.missSp c p m x) := by
  unfold Chip.missSp; try with_reducible dsimp only
  repeat' first | (with_reducible assumption) | exact hm.sub (by decide) | (with_reducible apply Chip.find_follows) | (with_reducible apply Chip.spLatch_follows) | (with_reducible apply Chip.raise_follows) | (with_reducible apply Chip.orReg_follows) | (with_reducible apply Chip.setReg_follows) | (with_reducible apply follows_ite)

theorem Chip.missEp_follows {z : Kept} {c : Chip} (n : Nat) (x : Miss) (hz : z.Follows c) (hm : z.Free [.regs, .flt, .obs, .boot, .nv]) : z.Follows (Chip.missEp c n x) := by
  unfold Chip.missEp; try with_reducible dsimp only
  repeat' first | (with_reducible assumption) | exact hm.sub (by decide) | (with_reducible apply Chip.find_follows) | (with_reducible apply Chip.epLatch_follows) | (with_reducible apply Chip.raise_follows) | (with_reducible apply Chip.setFld_follows) | (with_reducible apply Chip.orReg_follows) | (with_reducible apply follows_ite)

theorem Chip.findBoard_follows {z : Kept} {c : Chip} (f : Findings) (hz : z.Follows c) (hm : z.Free [.regs, .flt, .obs, .boot, .nv]) : z.Follows (Chip.findBoard c f) := by
  unfold Chip.findBoard; try with_reducible dsimp only
  repeat' first | (with_reducible assumption) | (with_reducible apply Chip.find_follows) | (with_reducible apply follows_eachDo) | (with_reducible apply follows_ite) | intro _ _ _

theorem Chip.findDie_follows {z : Kept} {c : Chip} (f : Findings) (d : Nat) (hz : z.Follows c) (hm : z.Free [.regs, .flt, .obs, .boot, .nv]) : z.Follows (Chip.findDie c f d) := by
  unfold Chip.findDie; try with_reducible dsimp only
  repeat' first | (with_reducible assumption) | (with_reducible apply Chip.findFence_follows) | (with_reducible apply Chip.find_follows) | (with_reducible apply follows_eachDo) | (with_reducible apply follows_ite) | intro _ _ _

theorem Chip.partsLeft_follows {z : Kept} {c : Chip} (hz : z.Follows c) (hm : z.Free [.regs]) : z.Follows (Chip.partsLeft c) := by
  unfold Chip.partsLeft; try with_reducible dsimp only
  repeat' first | (with_reducible assumption) | (with_reducible apply Chip.halt_follows) | (with_reducible apply follows_ite)

theorem Chip.findPorts_follows {z : Kept} {c : Chip} (f : Findings) (sps eps : List Nat) (hz : z.Follows c) (hm : z.Free [.regs, .flt, .obs, .boot, .nv]) : z.Follows (Chip.findPorts c f sps eps) := by
  unfold Chip.findPorts; try with_reducible dsimp only
  repeat' first | (with_reducible assumption) | (with_reducible apply Chip.missEp_follows) | (with_reducible apply Chip.missSp_follows) | (with_reducible apply follows_eachDo) | intro _ _ _

theorem Chip.classAll_follows {z : Kept} {c : Chip} (f : Findings) (hz : z.Follows c) (hm : z.Free [.regs, .flt, .obs, .boot, .nv]) : z.Follows (Chip.classAll c f) := by
  unfold Chip.classAll; try with_reducible dsimp only
  repeat' first | (with_reducible assumption) | exact hm.sub (by decide) | (with_reducible apply Chip.findPorts_follows) | (with_reducible apply Chip.partsLeft_follows) | (with_reducible apply Chip.findDie_follows) | (with_reducible apply Chip.findBoard_follows) | (with_reducible apply Chip.domsOn_follows) | (with_reducible apply Chip.find_follows) | (with_reducible apply follows_eachDo) | (with_reducible apply follows_ite) | intro _ _ _

theorem Chip.repairArr_follows {z : Kept} {c : Chip} (dpus : List DpuFind) (d k a : Nat) (hz : z.Follows c) (hm : z.Free [.regs, .ecc, .flt, .obs, .boot, .nv]) : z.Follows (Chip.repairArr c dpus d k a) := by
  unfold Chip.repairArr; try with_reducible dsimp only
  repeat' first | (with_reducible assumption) | exact hm.sub (by decide) | (with_reducible apply Chip.find_follows) | (with_reducible apply Chip.addRepair_follows) | (with_reducible apply Chip.setFld_follows) | (with_reducible apply follows_eachDo) | (with_reducible apply follows_ite) | intro _ _ _ | split | exact rfl | exact Nat.le_refl _ | (with_reducible apply follows_upd hm) | (intro x; cases x <;> first | exact .inl (by decide) | exact .inr rfl)

theorem Chip.placeCores_follows {z : Kept} {c : Chip} (d t : Nat) (broken : List Nat) (hz : z.Follows c) (hm : z.Free [.regs]) : z.Follows (Chip.placeCores c d t broken) := by
  unfold Chip.placeCores; try with_reducible dsimp only
  repeat' first | (with_reducible assumption) | (with_reducible apply Chip.mapAt_follows) | (with_reducible apply Chip.setPhys_follows) | (with_reducible apply Chip.setReg_follows) | (with_reducible apply follows_eachDo) | (with_reducible apply follows_ite) | intro _ _ _

theorem Chip.testDie_follows {z : Kept} {c : Chip} (f : Findings) (t d : Nat) (hz : z.Follows c) (hm : z.Free [.regs, .ecc, .flt, .obs, .boot, .nv]) : z.Follows (Chip.testDie c f t d) := by
  unfold Chip.testDie; try with_reducible dsimp only
  repeat' first | (with_reducible assumption) | exact hm.sub (by decide) | (with_reducible apply Chip.placeCores_follows) | (with_reducible apply Chip.repairArr_follows) | (with_reducible apply Chip.findFence_follows) | (with_reducible apply Chip.find_follows) | (with_reducible apply Chip.addRepair_follows) | (with_reducible apply follows_eachDo) | (with_reducible apply follows_ite) | intro _ _ _ | split | exact rfl | exact Nat.le_refl _ | (with_reducible apply follows_upd hm) | (intro x; cases x <;> first | exact .inl (by decide) | exact .inr rfl)

theorem Chip.selfTest_follows {z : Kept} {c : Chip} (f : Findings) (t : Nat) (hz : z.Follows c) (hm : z.Free [.regs, .ecc, .flt, .obs, .boot, .nv]) : z.Follows (Chip.selfTest c f t) := by
  unfold Chip.selfTest; try with_reducible dsimp only
  repeat' first | (with_reducible assumption) | exact hm.sub (by decide) | (with_reducible apply Chip.testDie_follows) | (with_reducible apply Chip.partsLeft_follows) | (with_reducible apply Chip.domsOn_follows) | (with_reducible apply Chip.find_follows) | (with_reducible apply Chip.addRepair_follows) | (with_reducible apply follows_eachDo) | (with_reducible apply follows_ite) | intro _ _ _ | split | exact rfl | exact Nat.le_refl _ | (with_reducible apply follows_upd hm) | (intro x; cases x <;> first | exact .inl (by decide) | exact .inr rfl)

theorem Chip.putTable_follows {z : Kept} {c : Chip} (d off v : Nat) (hz : z.Follows c) (hm : z.Free [.regs, .boot]) : z.Follows (Chip.putTable c d off v) := by
  unfold Chip.putTable; try with_reducible dsimp only
  repeat' first | (with_reducible assumption) | exact hm.sub (by decide) | (with_reducible apply Chip.setReg_follows) | exact rfl | exact Nat.le_refl _ | (with_reducible apply follows_upd hm) | (intro x; cases x <;> first | exact .inl (by decide) | exact .inr rfl)

theorem Chip.loadQueue_follows {z : Kept} {c : Chip} (g : Prog) (q : QDef) (hz : z.Follows c) (hm : z.Free [.regs, .fab, .boot]) : z.Follows (Chip.loadQueue c g q) := by
  unfold Chip.loadQueue; try with_reducible dsimp only
  repeat' first | (with_reducible assumption) | exact hm.sub (by decide) | (with_reducible apply Chip.putTable_follows) | (with_reducible apply Chip.setQueue_follows) | (with_reducible apply follows_eachDo) | intro _ _ _

theorem Chip.loadTask_follows {z : Kept} {c : Chip} (t : TaskDef) (hz : z.Follows c) (hm : z.Free [.regs, .wrk, .boot]) : z.Follows (Chip.loadTask c t) := by
  unfold Chip.loadTask; try with_reducible dsimp only
  repeat' first | (with_reducible assumption) | exact hm.sub (by decide) | (with_reducible apply Chip.putTable_follows) | (with_reducible apply Chip.setTask_follows) | (with_reducible apply follows_eachDo) | intro _ _ _

theorem Chip.loadList_follows {z : Kept} {c : Chip} (g : Prog) (l : LDef) (hz : z.Follows c) (hm : z.Free [.regs, .mem, .ecc, .wrk, .free]) : z.Follows (Chip.loadList c g l) := by
  unfold Chip.loadList; try with_reducible dsimp only
  repeat' first | (with_reducible assumption) | exact hm.sub (by decide) | (with_reducible apply Chip.fwWrite_follows) | split | exact rfl | exact Nat.le_refl _ | (with_reducible apply follows_upd hm) | (intro x; cases x <;> first | exact .inl (by decide) | exact .inr rfl)

theorem Chip.loadProg_follows {z : Kept} {c : Chip} (g : Prog) (hz : z.Follows c) (hm : z.Free [.regs, .mem, .ecc, .fab, .wrk, .boot, .free]) : z.Follows (Chip.loadProg c g) := by
  unfold Chip.loadProg; try with_reducible dsimp only
  repeat' first | (with_reducible assumption) | exact hm.sub (by decide) | (with_reducible apply Chip.loadList_follows) | (with_reducible apply Chip.loadTask_follows) | (with_reducible apply Chip.loadQueue_follows) | (with_reducible apply Chip.fwWrite_follows) | (with_reducible apply follows_eachDo) | intro _ _ _ | exact rfl | exact Nat.le_refl _ | (with_reducible apply follows_upd hm) | (intro x; cases x <;> first | exact .inl (by decide) | exact .inr rfl)

theorem Chip.placeTables_follows {z : Kept} {c : Chip} (hz : z.Follows c) (hm : z.Free [.regs]) : z.Follows (Chip.placeTables c) := by
  unfold Chip.placeTables; try with_reducible dsimp only
  repeat' first | (with_reducible assumption) | (with_reducible apply Chip.rebindBases_follows) | (with_reducible apply Chip.moveEnds_follows) | (with_reducible apply follows_eachDo) | intro _ _ _

theorem Chip.copyPkg_follows {z : Kept} {c : Chip} (s : Nat) (hz : z.Follows c) (hm : z.Free [.regs, .mem, .ecc, .free]) : z.Follows (Chip.copyPkg c s) := by
  unfold Chip.copyPkg; try with_reducible dsimp only
  repeat' first | (with_reducible assumption) | (with_reducible apply Chip.fwWrite_follows) | (with_reducible apply follows_eachDo) | intro _ _ _ | split

theorem Chip.startPkg_follows {z : Kept} {c : Chip} (f : Findings) (hz : z.Follows c) (hm : z.Free [.regs, .mem, .ecc, .flt, .obs, .boot, .nv, .free]) : z.Follows (Chip.startPkg c f) := by
  unfold Chip.startPkg; try with_reducible dsimp only
  repeat' first | (with_reducible assumption) | exact hm.sub (by decide) | (with_reducible apply Chip.copyPkg_follows) | (with_reducible apply Chip.find_follows) | (with_reducible apply Chip.usePkg_follows) | (with_reducible apply follows_ite) | split

theorem Chip.loadAll_follows {z : Kept} {c : Chip} (f : Findings) (hz : z.Follows c) (hm : z.Free [.regs, .mem, .ecc, .fab, .wrk, .flt, .obs, .sns, .boot, .nv, .free]) : z.Follows (Chip.loadAll c f) := by
  unfold Chip.loadAll; try with_reducible dsimp only
  repeat' first | (with_reducible assumption) | exact hm.sub (by decide) | (with_reducible apply Chip.startPkg_follows) | (with_reducible apply Chip.placeTables_follows) | (with_reducible apply Chip.loadProg_follows) | (with_reducible apply Chip.find_follows) | (with_reducible apply Chip.halt_follows) | (with_reducible apply Chip.freshRings_follows) | (with_reducible apply Chip.modPart_follows) | (with_reducible apply follows_eachDo) | (with_reducible apply follows_ite) | intro _ _ _

theorem Chip.eraseFl0_follows {z : Kept} {c : Chip} (a n : Nat) (hz : z.Follows c) (hm : z.Free [.nv]) : z.Follows (c.eraseFl0 a n) :=
  follows_nv hm hz _ (by decide) rfl (fun x => tabWf_flashErase x _ _) rfl

theorem Chip.dropStaged_follows {z : Kept} {c : Chip} (hz : z.Follows c) (hm : z.Free [.boot, .nv]) : z.Follows (Chip.dropStaged c) := by
  unfold Chip.dropStaged; try with_reducible dsimp only
  repeat' first | (with_reducible assumption) | exact hm.sub (by decide) | (with_reducible apply Chip.eraseFl0_follows) | split | exact rfl | exact Nat.le_refl _ | (with_reducible apply follows_upd hm) | (intro x; cases x <;> first | exact .inl (by decide) | exact .inr rfl)

theorem Chip.warmParts_follows {z : Kept} {c : Chip} (hz : z.Follows c) (hm : z.Free [.tb, .regs, .latch, .mem, .ecc, .fab, .cmp, .lnk, .wrk, .flt, .obs, .sns, .net, .boot, .ses, .pwr, .cfg]) : z.Follows c.warmParts := by
  have h1 := Chip.clearRegs_follows (fun d off => 0xFFFFFFFF - warmMask d off) hz (hm.sub (by decide))
  exact ⟨fun h => ⟨rfl, (h1.canon h).2.1, rfl, (hz.canon h).2.2.2⟩, hz.otp, hz.tick, hz.fl1,
    hz.next hm _ (fun x => by cases x <;> first | exact .inl (by decide) | exact .inr rfl)⟩

theorem Chip.endStart_follows {z : Kept} {c : Chip} (f : Findings) (hz : z.Follows c) (hm : z.Free [.regs, .net]) : z.Follows (Chip.endStart c f) := by
  unfold Chip.endStart; try with_reducible dsimp only
  repeat' first | (with_reducible assumption) | exact hm.sub (by decide) | (with_reducible apply Chip.bringEp_follows) | (with_reducible apply Chip.setFld_follows) | (with_reducible apply Chip.setReg_follows) | (with_reducible apply follows_eachDo) | (with_reducible apply follows_ite) | intro _ _ _

theorem Chip.startSeq_follows {z : Kept} {c : Chip} (f : Findings) (power : Bool) (cause : Nat) (hz : z.Follows c) (hm : z.Free [.tb, .regs, .mem, .ecc, .fab, .lnk, .wrk, .flt, .obs, .sns, .net, .boot, .nv, .cfg, .free]) : z.Follows (Chip.startSeq c f power cause) := by
  unfold Chip.startSeq; try with_reducible dsimp only
  repeat' first | (with_reducible assumption) | exact hm.sub (by decide) | (with_reducible apply Chip.endStart_follows) | (with_reducible apply Chip.loadAll_follows) | (with_reducible apply Chip.selfTest_follows) | (with_reducible apply Chip.classAll_follows) | (with_reducible apply Chip.startPorts_follows) | (with_reducible apply Chip.startDdr_follows) | (with_reducible apply Chip.startTime_follows) | (with_reducible apply Chip.loadCfg_follows) | (with_reducible apply Chip.powerUp_follows) | (with_reducible apply Chip.startErase_follows) | (with_reducible apply Chip.loadFw_follows) | (with_reducible apply Chip.readRom_follows) | (with_reducible apply Chip.startStep_follows) | (with_reducible apply Chip.setReg_follows) | intro _ _ _ | intro _ _

/-- Power-on keeps the stores canonical and FL1 as it is, and moves one-time-programmable memory forward only; the time bus starts anew. -/
theorem Chip.powerOn_keeps (c : Chip) (byPin : Bool) (lowNs : Nat) (f : Findings) :
    (c.canon → (c.powerOn byPin lowNs f).canon) ∧ c.nv.otp.goesTo (c.powerOn byPin lowNs f).nv.otp ∧ (c.powerOn byPin lowNs f).nv.fl1 = c.nv.fl1 := by
  unfold Chip.powerOn
  split
  · exact ⟨fun h => h, Otp.goesTo_refl _, rfl⟩
  · have h1 := Chip.dropStaged_follows (Kept.but_follows Comp.all c) ((Kept.but_free _ c).sub (by decide))
    have h2 := Chip.startSeq_follows f true 1 (Kept.but_follows Comp.all c.dropStaged.coldParts) ((Kept.but_free _ _).sub (by decide))
    exact ⟨fun h => h2.canon ⟨rfl, rfl, rfl, (h1.canon h).2.2.2⟩, Otp.goesTo_trans h1.otp h2.otp, h2.fl1.trans h1.fl1⟩

theorem Chip.warmStart_follows {z : Kept} {c : Chip} (lowNs : Nat) (f : Findings) (hz : z.Follows c) (hm : z.Free [.tb, .regs, .latch, .mem, .ecc, .fab, .cmp, .lnk, .wrk, .flt, .obs, .sns, .net, .boot, .ses, .pwr, .nv, .cfg, .free]) : z.Follows (Chip.warmStart c lowNs f) := by
  unfold Chip.warmStart; try with_reducible dsimp only
  repeat' first | (with_reducible assumption) | exact hm.sub (by decide) | (with_reducible apply Chip.startSeq_follows) | (with_reducible apply Chip.warmParts_follows) | (with_reducible apply Chip.dropStaged_follows) | (with_reducible apply follows_ite)

theorem Chip.chooseFull_follows {z : Kept} {c : Chip} (base : Nat) (hz : z.Follows c) (hm : z.Free [.regs, .wrk]) : z.Follows (Chip.chooseFull c base) := by
  unfold Chip.chooseFull; try with_reducible dsimp only
  repeat' first | (with_reducible assumption) | exact hm.sub (by decide) | (with_reducible apply Chip.setReg_follows) | split | exact rfl | exact Nat.le_refl _ | (with_reducible apply follows_upd hm) | (intro x; cases x <;> first | exact .inl (by decide) | exact .inr rfl)

theorem Otp.goesTo_raised (o : Otp) (f g : Nat) : o.goesTo (o.raised f g) :=
  ⟨rfl, rfl, fun _ h => h, Nat.le_max_left _ _, Nat.le_max_left _ _, fun h => h⟩
theorem Chip.raiseSvn_follows {z : Kept} {c : Chip} (hz : z.Follows c) (hm : z.Free [.regs, .nv, .otp]) : z.Follows c.raiseSvn :=
  Chip.noteOtp_follows (follows_otp (hm.sub (by decide)) hz _ (Otp.goesTo_raised _ _ _)) (hm.sub (by decide))

theorem Chip.startTurns_follows {z : Kept} {c : Chip} (hz : z.Follows c) (hm : z.Free [.tb, .regs, .wrk, .flt, .obs, .net, .ses, .nv, .otp]) : z.Follows (Chip.startTurns c) := by
  unfold Chip.startTurns; try with_reducible dsimp only
  repeat' first | (with_reducible assumption) | exact hm.sub (by decide) | (with_reducible apply Chip.raiseSvn_follows) | (with_reducible apply Chip.chooseFull_follows) | (with_reducible apply Chip.stepDone_follows) | (with_reducible apply Chip.sendStartReport_follows) | (with_reducible apply Chip.raise_follows) | (with_reducible apply Chip.advanceTo_follows) | (with_reducible apply Chip.setReg_follows) | (with_reducible apply follows_ite) | split | exact rfl | exact Nat.le_refl _ | (with_reducible apply follows_upd hm) | (intro x; cases x <;> first | exact .inl (by decide) | exact .inr rfl)

theorem Chip.updFailed_follows {z : Kept} {c : Chip} (x : Xfer) (hz : z.Follows c) (hm : z.Free [.regs, .obs, .boot, .nv]) : z.Follows (Chip.updFailed c x) := by
  unfold Chip.updFailed; try with_reducible dsimp only
  repeat' first | (with_reducible assumption) | exact hm.sub (by decide) | (with_reducible apply Chip.dropStaged_follows) | (with_reducible apply Chip.updTrace_follows) | (with_reducible apply Chip.updState_follows) | (with_reducible apply Chip.orReg_follows) | exact rfl | exact Nat.le_refl _ | (with_reducible apply follows_upd hm) | (intro x; cases x <;> first | exact .inl (by decide) | exact .inr rfl)

theorem Chip.updStored_follows {z : Kept} {c : Chip} (x : Xfer) (hz : z.Follows c) (hm : z.Free [.boot, .nv]) : z.Follows (c.updStored x) := by
  unfold Chip.updStored
  exact follows_nv hm (Chip.dropStaged_follows hz (hm.sub (by decide))) _ (by decide) rfl (fun h => tabWf_flashWrite h _ _) rfl

theorem Chip.updWritten_follows {z : Kept} {c : Chip} (ok : Bool) (hz : z.Follows c) (hm : z.Free [.regs, .mem, .ecc, .obs, .boot, .nv, .free]) : z.Follows (Chip.updWritten c ok) := by
  unfold Chip.updWritten; try with_reducible dsimp only
  repeat' first | (with_reducible assumption) | exact hm.sub (by decide) | (with_reducible apply Chip.updStored_follows) | (with_reducible apply Chip.updFailed_follows) | (with_reducible apply Chip.copyPkg_follows) | (with_reducible apply Chip.updTrace_follows) | (with_reducible apply Chip.updState_follows) | (with_reducible apply Chip.setFld_follows) | (with_reducible apply follows_ite) | split | exact rfl | exact Nat.le_refl _ | (with_reducible apply follows_upd hm) | (intro x; cases x <;> first | exact .inl (by decide) | exact .inr rfl)

theorem Chip.darkEp_follows {z : Kept} {c : Chip} (n : Nat) (hz : z.Follows c) (hm : z.Free [.regs, .net]) : z.Follows (Chip.darkEp c n) := by
  unfold Chip.darkEp; try with_reducible dsimp only
  repeat' first | (with_reducible assumption) | exact hm.sub (by decide) | (with_reducible apply Chip.modEp_follows) | (with_reducible apply Chip.setFld_follows) | (with_reducible apply follows_ite)

theorem Chip.darkSp_follows {z : Kept} {c : Chip} (p : Nat) (hz : z.Follows c) (hm : z.Free [.regs, .sns]) : z.Follows (Chip.darkSp c p) := by
  unfold Chip.darkSp; try with_reducible dsimp only
  repeat' first | (with_reducible assumption) | exact hm.sub (by decide) | (with_reducible apply Chip.modSp_follows) | (with_reducible apply Chip.setFld_follows)

theorem Chip.parkMem_follows {z : Kept} {c : Chip} (hz : z.Follows c) (hm : z.Free [.mem]) : z.Follows c.parkMem :=
  follows_mem hm hz _ (fun h => tabWf_tabKeep 0#8 c.outlasts h)

theorem Chip.parkEcc_follows {z : Kept} {c : Chip} (hz : z.Follows c) (hm : z.Free [.ecc]) : z.Follows c.parkEcc :=
  follows_poison hm hz _ (fun h => tabWf_tabKeep false (fun w => c.outlasts (8 * w)) h)

theorem Chip.parkRest_follows {z : Kept} {c : Chip} (saved : Tab Word) (hz : z.Follows c) (hm : z.Free [.cmp, .lnk, .wrk, .pwr]) : z.Follows (Chip.parkRest c saved) := by
  unfold Chip.parkRest; try with_reducible dsimp only
  repeat' first | (with_reducible assumption) | exact rfl | exact Nat.le_refl _ | (with_reducible apply follows_upd hm) | (intro x; cases x <;> first | exact .inl (by decide) | exact .inr rfl)

theorem Chip.enterPark_follows {z : Kept} {c : Chip} (hz : z.Follows c) (hm : z.Free [.regs, .mem, .ecc, .cmp, .lnk, .wrk, .flt, .sns, .net, .pwr]) : z.Follows (Chip.enterPark c) := by
  unfold Chip.enterPark; try with_reducible dsimp only
  repeat' first | (with_reducible assumption) | exact hm.sub (by decide) | (with_reducible apply Chip.parkRest_follows) | (with_reducible apply Chip.parkEcc_follows) | (with_reducible apply Chip.parkMem_follows) | (with_reducible apply Chip.darkSp_follows) | (with_reducible apply Chip.darkEp_follows) | (with_reducible apply Chip.clearRegs_follows) | (with_reducible apply Chip.holdover_follows) | (with_reducible apply Chip.setReg_follows) | (with_reducible apply follows_eachDo) | (with_reducible apply follows_ite) | intro _ _ _

theorem Chip.wakeDdr_follows {z : Kept} {c : Chip} (f : Findings) (d s : Nat) (hz : z.Follows c) (hm : z.Free [.regs, .ecc, .flt]) : z.Follows (Chip.wakeDdr c f d s) := by
  unfold Chip.wakeDdr; try with_reducible dsimp only
  repeat' first | (with_reducible assumption) | (with_reducible apply Chip.dqsCheck_follows) | (with_reducible apply follows_eachDo) | intro _ _ _ | split

theorem Chip.moveCores_follows {z : Kept} {c : Chip} (old : Nat → Nat → Nat) (hz : z.Follows c) (hm : z.Free [.regs]) : z.Follows (Chip.moveCores c old) := by
  unfold Chip.moveCores; try with_reducible dsimp only
  repeat' first | (with_reducible assumption) | (with_reducible apply Chip.rebindBases_follows) | (with_reducible apply Chip.moveEnds_follows) | (with_reducible apply follows_eachDo) | intro _ _ _

theorem Chip.putSaved_follows {z : Kept} {c : Chip} (l : Tab Word) (hz : z.Follows c) (hm : z.Free [.regs]) : z.Follows (c.putSaved l) :=
  follows_regs (hm.sub (by decide)) hz _ (fun x => tabWf_foldl_tabSet 0#32 _ x)

theorem Chip.wake_follows {z : Kept} {c : Chip} (f : Findings) (hz : z.Follows c) (hm : z.Free [.regs, .ecc, .lnk, .flt, .obs, .sns, .net, .boot, .nv]) : z.Follows (Chip.wake c f) := by
  unfold Chip.wake; try with_reducible dsimp only
  repeat' first | (with_reducible assumption) | exact hm.sub (by decide) | (with_reducible apply Chip.putSaved_follows) | (with_reducible apply Chip.moveCores_follows) | (with_reducible apply Chip.wakeDdr_follows) | (with_reducible apply Chip.selfTest_follows) | (with_reducible apply Chip.findPorts_follows) | (with_reducible apply Chip.partsLeft_follows) | (with_reducible apply Chip.bringEp_follows) | (with_reducible apply Chip.bringSp_follows) | (with_reducible apply Chip.trainDie_follows) | (with_reducible apply Chip.domsOn_follows) | (with_reducible apply Chip.findFence_follows) | (with_reducible apply Chip.setReg_follows) | (with_reducible apply follows_eachDo) | intro _ _ _ | exact rfl | exact Nat.le_refl _ | (with_reducible apply follows_upd hm) | (intro x; cases x <;> first | exact .inl (by decide) | exact .inr rfl)

theorem Chip.restart_follows {z : Kept} {c : Chip} (hz : z.Follows c) (hm : z.Free [.regs, .wrk, .pwr]) : z.Follows (Chip.restart c) := by
  unfold Chip.restart; try with_reducible dsimp only
  repeat' first | (with_reducible assumption) | exact hm.sub (by decide) | (with_reducible apply Chip.setReg_follows) | exact rfl | exact Nat.le_refl _ | (with_reducible apply follows_upd hm) | (intro x; cases x <;> first | exact .inl (by decide) | exact .inr rfl)

theorem Chip.endResume_follows {z : Kept} {c : Chip} (f : Findings) (hz : z.Follows c) (hm : z.Free [.regs, .mem, .ecc, .cmp, .lnk, .wrk, .flt, .obs, .sns, .net, .boot, .ses, .pwr, .nv]) : z.Follows (Chip.endResume c f) := by
  unfold Chip.endResume; try with_reducible dsimp only
  repeat' first | (with_reducible assumption) | exact hm.sub (by decide) | (with_reducible apply Chip.restart_follows) | (with_reducible apply Chip.wake_follows) | (with_reducible apply Chip.enterPark_follows) | (with_reducible apply Chip.chooseFull_follows) | (with_reducible apply Chip.sendStartReport_follows) | (with_reducible apply Chip.modPart_follows) | (with_reducible apply Chip.setFld_follows) | (with_reducible apply follows_eachDo) | (with_reducible apply follows_ite) | intro _ _ _

theorem Chip.endMove_follows {z : Kept} {c : Chip} (f : Findings) (hz : z.Follows c) (hm : z.Free [.regs, .mem, .ecc, .cmp, .lnk, .wrk, .flt, .obs, .sns, .net, .boot, .ses, .pwr, .nv]) : z.Follows (Chip.endMove c f) := by
  unfold Chip.endMove; try with_reducible dsimp only
  repeat' first | (with_reducible assumption) | exact hm.sub (by decide) | (with_reducible apply Chip.endResume_follows) | (with_reducible apply Chip.restart_follows) | (with_reducible apply Chip.enterPark_follows) | split

end Sys2Proof.Machine
end

