-- ==== Sys2Proof/WellFormed.lean ====
section
/-! DEFINITION. WellFormed.lean: which terms of Instr name a command that the KY-8 can meet. The types bound most operands (dies, cores, ports, queues); the
checks here are the bounds that a type does not give. A term that a check refuses names no event of the device. -/
namespace Sys2Proof

/-- Whether a station number, as a Carver or the Turner uses it, names a station (R10, R25, R26): on a compute die the four stations of a core, the BX and the
XD; on the headstock die the SI, SO, EG and DM stations. -/
def stnExists (st : Stn) : Bool :=
  let i := st.val % 128
  if st.val / 128 = 0 then decide (i < 34) || (decide (40 ≤ i) && decide (i < 68)) || i == 72 || i == 73
  else (decide (32 ≤ i) && decide (i < 68)) || i == 96 || i == 97

/-- Whether a station is a data mover: DM of a core, or DM of the headstock die (R25, R26, R154). -/
def stnIsDm (st : Stn) : Bool :=
  let i := st.val % 128
  if st.val / 128 = 0 then i == 72 || i == 73 else decide (32 ≤ i) && decide (i < 68) && i % 4 == 3

/-- Whether a link end exists: modules 0–4 of a compute die, and on the headstock die the module of each compute die (R246). -/
def lnkExists (l : Lnk) : Bool := if l.die.val = 0 then l.mod.val != 0 else decide (l.mod.val < 5)

/-- No word's error is found twice by the reads of one command (R188, R202): a word is corrected or poisoned by the first read that finds it. -/
def upsetsOk : Upsets → Bool
  | [] => true
  | u :: t => t.all (fun v => u.addr / 8 != v.addr / 8 || u.chk != v.chk) && upsetsOk t

/-- A fault inverts at least one bit, and no place is named twice (R106). -/
def laneFaultsOk : LaneFaults → Bool
  | [] => true
  | f :: t => f.flip != 0 && t.all (fun g => f.arr != g.arr || f.lane != g.lane || f.acc != g.acc) && laneFaultsOk t

/-- No element twice. -/
def noTwice {α : Type} [BEq α] : List α → Bool
  | [] => true
  | a :: t => !t.contains a && noTwice t

/-- A DDR5 request stays within one line and is a multiple of one byte: a read of 1–64 bytes or a write of as many (R200). -/
def ddrReqOk (r : DdrReq) : Bool :=
  decide (1 ≤ r.len.val) && decide (r.addr.toNat % 64 + r.len.val ≤ 64) && (match r.data with | some b => b.length == r.len.val | none => true)

/-- The boundary's readings name each of the eight dies (R478, R512). -/
def envOk (e : BoundaryEnv) : Bool := e.tjNow.length == 8 && e.tjMax.length == 8 && e.power.length == 8

/-- Lanes, cores, rows and DPUs of a die's findings are named once, and oscillator counts by 2 × subchannel + rank (R104, R166, R210, R228). -/
def dieFindOk (f : DieFind) : Bool :=
  noTwice f.lanes && noTwice f.dpus && noTwice f.rows && noTwice (f.fit.map (·.1)) && decide (f.osc.length ≤ 4)

/-- Each rail, die and port of a start's findings is named once (R422, R430). -/
def findingsOk (f : Findings) : Bool :=
  noTwice (f.rails.map (·.1)) && noTwice f.badProgs && noTwice f.rows && noTwice (f.dies.map (·.die)) && noTwice (f.ports.map (·.port)) && f.dies.all dieFindOk

/-- An SSP transaction clocks 16 bytes in (R386, R387). -/
def mosiOk (b : Bytes) : Bool := b.length == 16

/-- An Ethernet frame carries its addresses and type (R286). -/
def frameOk (f : EthFrame) : Bool := decide (14 ≤ f.bytes.length)

/-- The stations that a command names by number (R10). -/
def Instr.stations : Instr → List Stn
  | .dmCopy st _ => [st]
  | .dmLoad st _ => [st]
  | .dmStore st => [st]
  | .commandStart st _ _ => [st]
  | .commandComplete st _ => [st]
  | .plainStoreAccept st _ _ => [st]
  | .remoteRequestArrive st _ _ => [st]
  | .remoteStatusReturn st _ => [st]
  | .stationResetByCarver st _ => [st]
  | .rstReqStation st _ => [st]
  | .stCmdRegWrite st _ _ _ => [st]
  | .mxPass .. | .mxPassBegin .. | .weightLoadDone .. | .mxVectorIssue .. | .mxRowWrite .. | .wfConv .. | .wfPool .. | .wfVectorDeliver ..
  | .vxChain .. | .vxRow .. | .vxReduce .. | .vxGather .. | .vxScatter .. | .vxScatadd .. | .vxBlankcmp .. | .vxDrainRead .. | .bxNms .. | .xdPut ..
  | .xdGet .. | .xdBcast .. | .xdAllgather .. | .xdRedscat .. | .xdAllreduce .. | .xdWopen .. | .xdWclose .. | .xdWcloseComplete .. | .siRun ..
  | .egMsg .. | .soFrame .. | .soFrameStart .. | .slotClaim .. | .slotFull .. | .slotAcquire .. | .slotRelease .. | .creditFlitSend ..
  | .creditFlitArrive .. | .sramCeWriteback .. | .sramScrubRead .. | .sramScrubForced .. | .ddrRequest .. | .ddrRefreshDue .. | .mr4Read ..
  | .rfmIssue .. | .dqsOscCheck .. | .ddrPatrolScrub .. | .resWindowEnd .. | .flitReceive .. | .ackTimer .. | .nakReceive .. | .moduleRetrain ..
  | .retrainDone .. | .digestTrailerArrive .. | .tallyArrive .. | .frameStartPacket .. | .csiLinePacket .. | .embeddedDataPacket ..
  | .frameEndPacket .. | .ingestWrite .. | .entryWritten .. | .frameSyncLaunch .. | .pocSample .. | .pocRetry .. | .eyeMarginCheck ..
  | .ethFrameReceive .. | .lidarWindowEnd .. | .tqFrameStart .. | .tq1Launch .. | .macsecRekey .. | .sqiRead .. | .linkDrop .. | .ptpSyncReceive ..
  | .adjSlew | .syncTimeout | .ptpSyncSend .. | .pdelayExchange .. | .announceSend .. | .tsInEdge .. | .tsinDataLoRead .. | .tsOutEdge .. | .ppsEdge
  | .turnBoundary .. | .taskRelease .. | .blankSlotStart | .blankSlotEnd | .blankVerdict .. | .budgetExpiry .. | .deadlineExpiry ..
  | .selftestSegmentDone .. | .clockWindow .. | .gateDecision .. | .resultLaunch .. | .errorLineLatch .. | .faultRecordWritten | .reportResend
  | .fcEscalate .. | .fswClear .. | .fltReadback .. | .lockstepMismatch .. | .lockstepVerdict .. | .agreementRead .. | .debugHalt .. | .sspCsFall
  | .sspChallenge .. | .wdResponseReady | .powerOnReset .. | .warmReset .. | .startTurns | .hello .. | .bye .. | .mgmtOpen .. | .mgmtAuth ..
  | .mgmtAuthTimeout .. | .mgmtSessionTimeout .. | .counterReadStation .. | .counterReadShadow .. | .counterReadAlwaysOn .. | .traceSubscribe ..
  | .traceStop .. | .traceRecordsSend | .regRead .. | .regWrite .. | .faultClear .. | .timeStep .. | .pocSwitch .. | .dumpReq .. | .dumpSend ..
  | .xferBegin .. | .xferData .. | .xferEnd .. | .attestReq .. | .keyRevoke .. | .recordAck .. | .pwrReqIdle .. | .pwrReqPark .. | .pwrReqActive ..
  | .domainGoodTimeout .. | .rstReqPartition .. | .undervoltage .. | .overvoltage .. | .refclkFail | .islandClockFail .. | .thermalTrip ..
  | .thermalWarning .. | .ageingRead .. | .pmbusPoll .. | .pmAlert .. | .splockPin .. | .splArmAtTurn .. | .splArmOnBit .. | .splArmNow ..
  | .debugScanRead .. | .qdescWrite .. | .mxInject .. | .dpuMapWrite .. | .taskEntryWrite .. | .w1cStatusClear .. | .lowWordRead ..
  | .drainStoreFwRead .. | .registerWrite .. | .headstockPeriodicTest .. | .sensorLinkLost .. | .linkUp .. | .thermalWarningEnd .. | .updateWritten ..
  | .stateMoveEnd .. | .debugUnlock .. => []

/-- Whether a term names a command. A row that no check bounds is named, so that a new row cannot slip past. -/
def Instr.wellFormed : Instr → Bool
  | .mxPass _ _ | .weightLoadDone _ _ | .mxVectorIssue _ _ | .wfConv _ _ | .wfPool _ _ | .vxReduce _ _ _ | .vxScatter _ _ | .vxScatadd _ _ _
  | .vxBlankcmp _ _ | .bxNms _ => true
  | .mxPassBegin _ _ ups | .wfVectorDeliver _ _ ups | .vxChain _ _ _ ups | .vxRow _ _ ups | .vxGather _ _ ups | .vxDrainRead _ _ ups
  | .slotAcquire _ ups | .slotFull _ ups | .sramScrubRead _ _ ups | .sramScrubForced _ _ ups | .regRead _ ups | .drainStoreFwRead _ _ _ _ ups | .ddrPatrolScrub _ _ ups | .xdPut _ _ ups => upsetsOk ups
  | .mxRowWrite _ _ flts => laneFaultsOk flts
  | .dmCopy st ups | .dmLoad st ups => stnIsDm st && upsetsOk ups
  | .dmStore st => stnIsDm st
  | .xdGet _ _ | .xdBcast _ _ | .xdAllgather _ _ | .xdWopen _ _ | .xdWclose _ _ | .xdWcloseComplete _ _ => true
  | .xdRedscat _ _ ord _ | .xdAllreduce _ _ ord _ => noTwice ord
  | .siRun _ | .egMsg _ _ | .soFrame _ | .soFrameStart _ => true
  | .commandStart st _ ups | .remoteRequestArrive st _ ups | .plainStoreAccept st _ ups => stnExists st && upsetsOk ups
  | .commandComplete st _ | .remoteStatusReturn st _ | .stationResetByCarver st _ => stnExists st
  | .slotClaim _ | .slotRelease _ | .creditFlitSend _ => true
  | .creditFlitArrive _ n => decide (1 ≤ n)
  | .sramCeWriteback _ | .ddrRefreshDue _ _ _ | .mr4Read _ _ _ _ _ | .rfmIssue _ _ _ | .dqsOscCheck _ _ _ _ _ | .resWindowEnd _ _ => true
  | .ddrRequest _ r ups => ddrReqOk r && upsetsOk ups
  | .flitReceive l _ | .ackTimer l | .nakReceive l _ | .moduleRetrain l => lnkExists l
  | .retrainDone l tx rx => lnkExists l && noTwice tx && noTwice rx
  | .digestTrailerArrive d src _ _ | .tallyArrive d src _ _ => d != src
  | .frameStartPacket _ _ _ _ _ _ | .csiLinePacket _ _ _ _ _ _ _ | .embeddedDataPacket _ _ _ _ _ _ | .frameEndPacket _ _ _ _ | .ingestWrite _ _ | .entryWritten _ _
  | .frameSyncLaunch _ _ | .pocSample _ _ | .pocRetry _ | .eyeMarginCheck _ _ | .sensorLinkLost _ => true
  | .ethFrameReceive _ f _ => frameOk f
  | .lidarWindowEnd _ | .tqFrameStart _ | .tq1Launch _ | .macsecRekey _ | .sqiRead _ _ | .linkDrop _ | .linkUp _ | .ptpSyncReceive _ _ _ | .adjSlew
  | .syncTimeout | .ptpSyncSend _ | .pdelayExchange _ _ | .announceSend _ | .tsInEdge _ _ _ _ | .tsinDataLoRead _ _ | .tsOutEdge _ | .ppsEdge => true
  | .turnBoundary env => envOk env
  | .taskRelease _ | .blankSlotStart | .blankSlotEnd | .blankVerdict _ | .budgetExpiry _ _ | .deadlineExpiry _ | .selftestSegmentDone _ _ _
  | .clockWindow _ _ _ _ | .gateDecision _ | .resultLaunch _ | .errorLineLatch _ _ | .faultRecordWritten | .reportResend | .fcEscalate _ _ _ | .fswClear _ _
  | .fltReadback _ _ | .lockstepMismatch _ | .lockstepVerdict _ _ | .agreementRead _ _ _ | .debugHalt _ | .sspCsFall => true
  | .sspChallenge mosi => mosiOk mosi
  | .wdResponseReady | .startTurns => true
  | .powerOnReset _ _ f | .warmReset _ f | .stateMoveEnd f => findingsOk f
  | .hello _ | .bye _ | .mgmtOpen _ | .mgmtAuth _ _ | .mgmtAuthTimeout _ | .mgmtSessionTimeout _ | .counterReadStation _ | .counterReadShadow _
  | .counterReadAlwaysOn _ | .traceSubscribe _ | .traceStop _ | .traceRecordsSend | .regWrite _ | .faultClear _ | .timeStep _ | .pocSwitch _
  | .dumpReq _ | .dumpSend _ | .xferBegin _ | .xferData _ | .xferEnd _ _ | .attestReq _ | .keyRevoke _ _ | .recordAck _ => true
  | .pwrReqIdle _ | .pwrReqPark _ | .pwrReqActive _ | .domainGoodTimeout _ | .rstReqPartition _ _ => true
  | .rstReqStation st _ | .stCmdRegWrite st _ _ _ => stnExists st
  | .undervoltage _ | .overvoltage _ | .refclkFail | .islandClockFail _ _ | .thermalTrip _ _ | .thermalWarning _ _ | .thermalWarningEnd _
  | .ageingRead _ _ _ => true
  | .pmbusPoll reads => noTwice (reads.map (·.addr))
  | .pmAlert _ | .splockPin _ | .splArmAtTurn _ _ | .splArmOnBit _ _ | .splArmNow _ | .debugScanRead _ | .debugUnlock _ => true
  | .qdescWrite _ _ _ _ _ | .mxInject _ _ _ _ | .dpuMapWrite _ _ _ _ _ | .taskEntryWrite _ _ _ _ _ | .w1cStatusClear _ _ _ _ | .lowWordRead _ _ _ _ => true
  | .registerWrite _ _ _ width _ => decide (1 ≤ width)
  | .headstockPeriodicTest _ | .updateWritten _ => true

end Sys2Proof
end

