-- ==== Sys2Proof/Laws/PerInstr.lean ====
section
/-! SUPPORT. Laws/PerInstr.lean: a statement made command by command: a well-formed command names only stations that exist. -/
namespace Sys2Proof.Laws.StationsExist

/-- Every station that a well-formed command names exists (R10, R25, R26). -/
def Statement (i : Instr) : Prop := i.wellFormed = true → ∀ st ∈ i.stations, stnExists st = true

/-- A data mover is a station. -/
theorem exists_of_isDm {st : Stn} (h : stnIsDm st = true) : stnExists st = true := by
  simp only [stnIsDm, stnExists] at *; (split at h <;> simp_all)
  omega

theorem mxPass (d : CDie) (c : CoreIx) : Statement (.mxPass d c) := fun _ _ m => absurd m List.not_mem_nil
theorem mxPassBegin (d : CDie) (c : CoreIx) (ups : Upsets) : Statement (.mxPassBegin d c ups) := fun _ _ m => absurd m List.not_mem_nil
theorem weightLoadDone (d : CDie) (c : CoreIx) : Statement (.weightLoadDone d c) := fun _ _ m => absurd m List.not_mem_nil
theorem mxVectorIssue (d : CDie) (c : CoreIx) : Statement (.mxVectorIssue d c) := fun _ _ m => absurd m List.not_mem_nil
theorem mxRowWrite (d : CDie) (c : CoreIx) (flts : LaneFaults) : Statement (.mxRowWrite d c flts) := fun _ _ m => absurd m List.not_mem_nil
theorem wfConv (d : CDie) (c : CoreIx) : Statement (.wfConv d c) := fun _ _ m => absurd m List.not_mem_nil
theorem wfPool (d : CDie) (c : CoreIx) : Statement (.wfPool d c) := fun _ _ m => absurd m List.not_mem_nil
theorem wfVectorDeliver (d : CDie) (c : CoreIx) (ups : Upsets) : Statement (.wfVectorDeliver d c ups) := fun _ _ m => absurd m List.not_mem_nil
theorem vxChain (d : CDie) (c : CoreIx) (res : OptLane) (ups : Upsets) : Statement (.vxChain d c res ups) := fun _ _ m => absurd m List.not_mem_nil
theorem vxRow (d : CDie) (c : CoreIx) (ups : Upsets) : Statement (.vxRow d c ups) := fun _ _ m => absurd m List.not_mem_nil
theorem vxReduce (d : CDie) (c : CoreIx) (res : OptLane) : Statement (.vxReduce d c res) := fun _ _ m => absurd m List.not_mem_nil
theorem vxGather (d : CDie) (c : CoreIx) (ups : Upsets) : Statement (.vxGather d c ups) := fun _ _ m => absurd m List.not_mem_nil
theorem vxScatter (d : CDie) (c : CoreIx) : Statement (.vxScatter d c) := fun _ _ m => absurd m List.not_mem_nil
theorem vxScatadd (d : CDie) (c : CoreIx) (res : OptLane) : Statement (.vxScatadd d c res) := fun _ _ m => absurd m List.not_mem_nil
theorem vxBlankcmp (d : CDie) (c : CoreIx) : Statement (.vxBlankcmp d c) := fun _ _ m => absurd m List.not_mem_nil
theorem vxDrainRead (d : CDie) (c : CoreIx) (ups : Upsets) : Statement (.vxDrainRead d c ups) := fun _ _ m => absurd m List.not_mem_nil
theorem dmCopy (st : Stn) (ups : Upsets) : Statement (.dmCopy st ups) := fun h _ m => by rw [List.mem_singleton.mp m]; exact exists_of_isDm (Bool.and_eq_true_iff.mp h).1
theorem dmLoad (st : Stn) (ups : Upsets) : Statement (.dmLoad st ups) := fun h _ m => by rw [List.mem_singleton.mp m]; exact exists_of_isDm (Bool.and_eq_true_iff.mp h).1
theorem dmStore (st : Stn) : Statement (.dmStore st) := fun h _ m => by rw [List.mem_singleton.mp m]; exact exists_of_isDm h
theorem bxNms (d : CDie) : Statement (.bxNms d) := fun _ _ m => absurd m List.not_mem_nil
theorem xdPut (d : CDie) (p : Part) (ups : Upsets) : Statement (.xdPut d p ups) := fun _ _ m => absurd m List.not_mem_nil
theorem xdGet (d : CDie) (p : Part) : Statement (.xdGet d p) := fun _ _ m => absurd m List.not_mem_nil
theorem xdBcast (d : CDie) (p : Part) : Statement (.xdBcast d p) := fun _ _ m => absurd m List.not_mem_nil
theorem xdAllgather (d : CDie) (p : Part) : Statement (.xdAllgather d p) := fun _ _ m => absurd m List.not_mem_nil
theorem xdRedscat (d : CDie) (p : Part) (ord : List (Fin 7)) (flt : Option (Nat × BitVec 32)) : Statement (.xdRedscat d p ord flt) := fun _ _ m => absurd m List.not_mem_nil
theorem xdAllreduce (d : CDie) (p : Part) (ord : List (Fin 7)) (flt : Option (Nat × BitVec 32)) : Statement (.xdAllreduce d p ord flt) := fun _ _ m => absurd m List.not_mem_nil
theorem xdWopen (d : CDie) (p : Part) : Statement (.xdWopen d p) := fun _ _ m => absurd m List.not_mem_nil
theorem xdWclose (d : CDie) (p : Part) : Statement (.xdWclose d p) := fun _ _ m => absurd m List.not_mem_nil
theorem xdWcloseComplete (d : CDie) (p : Part) : Statement (.xdWcloseComplete d p) := fun _ _ m => absurd m List.not_mem_nil
theorem siRun (pt : SiPort) : Statement (.siRun pt) := fun _ _ m => absurd m List.not_mem_nil
theorem egMsg (p : Part) (bad : ReadFault) : Statement (.egMsg p bad) := fun _ _ m => absurd m List.not_mem_nil
theorem soFrame (sp : SPort) : Statement (.soFrame sp) := fun _ _ m => absurd m List.not_mem_nil
theorem soFrameStart (sp : SPort) : Statement (.soFrameStart sp) := fun _ _ m => absurd m List.not_mem_nil
theorem commandStart (st : Stn) (p : Part) (ups : Upsets) : Statement (.commandStart st p ups) := fun h _ m => by rw [List.mem_singleton.mp m]; exact (Bool.and_eq_true_iff.mp h).1
theorem commandComplete (st : Stn) (p : Part) : Statement (.commandComplete st p) := fun h _ m => by rw [List.mem_singleton.mp m]; exact h
theorem slotClaim (q : QNum) : Statement (.slotClaim q) := fun _ _ m => absurd m List.not_mem_nil
theorem slotFull (q : QNum) (ups : Upsets) : Statement (.slotFull q ups) := fun _ _ m => absurd m List.not_mem_nil
theorem slotAcquire (q : QNum) (ups : Upsets) : Statement (.slotAcquire q ups) := fun _ _ m => absurd m List.not_mem_nil
theorem slotRelease (q : QNum) : Statement (.slotRelease q) := fun _ _ m => absurd m List.not_mem_nil
theorem creditFlitSend (q : QNum) : Statement (.creditFlitSend q) := fun _ _ m => absurd m List.not_mem_nil
theorem creditFlitArrive (q : QNum) (n : Nat) : Statement (.creditFlitArrive q n) := fun _ _ m => absurd m List.not_mem_nil
theorem plainStoreAccept (st : Stn) (p : Part) (ups : Upsets) : Statement (.plainStoreAccept st p ups) := fun h _ m => by rw [List.mem_singleton.mp m]; exact (Bool.and_eq_true_iff.mp h).1
theorem sramCeWriteback (d : Die) : Statement (.sramCeWriteback d) := fun _ _ m => absurd m List.not_mem_nil
theorem sramScrubRead (d : Die) (buf : Fin 19) (ups : Upsets) : Statement (.sramScrubRead d buf ups) := fun _ _ m => absurd m List.not_mem_nil
theorem sramScrubForced (d : Die) (buf : Fin 19) (ups : Upsets) : Statement (.sramScrubForced d buf ups) := fun _ _ m => absurd m List.not_mem_nil
theorem remoteRequestArrive (st : Stn) (p : Part) (ups : Upsets) : Statement (.remoteRequestArrive st p ups) := fun h _ m => by rw [List.mem_singleton.mp m]; exact (Bool.and_eq_true_iff.mp h).1
theorem remoteStatusReturn (st : Stn) (p : Part) : Statement (.remoteStatusReturn st p) := fun h _ m => by rw [List.mem_singleton.mp m]; exact h
theorem ddrRequest (d : CDie) (r : DdrReq) (ups : Upsets) : Statement (.ddrRequest d r ups) := fun _ _ m => absurd m List.not_mem_nil
theorem ddrRefreshDue (d : CDie) (sub : Fin 2) (rank : Fin 2) : Statement (.ddrRefreshDue d sub rank) := fun _ _ m => absurd m List.not_mem_nil
theorem mr4Read (d : CDie) (sub : Fin 2) (rank : Fin 2) (code : Fin 8) (hot : Bool) : Statement (.mr4Read d sub rank code hot) := fun _ _ m => absurd m List.not_mem_nil
theorem rfmIssue (d : CDie) (sub : Fin 2) (bank : Fin 32) : Statement (.rfmIssue d sub bank) := fun _ _ m => absurd m List.not_mem_nil
theorem dqsOscCheck (d : CDie) (sub : Fin 2) (rank : Fin 2) (count : BitVec 16) (marginOk : Bool) : Statement (.dqsOscCheck d sub rank count marginOk) := fun _ _ m => absurd m List.not_mem_nil
theorem ddrPatrolScrub (d : CDie) (sub : Fin 2) (ups : Upsets) : Statement (.ddrPatrolScrub d sub ups) := fun _ _ m => absurd m List.not_mem_nil
theorem resWindowEnd (d : CDie) (waiting : Fin 16) : Statement (.resWindowEnd d waiting) := fun _ _ m => absurd m List.not_mem_nil
theorem flitReceive (l : Lnk) (flit : Bytes) : Statement (.flitReceive l flit) := fun _ _ m => absurd m List.not_mem_nil
theorem ackTimer (l : Lnk) : Statement (.ackTimer l) := fun _ _ m => absurd m List.not_mem_nil
theorem nakReceive (l : Lnk) (sq : Fin 4096) : Statement (.nakReceive l sq) := fun _ _ m => absurd m List.not_mem_nil
theorem moduleRetrain (l : Lnk) : Statement (.moduleRetrain l) := fun _ _ m => absurd m List.not_mem_nil
theorem retrainDone (l : Lnk) (badTx : Lanes) (badRx : Lanes) : Statement (.retrainDone l badTx badRx) := fun _ _ m => absurd m List.not_mem_nil
theorem digestTrailerArrive (d : Die) (src : Die) (num : Fin 8192) (tr : Trailer) : Statement (.digestTrailerArrive d src num tr) := fun _ _ m => absurd m List.not_mem_nil
theorem tallyArrive (d : Die) (src : Die) (p : Part) (count : Nat) : Statement (.tallyArrive d src p count) := fun _ _ m => absurd m List.not_mem_nil
theorem frameStartPacket (sp : SPort) (vc : Fin 4) (frameNo : BitVec 16) (retx : Nat) (hdr : HdrEcc) (cap : Capture) : Statement (.frameStartPacket sp vc frameNo retx hdr cap) := fun _ _ m => absurd m List.not_mem_nil
theorem csiLinePacket (sp : SPort) (vc : Fin 4) (dt : Fin 64) (data : Bytes) (hdr : HdrEcc) (crcOk : Bool) (retx : Nat) : Statement (.csiLinePacket sp vc dt data hdr crcOk retx) := fun _ _ m => absurd m List.not_mem_nil
theorem embeddedDataPacket (sp : SPort) (vc : Fin 4) (data : Bytes) (hdr : HdrEcc) (crcOk : Bool) (retx : Nat) : Statement (.embeddedDataPacket sp vc data hdr crcOk retx) := fun _ _ m => absurd m List.not_mem_nil
theorem frameEndPacket (sp : SPort) (vc : Fin 4) (hdr : HdrEcc) (retx : Nat) : Statement (.frameEndPacket sp vc hdr retx) := fun _ _ m => absurd m List.not_mem_nil
theorem ingestWrite (sp : SPort) (vc : Fin 4) : Statement (.ingestWrite sp vc) := fun _ _ m => absurd m List.not_mem_nil
theorem entryWritten (sp : SPort) (vc : Fin 4) : Statement (.entryWritten sp vc) := fun _ _ m => absurd m List.not_mem_nil
theorem frameSyncLaunch (sp : SPort) (off : Nat) : Statement (.frameSyncLaunch sp off) := fun _ _ m => absurd m List.not_mem_nil
theorem pocSample (sp : SPort) (ma : BitVec 16) : Statement (.pocSample sp ma) := fun _ _ m => absurd m List.not_mem_nil
theorem pocRetry (sp : SPort) : Statement (.pocRetry sp) := fun _ _ m => absurd m List.not_mem_nil
theorem eyeMarginCheck (sp : SPort) (low : Bool) : Statement (.eyeMarginCheck sp low) := fun _ _ m => absurd m List.not_mem_nil
theorem ethFrameReceive (ep : EPort) (f : EthFrame) (cap : Capture) : Statement (.ethFrameReceive ep f cap) := fun _ _ m => absurd m List.not_mem_nil
theorem lidarWindowEnd (l : Lidar) : Statement (.lidarWindowEnd l) := fun _ _ m => absurd m List.not_mem_nil
theorem tqFrameStart (ep : EPort) : Statement (.tqFrameStart ep) := fun _ _ m => absurd m List.not_mem_nil
theorem tq1Launch (ep : EPort) : Statement (.tq1Launch ep) := fun _ _ m => absurd m List.not_mem_nil
theorem macsecRekey (ep : EPort) : Statement (.macsecRekey ep) := fun _ _ m => absurd m List.not_mem_nil
theorem sqiRead (ep : EPort) (v : Fin 8) : Statement (.sqiRead ep v) := fun _ _ m => absurd m List.not_mem_nil
theorem linkDrop (ep : EPort) : Statement (.linkDrop ep) := fun _ _ m => absurd m List.not_mem_nil
theorem ptpSyncReceive (ep : EPort) (off : Int) (ppm : Int) : Statement (.ptpSyncReceive ep off ppm) := fun _ _ m => absurd m List.not_mem_nil
theorem adjSlew : Statement (.adjSlew) := fun _ _ m => absurd m List.not_mem_nil
theorem syncTimeout : Statement (.syncTimeout) := fun _ _ m => absurd m List.not_mem_nil
theorem ptpSyncSend (ep : EPort) : Statement (.ptpSyncSend ep) := fun _ _ m => absurd m List.not_mem_nil
theorem pdelayExchange (ep : EPort) (mpd : Nat) : Statement (.pdelayExchange ep mpd) := fun _ _ m => absurd m List.not_mem_nil
theorem announceSend (ep : EPort) : Statement (.announceSend ep) := fun _ _ m => absurd m List.not_mem_nil
theorem tsInEdge (pin : Pin) (rising : Bool) (phase : Fin 4) (pulse : Nat) : Statement (.tsInEdge pin rising phase pulse) := fun _ _ m => absurd m List.not_mem_nil
theorem tsinDataLoRead (pin : Pin) (who : Src) : Statement (.tsinDataLoRead pin who) := fun _ _ m => absurd m List.not_mem_nil
theorem tsOutEdge (pin : Pin) : Statement (.tsOutEdge pin) := fun _ _ m => absurd m List.not_mem_nil
theorem ppsEdge : Statement (.ppsEdge) := fun _ _ m => absurd m List.not_mem_nil
theorem turnBoundary (env : BoundaryEnv) : Statement (.turnBoundary env) := fun _ _ m => absurd m List.not_mem_nil
theorem taskRelease (j : JobIx) : Statement (.taskRelease j) := fun _ _ m => absurd m List.not_mem_nil
theorem blankSlotStart : Statement (.blankSlotStart) := fun _ _ m => absurd m List.not_mem_nil
theorem blankSlotEnd : Statement (.blankSlotEnd) := fun _ _ m => absurd m List.not_mem_nil
theorem blankVerdict (d : CDie) : Statement (.blankVerdict d) := fun _ _ m => absurd m List.not_mem_nil
theorem budgetExpiry (d : Die) (k : TaskIx) : Statement (.budgetExpiry d k) := fun _ _ m => absurd m List.not_mem_nil
theorem deadlineExpiry (j : JobIx) : Statement (.deadlineExpiry j) := fun _ _ m => absurd m List.not_mem_nil
theorem stationResetByCarver (st : Stn) (p : Part) : Statement (.stationResetByCarver st p) := fun h _ m => by rw [List.mem_singleton.mp m]; exact h
theorem selftestSegmentDone (d : CDie) (c : CoreIx) (v : SegVerdict) : Statement (.selftestSegmentDone d c v) := fun _ _ m => absurd m List.not_mem_nil
theorem clockWindow (d : CDie) (isl : Fin 14) (cycles : Nat) (ext : ExtRead) : Statement (.clockWindow d isl cycles ext) := fun _ _ m => absurd m List.not_mem_nil
theorem gateDecision (p : Part) : Statement (.gateDecision p) := fun _ _ m => absurd m List.not_mem_nil
theorem resultLaunch (p : Part) : Statement (.resultLaunch p) := fun _ _ m => absurd m List.not_mem_nil
theorem errorLineLatch (b : FswBit) (phase : Fin 4) : Statement (.errorLineLatch b phase) := fun _ _ m => absurd m List.not_mem_nil
theorem faultRecordWritten : Statement (.faultRecordWritten) := fun _ _ m => absurd m List.not_mem_nil
theorem reportResend : Statement (.reportResend) := fun _ _ m => absurd m List.not_mem_nil
theorem fcEscalate (b : FswBit) (cause : BitVec 8) (who : Src) : Statement (.fcEscalate b cause who) := fun _ _ m => absurd m List.not_mem_nil
theorem fswClear (mask : BitVec 64) (who : Src) : Statement (.fswClear mask who) := fun _ _ m => absurd m List.not_mem_nil
theorem fltReadback (n : Bool) (p : Bool) : Statement (.fltReadback n p) := fun _ _ m => absurd m List.not_mem_nil
theorem lockstepMismatch (u : Unit8) : Statement (.lockstepMismatch u) := fun _ _ m => absurd m List.not_mem_nil
theorem lockstepVerdict (u : Unit8) (v : LsVerdict) : Statement (.lockstepVerdict u v) := fun _ _ m => absurd m List.not_mem_nil
theorem agreementRead (u : Unit8) (a : BitVec 32) (b : BitVec 32) : Statement (.agreementRead u a b) := fun _ _ m => absurd m List.not_mem_nil
theorem debugHalt (u : Unit8) : Statement (.debugHalt u) := fun _ _ m => absurd m List.not_mem_nil
theorem sspCsFall : Statement (.sspCsFall) := fun _ _ m => absurd m List.not_mem_nil
theorem sspChallenge (mosi : Bytes) : Statement (.sspChallenge mosi) := fun _ _ m => absurd m List.not_mem_nil
theorem wdResponseReady : Statement (.wdResponseReady) := fun _ _ m => absurd m List.not_mem_nil
theorem powerOnReset (byPin : Bool) (lowNs : Nat) (f : Findings) : Statement (.powerOnReset byPin lowNs f) := fun _ _ m => absurd m List.not_mem_nil
theorem warmReset (lowNs : Nat) (f : Findings) : Statement (.warmReset lowNs f) := fun _ _ m => absurd m List.not_mem_nil
theorem startTurns : Statement (.startTurns) := fun _ _ m => absurd m List.not_mem_nil
theorem hello (m : Dgram) : Statement (.hello m) := fun _ _ m => absurd m List.not_mem_nil
theorem bye (m : Dgram) : Statement (.bye m) := fun _ _ m => absurd m List.not_mem_nil
theorem mgmtOpen (m : Dgram) : Statement (.mgmtOpen m) := fun _ _ m => absurd m List.not_mem_nil
theorem mgmtAuth (m : Dgram) (sigOk : Bool) : Statement (.mgmtAuth m sigOk) := fun _ _ m => absurd m List.not_mem_nil
theorem mgmtAuthTimeout (ms : MSess) : Statement (.mgmtAuthTimeout ms) := fun _ _ m => absurd m List.not_mem_nil
theorem mgmtSessionTimeout (ms : MSess) : Statement (.mgmtSessionTimeout ms) := fun _ _ m => absurd m List.not_mem_nil
theorem counterReadStation (m : Dgram) : Statement (.counterReadStation m) := fun _ _ m => absurd m List.not_mem_nil
theorem counterReadShadow (m : Dgram) : Statement (.counterReadShadow m) := fun _ _ m => absurd m List.not_mem_nil
theorem counterReadAlwaysOn (m : Dgram) : Statement (.counterReadAlwaysOn m) := fun _ _ m => absurd m List.not_mem_nil
theorem traceSubscribe (m : Dgram) : Statement (.traceSubscribe m) := fun _ _ m => absurd m List.not_mem_nil
theorem traceStop (m : Dgram) : Statement (.traceStop m) := fun _ _ m => absurd m List.not_mem_nil
theorem traceRecordsSend : Statement (.traceRecordsSend) := fun _ _ m => absurd m List.not_mem_nil
theorem regRead (m : Dgram) (ups : Upsets) : Statement (.regRead m ups) := fun _ _ m => absurd m List.not_mem_nil
theorem regWrite (m : Dgram) : Statement (.regWrite m) := fun _ _ m => absurd m List.not_mem_nil
theorem faultClear (m : Dgram) : Statement (.faultClear m) := fun _ _ m => absurd m List.not_mem_nil
theorem timeStep (m : Dgram) : Statement (.timeStep m) := fun _ _ m => absurd m List.not_mem_nil
theorem pocSwitch (m : Dgram) : Statement (.pocSwitch m) := fun _ _ m => absurd m List.not_mem_nil
theorem dumpReq (m : Dgram) : Statement (.dumpReq m) := fun _ _ m => absurd m List.not_mem_nil
theorem dumpSend (p : Part) : Statement (.dumpSend p) := fun _ _ m => absurd m List.not_mem_nil
theorem xferBegin (m : Dgram) : Statement (.xferBegin m) := fun _ _ m => absurd m List.not_mem_nil
theorem xferData (m : Dgram) : Statement (.xferData m) := fun _ _ m => absurd m List.not_mem_nil
theorem xferEnd (m : Dgram) (sigOk : Bool) : Statement (.xferEnd m sigOk) := fun _ _ m => absurd m List.not_mem_nil
theorem attestReq (m : Dgram) : Statement (.attestReq m) := fun _ _ m => absurd m List.not_mem_nil
theorem keyRevoke (m : Dgram) (sigOk : Bool) : Statement (.keyRevoke m sigOk) := fun _ _ m => absurd m List.not_mem_nil
theorem recordAck (m : Dgram) : Statement (.recordAck m) := fun _ _ m => absurd m List.not_mem_nil
theorem pwrReqIdle (who : Src) : Statement (.pwrReqIdle who) := fun _ _ m => absurd m List.not_mem_nil
theorem pwrReqPark (who : Src) : Statement (.pwrReqPark who) := fun _ _ m => absurd m List.not_mem_nil
theorem pwrReqActive (who : Src) : Statement (.pwrReqActive who) := fun _ _ m => absurd m List.not_mem_nil
theorem domainGoodTimeout (dom : Dom) : Statement (.domainGoodTimeout dom) := fun _ _ m => absurd m List.not_mem_nil
theorem rstReqPartition (p : Part) (who : Src) : Statement (.rstReqPartition p who) := fun _ _ m => absurd m List.not_mem_nil
theorem rstReqStation (st : Stn) (who : Src) : Statement (.rstReqStation st who) := fun h _ m => by rw [List.mem_singleton.mp m]; exact h
theorem undervoltage (dom : Dom) : Statement (.undervoltage dom) := fun _ _ m => absurd m List.not_mem_nil
theorem overvoltage (dom : Dom) : Statement (.overvoltage dom) := fun _ _ m => absurd m List.not_mem_nil
theorem refclkFail : Statement (.refclkFail) := fun _ _ m => absurd m List.not_mem_nil
theorem islandClockFail (d : Die) (isl : Fin 14) : Statement (.islandClockFail d isl) := fun _ _ m => absurd m List.not_mem_nil
theorem thermalTrip (d : Die) (sensor : Fin 4) : Statement (.thermalTrip d sensor) := fun _ _ m => absurd m List.not_mem_nil
theorem thermalWarning (d : Die) (sensor : Fin 4) : Statement (.thermalWarning d sensor) := fun _ _ m => absurd m List.not_mem_nil
theorem ageingRead (d : CDie) (isl : Fin 14) (count : Nat) : Statement (.ageingRead d isl count) := fun _ _ m => absurd m List.not_mem_nil
theorem pmbusPoll (reads : PmReads) : Statement (.pmbusPoll reads) := fun _ _ m => absurd m List.not_mem_nil
theorem pmAlert (fault : Bool) : Statement (.pmAlert fault) := fun _ _ m => absurd m List.not_mem_nil
theorem splockPin (lowNs : Nat) : Statement (.splockPin lowNs) := fun _ _ m => absurd m List.not_mem_nil
theorem splArmAtTurn (turn : BitVec 64) (who : Src) : Statement (.splArmAtTurn turn who) := fun _ _ m => absurd m List.not_mem_nil
theorem splArmOnBit (b : FswBit) (who : Src) : Statement (.splArmOnBit b who) := fun _ _ m => absurd m List.not_mem_nil
theorem splArmNow (who : Src) : Statement (.splArmNow who) := fun _ _ m => absurd m List.not_mem_nil
theorem debugScanRead (tgt : ScanTarget) : Statement (.debugScanRead tgt) := fun _ _ m => absurd m List.not_mem_nil
theorem qdescWrite (d : Die) (q : Fin 1024) (w : Fin 4) (v : BitVec 32) (who : Src) : Statement (.qdescWrite d q w v who) := fun _ _ m => absurd m List.not_mem_nil
theorem stCmdRegWrite (st : Stn) (r : Fin 3) (v : BitVec 32) (who : Src) : Statement (.stCmdRegWrite st r v who) := fun h _ m => by rw [List.mem_singleton.mp m]; exact h
theorem mxInject (d : CDie) (c : CoreIx) (v : BitVec 32) (who : Src) : Statement (.mxInject d c v who) := fun _ _ m => absurd m List.not_mem_nil
theorem dpuMapWrite (d : CDie) (c : CoreIx) (hi : Bool) (v : BitVec 32) (who : Src) : Statement (.dpuMapWrite d c hi v who) := fun _ _ m => absurd m List.not_mem_nil
theorem taskEntryWrite (d : Die) (k : TaskIx) (w : Fin 16) (v : BitVec 32) (who : Src) : Statement (.taskEntryWrite d k w v who) := fun _ _ m => absurd m List.not_mem_nil
theorem w1cStatusClear (d : Die) (off : BitVec 24) (v : BitVec 32) (who : Src) : Statement (.w1cStatusClear d off v who) := fun _ _ m => absurd m List.not_mem_nil
theorem lowWordRead (d : Die) (off : BitVec 24) (width : Nat) (who : Src) : Statement (.lowWordRead d off width who) := fun _ _ m => absurd m List.not_mem_nil
theorem drainStoreFwRead (d : CDie) (c : CoreIx) (off : BitVec 24) (who : Src) (ups : Upsets) : Statement (.drainStoreFwRead d c off who ups) := fun _ _ m => absurd m List.not_mem_nil
theorem registerWrite (d : Die) (off : BitVec 24) (v : BitVec 32) (width : Nat) (who : Src) : Statement (.registerWrite d off v width who) := fun _ _ m => absurd m List.not_mem_nil
theorem headstockPeriodicTest (bad : HsElem) : Statement (.headstockPeriodicTest bad) := fun _ _ m => absurd m List.not_mem_nil
theorem sensorLinkLost (sp : SPort) : Statement (.sensorLinkLost sp) := fun _ _ m => absurd m List.not_mem_nil
theorem linkUp (ep : EPort) : Statement (.linkUp ep) := fun _ _ m => absurd m List.not_mem_nil
theorem thermalWarningEnd (d : Die) : Statement (.thermalWarningEnd d) := fun _ _ m => absurd m List.not_mem_nil
theorem updateWritten (ok : Bool) : Statement (.updateWritten ok) := fun _ _ m => absurd m List.not_mem_nil
theorem stateMoveEnd (f : Findings) : Statement (.stateMoveEnd f) := fun _ _ m => absurd m List.not_mem_nil
theorem debugUnlock (ok : Bool) : Statement (.debugUnlock ok) := fun _ _ m => absurd m List.not_mem_nil

end Sys2Proof.Laws.StationsExist
end

