-- ==== Sys2Proof/Tests/Slice0.lean ====
section
/-! SUPPORT. Tests/Slice0.lean: the checks of WellFormed, small tests of single steps, and for every obligation a state and operands that meet its hypotheses. -/
namespace Sys2Proof.Tests
open Sys2Proof Sys2Proof.Machine

/-! ### WellFormed: each check refuses an ill-formed term -/

/-- A reading of nothing at a start. -/
def okFind : Findings :=
  { rails := [], fl0 := ⟨true, 0, 64⟩, fl1 := ⟨true, 0, 64⟩, fw := none, cfgSig := true, keysOk := true, badProgs := [], pkgs := 0, turner := 0, rows := [], dies := [], ports := [] }
/-- A die with nothing found. -/
def noDieFind : DieFind := { die := 0, fit := [], rfm := (0, 0), untrained := 0, osc := [], down := 0, lanes := [], copies := 0, cores := 0, dpus := [], rows := [] }

theorem test_wf_upsets_twice : (Instr.mxPassBegin 0 0 [⟨8, false, false⟩, ⟨9, true, false⟩]).wellFormed = false := by decide
theorem test_wf_upsets_apart : (Instr.mxPassBegin 0 0 [⟨8, false, false⟩, ⟨16, true, false⟩]).wellFormed = true := by decide
theorem test_wf_lane_fault_flips_nothing : (Instr.mxRowWrite 0 0 [⟨0, 0, 0, false⟩]).wellFormed = false := by decide
theorem test_wf_lane_fault_twice : (Instr.mxRowWrite 0 0 [⟨0, 0, 1, false⟩, ⟨0, 0, 2, false⟩]).wellFormed = false := by decide
theorem test_wf_dm_needs_mover : (Instr.dmStore 160).wellFormed = false ∧ (Instr.dmStore 163).wellFormed = true := by decide
theorem test_wf_station_missing : (Instr.commandComplete 34 0).wellFormed = false ∧ (Instr.commandComplete (128 + 68) 0).wellFormed = false := by decide
theorem test_wf_order_twice : (Instr.xdRedscat 0 0 [1, 1] none).wellFormed = false := by decide
theorem test_wf_no_credits : (Instr.creditFlitArrive 0 0).wellFormed = false := by decide
theorem test_wf_ddr_request_crosses_line : (Instr.ddrRequest 0 ⟨63, 2, none, .firmware⟩ []).wellFormed = false := by decide
theorem test_wf_ddr_write_length : (Instr.ddrRequest 0 ⟨0, 2, some [1#8], .firmware⟩ []).wellFormed = false := by decide
theorem test_wf_link_missing : (Instr.ackTimer ⟨0, 0⟩).wellFormed = false ∧ (Instr.ackTimer ⟨1, 5⟩).wellFormed = false := by decide
theorem test_wf_lanes_twice : (Instr.retrainDone ⟨1, 0⟩ [3, 3] []).wellFormed = false := by decide
theorem test_wf_trailer_to_itself : (Instr.digestTrailerArrive 2 2 0 ⟨0, 0, 0, 0, false⟩).wellFormed = false := by decide
theorem test_wf_frame_too_short : (Instr.ethFrameReceive 0 ⟨[0#8], true, true, 0⟩ ⟨0, 0⟩).wellFormed = false := by decide
theorem test_wf_boundary_readings : (Instr.turnBoundary ⟨[], [], []⟩).wellFormed = false := by decide
theorem test_wf_ssp_clocks_16 : (Instr.sspChallenge [0#8]).wellFormed = false := by decide
theorem test_wf_finding_rail_twice : (Instr.powerOnReset false 0 { okFind with rails := [(0, 1), (0, 2)] }).wellFormed = false := by decide
theorem test_wf_finding_die_twice : (Instr.warmReset 0 { okFind with dies := [noDieFind, noDieFind] }).wellFormed = false := by decide
theorem test_wf_finding_oscillators : (Instr.stateMoveEnd { okFind with dies := [{ noDieFind with osc := [0, 0, 0, 0, 0] }] }).wellFormed = false := by decide
theorem test_wf_pm_read_twice : (Instr.pmbusPoll [⟨1, 0, 0, 0⟩, ⟨1, 0, 0, 0⟩]).wellFormed = false := by decide
theorem test_wf_write_of_no_bytes : (Instr.registerWrite 0 0 0 0 .firmware).wellFormed = false := by decide
theorem test_wf_finding_fit_twice : (Instr.stateMoveEnd { okFind with dies := [{ noDieFind with fit := [(0, 1, 1), (0, 2, 1)] }] }).wellFormed = false := by decide
theorem test_wf_scrub_upset_twice : (Instr.sramScrubRead 0 0 [⟨8, false, false⟩, ⟨8, false, false⟩]).wellFormed = false := by decide

/-! ### Witnesses: for each clause of each statement a state and operands that meet its hypotheses -/

set_option Elab.async false

/-- A command descriptor: type, opcode and fields by high bit, low bit and value. -/
def cmdOf (ty op : Nat) (l : List (Nat × Nat × Nat)) : Nat := l.foldl (fun d f => putBits d f.1 f.2.1 f.2.2) (op + ty <<< 8)
/-- Registers by die, offset and value. -/
def regsOf (l : List (Nat × Nat × Nat)) : Tab Word := l.map (fun e => (regKey e.1 e.2.1, BitVec.ofNat 32 e.2.2))
/-- Stations at which a command is the newest. -/
def fabOf (l : List (Nat × Run)) : Fab := { stations := l.map (fun e => (e.1, { runs := [e.2] })) }
/-- A tile header: job, format, dims and payload length. -/
def hdrOf (job fmt h w c len : Nat) : Nat := mkHdr { job := job, fmt := fmt, lay := 0, pois := false, prov := false, eos := false, zcomp := false, turn := 0, layer := 0, op := 0, seq := 0, outIx := 0, h := h, w := w, c := c, n := 1, len := len, part := 0, contrib := 0 }
/-- The header of a tile of one INT32 element. -/
def hdrOne : Nat := hdrOf 0 6 1 1 1 4
/-- A tile of one element of input `i` in place `n`, held in queue 128. -/
def tileOne (i n : Nat) : InTile := { q := 128, slot := n, inp := i, ord := n, hdr := hdrOne, pois := false, prov := false }
/-- A valid queue descriptor: producer, consumer, depth and the logarithm of the slot size. -/
def qdOf (prod cons depth log : Nat) : Nat := putBits (putBits (putBits (putBits (putBits 0 9 0 prod) 19 10 cons) 20 20 1) 31 23 depth) 36 32 log
/-- Its registers at queue 0 of die `d`. -/
def qdRegs (d x : Nat) : List (Nat × Nat × Nat) := (List.range 4).map (fun w => (d, qdescOff 0 w, x >>> (32 * w) % 2 ^ 32))
/-- The base and bound of region 0 of task entry 0 of die `d`. -/
def taskRegs (d a n : Nat) : List (Nat × Nat × Nat) := [(d, taskBlk 0, a % 2 ^ 32), (d, taskBlk 0 + 4, a >>> 32), (d, taskBlk 0 + 8, n)]
/-- The chip with a header stored in slot `i` of queue `q`. -/
def tileIn (c : Chip) (q i h : Nat) : Chip := c.poke (c.slotAddr q i) (toLE 32 h)
/-- ST_CTRL, ST_CMDBASE and ST_CMDCOUNT of a station. -/
def listRegs (st ctrl a n : Nat) : List (Nat × Nat × Nat) := [(stDie st, stBlk (stIdx st), ctrl), (stDie st, stBlk (stIdx st) + 4, a % 2 ^ 32), (stDie st, stBlk (stIdx st) + 8, a >>> 32), (stDie st, stBlk (stIdx st) + 0xC, n)]
/-- A window of die `d`, open to die `src`: base, size, region 0 and the permission bits of WIN_CTRL. -/
def winRegs (d w a n ctrl : Nat) : List (Nat × Nat × Nat) := [(d, winBlk w, a % 2 ^ 32), (d, winBlk w + 4, a >>> 32 % 2 ^ 12), (d, winBlk w + 8, n), (d, winBlk w + 0xC, ctrl)]
/-- A flit with first word `w` and info `n`, sealed with its CRC. -/
def flitOf (w n : Nat) : Bytes := let b := toLE 4 w ++ List.replicate 12 0#8 ++ toLE 4 n ++ List.replicate 232 0#8; b ++ toLE 4 (crc32c b)
/-- The least UDP datagram in an Ethernet frame: no checksum, all addresses zero. -/
def udpFrame : Bytes := List.replicate 12 0#8 ++ toBE 2 0x0800 ++ [0x45#8, 0#8, 0#8, 28#8, 0#8, 0#8, 0#8, 0#8, 0x40#8, 17#8, 0x7A#8, 0xD2#8] ++ List.replicate 8 0#8 ++ [0#8, 0#8, 0#8, 0#8, 0#8, 8#8, 0#8, 0#8] ++ List.replicate 18 0#8
theorem crc32c_lt (b : Bytes) : crc32c b < 2 ^ 32 := by
  have h : ∀ n r, r < 2 ^ 32 → crcRefBits n r < 2 ^ 32 := by
    intro n
    induction n with
    | zero => intro r hr; exact hr
    | succ n ih =>
      intro r hr
      have h2 : r >>> 1 < 2 ^ 32 := by rw [Nat.shiftRight_eq_div_pow]; omega
      refine ih _ ?_
      unfold crcRefBit
      split
      · exact Nat.xor_lt_two_pow h2 (by decide)
      · exact h2
  have h3 : ∀ (l : Bytes) r, r < 2 ^ 32 → l.foldl (fun r x => crcRefBits 8 (r ^^^ x.toNat)) r < 2 ^ 32 := by
    intro l
    induction l with
    | nil => intro r hr; exact hr
    | cons a t ih => intro r hr; exact ih _ (h 8 _ (Nat.xor_lt_two_pow hr (by have := a.isLt; omega)))
  exact Nat.xor_lt_two_pow (h3 b _ (by decide)) (by decide)
theorem leAt_toLE_four (b : Bytes) (n x : Nat) (hb : b.length = n) (hx : x < 2 ^ 32) : leAt (b ++ toLE 4 x) n 4 = x := by
  subst hb
  simp [leAt, slice, toLE, fromLE]; omega

theorem flitOf_sealed (w n : Nat) : (flitOf w n).length = 256 ∧ leAt (flitOf w n) 252 4 = crc32c ((flitOf w n).take 252) := by
  have e : (toLE 4 w ++ List.replicate 12 0#8 ++ toLE 4 n ++ List.replicate 232 0#8).length = 252 := by
    simp only [List.length_append, List.length_replicate]; rfl
  unfold flitOf
  dsimp only
  refine ⟨by rw [List.length_append, e]; rfl, ?_⟩
  rw [List.take_left' e, leAt_toLE_four _ _ _ e (crc32c_lt _)]
/-- A mailbox message of session `n`: major version, type, sequence number and body, sealed with its CRCs (a signed type ends with an empty signature). -/
def msgOf (maj ty n q : Nat) (b : Bytes) : Bytes :=
  let h := toLE 4 0x424D594B ++ toLE 2 maj ++ toLE 2 ty ++ toLE 4 n ++ toLE 4 q ++ toLE 4 0 ++ toLE 4 (b.length + if signedTy ty then 128 else 36) ++ toLE 4 0
  let x := h ++ toLE 4 (crc32c h) ++ b
  if signedTy ty then x ++ List.replicate 96 0#8 else x ++ toLE 4 (crc32c x)
/-- The request in it. -/
def reqOf (maj ty n q : Nat) (b : Bytes) : Req := { major := maj, minor := 0, ty := ty, sess := n, clean := true, seq := q, body := b }
/-- The datagram that brings it to EP0. -/
def dgOf (udp : BitVec 16) (b : Bytes) : Dgram := ⟨0, 0, 0, 0, udp, b⟩
/-- EP0 with its link up and a role, and the records of partition 0 and its session 0 there. -/
def portCfg (role : Nat) : List Rec := [⟨0x0501, [0, role]⟩, ⟨0x0203, [0, 0, 0, 0, 0]⟩, ⟨0x0201, [0]⟩]
/-- Findings of a start that brings nothing up. -/
def noFind : Findings := ⟨[], ⟨false, 0, 0⟩, ⟨false, 0, 0⟩, none, false, false, [], 0, 0, [], [], []⟩

theorem wit_step_runs_front_command :
  let i : Instr := .refclkFail
  let rest : List Instr := [.blankSlotEnd]
  let s : State := { pending := [.refclkFail, .blankSlotEnd] }
  s.pending = i :: rest := by decide +kernel
theorem wit_empty_queue_lets_tick_pass :
  let s : State := {}
  s.pending = [] := by decide +kernel
theorem wit_every_step_keeps_canon :
  let t : State := {}
  let s : State := { pending := [.splockPin 0] }
  s.chip.canon ∧ step s = .next t := by exact ⟨(by exact ⟨by decide +kernel, by decide +kernel, by decide +kernel, by decide +kernel, by decide +kernel⟩), (by rfl)⟩
theorem wit_every_step_only_fuses_otp :
  let t : State := {}
  let s : State := { pending := [.splockPin 0] }
  step s = .next t := by rfl
theorem wit_ticks_never_run_back_0 :
  let t : State := {}
  let s : State := { pending := [.splockPin 0] }
  step s = .next t := by rfl
theorem wit_ticks_never_run_back_1 :
  let t : State := {}
  let s : State := { pending := [.splockPin 0] }
  step s = .next t ∧ (∀ b l f, s.pending.head? ≠ some (.powerOnReset b l f)) := by exact ⟨(by rfl), (by intro b l f; simp)⟩
theorem wit_commands_touch_only_their_parts_0 :
  let i : Instr := .splockPin 0
  let t : State := {}
  let s : State := {}
  exec i s = .next t := by rfl
theorem wit_commands_touch_only_their_parts_1 :
  let i : Instr := .splockPin 0
  let t : State := {}
  let x : Comp := .mem
  let s : State := {}
  exec i s = .next t ∧ x ∉ touches i := by exact ⟨(by rfl), by decide +kernel⟩
theorem wit_stores_read_back_1 :
  let off := 2 ^ 24 - 1
  let o := 2 ^ 24 - 1
  off < 2 ^ 24 ∧ o < 2 ^ 24 := by decide +kernel
theorem wit_floating_lane_nonfinite_0 :
  let act : Nat := 0x11
  let wt : Nat := 0x11
  let a : Act := ⟨[0x7FC0], []⟩
  let w : LaneW := ⟨[some 0x3F80], []⟩
  let ps := laneProds act wt a w
  let inf := fun (x : Fv) => x = .inf true ∨ x = .inf false
  let infProd := fun (p : Fv × Fv) (sign : Bool) => p ∈ ps ∧ (inf p.1 ∨ inf p.2) ∧ (fvNeg p.1 != fvNeg p.2) = sign
  let isNan := (∃ p ∈ ps, p.1 = .nan ∨ p.2 = .nan ∨ (inf p.1 ∧ fvZero p.2 = true) ∨ (fvZero p.1 = true ∧ inf p.2)) ∨ ((∃ p, infProd p true) ∧ ∃ p, infProd p false)
  isNan := by exact Or.inl ⟨(.nan, fpElem 0x11 0x3F80 127), by decide +kernel, Or.inl rfl⟩
theorem wit_integer_rounding_modes_0 :
  let d : Nat := 2
  0 < d := by decide +kernel
theorem wit_integer_rounding_modes_1 :
  let d : Nat := 2
  let rnd : Nat := 1
  0 < d ∧ rnd < 2 := by decide +kernel
theorem wit_integer_rounding_modes_2 :
  let d : Nat := 2
  let x : Int := -5
  0 < d ∧ 2 * (roundDiv 0 x d * d - x).natAbs = d := by decide +kernel
theorem wit_integer_rounding_modes_3 :
  let d : Nat := 2
  let x : Int := -5
  0 < d ∧ 2 * (roundDiv 1 x d * d - x).natAbs = d := by decide +kernel
theorem wit_matrix_pass_taken_and_loaded_0 :
  let d : CDie := 6
  let c : CoreIx := 8
  let r : Run := { desc := cmdOf 1 1 [(195, 192, 8), (239, 216, 1)], ix := 0, task := 0 }
  let s : State := ⟨[], { fab := fabOf [(stKey (coreStn 7 8 0) 0, r)] }⟩
  let st := coreStn (d + 1) c 0
  let k := stKey st 0
  s.chip.atWork ∧ s.chip.curRun k = some r ∧ r.begun = false ∧ dType r.desc = 1 ∧ dOp r.desc = 1 := by decide +kernel
theorem wit_matrix_pass_taken_and_loaded_1 :
  let d : CDie := 6
  let c : CoreIx := 8
  let ups : Upsets := []
  let r : Run := { desc := cmdOf 1 1 [(108, 96, 7168), (195, 192, 8), (215, 208, 2), (239, 216, 1)], ix := 0, task := 0, begun := true }
  let s : State := ⟨[], tileIn { fab := { fabOf [(stKey (coreStn 7 8 0) 0, r)] with queues := [(7168, { job := 0, slots := [(0, { st := .full })] })] }, regs := regsOf (qdRegs 7 (putBits (qdOf 0 (coreStn 7 8 0) 1 13) 38 37 1) ++ [(7, taskBlk 0 + 0x10, 0), (7, taskBlk 0 + 0x14, 0x7800), (7, taskBlk 0 + 0x18, 0x2000), (7, taskBlk 0 + 0x30, 0x81001)]) } 7168 0 (hdrOf 0 2 1 64 64 4096)⟩
  let st := coreStn (d + 1) c 0
  let k := stKey st 0
  let m := s.chip.mxOf st
  let q := dInQ r.desc 0
  let at_ := fun (i : Nat) => ((s.chip.queue q).acqIx + i) % max 1 (qDepth (s.chip.qdesc q))
  let x := (s.chip.waiting k 6 false).takeWeights st r q ups (mxArrays r.desc)
  s.chip.atWork ∧ s.chip.curRun k = some r ∧ r.begun = true ∧ r.inDone = false ∧ r.taken = 0 ∧ (∀ p, m.pass = some p → p.left = 0) ∧ (s.chip.queue q).frozen = false ∧ (∀ i < (mxArrays r.desc).length, ((s.chip.queue q).slot (at_ i)).st = .full ∧ s.chip.slotIn q (at_ i) = true ∧ hEos (fromLE (s.chip.peek (s.chip.slotAddr q (at_ i)) 32)) = false) ∧ (∀ w ∈ x.2.2, w.got = .ok) := by exact ⟨by decide +kernel, by decide +kernel, by decide +kernel, by decide +kernel, by decide +kernel, (by intro p hp; cases hp), by decide +kernel, by decide +kernel, by decide +kernel⟩
theorem wit_matrix_pass_taken_and_loaded_2 :
  let d : CDie := 6
  let c : CoreIx := 8
  let r : Run := { desc := cmdOf 1 1 [(108, 96, 7168), (195, 192, 8), (215, 208, 2), (239, 216, 1)], ix := 0, task := 0, begun := true }
  let p : Pass := { desc := r.desc, left := 1, loading := true }
  let s : State := ⟨[], { fab := fabOf [(stKey (coreStn 7 8 0) 0, r)], cmp := { mx := [(coreStn 7 8 0, { pass := some p })] } }⟩
  let st := coreStn (d + 1) c 0
  let k := stKey st 0
  let m := s.chip.mxOf st
  s.chip.atWork ∧ s.chip.curRun k = some r ∧ m.pass = some p ∧ p.loading = true := by decide +kernel
theorem wit_matrix_vectors_flow_0 :
  let d : CDie := 6
  let c : CoreIx := 8
  let f_d : Nat := cmdOf 1 1 [(195, 192, 8)]
  let r : Run := { desc := f_d, ix := 0, task := 0, begun := true }
  let p : Pass := { desc := f_d, left := 1 }
  let v : Vec := { tag := 1023 }
  let rest : List Vec := []
  let s : State := ⟨[], { fab := fabOf [(stKey (coreStn 7 8 0) 0, r)], cmp := { mx := [(coreStn 7 8 0, { pass := some p })], wf := [(coreStn 7 8 1, { buf := [v] })] } }⟩
  let st := coreStn (d + 1) c 0
  let k := stKey st 0
  let m := s.chip.mxOf st
  let w := s.chip.wfOf (st + 1)
  s.chip.atWork ∧ m.pass = some p ∧ s.chip.curRun k = some r ∧ p.loading = false ∧ p.left ≠ 0 ∧ r.desc = p.desc ∧ w.buf = v :: rest ∧ v.pool = false ∧ (∀ a ∈ mxArrays p.desc, s.chip.rowFree st a v.tag = true) := by decide +kernel
theorem wit_matrix_vectors_flow_1 :
  let d : CDie := 6
  let c : CoreIx := 8
  let f_d : Nat := cmdOf 1 1 [(195, 192, 8)]
  let f : Flight := ⟨{ tag := 1023, last := true }, { desc := f_d, wts := [⟨3, [], false, false⟩] }⟩
  let rest : List Flight := []
  let s : State := ⟨[], { cmp := { mx := [(coreStn 7 8 0, { pipe := [f] })] } }⟩
  let st := coreStn (d + 1) c 0
  let m := s.chip.mxOf st
  s.chip.atWork ∧ m.pipe = f :: rest := by decide +kernel
theorem wit_row_write_moves_row_state :
  let d : CDie := 6
  let c : CoreIx := 8
  let f_d : Nat := cmdOf 1 1 [(195, 192, 8)]
  let f : Flight := ⟨{ tag := 1023, last := true }, { desc := f_d, wts := [⟨3, [], false, false⟩, ⟨0, [], false, false⟩] }⟩
  let rest : List Flight := []
  let s : State := ⟨[], { cmp := { mx := [(coreStn 7 8 0, { pipe := [f] })] } }⟩
  let st := coreStn (d + 1) c 0
  s.chip.atWork ∧ (s.chip.mxOf st).pipe = f :: rest ∧ f.vec.tag < 1024 ∧ (f.pass.wts.map (·.arr)).Nodup := by decide +kernel
theorem wit_window_vectors_delivered_0 :
  let d : CDie := 6
  let c : CoreIx := 8
  let r : Run := { desc := cmdOf 2 1 [(195, 192, 1), (199, 196, 1), (203, 200, 1), (207, 204, 1), (212, 208, 1), (217, 213, 1), (295, 280, 1), (311, 296, 1), (327, 312, 1), (343, 328, 1), (359, 344, 1), (375, 360, 1), (386, 376, 1), (415, 408, 2)], ix := 0, task := 0 }
  let s : State := ⟨[], { fab := fabOf [(stKey (coreStn 7 8 1) 0, r)] }⟩
  let st := coreStn (d + 1) c 1
  let k := stKey st 0
  s.chip.atWork ∧ s.chip.curRun k = some r ∧ dType r.desc = 2 ∧ r.begun = false ∧ dOp r.desc = 1 := by decide +kernel
theorem wit_window_vectors_delivered_1 :
  let d : CDie := 6
  let c : CoreIx := 8
  let r : Run := { desc := cmdOf 2 2 [(195, 192, 1), (199, 196, 1), (203, 200, 1), (207, 204, 1), (212, 208, 1), (217, 213, 1), (295, 280, 1), (311, 296, 1), (327, 312, 1), (343, 328, 1), (359, 344, 1), (375, 360, 1), (386, 376, 1), (415, 408, 2)], ix := 0, task := 0 }
  let s : State := ⟨[], { fab := fabOf [(stKey (coreStn 7 8 1) 0, r)] }⟩
  let st := coreStn (d + 1) c 1
  let k := stKey st 0
  s.chip.atWork ∧ s.chip.curRun k = some r ∧ dType r.desc = 2 ∧ r.begun = false ∧ dOp r.desc = 2 := by decide +kernel
theorem wit_window_vectors_delivered_2 :
  let d : CDie := 6
  let c : CoreIx := 8
  let r : Run := { desc := cmdOf 2 1 [(195, 192, 1), (199, 196, 1), (203, 200, 1), (207, 204, 1), (212, 208, 1), (217, 213, 1), (295, 280, 1), (311, 296, 1), (327, 312, 1), (343, 328, 1), (359, 344, 1), (375, 360, 1), (386, 376, 1), (415, 408, 2)], ix := 0, task := 0, begun := true, ins := [tileOne 0 0] }
  let ups : Upsets := []
  let s : State := ⟨[], { fab := fabOf [(stKey (coreStn 7 8 1) 0, r)] }⟩
  let st := coreStn (d + 1) c 1
  let k := stKey st 0
  let w := s.chip.wfOf st
  let x := s.chip.wfVector st r ups w.pos
  s.chip.atWork ∧ s.chip.curRun k = some r ∧ dType r.desc = 2 ∧ r.begun = true ∧ r.inDone = false ∧ w.pos < wfTotal r.desc ∧ w.buf.length < 4 ∧ x.1.held = true := by decide +kernel
theorem wit_vector_chain_forms_tiles_0 :
  let d : CDie := 6
  let c : CoreIx := 8
  let r : Run := { desc := cmdOf 3 1 [(73, 72, 1), (95, 80, 1), (207, 200, 6), (215, 208, 6)], ix := 0, task := 0, ins := [tileOne 0 0] }
  let t : InTile := tileOne 0 0
  let s : State := ⟨[], { fab := fabOf [(stKey (coreStn 7 8 2) 0, r)] }⟩
  let st := coreStn (d + 1) c 2
  s.chip.atWork ∧ s.chip.vxRun st 1 = some r ∧ vxSrc r.desc = 0 ∧ dNin r.desc < 2 ∧ r.nextIn = some t := by decide +kernel
theorem wit_vector_chain_forms_tiles_1 :
  let d : CDie := 6
  let c : CoreIx := 8
  let t : InTile := tileOne 0 0
  let r : Run := { desc := cmdOf 3 1 [(73, 72, 2), (95, 80, 1), (207, 200, 6), (215, 208, 6)], ix := 0, task := 0, ins := [tileOne 0 0, tileOne 1 0] }
  let u : InTile := tileOne 1 0
  let s : State := ⟨[], { fab := fabOf [(stKey (coreStn 7 8 2) 0, r)] }⟩
  let st := coreStn (d + 1) c 2
  s.chip.atWork ∧ s.chip.vxRun st 1 = some r ∧ vxSrc r.desc = 0 ∧ 2 ≤ dNin r.desc ∧ r.nextIn = some t ∧ r.paired 1 t.ord = some u := by decide +kernel
theorem wit_vector_chain_forms_tiles_2 :
  let d : CDie := 6
  let c : CoreIx := 8
  let r : Run := { desc := cmdOf 3 1 [(193, 192, 1), (207, 200, 6), (215, 208, 6), (223, 220, 8), (244, 234, 1), (271, 256, 1), (287, 272, 1), (303, 288, 1)], ix := 0, task := 0, taken1 := 1, acc := List.replicate 64 5 }
  let s : State := ⟨[], { fab := fabOf [(stKey (coreStn 7 8 2) 0, r)] }⟩
  let st := coreStn (d + 1) c 2
  let n := min (vxTileH r.desc * vxTileW r.desc) (vxRows r.desc - r.pos)
  s.chip.atWork ∧ s.chip.vxRun st 1 = some r ∧ vxSrc r.desc = 1 ∧ (r.pos + n) * popcount 4 (vxMask r.desc) ≤ r.taken1 := by decide +kernel
theorem wit_vector_chain_forms_tiles_3 :
  let d : CDie := 6
  let c : CoreIx := 8
  let res : OptLane := none
  let r : Run := { desc := cmdOf 3 1 [(193, 192, 2), (207, 200, 6), (215, 208, 6), (271, 256, 1), (287, 272, 1), (303, 288, 1)], ix := 0, task := 0 }
  let v : Vec := { pool := true, last := true, elems := List.replicate 64 3 }
  let rest : List Vec := []
  let s : State := ⟨[], { fab := fabOf [(stKey (coreStn 7 8 2) 0, r)], cmp := { wf := [(coreStn 7 8 1, { buf := [v] })] } }⟩
  let st := coreStn (d + 1) c 2
  let q := poolDiv r.desc v (res.bind (fun e => if e.stage = 5 then some (e.elem, e.delta) else none))
  s.chip.atWork ∧ s.chip.vxRun st 1 = some r ∧ vxSrc r.desc = 2 ∧ (s.chip.wfOf (st - 1)).buf = v :: rest ∧ v.pool = true ∧ q.2 = none := by decide +kernel
theorem wit_vector_chain_forms_tiles_4 :
  let d : CDie := 6
  let c : CoreIx := 8
  let r : Run := { desc := cmdOf 3 1 [(193, 192, 1), (223, 220, 8), (233, 224, 1023), (244, 234, 1)], ix := 0, task := 0 }
  let s : State := ⟨[], Chip.setRow { fab := fabOf [(stKey (coreStn 7 8 2) 0, r)] } (coreStn 7 8 0) 3 1023 { st := .done }⟩
  let st := coreStn (d + 1) c 2
  let arrs := bitList 4 (vxMask r.desc)
  let g := max 1 arrs.length
  let a := arrs.getD (r.taken1 % g) 0
  let row := vxRowBase r.desc + r.taken1 / g
  let x := s.chip.row (st - 2) a row
  s.chip.atWork ∧ s.chip.vxRun st 1 = some r ∧ vxSrc r.desc = 1 ∧ r.taken1 < vxRows r.desc * g ∧ x.st = .done ∧ x.chkfail = false ∧ x.pois = false := by decide +kernel
theorem wit_vector_rows_and_reductions_0 :
  let d : CDie := 6
  let c : CoreIx := 8
  let r : Run := { desc := cmdOf 3 2 [(95, 80, 1), (194, 192, 3), (211, 204, 6)], ix := 0, task := 0, ins := [tileOne 0 0] }
  let t : InTile := tileOne 0 0
  let ups : Upsets := []
  let x : List Nat × Bool := ([], false)
  let y : List Nat × Bool := ([], false)
  let s : State := ⟨[], { fab := fabOf [(stKey (coreStn 7 8 2) 0, r)] }⟩
  let st := coreStn (d + 1) c 2
  let a := s.chip.tileVals r t
  let kind := vrKind r.desc
  let g := a.1.rowTable st r ups (kind == 1 || kind == 2) (vrGamma r.desc) (hC t.hdr)
  let b := g.1.rowTable st r ups (kind == 1) (vrBeta r.desc) (hC t.hdr)
  s.chip.atWork ∧ s.chip.vxRun st 2 = some r ∧ r.nextIn = some t ∧ g.2 = .ok x ∧ b.2 = .ok y := by decide +kernel
theorem wit_vector_rows_and_reductions_1 :
  let d : CDie := 6
  let c : CoreIx := 8
  let t : InTile := tileOne 0 0
  let r : Run := { desc := cmdOf 3 3 [(95, 80, 1), (195, 195, 1), (211, 204, 6)], ix := 0, task := 0, ins := [tileOne 0 0] }
  let s : State := ⟨[], { fab := fabOf [(stKey (coreStn 7 8 2) 0, r)] }⟩
  let st := coreStn (d + 1) c 2
  let a := s.chip.tileVals r t
  let rows := chunks (hC t.hdr) a.2.2
  let kind := vrKind r.desc
  let int := workInt (hFmt t.hdr)
  let step := fun (x : Red) (i v : Nat) => redSlip kind int 0 x i v
  let reds := rows.map (fun row => row.zipIdx.foldl (fun x v => step x v.2 v.1) ({} : Red))
  s.chip.atWork ∧ s.chip.vxRun st 3 = some r ∧ r.nextIn = some t ∧ vrAxis r.desc = true ∧ (∀ x ∈ reds, x.bad = false) := by decide +kernel
theorem wit_vector_rows_and_reductions_2 :
  let d : CDie := 6
  let c : CoreIx := 8
  let t : InTile := tileOne 0 0
  let r : Run := { desc := cmdOf 3 3 [(95, 80, 1), (211, 204, 6)], ix := 0, task := 0, ins := [tileOne 0 0] }
  let s : State := ⟨[], { fab := fabOf [(stKey (coreStn 7 8 2) 0, r)] }⟩
  let st := coreStn (d + 1) c 2
  let a := s.chip.tileVals r t
  let rows := chunks (hC t.hdr) a.2.2
  let kind := vrKind r.desc
  let int := workInt (hFmt t.hdr)
  let step := fun (x : Red) (i v : Nat) => redSlip kind int 0 x i v
  let reds := rows.zipIdx.foldl (fun (l : List Red) row => (l.zip row.1).map (fun x => step x.1 (r.pos + row.2) x.2)) (if r.acc.isEmpty then List.replicate (hC t.hdr) {} else r.reds)
  s.chip.atWork ∧ s.chip.vxRun st 3 = some r ∧ r.nextIn = some t ∧ vrAxis r.desc = false ∧ (∀ x ∈ reds, x.bad = false) := by decide +kernel
theorem wit_vector_indexed_and_blank_0 :
  let d : CDie := 6
  let c : CoreIx := 8
  let ups : Upsets := []
  let r : Run := { desc := cmdOf 3 4 [(95, 80, 1), (249, 230, 4), (289, 282, 6), (305, 290, 1)], ix := 0, task := 0, ins := [tileOne 0 0] }
  let t : InTile := tileOne 0 0
  let b : Bytes × Bool := ([0#8, 0#8, 0#8, 0#8], false)
  let s : State := ⟨[], { fab := fabOf [(stKey (coreStn 7 8 2) 0, r)], regs := regsOf (taskRegs 7 (dieBase 7 + cbBase 8) 4) }⟩
  let st := coreStn (d + 1) c 2
  let ix := s.chip.indices r t
  let g := (ix.1.addReg (stDie st) (vxOff st + 0x14) (oorCount r.desc ix.2.2)).gatherRows st r ups ix.2.2 [] false
  s.chip.atWork ∧ r.nextIn = some t ∧ s.chip.vxRun st 4 = some r ∧ g.2 = .ok b := by decide +kernel
theorem wit_vector_indexed_and_blank_1 :
  let d : CDie := 6
  let c : CoreIx := 8
  let t : InTile := tileOne 0 0
  let r : Run := { desc := cmdOf 3 5 [(95, 80, 1), (249, 230, 4), (281, 250, 1), (289, 282, 6), (305, 290, 1)], ix := 0, task := 0, ins := [tileOne 0 0, tileOne 1 0] }
  let u : InTile := tileOne 1 0
  let s : State := ⟨[], { fab := fabOf [(stKey (coreStn 7 8 2) 0, r)], regs := regsOf (taskRegs 7 (dieBase 7 + cbBase 8) 4) }⟩
  let st := coreStn (d + 1) c 2
  let ix := s.chip.indices r u
  let rd := ix.1.payload t
  let c1 := rd.1.addReg (stDie st) (vxOff st + 0x14) (oorCount r.desc ix.2.2)
  let x := c1.scatterRows st r (tileRows t.hdr rd.2.1 rd.2.2) ix.2.2.zipIdx []
  s.chip.atWork ∧ r.nextIn = some t ∧ r.paired 1 t.ord = some u ∧ x.2 = none ∧ s.chip.vxRun st 5 = some r := by decide +kernel
theorem wit_vector_indexed_and_blank_2 :
  let d : CDie := 6
  let c : CoreIx := 8
  let t : InTile := tileOne 0 0
  let u : InTile := tileOne 1 0
  let r : Run := { desc := cmdOf 3 6 [(95, 80, 1), (249, 230, 4), (281, 250, 1), (289, 282, 6), (305, 290, 1)], ix := 0, task := 0, ins := [tileOne 0 0, tileOne 1 0] }
  let s : State := ⟨[], { fab := fabOf [(stKey (coreStn 7 8 2) 0, r)], regs := regsOf (taskRegs 7 (dieBase 7 + cbBase 8) 4) }⟩
  let st := coreStn (d + 1) c 2
  let ix := s.chip.indices r u
  let rd := ix.1.payload t
  let c1 := rd.1.addReg (stDie st) (vxOff st + 0x14) (oorCount r.desc ix.2.2)
  let x := c1.scatterRows st r (tileRows t.hdr rd.2.1 rd.2.2) ix.2.2.zipIdx []
  s.chip.atWork ∧ r.nextIn = some t ∧ r.paired 1 t.ord = some u ∧ x.2 = none ∧ s.chip.vxRun st 6 = some r := by decide +kernel
theorem wit_vector_indexed_and_blank_3 :
  let d : CDie := 6
  let c : CoreIx := 8
  let t : InTile := tileOne 0 0
  let r : Run := { desc := cmdOf 3 7 [(95, 80, 1)], ix := 0, task := 0, ins := [tileOne 0 0, tileOne 1 0, tileOne 2 0] }
  let u : InTile := tileOne 1 0
  let v : InTile := tileOne 2 0
  let s : State := ⟨[], { fab := fabOf [(stKey (coreStn 7 8 2) 0, r)], regs := regsOf (taskRegs 7 (dieBase 7 + cbBase 8) 4) }⟩
  let st := coreStn (d + 1) c 2
  s.chip.atWork ∧ s.chip.vxRun st 7 = some r ∧ r.nextIn = some t ∧ r.paired 1 t.ord = some u ∧ r.paired 2 t.ord = some v := by decide +kernel
theorem wit_vector_indexed_and_blank_4 :
  let d : CDie := 6
  let c : CoreIx := 8
  let t : InTile := tileOne 0 0
  let r : Run := { desc := cmdOf 3 7 [(95, 80, 1)], ix := 0, task := 0, ins := [tileOne 0 0, tileOne 1 0, tileOne 2 0] }
  let u : InTile := tileOne 1 0
  let v : InTile := tileOne 2 0
  let s : State := ⟨[], { fab := fabOf [(stKey (coreStn 7 8 2) 0, r)], regs := regsOf (taskRegs 7 (dieBase 7 + cbBase 8) 4) }⟩
  let st := coreStn (d + 1) c 2
  let x := s.chip.readTriple t u v
  let el := tripleElems t u v x.2.1 x.2.2.1 x.2.2.2
  let fails := tripleFails (hFmt t.hdr) el
  let r1 := (r.countFails fails).advance t.ord
  s.chip.atWork ∧ s.chip.vxRun st 7 = some r ∧ r.nextIn = some t ∧ r.paired 1 t.ord = some u ∧ r.paired 2 t.ord = some v ∧ r1.acc.getD 0 0 = 0 := by decide +kernel
theorem wit_vector_indexed_and_blank_5 :
  let d : CDie := 6
  let c : CoreIx := 8
  let t : InTile := tileOne 0 0
  let u : InTile := tileOne 1 0
  let v : InTile := tileOne 2 0
  let r : Run := { desc := cmdOf 3 7 [(95, 80, 1)], ix := 0, task := 0, acc := [1, 2, 3], ins := [tileOne 0 0, tileOne 1 0, tileOne 2 0] }
  let s : State := ⟨[], { fab := fabOf [(stKey (coreStn 7 8 2) 0, r)], regs := regsOf (taskRegs 7 (dieBase 7 + cbBase 8) 4) }⟩
  let st := coreStn (d + 1) c 2
  let x := s.chip.readTriple t u v
  let el := tripleElems t u v x.2.1 x.2.2.1 x.2.2.2
  let fails := tripleFails (hFmt t.hdr) el
  let r1 := (r.countFails fails).advance t.ord
  let c1 := (x.1.setRun (stKey st 0) r1).busy st (max 1 el.length)
  s.chip.atWork ∧ s.chip.vxRun st 7 = some r ∧ r.nextIn = some t ∧ r.paired 1 t.ord = some u ∧ r.paired 2 t.ord = some v ∧ r1.acc.getD 0 0 ≠ 0 ∧ c1.reg (d + 1) blkBlk = 0 := by decide +kernel
theorem wit_data_mover_moves_runs_0 :
  let st : Stn := 963
  let r : Run := { desc := cmdOf 4 1 [(95, 80, 1), (291, 272, 0), (303, 292, 1), (315, 304, 1), (327, 316, 1)], ix := 0, task := 0 }
  let s : State := ⟨[], { fab := fabOf [(stKey 963 0, r)], regs := regsOf (taskRegs 7 (dieBase 7 + dbBase) 64) }⟩
  let c := s.chip
  s.chip.atWork ∧ dmLen r.desc = 0 ∧ c.dmRun st 1 = some r := by decide +kernel
theorem wit_data_mover_moves_runs_1 :
  let st : Stn := 963
  let r : Run := { desc := cmdOf 4 2 [(95, 80, 1), (291, 272, 0), (303, 292, 1), (315, 304, 1), (327, 316, 1)], ix := 0, task := 0 }
  let s : State := ⟨[], { fab := fabOf [(stKey 963 0, r)], regs := regsOf (taskRegs 7 (dieBase 7 + dbBase) 64) }⟩
  let c := s.chip
  s.chip.atWork ∧ dmLen r.desc = 0 ∧ c.dmRun st 2 = some r := by decide +kernel
theorem wit_data_mover_moves_runs_2 :
  let st : Stn := 963
  let r : Run := { desc := cmdOf 4 3 [(95, 80, 1), (291, 272, 0), (303, 292, 1), (315, 304, 1), (327, 316, 1)], ix := 0, task := 0 }
  let s : State := ⟨[], { fab := fabOf [(stKey 963 0, r)], regs := regsOf (taskRegs 7 (dieBase 7 + dbBase) 64) }⟩
  let c := s.chip
  s.chip.atWork ∧ dmLen r.desc = 0 ∧ c.dmRun st 3 = some r := by decide +kernel
theorem wit_data_mover_moves_runs_3 :
  let st : Stn := 963
  let r : Run := { desc := cmdOf 4 1 [(95, 80, 1), (291, 272, 64), (303, 292, 1), (315, 304, 1), (327, 316, 1), (193, 192, 3), (235, 200, 0x200000000)], ix := 0, task := 0 }
  let s : State := ⟨[], { fab := fabOf [(stKey 963 0, r)], regs := regsOf (taskRegs 7 (dieBase 7 + dbBase) 64) }⟩
  let c := s.chip
  s.chip.atWork ∧ dmLen r.desc ≠ 0 ∧ c.windowFull st r = false ∧ r.wantsSource = true ∧ r.asked = false ∧ c.dmRun st 1 = some r := by decide +kernel
theorem wit_data_mover_moves_runs_4 :
  let st : Stn := 963
  let r : Run := { desc := cmdOf 4 2 [(95, 80, 1), (291, 272, 64), (303, 292, 1), (315, 304, 1), (327, 316, 1), (193, 192, 3), (235, 200, 0x200000000)], ix := 0, task := 0 }
  let s : State := ⟨[], { fab := fabOf [(stKey 963 0, r)], regs := regsOf (taskRegs 7 (dieBase 7 + dbBase) 64) }⟩
  let c := s.chip
  s.chip.atWork ∧ dmLen r.desc ≠ 0 ∧ c.windowFull st r = false ∧ r.wantsSource = true ∧ r.asked = false ∧ c.dmRun st 2 = some r := by decide +kernel
theorem wit_data_mover_moves_runs_5 :
  let st : Stn := 963
  let ups : Upsets := []
  let r : Run := { desc := cmdOf 4 1 [(95, 80, 1), (291, 272, 64), (303, 292, 1), (315, 304, 1), (327, 316, 1)], ix := 0, task := 0 }
  let y : List Store × List WReq := ([⟨dieBase 7 + dbBase, List.replicate 64 0#8, [], false, false⟩], [])
  let s : State := ⟨[], { fab := { fabOf [(stKey 963 0, r)] with held := [(stKey 963 0, {})] }, regs := regsOf (taskRegs 7 (dieBase 7 + dbBase) 64) }⟩
  let c := s.chip
  let w := c.writeContrib st r
  let x := w.2.copyBlocks st r ups w.1 (chunks (if dmXpose r.desc = 0 then 1 else 64) (copyIx r.desc)) [] []
  s.chip.atWork ∧ dmLen r.desc ≠ 0 ∧ c.windowFull st r = false ∧ c.dmRun st 1 = some r ∧ dmSrc r.desc ≠ 3 ∧ dmComp r.desc = 0 ∧ x.2 = .ok y := by decide +kernel
theorem wit_data_mover_moves_runs_6 :
  let st : Stn := 963
  let ups : Upsets := []
  let r : Run := { desc := cmdOf 4 1 [(95, 80, 1), (291, 272, 64), (303, 292, 1), (315, 304, 1), (327, 316, 1), (193, 192, 3), (235, 200, 0x200000000)], ix := 0, task := 0, asked := true, buf := List.replicate 64 0#8 }
  let runs : List (Nat × Marked) := [(0, List.replicate 64 (0#8, false))]
  let s : State := ⟨[], { fab := { fabOf [(stKey 963 0, r)] with held := [(stKey 963 0, {})] }, regs := regsOf (taskRegs 7 (dieBase 7 + dbBase) 64) }⟩
  let c := s.chip
  let x := c.copySteps st r ups (List.range (dmCnt3 r.desc)) []
  s.chip.atWork ∧ dmLen r.desc ≠ 0 ∧ c.windowFull st r = false ∧ c.dmRun st 1 = some r ∧ r.wantsSource = false ∧ (dmSrc r.desc = 3 ∨ dmComp r.desc ≠ 0) ∧ x.2 = .ok runs := by decide +kernel
theorem wit_data_mover_moves_runs_7 :
  let st : Stn := 963
  let ups : Upsets := []
  let r : Run := { desc := cmdOf 4 2 [(95, 80, 1), (291, 272, 64), (303, 292, 1), (315, 304, 1), (327, 316, 1), (410, 403, 3), (430, 415, 1), (446, 431, 1), (462, 447, 64)], ix := 0, task := 0 }
  let y : List Marked := [List.replicate 64 (0#8, false)]
  let s : State := ⟨[], { fab := { fabOf [(stKey 963 0, r)] with held := [(stKey 963 0, {})] }, regs := regsOf (taskRegs 7 (dieBase 7 + dbBase) 64) }⟩
  let c := s.chip
  let x := c.stepData st r ups r.made
  s.chip.atWork ∧ dmLen r.desc ≠ 0 ∧ c.windowFull st r = false ∧ c.dmRun st 2 = some r ∧ r.wantsSource = false ∧ x.2 = .ok y := by decide +kernel
theorem wit_data_mover_moves_runs_8 :
  let st : Stn := 963
  let r : Run := { desc := cmdOf 4 3 [(95, 80, 1), (291, 272, 64), (303, 292, 1), (315, 304, 1), (327, 316, 1)], ix := 0, task := 0, ins := [tileOne 0 0] }
  let t : InTile := tileOne 0 0
  let s : State := ⟨[], { fab := { fabOf [(stKey 963 0, r)] with held := [(stKey 963 0, {})] }, regs := regsOf (taskRegs 7 (dieBase 7 + dbBase) 64) }⟩
  let c := s.chip
  s.chip.atWork ∧ dmLen r.desc ≠ 0 ∧ c.windowFull st r = false ∧ c.dmRun st 3 = some r ∧ r.nextIn = some t := by decide +kernel
theorem wit_box_nms_keeps_best_boxes :
  let d : CDie := 6
  let f_t : Nat → Nat → InTile := fun i c => { q := 7168 + i, slot := 0, inp := i, ord := 0, hdr := hdrOf 0 0x12 1 1 c (4 * c), pois := false, prov := false }
  let r : Run := { desc := cmdOf 5 1 [(73, 72, 2), (95, 80, 1), (216, 208, 1), (236, 224, 1), (252, 240, 1), (266, 256, 1)], ix := 0, task := 0, taken := 1, taken1 := 1, ins := [f_t 0 4, f_t 1 1] }
  let s : State := ⟨[], { fab := fabOf [(stKey 992 0, r)] }⟩
  let st : Nat := (d + 1) * 128 + 96
  let n := dTiles r.desc
  s.chip.atWork ∧ s.chip.curRun (stKey st 0) = some r ∧ dType r.desc = 5 ∧ dOp r.desc = 1 ∧ r.inDone = false ∧ r.status = 0 ∧ n ≤ r.taken ∧ n ≤ r.taken1 ∧ (3 ≤ dNin r.desc → n ≤ r.taken2) := by decide +kernel
theorem wit_exchanges_and_windows_0 :
  let d : CDie := 6
  let p : Part := 3
  let r : Run := { desc := cmdOf 6 1 [(290, 263, 64), (293, 291, 1)], ix := 0, task := 0 }
  let a : Nat := dieBase 7 + dbBase
  let s : State := ⟨[], { fab := fabOf [(xdKey 7 3, r)], regs := regsOf (taskRegs 7 (dieBase 7 + dbBase) 64) }⟩
  let k := xdKey (d + 1) p
  let x := r.desc
  let st := k / 4
  s.chip.atWork ∧ s.chip.xdRun k 1 = some r ∧ s.chip.xlate st r.task (xdRegion x) (xdLocOff x) (xdLen x) = some a ∧ s.chip.linkFull (stDie st) (xdPeer x) = false := by decide +kernel
theorem wit_exchanges_and_windows_1 :
  let d : CDie := 6
  let p : Part := 3
  let r : Run := { desc := cmdOf 6 2 [(290, 263, 64), (293, 291, 1)], ix := 0, task := 0 }
  let s : State := ⟨[], { fab := fabOf [(xdKey 7 3, r)], regs := regsOf (taskRegs 7 (dieBase 7 + dbBase) 64) }⟩
  let k := xdKey (d + 1) p
  let x := r.desc
  let st := k / 4
  s.chip.atWork ∧ s.chip.xdRun k 2 = some r ∧ r.asked = false ∧ s.chip.linkFull (stDie st) (xdPeer x) = false := by decide +kernel
theorem wit_exchanges_and_windows_2 :
  let d : CDie := 6
  let p : Part := 3
  let a : Nat := dieBase 7 + dbBase
  let r : Run := { desc := cmdOf 6 2 [(290, 263, 64), (293, 291, 1)], ix := 0, task := 0, asked := true }
  let s : State := ⟨[], { fab := fabOf [(xdKey 7 3, r)], regs := regsOf (taskRegs 7 (dieBase 7 + dbBase) 64) }⟩
  let k := xdKey (d + 1) p
  let x := r.desc
  let st := k / 4
  s.chip.atWork ∧ s.chip.xdRun k 2 = some r ∧ r.asked = true ∧ r.reqs = [] ∧ r.rets = [] ∧ s.chip.xlateW st r.task (xdRegion x) (xdLocOff x) (xdLen x) = some a := by decide +kernel
theorem wit_exchanges_and_windows_3 :
  let d : CDie := 6
  let p : Part := 3
  let a : Nat := dieBase 7 + dbBase
  let r : Run := { desc := cmdOf 6 16 [(197, 192, 63), (263, 236, 64), (265, 264, 3), (273, 266, 2)], ix := 0, task := 0 }
  let s : State := ⟨[], { fab := fabOf [(xdKey 7 3, r)], regs := regsOf (taskRegs 7 (dieBase 7 + dbBase) 64) }⟩
  let k := xdKey (d + 1) p
  let x := r.desc
  s.chip.atWork ∧ s.chip.xdRun k 0x10 = some r ∧ xwSize x ≠ 0 ∧ s.chip.xlateW (k / 4) r.task (xwRegion x) (xwOff x) (xwSize x) = some a := by decide +kernel
theorem wit_exchanges_and_windows_4 :
  let d : CDie := 6
  let p : Part := 3
  let r : Run := { desc := cmdOf 6 16 [(197, 192, 63), (265, 264, 3), (273, 266, 2)], ix := 0, task := 0 }
  let s : State := ⟨[], { fab := fabOf [(xdKey 7 3, r)], regs := regsOf (taskRegs 7 (dieBase 7 + dbBase) 64) }⟩
  let k := xdKey (d + 1) p
  let x := r.desc
  s.chip.atWork ∧ s.chip.xdRun k 0x10 = some r ∧ xwSize x = 0 := by decide +kernel
theorem wit_exchanges_and_windows_5 :
  let d : CDie := 6
  let p : Part := 3
  let r : Run := { desc := cmdOf 6 17 [(197, 192, 63)], ix := 0, task := 0 }
  let s : State := ⟨[], { fab := fabOf [(xdKey 7 3, r)], regs := regsOf (winRegs 7 63 0 0 1) }⟩
  let k := xdKey (d + 1) p
  s.chip.atWork ∧ s.chip.xdRun k 0x11 = some r ∧ r.begun = false := by decide +kernel
theorem wit_exchanges_and_windows_6 :
  let d : CDie := 6
  let p : Part := 3
  let r : Run := { desc := cmdOf 6 17 [(197, 192, 63)], ix := 0, task := 0 }
  let s : State := ⟨[], { fab := fabOf [(xdKey 7 3, r)], regs := regsOf (winRegs 7 63 0 0 1) }⟩
  let k := xdKey (d + 1) p
  let x := r.desc
  let w := winBlk (xwWin x)
  s.chip.atWork ∧ s.chip.xdRun k 0x11 = some r ∧ r.begun = false ∧ bit (s.chip.reg (d + 1) (w + 0xC)) 0 = true := by decide +kernel
theorem wit_exchanges_and_windows_7 :
  let d : CDie := 6
  let p : Part := 3
  let r : Run := { desc := cmdOf 6 17 [(197, 192, 63)], ix := 0, task := 0, begun := true }
  let s : State := ⟨[], { fab := fabOf [(xdKey 7 3, r)], regs := regsOf (winRegs 7 63 0 0 1) }⟩
  let k := xdKey (d + 1) p
  s.chip.atWork ∧ s.chip.xdRun k 0x11 = some r ∧ r.begun = true := by decide +kernel
theorem wit_collectives_send_form_end_0 :
  let d : CDie := 6
  let p : Part := 3
  let r : Run := { desc := cmdOf 6 3 [(95, 80, 1), (293, 291, 7), (300, 294, 96)], ix := 0, task := 0 }
  let s : State := ⟨[], { fab := fabOf [(xdKey 7 3, r)], regs := regsOf (taskRegs 7 (dieBase 7 + dbBase) 64) }⟩
  let k := xdKey (d + 1) p
  s.chip.atWork ∧ s.chip.xdRun k 3 = some r := by decide +kernel
theorem wit_collectives_send_form_end_1 :
  let d : CDie := 6
  let p : Part := 3
  let r : Run := { desc := cmdOf 6 4 [(95, 80, 1), (300, 294, 96)], ix := 0, task := 0 }
  let s : State := ⟨[], { fab := fabOf [(xdKey 7 3, r)], regs := regsOf (taskRegs 7 (dieBase 7 + dbBase) 64) }⟩
  let k := xdKey (d + 1) p
  s.chip.atWork ∧ s.chip.xdRun k 4 = some r := by decide +kernel
theorem wit_collectives_send_form_end_2 :
  let d : CDie := 6
  let p : Part := 3
  let r : Run := { desc := cmdOf 6 5 [(95, 80, 2), (300, 294, 96), (324, 317, 6)], ix := 0, task := 0 }
  let s : State := ⟨[], { fab := fabOf [(xdKey 7 3, r)], regs := regsOf (taskRegs 7 (dieBase 7 + dbBase) 64) }⟩
  let k := xdKey (d + 1) p
  s.chip.atWork ∧ s.chip.xdRun k 5 = some r := by decide +kernel
theorem wit_collectives_send_form_end_3 :
  let d : CDie := 6
  let p : Part := 3
  let r : Run := { desc := cmdOf 6 6 [(95, 80, 2), (300, 294, 96), (324, 317, 6)], ix := 0, task := 0 }
  let s : State := ⟨[], { fab := fabOf [(xdKey 7 3, r)], regs := regsOf (taskRegs 7 (dieBase 7 + dbBase) 64) }⟩
  let k := xdKey (d + 1) p
  s.chip.atWork ∧ s.chip.xdRun k 6 = some r := by decide +kernel
theorem wit_integer_reduction_ignores_order :
  let l : List Bytes := [[1#8, 0#8, 0#8, 0#8], [255#8, 255#8, 255#8, 255#8], [2#8, 0#8, 0#8, 128#8]]
  let m : List Bytes := [[2#8, 0#8, 0#8, 128#8], [1#8, 0#8, 0#8, 0#8], [255#8, 255#8, 255#8, 255#8]]
  l.Perm m ∧ (∀ b ∈ l, ∀ c ∈ l, b.length = c.length) := by decide +kernel
theorem wit_station_starts_and_completes_0 :
  let st : Stn := 962
  let p : Part := 3
  let s : State := ⟨[], Chip.poke { regs := regsOf (listRegs 962 1 (dieBase 7 + cbBase 8) 1) } (dieBase 7 + cbBase 8) (toLE 64 (cmdOf 3 1 [(63, 56, 255), (95, 80, 1)]))⟩
  let k := stKey st (if isXd st then p else 0)
  let c := s.chip
  let x := c.station k
  let desc := c.listDesc k x.next
  let j := dJob desc
  s.chip.atWork ∧ stType st ≠ 7 ∧ x.blank = none ∧ bit (c.reg (stDie st) (stBlk (stIdx st))) 0 = true ∧ x.next < c.listCount k ∧ c.jobDead j = false ∧ c.mayRun k j = true ∧ (∀ l, x.runs.getLast? = some l → l.inDone = true ∧ dFence desc = false ∧ dJob l.desc = j) := by exact ⟨by decide +kernel, by decide +kernel, by decide +kernel, by decide +kernel, by decide +kernel, by decide +kernel, by decide +kernel, (by intro l hl; cases hl)⟩
theorem wit_station_starts_and_completes_1 :
  let st : Stn := 962
  let p : Part := 3
  let r : Run := { desc := cmdOf 3 1 [(63, 56, 255)], ix := 0, task := 256, inDone := true }
  let rest : List Run := []
  let s : State := ⟨[], { fab := fabOf [(stKey 962 0, r)], regs := regsOf (listRegs 962 1 (dieBase 7 + cbBase 8) 1) }⟩
  let k := stKey st (if isXd st then p else 0)
  s.chip.atWork ∧ (s.chip.station k).runs = r :: rest ∧ (s.chip.station k).blank = none ∧ r.settled = true ∧ s.chip.pipeBusy st r.desc = false := by decide +kernel
theorem wit_queue_slots_fill_in_order_0 :
  let q : QNum := 7168
  let j : Nat := 0
  let r : Run := { desc := cmdOf 3 1 [(63, 56, 255), (75, 74, 1), (95, 80, 1), (156, 144, 7168)], ix := 0, task := 256, outs := [{ k := 0, data := [7#8] }] }
  let s : State := ⟨[], { fab := { fabOf [(stKey 962 0, r)] with queues := [(7168, { credits := 1 })] }, regs := regsOf (qdRegs 7 (qdOf 962 963 1 6)) }⟩
  let x := s.chip.qdesc q
  let qu := s.chip.queue q
  let k := s.chip.keyOf (qProd x) (qPart x)
  s.chip.atWork ∧ s.chip.claimant k q = some (r, j) ∧ qValid x = true ∧ qu.frozen = false ∧ qu.count .filling < 4 ∧ qu.credits ≠ 0 := by decide +kernel
theorem wit_queue_slots_fill_in_order_1 :
  let q : QNum := 7168
  let j : Nat := 0
  let r : Run := { desc := cmdOf 3 1 [(63, 56, 255), (75, 74, 1), (95, 80, 1), (156, 144, 7168)], ix := 0, task := 256, outs := [{ k := 0, data := [7#8] }] }
  let s : State := ⟨[], { fab := { fabOf [(stKey 962 0, r)] with queues := [(7168, {})] }, regs := regsOf (qdRegs 7 (qdOf 962 963 1 6)) }⟩
  let x := s.chip.qdesc q
  let qu := s.chip.queue q
  let k := s.chip.keyOf (qProd x) (qPart x)
  s.chip.atWork ∧ s.chip.claimant k q = some (r, j) ∧ qValid x = true ∧ qu.frozen = false ∧ qu.count .filling < 4 ∧ qu.credits = 0 := by decide +kernel
theorem wit_queue_slots_fill_in_order_2 :
  let q : QNum := 7168
  let t : OutTile := { k := 0, fmt := 3, h := 1, w := 1, c := 1, n := 1, data := [7#8] }
  let r : Run := { desc := cmdOf 3 1 [(63, 56, 255), (75, 74, 1), (95, 80, 1), (156, 144, 7168)], ix := 0, task := 256, outs := [t], claims0 := 1 }
  let rest : List OutTile := []
  let j : Nat := 0
  let s : State := ⟨[], { fab := { fabOf [(stKey 162 0, r)] with queues := [(7168, { slots := [(0, { st := .filling })], pseq := 16777215 })] }, regs := regsOf (qdRegs 7 (qdOf 162 (coreStn 7 0 2) 1 6)) }⟩
  let x := s.chip.qdesc q
  let qu := s.chip.queue q
  let k := s.chip.keyOf (qProd x) (qPart x)
  let dep := max 1 (qDepth x)
  let i := (qu.claimIx + dep - qu.count .filling % dep) % dep
  s.chip.atWork ∧ s.chip.filler k q = some (r, j) ∧ r.outsOf j = t :: rest ∧ qu.frozen = false ∧ qu.count .filling ≠ 0 ∧ groupWaits r (stDie (k / 4)) (qu.count .filling) = false ∧ s.chip.slotIn q i = true ∧ s.chip.linkFull (qProd x / 128) (qCons x / 128) = false ∧ crossDie x = true := by decide +kernel
theorem wit_queue_slots_fill_in_order_3 :
  let q : QNum := 7168
  let t : OutTile := { k := 0, fmt := 3, h := 1, w := 1, c := 1, n := 1, data := [7#8] }
  let r : Run := { desc := cmdOf 3 1 [(63, 56, 255), (75, 74, 1), (95, 80, 1), (156, 144, 7168)], ix := 0, task := 256, outs := [t], claims0 := 1 }
  let rest : List OutTile := []
  let j : Nat := 0
  let s : State := ⟨[], { fab := { fabOf [(stKey 962 0, r)] with queues := [(7168, { slots := [(0, { st := .filling })], pseq := 16777215 })] }, regs := regsOf (qdRegs 7 (qdOf 962 (coreStn 7 0 2) 1 6)) }⟩
  let x := s.chip.qdesc q
  let qu := s.chip.queue q
  let k := s.chip.keyOf (qProd x) (qPart x)
  let dep := max 1 (qDepth x)
  let i := (qu.claimIx + dep - qu.count .filling % dep) % dep
  s.chip.atWork ∧ s.chip.filler k q = some (r, j) ∧ r.outsOf j = t :: rest ∧ qu.frozen = false ∧ qu.count .filling ≠ 0 ∧ groupWaits r (stDie (k / 4)) (qu.count .filling) = false ∧ s.chip.slotIn q i = true ∧ s.chip.linkFull (qProd x / 128) (qCons x / 128) = false ∧ crossDie x = false := by decide +kernel
theorem wit_queue_slots_fill_in_order_4 :
  let q : QNum := 7168
  let j : Nat := 0
  let r : Run := { desc := cmdOf 3 2 [(63, 56, 255), (73, 72, 1), (95, 80, 1), (108, 96, 7168)], ix := 0, task := 256 }
  let s : State := ⟨[], tileIn { fab := { fabOf [(stKey 962 0, r)] with queues := [(7168, { slots := [(0, { st := .full })] })] }, regs := regsOf (qdRegs 7 (qdOf 963 962 1 6)) } 7168 0 (hdrOf 255 6 1 1 1 4)⟩
  let x := s.chip.qdesc q
  let qu := s.chip.queue q
  let k := s.chip.keyOf (qCons x) (qPart x)
  s.chip.atWork ∧ s.chip.curRun k = some r ∧ inOf r.desc q = some j ∧ qValid x = true ∧ qu.frozen = false ∧ r.status = 0 ∧ r.inDone = false ∧ dType r.desc ≠ 1 ∧ r.takenOf j < (if j = 0 then dTiles r.desc else r.taken) ∧ (qu.slot qu.acqIx).st = .full ∧ s.chip.slotIn q qu.acqIx = true ∧ (hEos (fromLE (s.chip.peek (s.chip.slotAddr q qu.acqIx) 32)) = true → dType r.desc ≠ 2 → ∀ t ∈ r.ins, t.used = true ∨ r.takenOf j ≤ t.ord) := by decide +kernel
theorem wit_slots_release_credits_return_0 :
  let q : QNum := 7168
  let t : InTile := { tileOne 0 0 with q := 7168, used := true }
  let r : Run := { desc := cmdOf 3 1 [(63, 56, 255)], ix := 0, task := 256, ins := [t] }
  let s : State := ⟨[], { fab := { fabOf [(stKey 962 0, r)] with queues := [(7168, { slots := [(0, { st := .draining })] })] }, regs := regsOf (qdRegs 7 (qdOf 963 962 1 6)) }⟩
  let x := s.chip.qdesc q
  let qu := s.chip.queue q
  let k := s.chip.keyOf (qCons x) (qPart x)
  s.chip.atWork ∧ s.chip.releaser k q = some (r, t) ∧ qu.frozen = false ∧ t.q = q := by decide +kernel
theorem wit_slots_release_credits_return_1 :
  let q : QNum := 7168
  let s : State := ⟨[], { fab := { queues := [(7168, { gathered := 256 })] }, regs := regsOf (qdRegs 7 (qdOf 162 962 256 6)) }⟩
  let x := s.chip.qdesc q
  let qu := s.chip.queue q
  s.chip.atWork ∧ qu.gathered ≠ 0 ∧ qu.frozen = false ∧ crossDie x = true := by decide +kernel
theorem wit_slots_release_credits_return_2 :
  let q : QNum := 7168
  let n : Nat := 1
  let s : State := ⟨[], { fab := { queues := [(7168, { credits := 255, flight := 1 })] }, regs := regsOf (qdRegs 7 (qdOf 162 962 256 6)) }⟩
  let x := s.chip.qdesc q
  let qu := s.chip.queue q
  s.chip.atWork ∧ qValid x = true ∧ qu.frozen = false ∧ qu.credits + n ≤ qDepth x := by decide +kernel
theorem wit_credit_overflow_freezes_queue :
  let q : QNum := 7168
  let n : Nat := 1
  let s : State := ⟨[], { fab := { queues := [(7168, { job := 63, credits := 256 })] }, regs := regsOf (qdRegs 7 (qdOf 162 962 256 6)) }⟩
  let x := s.chip.qdesc q
  let qu := s.chip.queue q
  s.chip.atWork ∧ qValid x = true ∧ qu.frozen = false ∧ qDepth x < qu.credits + n ∧ qu.job ≠ 255 ∧ s.chip.jobDead qu.job = false := by decide +kernel
theorem wit_plain_stores_keep_slots_whole_0 :
  let st : Stn := 963
  let p : Part := 3
  let x : Store := { addr := dieBase 7 + cbBase 8, data := [1#8, 2#8] }
  let rest : List Store := []
  let r : Run := { desc := cmdOf 4 1 [(63, 56, 63)], ix := 0, task := 0, stores := [x] }
  let s : State := ⟨[], { fab := fabOf [(stKey 963 0, r)] }⟩
  let k := stKey st (if isXd st then p else 0)
  s.chip.atWork ∧ (s.chip.station k).runs.find? (fun r => !r.stores.isEmpty) = some r ∧ r.stores = x :: rest ∧ s.chip.slotHit x.addr x.data.length = none := by decide +kernel
theorem wit_plain_stores_keep_slots_whole_1 :
  let st : Stn := 963
  let p : Part := 3
  let rest : List Store := []
  let q : Nat := 7168
  let i : Nat := 0
  let x : Store := { addr := dieBase 7 + cbBase 0 + 0x3C003F, data := [1#8, 2#8] }
  let r : Run := { desc := cmdOf 4 1 [(63, 56, 63)], ix := 0, task := 0, stores := [x] }
  let s : State := ⟨[], { fab := { fabOf [(stKey 963 0, r)] with queues := [(7168, { slots := [(0, { st := .full })] })] }, regs := regsOf (qdRegs 7 (qdOf 962 (coreStn 7 0 2) 1 6)) }⟩
  let k := stKey st (if isXd st then p else 0)
  s.chip.atWork ∧ (s.chip.station k).runs.find? (fun r => !r.stores.isEmpty) = some r ∧ r.stores = x :: rest ∧ s.chip.slotHit x.addr x.data.length = some (q, i) := by decide +kernel
theorem wit_remote_requests_served_0 :
  let st : Stn := 993
  let p : Part := 3
  let q : WReq := { die := 1, win := 63, off := 192, len := 64, wr := true, data := List.replicate 64 9#8 }
  let rest : List WReq := []
  let r : Run := { desc := cmdOf 6 1 [(63, 56, 63)], ix := 0, task := 0, reqs := [q] }
  let s : State := ⟨[], { fab := fabOf [(stKey 993 3, r)], cfg := [⟨0x0702, [63, 3]⟩], regs := regsOf (winRegs 1 63 (dbBase) 256 14342) }⟩
  let k := stKey st (if isXd st then p else 0)
  let src := stDie st
  let job := dJob r.desc
  let part := s.chip.jobPart job
  let ok := s.chip.winCheck src part q
  s.chip.isLive ∧ s.chip.asker k = some (r, q, rest) ∧ ok ≠ stOk := by decide +kernel
theorem wit_remote_requests_served_1 :
  let st : Stn := 993
  let p : Part := 3
  let rest : List WReq := []
  let q : WReq := { die := 1, win := 63, off := 192, len := 64, wr := true, data := List.replicate 64 9#8, cid := conKey 1 7 0 + 1 }
  let r : Run := { desc := cmdOf 6 1 [(63, 56, 63)], ix := 0, task := 0, reqs := [q], inDone := true }
  let s : State := ⟨[], { fab := fabOf [(stKey 993 3, r)], cfg := [⟨0x0702, [63, 3]⟩], regs := regsOf (winRegs 1 63 (dbBase) 256 14343) }⟩
  let k := stKey st (if isXd st then p else 0)
  let src := stDie st
  let job := dJob r.desc
  let part := s.chip.jobPart job
  let ok := s.chip.winCheck src part q
  s.chip.isLive ∧ s.chip.asker k = some (r, q, rest) ∧ ok = stOk ∧ q.wr = true := by decide +kernel
theorem wit_remote_requests_served_2 :
  let st : Stn := 993
  let p : Part := 3
  let rest : List WReq := []
  let q : WReq := { die := 1, win := 63, off := 192, len := 64, wr := false }
  let r : Run := { desc := cmdOf 6 1 [(63, 56, 63)], ix := 0, task := 0, reqs := [q] }
  let s : State := ⟨[], { fab := fabOf [(stKey 993 3, r)], cfg := [⟨0x0702, [63, 3]⟩], regs := regsOf (winRegs 1 63 (dbBase) 256 14343) }⟩
  let k := stKey st (if isXd st then p else 0)
  let src := stDie st
  let job := dJob r.desc
  let part := s.chip.jobPart job
  let ok := s.chip.winCheck src part q
  s.chip.isLive ∧ s.chip.asker k = some (r, q, rest) ∧ ok = stOk ∧ q.wr = false := by decide +kernel
theorem wit_remote_requests_served_3 :
  let st : Stn := 993
  let p : Part := 3
  let x : WRet := { req := { die := 1, win := 63, off := 192, len := 64, wr := true, place := 64 }, status := stBound, region := 1 }
  let rest : List WRet := []
  let r : Run := { desc := cmdOf 6 1 [(63, 56, 63)], ix := 0, task := 0, rets := [x] }
  let s : State := ⟨[], { fab := fabOf [(stKey 993 3, r)] }⟩
  let k := stKey st (if isXd st then p else 0)
  s.chip.isLive ∧ (s.chip.station k).runs.find? (fun r => !r.rets.isEmpty) = some r ∧ r.rets = x :: rest ∧ x.status = stBound := by decide +kernel
theorem wit_remote_requests_served_4 :
  let st : Stn := 993
  let p : Part := 3
  let rest : List WRet := []
  let x : WRet := { req := { die := 1, win := 63, off := 192, len := 2, wr := false, place := 1 }, status := stOk, data := [1#8, 2#8], pois := [1] }
  let r : Run := { desc := cmdOf 6 2 [(63, 56, 63)], ix := 0, task := 0, rets := [x], buf := [0#8, 0#8, 0#8] }
  let s : State := ⟨[], { fab := fabOf [(stKey 993 3, r)] }⟩
  let k := stKey st (if isXd st then p else 0)
  s.chip.isLive ∧ (s.chip.station k).runs.find? (fun r => !r.rets.isEmpty) = some r ∧ r.rets = x :: rest ∧ x.status ≠ stBound := by decide +kernel
theorem wit_remote_requests_served_4_closed :
  let st : Stn := 993
  let p : Part := 3
  let rest : List WRet := []
  let x : WRet := { req := { die := 1, win := 63, off := 192, len := 64, wr := true, place := 64 }, status := stWindowClosed }
  let r : Run := { desc := cmdOf 6 1 [(63, 56, 63)], ix := 0, task := 0, rets := [x] }
  let s : State := ⟨[], { fab := fabOf [(stKey 993 3, r)] }⟩
  let k := stKey st (if isXd st then p else 0)
  s.chip.isLive ∧ (s.chip.station k).runs.find? (fun r => !r.rets.isEmpty) = some r ∧ r.rets = x :: rest ∧ x.status ≠ stBound := by decide +kernel
theorem wit_memory_controllers_serve_0 :
  let d : Die := 7
  let e : Nat × Bool := (7 * 2 ^ 41 + 8, true)
  let s : State := ⟨[], { ecc := { wb := [e] } }⟩
  s.chip.isLive ∧ s.chip.ecc.wb.find? (fun e => e.1 / 2 ^ 41 == (d : Nat)) = some e := by decide +kernel
theorem wit_memory_controllers_serve_1 :
  let d : Die := 7
  let buf : Fin 19 := 10
  let s : State := ⟨[], { cmp := { rows := [(rowKey (coreStn 7 0 0) 0 0, { st := .accum })] } }⟩
  let b : Nat := buf
  let x := s.chip.scrubAt d b
  let p := x % 2 ^ 20
  let inUse := ∃ k, scrubRow d b p = some k ∧ (tabGet {} s.chip.cmp.rows k).st ≠ .free
  s.chip.isLive ∧ b ∈ scrubBufs d ∧ inUse := by decide +kernel
theorem wit_memory_controllers_serve_2 :
  let d : Die := 7
  let buf : Fin 19 := 10
  let s : State := {}
  let b : Nat := buf
  let x := s.chip.scrubAt d b
  let p := x % 2 ^ 20
  let inUse := ∃ k, scrubRow d b p = some k ∧ (tabGet {} s.chip.cmp.rows k).st ≠ .free
  s.chip.isLive ∧ b ∈ scrubBufs d ∧ ¬ inUse := by decide +kernel
theorem wit_memory_controllers_serve_3 :
  let d : Die := 7
  let buf : Fin 19 := 10
  let s : State := {}
  let b : Nat := buf
  s.chip.isLive ∧ b ∈ scrubBufs d := by decide +kernel
theorem wit_memory_controllers_serve_4 :
  let d : CDie := 6
  let r : DdrReq := { addr := 0, len := 8, data := none, who := .firmware }
  let s : State := ⟨[], { regs := regsOf [(7, ddrBlk 0, 1)] }⟩
  let die : Nat := d + 1
  s.chip.isLive ∧ r.addr.toNat < s.chip.usable die ∧ r.data = none := by decide +kernel
theorem wit_memory_controllers_serve_5 :
  let d : CDie := 6
  let b : Bytes := [1#8, 2#8]
  let r : DdrReq := { addr := 0, len := 8, data := some b, who := .firmware }
  let s : State := ⟨[], { regs := regsOf [(7, ddrBlk 0, 1)] }⟩
  let die : Nat := d + 1
  s.chip.isLive ∧ r.addr.toNat < s.chip.usable die ∧ r.data = some b := by decide +kernel
theorem wit_memory_controllers_serve_6 :
  let s : State := ⟨[], { regs := regsOf [(7, ddrBlk 0, 1)] }⟩
  s.chip.isLive := by decide +kernel
theorem wit_memory_controllers_serve_7 :
  let d : CDie := 6
  let sub : Fin 2 := 0
  let bank : Fin 32 := 0
  let s : State := ⟨[], { regs := regsOf [(7, ddrBlk 0, 1)] }⟩
  let die : Nat := d + 1
  let m := (tabGet (0, 0) s.chip.ecc.rfm die).1
  let k := bankKey die sub bank
  s.chip.isLive ∧ (m = 0 ∨ tabGet 0 s.chip.ecc.raa k < m) := by decide +kernel
theorem wit_memory_controllers_serve_8 :
  let d : CDie := 6
  let sub : Fin 2 := 0
  let bank : Fin 32 := 0
  let s : State := ⟨[], { ecc := { rfm := [(7, (16, 32))], raa := [(bankKey 7 0 0, 20)] } }⟩
  let die : Nat := d + 1
  let m := (tabGet (0, 0) s.chip.ecc.rfm die).1
  let k := bankKey die sub bank
  s.chip.isLive ∧ m ≠ 0 ∧ m ≤ tabGet 0 s.chip.ecc.raa k := by decide +kernel
theorem wit_memory_controllers_serve_9 :
  let hot : Bool := false
  let s : State := {}
  s.chip.isLive ∧ hot = false := by decide +kernel
theorem wit_memory_controllers_serve_10 :
  let hot : Bool := true
  let s : State := {}
  s.chip.isLive ∧ hot = true := by decide +kernel
theorem wit_memory_controllers_serve_11 :
  let d : CDie := 6
  let sub : Fin 2 := 0
  let rank : Fin 2 := 0
  let count : BitVec 16 := 100
  let s : State := ⟨[], { ecc := { osc := [(28, 100)] } }⟩
  let die : Nat := d + 1
  let k : Nat := (die * 2 + sub) * 2 + rank
  let ref := tabGet 0 s.chip.ecc.osc k
  let diff := if count.toNat < ref then ref - count.toNat else count.toNat - ref
  s.chip.isLive ∧ 50 * diff ≤ ref := by decide +kernel
theorem wit_memory_controllers_serve_12 :
  let d : CDie := 6
  let sub : Fin 2 := 0
  let rank : Fin 2 := 0
  let ok : Bool := true
  let count : BitVec 16 := 110
  let s : State := ⟨[], { ecc := { osc := [(28, 100)] } }⟩
  let die : Nat := d + 1
  let k : Nat := (die * 2 + sub) * 2 + rank
  let ref := tabGet 0 s.chip.ecc.osc k
  let diff := if count.toNat < ref then ref - count.toNat else count.toNat - ref
  s.chip.isLive ∧ ref < 50 * diff ∧ ok = true := by decide +kernel
theorem wit_memory_controllers_serve_13 :
  let d : CDie := 6
  let sub : Fin 2 := 0
  let rank : Fin 2 := 0
  let count : BitVec 16 := 110
  let ok : Bool := false
  let s : State := ⟨[], { ecc := { osc := [(28, 100)] } }⟩
  let die : Nat := d + 1
  let k : Nat := (die * 2 + sub) * 2 + rank
  let ref := tabGet 0 s.chip.ecc.osc k
  let diff := if count.toNat < ref then ref - count.toNat else count.toNat - ref
  s.chip.isLive ∧ ref < 50 * diff ∧ ok = false := by decide +kernel
theorem wit_memory_controllers_serve_14 :
  let s : State := ⟨[], { ecc := { osc := [(28, 100)] } }⟩
  s.chip.isLive := by decide +kernel
theorem wit_memory_controllers_serve_15 :
  let d : CDie := 6
  let waiting : Fin 16 := 1
  let p : Part := 0
  let s : State := ⟨[], { cfg := [⟨0x0202, [0, 7, 0, 64, 5]⟩] }⟩
  let die : Nat := d + 1
  s.chip.isLive ∧ bit waiting p = true ∧ tabGet 0 s.chip.ecc.served (die * 4 + p) < s.chip.reserved die p := by decide +kernel
theorem wit_flits_acknowledged_and_replayed_0 :
  let l : Lnk := ⟨7, 0⟩
  let f : Bytes := []
  let s : State := {}
  let d : Nat := l.die
  let m : Nat := l.mod
  let x := s.chip.link d m
  s.chip.isLive ∧ lnkOk l.die l.mod = true ∧ x.down = false ∧ x.retraining = false ∧ (f.length ≠ 256 ∨ leAt f 252 4 ≠ crc32c (f.take 252)) := by decide +kernel
theorem wit_flits_acknowledged_and_replayed_1 :
  let l : Lnk := ⟨7, 0⟩
  let f : Bytes := flitOf 9 0
  let s : State := {}
  let d : Nat := l.die
  let m : Nat := l.mod
  let x := s.chip.link d m
  s.chip.isLive ∧ lnkOk l.die l.mod = true ∧ x.down = false ∧ x.retraining = false ∧ f.length = 256 ∧ leAt f 252 4 = crc32c (f.take 252) ∧ (flitType f = 0 ∨ flitType f = 9) := by exact ⟨by decide +kernel, by decide +kernel, by decide +kernel, by decide +kernel, (by exact (flitOf_sealed _ _).1), (by exact (flitOf_sealed _ _).2), by decide +kernel⟩
theorem wit_flits_acknowledged_and_replayed_2 :
  let l : Lnk := ⟨7, 0⟩
  let f : Bytes := flitOf 8 0
  let s : State := {}
  let d : Nat := l.die
  let m : Nat := l.mod
  let x := s.chip.link d m
  s.chip.isLive ∧ lnkOk l.die l.mod = true ∧ x.down = false ∧ x.retraining = false ∧ f.length = 256 ∧ leAt f 252 4 = crc32c (f.take 252) ∧ flitType f = 8 := by exact ⟨by decide +kernel, by decide +kernel, by decide +kernel, by decide +kernel, (by exact (flitOf_sealed _ _).1), (by exact (flitOf_sealed _ _).2), by decide +kernel⟩
theorem wit_flits_acknowledged_and_replayed_3 :
  let l : Lnk := ⟨7, 0⟩
  let f : Bytes := flitOf (1 + 5 <<< 4) 0
  let s : State := {}
  let d : Nat := l.die
  let m : Nat := l.mod
  let x := s.chip.link d m
  s.chip.isLive ∧ lnkOk l.die l.mod = true ∧ x.down = false ∧ x.retraining = false ∧ f.length = 256 ∧ leAt f 252 4 = crc32c (f.take 252) ∧ flitType f ≠ 0 ∧ flitType f ≠ 8 ∧ flitType f ≠ 9 ∧ flitSeq f ≠ x.rxSeq := by exact ⟨by decide +kernel, by decide +kernel, by decide +kernel, by decide +kernel, (by exact (flitOf_sealed _ _).1), (by exact (flitOf_sealed _ _).2), by decide +kernel, by decide +kernel, by decide +kernel, by decide +kernel⟩
theorem wit_flits_acknowledged_and_replayed_4 :
  let l : Lnk := ⟨7, 0⟩
  let f : Bytes := flitOf (1 + 7 <<< 19) 0
  let s : State := {}
  let d : Nat := l.die
  let m : Nat := l.mod
  let x := s.chip.link d m
  s.chip.isLive ∧ lnkOk l.die l.mod = true ∧ x.down = false ∧ x.retraining = false ∧ f.length = 256 ∧ leAt f 252 4 = crc32c (f.take 252) ∧ flitType f ≠ 0 ∧ flitType f ≠ 8 ∧ flitType f ≠ 9 ∧ flitSeq f = x.rxSeq := by exact ⟨by decide +kernel, by decide +kernel, by decide +kernel, by decide +kernel, (by exact (flitOf_sealed _ _).1), (by exact (flitOf_sealed _ _).2), by decide +kernel, by decide +kernel, by decide +kernel, by decide +kernel⟩
theorem wit_flits_acknowledged_and_replayed_5 :
  let l : Lnk := ⟨7, 0⟩
  let s : State := ⟨[], { lnk := { links := [(lnkKey 7 0, { unacked := 3 })] } }⟩
  let d : Nat := l.die
  let m : Nat := l.mod
  let x := s.chip.link d m
  s.chip.isLive ∧ lnkOk l.die l.mod = true ∧ x.down = false ∧ x.unacked ≠ 0 := by decide +kernel
theorem wit_flits_acknowledged_and_replayed_6 :
  let l : Lnk := ⟨7, 0⟩
  let s : State := {}
  let d : Nat := l.die
  let m : Nat := l.mod
  let x := s.chip.link d m
  s.chip.isLive ∧ lnkOk l.die l.mod = true ∧ x.down = false := by decide +kernel
theorem wit_flits_acknowledged_and_replayed_7 :
  let l : Lnk := ⟨7, 0⟩
  let s : State := ⟨[], { lnk := { links := [(lnkKey 7 0, { nakRun := 4 })] } }⟩
  let d : Nat := l.die
  let m : Nat := l.mod
  let x := s.chip.link d m
  s.chip.isLive ∧ lnkOk l.die l.mod = true ∧ x.down = false ∧ x.retraining = false ∧ (4 ≤ x.nakRun ∨ 64 ≤ x.replays) := by decide +kernel
theorem wit_flits_acknowledged_and_replayed_8 :
  let l : Lnk := ⟨7, 0⟩
  let tx : Lanes := [3]
  let rx : Lanes := []
  let s : State := ⟨[], { lnk := { links := [(lnkKey 7 0, { retraining := true })] } }⟩
  let d : Nat := l.die
  let m : Nat := l.mod
  let x := s.chip.link d m
  let bad := fun (y : Lanes) => laneOrder (List.map (fun (k : Fin 16) => k.val) y)
  s.chip.isLive ∧ lnkOk l.die l.mod = true ∧ x.retraining = true ∧ s.chip.sparesAt d m 0 + (bad tx).length ≤ 2 ∧ s.chip.sparesAt d m 1 + (bad rx).length ≤ 2 := by decide +kernel
theorem wit_flits_acknowledged_and_replayed_9 :
  let l : Lnk := ⟨7, 0⟩
  let rx : Lanes := []
  let tx : Lanes := [3, 4, 5]
  let s : State := ⟨[], { lnk := { links := [(lnkKey 7 0, { retraining := true })] } }⟩
  let d : Nat := l.die
  let m : Nat := l.mod
  let x := s.chip.link d m
  let bad := fun (y : Lanes) => laneOrder (List.map (fun (k : Fin 16) => k.val) y)
  s.chip.isLive ∧ lnkOk l.die l.mod = true ∧ x.retraining = true ∧ (2 < s.chip.sparesAt d m 0 + (bad tx).length ∨ 2 < s.chip.sparesAt d m 1 + (bad rx).length) := by decide +kernel
theorem wit_digests_decide_contributions_0 :
  let d : Die := 7
  let src : Die := 1
  let num : Fin 8192 := 0
  let tr : Trailer := ({} : Contrib).trailer
  let s : State := ⟨[], { lnk := { contribs := [(conKey 7 1 0, {})] } }⟩
  let k := conKey d src num
  let x := s.chip.contrib k
  s.chip.isLive ∧ s.chip.hasContrib k = true ∧ x.st = .pending ∧ x.expects tr = true := by decide +kernel
theorem wit_digests_decide_contributions_1 :
  let d : Die := 7
  let src : Die := 1
  let num : Fin 8192 := 0
  let tr : Trailer := ⟨0, 0, 1, 0, false⟩
  let s : State := ⟨[], { lnk := { contribs := [(conKey 7 1 0, {})] } }⟩
  let k := conKey d src num
  let x := s.chip.contrib k
  s.chip.isLive ∧ s.chip.hasContrib k = true ∧ x.st = .pending ∧ x.expects tr = false := by decide +kernel
theorem wit_digests_decide_contributions_2 :
  let s : State := ⟨[], { lnk := { contribs := [(conKey 7 1 0, { st := .verified })] } }⟩
  s.chip.isLive := by decide +kernel
theorem wit_digests_decide_contributions_3 :
  let dst : Nat := 7
  let src : Nat := 1
  let num : Nat := 8191
  let i : Nat := 1
  let c : Chip := { cfg := [⟨0x0201, [0, 1]⟩] }
  let p := (c.contrib (conKey dst src num)).part
  dst < 8 ∧ src < 8 ∧ dst ≠ src ∧ i < 2 ∧ num < 8192 ∧ p < 4 ∧ c.isSafety p = true := by decide +kernel
theorem wit_digests_decide_contributions_4 :
  let dst : Nat := 7
  let src : Nat := 1
  let num : Nat := 8191
  let i : Nat := 1
  let c : Chip := { cfg := [⟨0x0201, [0, 1]⟩], wrk := { records := [(0, 2)] } }
  let p := (c.contrib (conKey dst src num)).part
  dst < 8 ∧ src < 8 ∧ dst ≠ src ∧ i < 2 ∧ num < 8192 ∧ p < 4 ∧ c.record c.turn32 p = 2 := by decide +kernel
theorem wit_images_collected_and_written_0 :
  let sp : SPort := 0
  let vc : Fin 4 := 0
  let retx : Nat := 0
  let hdr : HdrEcc := .bad
  let strm : Nat := 0
  let s : State := ⟨[], { cfg := [⟨0x0402, [0, 0, 0, 0x1E, 32, 1, 1, 0, 0, 0, 0, 0, 0, 0, 0, 1, 1, 0, 0, 7, 0, 3, 1]⟩], sns := { ports := [(0, { si := true })] }, regs := regsOf [(0, spBlk 0, 0x21), (0, tsBlk + 0x10, 1)] }⟩
  let n := if s.chip.sport sp 5 1 = 0 then 0 else retx
  let c := (s.chip.addReg 0 (spBlk sp + 0x30) n).csiCount sp (hdr == .corrected) false
  s.chip.atWork ∧ s.chip.sinkOn sp = true ∧ c.streamOf sp vc = some strm ∧ c.sinkOn sp = true ∧ c.running = true ∧ hdr = .bad := by decide +kernel
theorem wit_images_collected_and_written_1 :
  let sp : SPort := 0
  let vc : Fin 4 := 0
  let retx : Nat := 0
  let cap : Capture := ⟨0, 0⟩
  let strm : Nat := 0
  let hdr : HdrEcc := .ok
  let tag : Nat := 0
  let g : RingCfg := ⟨7, 0, 3, 65536, 65536, 2, 1, 0, 3, [4096]⟩
  let s : State := ⟨[], { cfg := [⟨0x0402, [0, 0, 0, 0x1E, 32, 1, 1, 0, 0, 0, 0, 0, 0, 0, 0, 1, 2, 1, 0, 7, 0, 3, 1]⟩], sns := { ports := [(0, { si := true })] }, regs := regsOf [(0, spBlk 0, 0x21), (0, tsBlk + 0x10, 1)] }⟩
  let n := if s.chip.sport sp 5 1 = 0 then 0 else retx
  let c := (s.chip.addReg 0 (spBlk sp + 0x30) n).csiCount sp (hdr == .corrected) false
  let c1 := c.dropSi strm 4
  let ts := c1.capture cap - (gearCorr (bits (c1.reg 0 (spBlk sp)) 4 2) + c1.sport sp 9 0 + n * 2000) * 65536 - (c1.sp sp).delay
  let c2 := c1.setReg64 0 (spBlk sp + 0x18) (ts / 65536)
  s.chip.atWork ∧ s.chip.sinkOn sp = true ∧ c.streamOf sp vc = some strm ∧ c.sinkOn sp = true ∧ c.running = true ∧ hdr ≠ .bad ∧ c2.ringCfg strm = some g ∧ c2.tagOf ts = some tag ∧ g.sync tag = false := by decide +kernel
theorem wit_images_collected_and_written_2 :
  let sp : SPort := 0
  let vc : Fin 4 := 0
  let retx : Nat := 0
  let cap : Capture := ⟨0, 0⟩
  let strm : Nat := 0
  let hdr : HdrEcc := .ok
  let tag : Nat := 0
  let g : RingCfg := ⟨7, 0, 3, 65536, 65536, 1, 0, 0, 3, [4096]⟩
  let s : State := ⟨[], { cfg := [⟨0x0402, [0, 0, 0, 0x1E, 32, 1, 1, 0, 0, 0, 0, 0, 0, 0, 0, 1, 1, 0, 0, 7, 0, 3, 1]⟩], sns := { ports := [(0, { si := true })], rings := [(0, { ents := [(0, ⟨.writing, 0⟩)] })] }, regs := regsOf [(0, spBlk 0, 0x21), (0, tsBlk + 0x10, 1)] }⟩
  let n := if s.chip.sport sp 5 1 = 0 then 0 else retx
  let c := (s.chip.addReg 0 (spBlk sp + 0x30) n).csiCount sp (hdr == .corrected) false
  let c1 := c.dropSi strm 4
  let ts := c1.capture cap - (gearCorr (bits (c1.reg 0 (spBlk sp)) 4 2) + c1.sport sp 9 0 + n * 2000) * 65536 - (c1.sp sp).delay
  let c2 := c1.setReg64 0 (spBlk sp + 0x18) (ts / 65536)
  let r := { c2.ring strm with seen := tag + 1 }
  s.chip.atWork ∧ s.chip.sinkOn sp = true ∧ c.streamOf sp vc = some strm ∧ c.sinkOn sp = true ∧ c.running = true ∧ hdr ≠ .bad ∧ c2.ringCfg strm = some g ∧ c2.tagOf ts = some tag ∧ g.sync tag = true ∧ r.ents.any (fun e => e.2.st != .free && e.2.tag == tag) = true := by decide +kernel
theorem wit_images_collected_and_written_3 :
  let sp : SPort := 0
  let vc : Fin 4 := 0
  let retx : Nat := 0
  let cap : Capture := ⟨0, 0⟩
  let strm : Nat := 0
  let hdr : HdrEcc := .ok
  let tag : Nat := 0
  let g : RingCfg := ⟨7, 0, 3, 65536, 65536, 1, 0, 0, 3, [4096]⟩
  let e : Nat := 0
  let s : State := ⟨[], { cfg := [⟨0x0402, [0, 0, 0, 0x1E, 32, 1, 1, 0, 0, 0, 0, 0, 0, 0, 0, 1, 1, 0, 0, 7, 0, 3, 1]⟩], sns := { ports := [(0, { si := true })] }, regs := regsOf [(0, spBlk 0, 0x21), (0, tsBlk + 0x10, 1)] }⟩
  let n := if s.chip.sport sp 5 1 = 0 then 0 else retx
  let c := (s.chip.addReg 0 (spBlk sp + 0x30) n).csiCount sp (hdr == .corrected) false
  let c1 := c.dropSi strm 4
  let ts := c1.capture cap - (gearCorr (bits (c1.reg 0 (spBlk sp)) 4 2) + c1.sport sp 9 0 + n * 2000) * 65536 - (c1.sp sp).delay
  let c2 := c1.setReg64 0 (spBlk sp + 0x18) (ts / 65536)
  let r := { c2.ring strm with seen := tag + 1 }
  s.chip.atWork ∧ s.chip.sinkOn sp = true ∧ c.streamOf sp vc = some strm ∧ c.sinkOn sp = true ∧ c.running = true ∧ hdr ≠ .bad ∧ c2.ringCfg strm = some g ∧ c2.tagOf ts = some tag ∧ g.sync tag = true ∧ r.ents.any (fun e => e.2.st != .free && e.2.tag == tag) = false ∧ c2.freeEntry strm = some e := by decide +kernel
theorem wit_images_collected_and_written_4 :
  let sp : SPort := 0
  let vc : Fin 4 := 0
  let retx : Nat := 0
  let cap : Capture := ⟨0, 0⟩
  let strm : Nat := 0
  let hdr : HdrEcc := .ok
  let tag : Nat := 0
  let g : RingCfg := ⟨7, 0, 3, 65536, 65536, 1, 0, 0, 3, [4096]⟩
  let s : State := ⟨[], { cfg := [⟨0x0402, [0, 0, 0, 0x1E, 32, 1, 1, 0, 0, 0, 0, 0, 0, 0, 0, 1, 1, 0, 0, 7, 0, 3, 1]⟩], sns := { ports := [(0, { si := true })], rings := [(0, { ents := [(0, ⟨.ready, 5⟩), (1, ⟨.ready, 6⟩), (2, ⟨.viewed, 7⟩)] })] }, regs := regsOf [(0, spBlk 0, 0x21), (0, tsBlk + 0x10, 1)] }⟩
  let n := if s.chip.sport sp 5 1 = 0 then 0 else retx
  let c := (s.chip.addReg 0 (spBlk sp + 0x30) n).csiCount sp (hdr == .corrected) false
  let c1 := c.dropSi strm 4
  let ts := c1.capture cap - (gearCorr (bits (c1.reg 0 (spBlk sp)) 4 2) + c1.sport sp 9 0 + n * 2000) * 65536 - (c1.sp sp).delay
  let c2 := c1.setReg64 0 (spBlk sp + 0x18) (ts / 65536)
  let r := { c2.ring strm with seen := tag + 1 }
  s.chip.atWork ∧ s.chip.sinkOn sp = true ∧ c.streamOf sp vc = some strm ∧ c.sinkOn sp = true ∧ c.running = true ∧ hdr ≠ .bad ∧ c2.ringCfg strm = some g ∧ c2.tagOf ts = some tag ∧ g.sync tag = true ∧ r.ents.any (fun e => e.2.st != .free && e.2.tag == tag) = false ∧ c2.freeEntry strm = none := by decide +kernel
theorem wit_images_collected_and_written_5 :
  let sp : SPort := 0
  let vc : Fin 4 := 0
  let retx : Nat := 0
  let strm : Nat := 0
  let hdr : HdrEcc := .ok
  let i : Img := { ent := 0, tag := 0, ts := 0, bound := 0 }
  let s : State := ⟨[], { cfg := [⟨0x0402, [0, 0, 0, 0x1E, 32, 1, 1, 0, 0, 0, 0, 0, 0, 0, 0, 1, 1, 0, 0, 7, 0, 3, 1]⟩], sns := { ports := [(0, { si := true })], rings := [(0, { img := some i })] }, regs := regsOf [(0, spBlk 0, 0x21), (0, tsBlk + 0x10, 1)] }⟩
  let c := (s.chip.addReg 0 (spBlk sp + 0x30) (if s.chip.sport sp 5 1 = 0 then 0 else retx)).csiCount sp (hdr == .corrected) false
  s.chip.atWork ∧ s.chip.sinkOn sp = true ∧ c.sinkOn sp = true ∧ c.streamOf sp vc = some strm ∧ (c.ring strm).img = some i := by decide +kernel
theorem wit_images_collected_and_written_6 :
  let sp : SPort := 0
  let vc : Fin 4 := 0
  let retx : Nat := 0
  let strm : Nat := 0
  let hdr : HdrEcc := .ok
  let i : Img := { ent := 0, tag := 0, ts := 0, bound := 0 }
  let dt : Fin 64 := 0x1E
  let ok : Bool := false
  let s : State := ⟨[], { cfg := [⟨0x0402, [0, 0, 0, 0x1E, 32, 1, 1, 0, 0, 0, 0, 0, 0, 0, 0, 1, 1, 0, 0, 7, 0, 3, 1]⟩], sns := { ports := [(0, { si := true })], rings := [(0, { img := some i })] }, regs := regsOf [(0, spBlk 0, 0x21), (0, tsBlk + 0x10, 1)] }⟩
  let c := (s.chip.addReg 0 (spBlk sp + 0x30) (if s.chip.sport sp 5 1 = 0 then 0 else retx)).csiCount sp (hdr == .corrected) false
  let v := (c.stream strm).getD []
  s.chip.atWork ∧ s.chip.sinkOn sp = true ∧ c.sinkOn sp = true ∧ c.streamOf sp vc = some strm ∧ (c.ring strm).img = some i ∧ dt.val ≠ 0x12 ∧ dt.val = v.getD 3 0 ∧ (hdr = .bad ∨ ok = false) := by decide +kernel
theorem wit_images_collected_and_written_7 :
  let sp : SPort := 0
  let vc : Fin 4 := 0
  let retx : Nat := 0
  let strm : Nat := 0
  let hdr : HdrEcc := .ok
  let i : Img := { ent := 0, tag := 0, ts := 0, bound := 0 }
  let dt : Fin 64 := 0x1E
  let ok : Bool := true
  let data : Bytes := List.replicate 63 1#8
  let s : State := ⟨[], { cfg := [⟨0x0402, [0, 0, 0, 0x1E, 32, 1, 1, 0, 0, 0, 0, 0, 0, 0, 0, 1, 1, 0, 0, 7, 0, 3, 1]⟩], sns := { ports := [(0, { si := true })], rings := [(0, { img := some i })] }, regs := regsOf [(0, spBlk 0, 0x21), (0, tsBlk + 0x10, 1)] }⟩
  let c := (s.chip.addReg 0 (spBlk sp + 0x30) (if s.chip.sport sp 5 1 = 0 then 0 else retx)).csiCount sp (hdr == .corrected) false
  let v := (c.stream strm).getD []
  s.chip.atWork ∧ s.chip.sinkOn sp = true ∧ c.sinkOn sp = true ∧ c.streamOf sp vc = some strm ∧ (c.ring strm).img = some i ∧ dt.val ≠ 0x12 ∧ dt.val = v.getD 3 0 ∧ hdr ≠ .bad ∧ ok = true ∧ (data.length ≠ lineBytes v ∨ v.getD 5 0 ≤ i.lines.length) := by decide +kernel
theorem wit_images_collected_and_written_8 :
  let sp : SPort := 0
  let vc : Fin 4 := 0
  let retx : Nat := 0
  let strm : Nat := 0
  let hdr : HdrEcc := .ok
  let i : Img := { ent := 0, tag := 0, ts := 0, bound := 0 }
  let dt : Fin 64 := 0x1E
  let ok : Bool := true
  let data : Bytes := List.replicate 64 1#8
  let s : State := ⟨[], { cfg := [⟨0x0402, [0, 0, 0, 0x1E, 32, 1, 1, 0, 0, 0, 0, 0, 0, 0, 0, 1, 1, 0, 0, 7, 0, 3, 1]⟩], sns := { ports := [(0, { si := true })], rings := [(0, { img := some i })] }, regs := regsOf [(0, spBlk 0, 0x21), (0, tsBlk + 0x10, 1)] }⟩
  let c := (s.chip.addReg 0 (spBlk sp + 0x30) (if s.chip.sport sp 5 1 = 0 then 0 else retx)).csiCount sp (hdr == .corrected) false
  let v := (c.stream strm).getD []
  s.chip.atWork ∧ s.chip.sinkOn sp = true ∧ c.sinkOn sp = true ∧ c.streamOf sp vc = some strm ∧ (c.ring strm).img = some i ∧ dt.val ≠ 0x12 ∧ dt.val = v.getD 3 0 ∧ hdr ≠ .bad ∧ ok = true ∧ data.length = lineBytes v ∧ i.lines.length < v.getD 5 0 := by decide +kernel
theorem wit_images_collected_and_written_9 :
  let sp : SPort := 0
  let vc : Fin 4 := 0
  let retx : Nat := 0
  let strm : Nat := 0
  let hdr : HdrEcc := .ok
  let i : Img := { ent := 0, tag := 0, ts := 0, bound := 0 }
  let dt : Fin 64 := 0x2B
  let s : State := ⟨[], { cfg := [⟨0x0402, [0, 0, 0, 0x1E, 32, 1, 1, 0, 0, 0, 0, 0, 0, 0, 0, 1, 1, 0, 0, 7, 0, 3, 1]⟩], sns := { ports := [(0, { si := true })], rings := [(0, { img := some i })] }, regs := regsOf [(0, spBlk 0, 0x21), (0, tsBlk + 0x10, 1)] }⟩
  let c := (s.chip.addReg 0 (spBlk sp + 0x30) (if s.chip.sport sp 5 1 = 0 then 0 else retx)).csiCount sp (hdr == .corrected) false
  let v := (c.stream strm).getD []
  s.chip.atWork ∧ s.chip.sinkOn sp = true ∧ c.sinkOn sp = true ∧ c.streamOf sp vc = some strm ∧ (c.ring strm).img = some i ∧ dt.val ≠ 0x12 ∧ dt.val ≠ v.getD 3 0 := by decide +kernel
theorem wit_images_collected_and_written_10 :
  let sp : SPort := 0
  let vc : Fin 4 := 0
  let retx : Nat := 0
  let strm : Nat := 0
  let hdr : HdrEcc := .ok
  let i : Img := { ent := 0, tag := 0, ts := 0, bound := 0 }
  let ok : Bool := false
  let s : State := ⟨[], { cfg := [⟨0x0402, [0, 0, 0, 0x1E, 32, 1, 1, 0, 0, 0, 0, 0, 0, 0, 0, 1, 1, 0, 0, 7, 0, 3, 1]⟩], sns := { ports := [(0, { si := true })], rings := [(0, { img := some i })] }, regs := regsOf [(0, spBlk 0, 0x21), (0, tsBlk + 0x10, 1)] }⟩
  let c := (s.chip.addReg 0 (spBlk sp + 0x30) (if s.chip.sport sp 5 1 = 0 then 0 else retx)).csiCount sp (hdr == .corrected) false
  s.chip.atWork ∧ s.chip.sinkOn sp = true ∧ c.sinkOn sp = true ∧ c.streamOf sp vc = some strm ∧ (c.ring strm).img = some i ∧ (hdr = .bad ∨ ok = false) := by decide +kernel
theorem wit_images_collected_and_written_11 :
  let sp : SPort := 0
  let vc : Fin 4 := 0
  let retx : Nat := 0
  let strm : Nat := 0
  let hdr : HdrEcc := .ok
  let i : Img := { ent := 0, tag := 0, ts := 0, bound := 0 }
  let ok : Bool := true
  let s : State := ⟨[], { cfg := [⟨0x0402, [0, 0, 0, 0x1E, 32, 1, 1, 0, 0, 0, 0, 0, 0, 0, 0, 1, 1, 0, 0, 7, 0, 3, 1]⟩], sns := { ports := [(0, { si := true })], rings := [(0, { img := some i })] }, regs := regsOf [(0, spBlk 0, 0x21), (0, tsBlk + 0x10, 1)] }⟩
  let c := (s.chip.addReg 0 (spBlk sp + 0x30) (if s.chip.sport sp 5 1 = 0 then 0 else retx)).csiCount sp (hdr == .corrected) false
  let v := (c.stream strm).getD []
  s.chip.atWork ∧ s.chip.sinkOn sp = true ∧ c.sinkOn sp = true ∧ c.streamOf sp vc = some strm ∧ (c.ring strm).img = some i ∧ hdr ≠ .bad ∧ ok = true ∧ i.lines = [] ∧ i.emb.length < v.getD 6 0 := by decide +kernel
theorem wit_images_collected_and_written_12 :
  let sp : SPort := 0
  let vc : Fin 4 := 0
  let retx : Nat := 0
  let strm : Nat := 0
  let hdr : HdrEcc := .ok
  let ok : Bool := true
  let i : Img := { ent := 0, tag := 0, ts := 0, bound := 0, lines := [List.replicate 64 1#8] }
  let s : State := ⟨[], { cfg := [⟨0x0402, [0, 0, 0, 0x1E, 32, 1, 1, 0, 0, 0, 0, 0, 0, 0, 0, 1, 1, 0, 0, 7, 0, 3, 1]⟩], sns := { ports := [(0, { si := true })], rings := [(0, { img := some i })] }, regs := regsOf [(0, spBlk 0, 0x21), (0, tsBlk + 0x10, 1)] }⟩
  let c := (s.chip.addReg 0 (spBlk sp + 0x30) (if s.chip.sport sp 5 1 = 0 then 0 else retx)).csiCount sp (hdr == .corrected) false
  let v := (c.stream strm).getD []
  s.chip.atWork ∧ s.chip.sinkOn sp = true ∧ c.sinkOn sp = true ∧ c.streamOf sp vc = some strm ∧ (c.ring strm).img = some i ∧ hdr ≠ .bad ∧ ok = true ∧ (i.lines ≠ [] ∨ v.getD 6 0 ≤ i.emb.length) := by decide +kernel
theorem wit_images_collected_and_written_13 :
  let sp : SPort := 0
  let vc : Fin 4 := 0
  let strm : Nat := 0
  let i : Img := { ent := 0, tag := 0, ts := 0, bound := 0, lines := [List.replicate 64 1#8], ended := true }
  let rest : List Img := []
  let g : RingCfg := ⟨7, 0, 3, 65536, 65536, 1, 0, 0, 3, [4096]⟩
  let s : State := ⟨[], { cfg := [⟨0x0402, [0, 0, 0, 0x1E, 32, 1, 1, 0, 0, 0, 0, 0, 0, 0, 0, 1, 1, 0, 0, 7, 0, 3, 1]⟩], sns := { ports := [(0, { si := true })], rings := [(0, { out := [i] })] }, regs := regsOf [(0, spBlk 0, 0x21), (0, tsBlk + 0x10, 1)] }⟩
  let c := s.chip
  s.chip.atWork ∧ c.streamOf sp vc = some strm ∧ c.ringCfg strm = some g ∧ (c.ring strm).out = i :: rest ∧ i.written = false := by decide +kernel
theorem wit_images_collected_and_written_14 :
  let sp : SPort := 0
  let vc : Fin 4 := 0
  let strm : Nat := 0
  let g : RingCfg := ⟨7, 0, 3, 65536, 65536, 1, 0, 0, 3, [4096]⟩
  let i : Img := { ent := 0, tag := 0, ts := 0, bound := 0, lines := [List.replicate 64 1#8] }
  let s : State := ⟨[], { cfg := [⟨0x0402, [0, 0, 0, 0x1E, 32, 1, 1, 0, 0, 0, 0, 0, 0, 0, 0, 1, 1, 0, 0, 7, 0, 3, 1]⟩], sns := { ports := [(0, { si := true })], rings := [(0, { img := some i })] }, regs := regsOf [(0, spBlk 0, 0x21), (0, tsBlk + 0x10, 1)] }⟩
  let c := s.chip
  s.chip.atWork ∧ c.streamOf sp vc = some strm ∧ c.ringCfg strm = some g ∧ (c.ring strm).out = [] ∧ (c.ring strm).img = some i ∧ i.emb.drop i.tookEmb ++ i.lines.drop i.took ≠ [] := by decide +kernel
theorem wit_images_collected_and_written_15 :
  let sp : SPort := 0
  let vc : Fin 4 := 0
  let strm : Nat := 0
  let g : RingCfg := ⟨7, 0, 3, 65536, 65536, 1, 0, 0, 3, [4096]⟩
  let i : Img := { ent := 0, tag := 0, ts := 0, bound := 0, written := true }
  let rest : List Img := []
  let s : State := ⟨[], { cfg := [⟨0x0402, [0, 0, 0, 0x1E, 32, 1, 1, 0, 0, 0, 0, 0, 0, 0, 0, 1, 1, 0, 0, 7, 0, 3, 1]⟩], sns := { ports := [(0, { si := true })], rings := [(0, { out := [i] })] }, regs := regsOf [(0, spBlk 0, 0x21), (0, tsBlk + 0x10, 1)] }⟩
  let c := s.chip
  s.chip.atWork ∧ c.streamOf sp vc = some strm ∧ c.ringCfg strm = some g ∧ (c.ring strm).out = i :: rest ∧ i.written = true := by decide +kernel
theorem wit_sensor_ports_send_on_time_0 :
  let pt : SiPort := 0
  let s : State := ⟨[], { sns := { ports := [(0, { siDue := true })] } }⟩
  s.chip.atWork ∧ (s.chip.sp pt).siDue = true := by decide +kernel
theorem wit_sensor_ports_send_on_time_1 :
  let sp : SPort := 0
  let off : Nat := 1000
  let strm : Nat := 0
  let g : RingCfg := ⟨7, 0, 3, 65536, 65536, 1, 0, 0, 3, [4096]⟩
  let s : State := ⟨[], { cfg := [⟨0x0402, [0, 0, 0, 0x1E, 32, 1, 1, 0, 0, 0, 0, 0, 0, 0, 0, 1, 1, 0, 1000, 7, 0, 3, 1]⟩], regs := regsOf [(0, spBlk 0, 0x21), (0, tsBlk + 0x10, 1)] }⟩
  let at_ := fun (start : Nat) => start + off * 1000 - 1280 - (s.chip.sp sp).delay / 65536 - s.chip.sport sp 11 0
  let now := at_ s.chip.turnStart
  s.chip.atWork ∧ strm ∈ s.chip.streamsOf sp ∧ s.chip.ringCfg strm = some g ∧ ((s.chip.stream strm).getD []).getD 18 0 = off ∧ s.chip.running = true ∧ bits (s.chip.reg 0 (spBlk sp)) 1 0 = 1 ∧ bit (s.chip.reg 0 (spBlk sp)) 10 = false ∧ g.sync s.chip.turn = true ∧ (s.chip.sp sp).sync < now := by decide +kernel
theorem wit_sensor_ports_send_on_time_2 :
  let sp : SPort := 0
  let strm : Nat := 0
  let g : RingCfg := ⟨7, 0, 3, 65536, 65536, 1, 0, 0, 3, [4096]⟩
  let off : Nat := 0
  let s : State := ⟨[], { cfg := [⟨0x0402, [0, 0, 0, 0x1E, 32, 1, 1, 0, 0, 0, 0, 0, 0, 0, 0, 1, 1, 0, 0, 7, 0, 3, 1]⟩], regs := regsOf [(0, spBlk 0, 0x21), (0, tsBlk + 0x10, 1)] }⟩
  let at_ := fun (start : Nat) => start + off * 1000 - 1280 - (s.chip.sp sp).delay / 65536 - s.chip.sport sp 11 0
  let now := at_ s.chip.turnStart
  let next := at_ s.chip.turnEnd
  s.chip.atWork ∧ strm ∈ s.chip.streamsOf sp ∧ s.chip.ringCfg strm = some g ∧ ((s.chip.stream strm).getD []).getD 18 0 = off ∧ s.chip.running = true ∧ bits (s.chip.reg 0 (spBlk sp)) 1 0 = 1 ∧ bit (s.chip.reg 0 (spBlk sp)) 10 = false ∧ g.sync (s.chip.turn + 1) = true ∧ now ≤ (s.chip.sp sp).sync ∧ (s.chip.sp sp).sync < next ∧ next < s.chip.turnEnd := by decide +kernel
theorem wit_sensor_ports_send_on_time_3 :
  let sp : SPort := 0
  let t : InTile := tileOne 0 0
  let more : List InTile := []
  let r : Run := { desc := cmdOf 9 1 [(95, 80, 2)], ix := 0, task := 0, ins := [t] }
  let s : State := ⟨[], { fab := fabOf [(stKey 40 0, r)], sns := { ports := [(0, {  })] } }⟩
  s.chip.atWork ∧ s.chip.soRun sp = some r ∧ r.ins = t :: more ∧ r.pos = 0 ∧ (s.chip.sp sp).so = none := by decide +kernel
theorem wit_sensor_ports_send_on_time_4 :
  let sp : SPort := 0
  let t : InTile := tileOne 0 0
  let x : SoFrame := { started := true }
  let r : Run := { desc := cmdOf 9 1 [(95, 80, 2)], ix := 0, task := 0, ins := [t], pos := 1 }
  let s : State := ⟨[], { fab := fabOf [(stKey 40 0, r)], sns := { ports := [(0, { so := some x })] } }⟩
  s.chip.atWork ∧ s.chip.soRun sp = some r ∧ r.pos ≠ 0 ∧ r.nextIn = some t ∧ (s.chip.sp sp).so = some x := by decide +kernel
theorem wit_sensor_ports_send_on_time_5 :
  let sp : SPort := 0
  let x : SoFrame := { started := true }
  let s : State := ⟨[], { sns := { ports := [(0, { so := some x })] } }⟩
  s.chip.atWork ∧ s.chip.soRun sp = none ∧ (s.chip.sp sp).so = some x := by decide +kernel
theorem wit_sensor_port_faults_handled_0 :
  let sp : SPort := 0
  let s : State := ⟨[], { regs := regsOf [(0, spBlk 0, 0x20)], sns := { ports := [(0, {  })] }, cfg := [⟨0x0401, []⟩] }⟩
  let b := spBlk sp
  let x := s.chip.reg 0 b
  s.chip.isLive ∧ bit x 5 = true := by decide +kernel
theorem wit_sensor_port_faults_handled_1 :
  let sp : SPort := 0
  let ma : BitVec 16 := 5
  let s : State := ⟨[], { regs := regsOf [(0, spBlk 0, 0x40)], sns := { ports := [(0, {  })] }, cfg := [⟨0x0401, []⟩] }⟩
  let b := spBlk sp
  let x := s.chip.reg 0 b
  let m := min 1023 ma.toNat
  s.chip.isLive ∧ bit x 6 = true ∧ m ≤ s.chip.sport sp 17 1023 ∧ m ≠ 1023 := by decide +kernel
theorem wit_sensor_port_faults_handled_2 :
  let sp : SPort := 0
  let ma : BitVec 16 := 200
  let s : State := ⟨[], { regs := regsOf [(0, spBlk 0, 0x40)], sns := { ports := [(0, { high := 1 })] }, cfg := [⟨0x0401, [0, 0, 0, 0, 0, 0, 0, 0, 0, 0, 0, 0, 0, 0, 0, 0, 0, 100]⟩] }⟩
  let b := spBlk sp
  let x := s.chip.reg 0 b
  let m := min 1023 ma.toNat
  s.chip.isLive ∧ bit x 6 = true ∧ (s.chip.sport sp 17 1023 < m ∨ m = 1023) ∧ (s.chip.sp sp).high < 2 := by decide +kernel
theorem wit_sensor_port_faults_handled_3 :
  let sp : SPort := 0
  let ma : BitVec 16 := 200
  let s : State := ⟨[], { regs := regsOf [(0, spBlk 0, 0x40)], sns := { ports := [(0, { high := 2 })] }, cfg := [⟨0x0401, [0, 0, 0, 0, 0, 0, 0, 0, 0, 0, 0, 0, 0, 0, 0, 0, 0, 100]⟩] }⟩
  let b := spBlk sp
  let x := s.chip.reg 0 b
  let m := min 1023 ma.toNat
  s.chip.isLive ∧ bit x 6 = true ∧ (s.chip.sport sp 17 1023 < m ∨ m = 1023) ∧ 2 ≤ (s.chip.sp sp).high := by decide +kernel
theorem wit_sensor_port_faults_handled_4 :
  let sp : SPort := 0
  let s : State := ⟨[], { regs := regsOf [(0, spBlk 0, 0x0)], sns := { ports := [(0, { offNs := 5 })] }, cfg := [⟨0x0401, [0, 0, 0, 0, 0, 0, 0, 0, 0, 0, 0, 0, 0, 0, 1]⟩] }⟩
  let b := spBlk sp
  let x := s.chip.reg 0 b
  s.chip.isLive ∧ bit x 6 = false ∧ bit x 7 = false ∧ s.chip.sport sp 14 0 ≠ 0 ∧ (s.chip.sp sp).offNs ≠ 0 := by decide +kernel
theorem wit_sensor_port_faults_handled_5 :
  let sp : SPort := 0
  let s : State := ⟨[], { regs := regsOf [(0, spBlk 0, 0x1)], sns := { ports := [(0, {  })] }, cfg := [⟨0x0401, []⟩] }⟩
  let b := spBlk sp
  let x := s.chip.reg 0 b
  s.chip.isLive ∧ bits x 1 0 ≠ 0 := by decide +kernel
theorem wit_ethernet_frames_delivered_0 :
  let n : EPort := 0
  let f : EthFrame := ⟨udpFrame, false, true, 0⟩
  let s : State := ⟨[], { regs := regsOf [(0, epBlk 0, 8)], cfg := [⟨0x0501, [0, 4]⟩], net := { ports := [(0, {  })] } }⟩
  s.chip.hears n ∧ s.chip.role n ≠ 0 ∧ s.chip.linkUp n = true ∧ f.fcsOk = false := by decide +kernel
theorem wit_ethernet_frames_delivered_1 :
  let n : EPort := 0
  let f : EthFrame := ⟨List.replicate 9217 0#8, true, true, 0⟩
  let s : State := ⟨[], { regs := regsOf [(0, epBlk 0, 8)], cfg := [⟨0x0501, [0, 4]⟩], net := { ports := [(0, {  })] } }⟩
  let p := etherParse f.bytes
  let badTag := ∃ v, p.1 = some v ∧ v ≠ s.chip.eport n 5 0
  s.chip.hears n ∧ s.chip.role n ≠ 0 ∧ s.chip.linkUp n = true ∧ f.fcsOk = true ∧ (maxFrame n < f.bytes.length + 4 ∨ badTag) := by exact ⟨by decide +kernel, by decide +kernel, by decide +kernel, by decide +kernel, (by exact Or.inl (by simp only [List.length_replicate]; decide +kernel))⟩
theorem wit_ethernet_frames_delivered_2 :
  let n : EPort := 0
  let f : EthFrame := ⟨udpFrame, true, true, 0⟩
  let s : State := ⟨[], { regs := regsOf [(0, epBlk 0, 8)], cfg := [⟨0x0501, [0, 4, 0, 0, 0, 0, 0, 0, 1]⟩], net := { ports := [(0, { rxPn := 100 })] } }⟩
  let p := etherParse f.bytes
  let badTag := ∃ v, p.1 = some v ∧ v ≠ s.chip.eport n 5 0
  s.chip.hears n ∧ s.chip.role n ≠ 0 ∧ s.chip.linkUp n = true ∧ f.fcsOk = true ∧ f.bytes.length + 4 ≤ maxFrame n ∧ ¬badTag ∧ s.chip.eport n 8 0 = 1 ∧ p.2.1 ≠ 0x888E ∧ p.2.1 ≠ 0x88F7 ∧ bit (s.chip.reg 0 (epBlk n)) 7 = false := by exact ⟨by decide +kernel, by decide +kernel, by decide +kernel, by decide +kernel, by decide +kernel, (by rintro ⟨v, hv, -⟩; cases hv), by decide +kernel, by decide +kernel, by decide +kernel, by decide +kernel⟩
theorem wit_ethernet_frames_delivered_3 :
  let n : EPort := 0
  let f : EthFrame := ⟨udpFrame, true, true, 0⟩
  let s : State := ⟨[], { regs := regsOf [(0, epBlk 0, 0x88)], cfg := [⟨0x0501, [0, 4, 0, 0, 0, 0, 0, 0, 1]⟩], net := { ports := [(0, { rxPn := 100 })] } }⟩
  let p := etherParse f.bytes
  let badTag := ∃ v, p.1 = some v ∧ v ≠ s.chip.eport n 5 0
  s.chip.hears n ∧ s.chip.role n ≠ 0 ∧ s.chip.linkUp n = true ∧ f.fcsOk = true ∧ f.bytes.length + 4 ≤ maxFrame n ∧ ¬badTag ∧ s.chip.eport n 8 0 = 1 ∧ p.2.1 ≠ 0x888E ∧ p.2.1 ≠ 0x88F7 ∧ bit (s.chip.reg 0 (epBlk n)) 7 = true ∧ (f.macsecOk = false ∨ f.pn + s.chip.eport n 11 0 < (s.chip.ep n).rxPn) := by exact ⟨by decide +kernel, by decide +kernel, by decide +kernel, by decide +kernel, by decide +kernel, (by rintro ⟨v, hv, -⟩; cases hv), by decide +kernel, by decide +kernel, by decide +kernel, by decide +kernel, by decide +kernel⟩
theorem wit_ethernet_frames_delivered_4 :
  let n : EPort := 0
  let f : EthFrame := ⟨udpFrame, true, true, 0⟩
  let u : Udp := ⟨0, 0, 0, 0, [], true⟩
  let s : State := ⟨[], { regs := regsOf [(0, epBlk 0, 8)], cfg := [⟨0x0501, [0, 4]⟩], net := { ports := [(0, {  })] } }⟩
  let p := etherParse f.bytes
  let c := if s.chip.eport n 8 0 = 1 then s.chip.modEp n (fun x => { x with rxPn := max x.rxPn (f.pn + 1) }) else s.chip
  s.chip.hears n ∧ s.chip.role n ≠ 0 ∧ s.chip.linkUp n = true ∧ f.fcsOk = true ∧ f.bytes.length + 4 ≤ maxFrame n ∧ (∀ v, p.1 = some v → v = s.chip.eport n 5 0) ∧ (s.chip.eport n 8 0 = 1 → bit (s.chip.reg 0 (epBlk n)) 7 = true ∧ f.macsecOk = true ∧ (s.chip.ep n).rxPn ≤ f.pn + s.chip.eport n 11 0) ∧ p.2.1 = 0x0800 ∧ ipParse p.2.2 = some u ∧ c.roleTakes n u = true ∧ u.sumOk = true ∧ c.role n ≠ 3 := by exact ⟨by decide +kernel, by decide +kernel, by decide +kernel, by decide +kernel, by decide +kernel, (by intro v hv; cases hv), by decide +kernel, by decide +kernel, by decide +kernel, by decide +kernel, by decide +kernel, by decide +kernel⟩
theorem wit_ethernet_frames_delivered_5 :
  let n : EPort := 0
  let f : EthFrame := ⟨udpFrame, true, true, 0⟩
  let u : Udp := ⟨0, 0, 0, 0, [], true⟩
  let l : Nat := 0
  let s : State := ⟨[], { regs := regsOf [(0, epBlk 0, 8)], cfg := [⟨0x0501, [0, 3]⟩, ⟨0x0502, [0, 0, 0, 0]⟩], net := { ports := [(0, {  })] } }⟩
  let p := etherParse f.bytes
  let c := if s.chip.eport n 8 0 = 1 then s.chip.modEp n (fun x => { x with rxPn := max x.rxPn (f.pn + 1) }) else s.chip
  s.chip.hears n ∧ s.chip.role n ≠ 0 ∧ s.chip.linkUp n = true ∧ f.fcsOk = true ∧ f.bytes.length + 4 ≤ maxFrame n ∧ (∀ v, p.1 = some v → v = s.chip.eport n 5 0) ∧ (s.chip.eport n 8 0 = 1 → bit (s.chip.reg 0 (epBlk n)) 7 = true ∧ f.macsecOk = true ∧ (s.chip.ep n).rxPn ≤ f.pn + s.chip.eport n 11 0) ∧ p.2.1 = 0x0800 ∧ ipParse p.2.2 = some u ∧ c.roleTakes n u = true ∧ u.sumOk = true ∧ c.role n = 3 ∧ c.lidarOf n u = some l := by exact ⟨by decide +kernel, by decide +kernel, by decide +kernel, by decide +kernel, by decide +kernel, (by intro v hv; cases hv), by decide +kernel, by decide +kernel, by decide +kernel, by decide +kernel, by decide +kernel, by decide +kernel, by decide +kernel⟩
theorem wit_ethernet_frames_delivered_6 :
  let l : Lidar := 0
  let i : Img := { ent := 0, tag := 0, ts := 0, bound := 0 }
  let v : List Nat := [0, 0, 0, 0]
  let g : RingCfg := ⟨0, 0, 3, 0, 65536, 1, 0, 0, 3, [64]⟩
  let s : State := ⟨[], { cfg := [⟨0x0502, [0, 0, 0, 0]⟩], sns := { rings := [(48, { img := some i })] } }⟩
  let strm : Nat := 48 + l
  s.chip.atWork ∧ (s.chip.ring strm).img = some i ∧ s.chip.ringCfg strm = some g ∧ s.chip.lidar l = some v := by decide +kernel
theorem wit_ethernet_sends_and_follows_link_0 :
  let n : EPort := 0
  let f : Frame := { body := [], len := 64 }
  let rest : List Frame := []
  let s : State := ⟨[], { regs := regsOf [(0, epBlk 0, 8)], cfg := [⟨0x0501, [0, 1]⟩], net := { ports := [(0, { tq0 := [f] })] } }⟩
  let c := s.chip
  let x := c.ep n
  s.chip.hears n ∧ s.chip.linkUp n = true ∧ x.wire = none ∧ x.tq1 = [] ∧ c.maySend n f = true ∧ x.tq0 = f :: rest := by decide +kernel
theorem wit_ethernet_sends_and_follows_link_1 :
  let n : EPort := 0
  let f : Frame := { body := [], len := 64 }
  let rest : List Frame := []
  let s : State := ⟨[], { regs := regsOf [(0, epBlk 0, 8)], cfg := [⟨0x0501, [0, 1]⟩], net := { ports := [(0, { tq2 := [f] })] } }⟩
  let c := s.chip
  let x := c.ep n
  s.chip.hears n ∧ s.chip.linkUp n = true ∧ x.wire = none ∧ x.tq1 = [] ∧ c.maySend n f = true ∧ x.tq0 = [] ∧ x.tq2 = f :: rest := by decide +kernel
theorem wit_ethernet_sends_and_follows_link_2 :
  let n : EPort := 0
  let f : Frame := { body := [], len := 64 }
  let rest : List Frame := []
  let s : State := ⟨[], { regs := regsOf [(0, epBlk 0, 8)], cfg := [⟨0x0501, [0, 1]⟩], net := { ports := [(0, { tq3 := [f] })] } }⟩
  let c := s.chip
  let x := c.ep n
  s.chip.hears n ∧ s.chip.linkUp n = true ∧ x.wire = none ∧ x.tq1 = [] ∧ c.maySend n f = true ∧ x.tq0 = [] ∧ x.tq2 = [] ∧ x.tq3 = f :: rest := by decide +kernel
theorem wit_ethernet_sends_and_follows_link_3 :
  let n : EPort := 0
  let rest : List Frame := []
  let f : Frame := { body := [], len := 64, due := 1000000 }
  let s : State := ⟨[], { regs := regsOf [(0, epBlk 0, 8)], cfg := [⟨0x0501, [0, 1]⟩], net := { ports := [(0, { tq1 := [f] })] } }⟩
  let c := s.chip
  let x := c.ep n
  let c1 := c.advanceTo (f.due - c.txCorr n)
  s.chip.hears n ∧ s.chip.linkUp n = true ∧ x.wire = none ∧ x.tq1 = f :: rest ∧ c.maySend n f = true ∧ c1.ep n = x := by decide +kernel
theorem wit_ethernet_sends_and_follows_link_3_late :
  let n : EPort := 0
  let rest : List Frame := []
  let f : Frame := { body := [], len := 64, due := 100 }
  let s : State := ⟨[], { regs := regsOf [(0, epBlk 0, 8)], cfg := [⟨0x0501, [0, 1, 0, 0, 0, 0, 0, 0, 0, 0, 0, 0, 0, 0, 0, 0, 0, 0, 0, 100]⟩], net := { ports := [(0, { tq1 := [f] })] }, tb := { tick := 1000, t0 := 4000 <<< 32, k0 := 1000 } }⟩
  let c := s.chip
  let x := c.ep n
  let c1 := c.advanceTo (f.due - c.txCorr n)
  s.chip.hears n ∧ s.chip.linkUp n = true ∧ x.wire = none ∧ x.tq1 = f :: rest ∧ c.maySend n f = true ∧ c1.ep n = x := by decide +kernel
theorem wit_ethernet_sends_and_follows_link_3_past :
  let n : EPort := 0
  let rest : List Frame := []
  let f : Frame := { body := [], len := 64, due := 100 }
  let s : State := ⟨[], { regs := regsOf [(0, epBlk 0, 8)], cfg := [⟨0x0501, [0, 1]⟩], net := { ports := [(0, { tq1 := [f] })] }, tb := { tick := 1000, t0 := 4000 <<< 32, k0 := 1000 } }⟩
  let c := s.chip
  let x := c.ep n
  let c1 := c.advanceTo (f.due - c.txCorr n)
  s.chip.hears n ∧ s.chip.linkUp n = true ∧ x.wire = none ∧ x.tq1 = f :: rest ∧ c.maySend n f = true ∧ c1.ep n = x := by decide +kernel
theorem wit_ethernet_sends_and_follows_link_4 :
  let n : EPort := 0
  let s : State := ⟨[], { regs := regsOf [(0, epBlk 0, 8)], cfg := [⟨0x0501, [0, 0, 0, 0, 0, 0, 0, 0, 1, 1]⟩], net := { ports := [(0, { pn := 0xC0000000 })] } }⟩
  let c := s.chip
  s.chip.hears n ∧ c.eport n 8 0 = 1 ∧ (if c.eport n 9 1 < 2 then 0xC0000000 else 2 ^ 62) ≤ (c.ep n).pn := by decide +kernel
theorem wit_ethernet_sends_and_follows_link_5 :
  let n : EPort := 0
  let s : State := ⟨[], { regs := regsOf [(0, epBlk 0, 8)], cfg := [⟨0x0501, [0, 1]⟩], net := { ports := [(0, {  })] } }⟩
  let c := s.chip
  s.chip.hears n ∧ c.role n ≠ 0 ∧ n.val < 8 := by decide +kernel
theorem wit_ethernet_sends_and_follows_link_5_run :
  let n : EPort := 0
  let s : State := ⟨[], { regs := regsOf [(0, epBlk 0, 8)], cfg := [⟨0x0501, [0, 1]⟩], net := { ports := [(0, { sqiRun := 49 })] } }⟩
  let c := s.chip
  s.chip.hears n ∧ c.role n ≠ 0 ∧ n.val < 8 := by decide +kernel
theorem wit_ethernet_sends_and_follows_link_6 :
  let n : EPort := 0
  let s : State := ⟨[], { regs := regsOf [(0, epBlk 0, 8)], cfg := [⟨0x0501, [0, 1]⟩], net := { ports := [(0, { sqiRun := 49 })] } }⟩
  let c := s.chip
  s.chip.hears n ∧ c.linkUp n = true := by decide +kernel
theorem wit_ethernet_sends_and_follows_link_7 :
  let n : EPort := 0
  let s : State := ⟨[], { regs := regsOf [(0, epBlk 0, 8)], cfg := [⟨0x0501, [0, 1]⟩], net := { ports := [(0, { sqiRun := 49 })] } }⟩
  let c := s.chip
  s.chip.hears n ∧ c.role n ≠ 0 ∧ bit (c.reg 0 (epBlk n)) 8 = false := by decide +kernel
theorem wit_boundary_begins_next_turn_0 :
  let s : State := ⟨[], { regs := regsOf [(0, tsBlk + 0x10, 1)] }⟩
  s.chip.locked = false ∧ s.chip.turnState = 1 ∧ s.chip.fld 0 (obsBlk + 0x1C) 1 0 ≠ 1 := by decide +kernel
theorem wit_boundary_begins_next_turn_1 :
  let s : State := ⟨[], { flt := { armed := true } }⟩
  s.chip.locked = false ∧ s.chip.turnState = 0 ∧ s.chip.flt.armed = true := by decide +kernel
theorem wit_boundary_begins_next_turn_2 :
  let s : State := ⟨[], { regs := regsOf [(0, tsBlk + 0x10, 2)] }⟩
  s.chip.locked = false ∧ s.chip.turnState = 2 := by decide +kernel
theorem wit_rotation_moves_one_core_0 :
  let d : Nat := 7
  let l : Nat := 0
  let c : Chip := { regs := regsOf [(7, tsBlk + 0xC, 8), (7, tsBlk + 0x5C, 0x76543210)] }
  let old := c.fld d (tsBlk + 0xC) 3 0
  let new := (old + 1) % 9
  1 ≤ d ∧ d < 8 ∧ l < 8 ∧ old < 9 ∧ c.logOf d new = some l := by decide +kernel
theorem wit_rotation_moves_one_core_1 :
  let d : Nat := 7
  let l : Nat := 0
  let m : Nat := 1
  let c : Chip := { regs := regsOf [(7, tsBlk + 0xC, 8), (7, tsBlk + 0x5C, 0x76543210)] }
  let old := c.fld d (tsBlk + 0xC) 3 0
  let new := (old + 1) % 9
  1 ≤ d ∧ d < 8 ∧ l < 8 ∧ old < 9 ∧ c.logOf d new = some l ∧ m < 8 ∧ m ≠ l := by decide +kernel
theorem wit_tasks_released_and_supervised_0 :
  let j : JobIx := 63
  let s : State := ⟨[], { regs := regsOf [(0, tsBlk + 0x10, 1), (7, taskBlk 0 + 0x30, 1 + 63 <<< 1 + 1 <<< 12 + 67 <<< 13)], wrk := { jobs := [(63, { launched := true })] } }⟩
  let ts := s.chip.jobTasks j
  s.chip.atWork ∧ s.chip.running = true ∧ s.chip.launched j = true ∧ s.chip.jobDead j = false ∧ (∀ t ∈ ts, (s.chip.task t.1 t.2).released = false) := by decide +kernel
theorem wit_tasks_released_and_supervised_1 :
  let d : Die := 7
  let k : TaskIx := 0
  let s : State := ⟨[], { regs := regsOf [(0, tsBlk + 0x10, 1), (7, taskBlk 0 + 0x30, 1 + 63 <<< 1 + 1 <<< 12 + 67 <<< 13)], wrk := { tasks := [(7 * 256, { released := true })] } }⟩
  let j := bits (s.chip.owner d k) 6 1
  s.chip.atWork ∧ s.chip.running = true ∧ bit (s.chip.owner d k) 0 = true ∧ (s.chip.task d k).released = true ∧ (s.chip.task d k).ended = false ∧ s.chip.jobDead j = false := by decide +kernel
theorem wit_tasks_released_and_supervised_2 :
  let j : JobIx := 63
  let t : Nat × Nat := (7, 0)
  let ts : List (Nat × Nat) := []
  let s : State := ⟨[], { regs := regsOf [(0, tsBlk + 0x10, 1), (7, taskBlk 0 + 0x30, 1 + 63 <<< 1 + 1 <<< 12 + 67 <<< 13)], wrk := { jobs := [(63, { launched := true })] } }⟩
  let c1 := s.chip.advanceTo (s.chip.turnStart + s.chip.cfgBy 0x0702 j 6 0 * 1000)
  s.chip.atWork ∧ s.chip.running = true ∧ s.chip.launched j = true ∧ s.chip.jobDead j = false ∧ (c1.jobTasks j).filter (fun t => !(c1.task t.1 t.2).ended) = t :: ts := by decide +kernel
theorem wit_tasks_released_and_supervised_3 :
  let st : Stn := 963
  let s : State := ⟨[], { wrk := { jobs := [(63, { code := 4 })] }, fab := fabOf [(stKey 963 0, { desc := cmdOf 4 1 [(63, 56, 63)], ix := 0, task := 0 })] }⟩
  s.chip.isLive ∧ (∃ i : Part, ∃ r ∈ (s.chip.realStation (stKey st i)).runs, s.chip.jobDead (dJob r.desc) = true) := by decide +kernel
theorem wit_tasks_released_and_supervised_4 :
  let j : Nat := 63
  let code : Nat := 4
  let c : Chip := {}
  j < 64 ∧ code ≠ 0 ∧ (c.job j).code = 0 := by decide +kernel
theorem wit_tasks_released_and_supervised_5 :
  let j : Nat := 63
  let code : Nat := 4
  let c : Chip := { wrk := { jobs := [(63, { code := 8 })] } }
  j < 64 ∧ code ≠ 0 ∧ (c.job j).code ≠ 0 := by decide +kernel
theorem wit_tasks_released_and_supervised_6 :
  let j : Nat := 63
  let code : Nat := 4
  let i : Nat := 62
  j < 64 ∧ code ≠ 0 ∧ i ≠ j := by decide +kernel
theorem wit_station_reset_clears_station_0 :
  let st : Stn := 963
  let who : Src := .mgmt 0
  let s : State := ⟨[], { ses := { tab := [(4, { isOpen := true })] }, fab := fabOf [(stKey 963 0, { desc := cmdOf 4 1 [(63, 56, 63)], ix := 0, task := 0 })] }⟩
  s.chip.locked = false ∧ s.chip.openMgmt who = true ∧ stType st ≠ 0 := by decide +kernel
theorem wit_station_reset_clears_station_1 :
  let st : Stn := 963
  let who : Src := .mgmt 0
  let s : State := ⟨[], { ses := { tab := [(4, { isOpen := true })] }, fab := fabOf [(stKey 963 0, { desc := cmdOf 4 1 [(63, 56, 63)], ix := 0, task := 0 })] }⟩
  s.chip.locked = false ∧ s.chip.openMgmt who = true ∧ stType st ≠ 0 := by decide +kernel
theorem wit_station_reset_clears_station_2 :
  let st : Stn := 963
  let who : Src := .mgmt 0
  let s : State := ⟨[], { ses := { tab := [(4, { isOpen := true })] }, fab := fabOf [(stKey 963 0, { desc := cmdOf 4 1 [(63, 56, 63)], ix := 0, task := 0 })] }⟩
  s.chip.locked = false ∧ s.chip.openMgmt who = true ∧ stType st ≠ 0 := by decide +kernel
theorem wit_blank_slot_runs_and_judges_0 :
  let s : State := ⟨[], { regs := regsOf [(0, tsBlk + 0x10, 1)] }⟩
  s.chip.atWork ∧ s.chip.running = true ∧ s.chip.wrk.slotNs = 0 := by decide +kernel
theorem wit_blank_slot_runs_and_judges_1 :
  let s : State := ⟨[], { regs := regsOf [(0, tsBlk + 0x10, 9)], wrk := { slotNs := 5 } }⟩
  s.chip.atWork ∧ bit (s.chip.reg 0 (tsBlk + 0x10)) 3 = true := by decide +kernel
theorem wit_blank_slot_runs_and_judges_2 :
  let d : CDie := 6
  let s : State := ⟨[], { regs := regsOf [(0, tsBlk + 0x10, 1)], wrk := { slotNs := 5 } }⟩
  s.chip.atWork ∧ s.chip.wrk.slotNs ≠ 0 ∧ bit (s.chip.reg 0 (tsBlk + 0x10)) 3 = false ∧ s.chip.fenced (d + 1) = false ∧ s.chip.running = true ∧ tabGet 0 s.chip.wrk.verdicts (d + 1) = 0 ∧ s.chip.lateBlank (d + 1) = none ∧ tabGet false s.chip.wrk.blankBad (d + 1) = false := by decide +kernel
theorem wit_blank_slot_runs_and_judges_3 :
  let d : CDie := 6
  let s : State := ⟨[], { regs := regsOf [(0, tsBlk + 0x10, 1)], wrk := { slotNs := 5, blankBad := [(7, true)] } }⟩
  s.chip.atWork ∧ s.chip.wrk.slotNs ≠ 0 ∧ bit (s.chip.reg 0 (tsBlk + 0x10)) 3 = false ∧ s.chip.fenced (d + 1) = false ∧ s.chip.running = true ∧ tabGet 0 s.chip.wrk.verdicts (d + 1) = 0 ∧ s.chip.lateBlank (d + 1) = none ∧ tabGet false s.chip.wrk.blankBad (d + 1) = true := by decide +kernel
theorem wit_cores_and_clocks_tested_0 :
  let d : CDie := 6
  let c : CoreIx := 8
  let s : State := ⟨[], { regs := regsOf [(0, tsBlk + 0x10, 1), (7, tsBlk + 0xC, 8)] }⟩
  s.chip.isLive ∧ s.chip.fenced (d + 1) = false ∧ s.chip.running = true ∧ s.chip.testCore (d + 1) s.chip.turn = some c ∧ bit (s.chip.reg (d + 1) (tsBlk + 0xC)) 13 = false := by decide +kernel
theorem wit_cores_and_clocks_tested_1 :
  let d : CDie := 6
  let c : CoreIx := 8
  let s : State := ⟨[], { regs := regsOf [(0, tsBlk + 0x10, 1), (7, tsBlk + 0xC, 8)] }⟩
  s.chip.isLive ∧ s.chip.fenced (d + 1) = false ∧ s.chip.running = true ∧ s.chip.testCore (d + 1) s.chip.turn = some c ∧ bit (s.chip.reg (d + 1) (tsBlk + 0xC)) 13 = false ∧ s.chip.fld (d + 1) (tsBlk + 0x10 + 4 * c) 5 0 < 47 := by decide +kernel
theorem wit_cores_and_clocks_tested_2 :
  let d : CDie := 6
  let s : State := ⟨[], { regs := regsOf [(0, tsBlk + 0x10, 1), (7, tsBlk + 0xC, 8)] }⟩
  s.chip.isLive ∧ s.chip.fenced (d + 1) = false := by decide +kernel
theorem wit_cores_and_clocks_tested_3 :
  let s : State := ⟨[], { regs := regsOf [(0, tsBlk + 0x10, 1), (7, tsBlk + 0xC, 8)] }⟩
  s.chip.locked = false := by decide +kernel
theorem wit_egress_and_gate_decide_0 :
  let p : Part := 0
  let t : InTile := { tileOne 0 0 with prov := true }
  let r : Run := { desc := cmdOf 8 1 [(95, 80, 1)], ix := 0, task := 0, ins := [t] }
  let s : State := ⟨[], { fab := fabOf [(egKey 0, r)] }⟩
  s.chip.atWork ∧ s.chip.curRun (egKey p) = some r ∧ dType r.desc = 8 ∧ dOp r.desc = 1 ∧ r.inDone = false ∧ r.status = 0 ∧ r.nextIn = some t ∧ t.prov = true ∧ (s.chip.contrib (hdrContrib t.hdr)).st = .pending := by decide +kernel
theorem wit_egress_and_gate_decide_1 :
  let p : Part := 0
  let t : InTile := tileOne 0 0
  let r : Run := { desc := cmdOf 8 1 [(95, 80, 1)], ix := 0, task := 0, ins := [t] }
  let s : State := ⟨[], { fab := fabOf [(egKey 0, r)] }⟩
  s.chip.atWork ∧ s.chip.curRun (egKey p) = some r ∧ dType r.desc = 8 ∧ dOp r.desc = 1 ∧ r.inDone = false ∧ r.status = 0 ∧ r.nextIn = some t ∧ t.prov = false := by decide +kernel
theorem wit_egress_and_gate_decide_2 :
  let p : Part := 0
  let t : InTile := { tileOne 0 0 with pois := true }
  let r : Run := { desc := cmdOf 8 1 [(95, 80, 1)], ix := 0, task := 0, ins := [t] }
  let s : State := ⟨[], { fab := fabOf [(egKey 0, r)] }⟩
  s.chip.atWork ∧ s.chip.curRun (egKey p) = some r ∧ dType r.desc = 8 ∧ dOp r.desc = 1 ∧ r.inDone = false ∧ r.status = 0 ∧ r.nextIn = some t ∧ t.prov = false ∧ t.pois = true := by decide +kernel
theorem wit_egress_and_gate_decide_3 :
  let p : Part := 0
  let s : State := ⟨[], { regs := regsOf [(0, tsBlk + 0x10, 1)], wrk := { parts := [(0, { started := true })], records := [(0, 2)] } }⟩
  let f := s.chip.settle.gateCause p
  s.chip.locked = false ∧ s.chip.gateOpen p = true ∧ f.1 ≠ 0 := by decide +kernel
theorem wit_egress_and_gate_decide_4 :
  let p : Part := 0
  let s : State := ⟨[], { regs := regsOf [(0, tsBlk + 0x10, 1)], wrk := { parts := [(0, { started := true })], records := [(0, 1)] } }⟩
  let f := s.chip.settle.gateCause p
  s.chip.locked = false ∧ s.chip.gateOpen p = true ∧ f.1 = 0 ∧ s.chip.settle.gateReady p = true := by decide +kernel
theorem wit_egress_and_gate_decide_5 :
  let p : Part := 0
  let s : State := ⟨[], { regs := regsOf [(0, tsBlk + 0x10, 1)], wrk := { parts := [(0, { started := true })] } }⟩
  let f := s.chip.settle.gateCause p
  s.chip.locked = false ∧ s.chip.gateOpen p = true ∧ f.1 = 0 ∧ s.chip.settle.gateReady p = false := by decide +kernel
theorem wit_egress_and_gate_decide_6 :
  let p : Part := 0
  let s : State := ⟨[], { regs := regsOf [(0, tsBlk + 0x10, 1)], wrk := { parts := [(0, { started := true })], gates := [(0, 2)] }, ses := { tab := [(0, { neg := some ⟨1, 0, 0⟩ })] } }⟩
  let c1 := (s.chip.advanceTo (s.chip.launchNs p - s.chip.txCorr (s.chip.sessPort (s.chip.sessOf p)))).settle
  s.chip.locked = false ∧ s.chip.running = true ∧ s.chip.pwrState = 0 ∧ (s.chip.part p).started = true ∧ c1.gateOpen p = false ∧ c1.negotiated p = true := by decide +kernel
theorem wit_egress_and_gate_decide_7 :
  let p : Part := 0
  let s : State := ⟨[], { regs := regsOf [(0, tsBlk + 0x10, 1)], wrk := { parts := [(0, { started := true })], records := [(0, 1)] } }⟩
  let c1 := (s.chip.advanceTo (s.chip.launchNs p - s.chip.txCorr (s.chip.sessPort (s.chip.sessOf p)))).settle
  s.chip.locked = false ∧ s.chip.running = true ∧ s.chip.pwrState = 0 ∧ (s.chip.part p).started = true ∧ c1.gateOpen p = true ∧ (c1.gateCause p).1 = 0 := by decide +kernel
theorem wit_gate_conditions_in_order_0 :
  let p : Part := 0
  let c : Chip := { wrk := { records := [(0, 2)] } }
  c.record c.turn32 p = 2 := by decide +kernel
theorem wit_gate_conditions_in_order_1 :
  let p : Part := 0
  let c : Chip := { regs := regsOf [(0, fcBlk + 0x1C, 64)] }
  c.record c.turn32 p ≠ 2 ∧ (∀ d, c.blankCounts p d = true → tabGet 0 c.wrk.verdicts d ≠ 2) ∧ c.classA = true := by exact ⟨by decide +kernel, (by intro d _ h; exact absurd (show (0 : Nat) = 2 from h) (by decide)), by decide +kernel⟩
theorem wit_gate_conditions_in_order_2 :
  let p : Part := 0
  let c : Chip := { cfg := [⟨0x0702, [63, 0]⟩] }
  c.record c.turn32 p ≠ 2 ∧ (∀ d, c.blankCounts p d = true → tabGet 0 c.wrk.verdicts d ≠ 2) ∧ c.classA = false ∧ (c.part p).fail = 0 ∧ (∀ j ∈ c.partJobs p, withholds (c.job j).code = false) := by exact ⟨by decide +kernel, (by intro d _ h; exact absurd (show (0 : Nat) = 2 from h) (by decide)), by decide +kernel, by decide +kernel, by decide +kernel⟩
theorem wit_gate_conditions_in_order_3 :
  let cause : Nat := 7
  let msg : Nat := 65535
  let die : Nat := 7
  cause < 8 ∧ msg < 65536 ∧ die < 8 := by decide +kernel
theorem wit_time_base_follows_master_0 :
  let n : EPort := 0
  let s : State := ⟨[], { regs := regsOf [(0, epBlk 0, 8), (0, timeBlk + 0x10, 2)], cfg := [⟨0x0501, [0, 1, 0, 0, 0, 0, 0, 0, 0, 0, 0, 0, 2]⟩, ⟨0x0601, [1]⟩], net := { ports := [(0, { asCapable := true })] } }⟩
  let c := s.chip
  c.hears n ∧ c.timeRec 0 0 = 1 ∧ c.eport n 12 0 = 2 ∧ c.linkUp n = true ∧ (c.ep n).asCapable = true ∧ 2 ≤ c.tbState := by decide +kernel
theorem wit_time_base_follows_master_1 :
  let n : EPort := 0
  let s : State := ⟨[], { regs := regsOf [(0, epBlk 0, 8), (0, timeBlk + 0x10, 1)], cfg := [⟨0x0501, [0, 1, 0, 0, 0, 0, 0, 0, 0, 0, 0, 0, 2]⟩, ⟨0x0601, [1]⟩], net := { ports := [(0, { asCapable := true })] } }⟩
  let c := s.chip
  c.hears n ∧ c.timeRec 0 0 = 1 ∧ c.eport n 12 0 = 2 ∧ c.linkUp n = true ∧ (c.ep n).asCapable = true ∧ c.tbState < 2 ∧ c.turnState = 0 := by decide +kernel
theorem wit_time_base_follows_master_2 :
  let n : EPort := 0
  let s : State := ⟨[], { regs := regsOf [(0, epBlk 0, 8), (0, timeBlk + 0x10, 1), (0, tsBlk + 0x10, 1)], cfg := [⟨0x0501, [0, 1, 0, 0, 0, 0, 0, 0, 0, 0, 0, 0, 2]⟩, ⟨0x0601, [1]⟩], net := { ports := [(0, { asCapable := true })] } }⟩
  let c := s.chip
  c.hears n ∧ c.timeRec 0 0 = 1 ∧ c.eport n 12 0 = 2 ∧ c.linkUp n = true ∧ (c.ep n).asCapable = true ∧ c.tbState < 2 ∧ c.turnState ≠ 0 := by decide +kernel
theorem wit_time_base_follows_master_3 :
  let s : State := ⟨[], { regs := regsOf [(0, timeBlk + 0x10, 2)], cfg := [⟨0x0501, [0, 1, 0, 0, 0, 0, 0, 0, 0, 0, 0, 0, 2]⟩, ⟨0x0601, [1]⟩], net := { want := -5,  ports := [(0, { asCapable := true })] }, tb := { tick := 300000, adj := 2 } }⟩
  let c := s.chip
  c.locked = false ∧ c.timeRec 0 0 = 1 ∧ c.tbState ≠ 3 := by decide +kernel
theorem wit_time_base_follows_master_4 :
  let s : State := ⟨[], { regs := regsOf [(0, timeBlk + 0x10, 3)], cfg := [⟨0x0501, [0, 1, 0, 0, 0, 0, 0, 0, 0, 0, 0, 0, 2]⟩, ⟨0x0601, [1]⟩], net := { ports := [(0, { asCapable := true })] } }⟩
  let c := s.chip
  c.tbState = 3 := by decide +kernel
theorem wit_time_base_follows_master_5 :
  let s : State := ⟨[], { regs := regsOf [(0, timeBlk + 0x10, 2)], cfg := [⟨0x0501, [0, 1, 0, 0, 0, 0, 0, 0, 0, 0, 0, 0, 2]⟩, ⟨0x0601, [1]⟩], net := { ports := [(0, { asCapable := true })] } }⟩
  let c := s.chip
  c.locked = false ∧ c.tbState = 2 ∧ c.timeRec 0 0 = 1 := by decide +kernel
theorem wit_time_base_follows_master_6 :
  let n : EPort := 0
  let s : State := ⟨[], { regs := regsOf [(0, epBlk 0, 8), (0, timeBlk + 0x10, 2)], cfg := [⟨0x0501, [0, 1, 0, 0, 0, 0, 0, 0, 0, 0, 0, 0, 1]⟩, ⟨0x0601, [1]⟩], net := { ports := [(0, { asCapable := true })] } }⟩
  let c := s.chip
  s.chip.hears n ∧ s.chip.ptpOn n = true ∧ c.eport n 12 0 = 1 := by decide +kernel
theorem wit_time_base_follows_master_7 :
  let n : EPort := 0
  let s : State := ⟨[], { regs := regsOf [(0, epBlk 0, 8), (0, timeBlk + 0x10, 2)], cfg := [⟨0x0501, [0, 1, 0, 0, 0, 0, 0, 0, 0, 0, 0, 0, 1]⟩, ⟨0x0601, [1]⟩], net := { ports := [(0, { asCapable := true })] } }⟩
  let c := s.chip
  s.chip.hears n ∧ s.chip.ptpOn n = true ∧ c.eport n 12 0 = 1 := by decide +kernel
theorem wit_time_base_follows_master_8 :
  let n : EPort := 0
  let s : State := ⟨[], { regs := regsOf [(0, epBlk 0, 8), (0, timeBlk + 0x10, 2)], cfg := [⟨0x0501, [0, 1, 0, 0, 0, 0, 0, 0, 0, 0, 0, 0, 2]⟩, ⟨0x0601, [1]⟩], net := { ports := [(0, { asCapable := true })] } }⟩
  s.chip.hears n ∧ s.chip.ptpOn n = true := by decide +kernel
theorem wit_timing_pins_capture_and_drive_0 :
  let p : Pin := 0
  let rising : Bool := true
  let ph : Fin 4 := 0
  let pulse : Nat := 10
  let s : State := ⟨[], { cfg := [⟨0x0601, [0, 0, 0, 0, 0, 0, 0, 0, 0, 0, 1]⟩] }⟩
  let c := s.chip
  let t := c.tb.at c.tb.tick ph / 65536 - 157286
  let fifo := tabGet [] c.net.tsIn p
  bit (c.timeRec (10 + p) 0) (if rising then 0 else 1) = true ∧ 10 ≤ pulse ∧ fifo.length < 8 ∧ (tabGet 0 c.net.lastIn p + 200 * 65536 ≤ t + 1 ∨ tabGet 0 c.net.lastIn p = 0) := by decide +kernel
theorem wit_timing_pins_capture_and_drive_1 :
  let p : Pin := 0
  let rising : Bool := true
  let pulse : Nat := 10
  let s : State := ⟨[], { cfg := [⟨0x0601, [0, 0, 0, 0, 0, 0, 0, 0, 0, 0, 1]⟩], net := { tsIn := [(0, List.replicate 8 ⟨0, true⟩)] } }⟩
  let c := s.chip
  let fifo := tabGet [] c.net.tsIn p
  bit (c.timeRec (10 + p) 0) (if rising then 0 else 1) = true ∧ 10 ≤ pulse ∧ 8 ≤ fifo.length := by decide +kernel
theorem wit_timing_pins_capture_and_drive_2 :
  let p : Pin := 0
  let who : Src := .turner
  let s : State := {}
  let c := s.chip
  c.locked = false ∧ c.reaches who = true ∧ tabGet [] c.net.tsIn p = [] := by decide +kernel
theorem wit_timing_pins_capture_and_drive_3 :
  let p : Pin := 0
  let who : Src := .turner
  let e : TsIn := ⟨2 ^ 32 * 65536 + 327680, true⟩
  let rest : List TsIn := [⟨5, false⟩]
  let s : State := ⟨[], { net := { tsIn := [(0, e :: rest)] } }⟩
  let c := s.chip
  c.locked = false ∧ c.reaches who = true ∧ tabGet [] c.net.tsIn p = e :: rest := by decide +kernel
theorem wit_timing_pins_capture_and_drive_4 :
  let p : Pin := 0
  let s : State := ⟨[], { cfg := [⟨0x0602, [0, 1, 5, 7, 3]⟩] }⟩
  let c := s.chip
  c.tsRec p 1 = 1 ∧ c.net.silent = false := by decide +kernel
theorem wit_timing_pins_capture_and_drive_5 :
  let s : State := ⟨[], { cfg := [⟨0x0601, [0, 0, 0, 0, 0, 0, 0, 0, 0, 0, 0, 0, 0, 0, 1]⟩] }⟩
  let c := s.chip
  c.timeRec 14 0 = 1 ∧ c.net.silent = false := by decide +kernel
theorem wit_collector_latches_and_clears_0 :
  let b : FswBit := 5
  let r : Rise := { bit := 5, cause := 0x11, die := 0, src := 0 }
  let s : State := ⟨[], { flt := { rises := [{ bit := 3, cause := 0, die := 0, src := 0 }, r] } }⟩
  let c := s.chip
  c.flt.rises.find? (fun r => r.bit == b.val) = some r := by decide +kernel
theorem wit_collector_latches_and_clears_1 :
  let s : State := {}
  let c := s.chip
  c.locked = false := by decide +kernel
theorem wit_collector_latches_and_clears_2 :
  let who : Src := .mgmt 0
  let s : State := ⟨[], { ses := { tab := [(4, { isOpen := true })] }, regs := regsOf [(0, fcBlk, 32), (0, fcBlk + 8, 0x800)] }⟩
  let c := s.chip
  c.locked = false ∧ c.openMgmt who = true := by decide +kernel
theorem wit_collector_latches_and_clears_3 :
  let b : Nat := 5
  let c : Chip := { regs := regsOf [(0, fcBlk, 32), (0, fcBlk + 8, 0x400)] }
  b < 64 ∧ c.fcls b = 1 := by decide +kernel
theorem wit_collector_latches_and_clears_4 :
  let b : Nat := 4
  let c : Chip := { regs := regsOf [(0, fcBlk, 16), (0, fcBlk + 8, 0x200), (0, spBlk 0 + 4, 0xFFFFFFFF)] }
  b < 64 ∧ c.lineHigh b = true := by decide +kernel
theorem wit_collector_latches_and_clears_5 :
  let b : Nat := 4
  let c : Chip := { regs := regsOf [(0, fcBlk, 17), (0, fcBlk + 8, 0x200)] }
  b < 64 ∧ c.fsw.testBit b = true ∧ c.fcls b ≠ 1 ∧ c.lineHigh b = false := by decide +kernel
theorem wit_collector_latches_and_clears_6 :
  let b : Nat := 4
  let i : Nat := 0
  let c : Chip := { regs := regsOf [(0, fcBlk, 17), (0, fcBlk + 8, 0x200)] }
  b < 64 ∧ c.fsw.testBit b = true ∧ c.fcls b ≠ 1 ∧ c.lineHigh b = false ∧ i < 64 ∧ i ≠ b := by decide +kernel
theorem wit_class_a_event_enters_safe_state :
  let r : Rise := { bit := 63, cause := 0x11, die := 7, src := 0, esc := true }
  let c : Chip := { regs := regsOf [(0, tsBlk + 0x10, 1)] }
  r.bit < 64 ∧ c.fsw.testBit r.bit = false ∧ c.riseClass r = 1 ∧ c.flt.seq = none ∧ c.locked = false := by decide +kernel
theorem wit_fault_record_kept_and_reported_0 :
  let x : Seq := { bit := 5, cause := 1, ns := 0, frac := 0, turn := 0, fsw := 32 }
  let s : State := ⟨[], { flt := { seq := some x } }⟩
  s.chip.flt.seq = some x ∧ s.chip.locked = false ∧ x.record = [] := by decide +kernel
theorem wit_fault_record_kept_and_reported_1 :
  let x : Seq := { bit := 5, cause := 1, ns := 0, frac := 0, turn := 0, fsw := 32, copies := 1, report := [1#8] }
  let s : State := ⟨[], { flt := { seq := some x } }⟩
  s.chip.flt.seq = some x ∧ s.chip.locked = false ∧ (x.copies = 1 ∨ x.copies = 2) := by decide +kernel
theorem wit_lockstep_and_safety_port_0 :
  let n : Bool := true
  let p : Bool := false
  n ≠ p := by decide +kernel
theorem wit_lockstep_and_safety_port_1 :
  let s : State := ⟨[], { flt := { equal := 1 } }⟩
  let c := s.chip
  c.flt.equal = 1 := by decide +kernel
theorem wit_lockstep_and_safety_port_2 :
  let u : Unit8 := 7
  let s : State := {}
  let c := s.chip
  c.locked = false ∧ c.unitRuns u = true := by decide +kernel
theorem wit_lockstep_and_safety_port_3 :
  let u : Unit8 := 7
  let s : State := ⟨[], { flt := { units := [(7, { halted := true })] } }⟩
  let c := s.chip
  c.locked = false ∧ (c.unit u).halted = true := by decide +kernel
theorem wit_lockstep_and_safety_port_4 :
  let u : Unit8 := 7
  let s : State := {}
  let c := s.chip
  c.locked = false ∧ c.unitRuns u = true := by decide +kernel
theorem wit_lockstep_and_safety_port_5 :
  let s : State := ⟨[], { obs := { unlocked := true } }⟩
  let c := s.chip
  c.locked = false ∧ c.obs.unlocked = true := by decide +kernel
theorem wit_lockstep_and_safety_port_7 :
  let m : Bytes := [1#8] ++ List.replicate 13 0#8 ++ toLE 2 (crc16 ([1#8] ++ List.replicate 13 0#8))
  let s : State := ⟨[], { cfg := [⟨0x0702, [63]⟩] }⟩
  let c := s.chip
  m.length = 16 ∧ (∃ b ∈ m, b ≠ 0#8) ∧ c.cfg ≠ [] ∧ crc16 (m.take 14) = leAt m 14 2 ∧ (∀ b ∈ slice m 3 11, b = 0#8) ∧ leAt m 2 1 + 1 ≠ c.flt.ssp.last := by decide +kernel
theorem wit_lockstep_and_safety_port_8 :
  let m : Bytes := [1#8] ++ List.replicate 15 0#8
  m.length = 16 ∧ (∃ b ∈ m, b ≠ 0#8) ∧ crc16 (m.take 14) ≠ leAt m 14 2 := by decide +kernel
theorem wit_lockstep_and_safety_port_9 :
  let due : Nat := 400
  let s : State := ⟨[], { flt := { ssp := { due := some due } } }⟩
  let c := s.chip
  c.flt.ssp.due = some due ∧ c.locked = false ∧ c.classA = false ∧ c.unitRuns 0 = true := by decide +kernel
theorem wit_resets_start_the_device_0 :
  let byPin : Bool := true
  let low : Nat := 10000
  let s : State := {}
  let c := s.chip
  (byPin = false ∨ (c.classA = false ∧ 10000 ≤ low)) := by decide +kernel
theorem wit_resets_start_the_device_1 :
  let low : Nat := 1000
  let s : State := {}
  let c := s.chip
  (bit (c.reg 0 startBlk) 5 && c.fld 0 (startBlk + 0x18) 1 0 == 3) = false ∧ c.classA = false ∧ 1000 ≤ low := by decide +kernel
theorem wit_resets_start_the_device_2 :
  let s : State := ⟨[], { regs := regsOf [(0, startBlk, 11)], boot := { fwSvn := 3, cfgSvn := 2 }, nv := { otp := { svnFw := 1, svnCfg := 5 } } }⟩
  let c := s.chip
  c.locked = false ∧ c.stopped = false ∧ c.fld 0 startBlk 3 0 = 11 ∧ c.awaitsHello = false := by decide +kernel
theorem wit_resets_start_the_device_3 :
  let s : State := ⟨[], { pwr := { move := 2 } }⟩
  let c := s.chip
  c.locked = false ∧ c.pwr.move = 2 := by decide +kernel
theorem wit_resets_start_the_device_4 :
  let s : State := ⟨[], { pwr := { move := 3 } }⟩
  let c := s.chip
  c.locked = false ∧ c.pwr.move = 3 := by decide +kernel
theorem wit_resets_start_the_device_5 :
  let s : State := ⟨[], { pwr := { move := 4 } }⟩
  let c := s.chip
  c.locked = false ∧ c.pwr.move = 4 := by decide +kernel
theorem wit_resets_start_the_device_6 :
  let x : Xfer := { sess := 4, kind := 1, total := 4, data := [1#8, 2#8, 3#8, 4#8] }
  let s : State := ⟨[], { boot := { staged := some x } }⟩
  let c := s.chip
  c.locked = false ∧ c.boot.staged = some x := by decide +kernel
theorem wit_resets_start_the_device_7 :
  let x : Xfer := { sess := 4, kind := 1, total := 4, data := [1#8, 2#8, 3#8, 4#8] }
  let s : State := ⟨[], { boot := { staged := some x } }⟩
  let c := s.chip
  c.locked = false ∧ c.boot.staged = some x ∧ x.kind ≠ 3 := by decide +kernel
theorem wit_sessions_open_and_end_0 :
  let f_b : Bytes := 7#8 :: List.replicate 15 0#8
  let r : Req := reqOf 3 1 0 0 f_b
  let m : Dgram := dgOf 0 (msgOf 3 1 0 0 f_b)
  let n : Nat := 0
  let g := ⟨3, 0, 7⟩
  let s : State := ⟨[], { regs := regsOf [(0, epBlk 0, 8)], cfg := portCfg 1, wrk := { parts := [(0, { started := true })] }, ses := { tab := [(0, {  })] } }⟩
  let c := s.chip
  c.hears m.port ∧ c.route m false = .to n r ∧ n < 4 ∧ r.ty = 1 ∧ r.clean = true ∧ r.sess = n ∧ r.body.length = 16 ∧ zeroAt r.body 4 12 = true ∧ c.partServed n = true ∧ ((c.sess n).live && r.seq == (c.sess n).rx && leAt (c.sess n).cache 6 2 == 2) = false ∧ c.negotiate n r = some g := by decide +kernel
theorem wit_sessions_open_and_end_1 :
  let n : Nat := 0
  let f_b : Bytes := []
  let r : Req := reqOf 3 3 0 0 f_b
  let m : Dgram := dgOf 0 (msgOf 3 3 0 0 f_b)
  let s : State := ⟨[], { regs := regsOf [(0, epBlk 0, 8)], cfg := portCfg 1, wrk := { parts := [(0, { started := true })] }, ses := { tab := [(0, { neg := some ⟨3, 0, 7⟩ })] } }⟩
  let c := s.chip
  c.asks m false n r ∧ n < 4 ∧ r.ty = 3 ∧ r.body = [] := by decide +kernel
theorem wit_sessions_open_and_end_2 :
  let f_b : Bytes := []
  let r : Req := reqOf 3 3 4 1 f_b
  let m : Dgram := dgOf 19290 (msgOf 3 3 4 1 f_b)
  let n : Nat := 4
  let s : State := ⟨[], { regs := regsOf [(0, epBlk 0, 8)], cfg := portCfg 2, ses := { tab := [(4, { isOpen := true, live := true })] } }⟩
  let c := s.chip
  c.asks m false n r ∧ 4 ≤ n ∧ n < 8 ∧ (c.sess n).live = true ∧ r.ty = 3 ∧ r.body = [] := by decide +kernel
theorem wit_sessions_open_and_end_3 :
  let f_b : Bytes := []
  let r : Req := reqOf 3 4 0 0 f_b
  let m : Dgram := dgOf 19290 (msgOf 3 4 0 0 f_b)
  let n : Nat := 4
  let s : State := ⟨[], { regs := regsOf [(0, epBlk 0, 8)], cfg := portCfg 2, ses := { tab := [(4, {  })] } }⟩
  let c := s.chip
  c.hears m.port ∧ c.recovering = false ∧ c.linkUp m.port = true ∧ c.role m.port = 2 ∧ m.dstUdp.toNat = 19290 ∧ parseMsg m.body false = some r ∧ r.ty = 4 ∧ r.clean = true ∧ r.body = [] ∧ c.reopened m r = none ∧ [4, 5, 6, 7].find? (fun s => !c.inUse s) = some n := by decide +kernel
theorem wit_sessions_open_and_end_4 :
  let f_b : Bytes := List.replicate 36 0#8
  let r : Req := reqOf 3 6 4 0 f_b
  let m : Dgram := dgOf 19290 (msgOf 3 6 4 0 f_b)
  let n : Nat := 4
  let s : State := ⟨[], { regs := regsOf [(0, epBlk 0, 8)], cfg := portCfg 2, nv := { otp := { keys := [(0, [1#8])] } }, ses := { tab := [(4, { reserved := true })] } }⟩
  let c := s.chip
  c.hears m.port ∧ c.route m true = .to n r ∧ 4 ≤ n ∧ n < 8 ∧ r.ty = 6 ∧ r.clean = true ∧ r.body.length = 36 ∧ zeroAt r.body 1 3 = true ∧ (c.sess n).isOpen = false ∧ ((c.sess n).live = true → r.seq = ((c.sess n).rx + 1) % 2 ^ 32 ∧ r.seq ≠ (c.sess n).rx) ∧ leAt r.body 0 1 ≤ 3 ∧ c.slotGood (leAt r.body 0 1) = true ∧ leAt r.body 4 32 = (c.sess n).nonce := by decide +kernel
theorem wit_sessions_open_and_end_5 :
  let i : MSess := 0
  let s : State := ⟨[], { ses := { tab := [(4, { reserved := true })] } }⟩
  let c := s.chip
  c.locked = false ∧ (c.sess (4 + i)).reserved = true ∧ (c.sess (4 + i)).isOpen = false := by decide +kernel
theorem wit_sessions_open_and_end_6 :
  let i : MSess := 0
  let s : State := ⟨[], { ses := { tab := [(4, { isOpen := true })] } }⟩
  let c := s.chip
  c.locked = false ∧ (c.sess (4 + i)).isOpen = true := by decide +kernel
theorem wit_mailbox_acts_on_device_0 :
  let f_b : Bytes := toLE 8 (7 * 2 ^ 44) ++ toLE 8 2
  let r : Req := reqOf 3 33 4 1 f_b
  let m : Dgram := dgOf 19290 (msgOf 3 33 4 1 f_b)
  let n : Nat := 4
  let s : State := ⟨[], { regs := regsOf [(0, epBlk 0, 8)], cfg := portCfg 2, ses := { tab := [(4, { isOpen := true, live := true })] } }⟩
  let a := leAt r.body 0 8
  let k := leAt r.body 8 2
  s.chip.asks m false n r ∧ 4 ≤ n ∧ n < 8 ∧ r.ty = 0x21 ∧ r.body.length = 16 ∧ zeroAt r.body 10 6 = true ∧ a % 4 = 0 ∧ a + 4 * k ≤ 2 ^ 48 ∧ within k 1 256 = true := by decide +kernel
theorem wit_mailbox_acts_on_device_1 :
  let n : Nat := 4
  let f_b : Bytes := toLE 8 (7 * 2 ^ 44 + ctlBase + sramBlk) ++ toLE 8 1
  let r : Req := reqOf 3 34 4 1 f_b
  let m : Dgram := dgOf 19290 (msgOf 3 34 4 1 f_b)
  let i : Fin 4 := 0
  let d : Nat := 7
  let off : Nat := sramBlk
  let s : State := ⟨[], { regs := regsOf [(0, epBlk 0, 8)], cfg := portCfg 2, ses := { tab := [(4, { isOpen := true, live := true })] } }⟩
  let h := s.chip.heard m n r
  let a := leAt r.body 0 8
  s.chip.asks m false n r ∧ n = 4 + i ∧ r.ty = 0x22 ∧ r.body.length = 16 ∧ zeroAt r.body 12 4 = true ∧ a % 4 = 0 ∧ a < 2 ^ 48 ∧ h.decode a = .ctl d off := by decide +kernel
theorem wit_mailbox_acts_on_device_2 :
  let n : Nat := 4
  let f_b : Bytes := toLE 8 32
  let r : Req := reqOf 3 35 4 1 f_b
  let m : Dgram := dgOf 19290 (msgOf 3 35 4 1 f_b)
  let s : State := ⟨[], { regs := regsOf [(0, epBlk 0, 8)], cfg := portCfg 2, ses := { tab := [(4, { isOpen := true, live := true })] } }⟩
  let h := s.chip.heard m n r
  s.chip.asks m false n r ∧ n < 8 ∧ r.ty = 0x23 ∧ r.body.length = 8 ∧ h.holds n (some 2) = true := by decide +kernel
theorem wit_mailbox_acts_on_device_3 :
  let n : Nat := 4
  let f_b : Bytes := toLE 8 32
  let r : Req := reqOf 3 36 4 1 f_b
  let m : Dgram := dgOf 19290 (msgOf 3 36 4 1 f_b)
  let s : State := ⟨[], { regs := regsOf [(0, epBlk 0, 8)], cfg := portCfg 2, ses := { tab := [(4, { isOpen := true, live := true })] } }⟩
  let h := s.chip.heard m n r
  s.chip.asks m false n r ∧ n < 8 ∧ r.ty = 0x24 ∧ r.body.length = 8 ∧ h.holds n (some 3) = true := by decide +kernel
theorem wit_mailbox_acts_on_device_4 :
  let n : Nat := 4
  let f_b : Bytes := toLE 8 0x100
  let r : Req := reqOf 3 37 4 1 f_b
  let m : Dgram := dgOf 19290 (msgOf 3 37 4 1 f_b)
  let s : State := ⟨[], { regs := regsOf [(0, epBlk 0, 8)], cfg := portCfg 2 ++ [⟨0x0401, [0, 1, 0, 0, 0, 0, 0, 0, 0, 0, 0, 0, 0, 0, 1]⟩], ses := { tab := [(4, { isOpen := true, live := true })] } }⟩
  let h := s.chip.heard m n r
  let p := leAt r.body 0 1
  let x := h.reg 0 (spBlk p)
  s.chip.asks m false n r ∧ n < 8 ∧ r.ty = 0x25 ∧ r.body.length = 8 ∧ zeroAt r.body 2 6 = true ∧ h.holds n (some 6) = true ∧ p < 24 ∧ h.sport p 1 0 = 1 ∧ h.isSafety (h.sport p 2 0) = false ∧ h.sport p 14 0 ≠ 0 ∧ bit x 7 = false ∧ bit x 10 = false ∧ leAt r.body 1 1 = 1 := by decide +kernel
theorem wit_mailbox_acts_on_device_5 :
  let n : Nat := 4
  let f_b : Bytes := toLE 8 0
  let r : Req := reqOf 3 37 4 1 f_b
  let m : Dgram := dgOf 19290 (msgOf 3 37 4 1 f_b)
  let s : State := ⟨[], { regs := regsOf [(0, epBlk 0, 8)], cfg := portCfg 2 ++ [⟨0x0401, [0, 1, 0, 0, 0, 0, 0, 0, 0, 0, 0, 0, 0, 0, 1]⟩], ses := { tab := [(4, { isOpen := true, live := true })] } }⟩
  let h := s.chip.heard m n r
  let p := leAt r.body 0 1
  let x := h.reg 0 (spBlk p)
  s.chip.asks m false n r ∧ n < 8 ∧ r.ty = 0x25 ∧ r.body.length = 8 ∧ zeroAt r.body 2 6 = true ∧ h.holds n (some 6) = true ∧ p < 24 ∧ h.sport p 1 0 = 1 ∧ h.isSafety (h.sport p 2 0) = false ∧ h.sport p 14 0 ≠ 0 ∧ bit x 7 = false ∧ bit x 10 = false ∧ leAt r.body 1 1 = 0 := by decide +kernel
theorem wit_transfers_keys_records_served_0 :
  let f_b : Bytes := toLE 4 1 ++ toLE 4 64
  let r : Req := reqOf 3 48 4 1 f_b
  let m : Dgram := dgOf 19290 (msgOf 3 48 4 1 f_b)
  let n : Nat := 4
  let s : State := ⟨[], { regs := regsOf [(0, epBlk 0, 8)], cfg := portCfg 2, ses := { tab := [(4, { isOpen := true, live := true })] } }⟩
  let b := r.body
  let k := leAt b 0 1
  s.chip.asks m false n r ∧ ((4 ≤ n ∧ n < 8) ∨ n = 255) ∧ r.ty = 0x30 ∧ b.length = 8 ∧ zeroAt b 1 3 = true ∧ s.chip.ses.xfer = none ∧ s.chip.boot.staged = none ∧ within k 1 (if n = 255 then 2 else 3) = true ∧ within (leAt b 4 4) 1 (if k = 1 then 0xC00000 else if k = 2 then 0x200000 else 0x800000) = true := by decide +kernel
theorem wit_transfers_keys_records_served_0_recovery :
  let f_b : Bytes := toLE 4 2 ++ toLE 4 64
  let r : Req := reqOf 1 48 255 0 f_b
  let m : Dgram := dgOf 19289 (msgOf 1 48 255 0 f_b)
  let n : Nat := 255
  let s : State := ⟨[], { regs := regsOf [(0, startBlk, 32)] }⟩
  let b := r.body
  let k := leAt b 0 1
  s.chip.asks m false n r ∧ ((4 ≤ n ∧ n < 8) ∨ n = 255) ∧ r.ty = 0x30 ∧ b.length = 8 ∧ zeroAt b 1 3 = true ∧ s.chip.ses.xfer = none ∧ s.chip.boot.staged = none ∧ within k 1 (if n = 255 then 2 else 3) = true ∧ within (leAt b 4 4) 1 (if k = 1 then 0xC00000 else if k = 2 then 0x200000 else 0x800000) = true := by decide +kernel
theorem wit_transfers_keys_records_served_1 :
  let f_b : Bytes := toLE 8 0 ++ List.replicate 64 7#8
  let r : Req := reqOf 3 49 4 1 f_b
  let m : Dgram := dgOf 19290 (msgOf 3 49 4 1 f_b)
  let n : Nat := 4
  let x : Xfer := { sess := 4, kind := 1, total := 128, data := [] }
  let s : State := ⟨[], { regs := regsOf [(0, epBlk 0, 8)], cfg := portCfg 2, ses := { tab := [(4, { isOpen := true, live := true })], xfer := some x } }⟩
  let b := r.body
  s.chip.asks m false n r ∧ ((4 ≤ n ∧ n < 8) ∨ n = 255) ∧ s.chip.ses.xfer = some x ∧ x.sess = n ∧ r.ty = 0x31 ∧ within b.length 72 1032 = true ∧ zeroAt b 4 4 = true ∧ leAt b 0 4 = x.data.length ∧ x.data.length + (b.length - 8) ≤ x.total := by decide +kernel
theorem wit_transfers_keys_records_served_2 :
  let f_b : Bytes := []
  let r : Req := reqOf 3 50 4 1 f_b
  let m : Dgram := dgOf 19290 (msgOf 3 50 4 1 f_b)
  let n : Nat := 4
  let sig := true
  let x : Xfer := { sess := 4, kind := 1, total := 1, data := [1#8] }
  let s : State := ⟨[], { regs := regsOf [(0, epBlk 0, 8)], cfg := portCfg 2, ses := { tab := [(4, { isOpen := true, live := true })], xfer := some x } }⟩
  let h := s.chip.heard m n r
  let b := r.body
  s.chip.asks m false n r ∧ ((4 ≤ n ∧ n < 8) ∨ n = 255) ∧ s.chip.ses.xfer = some x ∧ x.sess = n ∧ r.ty = 0x32 ∧ b = [] ∧ h.xferStatus x sig = 0 := by decide +kernel
theorem wit_transfers_keys_records_served_3 :
  let x : Xfer := { sess := 4, kind := 1, total := 1, data := [1#8] }
  let f_b : Bytes := []
  let r : Req := reqOf 3 50 4 1 f_b
  let m : Dgram := dgOf 19290 (msgOf 3 50 4 1 f_b)
  let n : Nat := 4
  let sig := false
  let s : State := ⟨[], { regs := regsOf [(0, epBlk 0, 8)], cfg := portCfg 2, ses := { tab := [(4, { isOpen := true, live := true })], xfer := some x } }⟩
  let h := s.chip.heard m n r
  let b := r.body
  s.chip.asks m false n r ∧ ((4 ≤ n ∧ n < 8) ∨ n = 255) ∧ s.chip.ses.xfer = some x ∧ x.sess = n ∧ r.ty = 0x32 ∧ b = [] ∧ h.xferStatus x sig ≠ 0 := by decide +kernel
theorem wit_transfers_keys_records_served_4 :
  let f_b : Bytes := List.replicate 32 7#8
  let r : Req := reqOf 3 51 4 1 f_b
  let m : Dgram := dgOf 19290 (msgOf 3 51 4 1 f_b)
  let n : Nat := 4
  let s : State := ⟨[], { regs := regsOf [(0, epBlk 0, 8)], cfg := portCfg 2, ses := { tab := [(4, { isOpen := true, live := true })] } }⟩
  let b := r.body
  4 ≤ n ∧ n < 8 ∧ s.chip.asks m false n r ∧ (s.chip.sess n).live = true ∧ r.ty = 0x33 ∧ b.length = 32 := by decide +kernel
theorem wit_transfers_keys_records_served_5 :
  let f_b : Bytes := [0#8, 1#8] ++ List.replicate 34 0#8
  let r : Req := reqOf 3 53 4 1 f_b
  let m : Dgram := dgOf 19290 (msgOf 3 53 4 1 f_b)
  let n : Nat := 4
  let s : State := ⟨[], { regs := regsOf [(0, epBlk 0, 8)], cfg := portCfg 2, nv := { otp := { keys := [(0, [1#8]), (1, [2#8])] } }, ses := { tab := [(4, { isOpen := true, live := true })] } }⟩
  let b := r.body
  4 ≤ n ∧ n < 8 ∧ s.chip.asks m true n r ∧ r.ty = 0x35 ∧ b.length = 36 ∧ zeroAt b 2 2 = true ∧ leAt b 0 1 ≤ 3 ∧ leAt b 1 1 ≤ 3 ∧ leAt b 0 1 ≠ leAt b 1 1 ∧ s.chip.slotGood (leAt b 1 1) = true ∧ leAt b 4 32 = (s.chip.sess n).nonce := by decide +kernel
theorem wit_transfers_keys_records_served_6 :
  let f_b : Bytes := toLE 4 7
  let r : Req := reqOf 3 54 4 1 f_b
  let m : Dgram := dgOf 19290 (msgOf 3 54 4 1 f_b)
  let n : Nat := 4
  let i := 0
  let s : State := ⟨[], { regs := regsOf [(0, epBlk 0, 8)], cfg := portCfg 2, nv := { fl0 := flashWrite [] 0xE50000 (toLE 4 0x5246594B ++ List.replicate 136 0#8 ++ toLE 4 7) }, ses := { tab := [(4, { isOpen := true, live := true })] } }⟩
  let b := r.body
  4 ≤ n ∧ n < 8 ∧ s.chip.asks m false n r ∧ r.ty = 0x36 ∧ b.length = 4 ∧ (List.range 64).find? (fun i => let x := flashRead s.chip.nv.fl0 (0xE50000 + 256 * i) 256; leAt x 0 4 == 0x5246594B && leAt x 140 4 == leAt b 0 4) = some i := by decide +kernel
theorem wit_observation_served_0 :
  let f_b : Bytes := [1#8, 7#8, 3#8, 0#8] ++ toLE 8 0 ++ List.replicate 12 0#8
  let r : Req := reqOf 3 32 4 1 f_b
  let m : Dgram := dgOf 19290 (msgOf 3 32 4 1 f_b)
  let n : Nat := 4
  let d := 7
  let i := 3
  let s : State := ⟨[], { regs := regsOf [(0, epBlk 0, 8)], cfg := portCfg 2, ses := { tab := [(4, { isOpen := true, live := true })] } }⟩
  let h := s.chip.heard m n r
  let b := r.body
  s.chip.asks m false n r ∧ n < 8 ∧ r.ty = 0x20 ∧ cntBody b = true ∧ leAt b 1 1 = d ∧ leAt b 2 1 = i ∧ h.holds n (h.stnNeed n b) = true ∧ d ≤ 7 ∧ i ≤ 127 ∧ stType (d * 128 + h.cntIndex d i) ≠ 0 ∧ leAt b 0 1 = 1 := by decide +kernel
theorem wit_observation_served_1 :
  let n : Nat := 4
  let d := 7
  let i := 3
  let f_b : Bytes := [2#8, 7#8, 3#8, 0#8] ++ toLE 8 0 ++ List.replicate 12 0#8
  let r : Req := reqOf 3 32 4 1 f_b
  let m : Dgram := dgOf 19290 (msgOf 3 32 4 1 f_b)
  let s : State := ⟨[], { regs := regsOf [(0, epBlk 0, 8)], cfg := portCfg 2, ses := { tab := [(4, { isOpen := true, live := true })] } }⟩
  let h := s.chip.heard m n r
  let b := r.body
  s.chip.asks m false n r ∧ n < 8 ∧ r.ty = 0x20 ∧ cntBody b = true ∧ leAt b 1 1 = d ∧ leAt b 2 1 = i ∧ h.holds n (h.stnNeed n b) = true ∧ d ≤ 7 ∧ i ≤ 127 ∧ stType (d * 128 + h.cntIndex d i) ≠ 0 ∧ leAt b 0 1 = 2 := by decide +kernel
theorem wit_observation_served_2 :
  let n : Nat := 4
  let f_b : Bytes := [3#8, 11#8, 0#8, 1#8] ++ toLE 8 5 ++ List.replicate 12 0#8
  let r : Req := reqOf 3 32 4 1 f_b
  let m : Dgram := dgOf 19290 (msgOf 3 32 4 1 f_b)
  let l := [toLE 8 5]
  let s : State := ⟨[], { regs := regsOf [(0, epBlk 0, 8)], cfg := portCfg 2, obs := { ao := [(aoKey 5 11, toLE 8 5)] }, ses := { tab := [(4, { isOpen := true, live := true })] } }⟩
  let h := s.chip.heard m n r
  let b := r.body
  s.chip.asks m false n r ∧ n < 8 ∧ r.ty = 0x20 ∧ cntBody b = true ∧ leAt b 0 1 = 3 ∧ (h.holds n (some (if n < 4 ∧ leAt b 1 1 = 8 + h.sessPart n then 0 else 1)) = true) ∧ leAt b 1 1 ≤ 11 ∧ within (leAt b 3 1) 1 16 = true ∧ (List.range (leAt b 3 1)).mapM (fun i => h.aoRecord ((if leAt b 4 8 = 0 then h.newestAo else leAt b 4 8) + i) (leAt b 1 1)) = some l := by decide +kernel
theorem wit_observation_served_3 :
  let n : Nat := 4
  let f_b : Bytes := [4#8, 0#8, 0#8, 0#8] ++ toLE 8 0 ++ List.replicate 12 0#8
  let r : Req := reqOf 3 32 4 1 f_b
  let m : Dgram := dgOf 19290 (msgOf 3 32 4 1 f_b)
  let s : State := ⟨[], { regs := regsOf [(0, epBlk 0, 8)], cfg := portCfg 2, ses := { tab := [(4, { isOpen := true, live := true })] } }⟩
  let h := s.chip.heard m n r
  let b := r.body
  s.chip.asks m false n r ∧ n < 8 ∧ r.ty = 0x20 ∧ cntBody b = true ∧ leAt b 0 1 = 4 ∧ (h.holds n (some (if n < 4 ∧ leAt b 12 1 = 1 <<< h.sessPart n then 0 else 1)) = true) ∧ leAt b 12 1 ≤ 15 ∧ (leAt b 13 1 ≤ 63 ∨ leAt b 13 1 = 255) ∧ leAt b 14 1 ≤ 127 ∧ bit (s.chip.reg 0 obsBlk) 0 = false := by decide +kernel
theorem wit_observation_served_4 :
  let n : Nat := 4
  let f_b : Bytes := [4#8, 0#8, 0#8, 0#8] ++ toLE 8 0 ++ List.replicate 12 0#8
  let r : Req := reqOf 3 32 4 1 f_b
  let m : Dgram := dgOf 19290 (msgOf 3 32 4 1 f_b)
  let s : State := ⟨[], { regs := regsOf [(0, epBlk 0, 8), (0, obsBlk, 1 + 4 <<< 1)], cfg := portCfg 2, ses := { tab := [(4, { isOpen := true, live := true })] } }⟩
  let h := s.chip.heard m n r
  let b := r.body
  s.chip.asks m false n r ∧ n < 8 ∧ r.ty = 0x20 ∧ cntBody b = true ∧ leAt b 0 1 = 4 ∧ (h.holds n (some (if n < 4 ∧ leAt b 12 1 = 1 <<< h.sessPart n then 0 else 1)) = true) ∧ leAt b 12 1 ≤ 15 ∧ (leAt b 13 1 ≤ 63 ∨ leAt b 13 1 = 255) ∧ leAt b 14 1 ≤ 127 ∧ bit (s.chip.reg 0 obsBlk) 0 = true := by decide +kernel
theorem wit_observation_served_5 :
  let n : Nat := 4
  let f_b : Bytes := [5#8, 0#8, 0#8, 0#8] ++ toLE 8 0 ++ List.replicate 12 0#8
  let r : Req := reqOf 3 32 4 1 f_b
  let m : Dgram := dgOf 19290 (msgOf 3 32 4 1 f_b)
  let s : State := ⟨[], { regs := regsOf [(0, epBlk 0, 8), (0, obsBlk, 1 + 4 <<< 1)], cfg := portCfg 2, ses := { tab := [(4, { isOpen := true, live := true })] } }⟩
  let h := s.chip.heard m n r
  let b := r.body
  s.chip.asks m false n r ∧ n < 8 ∧ r.ty = 0x20 ∧ cntBody b = true ∧ leAt b 0 1 = 5 ∧ h.holds n (some 0) = true ∧ bit (s.chip.reg 0 obsBlk) 0 = true ∧ s.chip.fld 0 obsBlk 3 1 = n := by decide +kernel
theorem wit_observation_served_6 :
  let f_b : Bytes := [7#8, 0#8, 0#8, 0#8, 1#8, 5#8, 0#8, 0#8] ++ toLE 8 2 ++ toLE 8 64
  let r : Req := reqOf 3 38 0 0 f_b
  let m : Dgram := dgOf 0 (msgOf 3 38 0 0 f_b)
  let n : Nat := 0
  let s : State := ⟨[], { regs := regsOf [(0, epBlk 0, 8)], cfg := [⟨0x0501, [0, 1]⟩, ⟨0x0203, [0, 0, 0, 0, 0, 64]⟩, ⟨0x0201, [0, 0, 0, 0, 0, 0, 0, 0, 0, 0, 0, 0, 0, 0, 0, 0, 0, 0, 0, 0, 0, 0, 1]⟩, ⟨0x0702, [5, 0]⟩], wrk := { parts := [(0, { started := true })] }, ses := { tab := [(0, { neg := some ⟨3, 0, 7⟩ })] } }⟩
  let h := s.chip.heard m n r
  let b := r.body
  let p := h.sessPart n
  let turn := leAt b 8 8
  s.chip.asks m false n r ∧ n < 8 ∧ n < 4 ∧ r.ty = 0x26 ∧ b.length = 24 ∧ zeroAt b 6 2 = true ∧ zeroAt b 20 4 = true ∧ h.holds n (some 6) = true ∧ h.isSafety p = false ∧ h.cfgBy 0x0201 p 22 0 ≠ 0 ∧ within turn (h.turn + 2) (h.turn + 1000) = true ∧ h.jobOf (leAt b 5 1) p = true ∧ h.dueIn (leAt b 5 1) turn = true ∧ within (leAt b 16 4) 64 16384 = true ∧ h.obs.dumps.any (fun x => x.part == p) = false := by decide +kernel
theorem wit_observation_served_7 :
  let s : State := ⟨[], { regs := regsOf [(0, obsBlk, 1 + 4 <<< 1)], obs := { ring := [(7, [List.replicate 32 1#8])] } }⟩
  let x := takeRecords s.chip.traceRoom 48 s.chip.obs.ring
  s.chip.locked = false ∧ bit (s.chip.reg 0 obsBlk) 0 = true ∧ x.1 ≠ [] := by decide +kernel
theorem wit_observation_served_8 :
  let p : Part := 0
  let x : Dump := { part := 0, sess := 0, job := 5, turn := 2, limit := 64, ref := 0, layer := 0, opId := 0, outIx := 0 }
  let s : State := ⟨[], { obs := { dumps := [x] }, regs := regsOf [(0, tsBlk, 3)] }⟩
  s.chip.locked = false ∧ s.chip.obs.dumps.find? (fun x => x.part == p.val) = some x ∧ x.turn < s.chip.turn ∧ s.chip.dumpNext x = none := by decide +kernel
theorem wit_power_requests_taken_0 :
  let who : Src := .mgmt 0
  let s : State := ⟨[], { ses := { tab := [(4, { isOpen := true })] } }⟩
  let c := s.chip
  s.chip.locked = false ∧ c.takesPower who = true ∧ c.pwrState ≠ 2 := by decide +kernel
theorem wit_power_requests_taken_1 :
  let who : Src := .mgmt 0
  let s : State := ⟨[], { ses := { tab := [(4, { isOpen := true })] }, regs := regsOf [(0, pwrBlk, 1)] }⟩
  let c := s.chip
  s.chip.locked = false ∧ c.takesPower who = true ∧ c.pwrState ≠ 0 := by decide +kernel
theorem wit_power_requests_taken_2 :
  let who : Src := .mgmt 0
  let p : Part := 0
  let s : State := ⟨[], { ses := { tab := [(4, { isOpen := true })] }, cfg := [⟨0x0201, [0]⟩] }⟩
  let c := s.chip
  s.chip.locked = false ∧ c.openMgmt who = true ∧ c.hasPart p = true := by decide +kernel
theorem wit_power_requests_taken_3 :
  let who : Src := .mgmt 0
  let s : State := ⟨[], { regs := regsOf [(0, pwrBlk, 3)] }⟩
  let c := s.chip
  s.chip.locked = false ∧ c.takesPower who = false := by decide +kernel
theorem wit_monitors_raise_class_a_2 :
  let dom : Dom := 25
  let s : State := {}
  let c := s.chip
  let d := if dom.val < 5 then 0 else (dom.val - 5) / 3 + 1
  c.locked = false ∧ bit (c.reg 0 (pwrBlk + 8)) (domBit dom) = false ∧ c.fenced d = false := by decide +kernel
theorem wit_monitors_raise_class_a_5 :
  let d : CDie := 6
  let i : Fin 14 := 13
  let s : State := {}
  let c := s.chip
  c.isLive ∧ c.fenced (d + 1) = false ∧ tabGet 0 c.nv.log.rings ((d + 1) * 16 + i) = 0 := by decide +kernel
theorem wit_monitors_raise_class_a_6 :
  let d : CDie := 6
  let i : Fin 14 := 13
  let k : Nat := 1000
  let n : Nat := 990
  let s : State := ⟨[], { nv := { log := { rings := [(7 * 16 + 13, 1000)] } } }⟩
  let c := s.chip
  c.isLive ∧ c.fenced (d + 1) = false ∧ tabGet 0 c.nv.log.rings ((d + 1) * 16 + i) = k ∧ k ≠ 0 ∧ n ≤ k ∧ (k - n) * 10000 % k = 0 ∧ (k - n) * 10000 / k < 32768 := by decide +kernel
theorem wit_monitors_raise_class_a_7 :
  let s : State := ⟨[], { nv := { log := { rings := [(7 * 16 + 13, 1000)] } } }⟩
  let c := s.chip
  c.locked = false := by decide +kernel
theorem wit_monitors_raise_class_a_8 :
  let s : State := ⟨[], { nv := { log := { rings := [(7 * 16 + 13, 1000)] } } }⟩
  let c := s.chip
  c.locked = false := by decide +kernel
theorem wit_spindle_lock_stops_device_1 :
  let s : State := ⟨[], { obs := { unlocked := true } }⟩
  let c := s.chip
  c.obs.unlocked = true ∧ c.classA = false ∧ c.locked = false := by decide +kernel
theorem wit_spindle_lock_stops_device_2 :
  let ns := 40
  let s : State := ⟨[], { obs := { unlocked := true } }⟩
  let c := s.chip
  c.obs.unlocked = true ∧ c.classA = false ∧ c.locked = false ∧ 40 ≤ ns := by decide +kernel
theorem wit_spindle_lock_stops_device_3 :
  let s : State := ⟨[], { obs := { unlocked := true } }⟩
  let c := s.chip
  c.obs.unlocked = true ∧ c.classA = false ∧ c.locked = false := by decide +kernel
theorem wit_spindle_lock_stops_device_4 :
  let s : State := ⟨[], { obs := { unlocked := true } }⟩
  let c := s.chip
  c.obs.unlocked = true ∧ c.classA = false ∧ c.locked = false := by decide +kernel
theorem wit_spindle_lock_stops_device_5 :
  let s : State := ⟨[], { regs := regsOf [(0, obsBlk + 0x28, 7)], obs := { unlocked := true } }⟩
  let c := s.chip
  c.locked = true := by decide +kernel
theorem wit_spindle_lock_stops_device_6 :
  let d : Nat := 7
  let off : Nat := 0
  let a : BitVec 48 := BitVec.ofNat 48 (dieBase 7 + dbBase)
  let s : State := ⟨[], { regs := regsOf [(0, obsBlk + 0x28, 7)], obs := { unlocked := true } }⟩
  let c := s.chip
  c.locked = true ∧ c.decode a.toNat = .db d off ∧ c.dieOn d = true := by decide +kernel
theorem wit_spindle_lock_stops_device_7 :
  let d : Nat := 7
  let a : BitVec 48 := BitVec.ofNat 48 (dieBase 7)
  let off : Nat := 0
  let s : State := ⟨[], { regs := regsOf [(0, obsBlk + 0x28, 7), (7, ddrBlk 0, 1)], obs := { unlocked := true } }⟩
  let c := s.chip
  c.locked = true ∧ c.decode a.toNat = .ddr d off := by decide +kernel
theorem wit_spindle_lock_stops_device_8 :
  let s : State := ⟨[], { regs := regsOf [(0, obsBlk + 0x28, 7), (7, ddrBlk 0, 1)], obs := { unlocked := true } }⟩
  let c := s.chip
  c.locked = true := by decide +kernel
theorem wit_register_accesses_keep_rules_0 :
  let who : Src := .debug
  let s : State := {}
  let c := s.chip
  s.chip.locked = false ∧ c.reaches who = false := by decide +kernel
theorem wit_register_accesses_keep_rules_1 :
  let who : Src := .firmware
  let d : Die := 7
  let s : State := ⟨[], { pwr := {} }⟩
  let c := s.chip
  s.chip.locked = false ∧ c.reaches who = true ∧ c.dieOn d = true := by decide +kernel
theorem wit_register_accesses_keep_rules_2 :
  let who : Src := .firmware
  let st : Stn := 963
  let s : State := ⟨[], { pwr := {} }⟩
  let c := s.chip
  s.chip.locked = false ∧ c.reaches who = true ∧ c.dieOn (stDie st) = true := by decide +kernel
theorem wit_register_accesses_keep_rules_3 :
  let who : Src := .firmware
  let d : CDie := 6
  let s : State := ⟨[], { pwr := {} }⟩
  let c := s.chip
  s.chip.locked = false ∧ c.reaches who = true ∧ c.dieOn (d + 1) = true := by decide +kernel
theorem wit_register_accesses_keep_rules_4 :
  let who : Src := .firmware
  let d : CDie := 6
  let s : State := ⟨[], { pwr := {} }⟩
  let c := s.chip
  s.chip.locked = false ∧ c.reaches who = true ∧ c.dieOn (d + 1) = true := by decide +kernel
theorem wit_register_accesses_keep_rules_5 :
  let who : Src := .firmware
  let d : Die := 7
  let s : State := {}
  let c := s.chip
  s.chip.locked = false ∧ c.reaches who = true ∧ c.dieOn d = true := by decide +kernel
theorem wit_register_accesses_keep_rules_6 :
  let who : Src := .firmware
  let d : Die := 7
  let off : BitVec 24 := BitVec.ofNat 24 sramBlk
  let s : State := ⟨[], { regs := regsOf [(7, sramBlk, 7)] }⟩
  let c := s.chip
  s.chip.locked = false ∧ c.reaches who = true ∧ c.dieOn d = true ∧ isW1c d off.toNat = true ∧ off.toNat % 4 = 0 := by decide +kernel
theorem wit_register_accesses_keep_rules_7 :
  let who : Src := .firmware
  let width := 2
  let s : State := ⟨[], { regs := regsOf [(7, sramBlk, 7)] }⟩
  let c := s.chip
  s.chip.locked = false ∧ c.reaches who = true ∧ width ≠ 4 := by decide +kernel
theorem wit_register_accesses_keep_rules_8 :
  let who : Src := .firmware
  let d : Die := 7
  let off : BitVec 24 := 1
  let s : State := ⟨[], { regs := regsOf [(7, sramBlk, 7)] }⟩
  let c := s.chip
  let o := off.toNat
  s.chip.locked = false ∧ c.reaches who = true ∧ (o % 4 ≠ 0 ∨ c.dieOn d = false) := by decide +kernel
theorem wit_register_accesses_keep_rules_9 :
  let who : Src := .firmware
  let d : Die := 7
  let off : BitVec 24 := BitVec.ofNat 24 sramBlk
  let s : State := ⟨[], { regs := regsOf [(7, sramBlk, 7)] }⟩
  let c := s.chip
  let o := off.toNat
  s.chip.locked = false ∧ c.reaches who = true ∧ o % 4 = 0 ∧ c.dieOn d = true := by decide +kernel
theorem wit_register_accesses_keep_rules_9_clear :
  let who : Src := .firmware
  let d : Die := 0
  let off : BitVec 24 := BitVec.ofNat 24 fcBlk
  let s : State := ⟨[], { regs := regsOf [(0, fcBlk, 16)] }⟩
  let c := s.chip
  let o := off.toNat
  s.chip.locked = false ∧ c.reaches who = true ∧ o % 4 = 0 ∧ c.dieOn d = true := by decide +kernel
theorem wit_register_accesses_keep_rules_10 :
  let who : Src := .firmware
  let width := 1
  let s : State := {}
  let c := s.chip
  s.chip.locked = false ∧ c.reaches who = true ∧ width ≠ 4 := by decide +kernel
theorem wit_register_accesses_keep_rules_11 :
  let who : Src := .firmware
  let d : Die := 0
  let off : BitVec 24 := 2
  let s : State := {}
  let c := s.chip
  let o := off.toNat
  s.chip.locked = false ∧ c.reaches who = true ∧ (o % 4 ≠ 0 ∨ c.dieOn d = false) := by decide +kernel
theorem wit_register_accesses_keep_rules_12 :
  let who : Src := .firmware
  let d : Die := 0
  let off : BitVec 24 := BitVec.ofNat 24 (timeBlk + 0x24)
  let s : State := {}
  let c := s.chip
  let o := off.toNat
  let inTs := d.val = 0 ∧ timeBlk + 0x24 ≤ o ∧ o < timeBlk + 0x54 ∧ (o - timeBlk - 0x24) % 0xC = 0
  s.chip.locked = false ∧ c.reaches who = true ∧ o % 4 = 0 ∧ c.dieOn d = true ∧ inTs := by decide +kernel
theorem wit_register_accesses_keep_rules_13 :
  let who : Src := .firmware
  let d : Die := 0
  let off : BitVec 24 := BitVec.ofNat 24 timeBlk
  let s : State := {}
  let c := s.chip
  let o := off.toNat
  let inTs := d.val = 0 ∧ timeBlk + 0x24 ≤ o ∧ o < timeBlk + 0x54 ∧ (o - timeBlk - 0x24) % 0xC = 0
  s.chip.locked = false ∧ c.reaches who = true ∧ o % 4 = 0 ∧ c.dieOn d = true ∧ ¬inTs ∧ isLow d o = true := by decide +kernel
theorem wit_register_accesses_keep_rules_14 :
  let who : Src := .firmware
  let d : Die := 0
  let off : BitVec 24 := BitVec.ofNat 24 (tsBlk + 0x10)
  let s : State := {}
  let c := s.chip
  let o := off.toNat
  let inTs := d.val = 0 ∧ timeBlk + 0x24 ≤ o ∧ o < timeBlk + 0x54 ∧ (o - timeBlk - 0x24) % 0xC = 0
  s.chip.locked = false ∧ c.reaches who = true ∧ o % 4 = 0 ∧ c.dieOn d = true ∧ ¬inTs ∧ isLow d o = false := by decide +kernel
theorem wit_register_accesses_keep_rules_15 :
  let who : Src := .firmware
  let d : CDie := 6
  let k : CoreIx := 0
  let off : BitVec 24 := 0x100000
  let s : State := {}
  let c := s.chip
  let no := mayDrain who = false ∨ c.coreHolds (d + 1) k = true ∨ c.dieOn (d + 1) = false ∨ 0x100000 ≤ off.toNat
  s.chip.locked = false ∧ c.reaches who = true ∧ c.pwrState ≠ 2 ∧ no := by decide +kernel
theorem wit_register_accesses_keep_rules_16 :
  let who : Src := .firmware
  let d : CDie := 6
  let k : CoreIx := 0
  let off : BitVec 24 := 0
  let s : State := {}
  let c := s.chip
  let no := mayDrain who = false ∨ c.coreHolds (d + 1) k = true ∨ c.dieOn (d + 1) = false ∨ 0x100000 ≤ off.toNat
  s.chip.locked = false ∧ c.reaches who = true ∧ c.pwrState ≠ 2 ∧ ¬no := by decide +kernel
theorem wit_stores_touch_only_their_bytes_0 :
  let d : CDie := 6
  let k : CoreIx := 0
  let flts : LaneFaults := []
  let f : Flight := ⟨{ tag := 3 }, { desc := 0, wts := [{ arr := 0, data := [] }] }⟩
  let rest : List Flight := []
  let a := 5
  let s : State := ⟨[], { cmp := { mx := [(coreStn 7 0 0, { pipe := [f] })] } }⟩
  let t : State := match exec (.mxRowWrite d k flts) s with | .next t => t | _ => s
  exec (.mxRowWrite d k flts) s = .next t ∧ (s.chip.mxOf (coreStn (d + 1) k 0)).pipe = f :: rest ∧ (∀ w ∈ f.pass.wts, a < rowAddr (d + 1) k w.arr f.vec.tag ∨ rowAddr (d + 1) k w.arr f.vec.tag + 256 ≤ a) := by exact ⟨(by rfl), by decide +kernel, by decide +kernel⟩
theorem wit_stores_touch_only_their_bytes_1 :
  let q : QNum := 7168
  let ups : Upsets := []
  let j : Nat := 0
  let o : OutTile := { k := 0, fmt := 3, h := 1, w := 1, c := 1, n := 1, data := [7#8] }
  let rest : List OutTile := []
  let r : Run := { desc := cmdOf 3 1 [(63, 56, 255), (75, 74, 1), (95, 80, 1), (156, 144, 7168)], ix := 0, task := 256, outs := [o], claims0 := 1 }
  let a := 5
  let s : State := ⟨[], { fab := { fabOf [(stKey 962 0, r)] with queues := [(7168, { slots := [(0, { st := .filling })], pseq := 16777215 })] }, regs := regsOf (qdRegs 7 (qdOf 962 (coreStn 7 0 2) 1 6)) }⟩
  let t : State := match exec (.slotFull q ups) s with | .next t => t | _ => s
  let x := s.chip.qdesc q
  let qu := s.chip.queue q
  let dep := max 1 (qDepth x)
  let i := (qu.claimIx + dep - qu.count .filling % dep) % dep
  exec (.slotFull q ups) s = .next t ∧ s.chip.filler (s.chip.keyOf (qProd x) (qPart x)) q = some (r, j) ∧ r.outsOf j = o :: rest ∧ (a < s.chip.slotAddr q i ∨ s.chip.slotAddr q i + 32 + o.data.length ≤ a) := by exact ⟨(by rfl), by decide +kernel, by decide +kernel, by decide +kernel⟩
theorem wit_stores_touch_only_their_bytes_2 :
  let st : Stn := 963
  let p : Part := 3
  let ups : Upsets := []
  let x : Store := { addr := dieBase 7 + cbBase 8, data := [1#8, 2#8] }
  let rest : List Store := []
  let r : Run := { desc := cmdOf 4 1 [(63, 56, 63)], ix := 0, task := 0, stores := [x] }
  let a := 5
  let s : State := ⟨[], { fab := fabOf [(stKey 963 0, r)] }⟩
  let t : State := match exec (.plainStoreAccept st p ups) s with | .next t => t | _ => s
  exec (.plainStoreAccept st p ups) s = .next t ∧ (s.chip.station (stKey st (if isXd st then p else 0))).runs.find? (fun r => !r.stores.isEmpty) = some r ∧ r.stores = x :: rest ∧ (a < x.addr ∨ x.addr + (if x.add then 4 else x.data.length) ≤ a) := by exact ⟨(by rfl), by decide +kernel, by decide +kernel, by decide +kernel⟩
theorem wit_stores_touch_only_their_bytes_3 :
  let st : Stn := 993
  let p : Part := 3
  let ups : Upsets := []
  let q : WReq := { die := 1, win := 63, off := 192, len := 64, wr := true, data := List.replicate 64 9#8 }
  let rest : List WReq := []
  let r : Run := { desc := cmdOf 6 1 [(63, 56, 63)], ix := 0, task := 0, reqs := [q] }
  let a := 5
  let s : State := ⟨[], { fab := fabOf [(stKey 993 3, r)], cfg := [⟨0x0702, [63, 3]⟩], regs := regsOf (winRegs 1 63 (dbBase) 256 14342) }⟩
  let t : State := match exec (.remoteRequestArrive st p ups) s with | .next t => t | _ => s
  exec (.remoteRequestArrive st p ups) s = .next t ∧ s.chip.asker (stKey st (if isXd st then p else 0)) = some (r, q, rest) ∧ (a < s.chip.winStart q.die q.win + q.off ∨ s.chip.winStart q.die q.win + q.off + q.data.length ≤ a) := by exact ⟨(by rfl), by decide +kernel, by decide +kernel⟩


end Sys2Proof.Tests
end

section
/-! The frame of every command (R6, R33): the guard and the operation of each command follow the chip that it began with (`Laws/Follows*.lean`), so that a step keeps the addressed
stores canonical and a command leaves each part that `touches` does not name. -/
namespace Sys2Proof.Machine

/-- Command `i` answers a next state whose queue is as it was and whose chip keeps all that it must keep, when the parts that `i` touches are free to change. -/
def Framed (i : Instr) : Prop :=
  ∀ (z : Kept) (s : State), z.Follows s.chip → z.Free (touches i) → ∃ c, exec i s = .next (s.put c) ∧ z.Follows c

/-- Every command but a power-on reset, which starts the time bus anew, keeps its frame: its guard and its operation do. -/
theorem exec_framed {i : Instr} (hp : ∀ b l f, i ≠ .powerOnReset b l f) : Framed i := by
  intro z s hz hm
  cases i with
  | mxPass => exact ⟨_, rfl, Chip.work_follows _ hz fun _ h => Chip.mxPass_follows _ h hm⟩
  | mxPassBegin => exact ⟨_, rfl, Chip.work_follows _ hz fun _ h => Chip.mxPassBegin_follows _ _ h hm⟩
  | weightLoadDone => exact ⟨_, rfl, Chip.work_follows _ hz fun _ h => Chip.weightLoadDone_follows _ h hm⟩
  | mxVectorIssue => exact ⟨_, rfl, Chip.work_follows _ hz fun _ h => Chip.mxVectorIssue_follows _ h hm⟩
  | mxRowWrite => exact ⟨_, rfl, Chip.work_follows _ hz fun _ h => Chip.mxRowWrite_follows _ _ h hm⟩
  | wfConv => exact ⟨_, rfl, Chip.work_follows _ hz fun _ h => Chip.wfTake_follows _ _ h hm⟩
  | wfPool => exact ⟨_, rfl, Chip.work_follows _ hz fun _ h => Chip.wfTake_follows _ _ h hm⟩
  | wfVectorDeliver => exact ⟨_, rfl, Chip.work_follows _ hz fun _ h => Chip.wfVectorDeliver_follows _ _ h hm⟩
  | vxChain => exact ⟨_, rfl, Chip.work_follows _ hz fun _ h => Chip.vxChain_follows _ _ _ h hm⟩
  | vxRow => exact ⟨_, rfl, Chip.work_follows _ hz fun _ h => Chip.vxRow_follows _ _ h hm⟩
  | vxReduce => exact ⟨_, rfl, Chip.work_follows _ hz fun _ h => Chip.vxReduce_follows _ _ h hm⟩
  | vxGather => exact ⟨_, rfl, Chip.work_follows _ hz fun _ h => Chip.vxGather_follows _ _ h hm⟩
  | vxScatter => exact ⟨_, rfl, Chip.work_follows _ hz fun _ h => Chip.vxScatter_follows _ h hm⟩
  | vxScatadd => exact ⟨_, rfl, Chip.work_follows _ hz fun _ h => Chip.vxScatadd_follows _ _ h hm⟩
  | vxBlankcmp => exact ⟨_, rfl, Chip.work_follows _ hz fun _ h => Chip.vxBlankcmp_follows _ h hm⟩
  | vxDrainRead => exact ⟨_, rfl, Chip.work_follows _ hz fun _ h => Chip.vxDrainRead_follows _ _ h hm⟩
  | dmCopy => exact ⟨_, rfl, Chip.work_follows _ hz fun _ h => Chip.dmCopy_follows _ _ h hm⟩
  | dmLoad => exact ⟨_, rfl, Chip.work_follows _ hz fun _ h => Chip.dmLoad_follows _ _ h hm⟩
  | dmStore => exact ⟨_, rfl, Chip.work_follows _ hz fun _ h => Chip.dmStore_follows _ h hm⟩
  | bxNms => exact ⟨_, rfl, Chip.work_follows _ hz fun _ h => Chip.bxNms_follows _ h hm⟩
  | xdPut => exact ⟨_, rfl, Chip.work_follows _ hz fun _ h => Chip.xdPut_follows _ _ h hm⟩
  | xdGet => exact ⟨_, rfl, Chip.work_follows _ hz fun _ h => Chip.xdGet_follows _ h hm⟩
  | xdBcast => exact ⟨_, rfl, Chip.work_follows _ hz fun _ h => Chip.collective_follows _ _ _ _ h hm⟩
  | xdAllgather => exact ⟨_, rfl, Chip.work_follows _ hz fun _ h => Chip.collective_follows _ _ _ _ h hm⟩
  | xdRedscat => exact ⟨_, rfl, Chip.work_follows _ hz fun _ h => Chip.collective_follows _ _ _ _ h hm⟩
  | xdAllreduce => exact ⟨_, rfl, Chip.work_follows _ hz fun _ h => Chip.collective_follows _ _ _ _ h hm⟩
  | xdWopen => exact ⟨_, rfl, Chip.work_follows _ hz fun _ h => Chip.xdWopen_follows _ h hm⟩
  | xdWclose => exact ⟨_, rfl, Chip.work_follows _ hz fun _ h => Chip.xdWclose_follows _ h hm⟩
  | xdWcloseComplete => exact ⟨_, rfl, Chip.work_follows _ hz fun _ h => Chip.xdWcloseComplete_follows _ h hm⟩
  | siRun => exact ⟨_, rfl, Chip.work_follows _ hz fun _ h => Chip.siRun_follows _ h hm⟩
  | egMsg => exact ⟨_, rfl, Chip.work_follows _ hz fun _ h => Chip.egMsg_follows _ _ h hm⟩
  | soFrame => exact ⟨_, rfl, Chip.work_follows _ hz fun _ h => Chip.soFrame_follows _ h hm⟩
  | soFrameStart => exact ⟨_, rfl, Chip.work_follows _ hz fun _ h => Chip.soStart_follows _ h hm⟩
  | commandStart => exact ⟨_, rfl, Chip.work_follows _ hz fun _ h => Chip.commandStart_follows _ _ h hm⟩
  | commandComplete => exact ⟨_, rfl, Chip.work_follows _ hz fun _ h => Chip.commandComplete_follows _ h hm⟩
  | slotClaim => exact ⟨_, rfl, Chip.work_follows _ hz fun _ h => Chip.slotClaim_follows _ h hm⟩
  | slotFull => exact ⟨_, rfl, Chip.work_follows _ hz fun _ h => Chip.slotFull_follows _ _ h hm⟩
  | slotAcquire => exact ⟨_, rfl, Chip.work_follows _ hz fun _ h => Chip.slotAcquire_follows _ _ h hm⟩
  | slotRelease => exact ⟨_, rfl, Chip.work_follows _ hz fun _ h => Chip.slotRelease_follows _ h hm⟩
  | creditFlitSend => exact ⟨_, rfl, Chip.work_follows _ hz fun _ h => Chip.creditFlitSend_follows _ h hm⟩
  | creditFlitArrive => exact ⟨_, rfl, Chip.work_follows _ hz fun _ h => Chip.creditFlitArrive_follows _ _ h hm⟩
  | plainStoreAccept => exact ⟨_, rfl, Chip.work_follows _ hz fun _ h => Chip.plainStoreAccept_follows _ _ h hm⟩
  | sramCeWriteback => exact ⟨_, rfl, Chip.hsd_follows _ _ hz fun _ h => Chip.sramWriteback_follows _ h hm⟩
  | sramScrubRead => exact ⟨_, rfl, Chip.hsd_follows _ _ hz fun _ h => Chip.sramScrub_follows _ _ _ h hm⟩
  | sramScrubForced => exact ⟨_, rfl, Chip.hsd_follows _ _ hz fun _ h => Chip.sramScrubForced_follows _ _ _ h hm⟩
  | remoteRequestArrive => exact ⟨_, rfl, Chip.live_follows _ hz fun _ h => Chip.remoteRequestArrive_follows _ _ h hm⟩
  | remoteStatusReturn => exact ⟨_, rfl, Chip.live_follows _ hz fun _ h => Chip.remoteStatusReturn_follows _ h hm⟩
  | ddrRequest => exact ⟨_, rfl, Chip.live_follows _ hz fun _ h => Chip.ddrRequest_follows _ _ _ h hm⟩
  | ddrRefreshDue => exact ⟨_, rfl, Chip.live_follows _ hz fun _ h => Chip.ddrRefresh_follows _ _ _ h hm⟩
  | mr4Read => exact ⟨_, rfl, Chip.live_follows _ hz fun _ h => Chip.mr4Read_follows _ _ _ _ _ h hm⟩
  | rfmIssue => exact ⟨_, rfl, Chip.live_follows _ hz fun _ h => Chip.rfm_follows _ _ _ h hm⟩
  | dqsOscCheck => exact ⟨_, rfl, Chip.live_follows _ hz fun _ h => Chip.dqsCheck_follows _ _ _ _ _ h hm⟩
  | ddrPatrolScrub => exact ⟨_, rfl, Chip.live_follows _ hz fun _ h => Chip.patrolScrub_follows _ _ _ h hm⟩
  | resWindowEnd => exact ⟨_, rfl, Chip.live_follows _ hz fun _ h => Chip.resWindowEnd_follows _ _ h hm⟩
  | flitReceive => exact ⟨_, rfl, Chip.live_follows _ hz fun _ h => Chip.flitReceive_follows _ _ _ h hm⟩
  | ackTimer => exact ⟨_, rfl, Chip.live_follows _ hz fun _ h => Chip.ackTimer_follows _ _ h hm⟩
  | nakReceive => exact ⟨_, rfl, Chip.live_follows _ hz fun _ h => Chip.nakReceive_follows _ _ _ h hm⟩
  | moduleRetrain => exact ⟨_, rfl, Chip.live_follows _ hz fun _ h => Chip.moduleRetrain_follows _ _ h hm⟩
  | retrainDone => exact ⟨_, rfl, Chip.live_follows _ hz fun _ h => Chip.retrainDone_follows _ _ _ _ h hm⟩
  | digestTrailerArrive => exact ⟨_, rfl, Chip.live_follows _ hz fun _ h => Chip.trailerArrive_follows _ _ _ _ h hm⟩
  | tallyArrive => exact ⟨_, rfl, Chip.live_follows _ hz fun _ h => Chip.tallyArrive_follows _ _ _ _ h hm⟩
  | frameStartPacket => exact ⟨_, rfl, Chip.work_follows _ hz fun _ h => Chip.frameStart_follows _ _ _ _ _ _ (Chip.packet_follows _ _ _ h (hm.sub rfl)) hm⟩
  | csiLinePacket => exact ⟨_, rfl, Chip.work_follows _ hz fun _ h => Chip.csiLine_follows _ _ _ _ _ _ (Chip.packet_follows _ _ _ h (hm.sub rfl)) hm⟩
  | embeddedDataPacket => exact ⟨_, rfl, Chip.work_follows _ hz fun _ h => Chip.embedded_follows _ _ _ _ _ (Chip.packet_follows _ _ _ h (hm.sub rfl)) hm⟩
  | frameEndPacket => exact ⟨_, rfl, Chip.work_follows _ hz fun _ h => Chip.frameEnd_follows _ _ _ (Chip.packet_follows _ _ _ h (hm.sub rfl)) hm⟩
  | ingestWrite => exact ⟨_, rfl, Chip.work_follows _ hz fun _ h => Chip.ingestWrite_follows _ _ h hm⟩
  | entryWritten => exact ⟨_, rfl, Chip.work_follows _ hz fun _ h => Chip.entryWritten_follows _ _ h hm⟩
  | frameSyncLaunch => exact ⟨_, rfl, Chip.work_follows _ hz fun _ h => Chip.syncLaunch_follows _ _ h hm⟩
  | pocSample => exact ⟨_, rfl, Chip.live_follows _ hz fun _ h => Chip.pocSample_follows _ _ h hm⟩
  | pocRetry => exact ⟨_, rfl, Chip.live_follows _ hz fun _ h => Chip.pocRetry_follows _ h hm⟩
  | eyeMarginCheck => exact ⟨_, rfl, Chip.live_follows _ hz fun _ h => Chip.eyeCheck_follows _ _ h hm⟩
  | ethFrameReceive => exact ⟨_, rfl, Chip.onPort_follows _ _ hz fun _ h => Chip.ethReceive_follows _ _ _ h hm⟩
  | lidarWindowEnd => exact ⟨_, rfl, Chip.work_follows _ hz fun _ h => Chip.lidarEnd_follows _ h hm⟩
  | tqFrameStart => exact ⟨_, rfl, Chip.onPort_follows _ _ hz fun _ h => Chip.tqStart_follows _ h hm⟩
  | tq1Launch => exact ⟨_, rfl, Chip.onPort_follows _ _ hz fun _ h => Chip.tq1Launch_follows _ h hm⟩
  | macsecRekey => exact ⟨_, rfl, Chip.onPort_follows _ _ hz fun _ h => Chip.rekey_follows _ h hm⟩
  | sqiRead => exact ⟨_, rfl, Chip.onPort_follows _ _ hz fun _ h => Chip.sqiRead_follows _ _ h hm⟩
  | linkDrop => exact ⟨_, rfl, Chip.onPort_follows _ _ hz fun _ h => Chip.linkDrop_follows _ h hm⟩
  | ptpSyncReceive => exact ⟨_, rfl, Chip.onPort_follows _ _ hz fun _ h => Chip.syncReceive_follows _ _ _ h hm⟩
  | adjSlew => exact ⟨_, rfl, Chip.awake_follows _ hz fun _ h => Chip.adjSlew_follows h hm⟩
  | syncTimeout => exact ⟨_, rfl, Chip.awake_follows _ hz fun _ h => Chip.syncTimeout_follows h hm⟩
  | ptpSyncSend => exact ⟨_, rfl, Chip.onPort_follows _ _ hz fun _ h => Chip.syncSend_follows _ h hm⟩
  | pdelayExchange => exact ⟨_, rfl, Chip.onPort_follows _ _ hz fun _ h => Chip.pdelay_follows _ _ h hm⟩
  | announceSend => exact ⟨_, rfl, Chip.onPort_follows _ _ hz fun _ h => Chip.announce_follows _ h hm⟩
  | tsInEdge => exact ⟨_, rfl, Chip.tsIn_follows _ _ _ _ hz hm⟩
  | tsinDataLoRead => exact ⟨_, rfl, Chip.awake_follows _ hz fun _ h => Chip.tsInRead_follows _ _ h hm⟩
  | tsOutEdge => exact ⟨_, rfl, Chip.tsOutEdge_follows _ hz hm⟩
  | ppsEdge => exact ⟨_, rfl, Chip.ppsEdge_follows hz hm⟩
  | turnBoundary => exact ⟨_, rfl, Chip.awake_follows _ hz fun _ h => Chip.turnBoundary_follows _ h hm⟩
  | taskRelease => exact ⟨_, rfl, Chip.work_follows _ hz fun _ h => Chip.taskRelease_follows _ h hm⟩
  | blankSlotStart => exact ⟨_, rfl, Chip.work_follows _ hz fun _ h => Chip.slotStart_follows h hm⟩
  | blankSlotEnd => exact ⟨_, rfl, Chip.work_follows _ hz fun _ h => Chip.slotEnd_follows h hm⟩
  | blankVerdict => exact ⟨_, rfl, Chip.work_follows _ hz fun _ h => Chip.blankVerdict_follows _ h hm⟩
  | budgetExpiry => exact ⟨_, rfl, Chip.work_follows _ hz fun _ h => Chip.budgetExpiry_follows _ _ h hm⟩
  | deadlineExpiry => exact ⟨_, rfl, Chip.work_follows _ hz fun _ h => Chip.deadlineExpiry_follows _ h hm⟩
  | stationResetByCarver => exact ⟨_, rfl, Chip.live_follows _ hz fun _ h => Chip.carverReset_follows _ h hm⟩
  | selftestSegmentDone => exact ⟨_, rfl, Chip.live_follows _ hz fun _ h => Chip.segmentDone_follows _ _ _ h hm⟩
  | clockWindow => exact ⟨_, rfl, Chip.live_follows _ hz fun _ h => Chip.clockWindow_follows _ _ _ _ h hm⟩
  | gateDecision => exact ⟨_, rfl, Chip.awake_follows _ hz fun _ h => Chip.gateDecide_follows _ h hm⟩
  | resultLaunch => exact ⟨_, rfl, Chip.awake_follows _ hz fun _ h => Chip.resultLaunch_follows _ h hm⟩
  | errorLineLatch => exact ⟨_, rfl, Chip.errorLatch_follows _ _ hz hm⟩
  | faultRecordWritten => exact ⟨_, rfl, Chip.recordWritten_follows hz hm⟩
  | reportResend => exact ⟨_, rfl, Chip.resend_follows hz hm⟩
  | fcEscalate => exact ⟨_, rfl, Chip.awake_follows _ hz fun _ h => Chip.fcEscalate_follows _ _ _ h hm⟩
  | fswClear => exact ⟨_, rfl, Chip.awake_follows _ hz fun _ h => Chip.fswClear_follows _ _ h hm⟩
  | fltReadback => exact ⟨_, rfl, Chip.readback_follows _ _ hz hm⟩
  | lockstepMismatch => exact ⟨_, rfl, Chip.awake_follows _ hz fun _ h => Chip.lsMismatch_follows _ h hm⟩
  | lockstepVerdict => exact ⟨_, rfl, Chip.awake_follows _ hz fun _ h => Chip.lsVerdict_follows _ _ h hm⟩
  | agreementRead => exact ⟨_, rfl, Chip.awake_follows _ hz fun _ h => Chip.agreement_follows _ _ _ h hm⟩
  | debugHalt => exact ⟨_, rfl, Chip.awake_follows _ hz fun _ h => Chip.debugHalt_follows _ h hm⟩
  | sspCsFall => exact ⟨_, rfl, Chip.sspFall_follows hz hm⟩
  | sspChallenge => exact ⟨_, rfl, Chip.sspChallenge_follows _ hz hm⟩
  | wdResponseReady => exact ⟨_, rfl, Chip.wdReady_follows hz hm⟩
  | powerOnReset b l f => exact absurd rfl (hp b l f)
  | warmReset => exact ⟨_, rfl, Chip.warmStart_follows _ _ hz (hm.sub rfl)⟩
  | startTurns => exact ⟨_, rfl, Chip.awake_follows _ hz fun _ h => Chip.startTurns_follows h hm⟩
  | hello => exact ⟨_, rfl, Chip.onPort_follows _ _ hz fun _ h => Chip.hello_follows _ h hm⟩
  | bye => exact ⟨_, rfl, Chip.onPort_follows _ _ hz fun _ h => Chip.bye_follows _ h hm⟩
  | mgmtOpen => exact ⟨_, rfl, Chip.onPort_follows _ _ hz fun _ h => Chip.mgmtOpen_follows _ h hm⟩
  | mgmtAuth => exact ⟨_, rfl, Chip.onPort_follows _ _ hz fun _ h => Chip.mgmtAuth_follows _ _ h hm⟩
  | mgmtAuthTimeout => exact ⟨_, rfl, Chip.awake_follows _ hz fun _ h => Chip.authTimeout_follows _ h hm⟩
  | mgmtSessionTimeout => exact ⟨_, rfl, Chip.awake_follows _ hz fun _ h => Chip.sessTimeout_follows _ h hm⟩
  | counterReadStation => exact ⟨_, rfl, Chip.onPort_follows _ _ hz fun _ h => Chip.counterRead_follows _ _ _ _ h hm⟩
  | counterReadShadow => exact ⟨_, rfl, Chip.onPort_follows _ _ hz fun _ h => Chip.counterRead_follows _ _ _ _ h hm⟩
  | counterReadAlwaysOn => exact ⟨_, rfl, Chip.onPort_follows _ _ hz fun _ h => Chip.counterAo_follows _ h hm⟩
  | traceSubscribe => exact ⟨_, rfl, Chip.onPort_follows _ _ hz fun _ h => Chip.traceSubscribe_follows _ h hm⟩
  | traceStop => exact ⟨_, rfl, Chip.onPort_follows _ _ hz fun _ h => Chip.traceStop_follows _ h hm⟩
  | traceRecordsSend => exact ⟨_, rfl, Chip.awake_follows _ hz fun _ h => Chip.traceSend_follows h hm⟩
  | regRead => exact ⟨_, rfl, Chip.onPort_follows _ _ hz fun _ h => Chip.regReadMsg_follows _ _ h hm⟩
  | regWrite => exact ⟨_, rfl, Chip.onPort_follows _ _ hz fun _ h => Chip.regWriteMsg_follows _ h hm⟩
  | faultClear => exact ⟨_, rfl, Chip.onPort_follows _ _ hz fun _ h => Chip.faultClearMsg_follows _ h hm⟩
  | timeStep => exact ⟨_, rfl, Chip.onPort_follows _ _ hz fun _ h => Chip.timeStepMsg_follows _ h hm⟩
  | pocSwitch => exact ⟨_, rfl, Chip.onPort_follows _ _ hz fun _ h => Chip.pocSwitchMsg_follows _ h hm⟩
  | dumpReq => exact ⟨_, rfl, Chip.onPort_follows _ _ hz fun _ h => Chip.dumpReq_follows _ h hm⟩
  | dumpSend => exact ⟨_, rfl, Chip.awake_follows _ hz fun _ h => Chip.dumpSend_follows _ h hm⟩
  | xferBegin => exact ⟨_, rfl, Chip.onPort_follows _ _ hz fun _ h => Chip.xferBegin_follows _ h hm⟩
  | xferData => exact ⟨_, rfl, Chip.onPort_follows _ _ hz fun _ h => Chip.xferData_follows _ h hm⟩
  | xferEnd => exact ⟨_, rfl, Chip.onPort_follows _ _ hz fun _ h => Chip.xferEnd_follows _ _ h hm⟩
  | attestReq => exact ⟨_, rfl, Chip.onPort_follows _ _ hz fun _ h => Chip.attest_follows _ h hm⟩
  | keyRevoke => exact ⟨_, rfl, Chip.onPort_follows _ _ hz fun _ h => Chip.keyRevoke_follows _ _ h hm⟩
  | recordAck => exact ⟨_, rfl, Chip.onPort_follows _ _ hz fun _ h => Chip.recordAck_follows _ h hm⟩
  | pwrReqIdle => exact ⟨_, rfl, Chip.awake_follows _ hz fun _ h => Chip.askQuiet_follows _ _ h hm⟩
  | pwrReqPark => exact ⟨_, rfl, Chip.awake_follows _ hz fun _ h => Chip.askQuiet_follows _ _ h hm⟩
  | pwrReqActive => exact ⟨_, rfl, Chip.awake_follows _ hz fun _ h => Chip.askActive_follows _ h hm⟩
  | domainGoodTimeout => exact ⟨_, rfl, Chip.awake_follows _ hz fun _ h => Chip.domTimeout_follows _ h hm⟩
  | rstReqPartition => exact ⟨_, rfl, Chip.awake_follows _ hz fun _ h => Chip.askPartReset_follows _ _ h hm⟩
  | rstReqStation => exact ⟨_, rfl, Chip.awake_follows _ hz fun _ h => Chip.askStationReset_follows _ _ h hm⟩
  | undervoltage => exact ⟨_, rfl, Chip.supplyTrip_follows _ hz hm⟩
  | overvoltage => exact ⟨_, rfl, Chip.supplyTrip_follows _ hz hm⟩
  | refclkFail => exact ⟨_, rfl, Chip.monitor_follows _ _ _ hz hm⟩
  | islandClockFail => exact ⟨_, rfl, Chip.monitor_follows _ _ _ hz hm⟩
  | thermalTrip => exact ⟨_, rfl, Chip.thermalTrip_follows _ _ hz hm⟩
  | thermalWarning => exact ⟨_, rfl, Chip.warm_follows _ _ hz hm⟩
  | ageingRead => exact ⟨_, rfl, Chip.live_follows _ hz fun _ h => Chip.ageing_follows _ _ _ h hm⟩
  | pmbusPoll => exact ⟨_, rfl, Chip.awake_follows _ hz fun _ h => Chip.pmPoll_follows _ h hm⟩
  | pmAlert => exact ⟨_, rfl, Chip.awake_follows _ hz fun _ h => Chip.pmAlert_follows _ h hm⟩
  | splockPin => exact ⟨_, rfl, follows_ite (Chip.spLock_follows _ _ hz hm) hz⟩
  | splArmAtTurn => exact ⟨_, rfl, Chip.awake_follows _ hz fun _ h => Chip.armTurn_follows _ _ h hm⟩
  | splArmOnBit => exact ⟨_, rfl, Chip.awake_follows _ hz fun _ h => Chip.arm_follows _ _ _ h hm⟩
  | splArmNow => exact ⟨_, rfl, Chip.awake_follows _ hz fun _ h => Chip.arm_follows _ _ _ h hm⟩
  | debugScanRead => exact ⟨_, rfl, Chip.scan_follows _ hz hm⟩
  | qdescWrite => exact ⟨_, rfl, Chip.awake_follows _ hz fun _ h => Chip.writeReg_follows _ _ _ _ h hm⟩
  | stCmdRegWrite => exact ⟨_, rfl, Chip.awake_follows _ hz fun _ h => Chip.writeReg_follows _ _ _ _ h hm⟩
  | mxInject => exact ⟨_, rfl, Chip.awake_follows _ hz fun _ h => Chip.writeReg_follows _ _ _ _ h hm⟩
  | dpuMapWrite => exact ⟨_, rfl, Chip.awake_follows _ hz fun _ h => Chip.writeReg_follows _ _ _ _ h hm⟩
  | taskEntryWrite => exact ⟨_, rfl, Chip.awake_follows _ hz fun _ h => Chip.writeReg_follows _ _ _ _ h hm⟩
  | w1cStatusClear => exact ⟨_, rfl, Chip.awake_follows _ hz fun _ h => Chip.writeReg_follows _ _ _ _ h hm⟩
  | lowWordRead => exact ⟨_, rfl, Chip.awake_follows _ hz fun _ h => Chip.lowRead_follows _ _ _ _ h hm⟩
  | drainStoreFwRead => exact ⟨_, rfl, Chip.live_follows _ hz fun _ h => Chip.dsRead_follows _ _ _ _ _ h hm⟩
  | registerWrite => exact ⟨_, rfl, Chip.awake_follows _ hz fun _ h => Chip.registerWrite_follows _ _ _ _ _ h hm⟩
  | headstockPeriodicTest => exact ⟨_, rfl, Chip.awake_follows _ hz fun _ h => Chip.periodicTest_follows _ h hm⟩
  | sensorLinkLost => exact ⟨_, rfl, Chip.live_follows _ hz fun _ h => Chip.sensorLost_follows _ h hm⟩
  | linkUp => exact ⟨_, rfl, Chip.onPort_follows _ _ hz fun _ h => Chip.linkIsUp_follows _ h hm⟩
  | thermalWarningEnd => exact ⟨_, rfl, Chip.cool_follows _ hz hm⟩
  | updateWritten => exact ⟨_, rfl, Chip.awake_follows _ hz fun _ h => Chip.updWritten_follows _ h hm⟩
  | stateMoveEnd => exact ⟨_, rfl, Chip.awake_follows _ hz fun _ h => Chip.endMove_follows _ h hm⟩
  | debugUnlock => exact ⟨_, rfl, Chip.unlock_follows _ hz hm⟩

/-- What a command does: a power-on reset starts the chip anew; after any other the chip keeps every part that the command does not touch. The queue stays as it was. -/
theorem exec_cases {i : Instr} {s t : State} (h : exec i s = .next t) :
    t.pending = s.pending ∧ ((∃ b l f, i = .powerOnReset b l f ∧ t.chip = s.chip.powerOn b l f) ∨ (Kept.but (touches i) s.chip).Follows t.chip) := by
  by_cases hp : ∃ b l f, i = .powerOnReset b l f
  · obtain ⟨b, l, f, rfl⟩ := hp
    obtain rfl : s.put (s.chip.powerOn b l f) = t := Host.Outcome.next.inj h
    exact ⟨rfl, .inl ⟨b, l, f, rfl, rfl⟩⟩
  · obtain ⟨c, hc, hf⟩ := exec_framed (fun b l f e => hp ⟨b, l, f, e⟩) _ s (Kept.but_follows (touches i) s.chip) (Kept.but_free _ _)
    obtain rfl : s.put c = t := Host.Outcome.next.inj (hc.symm.trans h)
    exact ⟨rfl, .inr hf⟩

/-- A command keeps the canonical form of every addressed store. -/
theorem exec_canon {i : Instr} {s t : State} (hs : s.chip.canon) (h : exec i s = .next t) : t.chip.canon := by
  obtain ⟨-, ⟨b, l, f, -, ht⟩ | hf⟩ := exec_cases h
  · rw [ht]
    exact (s.chip.powerOn_keeps b l f).1 hs
  · exact hf.canon hs

theorem Comp.mem_all (x : Comp) : x ∈ Comp.all := by cases x <;> decide

/-- A part that a command does not touch stays; a power-on reset may touch every part. -/
theorem exec_same {i : Instr} {s t : State} {x : Comp} (h : exec i s = .next t) (hx : x ∉ touches i) : s.chip.same x t.chip := by
  obtain ⟨-, ⟨b, l, f, rfl, -⟩ | hf⟩ := exec_cases h
  · exact absurd x.mem_all hx
  · exact hf.same x (by simp [Kept.but, hx])

/-- A step lets one tick pass or runs the command at the front of the queue. -/
theorem step_cases {s t : State} (h : step s = .next t) :
    (s.pending = [] ∧ t = idle s) ∨ ∃ i rest, s.pending = i :: rest ∧ exec i { s with pending := rest } = .next t := by
  unfold step at h
  split at h
  · exact .inl ⟨‹_›, (Host.Outcome.next.inj h).symm⟩
  · exact .inr ⟨_, _, ‹_›, h⟩

/-- Settles O4: a tick changes no store, and every command keeps the canonical form by `exec_canon`. -/
theorem everyStepKeepsCanon : Obligations.EveryStepKeepsCanon := by
  intro s t hs h
  obtain ⟨-, rfl⟩ | ⟨i, rest, -, hi⟩ := step_cases h
  · exact hs
  · exact exec_canon (s := { s with pending := rest }) hs hi

/-- Settles O7: each command's operation follows the old chip in every part outside `touches`. -/
theorem commandsTouchOnlyTheirParts : Obligations.CommandsTouchOnlyTheirParts :=
  fun _ _ _ h => ⟨(exec_cases h).1, fun _ _ hx => exec_same h hx⟩

end Sys2Proof.Machine
end

section
/-! The guards of commands (R491, R502): what a guarded command answers when nothing holds it back. -/
namespace Sys2Proof.Machine

/-- Equal chips give equal next states. -/
theorem next_put {s : State} {c d : Chip} (h : c = d) : (.next (s.put c) : Host.Outcome State Fault Refusal) = .next (s.put d) := by rw [h]

/-- What firmware and the ports do while no spindle lock holds (R491). -/
theorem Chip.awake_unlocked {c : Chip} (f : Chip → Chip) (h : c.locked = false) : c.awake f = f c := by simp [Chip.awake, h]

/-- What memory and the links do while no spindle lock holds, outside PARK (R491, R502). -/
theorem Chip.live_unlocked {c : Chip} (f : Chip → Chip) (h : c.locked = false) (hp : c.pwrState ≠ 2) : c.live f = f c := by simp [Chip.live, h, hp]

/-- A command of firmware and the ports while no spindle lock holds. -/
theorem next_awake {s : State} {f : Chip → Chip} {c : Chip} (hl : s.chip.locked = false) (h : f s.chip = c) :
    (.next (s.put (s.chip.awake f)) : Host.Outcome State Fault Refusal) = .next (s.put c) := next_put ((Chip.awake_unlocked f hl).trans h)

end Sys2Proof.Machine
end

section
/-! Writes of memory and of registers (R6, R200): a read after a write answers what was written at the written places and the old contents everywhere else. -/
namespace Sys2Proof.Machine

/-- A byte after a write: the written one inside the span, the old one outside it. -/
theorem tabGet_memWrite (m : List Host.Cell) (a : Nat) (b : Bytes) (x : Nat) :
    tabGet 0#8 (memWrite m a b) x = if a ≤ x ∧ x < a + b.length then b.getD (x - a) 0#8 else tabGet 0#8 m x := by
  induction b generalizing m a with
  | nil => simp [memWrite, show ¬ (a ≤ x ∧ x < a) by omega]
  | cons y b ih =>
    rw [memWrite, ih, tabGet_tabSet]
    obtain hx | rfl | hx := lt_trichotomy x a
    · simp [show ¬ (a + 1 ≤ x) by omega, show ¬ (a ≤ x) by omega, show x ≠ a by omega]
    · simp
    · obtain ⟨k, rfl⟩ : ∃ k, x = a + 1 + k := ⟨x - (a + 1), by omega⟩
      simp [show a + 1 + k - a = k + 1 by omega, show a + 1 + k ≠ a by omega, show a ≤ a + 1 + k by omega, show a + 1 + k < a + (b.length + 1) ↔ k < b.length by omega]

/-- A loop of steps that leave memory leaves memory. -/
theorem eachDo_mem {α : Type} {f : α → Chip → Chip} (hf : ∀ x c, (f x c).mem = c.mem) (l : List α) (c : Chip) : (eachDo l f c).mem = c.mem := by
  induction l generalizing c with
  | nil => rfl
  | cons x l ih => exact (ih (f x c)).trans (hf x c)

/-- What follows a chip in everything but parts other than memory has its memory. -/
theorem Kept.Follows.mem_eq {l : List Comp} {c d : Chip} (h : (Kept.but l c).Follows d) (hl : Comp.mem ∉ l) : d.mem = c.mem :=
  h.same .mem (by simp [Kept.but, hl])

theorem Chip.markLive_mem (c : Chip) (a n : Nat) : (c.markLive a n).mem = c.mem := by
  unfold Chip.markLive
  split <;> rfl

/-- What an access does beside the store of its bytes leaves memory as it is. -/
theorem Chip.write_mem (c : Chip) (a : Nat) (b : Bytes) (pois : List Nat) (who : Reader) (ups : Upsets) : (c.write a b pois who ups).mem = memWrite c.mem a b := by
  have hm := Kept.but_free [.regs, .ecc, .flt, .free] c
  have hpass := Chip.hsPass_follows who.st a true b (Kept.but_follows _ c) (hm.sub (by decide))
  have hacc := Chip.ddrAccess_follows none a b.length true (Chip.bank_follows who.st hpass (hm.sub (by decide))) (hm.sub (by decide))
  have hups := fun l : Upsets => follows_eachDo (fun u _ hk => Chip.upset_follows who u hk (hm.sub (by decide))) l hacc
  have hmarks : ∀ (w : Nat) (k : Chip),
      (if pois.any (fun o => (a + o) / 8 * 8 == w) then k.setPois w true else if a ≤ w ∧ w + 8 ≤ a + b.length then k.setPois w false else k).mem = k.mem := by
    intro w k
    split
    · rfl
    · split <;> rfl
  rw [Chip.write, eachDo_mem hmarks, Chip.markLive_mem]
  exact congrArg (memWrite · a b) ((hups _).mem_eq (by decide))

/-- A byte of memory after a write. -/
theorem Chip.byte_write (c : Chip) (a : Nat) (b : Bytes) (pois : List Nat) (who : Reader) (ups : Upsets) (x : Nat) :
    (c.write a b pois who ups).byte x = if a ≤ x ∧ x < a + b.length then b.getD (x - a) 0#8 else c.byte x := by
  rw [Chip.byte, Chip.write_mem, tabGet_memWrite, Chip.byte]

/-- Settles O8: a write stores its bytes and no others (`Chip.byte_write`), and registers of different keys are apart (`regKey_eq`). -/
theorem storesReadBack : Obligations.StoresReadBack := by
  intro c a b pois
  refine ⟨c.byte_write a b pois {} [], fun d off v e o hoff ho => ?_⟩
  rw [Chip.reg_setReg]
  simp only [regKey_eq hoff ho]

end Sys2Proof.Machine
end

section
/-! The timing pins (R5, R311, R312, R318): what an input edge, a read of an input FIFO and an output edge do, each by its cases. -/
namespace Sys2Proof.Machine

/-- A selected edge of 10 ns or more is lost within 200 ns of the one before it and while the FIFO is full, and else taken with the input delay off. -/
theorem Chip.tsIn_selected {c : Chip} {n : Nat} {rising : Bool} {ph pulse : Nat} (hsel : bit (c.timeRec (10 + n) 0) (if rising then 0 else 1) = true) (hp : 10 ≤ pulse) :
    c.tsIn n rising ph pulse =
      let t := c.tb.at c.tb.tick ph / 65536 - 157286
      let last := tabGet 0 c.net.lastIn n
      let fifo := tabGet [] c.net.tsIn n
      if last ≠ 0 ∧ t + 1 < last + 200 * 65536 then c.tsLost n
      else if 8 ≤ fifo.length then c.tsLost n
      else { c with net := { c.net with tsIn := tabSet [] c.net.tsIn n (fifo ++ [⟨t, rising⟩]), lastIn := tabSet 0 c.net.lastIn n (t + 1) } } := by
  simp [Chip.tsIn, hsel, show ¬ pulse < 10 by omega]

/-- A selected edge that finds room, 200 ns after the one before it, goes to the end of the pin's FIFO. -/
theorem Chip.tsIn_taken {c : Chip} {n : Nat} {rising : Bool} {ph pulse : Nat} (hsel : bit (c.timeRec (10 + n) 0) (if rising then 0 else 1) = true) (hp : 10 ≤ pulse)
    (hroom : (tabGet [] c.net.tsIn n).length < 8)
    (hgap : tabGet 0 c.net.lastIn n + 200 * 65536 ≤ c.tb.at c.tb.tick ph / 65536 - 157286 + 1 ∨ tabGet 0 c.net.lastIn n = 0) :
    tabGet [] (c.tsIn n rising ph pulse).net.tsIn n = tabGet [] c.net.tsIn n ++ [⟨c.tb.at c.tb.tick ph / 65536 - 157286, rising⟩] := by
  rw [Chip.tsIn_selected hsel hp]
  dsimp only
  rw [if_neg (by omega), if_neg (by omega), tabGet_tabSet_self]

/-- A selected edge that finds the FIFO full is counted as lost. -/
theorem Chip.tsIn_full {c : Chip} {n : Nat} {rising : Bool} {ph pulse : Nat} (hsel : bit (c.timeRec (10 + n) 0) (if rising then 0 else 1) = true) (hp : 10 ≤ pulse)
    (hfull : 8 ≤ (tabGet [] c.net.tsIn n).length) : c.tsIn n rising ph pulse = c.tsLost n := by
  rw [Chip.tsIn_selected hsel hp]
  dsimp only
  rw [if_pos hfull, ite_self]

/-- A read of an empty FIFO returns 0 and leaves the ports. -/
theorem Chip.tsInRead_nil {c : Chip} {n : Nat} {who : Src} (hr : c.reaches who = true) (he : tabGet [] c.net.tsIn n = []) :
    (c.tsInRead n who).obs.value = 0 ∧ (c.tsInRead n who).net = c.net := by
  simp [Chip.tsInRead, hr, he, Chip.latchWord, Chip.answer]

/-- A read of a FIFO pops its oldest entry, returns its low word and latches its high word. -/
theorem Chip.tsInRead_cons {c : Chip} {n : Nat} {who : Src} {e : TsIn} {rest : List TsIn} (hr : c.reaches who = true) (he : tabGet [] c.net.tsIn n = e :: rest) :
    (c.tsInRead n who).obs.value = e.ts / 65536 % 2 ^ 32 ∧ tabGet [] (c.tsInRead n who).net.tsIn n = rest ∧
      tabGet 0 (c.tsInRead n who).latch (srcNum who * 2 ^ 32 + regKey 0 (timeBlk + 0x24 + 0xC * n + 4)) = e.ts / 65536 / 2 ^ 32 % 2 ^ 32 + 1 := by
  have hkeys : ∀ k o, k + regKey 0 (o + 4) ≠ k + regKey 0 (o + 8) := fun k o => by simp only [regKey]; omega
  simp only [Chip.tsInRead, hr, he, Chip.latchWord, Chip.answer, Bool.not_true, Bool.false_eq_true, if_false, tabGet_tabSet_ne _ _ _ (hkeys _ _), tabGet_tabSet_self]
  exact ⟨trivial, trivial, trivial⟩

/-- A scheduled edge of an output pin: the next edge is due, the pin's level is the edge's, and the time base has reached its instant. -/
theorem Chip.tsOutEdge_on {c : Chip} {n : Nat} (h : c.tsRec n 1 = 1) (hs : c.net.silent = false) :
    let e := tabGet 0 c.net.tsOut n
    c.tsOutEdge n = { c.advanceTo (c.edgeNs n e) with net := { c.net with tsOut := tabSet 0 c.net.tsOut n (e + 1), tsHigh := tabSet false c.net.tsHigh n (e % 2 == 0) } } := by
  simp [Chip.tsOutEdge, h, hs]

/-- An edge of PPS toggles it at its instant. -/
theorem Chip.ppsEdge_on {c : Chip} (h : c.timeRec 14 0 = 1) (hs : c.net.silent = false) :
    c.ppsEdge = { c.advanceTo (if c.net.pps then c.nowNs / 1000000000 * 1000000000 + c.timeRec 15 100 * 1000000 else cdiv c.nowNs 1000000000 * 1000000000)
      with net := { c.net with pps := !c.net.pps } } := by
  simp [Chip.ppsEdge, h, hs]

theorem exec_tsInEdge (p : Pin) (rising : Bool) (ph : Fin 4) (pulse : Nat) (s : State) :
    exec (.tsInEdge p rising ph pulse) s = .next (s.put (s.chip.tsIn p rising ph pulse)) := rfl
theorem exec_tsinDataLoRead (p : Pin) (who : Src) {s : State} (h : s.chip.locked = false) :
    exec (.tsinDataLoRead p who) s = .next (s.put (s.chip.tsInRead p who)) := next_awake h rfl
theorem exec_tsOutEdge (p : Pin) (s : State) : exec (.tsOutEdge p) s = .next (s.put (s.chip.tsOutEdge p)) := rfl
theorem exec_ppsEdge (s : State) : exec .ppsEdge s = .next (s.put s.chip.ppsEdge) := rfl

/-- Settles O47: each clause is the operation's lemma for its case. -/
theorem timingPinsCaptureAndDrive : Obligations.TimingPinsCaptureAndDrive := by
  intro s p
  refine ⟨fun rising ph pulse hsel hp => ⟨fun hroom hgap => ?_, fun hfull => ?_⟩, fun who hl hr => ⟨fun he => ?_, fun e rest he => ?_⟩, fun h hs => ?_, fun h hs => ?_⟩
  · exact ⟨_, exec_tsInEdge p rising ph pulse s, Chip.tsIn_taken hsel hp hroom hgap⟩
  · rw [exec_tsInEdge, Chip.tsIn_full hsel hp hfull]
  · exact ⟨_, exec_tsinDataLoRead p who hl, Chip.tsInRead_nil hr he⟩
  · exact ⟨_, exec_tsinDataLoRead p who hl, Chip.tsInRead_cons hr he⟩
  · refine ⟨_, exec_tsOutEdge p s, ?_⟩
    simp [State.put, Chip.tsOutEdge_on h hs]
  · refine ⟨_, exec_ppsEdge s, ?_⟩
    simp [State.put, Chip.ppsEdge_on h hs]

end Sys2Proof.Machine
end

section
/-! Register accesses (R5, R6, R23, R67, R69, R106, R171, R174): what a write and a read of each kind of register do, and the accesses that have no effect. -/
namespace Sys2Proof.Machine

/-! ### Which registers a write of 1 clears -/

/-- Where the status registers lie: apart from the queues', the stations' and the tasks' blocks, and at the start of an MX block. -/
theorem isW1c_place {d off : Nat} (h : isW1c d off = true) :
    off = qerrStatus ∨ 0xA0000 ≤ off ∨ (mxBlk 0 ≤ off ∧ off < mxBlk 9 ∧ off % 0x40 = 0) ∨ (vxBlk 0 ≤ off ∧ off < vxBlk 9) := by
  have hlist : ∀ x ∈ statusRegs d, x = qerrStatus ∨ 0xA0000 ≤ x ∨ (mxBlk 0 ≤ x ∧ x < mxBlk 9 ∧ x % 0x40 = 0) ∨ (vxBlk 0 ≤ x ∧ x < vxBlk 9) := by
    unfold statusRegs
    split <;> decide
  rcases Bool.or_eq_true_iff.mp h with h | h
  · exact hlist off (List.contains_iff_mem.mp h)
  · exact .inr (.inl (by simp only [bndStatus, sramBlk, beq_iff_eq] at h; omega))

theorem isW1c_false {d off : Nat} (h : ¬ (off = qerrStatus ∨ 0xA0000 ≤ off ∨ (mxBlk 0 ≤ off ∧ off < mxBlk 9 ∧ off % 0x40 = 0) ∨ (vxBlk 0 ≤ off ∧ off < vxBlk 9))) :
    isW1c d off = false := Bool.eq_false_iff.mpr (fun k => h (isW1c_place k))

/-! ### Writes -/

/-- A write that is not aligned, or to a die that is off, changes nothing. -/
theorem Chip.writeReg_dropped {c : Chip} {who : Src} {d off v : Nat} (h : off % 4 ≠ 0 ∨ c.reaches who = false ∨ c.dieOn d = false) : c.writeReg who d off v = c := by
  rw [Chip.writeReg, if_pos (by simpa [or_assoc] using h)]

/-- A write of a register whose offset has no rule of its own beside its fields: it takes the fields unless it is read-only or its block refuses. -/
theorem Chip.writeReg_fields {c : Chip} {who : Src} {d off v : Nat} (ha : off % 4 = 0) (hr : c.reaches who = true) (hd : c.dieOn d = true) (hw : isW1c d off = false)
    (hlow : off < fcBlk) (hinj : off % 0x40 ≠ 0x28 ∨ off < mxBlk 0 ∨ mxBlk 9 ≤ off) :
    c.writeReg who d off v = if rwMask d off = 0 ∨ c.writeHeld who d off = true then c else c.setReg d off (v &&& rwMask d off) := by
  have h1 : off ≠ fcBlk ∧ off ≠ fcBlk + 4 ∧ off ≠ fcBlk + 0x20 ∧ off ≠ pwrBlk + 4 ∧ off ≠ pwrBlk + 0x14 ∧ off ≠ obsBlk + 0x1C := by
    simp only [fcBlk, pwrBlk, obsBlk] at *; omega
  have h2 : ¬ (d ≠ 0 ∧ mxBlk 0 ≤ off ∧ off < mxBlk 9 ∧ off % 0x40 = 0x28) := by omega
  simp [Chip.writeReg, ha, hr, hd, hw, h1, h2]

/-- A queue's descriptor takes its fields while no job of it runs (R69). -/
theorem Chip.writeReg_qdesc {c : Chip} {who : Src} {d : Nat} (q : Fin 1024) (w : Fin 4) (v : Nat) (hr : c.reaches who = true) (hd : c.dieOn d = true) :
    c.writeReg who d (qdescOff q w) v = if c.jobRuns (c.queue (d * 1024 + q.val)).job then c else c.setReg d (qdescOff q w) (v &&& rwMask d (qdescOff q w)) := by
  obtain ⟨hlo, hhi⟩ : 0x10000 ≤ qdescOff q w ∧ qdescOff q w < 0x14000 := by simp only [qdescOff]; omega
  have hw : isW1c d (qdescOff q w) = false := isW1c_false (by simp only [qerrStatus, mxBlk, vxBlk]; omega)
  have hmask : rwMask d (qdescOff q w) ≠ 0 := by
    simp only [rwMask, hlo, hhi, and_self, if_true]
    split <;> decide
  have hheld : c.writeHeld who d (qdescOff q w) = c.jobRuns (c.queue (d * 1024 + q.val)).job := by
    simp only [Chip.writeHeld, hlo, hhi, and_self, if_true]
    rw [show (qdescOff q w - 0x10000) / 16 = q.val by simp only [qdescOff]; omega]
  rw [Chip.writeReg_fields (by simp only [qdescOff]; omega) hr hd hw (by simp only [fcBlk]; omega) (by simp only [mxBlk]; omega), hheld]
  simp only [hmask, false_or]

/-- A station's list registers take their fields while it is not busy (R67, R68). -/
theorem Chip.writeReg_cmdReg {c : Chip} {who : Src} {d st : Nat} (r : Fin 3) (v : Nat) (hr : c.reaches who = true) (hd : c.dieOn d = true) :
    c.writeReg who d (cmdRegOff st r) v =
      if bit (c.reg d (stBlk (stIdx st) + 0x14)) 4 then c else c.setReg d (cmdRegOff st r) (v &&& rwMask d (cmdRegOff st r)) := by
  obtain ⟨n, hn, hoff⟩ : ∃ n < 128, cmdRegOff st r = 0x40000 + 0x40 * n + 4 + 4 * r.val := ⟨stIdx st, Nat.mod_lt _ (by decide), rfl⟩
  have hblk : stBlk (stIdx st) = cmdRegOff st r / 0x40 * 0x40 := by simp only [cmdRegOff, stBlk]; omega
  have hin : ¬ (0x10000 ≤ cmdRegOff st r ∧ cmdRegOff st r < 0x14000) ∧ stBlk 0 ≤ cmdRegOff st r ∧ cmdRegOff st r < stBlk 128 := by simp only [stBlk]; omega
  have hw : isW1c d (cmdRegOff st r) = false := isW1c_false (by simp only [qerrStatus, mxBlk, vxBlk]; omega)
  have hmask : rwMask d (cmdRegOff st r) ≠ 0 := by
    simp only [rwMask, hin, and_self, if_true, if_false]
    rw [show cmdRegOff st r % 0x40 = 4 + 4 * r.val by omega]
    fin_cases r <;> decide
  have hheld : c.writeHeld who d (cmdRegOff st r) = bit (c.reg d (stBlk (stIdx st) + 0x14)) 4 := by
    simp only [Chip.writeHeld, hin, and_self, if_true, if_false, ← hblk, show cmdRegOff st r % 0x40 ≠ 0 by omega, ne_eq, not_false_eq_true, decide_true, Bool.true_and]
  rw [Chip.writeReg_fields (by omega) hr hd hw (by simp only [fcBlk]; omega) (by simp only [mxBlk]; omega), hheld]
  simp only [hmask, false_or]

/-- A task's entry takes its fields while the task does not run (R174). -/
theorem Chip.writeReg_task {c : Chip} {who : Src} {d : Nat} (k : TaskIx) (w : Fin 16) (v : Nat) (hr : c.reaches who = true) (hd : c.dieOn d = true) :
    let o := taskBlk k + 4 * w.val
    c.writeReg who d o v = if ((c.task d k).released && !(c.task d k).ended) || rwMask d o == 0 then c else c.setReg d o (v &&& rwMask d o) := by
  intro o
  have ho : o = 0x80000 + 0x40 * k.val + 4 * w.val := rfl
  have hin : ¬ (0x10000 ≤ o ∧ o < 0x14000) ∧ ¬ (stBlk 0 ≤ o ∧ o < stBlk 128) ∧ taskBlk 0 ≤ o ∧ o < taskBlk 256 := by simp only [stBlk, taskBlk]; omega
  have hw : isW1c d o = false := isW1c_false (by simp only [qerrStatus, mxBlk, vxBlk]; omega)
  have hheld : c.writeHeld who d o = ((c.task d k).released && !(c.task d k).ended) := by
    simp only [Chip.writeHeld, hin, and_self, if_true, if_false]
    rw [show (o - taskBlk 0) / 0x40 = k.val by simp only [taskBlk]; omega]
  rw [Chip.writeReg_fields (by omega) hr hd hw (by simp only [fcBlk]; omega) (by simp only [mxBlk]; omega), hheld]
  simp only [Bool.or_eq_true, beq_iff_eq, or_comm]

/-- MX_INJECT takes a write of firmware or the debug port (R106). -/
theorem Chip.writeReg_inject {c : Chip} {who : Src} {d : Nat} (k : CoreIx) (v : Nat) (hr : c.reaches who = true) (hd : c.dieOn (d + 1) = true) :
    c.writeReg who (d + 1) (mxBlk k + 0x28) v = if mayInject who then c.setReg (d + 1) (mxBlk k + 0x28) (v &&& 0x3FFF) else c := by
  have hin : mxBlk 0 ≤ mxBlk k + 0x28 ∧ mxBlk k + 0x28 < mxBlk 9 ∧ (mxBlk k + 0x28) % 0x40 = 0x28 ∧ (mxBlk k + 0x28) % 4 = 0 := by simp only [mxBlk]; omega
  have hw : isW1c (d + 1) (mxBlk k + 0x28) = false := isW1c_false (by simp only [qerrStatus, mxBlk, vxBlk]; omega)
  simp [Chip.writeReg, hin, hr, hd, hw]

/-- DPU_MAP takes its fields while its core holds no task (R106). -/
theorem Chip.writeReg_dpuMap {c : Chip} {who : Src} {d : Nat} (k : CoreIx) (hi : Bool) (v : Nat) (hr : c.reaches who = true) (hd : c.dieOn (d + 1) = true) :
    let o := mxBlk k + 0x20 + 4 * b2n hi
    c.writeReg who (d + 1) o v = if c.coreHolds (d + 1) k then c else c.setReg (d + 1) o (v &&& 0x7F7F7F7F) := by
  intro o
  obtain ⟨h, hh, ho⟩ : ∃ h < 2, o = 0x50000 + 0x40 * k.val + 0x20 + 4 * h := ⟨b2n hi, by cases hi <;> decide, rfl⟩
  have hin : ¬ (0x10000 ≤ o ∧ o < 0x14000) ∧ ¬ (stBlk 0 ≤ o ∧ o < stBlk 128) ∧ ¬ (taskBlk 0 ≤ o ∧ o < taskBlk 256) ∧ mxBlk 0 ≤ o ∧ o < mxBlk 9 ∧
      (o % 0x40 = 0x20 ∨ o % 0x40 = 0x24) := by simp only [stBlk, taskBlk, mxBlk]; omega
  have hw : isW1c (d + 1) o = false := isW1c_false (by simp only [qerrStatus, mxBlk, vxBlk]; omega)
  have hmask : rwMask (d + 1) o = 0x7F7F7F7F := by
    simp only [rwMask, hin, and_self, if_true, if_false, ne_eq, Nat.add_eq_zero_iff, one_ne_zero, and_false, not_false_eq_true]
  have hheld : c.writeHeld who (d + 1) o = c.coreHolds (d + 1) k := by
    simp only [Chip.writeHeld, hin, if_false, if_true, ne_eq, Nat.add_eq_zero_iff, one_ne_zero, and_false, not_false_eq_true]
    rw [show (o - mxBlk 0) / 0x40 = k.val by simp only [mxBlk]; omega]
  rw [Chip.writeReg_fields (by omega) hr hd hw (by simp only [fcBlk]; omega) (by omega), hheld, hmask]
  simp

/-- Bits of `x` that are clear in `v`. -/
theorem testBit_sub_and (x v i : Nat) : (x - (x &&& v)).testBit i = (x.testBit i && !v.testBit i) := by
  have hle : x &&& v ≤ x := Nat.and_le_left
  have hlow : (x &&& v) % 2 = x % 2 &&& v % 2 := Nat.and_mod_two_pow (n := 1)
  induction i generalizing x v with
  | zero =>
    have hsub : (x - (x &&& v)) % 2 = (x % 2 + (x % 2 &&& v % 2)) % 2 := by omega
    simp only [Nat.testBit_zero, hsub]
    rcases Nat.mod_two_eq_zero_or_one x with hx | hx <;> rcases Nat.mod_two_eq_zero_or_one v with hv | hv <;> rw [hx, hv] <;> decide
  | succ i ih =>
    have hlow' : (x &&& v) % 2 ≤ x % 2 := hlow ▸ Nat.and_le_left
    have hhalf : (x - (x &&& v)) / 2 = x / 2 - (x / 2 &&& v / 2) := by
      rw [← Nat.and_div_two]; omega
    simp only [Nat.testBit_succ, hhalf]
    exact ih _ _ Nat.and_le_left (Nat.and_mod_two_pow (n := 1))

/-- A write of 1 clears its bit of a status register, and no other (R6). -/
theorem Chip.writeReg_w1c {c : Chip} {who : Src} {d off : Nat} (v : Nat) (ha : off % 4 = 0) (hr : c.reaches who = true) (hd : c.dieOn d = true) (hw : isW1c d off = true) :
    c.writeReg who d off v = c.setReg d off (c.reg d off - (c.reg d off &&& v)) := by
  simp [Chip.writeReg, ha, hr, hd, hw]

/-- After a write into a status register each bit is its old value, cleared where a 1 was written. -/
theorem Chip.bit_writeReg_w1c {c : Chip} {who : Src} {d off : Nat} (v : Nat) (ha : off % 4 = 0) (hr : c.reaches who = true) (hd : c.dieOn d = true) (hw : isW1c d off = true)
    {i : Nat} (hi : i < 32) : bit ((c.writeReg who d off v).reg d off) i = (bit (c.reg d off) i && !bit v i) := by
  rw [Chip.writeReg_w1c v ha hr hd hw, Chip.reg_setReg_self, bit, Nat.testBit_mod_two_pow, testBit_sub_and]
  simp [hi, bit]

/-- A processor's access on its way through its FIFO changes the FIFO alone (R23). -/
theorem Chip.fwPass_eq (c : Chip) (who : Src) (d off v dir : Nat) : ∃ e, c.fwPass who d off v dir = { c with ecc := e } := by
  unfold Chip.fwPass
  split
  · exact ⟨_, rfl⟩
  · exact ⟨c.ecc, rfl⟩

theorem Chip.fwPass_reaches (c : Chip) (who w : Src) (d off v dir : Nat) : (c.fwPass who d off v dir).reaches w = c.reaches w := by
  obtain ⟨e, he⟩ := c.fwPass_eq who d off v dir
  rw [he]; rfl

theorem Chip.fwPass_dieOn (c : Chip) (who : Src) (d off v dir e : Nat) : (c.fwPass who d off v dir).dieOn e = c.dieOn e := by
  obtain ⟨e, he⟩ := c.fwPass_eq who d off v dir
  rw [he]; rfl

theorem Chip.fwPass_latch (c : Chip) (who : Src) (d off v dir : Nat) : (c.fwPass who d off v dir).latch = c.latch := by
  obtain ⟨e, he⟩ := c.fwPass_eq who d off v dir
  rw [he]

/-- SPL_ARM takes eight bits (R494). -/
theorem rwMask_splArm : rwMask 0 (obsBlk + 0x1C) = 0xFF := by decide

/-- What a write of an aligned word does, by its register. -/
theorem Chip.writeReg_aligned {c : Chip} {who : Src} {d off : Nat} (v : Nat) (ha : off % 4 = 0) (hr : c.reaches who = true) (hd : c.dieOn d = true) :
    c.writeReg who d off v =
      if isW1c d off then c.setReg d off (c.reg d off - (c.reg d off &&& v))
      else if d = 0 ∧ off = fcBlk then c.fswClear v who
      else if d = 0 ∧ off = fcBlk + 4 then c.fswClear (v <<< 32) who
      else if d = 0 ∧ off = fcBlk + 0x20 then (if bit v 16 then c.fcEscalate (bits v 5 0) (bits v 15 8) who else c)
      else if d = 0 ∧ off = pwrBlk + 4 then c.pwrReq v who
      else if d = 0 ∧ off = pwrBlk + 0x14 then c.rstReq v who
      else if d ≠ 0 ∧ mxBlk 0 ≤ off ∧ off < mxBlk 9 ∧ off % 0x40 = 0x28 then (if mayInject who then c.setReg d off (v &&& 0x3FFF) else c)
      else if rwMask d off = 0 ∨ c.writeHeld who d off = true then c
      else if d = 0 ∧ off = obsBlk + 0x1C then (c.setReg d off (v &&& 0xFF)).armNow
      else c.setReg d off (v &&& rwMask d off) := by
  have harm : (if d = 0 ∧ off = obsBlk + 0x1C then (c.setReg d off (v &&& rwMask d off)).armNow else c.setReg d off (v &&& rwMask d off)) =
      if d = 0 ∧ off = obsBlk + 0x1C then (c.setReg d off (v &&& 0xFF)).armNow else c.setReg d off (v &&& rwMask d off) := by
    refine ite_congr rfl (fun h => ?_) (fun _ => rfl)
    rw [h.1, h.2, rwMask_splArm]
  rw [Chip.writeReg, if_neg (by simp [ha, hr, hd])]
  simp only [harm, Bool.or_eq_true, decide_eq_true_eq]

/-! ### Reads -/

/-- A read that is not aligned, or of a die that is off, answers 0. -/
theorem Chip.readReg_dropped {c : Chip} {who : Src} {d off : Nat} (h : off % 4 ≠ 0 ∨ c.dieOn d = false) : c.readReg who d off = (0, c) := by
  rw [Chip.readReg, if_pos (by simpa using h)]

/-- A read of the low word of a TS_IN FIFO pops it. -/
theorem Chip.readReg_tsIn {c : Chip} {who : Src} {d off : Nat} (ha : off % 4 = 0) (hd : c.dieOn d = true)
    (hts : d = 0 ∧ timeBlk + 0x24 ≤ off ∧ off < timeBlk + 0x54 ∧ (off - timeBlk - 0x24) % 0xC = 0) :
    c.readReg who d off = ((c.tsInRead ((off - timeBlk - 0x24) / 0xC) who).obs.value, c.tsInRead ((off - timeBlk - 0x24) / 0xC) who) := by
  rw [Chip.readReg, if_neg (by simp [ha, hd]), if_pos hts]

/-- A read of another low word answers its value and latches its high word; TB_NOW's also its fraction. -/
theorem Chip.readReg_low {c : Chip} {who : Src} {d off : Nat} (ha : off % 4 = 0) (hd : c.dieOn d = true)
    (hts : ¬ (d = 0 ∧ timeBlk + 0x24 ≤ off ∧ off < timeBlk + 0x54 ∧ (off - timeBlk - 0x24) % 0xC = 0)) (hlow : isLow d off = true) :
    c.readReg who d off = (c.regVal d off,
      let y := c.latchWord who d (off + 4) (c.regVal d (off + 4))
      if d = 0 ∧ off = timeBlk then y.latchWord who 0 (off + 8) (c.regVal 0 (off + 8)) else y) := by
  rw [Chip.readReg, if_neg (by simp [ha, hd]), if_neg hts, if_pos hlow]

/-- A read of any other register answers the word latched for its requester, if there is one, else its value. -/
theorem Chip.readReg_other {c : Chip} {who : Src} {d off : Nat} (ha : off % 4 = 0) (hd : c.dieOn d = true)
    (hts : ¬ (d = 0 ∧ timeBlk + 0x24 ≤ off ∧ off < timeBlk + 0x54 ∧ (off - timeBlk - 0x24) % 0xC = 0)) (hlow : isLow d off = false) :
    c.readReg who d off =
      let v := tabGet 0 c.latch (srcNum who * 2 ^ 32 + regKey d off)
      (if isLatched d off = true ∧ v ≠ 0 then v - 1 else c.regVal d off, c) := by
  rw [Chip.readReg, if_neg (by simp [ha, hd]), if_neg hts, if_neg (by simp [hlow])]
  cases isLatched d off <;> cases tabGet 0 c.latch (srcNum who * 2 ^ 32 + regKey d off) <;> simp

/-- A read of an aligned word passes the processor's FIFO on its way to the register and back. -/
theorem Chip.lowRead_word {c d : Chip} {who : Src} {e off v : Nat} (hr : c.reaches who = true) (h : (c.fwPass who e off 0 0).readReg who e off = (v, d)) :
    c.lowRead e off 4 who = ((d.fwPass who e off v 1).answer v).setErr false := by
  simp [Chip.lowRead, hr, h]

/-- A read of another width answers 0. -/
theorem Chip.lowRead_width {c : Chip} {who : Src} {e off width : Nat} (hr : c.reaches who = true) (h : width ≠ 4) :
    c.lowRead e off width who = (c.answer 0).setErr false := by
  simp [Chip.lowRead, hr, h]

/-- A drain store read that is not allowed, while its core holds a task, or outside the store answers 0 with a fabric error (R171). -/
theorem Chip.dsRead_refused {c : Chip} {who : Src} {d k off : Nat} (ups : Upsets) (hr : c.reaches who = true)
    (h : mayDrain who = false ∨ c.coreHolds d k = true ∨ c.dieOn d = false ∨ 0x100000 ≤ off) : c.dsRead d k off who ups = (c.answer 0).setErr true := by
  rw [Chip.dsRead, if_neg (by simp [hr]), if_pos (by simpa [or_assoc] using h)]

/-- Any other answers the 64-bit word (R171). -/
theorem Chip.dsRead_served {c : Chip} {who : Src} {d k off : Nat} (ups : Upsets) (hr : c.reaches who = true)
    (h : ¬ (mayDrain who = false ∨ c.coreHolds d k = true ∨ c.dieOn d = false ∨ 0x100000 ≤ off)) :
    c.dsRead d k off who ups =
      let r := c.read {} ups (dieBase d + dsBase k + off / 8 * 8) 8
      (r.1.answer (fromLE r.2.1)).setErr false := by
  rw [Chip.dsRead, if_neg (by simp [hr]), if_neg (by simpa [or_assoc] using h)]

/-! ### Accesses from those who do not reach the registers -/

theorem Chip.registerWrite_unreached {c : Chip} {who : Src} (hr : c.reaches who = false) (d off v width : Nat) : c.registerWrite who d off v width = c := by
  simp [Chip.registerWrite, hr, Chip.writeReg_dropped (c := c) (.inr (.inl hr))]

theorem Chip.lowRead_unreached {c : Chip} {who : Src} (hr : c.reaches who = false) (d off width : Nat) : c.lowRead d off width who = c := by
  simp [Chip.lowRead, hr]

theorem Chip.dsRead_unreached {c : Chip} {who : Src} (hr : c.reaches who = false) (d k off : Nat) (ups : Upsets) : c.dsRead d k off who ups = c := by
  simp [Chip.dsRead, hr]

/-! ### The statement -/

/-- Settles O60: each clause is the lemma of its kind of register. -/
theorem registerAccessesKeepRules : Obligations.RegisterAccessesKeepRules := by
  intro s who hl
  refine ⟨fun hr d off v width e k ups => ⟨?_, ?_, ?_⟩, fun hr => ⟨?_, ?_, ?_, ?_, ?_, ?_, ?_, ?_⟩⟩
  · exact next_awake hl (Chip.registerWrite_unreached hr ..)
  · exact next_awake hl (Chip.lowRead_unreached hr ..)
  · exact next_put (ite_eq_left_iff.mpr fun _ => Chip.dsRead_unreached hr ..)
  · exact fun d q w v hd => next_awake hl (Chip.writeReg_qdesc q w v.toNat hr hd)
  · exact fun st r v hd => next_awake hl (Chip.writeReg_cmdReg r v.toNat hr hd)
  · exact fun d k v hd => ⟨next_awake hl (Chip.writeReg_inject k v.toNat hr hd), fun hi => next_awake hl (Chip.writeReg_dpuMap k hi v.toNat hr hd)⟩
  · exact fun d k w v hd => next_awake hl (Chip.writeReg_task k w v.toNat hr hd)
  · exact fun d off v hd hw ha => ⟨_, next_awake hl rfl, fun i hi => Chip.bit_writeReg_w1c v.toNat ha hr hd hw hi⟩
  · intro d off v o x
    have hx : x.reaches who = true := (s.chip.fwPass_reaches ..).trans hr
    have hreg : s.chip.registerWrite who d off.toNat v.toNat 4 = x.writeReg who d o v.toNat := by simp [Chip.registerWrite, hr, x, o]
    have hon : ∀ {b}, s.chip.dieOn d = b → x.dieOn d = b := (s.chip.fwPass_dieOn ..).trans
    refine ⟨fun width hw => ?_, fun h => ?_, fun ha hd => ?_⟩
    · exact next_awake hl (if_neg hw)
    · exact next_awake hl (hreg.trans (Chip.writeReg_dropped (h.imp_right fun hd => .inr (hon hd))))
    · exact next_awake hl (hreg.trans (Chip.writeReg_aligned v.toNat ha hx (hon hd)))
  · intro d off o x n inTs gives
    have hread : ∀ {v : Nat} {y : Chip}, x.readReg who d o = (v, y) → gives v y := fun h => next_awake hl (Chip.lowRead_word hr h)
    have hon : ∀ {b}, s.chip.dieOn d = b → x.dieOn d = b := (s.chip.fwPass_dieOn ..).trans
    refine ⟨fun width hw => ?_, fun h => ?_, fun ha hd => ⟨fun hts => ?_, fun hts hlow => ?_, fun hts hlow => ?_⟩⟩
    · exact next_awake hl (Chip.lowRead_width hr hw)
    · exact hread (Chip.readReg_dropped (h.imp_right hon))
    · exact hread (Chip.readReg_tsIn ha (hon hd) hts)
    · exact hread (Chip.readReg_low ha (hon hd) hts hlow)
    · have hlatch : x.latch = s.chip.latch := s.chip.fwPass_latch ..
      exact hread (hlatch ▸ Chip.readReg_other ha (hon hd) hts hlow)
  · exact fun d k off ups hp => ⟨fun h => next_put ((Chip.live_unlocked _ hl hp).trans (Chip.dsRead_refused ups hr h)),
      fun h => next_put ((Chip.live_unlocked _ hl hp).trans (Chip.dsRead_served ups hr h))⟩

end Sys2Proof.Machine
end

section
/-! The rotation of one die (R17): the core map and the resting core after it. The queue table is rewritten as a whole, so that the two registers are followed through a map of the register
table. -/
namespace Sys2Proof.Machine

/-! ### A table mapped as a whole -/

/-- What a place answers, by any default, does not change with a write of another place. -/
theorem tabGet_tabSet_ne_default {α : Type} [DecidableEq α] (e d v : α) (t : Tab α) {i j : Nat} (hne : j ≠ i) : tabGet e (tabSet d t i v) j = tabGet e t j := by
  by_cases hv : v = d
  · simp [tabSet, hv, tabGet_filter_ne e t hne]
  · simp [tabSet, hv, tabGet_tabPut_ne e v t hne]

/-- A written place holds no entry of the table's default: read by another default, it answers something else. -/
theorem tabGet_tabSet_self_ne {α : Type} [DecidableEq α] {e d : α} (v : α) (t : Tab α) (i : Nat) (he : e ≠ d) : tabGet e (tabSet d t i v) i ≠ d := by
  by_cases hv : v = d
  · rwa [tabSet, if_pos hv, tabGet_filter_self]
  · rwa [tabSet, if_neg hv, tabGet_tabPut_self]

/-- A map that leaves the values at `i` keeps what `i` answers, where no entry of the default stands there for the map to drop. -/
theorem tabGet_tabMap {α : Type} [DecidableEq α] {e d : α} {f : Nat → α → α} {t : Tab α} {i : Nat} (hf : ∀ v, f i v = v) (ht : tabGet e t i ≠ d) :
    tabGet d (tabMap d f t) i = tabGet d t i := by
  induction t with
  | nil => rfl
  | cons kv t ih =>
    obtain ⟨k, v⟩ := kv
    by_cases hk : i = k
    · subst hk
      have hv : v ≠ d := by simpa [tabGet] using ht
      simp [tabMap, tabGet, hf, hv]
    · have hrest : tabGet d (tabMap d f t) i = tabGet d t i := ih (by simpa [tabGet, hk] using ht)
      by_cases hd : f k v = d
      · simpa [tabMap, tabGet, hk, hd] using hrest
      · simpa [tabMap, tabGet, hk, hd] using hrest

/-! ### Registers through a rewrite of the queue and task tables -/

/-- The register table holds no entry of 0 at this register, as after any write of it. -/
def Chip.regTidy (c : Chip) (d o : Nat) : Prop := tabGet 1#32 c.regs (regKey d o) ≠ 0#32

theorem Chip.setFld_regTidy_self {c : Chip} {d o hi lo v : Nat} : (c.setFld d o hi lo v).regTidy d o := tabGet_tabSet_self_ne _ _ _ (by decide)

theorem Chip.setFld_regTidy_ne {c : Chip} {d o e p hi lo v : Nat} (hne : regKey e p ≠ regKey d o) (h : c.regTidy e p) : (c.setFld d o hi lo v).regTidy e p := by
  rw [Chip.regTidy, Chip.setFld, Chip.setReg, tabGet_tabSet_ne_default _ _ _ _ hne]
  exact h

/-- Rewritten queue ends leave every register behind the queue table. -/
theorem Chip.reg_moveEnds {c : Chip} {f : Nat → Nat} {d o : Nat} (hlo : 0x14000 ≤ o) (hhi : o < 2 ^ 24) (ht : c.regTidy d o) : (c.moveEnds f).reg d o = c.reg d o := by
  have hoff : regKey d o % 16777216 = o := by simp only [regKey]; omega
  have hplace : isQdesc0 o = false := decide_eq_false (by omega)
  rw [Chip.reg, Chip.moveEnds, tabGet_tabMap (fun v => by rw [hoff, hplace]; rfl) ht, Chip.reg]

/-- A loop whose steps leave a register leaves it. -/
theorem eachDo_reg {α : Type} {f : α → Chip → Chip} {d o : Nat} {l : List α} (hf : ∀ x ∈ l, ∀ c, (f x c).reg d o = c.reg d o) (c : Chip) : (eachDo l f c).reg d o = c.reg d o := by
  induction l generalizing c with
  | nil => rfl
  | cons x l ih => exact (ih (fun y hy => hf y (.tail _ hy)) (f x c)).trans (hf x (.head _) c)

/-- Rewritten core-buffer bases leave every register behind the task table. -/
theorem Chip.reg_rebindBases (c : Chip) {d l k o : Nat} (hlo : taskBlk 256 ≤ o) (hhi : o < 2 ^ 24) : (c.rebindBases d l k).reg d o = c.reg d o := by
  refine eachDo_reg (fun e he c => ?_) c
  have he : e < 256 := List.mem_range.mp he
  have hne : regKey d o ≠ regKey d (taskBlk e) ∧ regKey d o ≠ regKey d (taskBlk e + 4) := by simp only [regKey, taskBlk] at *; omega
  dsimp only
  split
  · rw [Chip.setReg64, Chip.reg_setReg_ne _ _ _ _ _ _ hne.2, Chip.reg_setReg_ne _ _ _ _ _ _ hne.1]
  · rfl

/-- The move of a core's queues and tasks leaves every register behind the task table. -/
theorem Chip.reg_rebindCore {c : Chip} {d l a b o : Nat} (hlo : taskBlk 256 ≤ o) (hhi : o < 2 ^ 24) (ht : c.regTidy d o) : (c.rebindCore d l a b).reg d o = c.reg d o :=
  (Chip.reg_rebindBases _ hlo hhi).trans (Chip.reg_moveEnds (by simp only [taskBlk] at hlo; omega) hhi ht)

/-! ### The rotation -/

/-- CORE_MAP with one logical core placed. -/
theorem Chip.physOf_setPhys (c : Chip) {d l m k : Nat} (hl : l < 8) (hk : k < 16) : (c.setPhys d l k).physOf d m = if m = l then k else c.physOf d m := by
  split
  · next h =>
    subst h
    exact (c.fld_setFld_self d _ _ _ k (by omega) (by omega)).trans (Nat.mod_eq_of_lt (by rwa [show 4 * m + 3 + 1 - 4 * m = 4 by omega]))
  · exact c.fld_setFld_ne d _ _ _ k _ _ (by omega) (by omega) (by omega)

/-- A rotation while logical core `l` is on the core due to rest. -/
theorem Chip.rotate_eq {c : Chip} {d l old : Nat} (hold : c.fld d (tsBlk + 0xC) 3 0 = old) (h : c.logOf d ((old + 1) % 9) = some l) :
    c.rotate d = ((c.setPhys d l old).setFld d (tsBlk + 0xC) 3 0 ((old + 1) % 9)).rebindCore d l ((old + 1) % 9) old := by
  simp only [Chip.rotate, hold, h]

/-- CORE_MAP after that rotation. -/
theorem Chip.physOf_rotate {c : Chip} {d l old : Nat} (hold : c.fld d (tsBlk + 0xC) 3 0 = old) (h : c.logOf d ((old + 1) % 9) = some l) (hl : l < 8) (m : Nat) :
    (c.rotate d).physOf d m = if m = l then old else c.physOf d m := by
  have hne : regKey d (tsBlk + 0x5C) ≠ regKey d (tsBlk + 0xC) := by simp only [regKey]; omega
  have hset : (c.setPhys d l old).regTidy d (tsBlk + 0x5C) := Chip.setFld_regTidy_self
  have hmap : (c.rotate d).reg d (tsBlk + 0x5C) = (c.setPhys d l old).reg d (tsBlk + 0x5C) := by
    rw [Chip.rotate_eq hold h, Chip.reg_rebindCore (by decide) (by decide) (Chip.setFld_regTidy_ne hne hset), Chip.reg_setFld_ne _ _ _ _ _ _ _ _ hne]
  have hlt : old < 16 := hold ▸ Nat.mod_lt _ (by decide)
  rw [Chip.physOf, hmap]
  exact Chip.physOf_setPhys c hl hlt

/-- The field of the resting core after that rotation. -/
theorem Chip.resting_rotate {c : Chip} {d l old : Nat} (hold : c.fld d (tsBlk + 0xC) 3 0 = old) (h : c.logOf d ((old + 1) % 9) = some l) :
    (c.rotate d).fld d (tsBlk + 0xC) 3 0 = (old + 1) % 9 := by
  rw [Chip.fld, Chip.rotate_eq hold h, Chip.reg_rebindCore (by decide) (by decide) Chip.setFld_regTidy_self]
  exact (Chip.fld_setFld_self _ _ _ _ _ _ (by decide) (by decide)).trans (Nat.mod_eq_of_lt (by omega))

/-- Settles O39: CORE_MAP reads as `Chip.physOf_rotate` says for the moved logical core and for every other. -/
theorem rotationMovesOneCore : Obligations.RotationMovesOneCore := by
  intro c d l _ _ hl old new _ h
  have hmap : ∀ m, (c.rotate d).physOf d m = if m = l then old else c.physOf d m := Chip.physOf_rotate rfl h hl
  exact ⟨(hmap l).trans (if_pos rfl), Chip.resting_rotate rfl h, fun m _ hm => (hmap m).trans (if_neg hm)⟩

end Sys2Proof.Machine
end

section
/-! The guards of commands of memory, the links and the stations (R382, R491, R502): what a guarded command answers when nothing holds it back. -/
namespace Sys2Proof.Machine

/-- A command of memory and the links while no spindle lock holds, outside PARK. -/
theorem next_live {s : State} {f : Chip → Chip} {c : Chip} (hl : s.chip.isLive) (h : f s.chip = c) :
    (.next (s.put (s.chip.live f)) : Host.Outcome State Fault Refusal) = .next (s.put c) := next_put ((Chip.live_unlocked f hl.1 hl.2).trans h)

/-- What a station does while it works: no spindle lock holds, turns are not stopped, and the device is ACTIVE (R382, R491, R502). -/
theorem Chip.work_atWork {c : Chip} (f : Chip → Chip) (h : c.atWork) : c.work f = f c := by
  obtain ⟨hl, ht, hp⟩ := h
  simp [Chip.work, hl, ht, hp]

/-- A station's command while it works. -/
theorem next_work {s : State} {f : Chip → Chip} {c : Chip} (hw : s.chip.atWork) (h : f s.chip = c) :
    (.next (s.put (s.chip.work f)) : Host.Outcome State Fault Refusal) = .next (s.put c) := next_put ((Chip.work_atWork f hw).trans h)

end Sys2Proof.Machine
end

section
/-! The link layer of a module (R23, R226, R227, R228): what a received flit, the ack timer, a nak and a retraining do, each by its cases. -/
namespace Sys2Proof.Machine

section
variable {c : Chip} {d m : Nat} {f : Bytes}

/-! ### Received flits -/

/-- A nak names the last good number and leaves the rest of the module end. -/
theorem Chip.sendCtl_nak (c : Chip) (d m : Nat) :
    c.sendCtl d m 9 = c.setLink d m { c.link d m with out := some (ctlFlit d (farDie d m) 9 (((c.link d m).rxSeq + 4095) % 4096)) } := rfl

/-- An ack names the last good number, and no flit is open after it. -/
theorem Chip.sendCtl_ack (c : Chip) (d m : Nat) :
    c.sendCtl d m 8 = c.setLink d m { c.link d m with out := some (ctlFlit d (farDie d m) 8 (((c.link d m).rxSeq + 4095) % 4096)), unacked := 0 } := rfl

/-- A sequence number has 12 bits. -/
theorem flitSeq_lt (f : Bytes) : flitSeq f < 4096 := Nat.mod_lt _ (by decide)

section
variable (hk : lnkOk d m = true) (hd : (c.link d m).down = false) (hr : (c.link d m).retraining = false)
include hk hd hr

/-- What a module end at work does with 256 bytes that pass the CRC, by their type. -/
theorem Chip.flitReceive_good (hlen : f.length = 256) (hcrc : leAt f 252 4 = crc32c (f.take 252)) :
    c.flitReceive d m f =
      if flitType f = 0 ∨ flitType f = 9 then c
      else if flitType f = 8 then c.setLink d m ((c.link d m).ack (flitInfo f))
      else if flitSeq f ≠ (c.link d m).rxSeq then c.sendCtl d m 9
      else
        let c1 := (c.setLink d m { c.link d m with rxSeq := ((c.link d m).rxSeq + 1) % 4096, unacked := (c.link d m).unacked + 1 }).hsPut 3 d m 0 f
        let c2 := if 16 ≤ (c.link d m).unacked + 1 then c1.sendCtl d m 8 else c1
        if flitDst f = d then c2 else c2.sendFlit d (flitDst f) (flitStrip f) := by
  simp [Chip.flitReceive, hk, hd, hr, hlen, hcrc]

/-- A flit that fails its CRC is answered with a nak. -/
theorem Chip.flitReceive_bad (h : f.length ≠ 256 ∨ leAt f 252 4 ≠ crc32c (f.take 252)) : c.flitReceive d m f = c.sendCtl d m 9 := by
  simp only [Chip.flitReceive, hk, hd, hr, h, Bool.not_true, Bool.or_self, Bool.false_eq_true, if_true, if_false]

/-- One in sequence is counted, passes the adapter's FIFO, is acknowledged with the fifteen before it, and goes on toward its final die. -/
theorem Chip.flitReceive_inOrder (hlen : f.length = 256) (hcrc : leAt f 252 4 = crc32c (f.take 252)) (h0 : flitType f ≠ 0) (h8 : flitType f ≠ 8) (h9 : flitType f ≠ 9)
    (hseq : flitSeq f = (c.link d m).rxSeq) :
    let x := c.link d m
    let y := { x with rxSeq := (x.rxSeq + 1) % 4096, unacked := x.unacked + 1 }
    let c1 := (c.setLink d m y).hsPut 3 d m 0 f
    let c2 := if 15 ≤ x.unacked then c1.setLink d m { y with out := some (ctlFlit d (farDie d m) 8 x.rxSeq), unacked := 0 } else c1
    c.flitReceive d m f = if flitDst f = d then c2 else c2.sendFlit d (flitDst f) (flitStrip f) := by
  intro x y c1 c2
  have hlink : c1.link d m = y := Chip.link_setLink c d m y
  have hlast : (y.rxSeq + 4095) % 4096 = x.rxSeq := by
    have hlt : x.rxSeq < 4096 := hseq ▸ flitSeq_lt f
    show ((x.rxSeq + 1) % 4096 + 4095) % 4096 = x.rxSeq
    omega
  have hack : (if 16 ≤ x.unacked + 1 then c1.sendCtl d m 8 else c1) = c2 := by
    rw [Chip.sendCtl_ack, hlink, hlast]
    exact if_congr (by omega) rfl rfl
  rw [Chip.flitReceive_good hk hd hr hlen hcrc, if_neg (by simp [h0, h9]), if_neg h8, if_neg (not_not.mpr hseq)]
  exact if_congr Iff.rfl hack (congrArg (fun k : Chip => k.sendFlit d (flitDst f) (flitStrip f)) hack)

end

/-! ### Acks, naks and retraining -/

/-- The ack timer acknowledges what is open. -/
theorem Chip.ackTimer_open (hk : lnkOk d m = true) (hd : (c.link d m).down = false) (hu : (c.link d m).unacked ≠ 0) : c.ackTimer d m = c.sendCtl d m 8 := by
  simp [Chip.ackTimer, hk, hd, hu]

/-- A module end at work takes a nak. -/
theorem Chip.nakReceive_up (n : Nat) (hk : lnkOk d m = true) (hd : (c.link d m).down = false) :
    let x := c.link d m
    let y := { x with replay := x.replay.drop (ackedCount x n), nakSeq := n, nakRun := (if x.nakSeq = n then x.nakRun else 0) + 1, replays := x.replays + 1 }
    c.nakReceive d m n = (c.setLink d m y.drain).addReg d (xdBlkOf d (farDie d m) + 0x18) y.replay.length := by
  simp [Chip.nakReceive, hk, hd]

/-- Both ends of a module retrain at a fourth nak of one number or 64 replays in the turn, and the far end reports it. -/
theorem Chip.moduleRetrain_due (hk : lnkOk d m = true) (hd : (c.link d m).down = false) (hr : (c.link d m).retraining = false)
    (hdue : 4 ≤ (c.link d m).nakRun ∨ 64 ≤ (c.link d m).replays) :
    let o := farDie d m
    let n := farMod d m
    let c1 := (c.setLink d m { c.link d m with retraining := true }).setLink o n { c.link o n with retraining := true }
    c.moduleRetrain d m = (c1.xdLatch o d 0 0 0 (if o = 0 then 0 else n)).raise o (xdBlkOf o d) 3 0x0D := by
  have hmust : (c.link d m).mustRetrain = true := by simpa [Link.mustRetrain] using hdue
  simp [Chip.moduleRetrain, hk, hd, hr, hmust]

section
variable {tx rx : List Nat} (hk : lnkOk d m = true) (hr : (c.link d m).retraining = true)
include hk hr

/-- A retraining within the spares replaces the failing lanes, reports it in a turn, and both ends work again. -/
theorem Chip.retrainDone_replaced (ht : c.sparesAt d m 0 + (laneOrder tx).length ≤ 2) (hx : c.sparesAt d m 1 + (laneOrder rx).length ≤ 2) :
    let o := farDie d m
    let c1 := (((c.replaceLanes d m 0 tx).replaceLanes d m 1 rx).noteLanes d m false).noteLanes o (farMod d m) false
    let c2 := if (tx ≠ [] ∨ rx ≠ []) ∧ c.running = true then (c1.xdLatch d o 0 0 0 (if d = 0 then 0 else m)).raise d (xdBlkOf d o) 4 0x0D else c1
    c.retrainDone d m tx rx = (c2.moduleUp d m).moduleUp o (farMod d m) := by
  have hdead : (decide (2 < c.sparesAt d m 0 + (laneOrder tx).length) || decide (2 < c.sparesAt d m 1 + (laneOrder rx).length)) = false := by
    simp [ht, hx]
  have hfound : ((!(tx ++ rx).isEmpty && c.running) = true) ↔ (tx ≠ [] ∨ rx ≠ []) ∧ c.running = true := by
    simp [imp_iff_not_or]
  simp only [Chip.retrainDone, hk, hr, hdead, hfound, Bool.not_true, Bool.not_false, Bool.or_self, Bool.true_and, Bool.false_eq_true, if_false]

/-- A retraining beyond the spares takes both ends down. -/
theorem Chip.retrainDone_lost (h : 2 < c.sparesAt d m 0 + (laneOrder tx).length ∨ 2 < c.sparesAt d m 1 + (laneOrder rx).length) :
    c.retrainDone d m tx rx = (((c.noteLanes d m true).noteLanes (farDie d m) (farMod d m) true).endDown (farDie d m) (farMod d m)).moduleDown d m := by
  have hdead : (decide (2 < c.sparesAt d m 0 + (laneOrder tx).length) || decide (2 < c.sparesAt d m 1 + (laneOrder rx).length)) = true := by
    simpa using h
  simp only [Chip.retrainDone, hk, hr, hdead, Bool.not_true, Bool.or_self, Bool.false_and, Bool.false_eq_true, if_true, if_false]

end

/-- Nothing is left of a list where all of it is filtered out. -/
theorem filter_not_isEmpty {α : Type} (p : α → Bool) (l : List α) : (l.filter (fun x => !p x)).isEmpty = l.all p :=
  Bool.eq_iff_iff.mpr (by simp)

/-- The end named reports a module that goes down, and with the last one the loss of the link. -/
theorem Chip.moduleDown_eq (c : Chip) (d m : Nat) :
    let o := farDie d m
    let c2 := c.endDown d m
    let c3 := (c2.xdLatch d o 0 0 0 (if d = 0 then 0 else m)).raise d (xdBlkOf d o) 5 0x0E
    c.moduleDown d m = if (modsTo d o).all (fun k => (c2.link d k).down) then c3.raise d (xdBlkOf d o) 6 0x0F (esc := true) (cls := 1) else c3 := by
  simp only [Chip.moduleDown, filter_not_isEmpty]

end

/-! ### The statement -/

/-- Settles O31: each clause is the lemma of its operation's case. -/
theorem flitsAcknowledgedAndReplayed : Obligations.FlitsAcknowledgedAndReplayed := by
  constructor
  · intro s l f hl hk d m x ctl nak hd
    refine ⟨fun hr => ⟨fun hbad => ?_, fun hlen hcrc => ?_⟩, fun hu => ?_⟩
    · exact next_live hl ((Chip.flitReceive_bad hk hd hr hbad).trans (Chip.sendCtl_nak ..))
    · have hgood := Chip.flitReceive_good hk hd hr hlen hcrc
      refine ⟨fun hty => ?_, fun hty => ?_, fun h0 h8 h9 => ⟨fun hseq => ?_, fun hseq => ?_⟩⟩
      · exact next_live hl (hgood.trans (if_pos hty))
      · exact next_live hl (hgood.trans (by rw [if_neg (by simp [hty]), if_pos hty, Link.ack]))
      · exact next_live hl (hgood.trans (by rw [if_neg (by simp [h0, h9]), if_neg h8, if_pos hseq, Chip.sendCtl_nak]))
      · exact next_live hl (Chip.flitReceive_inOrder hk hd hr hlen hcrc h0 h8 h9 hseq)
    · exact next_live hl ((Chip.ackTimer_open hk hd hu).trans (Chip.sendCtl_ack ..))
  · intro s l hl hk d m x o n at_
    refine ⟨fun sq hd => ?_, fun hd hr hdue => ?_, fun tx rx hr => ?_⟩
    · exact next_live hl (Chip.nakReceive_up sq hk hd)
    · exact next_live hl (Chip.moduleRetrain_due hk hd hr hdue)
    · refine ⟨fun ht hx => ?_, fun h => ?_⟩
      · have hdone := Chip.retrainDone_replaced hk hr ht hx
        simp only [ne_eq, List.map_eq_nil_iff] at hdone
        exact next_live hl hdone
      · exact next_live hl ((Chip.retrainDone_lost hk hr h).trans (Chip.moduleDown_eq ..))

end Sys2Proof.Machine
end

section
/-! The sensor ports on time (R23, R253, R268, R277, R278): the SI's command, sync messages and source frames, each by its cases. -/
namespace Sys2Proof.Machine

section
variable {c : Chip} {p : Nat}

/-- An SI whose command was written for the turn begins it, and ends the one before it. -/
theorem Chip.siRun_due (h : (c.sp p).siDue = true) :
    c.siRun p = ((c.modSp p (fun x => { x with siDue := false, si := true, cmd := x.next })).setFld 0 (stBlk p + 0x14) 4 4 1).addReg 0 (stBlk p + 0x10) (b2n (c.sp p).si) := by
  simp [Chip.siRun, h]

/-! ### Sync messages -/

/-- Whether turn `t` asks for a sync message `off` µs into it: it is a sync turn of a stream of the port with that sync instant. -/
def Chip.syncDue (c : Chip) (p off t : Nat) : Bool :=
  (c.streamsOf p).any (fun s => match c.ringCfg s with
    | some g => g.sync t && ((c.stream s).getD []).getD 18 0 == off
    | none => false)

/-- A sync turn of one of the port's streams asks for its sync message. -/
theorem Chip.syncDue_of_stream {off strm t : Nat} {g : RingCfg} (hs : strm ∈ c.streamsOf p) (hg : c.ringCfg strm = some g) (ho : ((c.stream strm).getD []).getD 18 0 = off)
    (ht : g.sync t = true) : c.syncDue p off t = true :=
  List.any_eq_true.mpr ⟨strm, hs, by simp only [hg, ho, ht, beq_self_eq_true, Bool.and_self]⟩

/-- A sync message of a running source port leaves at this turn's launch instant, or before the turn ends at the next one's, once for each. -/
theorem Chip.syncLaunch_running {off : Nat} (hrun : c.running = true) (hmode : bits (c.reg 0 (spBlk p)) 1 0 = 1) (hoff : bit (c.reg 0 (spBlk p)) 10 = false) :
    let go := fun (t : Nat) => (c.advanceTo t).modSp p (fun x => { x with sync := t })
    c.syncLaunch p off =
      if (c.syncDue p off c.turn && decide ((c.sp p).sync < c.gpioNs p off c.turnStart)) = true then go (c.gpioNs p off c.turnStart)
      else if (c.syncDue p off (c.turn + 1) && decide ((c.sp p).sync < c.gpioNs p off c.turnEnd ∧ c.gpioNs p off c.turnEnd < c.turnEnd)) = true then go (c.gpioNs p off c.turnEnd)
      else c := by
  rw [Chip.syncLaunch, if_neg (by simp [hrun, hmode, hoff])]
  rfl

/-! ### Source frames -/

variable {r : Run} {t : InTile} {x : SoFrame}

/-- A frame's first tile decides: Frame Start leaves at the launch time where the gate released its turn, and else the frame is held. -/
theorem Chip.soStart_first {more : List InTile} (hr : c.soRun p = some r) (hi : r.ins = t :: more) (hp : r.pos = 0) (ho : (c.sp p).so = none) :
    let c1 := (c.setRun (stKey (40 + p) 0) { r with pos := 1 }).advanceTo (c.turnStart + soLaunch r.desc * 1000)
    let part := c.jobPart (dJob r.desc)
    let g := c.gateOf (hTurn t.hdr) part
    let f : SoFrame := { desc := r.desc, part := part, turn := hTurn t.hdr, started := g == 1, held := g != 1 }
    c.soStart p =
      if g = 1 then (c1.modSp p (fun x => { x with tx := [] })).sendCsi p (some f) [csiPacket 0 (soVc r.desc) (toLE 2 (c1.sp p).frames)]
      else (c1.addReg 0 (spBlk p + 0x40) (b2n (g == 2))).modSp p (fun x => { x with so := some f }) := by
  have hstale : c.soStale p = none := by simp [Chip.soStale, hr, hp, ho]
  simp only [Chip.soStart, hr, hi, hp, hstale, ne_eq, not_true_eq_false, if_false]

/-- The next tile of a frame under way is sent or consumed, and the frame ends with its last one. -/
theorem Chip.soFrame_tile (hr : c.soRun p = some r) (hp : r.pos ≠ 0) (ht : r.nextIn = some t) (hx : (c.sp p).so = some x) :
    let rd := c.payload t
    let y := { x with buf := x.buf ++ rd.2.1, bad := x.bad || t.pois || t.prov || !rd.2.2.isEmpty }
    let e := if x.held then (y, []) else soEmit r.desc y
    let c1 := ((rd.1.busy (40 + p) 1).setRun (stKey (40 + p) 0) (r.advance t.ord)).sendCsi p (some e.1) e.2
    c.soFrame p = if (r.advance t.ord).inDone then c1.soEnd p e.1 else c1 := by
  have hstale : c.soStale p = none := by simp [Chip.soStale, hr, hp]
  simp only [Chip.soFrame, hstale, hr, hx, ht]

/-- A frame that no command stands behind is finished. -/
theorem Chip.soFrame_stale (hr : c.soRun p = none) (hx : (c.sp p).so = some x) : c.soFrame p = c.soCut p x := by
  have hstale : c.soStale p = some x := by simp [Chip.soStale, hr, hx]
  simp only [Chip.soFrame, hstale]

end

/-! ### The statement -/

/-- Settles O34: each clause is the lemma of its operation's case. -/
theorem sensorPortsSendOnTime : Obligations.SensorPortsSendOnTime := by
  intro s hw
  refine ⟨fun pt hdue => ?_, fun sp off strm g hs hg ho hrun hmode hpoc => ?_, fun sp r t more hr hi hp hx => ?_, fun sp r t x hr hp ht hx => ?_, fun sp x hr hx => ?_⟩
  · exact next_work hw (Chip.siRun_due hdue)
  · intro at_ now next sent
    have hlaunch := Chip.syncLaunch_running (off := off) hrun hmode hpoc
    refine ⟨fun hsync hlt => ?_, fun hsync hle hlt hend => ?_⟩
    · have hnow : s.chip.syncDue sp off s.chip.turn = true := Chip.syncDue_of_stream hs hg ho hsync
      exact next_work hw (hlaunch.trans (if_pos (Bool.and_eq_true_iff.mpr ⟨hnow, decide_eq_true hlt⟩)))
    · have hnext : s.chip.syncDue sp off (s.chip.turn + 1) = true := Chip.syncDue_of_stream hs hg ho hsync
      have hsent : ¬ (s.chip.sp sp).sync < s.chip.gpioNs sp off s.chip.turnStart := Nat.not_lt.mpr hle
      exact next_work hw (hlaunch.trans ((if_neg (by simp [hsent])).trans (if_pos (Bool.and_eq_true_iff.mpr ⟨hnext, decide_eq_true ⟨hlt, hend⟩⟩))))
  · exact next_work hw (Chip.soStart_first hr hi hp hx)
  · exact next_work hw (Chip.soFrame_tile hr hp ht hx)
  · exact next_work hw (Chip.soFrame_stale hr hx)

end Sys2Proof.Machine
end

section
/-! The registers that say where queues and tasks lie (R25, R48, R49, R174, R215): the queue block, the task table, DDR_CFG and the turn block, as one part of the register table that every
operation on other blocks leaves; and what the model reads from them. -/
namespace Sys2Proof.Machine

/-- An offset of a register that says where queues and tasks lie: of the queue block (below `stBlk 0`), the task table (`taskBlk`), DDR_CFG (`ddrBlk 0`) or the turn block (`tsBlk`). -/
abbrev IsPlace (o : Nat) : Prop := o < 0x40000 ∨ 0x80000 ≤ o ∧ o < 0x84000 ∨ o = 0xB0000 ∨ 0x100000 ≤ o ∧ o < 0x110000

/-- Whether a key of the register table is such a register's. -/
def isPlaceKey (k : Nat) : Bool := decide (IsPlace (k % 16777216))

/-- The register table cut down to those registers. -/
def Chip.places (c : Chip) : Tab Word := tabKeep isPlaceKey c.regs

/-! ### A table cut down to some keys -/

theorem tabKeep_tabSet {α : Type} [DecidableEq α] {p : Nat → Bool} {i : Nat} (h : p i = false) (d v : α) (t : Tab α) : tabKeep p (tabSet d t i v) = tabKeep p t := by
  rw [tabSet]
  split
  · rw [tabKeep, tabKeep, List.filter_filter]
    refine List.filter_congr fun kv _ => ?_
    by_cases hk : kv.1 = i <;> simp [hk, h]
  · induction t with
    | nil => simp [tabPut, tabKeep, h]
    | cons kv t ih =>
      obtain ⟨k, w⟩ := kv
      rw [tabPut]
      split
      · simp [tabKeep, h]
      · split
        · next hk => simp [tabKeep, ← hk, h]
        · simp only [tabKeep, List.filter_cons] at ih ⊢
          rw [ih]

theorem tabGet_tabKeep {α : Type} {p : Nat → Bool} {i : Nat} (h : p i = true) (d : α) (t : Tab α) : tabGet d (tabKeep p t) i = tabGet d t i := by
  induction t with
  | nil => rfl
  | cons kv t ih =>
    obtain ⟨k, w⟩ := kv
    by_cases hk : i = k
    · subst hk
      simp [tabKeep, tabGet, h]
    · by_cases hp : p k = true
      · simpa [tabKeep, tabGet, hk, hp] using ih
      · simpa [tabKeep, tabGet, hk, hp] using ih

/-- A search sees nothing of the elements that it answers none for. -/
theorem findSome?_filter_of_none {α β : Type} {p : α → Bool} {f : α → Option β} {l : List α} (h : ∀ x, p x = false → f x = none) :
    (l.filter p).findSome? f = l.findSome? f := by
  induction l with
  | nil => rfl
  | cons x l ih =>
    by_cases hp : p x = true
    · simp [hp, ih, List.findSome?_cons]
    · simp [hp, ih, h x (by simpa using hp)]

/-! ### What is read from them -/

/-- The offset in a register's key. -/
theorem regKey_mod (d o : Nat) : regKey d o % 16777216 = o % 16777216 := by simp only [regKey]; omega

/-- A region of a task that has an entry. -/
theorem Chip.region_task (c : Chip) (st : Nat) {k r : Nat} (hk : k < 256) :
    c.region st k r = match r with
    | 0 => (bits (c.reg64 (st / 128) (taskBlk k)) 47 0, bits (c.reg (st / 128) (taskBlk k + 8)) 22 0)
    | 1 => (bits (c.reg64 (st / 128) (taskBlk k + 0x10)) 47 0, bits (c.reg (st / 128) (taskBlk k + 0x18)) 25 0)
    | 2 => (bits (c.reg64 (st / 128) (taskBlk k + 0x20)) 47 0, bits (c.reg64 (st / 128) (taskBlk k + 0x28)) 34 0)
    | _ => (0, 0) := if_pos hk

section
variable {c e : Chip} (h : e.places = c.places)
include h

/-- A register of these places. -/
theorem Chip.reg_of_places {o : Nat} (d : Nat) (ho : IsPlace o) : e.reg d o = c.reg d o := by
  have hlt : o < 16777216 := by unfold IsPlace at ho; omega
  have hk : isPlaceKey (regKey d o) = true := decide_eq_true (by rwa [regKey_mod, Nat.mod_eq_of_lt hlt])
  have hsame : tabGet 0#32 (tabKeep isPlaceKey e.regs) (regKey d o) = tabGet 0#32 (tabKeep isPlaceKey c.regs) (regKey d o) :=
    congrArg (fun t : Tab Word => tabGet 0#32 t (regKey d o)) h
  rw [tabGet_tabKeep hk, tabGet_tabKeep hk] at hsame
  rw [Chip.reg, hsame, Chip.reg]

/-- The core map. -/
theorem Chip.physOf_of_places (d l : Nat) : e.physOf d l = c.physOf d l := by
  rw [Chip.physOf, Chip.physOf, Chip.reg_of_places h d (by decide)]

theorem Chip.logOf_of_places (d k : Nat) : e.logOf d k = c.logOf d k := by
  simp only [Chip.logOf, Chip.reg_of_places h d (o := tsBlk + 0xC) (by decide), Chip.physOf_of_places h]

theorem Chip.physStn_of_places (st : Nat) : e.physStn st = c.physStn st := by
  simp only [Chip.physStn, Chip.physOf_of_places h]

theorem Chip.logStn_of_places (st : Nat) : e.logStn st = c.logStn st := by
  simp only [Chip.logStn, Chip.logOf_of_places h]

/-- The task entry of a job on a station. -/
theorem Chip.findTask_of_places (j s : Nat) : e.findTask j s = c.findTask j s := by
  have hsearch : ∀ {α : Type} {f : Nat × Word → Option α}, (∀ kv, ¬ IsPlace (kv.1 % 16777216) → f kv = none) → e.regs.findSome? f = c.regs.findSome? f := by
    intro α f hf
    have hcut : ∀ t : Tab Word, (tabKeep isPlaceKey t).findSome? f = t.findSome? f :=
      fun t => findSome?_filter_of_none (fun kv hkv => hf kv (of_decide_eq_false hkv))
    rw [← hcut e.regs, ← hcut c.regs]
    exact congrArg (List.findSome? f) h
  rw [Chip.findTask, Chip.findTask, Chip.logStn_of_places h]
  refine hsearch fun kv hkv => if_neg fun hin => hkv (.inr (.inl ⟨hin.2.1, hin.2.2.1⟩))

theorem Chip.taskOf_of_places (j st : Nat) : e.taskOf j st = c.taskOf j st := by
  rw [Chip.taskOf, Chip.taskOf, Chip.findTask_of_places h]

/-- The task entry that serves a job at a station. -/
theorem Chip.runTask_of_places (k j : Nat) : e.runTask k j = c.runTask k j := by
  rw [Chip.runTask, Chip.runTask, Chip.progStn, Chip.progStn, Chip.logStn_of_places h, Chip.taskOf_of_places h]

/-- A queue's descriptor. -/
theorem Chip.qdesc_of_places (q : Nat) : e.qdesc q = c.qdesc q := by
  have hreg : ∀ x, x < 16 → e.reg (q / 1024) (qdescOff (q % 1024) 0 + x) = c.reg (q / 1024) (qdescOff (q % 1024) 0 + x) := fun x hx =>
    Chip.reg_of_places h _ (.inl (by unfold qdescOff; omega))
  have hreg64 : ∀ x, x < 12 → e.reg64 (q / 1024) (qdescOff (q % 1024) 0 + x) = c.reg64 (q / 1024) (qdescOff (q % 1024) 0 + x) := fun x hx => by
    rw [Chip.reg64, Chip.reg64, hreg x (by omega), Nat.add_assoc, hreg (x + 4) (by omega)]
  exact congrArg₂ (fun lo hi => lo + hi <<< 64) (hreg64 0 (by decide)) (hreg64 8 (by decide))

/-- A region of a task, with the package's place where the task is the blank's workspace. -/
theorem Chip.region_of_places (hb : e.boot = c.boot) (st k r : Nat) : e.region st k r = c.region st k r := by
  by_cases hk : k < 256
  · have r32 : ∀ i, i < 64 → e.reg (st / 128) (taskBlk k + i) = c.reg (st / 128) (taskBlk k + i) := fun i hi =>
      Chip.reg_of_places h _ (.inr (.inl (by unfold taskBlk; omega)))
    have r64 : ∀ i, i < 60 → e.reg64 (st / 128) (taskBlk k + i) = c.reg64 (st / 128) (taskBlk k + i) := fun i hi => by
      rw [Chip.reg64, Chip.reg64, r32 i (by omega), Nat.add_assoc, r32 (i + 4) (by omega)]
    have r0 : e.reg64 (st / 128) (taskBlk k) = c.reg64 (st / 128) (taskBlk k) := r64 0 (by decide)
    match r with
    | 0 => simp only [Chip.region_task _ _ hk, r0, r32 8 (by decide)]
    | 1 => simp only [Chip.region_task _ _ hk, r64 0x10 (by decide), r32 0x18 (by decide)]
    | 2 => simp only [Chip.region_task _ _ hk, r64 0x20 (by decide), r64 0x28 (by decide)]
    | _ + 3 => simp only [Chip.region_task _ _ hk]
  · have hddr : IsPlace (ddrBlk 0) := .inr (.inr (.inl rfl))
    have husable : e.usable (st / 128) = c.usable (st / 128) := by
      unfold Chip.usable
      rw [Chip.reg_of_places h _ hddr]
    have hfw : e.fwBase (st / 128) = c.fwBase (st / 128) := congrArg (fun u => dieBase (st / 128) + (u - 0x4000000)) husable
    have hpkg : e.pkgBase (st / 128) = c.pkgBase (st / 128) := by rw [Chip.pkgBase, Chip.pkgBase, hfw, hb]
    delta Chip.region
    simp only [hk, if_false, hpkg, hfw]

/-- The address of a slot, where the queue's job stays. -/
theorem Chip.slotAddr_of_places (hb : e.boot = c.boot) (hf : e.fab.queues = c.fab.queues) (q i : Nat) : e.slotAddr q i = c.slotAddr q i := by
  simp only [Chip.slotAddr, Chip.queue, hf, Chip.qdesc_of_places h, Chip.physStn_of_places h, Chip.taskOf_of_places h, Chip.region_of_places h hb]

end

end Sys2Proof.Machine
end

section
/-! The operations that leave the registers of `Chip.places`: those of a read by the Carver, of a station's counters and records, of a tile's dump and contribution, and of a job's end. -/
namespace Sys2Proof.Machine

/-- An offset of a register that says nothing of where queues and tasks lie. -/
abbrev Apart (o : Nat) : Prop := ¬ IsPlace (o % 16777216)

/-! ### Blocks apart from them -/

theorem apart_stBlk {s o : Nat} (hs : s < 128) (hlo : stBlk s ≤ o) (hhi : o < stBlk s + 0x40) : Apart o := by
  unfold stBlk at *; omega

theorem apart_cntBlk {s o : Nat} (hs : s < 128) (hlo : cntBlk s ≤ o) (hhi : o < cntBlk s + 0x200) : Apart o := by
  unfold cntBlk at *; omega

theorem apart_sramBlk {o : Nat} (hlo : sramBlk ≤ o) (hhi : o < sramBlk + 0x100) : Apart o := by
  unfold sramBlk at *; omega

/-- DDR_CFG aside, the block of a subchannel says nothing of where queues and tasks lie. -/
theorem apart_ddrBlk {s o : Nat} (hs : s < 2) (hlo : ddrBlk s < o) (hhi : o < ddrBlk s + 0x100) : Apart o := by
  unfold ddrBlk at *; omega

theorem apart_startBlk {o : Nat} (hlo : startBlk ≤ o) (hhi : o < startBlk + 0x100) : Apart o := by
  unfold startBlk at *; omega

theorem apart_obsBlk {o : Nat} (hlo : obsBlk ≤ o) (hhi : o < obsBlk + 0x100) : Apart o := by
  unfold obsBlk at *; omega

/-- The block of a link between two dies. -/
theorem apart_xdBlkOf {a b o : Nat} (hb : b < 8) (hlo : xdBlkOf a b ≤ o) (hhi : o < xdBlkOf a b + 0x40) : Apart o := by
  have hblk : xdBlk ≤ xdBlkOf a b ∧ xdBlkOf a b ≤ xdBlk + 0x1C0 := by rw [xdBlkOf]; split <;> omega
  unfold xdBlk at *; omega

/-! ### Register writes -/

section
variable (c : Chip) (d : Nat) {o : Nat} (ho : Apart o)
include ho

theorem Chip.places_setReg (v : Nat) : (c.setReg d o v).places = c.places :=
  tabKeep_tabSet (decide_eq_false (by rwa [regKey_mod])) _ _ _

theorem Chip.places_addReg (n : Nat) : (c.addReg d o n).places = c.places := c.places_setReg d ho _

theorem Chip.places_orReg (m : Nat) : (c.orReg d o m).places = c.places := c.places_setReg d ho _

theorem Chip.places_setFld (hi lo v : Nat) : (c.setFld d o hi lo v).places = c.places := c.places_setReg d ho _

theorem Chip.places_raise (i cause : Nat) (esc : Bool) (cls : Nat) : (c.raise d o i cause esc cls).places = c.places := by
  have hor := c.places_orReg d ho (1 <<< i)
  rw [Chip.raise]
  split
  · exact hor
  · split
    · exact hor
    · exact hor

end

/-- What follows a chip in everything but parts other than the registers has its places. -/
theorem Kept.Follows.places_eq {l : List Comp} {c d : Chip} (h : (Kept.but l c).Follows d) (hl : Comp.regs ∉ l) : d.places = c.places :=
  congrArg (tabKeep isPlaceKey) (h.same .regs (by simp [Kept.but, hl]))

theorem eachDo_places {α : Type} {f : α → Chip → Chip} {l : List α} (hf : ∀ x ∈ l, ∀ c, (f x c).places = c.places) (c : Chip) : (eachDo l f c).places = c.places := by
  induction l generalizing c with
  | nil => rfl
  | cons x l ih => exact (ih (fun y hy => hf y (.tail _ hy)) (f x c)).trans (hf x (.head _) c)

theorem Chip.places_latchIf (c : Chip) (d stat : Nat) {l : List (Nat × Nat)} (hl : ∀ p ∈ l, Apart p.1) : (c.latchIf d stat l).places = c.places := by
  rw [Chip.latchIf]
  split
  · exact eachDo_places (fun p hp k => k.places_setReg d (hl p hp) _) c
  · rfl

/-- The parts beside the registers say nothing of these places. -/
theorem Chip.places_regs (c : Chip) {tb latch mem ecc fab cmp lnk wrk flt obs sns net boot ses pwr nv cfg free} :
    (⟨tb, c.regs, latch, mem, ecc, fab, cmp, lnk, wrk, flt, obs, sns, net, boot, ses, pwr, nv, cfg, free⟩ : Chip).places = c.places := rfl

/-! ### Errors in the buffers -/

theorem Chip.places_addRepair (c : Chip) (r : Repair) : (c.addRepair r).places = c.places :=
  (Chip.addRepair_follows r (Kept.but_follows [.ecc] c) (Kept.but_free _ c)).places_eq (by decide)

theorem Chip.places_latchSram (c : Chip) (d x y : Nat) : (c.latchIf d sramBlk [(sramBlk + 4, x), (sramBlk + 8, y)]).places = c.places :=
  c.places_latchIf d _ (List.forall_mem_cons.mpr ⟨apart_sramBlk (by omega) (by omega), List.forall_mem_singleton.mpr (apart_sramBlk (by omega) (by omega))⟩)

theorem Chip.places_sramCe (c : Chip) (d a : Nat) (t : Target) (who : Reader) : (c.sramCe d a t who).places = c.places := by
  unfold Chip.sramCe
  extract_lets c1 _ c2 c3 row seen _ c4
  have hthr : c3.places = c2.places := by
    simp (disch := exact apart_sramBlk (by omega) (by omega)) only [c3, apply_ite Chip.places, Chip.places_raise, Chip.places_latchSram, ite_self]
  calc (if seen ≠ 0 ∧ seen ≠ c.turn + 1 ∧ c.cfg1 0x0102 2 1 = 1 then c4.addRepair (sramRepair t) else c4).places
      = c4.places := by simp only [apply_ite Chip.places, Chip.places_addRepair, ite_self]
    _ = c3.places := c3.places_regs
    _ = c2.places := hthr
    _ = c1.places := c1.places_regs
    _ = c.places := c.places_addReg d (apart_sramBlk (by omega) (by omega)) 1

theorem Chip.places_setPois (c : Chip) (a : Nat) (b : Bool) : (c.setPois a b).places = c.places := rfl

theorem Chip.places_sramUe (c : Chip) (d a : Nat) (t : Target) (who : Reader) : (c.sramUe d a t who).places = c.places := by
  simp (disch := exact apart_sramBlk (by omega) (by omega)) only [Chip.sramUe, Chip.places_raise, Chip.places_latchSram, Chip.places_setPois, Chip.places_addReg]

/-! ### DDR5 -/

section
variable (c : Chip) (d : Nat)

section
variable {l : DramLoc} (hs : l.sub < 2) (a : Nat) (who : Reader)
include hs

theorem Chip.places_ddrLatch : (c.ddrLatch d a l who).places = c.places := by
  refine c.places_latchIf d _ fun p hp => ?_
  have hoff : ddrBlk l.sub < p.1 ∧ p.1 < ddrBlk l.sub + 0x100 := by
    simp only [List.mem_cons, List.not_mem_nil, or_false] at hp
    rcases hp with rfl | rfl | rfl | rfl <;> exact ⟨by omega, by omega⟩
  exact apart_ddrBlk hs hoff.1 hoff.2

theorem Chip.places_retireRow : (c.retireRow d a l who).places = c.places := by
  simp (disch := exact apart_ddrBlk hs (by omega) (by omega)) only [Chip.retireRow, apply_ite Chip.places, Chip.places_regs, Chip.places_raise,
    Chip.places_ddrLatch _ _ hs, ite_self]

end

/-- A place is in one of two subchannels. -/
theorem dramLoc_sub_lt (ranks a : Nat) : (dramLoc ranks a).sub < 2 := Nat.mod_lt _ (by decide)

theorem Chip.errLoc_sub_lt (a : Nat) (chk : Bool) : (c.errLoc d a chk).sub < 2 := by
  rw [Chip.errLoc]
  split
  · exact dramLoc_sub_lt (c.ranks d) a
  · exact dramLoc_sub_lt (c.ranks d) a

theorem Chip.places_ddrCe (a : Nat) (chk : Bool) (who : Reader) : (c.ddrCe d a chk who).places = c.places := by
  unfold Chip.ddrCe
  extract_lets l c1 total c2 key seen _ c3
  have hs : l.sub < 2 := c.errLoc_sub_lt d a chk
  have hthr : c2.places = c1.places := by
    simp (disch := exact apart_ddrBlk hs (by omega) (by omega)) only [c2, apply_ite Chip.places, Chip.places_raise, Chip.places_ddrLatch _ _ hs, ite_self]
  calc (if seen ≠ 0 ∧ seen ≠ c.turn + 1 then c3.retireRow d (errAddr a chk) l who else c3).places
      = c3.places := by simp (disch := exact hs) only [apply_ite Chip.places, Chip.places_retireRow, ite_self]
    _ = c2.places := c2.places_regs
    _ = c1.places := hthr
    _ = c.places := c.places_addReg d (apart_ddrBlk hs (by omega) (by omega)) 1

theorem Chip.places_ddrUe (a : Nat) (chk : Bool) (who : Reader) : (c.ddrUe d a chk who).places = c.places := by
  have hs := c.errLoc_sub_lt d a chk
  have hmarks : ∀ (l : List Nat) (k : Chip), (eachDo l (fun w c => c.setPois (dieBase d + w) true) k).places = k.places :=
    fun l k => eachDo_places (fun w _ m => m.places_setPois _ true) k
  simp (disch := exact apart_ddrBlk hs (by omega) (by omega)) only [Chip.ddrUe, apply_ite Chip.places, Chip.places_retireRow _ _ hs, Chip.places_raise,
    Chip.places_ddrLatch _ _ hs, hmarks, Chip.places_addReg, ite_self]

theorem Chip.places_upset (who : Reader) (u : Upset) : (c.upset who u).places = c.places := by
  rw [Chip.upset]
  split
  · rfl
  · split <;> simp only [apply_ite Chip.places, Chip.places_ddrUe, Chip.places_ddrCe, Chip.places_sramUe, Chip.places_sramCe, ite_self]

theorem Chip.places_meter (own : Option Nat) (n : Nat) : (c.meter d own n).places = c.places :=
  (Chip.meter_follows d own n (Kept.but_follows [.ecc] c) (Kept.but_free _ c)).places_eq (by decide)

section
variable {sub : Nat} (hs : sub < 2)
include hs

theorem Chip.places_checkBursts (own : Option Nat) (n : Nat) : (c.checkBursts d sub own n).places = c.places :=
  (Chip.places_meter _ d own n).trans (c.places_addReg d (apart_ddrBlk hs (by omega) (by omega)) n)

theorem Chip.places_checkLine (b : Nat) (wr : Bool) (own : Option Nat) : (c.checkLine d sub b wr own).places = c.places := by
  have hdraw : ∀ k : Chip, k.draw.2.places = k.places := fun _ => rfl
  simp (disch := exact hs) only [Chip.checkLine, apply_ite Chip.places, Chip.places_regs, Chip.places_checkBursts, hdraw, ite_self]

theorem Chip.places_rfmBank (b : Nat) : (c.rfmBank d sub b).places = c.places := c.places_addReg d (apart_ddrBlk hs (by omega) (by omega)) 1

end

theorem Chip.places_activate {l : DramLoc} (hs : l.sub < 2) : (c.activate d l).places = c.places := by
  simp (disch := exact hs) only [Chip.activate, apply_ite Chip.places, Chip.places_regs, Chip.places_rfmBank, ite_self]

/-- The background traffic's share of an access. -/
theorem Chip.places_access (a n : Nat) (wr : Bool) : (c.access d a n wr none).places = c.places := by
  have hburst : ∀ (k : Chip) {sub : Nat}, sub < 2 → ∀ n, (k.bursts d sub none n).places = k.places :=
    fun k _ hs n => k.places_addReg d (apart_ddrBlk hs (by omega) (by omega)) n
  rw [Chip.access]
  split
  · rfl
  · refine eachDo_places (fun line _ k => ?_) c
    have hs := dramLoc_sub_lt (k.ranks d) (64 * line)
    exact (Chip.places_checkLine _ d hs _ wr none).trans ((hburst _ hs _).trans (k.places_activate d hs))

end

/-! ### Reads of firmware and the Carver -/

/-- A read that no station and no task makes (R222). -/
theorem Chip.places_read (c : Chip) {who : Reader} (hk : who.kind = 2) (hst : who.st = 1024) (ups : Upsets) (a n : Nat) : (c.read who ups a n).1.places = c.places := by
  have haccess : (c.ddrAccess (some who) a n false).places = c.places := by
    rw [Chip.ddrAccess]
    split
    · simp only [hk, Nat.reduceEqDiff, or_self, if_false, Chip.places_access]
    · rfl
  have hups : ∀ l : Upsets, (eachDo l (fun u c => c.upset who u) (c.ddrAccess (some who) a n false)).places = c.places :=
    fun l => (eachDo_places (fun u _ k => k.places_upset who u) _).trans haccess
  have hlook : ∀ k : Chip, (k.look a n).1.places = k.places := fun _ => rfl
  have hpass : ∀ (k : Chip) (b : Bytes), (k.hsPass who.st a false b).places = k.places :=
    fun k b => (Chip.hsPass_follows who.st a false b (Kept.but_follows [.ecc] k) (Kept.but_free _ k)).places_eq (by decide)
  have hbank : ∀ k : Chip, k.bank who.st = k := fun k => if_pos hst.ge
  simp only [Chip.read, hk, Nat.reduceEqDiff, if_false, hbank, hpass, hlook, hups]

/-! ### A station's counters and records -/

section
variable (c : Chip)

theorem Chip.places_writeRecord (st : Nat) : (c.writeRecord st).places = c.places := by
  have htraffic : ∀ (k : Chip) (d n : Nat), (k.noteTraffic d n).places = k.places := fun k d n => by rw [Chip.noteTraffic]; split <;> rfl
  simp (disch := exact apart_obsBlk (by omega) (by omega)) only [Chip.writeRecord, apply_ite Chip.places, Chip.places_addReg, htraffic, Chip.places_regs, ite_self]

theorem Chip.places_snapshot (st : Nat) : (c.snapshot st).places = c.places := by
  have hst : stIdx st < 128 := Nat.mod_lt _ (by decide)
  have hshadow : (eachDo (List.range 32) (fun i c => c.setReg (stDie st) (cntBlk (stIdx st) + 0x100 + 4 * i) (c.reg (stDie st) (cntBlk (stIdx st) + 0x80 + 4 * i))) c).places
      = c.places :=
    eachDo_places (fun i hi k => k.places_setReg _ (apart_cntBlk hst (by omega) (by have := List.mem_range.mp hi; omega)) _) c
  have hclear : ∀ k : Chip, (eachDo (List.range 4 ++ (List.range 22).map (· + 8)) (fun i c => c.setReg (stDie st) (cntBlk (stIdx st) + 0x80 + 4 * i) 0) k).places = k.places :=
    eachDo_places fun i hi k => k.places_setReg _ (apart_cntBlk hst (by omega) (by
      have hlt : i < 30 := by simp only [List.mem_append, List.mem_range, List.mem_map] at hi; omega
      omega)) _
  simp only [Chip.snapshot, apply_ite Chip.places, Chip.places_writeRecord, hclear, hshadow, ite_self]

theorem Chip.places_startCounters (st desc ix p : Nat) : (c.startCounters st desc ix p).places = c.places := by
  have hst : stIdx st < 128 := Nat.mod_lt _ (by decide)
  simp (disch := exact apart_cntBlk hst (by omega) (by omega)) only [Chip.startCounters, Chip.places_setReg]

theorem Chip.places_dumpTile (d desc k : Nat) (tile : Bytes) : (c.dumpTile d desc k tile).places = c.places := by
  rw [Chip.dumpTile]
  split
  · rfl
  · simp (disch := exact apart_obsBlk (by omega) (by omega)) only [apply_ite Chip.places, Chip.places_regs, Chip.places_setReg, ite_self]

/-- A contribution begun between two of the eight dies. -/
theorem Chip.places_openContrib {src dst : Nat} (hs : src < 8) (hd : dst < 8) (part job : Nat) (xd : Bool) : (c.openContrib src dst part job xd).2.places = c.places := by
  have hcount : Apart (xdBlkOf src dst + 0xC) := apart_xdBlkOf (a := src) hd (by omega) (by omega)
  have hpending : Apart (xdBlkOf dst src + 0x14) := apart_xdBlkOf (a := dst) hs (by omega) (by omega)
  have hcontrib : ∀ (k : Chip) (n : Nat) (v : Contrib), (k.setContrib n v).places = k.places := fun _ _ _ => rfl
  have hfld : ∀ (k : Chip) (v : Nat), (k.setFld dst (xdBlkOf dst src + 0x14) 13 0 v).places = k.places := fun k v => k.places_setFld dst hpending 13 0 v
  have hadd : ∀ k : Chip, (k.addReg src (xdBlkOf src dst + 0xC) 1).places = k.places := fun k => k.places_addReg src hcount 1
  simp only [Chip.openContrib, Chip.addPending, hfld, hcontrib, hadd, Chip.places_regs]

end

/-! ### The end of a job -/

theorem Chip.places_modReal (c : Chip) (k : Nat) (f : Station → Station) : (c.modReal k f).places = c.places :=
  (Chip.modReal_follows k f (Kept.but_follows [.fab] c) (Kept.but_free _ c)).places_eq (by decide)

theorem Chip.places_noteStatus (c : Chip) (k ix s : Nat) : (c.noteStatus k ix s).places = c.places := by
  have hst : stIdx (k / 4) < 128 := Nat.mod_lt _ (by decide)
  simp (disch := exact apart_stBlk hst (by omega) (by omega)) only [Chip.noteStatus, apply_ite Chip.places, Chip.places_modReal, Chip.places_setFld, ite_self]

theorem Chip.places_endReal (c : Chip) (k ix s : Nat) : (c.endReal k ix s).places = c.places := by
  have hst : stIdx (k / 4) < 128 := Nat.mod_lt _ (by decide)
  simp (disch := exact apart_stBlk hst (by omega) (by omega)) only [Chip.endReal, Chip.places_noteStatus, Chip.places_addReg, Chip.places_modReal]

theorem Chip.places_endJobAt (c : Chip) (k j s : Nat) : (c.endJobAt k j s).places = c.places :=
  eachDo_places (fun r _ m => m.places_endReal k r.ix s) c

theorem Chip.places_shav (c : Chip) (source level tp a0 a1 a2 : Nat) : (c.shav source level tp a0 a1 a2).places = c.places := by
  have hmirror : ∀ (k : Chip) (e : Nat), (k.mirror e).places = k.places := fun k e => k.places_setFld 0 (apart_startBlk (by omega) (by omega)) 15 0 _
  simp (disch := exact apart_startBlk (by omega) (by omega)) only [Chip.shav, apply_ite Chip.places, hmirror, Chip.places_regs, Chip.places_setReg, Chip.places_addReg, ite_self]

theorem Chip.places_endJob (c : Chip) (j code : Nat) : (c.endJob j code).places = c.places := by
  have hend : ∀ (l : List Nat) (k : Chip), (eachDo l (fun key c => c.endJobAt key j 4) k).places = k.places :=
    fun l k => eachDo_places (fun key _ m => m.places_endJobAt key j 4) k
  have hnote : ∀ (k : Chip) (p : Nat), (k.noteEnd p).places = k.places := fun _ _ => rfl
  have hjob : ∀ (k : Chip) (v : JobSt), (k.setJob j v).places = k.places := fun _ _ => rfl
  simp only [Chip.endJob, apply_ite Chip.places, Chip.places_shav, hnote, Chip.places_regs, hend, hjob, ite_self]

end Sys2Proof.Machine
end

section
/-! What a job's end leaves and sets (R46, R53, R70): the queues stay, and the job's code is the one it ended with. -/
namespace Sys2Proof.Machine

/-- What follows a chip in everything but parts other than the turn's work has its work. -/
theorem Kept.Follows.wrk_eq {l : List Comp} {c d : Chip} (h : (Kept.but l c).Follows d) (hl : Comp.wrk ∉ l) : d.wrk = c.wrk :=
  h.same .wrk (by simp [Kept.but, hl])

theorem Kept.Follows.fab_eq {l : List Comp} {c d : Chip} (h : (Kept.but l c).Follows d) (hl : Comp.fab ∉ l) : d.fab = c.fab :=
  h.same .fab (by simp [Kept.but, hl])

theorem Chip.queue_of_fab {c e : Chip} (h : e.fab = c.fab) (q : Nat) : e.queue q = c.queue q := congrArg (fun f : Fab => tabGet ({} : Queue) f.queues q) h

theorem Chip.job_of_wrk {c e : Chip} (h : e.wrk = c.wrk) (j : Nat) : e.job j = c.job j := congrArg (fun w : Wrk => tabGet ({} : JobSt) w.jobs j) h

theorem Chip.queues_modReal (c : Chip) (k : Nat) (f : Station → Station) : (c.modReal k f).fab.queues = c.fab.queues := by
  rw [Chip.modReal]
  split <;> rfl

theorem Chip.queues_noteStatus (c : Chip) (k ix s : Nat) : (c.noteStatus k ix s).fab.queues = c.fab.queues := by
  unfold Chip.noteStatus
  extract_lets st d off x all c1 c2 c3
  have h2 : c2.fab.queues = c.fab.queues := by
    unfold c2
    split <;> rfl
  split
  · exact (Chip.queues_modReal _ k _).trans h2
  · exact h2

theorem Chip.queues_endReal (c : Chip) (k ix s : Nat) : (c.endReal k ix s).fab.queues = c.fab.queues := by
  simp only [Chip.endReal, Chip.queues_noteStatus, Chip.addReg_fab, Chip.queues_modReal]

/-- A loop of steps that leave the queues leaves them. -/
theorem eachDo_queues {α : Type} {f : α → Chip → Chip} (hf : ∀ x c, (f x c).fab.queues = c.fab.queues) (l : List α) (c : Chip) : (eachDo l f c).fab.queues = c.fab.queues := by
  induction l generalizing c with
  | nil => rfl
  | cons x l ih => exact (ih (f x c)).trans (hf x c)

theorem Chip.queues_endJobAt (c : Chip) (k j s : Nat) : (c.endJobAt k j s).fab.queues = c.fab.queues := by
  unfold Chip.endJobAt
  refine eachDo_queues (fun r m => ?_) _ c
  exact m.queues_endReal k r.ix s

section
variable (c : Chip) {j code : Nat}

/-- What is left of a job's end after its stations' commands have ended is no matter of queues or of jobs' states. -/
theorem Chip.endJob_live (hd : c.jobDead j = false) (hj : j ≠ 255) :
    let c1 := c.setJob j { c.job j with code := code }
    let c2 := eachDo c1.liveKeys (fun k c => c.endJobAt k j 4) c1
    (c.endJob j code).fab = c2.fab ∧ (c.endJob j code).wrk.jobs = c2.wrk.jobs := by
  have hshav : ∀ (m : Chip) (a0 a1 a2 : Nat), (m.shav 2 2 0x0014 a0 a1 a2).fab = m.fab ∧ (m.shav 2 2 0x0014 a0 a1 a2).wrk = m.wrk := fun m a0 a1 a2 =>
    have h := Chip.shav_follows 2 2 0x0014 a0 a1 a2 (Kept.but_follows [.regs, .obs, .nv] m) (Kept.but_free _ m)
    ⟨h.fab_eq (by decide), h.wrk_eq (by decide)⟩
  unfold Chip.endJob
  rw [if_neg (by simp [hd, hj])]
  extract_lets _ c1 c2 mine stopped _ _ c3 c4
  have h4 : c4.fab = c3.fab ∧ c4.wrk.jobs = c3.wrk.jobs := by
    unfold c4
    split <;> exact ⟨rfl, rfl⟩
  rw [(hshav c4 _ _ _).1, (hshav c4 _ _ _).2]
  exact h4

/-- A job's end leaves the queues. -/
theorem Chip.queue_endJob (j code q : Nat) : (c.endJob j code).queue q = c.queue q := by
  by_cases h : (c.jobDead j || j == 255) = true
  · rw [Chip.endJob, if_pos h]
  · obtain ⟨hd, hj⟩ : c.jobDead j = false ∧ j ≠ 255 := by simpa using h
    rw [Chip.queue, (c.endJob_live hd hj).1, eachDo_queues (fun k m => m.queues_endJobAt k j 4)]
    rfl

/-- A job whose end was not decided has the code it ends with. -/
theorem Chip.code_endJob (hd : c.jobDead j = false) (hj : j ≠ 255) : ((c.endJob j code).job j).code = code := by
  have hend : ∀ m : Chip, (eachDo m.liveKeys (fun k c => c.endJobAt k j 4) m).wrk = m.wrk := fun m =>
    (follows_eachDo (fun k _ h => Chip.endJobAt_follows k j 4 h (Kept.but_free [.regs, .fab] m)) m.liveKeys (Kept.but_follows [.regs, .fab] m)).wrk_eq (by decide)
  rw [Chip.job, (c.endJob_live hd hj).2, hend]
  exact congrArg JobSt.code (c.job_setJob j _)

end

/-! ### Errors of a queue -/

/-- A bit that is raised is set. -/
theorem Chip.bit_raise (c : Chip) (d off cause : Nat) {i : Nat} (hi : i < 32) (esc : Bool) (cls : Nat) : bit ((c.raise d off i cause esc cls).reg d off) i = true := by
  have hor : bit ((c.orReg d off (1 <<< i)).reg d off) i = true := by
    rw [c.bit_orReg d off _ i hi, bit, bit, Nat.one_shiftLeft, Nat.testBit_two_pow_self, Bool.or_true]
  rw [Chip.raise]
  split
  · exact hor
  · split <;> exact hor

/-- A queue's error sets its bit of QERR_STATUS. -/
theorem Chip.bit_queueErr (c : Chip) (q slot st cause : Nat) {i : Nat} (hi : i < 32) : bit ((c.queueErr q slot st i cause).reg (q / 1024) qerrStatus) i = true :=
  Chip.bit_raise _ _ _ _ hi _ _

/-- A queue's error leaves the jobs' states and the queues. -/
theorem Chip.queueErr_wrk (c : Chip) (q slot st i cause : Nat) : (c.queueErr q slot st i cause).wrk = c.wrk ∧ (c.queueErr q slot st i cause).fab = c.fab :=
  have h := Chip.queueErr_follows q slot st i cause (Kept.but_follows [.regs, .flt] c) (Kept.but_free _ c)
  ⟨h.wrk_eq (by decide), h.fab_eq (by decide)⟩

end Sys2Proof.Machine
end

section
/-! Credits of queues (R50, R52, R53): what the release of a slot, a credit flit sent and one that arrives do. -/
namespace Sys2Proof.Machine

section
variable {c : Chip} {q : Nat}

/-- A credit flit that would raise the counter above depth freezes the queue and ends its job. -/
theorem Chip.creditFlitArrive_over {n : Nat} (hv : qValid (c.qdesc q) = true) (hf : (c.queue q).frozen = false) (hn : qDepth (c.qdesc q) < (c.queue q).credits + n) :
    c.creditFlitArrive q n = ((c.setQueue q { c.queue q with frozen := true }).queueErr q 0 (qProd (c.qdesc q)) 2 0x28).endJob (c.queue q).job 7 := by
  simp [Chip.creditFlitArrive, hv, hf, hn]

/-- One that would not is added. -/
theorem Chip.creditFlitArrive_within {n : Nat} (hv : qValid (c.qdesc q) = true) (hf : (c.queue q).frozen = false) (hn : (c.queue q).credits + n ≤ qDepth (c.qdesc q)) :
    c.creditFlitArrive q n = c.setQueue q { c.queue q with credits := (c.queue q).credits + n, flight := (c.queue q).flight - n } := by
  simp [Chip.creditFlitArrive, hv, hf, Nat.not_lt.mpr hn]

/-- The gathered credits of a queue across dies leave in one flit. -/
theorem Chip.creditFlitSend_gathered (hg : (c.queue q).gathered ≠ 0) (hf : (c.queue q).frozen = false) (hx : crossDie (c.qdesc q) = true) :
    let x := c.qdesc q
    let qu := c.queue q
    c.creditFlitSend q = (c.setQueue q { qu with gathered := 0, flight := qu.flight + qu.gathered }).sendFlit (qCons x / 128) (qProd x / 128)
      (flitBody { ty := 6, src := qCons x / 128, dst := qProd x / 128, part := qPart x, target := q, info := qu.gathered } []) := by
  simp [Chip.creditFlitSend, hg, hf, hx]

/-- A tile that is done with leaves its slot EMPTY and gives one credit back. -/
theorem Chip.slotRelease_used {r : Run} {t : InTile} (hr : c.releaser (c.keyOf (qCons (c.qdesc q)) (qPart (c.qdesc q))) q = some (r, t)) (hf : (c.queue q).frozen = false)
    (ht : t.q = q) :
    let x := c.qdesc q
    let qu := c.queue q
    let qv := qu.setSlot t.slot {}
    let c1 := c.setQueue q (if crossDie x then { qv with gathered := qu.gathered + 1 } else { qv with credits := qu.credits + 1 })
    c.slotRelease q = (c1.pruneSlot q t.slot).setRun (c.keyOf (qCons x) (qPart x)) { r with ins := dropFirst (fun y => y.q == q && y.used) r.ins } := by
  simp [Chip.slotRelease, Chip.freeSlot, hr, hf, ht]

end

/-- Settles O26: each clause is the lemma of its operation's case. -/
theorem slotsReleaseCreditsReturn : Obligations.SlotsReleaseCreditsReturn := by
  intro s q hw
  exact ⟨fun _ _ hr hf ht => next_work hw (Chip.slotRelease_used hr hf ht), fun hg hf hx => next_work hw (Chip.creditFlitSend_gathered hg hf hx),
    fun _ hv hf hn => next_work hw (Chip.creditFlitArrive_within hv hf hn)⟩

/-- Settles O27: the error that freezes the queue stands in QERR_STATUS, which the end of the job leaves with the queues. -/
theorem creditOverflowFreezesQueue : Obligations.CreditOverflowFreezesQueue := by
  intro s q n hw x qu hv hf hn hj hd
  refine ⟨_, next_work hw (Chip.creditFlitArrive_over hv hf hn), ?_⟩
  have hqerr : IsPlace qerrStatus := .inl (by decide)
  have herr := Chip.queueErr_wrk (s.chip.setQueue q { qu with frozen := true }) q 0 (qProd x) 2 0x28
  refine ⟨?_, ?_, Chip.code_endJob _ ?_ hj⟩
  · exact (Chip.queue_endJob ..).trans ((Chip.queue_of_fab herr.2 q).trans (Chip.queue_setQueue ..))
  · exact (congrArg (bit · 2) (Chip.reg_of_places (Chip.places_endJob ..) _ hqerr)).trans (Chip.bit_queueErr _ q _ _ _ (by decide))
  · exact (congrArg (fun x : JobSt => x.code != 0) (Chip.job_of_wrk herr.1 qu.job)).trans hd

end Sys2Proof.Machine
end

section
/-! Slots filled and taken (R41, R45, R50–R52, R56, R243): what a claim, a filled slot, an acquire and a plain store do, each by its cases. -/
namespace Sys2Proof.Machine

/-! ### Claims -/

section
variable {c : Chip} {q : Nat} {r : Run} {j : Nat}
  (hr : c.claimant (c.keyOf (qProd (c.qdesc q)) (qPart (c.qdesc q))) q = some (r, j)) (hv : qValid (c.qdesc q) = true) (hf : (c.queue q).frozen = false)
  (hn : (c.queue q).count .filling < 4)
include hr hv hf hn

/-- A claim with a credit takes the queue's next slot. -/
theorem Chip.slotClaim_credit (h : (c.queue q).credits ≠ 0) :
    let x := c.qdesc q
    let qu := c.queue q
    let k := c.keyOf (qProd x) (qPart x)
    let c1 := c.setQueue q { qu.setSlot qu.claimIx { qu.slot qu.claimIx with st := .filling } with
      claimIx := (qu.claimIx + 1) % max 1 (qDepth x), credits := qu.credits - 1, pwait := false }
    let c2 := (c1.waiting k 5 false).setRun k { r.setClaims j (r.claims j + 1) with pos := if isColl r.desc then r.pos + 1 else r.pos }
    c.slotClaim q = if isColl r.desc then c2.collCredits k q r else c2 := by
  simp only [Chip.slotClaim, hr, hv, hf, Nat.not_le.mpr hn, h, Bool.not_true, Bool.or_self, decide_false, Bool.false_eq_true, if_false]

/-- A claim without a credit waits for one. -/
theorem Chip.slotClaim_wait (h : (c.queue q).credits = 0) :
    let k := c.keyOf (qProd (c.qdesc q)) (qPart (c.qdesc q))
    c.slotClaim q = ((c.setQueue q { c.queue q with pwait := true }).waiting k 5 true).stall (k / 4) 5 1 := by
  simp only [Chip.slotClaim, hr, hv, hf, Nat.not_le.mpr hn, h, Bool.not_true, Bool.or_self, decide_false, Bool.false_eq_true, if_false, if_true]

end

/-! ### Filled slots -/

/-- A queue's slots are its list of them. -/
theorem Queue.slot_of_slots {x y : Queue} (h : y.slots = x.slots) (i : Nat) : y.slot i = x.slot i := congrArg (fun l : Tab SlotInfo => tabGet ({} : SlotInfo) l i) h

/-- A slot of a queue whose list of slots had it set. -/
theorem Chip.slot_setQueue (c : Chip) (q i : Nat) (x y : Queue) (v : SlotInfo) (h : y.slots = (x.setSlot i v).slots) : ((c.setQueue q y).queue q).slot i = v := by
  rw [Chip.queue_setQueue, Queue.slot_of_slots h, Queue.slot_setSlot]

/-- The queue after a slot of it is filled: the slot FULL, the next sequence number used. -/
theorem Chip.queue_fillSlot (c : Chip) (q i hdr : Nat) (payload : Bytes) (bad : List Nat) (sentProv : Bool) (who : Reader) (ups : Upsets) :
    (((c.fillSlot q i hdr payload bad sentProv who ups).queue q).slot i).st = .full ∧ ((c.fillSlot q i hdr payload bad sentProv who ups).queue q).pseq = (c.queue q).pseq + 1 := by
  have hwrite : ∀ (m : Chip) (a : Nat) (b : Bytes) (pois : List Nat), (m.write a b pois who ups).fab = m.fab := fun m a b pois =>
    (Chip.write_follows a b pois who ups (Kept.but_follows [.regs, .mem, .ecc, .flt, .free] m) (Kept.but_free _ m)).fab_eq (by decide)
  unfold Chip.fillSlot
  extract_lets a c1 x _ y
  have hx : x = c.queue q := Chip.queue_of_fab ((hwrite _ _ _ _).trans (hwrite _ _ _ _)) q
  clear_value c1
  refine ⟨congrArg SlotInfo.st (Chip.slot_setQueue c1 q i x _ { x.slot i with st := .full, sentProv := sentProv, crc := 0 } ?_), ?_⟩
  · rfl
  · exact (congrArg Queue.pseq (Chip.queue_setQueue c1 q _)).trans (congrArg (fun m : Queue => m.pseq + 1) hx)

/-- The producer's oldest claimed tile goes to the oldest FILLING slot: over the fabric where the queue runs across dies, else straight into memory. -/
theorem Chip.slotFull_tile {c : Chip} {q : Nat} (ups : Upsets) {r : Run} {j : Nat} {t : OutTile} {rest : List OutTile} :
    let x := c.qdesc q
    let qu := c.queue q
    let k := c.keyOf (qProd x) (qPart x)
    let dep := max 1 (qDepth x)
    let i := (qu.claimIx + dep - qu.count .filling % dep) % dep
    let pend := t.cids.filter (fun n => (c.contrib n).st != .verified)
    let t' := { t with prov := t.prov || !pend.isEmpty, pois := t.pois || pend.any (fun n => (c.contrib n).st == .failed) }
    let hdr := mkHdr (outHdr r t' c.turn32 (c.tilePart (dJob r.desc) x) qu.pseq)
    let c1 := (c.setRun k { r.setClaims j (r.claims j - 1) with outs := dropFirst (fun y => y.k == j) r.outs }).dumpTile (stDie (k / 4)) r.desc j (toLE 32 hdr ++ t.data)
    c.filler k q = some (r, j) → r.outsOf j = t :: rest → qu.frozen = false → qu.count .filling ≠ 0 → groupWaits r (stDie (k / 4)) (qu.count .filling) = false →
    c.slotIn q i = true → c.linkFull (qProd x / 128) (qCons x / 128) = false →
    c.slotFull q ups = (if crossDie x then c1.deliverTile q i hdr t.data ups
      else eachDo pend (fun n c => c.setContrib n { c.contrib n with slots := (c.contrib n).slots ++ [(q, i)] })
        (c1.fillSlot q i hdr t.data t.badAt t.prov (c.readerOf (k / 4) r.desc) ups)).busy (k / 4) 1 := by
  intro x qu k dep i pend t' hdr c1 hfill houts hf hn hg hin hl
  have hn' : (qu.count .filling == 0) = false := by simpa using hn
  rw [Chip.slotFull]
  simp only [show c.filler (c.keyOf (qProd (c.qdesc q)) (qPart (c.qdesc q))) q = some (r, j) from hfill, houts]
  rw [if_neg (by simp only [qu, k, x] at hf hn' hg; simp [hf, hn', hg]), if_neg (by simp only [i, dep, qu, x] at hin; simp [hin]), if_neg (by simp only [x] at hl; simp [hl])]

/-! ### Acquires -/

section
variable {c : Chip} {q : Nat} (ups : Upsets) {r : Run} {j : Nat}

/-- The station's current command takes the next FULL slot. -/
theorem Chip.slotAcquire_full :
    let x := c.qdesc q
    let qu := c.queue q
    let k := c.keyOf (qCons x) (qPart x)
    c.curRun k = some r → inOf r.desc q = some j → qValid x = true → qu.frozen = false → r.status = 0 → r.inDone = false → dType r.desc ≠ 1 →
    r.takenOf j < (if j = 0 then dTiles r.desc else r.taken) → (qu.slot qu.acqIx).st = .full → c.slotIn q qu.acqIx = true →
    (hEos (fromLE (c.peek (c.slotAddr q qu.acqIx) 32)) = true → dType r.desc ≠ 2 → ∀ t ∈ r.ins, t.used = true ∨ r.takenOf j ≤ t.ord) →
    let a := (c.waiting k 6 false).acquire (k / 4) r j q ups
    c.slotAcquire q ups = a.1.acquired k q qu.acqIx a.2.1 a.2.2 := by
  intro x qu k hr hj hv hf hs hd hty hlim hst hin heos
  have hheld : (hEos (fromLE (c.peek (c.slotAddr q qu.acqIx) 32)) && dType r.desc != 2 && r.ins.any (fun t => !t.used && decide (t.ord < r.takenOf j))) = false := by
    by_contra h
    simp only [Bool.not_eq_false, Bool.and_eq_true, bne_iff_ne, List.any_eq_true, Bool.not_eq_true', decide_eq_true_eq] at h
    obtain ⟨⟨he, h2⟩, t, ht, hu, ho⟩ := h
    rcases heos he h2 t ht with hused | hle
    · simp [hused] at hu
    · omega
  rw [Chip.slotAcquire]
  simp only [show c.curRun (c.keyOf (qCons (c.qdesc q)) (qPart (c.qdesc q))) = some r from hr, hj]
  rw [if_neg (by simp only [qu, x] at hv hf; simp [hv, hf, hs, hd, hty, hlim]), if_neg (not_not.mpr hst), if_neg (by simp only [qu] at hin; simp [hin]), if_neg (by simpa using hheld)]

/-- The queue after an acquire: the slot DRAINING, the next sequence number due. -/
theorem Chip.queue_acquire (c : Chip) (st : Nat) (r : Run) (j q : Nat) :
    (((c.acquire st r j q ups).1.queue q).slot (c.queue q).acqIx).st = .draining ∧ ((c.acquire st r j q ups).1.queue q).cseq = (c.queue q).cseq + 1 := by
  unfold Chip.acquire
  extract_lets x qu i job who rd h n ok failed base t sl y c1
  clear_value base
  refine ⟨congrArg SlotInfo.st (Chip.slot_setQueue base q i qu _ { sl with st := .draining } ?_), congrArg Queue.cseq (Chip.queue_setQueue base q _)⟩
  rfl

end

/-- A station's wait leaves the queues. -/
theorem Chip.waiting_fab (c : Chip) (k b : Nat) (v : Bool) : (c.waiting k b v).fab = c.fab :=
  (Chip.waiting_follows k b v (Kept.but_follows [.regs] c) (Kept.but_free _ c)).fab_eq (by decide)

/-- Settles O25: each clause is the lemma of its operation's case. -/
theorem queueSlotsFillInOrder : Obligations.QueueSlotsFillInOrder := by
  refine ⟨?_, ?_⟩
  · intro s q r j hw x qu k hr hv hf hn
    exact ⟨fun hc => next_work hw (Chip.slotClaim_credit hr hv hf hn hc), fun hc => next_work hw (Chip.slotClaim_wait hr hv hf hn hc)⟩
  intro s q ups hw x qu
  refine ⟨fun r j t rest => ?_, fun r j => ?_⟩
  · intro k dep i hfill houts hf hn hg hin hl pend t' hdr c1
    have htile := Chip.slotFull_tile ups hfill houts hf hn hg hin hl
    refine ⟨fun hx => ?_, fun hx => ?_⟩
    · rw [if_pos hx] at htile
      exact next_work hw htile
    · have hx' : ¬ crossDie x = true := by simp [hx]
      rw [if_neg hx'] at htile
      exact ⟨next_work hw htile, Chip.queue_fillSlot ..⟩
  · intro k hr hj hv hf hs hd hty hlim hst hin heos a
    have hqu : (s.chip.waiting k 6 false).queue q = qu := Chip.queue_of_fab (Chip.waiting_fab ..) q
    exact ⟨next_work hw (Chip.slotAcquire_full ups hr hj hv hf hs hd hty hlim hst hin heos), hqu ▸ Chip.queue_acquire ups _ _ r j q⟩

end Sys2Proof.Machine
end

section
/-! Plain stores (R56, R70, R150): one that meets no slot in use is written or added, and one that does ends its command and job with memory as it was. -/
namespace Sys2Proof.Machine

section
variable {c : Chip} {k : Nat} (ups : Upsets) {r : Run} {x : Store} {rest : List Store}
  (hr : (c.station k).runs.find? (fun r => !r.stores.isEmpty) = some r) (hx : r.stores = x :: rest)
include hr hx

theorem Chip.plainStoreAccept_clear (h : c.slotHit x.addr x.data.length = none) :
    let c1 := c.setRun k { r with stores := rest }
    let who := c.readerOf (k / 4) r.desc
    c.plainStoreAccept k ups = if x.add then c1.addElem x who ups else c1.write x.addr x.data x.pois who ups := by
  simp only [Chip.plainStoreAccept, hr, hx, h]

theorem Chip.plainStoreAccept_hit {q i : Nat} (h : c.slotHit x.addr x.data.length = some (q, i)) :
    c.plainStoreAccept k ups = ((c.queueErr q i (k / 4) 0 0).endNow k r stSlotViolation).endJob (dJob r.desc) 6 := by
  simp only [Chip.plainStoreAccept, hr, hx, h]

end

/-- A store dropped at a slot in use, its command and its job ended: memory stays. -/
theorem Chip.mem_storeDropped (c : Chip) (q i k : Nat) (r : Run) (s j code : Nat) : (((c.queueErr q i (k / 4) 0 0).endNow k r s).endJob j code).mem = c.mem := by
  have hm := Kept.but_free [.regs, .fab, .cmp, .lnk, .wrk, .flt, .obs, .nv] c
  have herr := Chip.queueErr_follows q i (k / 4) 0 0 (Kept.but_follows _ c) (hm.sub (by decide))
  have hend := Chip.endNow_follows k r s herr (hm.sub (by decide))
  exact (Chip.endJob_follows j code hend (hm.sub (by decide))).mem_eq (by decide)

/-- Settles O28: a store is accepted or dropped by `Chip.slotHit`, and what ends a command and a job does not write memory. -/
theorem plainStoresKeepSlotsWhole : Obligations.PlainStoresKeepSlotsWhole := by
  intro s st p ups r x rest hw k hr hx
  refine ⟨fun h => next_work hw (Chip.plainStoreAccept_clear ups hr hx h), fun q i h => ⟨next_work hw (Chip.plainStoreAccept_hit ups hr hx h), ?_⟩⟩
  exact Chip.mem_storeDropped ..

end Sys2Proof.Machine
end

section
/-! The data movers (R154–R160, R184): a window's data are asked for first, and then a copy, a load or a store moves its runs. -/
namespace Sys2Proof.Machine

section
variable {c : Chip} {st : Nat} {r : Run}

/-- The requests for a window's data, all at once. -/
theorem Chip.askSource_first (ha : r.asked = false) :
    c.askSource st r = (c.setRun (stKey st 0) { r with asked := true, reqs := r.reqs ++ c.srcReqs st r }).sendReqs (stDie st) (c.jobPart (dJob r.desc)) 0 (c.srcReqs st r) := by
  rw [Chip.askSource, ha, if_neg Bool.false_ne_true]

/-- A copy whose source is no window has nothing to ask for. -/
theorem Run.wantsSource_local (h : dmSrc r.desc ≠ 3) : r.wantsSource = false := by
  simp only [Run.wantsSource, beq_false_of_ne h, Bool.false_and]

/-! ### Commands of length 0 -/

theorem Chip.dmCopy_empty (ups : Upsets) (h : c.dmRun st 1 = some r) (hl : dmLen r.desc = 0) : c.dmCopy st ups = c.setRun (stKey st 0) r.movedAll := by
  simp only [Chip.dmCopy, h, hl, if_true]

theorem Chip.dmLoad_empty (ups : Upsets) (h : c.dmRun st 2 = some r) (hl : dmLen r.desc = 0) :
    c.dmLoad st ups = c.setRun (stKey st 0) { r.closeOuts with begun := true, inDone := true } := by
  simp only [Chip.dmLoad, h, hl, if_true]

theorem Chip.dmStore_empty (h : c.dmRun st 3 = some r) (hl : dmLen r.desc = 0) : c.dmStore st = c.setRun (stKey st 0) { r with begun := true, inDone := true } := by
  simp only [Chip.dmStore, h, hl, if_true]

/-! ### Commands with data to move -/

section
variable (hl : dmLen r.desc ≠ 0) (hf : c.windowFull st r = false)
include hl hf

/-- A store writes or gathers its next tile, expanded where it is compressed. -/
theorem Chip.dmStore_tile {t : InTile} (h : c.dmRun st 3 = some r) (ht : r.nextIn = some t) :
    let rd := c.payload t
    let m := if hZcomp t.hdr then (expandTile t.hdr rd.2.1).map (fun b => (b, !rd.2.2.isEmpty)) else marked rd.2.1 rd.2.2
    c.dmStore st = if dmComp r.desc = 2 then rd.1.gatherTile st r t m else rd.1.storeTile st r t m := by
  simp only [Chip.dmStore, h, hl, hf, ht, Bool.false_eq_true, if_false]

variable (ups : Upsets)

/-- A copy asks for a window's data, or moves its own. -/
theorem Chip.dmCopy_work (h : c.dmRun st 1 = some r) : c.dmCopy st ups = if r.wantsSource then c.askSource st r else c.copyMove st r ups := by
  simp only [Chip.dmCopy, h, hl, hf, Bool.false_eq_true, if_false]

theorem Chip.dmLoad_asks (h : c.dmRun st 2 = some r) (hw : r.wantsSource = true) : c.dmLoad st ups = c.askSource st r := by
  simp only [Chip.dmLoad, h, hl, hf, hw, Bool.false_eq_true, if_false, if_true]

/-- A load forms its next tile of the step's data. -/
theorem Chip.dmLoad_tile {y : List Marked} (h : c.dmRun st 2 = some r) (hw : r.wantsSource = false) (hy : (c.stepData st r ups r.made).2 = .ok y) :
    c.dmLoad st ups = (c.stepData st r ups r.made).1.loadTile st r y := by
  simp only [Chip.dmLoad, h, hl, hf, hw, hy, Bool.false_eq_true, if_false]

end

/-! ### Copies -/

/-- From memory to memory or a window, run by run. -/
theorem Chip.copyMove_runs (ups : Upsets) (hs : dmSrc r.desc ≠ 3) (hc : dmComp r.desc = 0) :
    let w := c.writeContrib st r
    let x := w.2.copyBlocks st r ups w.1 (chunks (if dmXpose r.desc = 0 then 1 else 64) (copyIx r.desc)) [] []
    ∀ y, x.2 = .ok y → c.copyMove st r ups = x.1.issueWrites st r w.1 (.ok y) (srcTotal r.desc) Run.movedAll := by
  intro w x y hy
  rw [Chip.copyMove, if_pos ⟨hc, hs⟩]
  simp only [show (w.2.copyBlocks st r ups w.1 (chunks (if dmXpose r.desc = 0 then 1 else 64) (copyIx r.desc)) [] []).2 = .ok y from hy, w, x]

/-- From a window or a stream, or toward a stream, with all its data in hand. -/
theorem Chip.copyMove_steps (ups : Upsets) (hs : dmSrc r.desc = 3 ∨ dmComp r.desc ≠ 0) :
    let x := c.copySteps st r ups (List.range (dmCnt3 r.desc)) []
    ∀ runs, x.2 = .ok runs → c.copyMove st r ups = x.1.copyOut st r runs := by
  intro x runs hr
  rw [Chip.copyMove, if_neg (fun h => hs.elim h.2 (fun hc => hc h.1))]
  simp only [show (c.copySteps st r ups (List.range (dmCnt3 r.desc)) []).2 = .ok runs from hr, x]

end

/-- Settles O19: each clause is the lemma of its operation's case. -/
theorem dataMoverMovesRuns : Obligations.DataMoverMovesRuns := by
  intro s st ups r hw c k
  refine ⟨fun hl => ⟨fun h => next_work hw (Chip.dmCopy_empty ups h hl), fun h => next_work hw (Chip.dmLoad_empty ups h hl), fun h => next_work hw (Chip.dmStore_empty h hl)⟩,
    fun hl hf => ⟨fun hs ha => ?_, fun h hs hc => ?_, fun h hs hsrc => ?_, fun h hs => ?_, fun t h ht => ?_⟩⟩
  · have hask := Chip.askSource_first (c := c) (st := st) ha
    exact ⟨fun h => next_work hw ((Chip.dmCopy_work hl hf ups h).trans ((if_pos hs).trans hask)), fun h => next_work hw ((Chip.dmLoad_asks hl hf ups h hs).trans hask)⟩
  · intro w x y hy
    have hown : ¬ r.wantsSource = true := by rw [Run.wantsSource_local hs]; exact Bool.false_ne_true
    exact next_work hw ((Chip.dmCopy_work hl hf ups h).trans ((if_neg hown).trans (Chip.copyMove_runs ups hs hc y hy)))
  · intro x runs hr
    have hown : ¬ r.wantsSource = true := by rw [hs]; exact Bool.false_ne_true
    exact next_work hw ((Chip.dmCopy_work hl hf ups h).trans ((if_neg hown).trans (Chip.copyMove_steps ups hsrc runs hr)))
  · intro x y hy
    exact next_work hw (Chip.dmLoad_tile hl hf ups h hs hy)
  · exact next_work hw (Chip.dmStore_tile hl hf h ht)

end Sys2Proof.Machine
end

section
/-! The exchanges of one die (R178–R183, R229, R240): puts and gets, and the windows that commands open and close. -/
namespace Sys2Proof.Machine

/-! ### Puts and gets -/

section
variable {c : Chip} {k : Nat} {r : Run}

/-- A put whose local bytes are there and whose link has room sends them as one contribution. -/
theorem Chip.xdPut_sends (ups : Upsets) {a : Nat} (h : c.xdRun k 1 = some r) (ha : c.xlate (k / 4) r.task (xdRegion r.desc) (xdLocOff r.desc) (xdLen r.desc) = some a)
    (hf : c.linkFull (stDie (k / 4)) (xdPeer r.desc) = false) :
    let x := r.desc
    let st := k / 4
    let part := c.jobPart (dJob x)
    let rd := c.readTask (c.readerOf st x) ups a (xdLen x)
    let o := rd.1.openContrib (stDie st) (xdPeer x) part (dJob x) true
    let qs := writeReqs (xdPeer x) (xdWin x) (xdWinOff x) rd.2.1 rd.2.2 (conKey (xdPeer x) (stDie st) o.1 + 1)
    c.xdPut k ups = (((o.2.busyXd st (k % 4) (xdCycles (xdLen x))).setRun k { r.over with reqs := r.reqs ++ qs }).sendReqs (stDie st) part o.1 qs).shareOut (stDie st) := by
  simp only [Chip.xdPut, h, ha, hf, Bool.false_eq_true, if_false]

/-- A get asks for its window's bytes once. -/
theorem Chip.xdGet_asks (h : c.xdRun k 2 = some r) (ha : r.asked = false) (hf : c.linkFull (stDie (k / 4)) (xdPeer r.desc) = false) :
    let x := r.desc
    let qs := readReqs ((xdPeer x) <<< 33 + (xdWin x) <<< 27 + xdWinOff x) (xdLen x) 0
    c.xdGet k = (c.setRun k { r with asked := true, begun := true, reqs := r.reqs ++ qs }).sendReqs (stDie (k / 4)) (c.jobPart (dJob x)) 0 qs := by
  simp only [Chip.xdGet, h, ha, hf, Bool.not_false, Bool.and_false, Bool.false_eq_true, if_false, if_true]

/-- A get with every byte of its window there issues them as plain stores. -/
theorem Chip.xdGet_stores {a : Nat} (h : c.xdRun k 2 = some r) (ha : r.asked = true) (hq : r.reqs = []) (ht : r.rets = [])
    (hx : c.xlateW (k / 4) r.task (xdRegion r.desc) (xdLocOff r.desc) (xdLen r.desc) = some a) :
    c.xdGet k = (c.busyXd (k / 4) (k % 4) (xdCycles (xdLen r.desc))).setRun k { r.over with stores := r.stores ++ getStores r a } := by
  simp only [Chip.xdGet, h, ha, hq, ht, hx, Bool.not_true, Bool.false_and, List.isEmpty_nil, Bool.or_self, Bool.false_eq_true, if_false]

/-! ### Windows -/

theorem Chip.xdWopen_opens {a : Nat} (h : c.xdRun k 0x10 = some r) (hs : xwSize r.desc ≠ 0)
    (ha : c.xlateW (k / 4) r.task (xwRegion r.desc) (xwOff r.desc) (xwSize r.desc) = some a) :
    c.xdWopen k = ((c.putWindow (stDie (k / 4)) a r.desc).busyXd (k / 4) (k % 4) 1).setRun k r.over := by
  simp only [Chip.xdWopen, h, hs, ha, if_false]

theorem Chip.xdWopen_rejected (h : c.xdRun k 0x10 = some r) (hs : xwSize r.desc = 0) : c.xdWopen k = c.setRun k { r.over with closed := true } := by
  simp only [Chip.xdWopen, h, hs, if_true]

theorem Chip.xdWclose_first (h : c.xdRun k 0x11 = some r) (hb : r.begun = false) :
    c.xdWclose k = ((c.closeWindow (stDie (k / 4)) (xwWin r.desc)).busyXd (k / 4) (k % 4) 1).setRun k { r with begun := true } := by
  simp only [Chip.xdWclose, h, hb, Bool.false_eq_true, if_false]

theorem Chip.xdWcloseComplete_begun (h : c.xdRun k 0x11 = some r) (hb : r.begun = true) : c.xdWcloseComplete k = c.setRun k r.over := by
  simp only [Chip.xdWcloseComplete, h, Option.filter_some, hb, if_true]

end

section
variable (c : Chip) (d a x w : Nat)

/-- A window's entry once it is opened: open, and of the size that the command names. -/
theorem Chip.putWindow_entry :
    bit ((c.putWindow d a x).reg d (winBlk (xwWin x) + 0xC)) 0 = true ∧ (c.putWindow d a x).reg d (winBlk (xwWin x) + 8) = xwSize x % 2 ^ 32 := by
  have hkey : regKey d (winBlk (xwWin x) + 8) ≠ regKey d (winBlk (xwWin x) + 0xC) := by simp only [regKey]; omega
  unfold Chip.putWindow
  extract_lets w loc c1
  refine ⟨?_, ?_⟩
  · rw [Chip.reg_setReg_self, bit, Nat.testBit_zero, decide_eq_true_eq]
    simp only [Nat.shiftLeft_eq]
    omega
  · rw [Chip.reg_setReg_ne _ _ _ _ _ _ hkey, Chip.reg_setReg_self]

/-- A window's entry once it is closed: not open, and closed in this turn where it was open. -/
theorem Chip.closeWindow_entry :
    bit ((c.closeWindow d w).reg d (winBlk w + 0xC)) 0 = false ∧ (bit (c.reg d (winBlk w + 0xC)) 0 = true → bit ((c.closeWindow d w).reg d (winBlk w + 0xC)) 3 = true) := by
  unfold Chip.closeWindow
  extract_lets off
  split
  · next h =>
    have hreg : ((c.setFld d off 0 0 0).setFld d off 3 3 1).reg d off = putBits (putBits (c.reg d off) 0 0 0) 3 3 1 := by
      rw [Chip.reg_setFld _ _ _ _ _ _ (by decide) (by decide), Chip.reg_setFld _ _ _ _ _ _ (by decide) (by decide)]
    rw [hreg]
    refine ⟨?_, fun _ => ?_⟩
    · rw [bit, testBit_putBits _ _ _ _ _ (Nat.le_refl 3), if_neg (by decide), testBit_putBits _ _ _ _ _ (Nat.le_refl 0), if_pos (by decide), Nat.zero_testBit]
    · rw [bit, testBit_putBits _ _ _ _ _ (Nat.le_refl 3), if_pos (by decide)]
      rfl
  · next h => exact ⟨by simpa using h, fun h' => absurd h' h⟩

end

/-- The station of an XD's list is its die's. -/
theorem stDie_xdKey (d p : Nat) (hp : p < 4) : stDie (xdKey d p / 4) = d := by
  simp only [xdKey, stKey, stDie]; omega

/-- Settles O21: each clause is the lemma of its operation's case, with the window's entry read back. -/
theorem exchangesAndWindows : Obligations.ExchangesAndWindows := by
  refine ⟨?_, ?_⟩
  · intro s d p ups r a hw k x st part
    exact ⟨fun h ha hf => next_work hw (Chip.xdPut_sends ups h ha hf), fun h ha hf => next_work hw (Chip.xdGet_asks h ha hf),
      fun h ha hq ht hx => next_work hw (Chip.xdGet_stores h ha hq ht hx)⟩
  · intro s d p r a hw k x w
    have hdie : stDie (k / 4) = d + 1 := stDie_xdKey _ p p.isLt
    refine ⟨fun h hs ha => ⟨?_, Chip.putWindow_entry ..⟩, fun h hs => next_work hw (Chip.xdWopen_rejected h hs), fun h hb => ⟨?_, Chip.closeWindow_entry ..⟩,
      fun h hb => next_work hw (Chip.xdWcloseComplete_begun h hb)⟩
    · have hopen := Chip.xdWopen_opens h hs ha
      rw [hdie] at hopen
      exact next_work hw hopen
    · have hclose := Chip.xdWclose_first h hb
      rw [hdie] at hclose
      exact next_work hw hclose

end Sys2Proof.Machine
end

section
/-! The commands of a station's list (R63, R67, R136, R164, R327, R473): the start of the next one, and the end of the oldest. -/
namespace Sys2Proof.Machine

section
variable {c : Chip} {k : Nat}

/-- An enabled station starts the next command of its list, whose task is released, once the command before it has issued its input reads. -/
theorem Chip.commandStart_launches (ups : Upsets) :
    let x := c.station k
    let desc := c.listDesc k x.next
    stType (k / 4) ≠ 7 → x.blank = none → bit (c.reg (stDie (k / 4)) (stBlk (stIdx (k / 4)))) 0 = true → x.next < c.listCount k → c.jobDead (dJob desc) = false →
    c.mayRun k (dJob desc) = true → (∀ l, x.runs.getLast? = some l → l.inDone = true ∧ dFence desc = false ∧ dJob l.desc = dJob desc) →
    c.commandStart k ups = c.launch k desc (dJob desc) ups := by
  intro x desc ht hb he hn hd hm hl
  unfold Chip.commandStart
  extract_lets st d j
  rw [if_neg ht, if_neg (by simp [hb, he, hn, st, d]), if_neg (by simp [j, desc, x, hd]), if_neg (by simp [j, desc, x, hm])]
  split
  · next last hlast =>
    obtain ⟨hdone, hfence, hjob⟩ := hl last hlast
    rw [if_neg (by simp [hdone]), if_neg (by simp [hfence, hjob, desc, j, x])]
  · rfl

/-- The start of a command of a station's real work: its descriptor is read, and unless the read finds poison the command is added to the station's work and shown busy. -/
theorem Chip.launch_real (desc j : Nat) (ups : Upsets) (hb : (c.station k).blank = none) :
    let st := k / 4
    let x := c.station k
    let rd := c.read { kind := 2, job := j, part := c.jobPart j, safety := j != 255 && c.isSafety (c.jobPart j) } ups (c.listBase k + 64 * x.next) 64
    let c1 := (if x.next = 0 then rd.1 else rd.1.snapshot st).startCounters st desc x.next (c.cmdPart k j)
    c.launch k desc j ups = if rd.2.2.isEmpty then
        (c1.modStation k (fun y => { y with runs := y.runs ++ [startRun desc y.next (c1.runTask k j)], next := y.next + 1, lastJob := j })).setFld (stDie st) (stBlk (stIdx st) + 0x14) 4 4 1
      else ((c1.modStation k (fun y => { y with next := y.next + 1, lastJob := j })).skipCmd k x.next stPoisoned).consume st j 4 := by
  intro st x rd c1
  have hplaces : c1.places = c.places := by
    simp only [c1, rd, Chip.places_startCounters, apply_ite Chip.places, Chip.places_snapshot, Chip.places_read, ite_self]
  rw [Chip.runTask_of_places hplaces]
  simp only [Chip.launch, hb, Option.isSome_none, Bool.false_eq_true, if_false]
  rfl

/-- The oldest command of a station's real work ends once everything that it issued is done. -/
theorem Chip.commandComplete_settled {r : Run} {rest : List Run} (hr : (c.station k).runs = r :: rest) (hb : (c.station k).blank = none) (hs : r.settled = true)
    (hp : c.pipeBusy (k / 4) r.desc = false) :
    let st := k / 4
    let c2 := ((c.endRegs st r).modStation k (fun y => { y with runs := rest })).endReal k r.ix (if r.status = stOk ∧ r.closed then stWindowClosed else r.status)
    let c3 := if rest.isEmpty ∧ c2.listCount k ≤ (c2.station k).next then c2.snapshot st else c2
    c.commandComplete k = (c3.taskDone k (dJob r.desc)).resume st := by
  simp only [Chip.commandComplete, hr, hb, hs, hp, Bool.not_true, Bool.or_self, Bool.false_eq_true, if_false, Option.isSome_none]

end

/-- The station of a context's key. -/
theorem stKey_div (st p : Nat) (hp : p < 4) : stKey st p / 4 = st := by
  simp only [stKey]; omega

/-- Settles O24: a start by `Chip.launch_real`, whose read and counters leave the tables that name the task, and an end by its own lemma. -/
theorem stationStartsAndCompletes : Obligations.StationStartsAndCompletes := by
  have hkey : ∀ (st : Stn) (p : Part), stKey st (if isXd st then p else 0) / 4 = st := fun st p => stKey_div _ _ (by split; exacts [p.isLt, by decide])
  refine ⟨?_, ?_⟩
  · intro s st p ups hw k c x desc j ht hb he hn hd hm hl rd c1
    have hst : k / 4 = st := hkey st p
    have hstart := Chip.commandStart_launches (c := c) (k := k) ups (hst ▸ ht) hb (hst ▸ he) hn hd hm hl
    have hrun := hstart.trans (Chip.launch_real _ _ ups hb)
    rw [hst] at hrun
    exact next_work hw hrun
  · intro s st p r rest hw k hr hb hs hp
    have hst : k / 4 = st := hkey st p
    have hend := Chip.commandComplete_settled hr hb hs (hst ▸ hp)
    rw [hst] at hend
    exact next_work hw hend

end Sys2Proof.Machine
end

section
/-! The bytes of memory that storing commands leave (R41, R56, R95, R184): each store is a write at an address of its own, and what goes with it leaves memory. -/
namespace Sys2Proof.Machine

/-! ### Bytes outside a write -/

theorem Chip.byte_of_mem {c e : Chip} (h : e.mem = c.mem) (a : Nat) : e.byte a = c.byte a := congrArg (fun m : List Host.Cell => tabGet 0#8 m a) h

theorem Chip.byte_setQueue (c : Chip) (q : Nat) (v : Queue) (a : Nat) : (c.setQueue q v).byte a = c.byte a := rfl

theorem Chip.byte_pruneSlot (c : Chip) (q i a : Nat) : (c.pruneSlot q i).byte a = c.byte a := rfl

theorem Chip.byte_setMx (c : Chip) (st : Nat) (v : Mx) (a : Nat) : (c.setMx st v).byte a = c.byte a := rfl

theorem Chip.byte_setRow (c : Chip) (st arr r : Nat) (v : Row) (a : Nat) : (c.setRow st arr r v).byte a = c.byte a := rfl

theorem Chip.byte_setContrib (c : Chip) (k : Nat) (v : Contrib) (a : Nat) : (c.setContrib k v).byte a = c.byte a := rfl

theorem Chip.byte_setRun (c : Chip) (k : Nat) (r : Run) (a : Nat) : (c.setRun k r).byte a = c.byte a := rfl

/-- A byte outside the span of a write. -/
theorem Chip.byte_write_outside (c : Chip) {a n x : Nat} {b : Bytes} (pois : List Nat) (who : Reader) (ups : Upsets) (hn : b.length ≤ n) (h : x < a ∨ a + n ≤ x) :
    (c.write a b pois who ups).byte x = c.byte x := by
  rw [Chip.byte_write, if_neg (by omega)]

/-- A loop of steps that leave a byte leaves it. -/
theorem eachDo_byte {α : Type} {f : α → Chip → Chip} {l : List α} {a : Nat} (hf : ∀ x ∈ l, ∀ c, (f x c).byte a = c.byte a) (c : Chip) : (eachDo l f c).byte a = c.byte a := by
  induction l generalizing c with
  | nil => rfl
  | cons x l ih => exact (ih (fun y hy => hf y (.tail _ hy)) (f x c)).trans (hf x (.head _) c)

/-- A station's command leaves a byte, whether it works or not, where its effect does. -/
theorem Chip.byte_work {c : Chip} {f : Chip → Chip} {a : Nat} (h : (f c).byte a = c.byte a) : (c.work f).byte a = c.byte a := by
  rw [Chip.work]
  split
  · rfl
  · exact h

theorem Chip.byte_live {c : Chip} {f : Chip → Chip} {a : Nat} (h : (f c).byte a = c.byte a) : (c.live f).byte a = c.byte a := by
  rw [Chip.live]
  split
  · rfl
  · exact h

theorem length_toLE (n x : Nat) : (toLE n x).length = n := by
  induction n generalizing x with
  | zero => rfl
  | succ n ih => rw [toLE, List.length_cons, ih]

/-! ### Operations that leave memory -/

theorem Chip.mem_stall (c : Chip) (st r n : Nat) : (c.stall st r n).mem = c.mem :=
  (Chip.stall_follows st r n (Kept.but_follows [.regs] c) (Kept.but_free _ c)).mem_eq (by decide)

theorem Chip.mem_busy (c : Chip) (st n : Nat) : (c.busy st n).mem = c.mem :=
  (Chip.busy_follows st n (Kept.but_follows [.regs] c) (Kept.but_free _ c)).mem_eq (by decide)

theorem Chip.mem_boundFault (c : Chip) (k : Nat) (r : Run) (region off rem : Nat) : (c.boundFault k r region off rem).mem = c.mem :=
  (Chip.boundFault_follows k r region off rem (Kept.but_follows [.regs, .fab, .cmp, .lnk, .wrk, .flt, .obs, .nv] c) (Kept.but_free _ c)).mem_eq (by decide)

theorem Chip.mem_carryReq (c : Chip) (r : Run) (q : WReq) (rest : List WReq) (src part key : Nat) (b : Bytes) : (c.carryReq r q rest src part key b).mem = c.mem :=
  (Chip.carryReq_follows r q rest src part key b (Kept.but_follows [.lnk] c) (Kept.but_free _ c)).mem_eq (by decide)

theorem Chip.mem_sendData (c : Chip) (h : FlitHdr) (b : Bytes) (pois : List Nat) : (c.sendData h b pois).mem = c.mem :=
  (Chip.sendData_follows h b pois (Kept.but_follows [.lnk] c) (Kept.but_free _ c)).mem_eq (by decide)

theorem Chip.mem_openContrib (c : Chip) (src dst part job : Nat) (xd : Bool) : (c.openContrib src dst part job xd).2.mem = c.mem :=
  (Chip.openContrib_follows src dst part job xd (Kept.but_follows [.regs, .lnk] c) (Kept.but_free _ c)).mem_eq (by decide)

theorem Chip.mem_read (c : Chip) (who : Reader) (ups : Upsets) (a n : Nat) : (c.read who ups a n).1.mem = c.mem :=
  (Chip.read_follows who ups a n (Kept.but_follows [.regs, .ecc, .flt, .free] c) (Kept.but_free _ c)).mem_eq (by decide)

theorem Chip.mem_mxCheck (c : Chip) (st a kind row desc : Nat) (k : Check) : (c.mxCheck st a kind row desc k).mem = c.mem :=
  (Chip.mxCheck_follows st a kind row desc k (Kept.but_follows [.regs, .flt] c) (Kept.but_free _ c)).mem_eq (by decide)

/-! ### Row writes -/

theorem length_applyFaults (fs : LaneFaults) (a : Nat) (acc : Bool) (ys : List Nat) : (applyFaults fs a acc ys).length = ys.length := by
  rw [applyFaults, List.length_map, List.length_zipIdx]

theorem length_laneRuns (wt : Nat) (sparse : Bool) (payload : Bytes) : (laneRuns wt sparse payload).length = 64 := by
  rw [laneRuns, List.length_map, List.length_range]

/-- An array writes its own row. -/
theorem Chip.byte_arrayWrite (c : Chip) (st : Nat) (v : Vec) (p : Pass) (w : Weights) (fs : LaneFaults) {a : Nat}
    (h : a < rowAddr (stDie st) ((stIdx st - 32) / 4) w.arr v.tag ∨ rowAddr (stDie st) ((stIdx st - 32) / 4) w.arr v.tag + 256 ≤ a) :
    (c.arrayWrite st v p w fs).byte a = c.byte a := by
  unfold Chip.arrayWrite
  extract_lets d core arr o act ws inj hitInj ys0 ys chk row addr accum old oldPois new chk2 bad pois prov row1 c1 c2 c3
  have hys : ys.length = 64 := by
    simp only [ys, ys0, ws, length_applyFaults, List.length_map, List.length_zipIdx, length_laneRuns]
  have hnew : new.length ≤ 64 := by
    simp only [new]
    split
    · rw [length_applyFaults, List.length_map, List.length_zip, hys]
      exact Nat.min_le_right _ _
    · exact hys.le
  have hbytes : (new.flatMap (toLE 4)).length ≤ 256 := by
    rw [List.length_flatMap, List.map_congr_left (fun x _ => length_toLE 4 x), List.map_const', List.sum_replicate, smul_eq_mul]
    omega
  have hmem : c3.mem = c.mem := by
    have hc1 : c1.mem = c.mem := by
      simp only [c1]
      split <;> rfl
    exact (Chip.mem_mxCheck ..).trans ((Chip.mem_mxCheck ..).trans hc1)
  rw [Chip.byte_setRow, c3.byte_write_outside [] {} [] hbytes h, Chip.byte_of_mem hmem]

/-- The oldest vector of the pipeline writes the rows of its pass's arrays. -/
theorem Chip.byte_mxRowWrite (c : Chip) (st : Nat) (fs : LaneFaults) {f : Flight} {rest : List Flight} (hp : (c.mxOf st).pipe = f :: rest) {a : Nat}
    (h : ∀ w ∈ f.pass.wts, a < rowAddr (stDie st) ((stIdx st - 32) / 4) w.arr f.vec.tag ∨ rowAddr (stDie st) ((stIdx st - 32) / 4) w.arr f.vec.tag + 256 ≤ a) :
    (c.mxRowWrite st fs).byte a = c.byte a := by
  have hrows : ∀ m : Chip, (eachDo f.pass.wts (fun w c => c.arrayWrite st f.vec f.pass w fs) m).byte a = m.byte a :=
    eachDo_byte fun w hw k => k.byte_arrayWrite st f.vec f.pass w fs (h w hw)
  have hend : ∀ (last : Bool) (m : Chip) (n : Nat), (if last then m.stall st 1 n else m).byte a = m.byte a := fun last m n => by
    split
    · exact Chip.byte_of_mem (m.mem_stall st 1 n) a
    · rfl
  simp only [Chip.mxRowWrite, hp]
  rw [hend, hrows, Chip.byte_setMx]

/-! ### Filled slots -/

theorem Kept.Follows.boot_eq {l : List Comp} {c d : Chip} (h : (Kept.but l c).Follows d) (hl : Comp.boot ∉ l) : d.boot = c.boot :=
  h.same .boot (by simp [Kept.but, hl])

/-- A slot takes its header and payload. -/
theorem Chip.byte_fillSlot (c : Chip) (q i hdr : Nat) (payload : Bytes) (bad : List Nat) (sentProv : Bool) (who : Reader) (ups : Upsets) {a : Nat}
    (h : a < c.slotAddr q i ∨ c.slotAddr q i + 32 + payload.length ≤ a) : (c.fillSlot q i hdr payload bad sentProv who ups).byte a = c.byte a := by
  unfold Chip.fillSlot
  extract_lets _ c1 x _ y
  rw [Chip.byte_setQueue, Chip.byte_write_outside _ (a := c.slotAddr q i) [] who ups (length_toLE 32 hdr).le (by omega),
    Chip.byte_write_outside _ (a := c.slotAddr q i + 32) bad who ups (Nat.le_refl payload.length) (by omega), Chip.byte_pruneSlot]

/-- A tile delivered over the fabric fills its slot, and its flits leave memory. -/
theorem Chip.byte_deliverTile (c : Chip) (q i hdr : Nat) (payload : Bytes) (ups : Upsets) {a : Nat}
    (h : a < c.slotAddr q i ∨ c.slotAddr q i + 32 + payload.length ≤ a) : (c.deliverTile q i hdr payload ups).byte a = c.byte a := by
  unfold Chip.deliverTile
  extract_lets x src dst o sent k bytes isum c2 _ c3
  have hdies : src < 8 ∧ dst < 8 := by
    have hprod : qProd x < 1024 := Nat.mod_lt _ (by decide)
    have hcons : qCons x < 1024 := Nat.mod_lt _ (by decide)
    exact ⟨by omega, by omega⟩
  have hfollow := Chip.openContrib_follows src dst (qPart x) (hJob hdr) false (Kept.but_follows [.regs, .lnk] c) (Kept.but_free _ c)
  have haddr : o.2.slotAddr q i = c.slotAddr q i :=
    Chip.slotAddr_of_places (Chip.places_openContrib c hdies.1 hdies.2 _ _ _) (hfollow.boot_eq (by decide)) (congrArg Fab.queues (hfollow.fab_eq (by decide))) q i
  have hfill : c2.byte a = o.2.byte a := Chip.byte_fillSlot o.2 q i _ payload [] _ {} ups (by rw [haddr]; exact h)
  have htrailer : ∀ m : Chip, (m.sendTrailer src dst (qPart x) o.1).mem = m.mem := fun m =>
    (Chip.sendTrailer_follows src dst (qPart x) o.1 (Kept.but_follows [.lnk] m) (Kept.but_free _ m)).mem_eq (by decide)
  rw [Chip.byte_of_mem (htrailer _), Chip.byte_of_mem (Chip.mem_sendData ..), Chip.byte_setContrib, hfill, Chip.byte_of_mem (Chip.mem_openContrib ..)]

theorem Chip.queues_setStation (c : Chip) (k : Nat) (v : Station) : (c.setStation k v).fab.queues = c.fab.queues := rfl

/-- A command's progress leaves the places of slots. -/
theorem Chip.slotAddr_setRun (c : Chip) (k : Nat) (r : Run) (q i : Nat) : (c.setRun k r).slotAddr q i = c.slotAddr q i :=
  have hfollow := Chip.setRun_follows k r (Kept.but_follows [.fab] c) (Kept.but_free _ c)
  Chip.slotAddr_of_places (hfollow.places_eq (by decide)) (hfollow.boot_eq (by decide)) (c.queues_setStation k _) q i

/-- A slot that takes the producer's tile, at the address that it has before. -/
theorem Chip.byte_slotFull (c : Chip) (q : Nat) (ups : Upsets) {r : Run} {j : Nat} {t : OutTile} {rest : List OutTile}
    (hr : c.filler (c.keyOf (qProd (c.qdesc q)) (qPart (c.qdesc q))) q = some (r, j)) (ht : r.outsOf j = t :: rest) {a : Nat} :
    let dep := max 1 (qDepth (c.qdesc q))
    let i := ((c.queue q).claimIx + dep - (c.queue q).count .filling % dep) % dep
    (a < c.slotAddr q i ∨ c.slotAddr q i + 32 + t.data.length ≤ a) → (c.slotFull q ups).byte a = c.byte a := by
  intro dep i h
  unfold Chip.slotFull
  extract_lets x qu k
  simp only [show c.filler k q = some (r, j) from hr, ht]
  split
  · rfl
  split
  · exact Chip.byte_of_mem (Chip.mem_boundFault ..) a
  split
  · exact Chip.byte_of_mem (Chip.mem_stall ..) a
  have hcontribs : ∀ (l : List Nat) (m : Chip), (eachDo l (fun n c => c.setContrib n { c.contrib n with slots := (c.contrib n).slots ++ [(q, i)] }) m).byte a = m.byte a :=
    fun l m => eachDo_byte (fun n _ k => k.byte_setContrib n _ a) m
  have hdump : ∀ (r' : Run) (d desc n : Nat) (tile : Bytes),
      (((c.setRun k r').dumpTile d desc n tile).byte a = c.byte a) ∧ ((c.setRun k r').dumpTile d desc n tile).slotAddr q i = c.slotAddr q i := fun r' d desc n tile => by
    have hfollow := Chip.dumpTile_follows d desc n tile (Kept.but_follows [.regs, .obs] (c.setRun k r')) (Kept.but_free _ _)
    have hplaces : ((c.setRun k r').dumpTile d desc n tile).places = (c.setRun k r').places := Chip.places_dumpTile ..
    refine ⟨?_, ?_⟩
    · rw [Chip.byte_of_mem (hfollow.mem_eq (by decide)), Chip.byte_setRun]
    · rw [Chip.slotAddr_of_places hplaces (hfollow.boot_eq (by decide)) (congrArg Fab.queues (hfollow.fab_eq (by decide))), Chip.slotAddr_setRun]
  obtain ⟨hbyte, haddr⟩ := hdump { r.setClaims j (r.claims j - 1) with outs := dropFirst (fun y => y.k == j) r.outs } (stDie (k / 4)) r.desc j _
  rw [Chip.byte_of_mem (Chip.mem_busy ..)]
  split
  · exact (Chip.byte_deliverTile _ q i _ t.data ups (by rw [haddr]; exact h)).trans hbyte
  · rw [hcontribs, Chip.byte_fillSlot _ q i _ t.data _ _ _ _ (by rw [haddr]; exact h), hbyte]

/-! ### Plain stores and remote writes -/

/-- A scatter-add element takes its four bytes. -/
theorem Chip.byte_addElem (c : Chip) (x : Store) (who : Reader) (ups : Upsets) {a : Nat} (h : a < x.addr ∨ x.addr + 4 ≤ a) : (c.addElem x who ups).byte a = c.byte a := by
  have hpois : ∀ (m : Chip) (w : Nat) (b : Bool), (m.setPois w b).byte a = m.byte a := fun _ _ _ => rfl
  unfold Chip.addElem
  extract_lets old c1
  have hc1 : c1.byte a = c.byte a := c.byte_write_outside [] who ups (length_toLE 4 _).le h
  split
  · rw [hpois, hc1]
  · exact hc1

theorem Chip.byte_plainStoreAccept (c : Chip) (k : Nat) (ups : Upsets) {r : Run} {x : Store} {rest : List Store}
    (hr : (c.station k).runs.find? (fun r => !r.stores.isEmpty) = some r) (hx : r.stores = x :: rest) {a : Nat}
    (h : a < x.addr ∨ x.addr + (if x.add then 4 else x.data.length) ≤ a) : (c.plainStoreAccept k ups).byte a = c.byte a := by
  cases hhit : c.slotHit x.addr x.data.length with
  | some e =>
    rw [Chip.plainStoreAccept_hit ups hr hx hhit]
    exact Chip.byte_of_mem (Chip.mem_storeDropped ..) a
  | none =>
    rw [Chip.plainStoreAccept_clear ups hr hx hhit]
    by_cases hadd : x.add = true
    · rw [if_pos hadd] at h ⊢
      rw [Chip.byte_addElem _ x _ ups h, Chip.byte_setRun]
    · rw [if_neg hadd] at h ⊢
      rw [Chip.byte_write_outside _ x.pois _ ups (Nat.le_refl x.data.length) h, Chip.byte_setRun]

/-- A request that arrives writes its own bytes where it is an accepted write, and nothing where it is refused or reads. -/
theorem Chip.byte_remoteRequestArrive (c : Chip) (k : Nat) (ups : Upsets) {r : Run} {q : WReq} {rest : List WReq} (hr : c.asker k = some (r, q, rest)) {a : Nat}
    (h : a < c.winStart q.die q.win + q.off ∨ c.winStart q.die q.win + q.off + q.data.length ≤ a) : (c.remoteRequestArrive k ups).byte a = c.byte a := by
  have hcarry : ∀ (m : Chip) (src part key : Nat) (b : Bytes), (m.carryReq r q rest src part key b).byte a = m.byte a := fun m src part key b =>
    Chip.byte_of_mem (m.mem_carryReq r q rest src part key b) a
  have hcount : ∀ (d o n : Nat), (c.addReg d o n).byte a = c.byte a := fun _ _ _ => rfl
  simp only [Chip.remoteRequestArrive, hr]
  split
  · rw [Chip.byte_setRun]
    split
    · split
      · exact hcount ..
      · rw [hcarry, hcount]
    · split
      · exact hcount ..
      · rw [hcarry, hcount]
  split
  · have hwrite := fun who => c.byte_write_outside q.pois who ups (Nat.le_refl q.data.length) h
    rw [Chip.byte_setRun]
    split
    · exact hwrite _
    · rw [hcarry, hwrite]
  · rw [Chip.byte_setRun, hcarry, Chip.byte_of_mem (Chip.mem_sendData ..)]
    split
    · rw [Chip.byte_of_mem (Chip.mem_openContrib ..), Chip.byte_of_mem (Chip.mem_read ..)]
    · exact Chip.byte_of_mem (Chip.mem_read ..) a

/-- Settles O9: each clause is the operation's lemma, under the guard of its command. -/
theorem storesTouchOnlyTheirBytes : Obligations.StoresTouchOnlyTheirBytes := by
  intro s t
  refine ⟨?_, ?_, ?_, ?_⟩
  · intro d k flts f rest he hp a ha
    have hst : stDie (coreStn (d + 1) k 0) = d + 1 ∧ (stIdx (coreStn (d + 1) k 0) - 32) / 4 = k := by
      simp only [coreStn, stDie, stIdx]; omega
    have hrow := Chip.byte_mxRowWrite s.chip (coreStn (d + 1) k 0) flts hp (a := a) (by rw [hst.1, hst.2]; exact ha)
    cases he
    exact Chip.byte_work hrow
  · intro q ups r j o rest he x qu dep i hr ho a ha
    cases he
    exact Chip.byte_work (Chip.byte_slotFull s.chip q ups hr ho ha)
  · intro st p ups r x rest he hr hx a ha
    cases he
    exact Chip.byte_work (Chip.byte_plainStoreAccept s.chip _ ups hr hx ha)
  · intro st p ups r q rest he hr a ha
    cases he
    exact Chip.byte_live (Chip.byte_remoteRequestArrive s.chip _ ups hr ha)

end Sys2Proof.Machine
end

section
/-! Floating lanes (R92, R93): what a lane answers when some of its products are not finite. -/
namespace Sys2Proof.Machine

/-- Sign of an infinite product. -/
def prodNeg (p : Fv × Fv) : Bool := fvNeg p.1 != fvNeg p.2

/-- Whether a product that is not finite is NaN: an operand is NaN, or infinity meets a zero. -/
def prodNan (p : Fv × Fv) : Bool := p.1 == .nan || p.2 == .nan || fvZero p.1 || fvZero p.2

/-- The products of a lane that are not finite. -/
def badProds (act wt : Nat) (a : Act) (w : LaneW) : List (Fv × Fv) := (laneProds act wt a w).filter prodBad

/-- Whether a value is an infinity. -/
def fvInf (x : Fv) : Prop := x = .inf true ∨ x = .inf false

theorem fvFinite_eq_false (x : Fv) : fvFinite x = false ↔ x = .nan ∨ fvInf x := by
  cases x with
  | nan => simp [fvFinite]
  | inf b => cases b <;> simp [fvFinite, fvInf]
  | fin => simp [fvFinite, fvInf]

theorem fvFinite_of_zero {x : Fv} (h : fvZero x = true) : fvFinite x = true := by
  cases x with
  | nan | inf => cases h
  | fin => rfl

theorem prodBad_iff (p : Fv × Fv) : prodBad p = true ↔ fvFinite p.1 = false ∨ fvFinite p.2 = false := by simp [prodBad]

theorem prodNan_iff (p : Fv × Fv) : prodNan p = true ↔ p.1 = .nan ∨ p.2 = .nan ∨ fvZero p.1 = true ∨ fvZero p.2 = true := by simp [prodNan, or_assoc]

theorem prodBad_of_inf {p : Fv × Fv} (h : fvInf p.1 ∨ fvInf p.2) : prodBad p = true :=
  (prodBad_iff p).mpr (h.imp (fun h => (fvFinite_eq_false _).mpr (.inr h)) (fun h => (fvFinite_eq_false _).mpr (.inr h)))

/-- R93's NaN products: an operand is NaN, or the product is infinity × 0. -/
theorem prodBad_and_prodNan_iff (p : Fv × Fv) :
    prodBad p = true ∧ prodNan p = true ↔ p.1 = .nan ∨ p.2 = .nan ∨ (fvInf p.1 ∧ fvZero p.2 = true) ∨ (fvZero p.1 = true ∧ fvInf p.2) := by
  rw [prodBad_iff, prodNan_iff, fvFinite_eq_false, fvFinite_eq_false]
  constructor
  · rintro ⟨hbad, h | h | h | h⟩
    · exact .inl h
    · exact .inr (.inl h)
    · have hfin : ¬ (p.1 = .nan ∨ fvInf p.1) := by rw [← fvFinite_eq_false, fvFinite_of_zero h]; decide
      exact (hbad.resolve_left hfin).elim (fun h2 => .inr (.inl h2)) (fun h2 => .inr (.inr (.inr ⟨h, h2⟩)))
    · have hfin : ¬ (p.2 = .nan ∨ fvInf p.2) := by rw [← fvFinite_eq_false, fvFinite_of_zero h]; decide
      exact (hbad.resolve_right hfin).elim .inl (fun h1 => .inr (.inr (.inl ⟨h1, h⟩)))
  · rintro (h | h | ⟨h1, h2⟩ | ⟨h1, h2⟩)
    · exact ⟨.inl (.inl h), .inl h⟩
    · exact ⟨.inr (.inl h), .inr (.inl h)⟩
    · exact ⟨.inl (.inr h1), .inr (.inr (.inr h2))⟩
    · exact ⟨.inr (.inr h2), .inr (.inr (.inl h1))⟩

/-- A product that is not finite and not NaN has an infinite operand. -/
theorem fvInf_of_prodBad {p : Fv × Fv} (hbad : prodBad p = true) (hnan : prodNan p = false) : fvInf p.1 ∨ fvInf p.2 := by
  have hno : ¬ (p.1 = .nan ∨ p.2 = .nan ∨ fvZero p.1 = true ∨ fvZero p.2 = true) := by rw [← prodNan_iff, hnan]; decide
  rw [prodBad_iff, fvFinite_eq_false, fvFinite_eq_false] at hbad
  exact hbad.imp (·.resolve_left fun h => hno (.inl h)) (·.resolve_left fun h => hno (.inr (.inl h)))

section
variable {act wt : Nat} {a : Act} {w : LaneW} {p q : Fv × Fv}

/-- A lane with a product that is not finite answers by those products alone. -/
theorem laneFp_of_bad (hp : p ∈ badProds act wt a w) :
    let bad := badProds act wt a w
    laneFp act wt a w = if bad.any prodNan then arrayNaN else if bad.any prodNeg && bad.any (fun q => !prodNeg q) then arrayNaN else inf32 ((bad.map prodNeg).headD false) := by
  intro bad
  have hne : bad.isEmpty = false := List.isEmpty_eq_false_iff.mpr (List.ne_nil_of_mem hp)
  rw [laneFp]
  simp only [show (laneProds act wt a w).filter prodBad = bad from rfl, hne, List.any_map, Bool.false_eq_true, if_false]
  rfl

theorem laneFp_of_nan (hp : p ∈ badProds act wt a w) (h : prodNan p = true) : laneFp act wt a w = arrayNaN := by
  rw [laneFp_of_bad hp, if_pos (List.any_eq_true.mpr ⟨p, hp, h⟩)]

theorem laneFp_of_both_signs (hp : p ∈ badProds act wt a w) (hq : q ∈ badProds act wt a w) (hneg : prodNeg p = true) (hpos : prodNeg q = false) :
    laneFp act wt a w = arrayNaN := by
  have hboth : ((badProds act wt a w).any prodNeg && (badProds act wt a w).any (fun q => !prodNeg q)) = true :=
    Bool.and_eq_true_iff.mpr ⟨List.any_eq_true.mpr ⟨p, hp, hneg⟩, List.any_eq_true.mpr ⟨q, hq, by rw [hpos]; rfl⟩⟩
  rw [laneFp_of_bad hp, if_pos hboth, ite_self]

theorem laneFp_of_one_sign (hp : p ∈ badProds act wt a w) (hnan : ∀ q ∈ badProds act wt a w, prodNan q = false)
    (hsign : ∀ q ∈ badProds act wt a w, prodNeg q = prodNeg p) : laneFp act wt a w = inf32 (prodNeg p) := by
  have hone : ((badProds act wt a w).any prodNeg && (badProds act wt a w).any (fun q => !prodNeg q)) = false := by
    by_contra h
    obtain ⟨⟨x, hx, hneg⟩, y, hy, hpos⟩ := by simpa only [Bool.not_eq_false, Bool.and_eq_true, List.any_eq_true] using h
    rw [hsign x hx, ← hsign y hy] at hneg
    simp [hneg] at hpos
  have hhead : ((badProds act wt a w).map prodNeg).headD false = prodNeg p := by
    cases hbad : badProds act wt a w with
    | nil => exact absurd hp (by simp [hbad])
    | cons x _ => exact hsign x (by simp [hbad])
  rw [laneFp_of_bad hp, if_neg (by simpa [List.any_eq_true] using hnan), hone, hhead]
  rfl

end

/-- Settles O10: the products that are not finite are those of `badProds`, and a lane answers by whether one of them is NaN and by their signs. -/
theorem floatingLaneNonfinite : Obligations.FloatingLaneNonfinite := by
  intro act wt a w ps inf infProd isNan
  have hmem : ∀ {p sign}, infProd p sign → p ∈ badProds act wt a w ∧ prodNeg p = sign := fun ⟨hp, hi, hs⟩ => ⟨List.mem_filter.mpr ⟨hp, prodBad_of_inf hi⟩, hs⟩
  refine ⟨?_, fun hn p sign h => ?_⟩
  · rintro (⟨p, hp, hnan⟩ | ⟨⟨p, hneg⟩, q, hpos⟩)
    · obtain ⟨hbad, hnan⟩ := (prodBad_and_prodNan_iff p).mpr hnan
      exact laneFp_of_nan (List.mem_filter.mpr ⟨hp, hbad⟩) hnan
    · exact laneFp_of_both_signs (hmem hneg).1 (hmem hpos).1 (hmem hneg).2 (hmem hpos).2
  · obtain ⟨hnone, hsigns⟩ := not_or.mp hn
    have hclean : ∀ q ∈ badProds act wt a w, prodNan q = false := fun q hq => by
      by_contra hnan
      exact hnone ⟨q, List.mem_of_mem_filter hq, (prodBad_and_prodNan_iff q).mp ⟨List.of_mem_filter hq, by simpa using hnan⟩⟩
    have hinf : ∀ q ∈ badProds act wt a w, infProd q (prodNeg q) := fun q hq =>
      ⟨List.mem_of_mem_filter hq, fvInf_of_prodBad (List.of_mem_filter hq) (hclean q hq), rfl⟩
    obtain ⟨hp, rfl⟩ := hmem h
    have hsame : ∀ q ∈ badProds act wt a w, prodNeg q = prodNeg p := fun q hq => by
      by_contra hne
      have hi := hinf q hq
      cases hpn : prodNeg p with
      | true =>
        rw [hpn] at h hne
        exact hsigns ⟨⟨p, h⟩, q, by simpa [hne] using hi⟩
      | false =>
        rw [hpn] at h hne
        exact hsigns ⟨⟨q, by simpa [hne] using hi⟩, p, h⟩
    rw [laneFp_of_one_sign hp hclean hsame]
    cases prodNeg p <;> rfl

end Sys2Proof.Machine
end

section
/-! The matrix arrays (R82–R98): what the commands of a pass do, each by its cases, and the rows that its vectors leave. -/
namespace Sys2Proof.Machine

/-! ### A pass and its weights -/

section
variable {c : Chip} {st : Nat} {r : Run}

/-- An MX_PASS that has not begun is taken. -/
theorem Chip.mxPass_taken (hr : c.curRun (stKey st 0) = some r) (hb : r.begun = false) (ht : dType r.desc = 1) (ho : dOp r.desc = 1) :
    c.mxPass st = c.setRun (stKey st 0) { r with begun := true } := by
  simp [Chip.mxPass, hr, hb, ht, ho]

/-- The first run of a list of places that all satisfy a test is the whole list. -/
theorem takeWhile_range_all {n : Nat} {f : Nat → Bool} (h : ∀ i < n, f i = true) : (List.range n).takeWhile f = List.range n :=
  List.takeWhile_eq_self_iff.mpr fun i hi => h i (List.mem_range.mp hi)

/-- With every weight tile FULL, none of them EOS, and each good, the pass begins. -/
theorem Chip.mxPassBegin_good (ups : Upsets) (hr : c.curRun (stKey st 0) = some r) (hb : r.begun = true) (hd : r.inDone = false) (ht : r.taken = 0)
    (hm : ∀ p, (c.mxOf st).pass = some p → p.left = 0) (hf : (c.queue (dInQ r.desc 0)).frozen = false) :
    let k := stKey st 0
    let m := c.mxOf st
    let q := dInQ r.desc 0
    let at_ := fun (i : Nat) => ((c.queue q).acqIx + i) % max 1 (qDepth (c.qdesc q))
    (∀ i < (mxArrays r.desc).length, ((c.queue q).slot (at_ i)).st = .full ∧ c.slotIn q (at_ i) = true ∧ hEos (fromLE (c.peek (c.slotAddr q (at_ i)) 32)) = false) →
    let x := (c.waiting k 6 false).takeWeights st r q ups (mxArrays r.desc)
    (∀ w ∈ x.2.2, w.got = .ok) →
    c.mxPassBegin st ups =
      ((x.1.setRun k x.2.1).setMx st { m with pass := some { desc := r.desc, wts := x.2.2.map (·.wts), left := mxVecs r.desc, loading := true } }).stall st 3 64 := by
  intro k m q at_ hslots x hgot
  have hready : (List.range (mxArrays r.desc).length).takeWhile (fun i => ((c.queue q).slot (at_ i)).st == .full) = List.range (mxArrays r.desc).length :=
    takeWhile_range_all fun i hi => by simp [(hslots i hi).1]
  have hno : ∀ f : Nat → Bool, (∀ i < (mxArrays r.desc).length, f i = false) → (List.range (mxArrays r.desc).length).find? f = none := fun f h =>
    List.find?_eq_none.mpr fun i hi => by simp [h i (List.mem_range.mp hi)]
  have heos := hno (fun i => hEos (fromLE (c.peek (c.slotAddr q (at_ i)) 32))) fun i hi => (hslots i hi).2.2
  have hout := hno (fun i => !c.slotIn q (at_ i)) fun i hi => by simp [(hslots i hi).2.1]
  have hbad : x.2.2.find? (fun w => w.got != .ok) = none := List.find?_eq_none.mpr fun w hw => by simp [hgot w hw]
  simp only [k, m, q, at_, x] at hready heos hout hbad ⊢
  rw [Chip.mxPassBegin]
  simp only [hr]
  rw [if_neg]
  · simp only [hready, List.length_range, heos, hout, if_true, List.take_length, hbad]
  · cases hp : (c.mxOf st).pass with
    | none => simp [hb, hd, ht, hf]
    | some p => simp [hb, hd, ht, hf, hm p hp]

/-- When the last run has been read the load ends and the weight slots become EMPTY. -/
theorem Chip.weightLoadDone_loading {p : Pass} (hr : c.curRun (stKey st 0) = some r) (hp : (c.mxOf st).pass = some p) (hl : p.loading = true) :
    c.weightLoadDone st =
      (eachDo r.ins (fun t c => c.freeSlot t) (c.setMx st { c.mxOf st with pass := some { p with loading := false } })).setRun (stKey st 0) { r with ins := [] } := by
  simp [Chip.weightLoadDone, hr, hp, hl]

/-! ### Vectors -/

/-- The oldest vector of the feeder's buffer issues when each array of the pass accepts its row. -/
theorem Chip.mxVectorIssue_accepted {p : Pass} {v : Vec} {rest : List Vec} (hp : (c.mxOf st).pass = some p) (hr : c.curRun (stKey st 0) = some r) (hl : p.loading = false)
    (hn : p.left ≠ 0) (hd : r.desc = p.desc) (hb : (c.wfOf (st + 1)).buf = v :: rest) (hv : v.pool = false) (hfree : ∀ a ∈ mxArrays p.desc, c.rowFree st a v.tag = true) :
    let c1 := (c.setWf (st + 1) { c.wfOf (st + 1) with buf := rest }).setMx st { pass := some { p with left := p.left - 1 }, pipe := (c.mxOf st).pipe ++ [⟨v, p⟩] }
    let c2 := (c1.busy st 1).countOps st p.desc
    c.mxVectorIssue st = if p.left = 1 then c2.setRun (stKey st 0) { r with inDone := true } else c2 := by
  have hall : (mxArrays p.desc).all (fun a => c.rowFree st a v.tag) = true := List.all_eq_true.mpr hfree
  have hlast : p.left - 1 = 0 ↔ p.left = 1 := by omega
  simp [Chip.mxVectorIssue, hp, hr, hl, hn, hd, hb, hv, hall, hlast]

end

/-! ### Row writes -/

theorem Kept.Follows.cmp_eq {l : List Comp} {c d : Chip} (h : (Kept.but l c).Follows d) (hl : Comp.cmp ∉ l) : d.cmp = c.cmp :=
  h.same .cmp (by simp [Kept.but, hl])

theorem Chip.row_of_cmp {c e : Chip} (h : e.cmp = c.cmp) (st a r : Nat) : e.row st a r = c.row st a r := congrArg (fun x : Cmp => tabGet ({} : Row) x.rows (rowKey st a r)) h

theorem Chip.cmp_stall (c : Chip) (st r n : Nat) : (c.stall st r n).cmp = c.cmp :=
  (Chip.stall_follows st r n (Kept.but_follows [.regs] c) (Kept.but_free _ c)).cmp_eq (by decide)

theorem Chip.cmp_busy (c : Chip) (st n : Nat) : (c.busy st n).cmp = c.cmp :=
  (Chip.busy_follows st n (Kept.but_follows [.regs] c) (Kept.but_free _ c)).cmp_eq (by decide)

theorem Chip.cmp_write (c : Chip) (a : Nat) (b : Bytes) (pois : List Nat) (who : Reader) (ups : Upsets) : (c.write a b pois who ups).cmp = c.cmp :=
  (Chip.write_follows a b pois who ups (Kept.but_follows [.regs, .mem, .ecc, .flt, .free] c) (Kept.but_free _ c)).cmp_eq (by decide)

theorem Chip.cmp_mxCheck (c : Chip) (st a kind row desc : Nat) (k : Check) : (c.mxCheck st a kind row desc k).cmp = c.cmp :=
  (Chip.mxCheck_follows st a kind row desc k (Kept.but_follows [.regs, .flt] c) (Kept.but_free _ c)).cmp_eq (by decide)

/-- Rows of one tag are apart where their arrays are. -/
theorem rowKey_ne (st r : Nat) {a b : Nat} (h : a ≠ b) : rowKey st a r ≠ rowKey st b r := by simp only [rowKey]; omega

/-- An array's row write sets the state of its own row, and of no other of the vector's rows. -/
theorem Chip.row_arrayWrite (c : Chip) (st : Nat) (v : Vec) (p : Pass) (w : Weights) (fs : LaneFaults) :
    ((c.arrayWrite st v p w fs).row st w.arr v.tag).st = (if v.last then RowSt.done else RowSt.accum) ∧
      ∀ a, a ≠ w.arr → (c.arrayWrite st v p w fs).row st a v.tag = c.row st a v.tag := by
  unfold Chip.arrayWrite
  extract_lets d core arr o act ws inj hitInj ys0 ys chk row addr accum old oldPois new chk2 bad pois prov row1 c1 c2 c3
  have hcmp : c3.cmp = c.cmp := by
    have hc1 : c1.cmp = c.cmp := by
      simp only [c1]
      split <;> rfl
    exact (Chip.cmp_mxCheck ..).trans ((Chip.cmp_mxCheck ..).trans hc1)
  refine ⟨congrArg Row.st (Chip.row_setRow ..), fun a ha => ?_⟩
  rw [Chip.row_setRow_ne _ _ (rowKey_ne st v.tag ha)]
  exact Chip.row_of_cmp ((Chip.cmp_write ..).trans hcmp) st a v.tag

/-- The rows of a vector after the row writes of arrays that are apart. -/
theorem Chip.row_arrayWrites (st : Nat) (v : Vec) (p : Pass) (fs : LaneFaults) {l : List Weights} (hl : (l.map (·.arr)).Nodup) (c : Chip) :
    let c1 := eachDo l (fun w c => c.arrayWrite st v p w fs) c
    (∀ w ∈ l, (c1.row st w.arr v.tag).st = (if v.last then RowSt.done else RowSt.accum)) ∧ ∀ a, a ∉ l.map (·.arr) → c1.row st a v.tag = c.row st a v.tag := by
  induction l generalizing c with
  | nil => exact ⟨fun w hw => absurd hw List.not_mem_nil, fun a _ => rfl⟩
  | cons x l ih =>
    obtain ⟨hx, hl⟩ := List.nodup_cons.mp hl
    obtain ⟨hown, hothers⟩ := c.row_arrayWrite st v p x fs
    obtain ⟨hrest, hkept⟩ := ih hl (c.arrayWrite st v p x fs)
    refine ⟨fun w hw => ?_, fun a ha => ?_⟩
    · rcases List.mem_cons.mp hw with rfl | hw
      · exact (congrArg Row.st (hkept w.arr hx)).trans hown
      · exact hrest w hw
    · obtain ⟨hax, hal⟩ := not_or.mp (mt List.mem_cons.mpr ha)
      exact (hkept a hal).trans (hothers a hax)

section
variable {c : Chip} {st : Nat} {f : Flight} {rest : List Flight} (fs : LaneFaults) (h : (c.mxOf st).pipe = f :: rest)
include h

/-- The oldest vector of the pipeline writes its rows; the last of a pass that no other has followed leaves the cycles in which the pipeline emptied as waits. -/
theorem Chip.mxRowWrite_oldest :
    let c1 := eachDo f.pass.wts (fun w c => c.arrayWrite st f.vec f.pass w fs) (c.setMx st { c.mxOf st with pipe := rest })
    c.mxRowWrite st fs =
      if rest = [] ∧ (∃ p, (c.mxOf st).pass = some p ∧ p.left = 0 ∧ p.desc = f.pass.desc) then c1.stall st 1 (mxLatency (mxWt f.pass.desc)) else c1 := by
  cases hp : (c.mxOf st).pass with
  | none => simp [Chip.mxRowWrite, h, hp]
  | some p => simp [Chip.mxRowWrite, h, hp]

/-- The rows of the oldest vector after its row writes, each of an array of its own. -/
theorem Chip.row_mxRowWrite (hw : (f.pass.wts.map (·.arr)).Nodup) :
    ∀ w ∈ f.pass.wts, ((c.mxRowWrite st fs).row st w.arr f.vec.tag).st = (if f.vec.last then RowSt.done else RowSt.accum) := by
  intro w hm
  rw [Chip.mxRowWrite_oldest fs h]
  have hrow := (Chip.row_arrayWrites st f.vec f.pass fs hw (c.setMx st { c.mxOf st with pipe := rest })).1 w hm
  split
  · exact (congrArg Row.st (Chip.row_of_cmp (Chip.cmp_stall ..) st w.arr f.vec.tag)).trans hrow
  · exact hrow

end

/-- Settles O12: each clause is the lemma of its operation's case. -/
theorem matrixPassTakenAndLoaded : Obligations.MatrixPassTakenAndLoaded := by
  intro s d c r hw st k m q hr
  exact ⟨fun hb ht ho => next_work hw (Chip.mxPass_taken hr hb ht ho),
    fun ups hb hd ht hm hf hslots hgot => next_work hw (Chip.mxPassBegin_good ups hr hb hd ht hm hf hslots hgot),
    fun _ hp hl => next_work hw (Chip.weightLoadDone_loading hr hp hl)⟩

/-- Settles O13: each clause is the lemma of its operation's case. -/
theorem matrixVectorsFlow : Obligations.MatrixVectorsFlow := by
  intro s d c hw st k m w
  exact ⟨fun _ _ _ _ hp hr hl hn hd hb hv hfree => next_work hw (Chip.mxVectorIssue_accepted hp hr hl hn hd hb hv hfree),
    fun flts _ _ hpipe => next_work hw (Chip.mxRowWrite_oldest flts hpipe)⟩

/-- Settles O14: an array's row write leaves the rows of the pass's other arrays, and the waits counted after the last leave every row. -/
theorem rowWriteMovesRowState : Obligations.RowWriteMovesRowState :=
  fun _ _ _ flts _ _ hw hpipe _ harr => ⟨_, next_work hw rfl, Chip.row_mxRowWrite flts hpipe harr⟩

end Sys2Proof.Machine
end

section
/-! Chains of a VX (R94, R97, R138–R145): the next tile of a chain by its source, and the read of the drain store. -/
namespace Sys2Proof.Machine

section
variable {c : Chip} {st : Nat} {r : Run} (res : OptLane) (ups : Upsets) (h : c.vxRun st 1 = some r)
include h

/-- Source 0 with one input: the next tile. -/
theorem Chip.vxChain_tile {t : InTile} (hs : vxSrc r.desc = 0) (hn : dNin r.desc < 2) (ht : r.nextIn = some t) :
    let a := c.tileVals r t
    c.vxChain st res ups = a.1.formTile st a.2.1 res ups (tilePlace t.hdr) [] a.2.2 (hH t.hdr) (hW t.hdr) (hC t.hdr) (hN t.hdr) (fun r => r.advance t.ord) := by
  simp only [Chip.vxChain, h, hs, Chip.chainTile, ht, Nat.not_le.mpr hn, if_true, if_false]

/-- Source 0 with two inputs: the next tile, with the second input's tile of the same place. -/
theorem Chip.vxChain_pair {t u : InTile} (hs : vxSrc r.desc = 0) (hn : 2 ≤ dNin r.desc) (ht : r.nextIn = some t) (hu : r.paired 1 t.ord = some u) :
    let a := c.tileVals r t
    let b := a.1.tileVals a.2.1 u
    c.vxChain st res ups = b.1.formTile st b.2.1 res ups (tilePlace t.hdr) b.2.2 a.2.2 (hH t.hdr) (hW t.hdr) (hC t.hdr) (hN t.hdr) (fun r => r.advance t.ord) := by
  simp only [Chip.vxChain, h, hs, Chip.chainTile, ht, hn, hu, if_true]

/-- Source 1: the next positions, once their rows have been read. -/
theorem Chip.vxChain_rows (hs : vxSrc r.desc = 1) :
    let n := min (vxTileH r.desc * vxTileW r.desc) (vxRows r.desc - r.pos)
    let x := chainDims r.desc n
    (r.pos + n) * popcount 4 (vxMask r.desc) ≤ r.taken1 →
    c.vxChain st res ups = c.formTile st r res ups (lanePlace n (vxOutC r.desc)) [] (gatherLanes r.acc (popcount 4 (vxMask r.desc)) (vxOutC r.desc) r.pos n)
      x.1 x.2 (vxOutC r.desc) 1 (fun r => r.made1 n) := by
  intro n x hn
  simp only [Chip.vxChain, h, hs, Chip.chainRows, if_neg (Nat.not_lt.mpr hn), if_true, Nat.one_ne_zero, if_false, n, x]

/-- Source 2: the next pooled vector is divided and taken, and forms a tile with those before it when its positions are complete. -/
theorem Chip.vxChain_pooled {v : Vec} {rest : List Vec} (hs : vxSrc r.desc = 2) (hb : (c.wfOf (st - 1)).buf = v :: rest) (hv : v.pool = true) :
    let oc := vxOutC r.desc
    let g := max 1 (cdiv oc 64)
    let q := poolDiv r.desc v (res.bind (fun e => if e.stage = 5 then some (e.elem, e.delta) else none))
    let r1 := { r with acc := r.acc ++ q.1, pois := r.pois || v.pois, prov := r.prov || v.prov }
    let c1 := (c.setWf (st - 1) { c.wfOf (st - 1) with buf := rest }).setRun (stKey st 0) r1
    let m := r1.acc.length / (64 * g) - r.pos
    let x := chainDims r.desc m
    q.2 = none →
    c.vxChain st res ups =
      if vxTileH r.desc * vxTileW r.desc ≤ m ∨ v.last then
        c1.formTile st r1 res ups (lanePlace m oc) [] (gatherLanes r1.acc g oc r.pos m) x.1 x.2 oc 1 (fun r => r.made1 m)
      else c1.busy st 1 := by
  intro oc g q r1 c1 m x hq
  have hpool : c.vxChain st res ups = c.chainPool st r res ups := by
    simp only [Chip.vxChain, h]
    rw [if_neg (by omega), if_neg (by omega)]
  rw [hpool, Chip.chainPool]
  simp only [hb, hv, Bool.not_true, Bool.false_eq_true, if_false]
  simp only [q] at hq
  simp only [hq]
  rfl

/-- The next row of a chain with source 1, DONE and good, is read from the drain store and becomes FREE. -/
theorem Chip.vxDrainRead_done (hs : vxSrc r.desc = 1) :
    let arrs := bitList 4 (vxMask r.desc)
    let g := max 1 arrs.length
    let a := arrs.getD (r.taken1 % g) 0
    let row := vxRowBase r.desc + r.taken1 / g
    let x := c.row (st - 2) a row
    r.taken1 < vxRows r.desc * g → x.st = .done → x.chkfail = false → x.pois = false →
    let rd := c.read (c.readerOf st r.desc) ups (rowAddr (stDie st) ((stIdx st - 32) / 4) a row) 256
    let r1 := { r with acc := r.acc ++ (chunks 4 rd.2.1).map fromLE, taken1 := r.taken1 + 1, prov := r.prov || x.prov, pois := r.pois || !rd.2.2.isEmpty }
    c.vxDrainRead st ups = ((rd.1.setRow (st - 2) a row {}).busy st 1).setRun (stKey st 0) r1 := by
  intro arrs g a row x hn hst hchk hpois rd r1
  simp only [x, row, a, g, arrs] at hn hst hchk hpois
  simp only [Chip.vxDrainRead, h, hs, hst, hchk, hpois, Nat.not_le.mpr hn, ne_eq, not_true_eq_false, or_self, if_false, Bool.or_self, Bool.false_eq_true]
  rfl

end

/-- Settles O16: each clause is the lemma of its source, and the row read reads back FREE. -/
theorem vectorChainFormsTiles : Obligations.VectorChainFormsTiles := by
  constructor
  · intro s d c res ups r hw st oc n h
    exact ⟨fun t hs hn ht => next_work hw (Chip.vxChain_tile res ups h hs hn ht),
      fun t u hs hn ht hu => next_work hw (Chip.vxChain_pair res ups h hs hn ht hu),
      fun hs hn => next_work hw (Chip.vxChain_rows res ups h hs hn),
      fun v rest hs hb hv hq => next_work hw (Chip.vxChain_pooled res ups h hs hb hv hq)⟩
  · intro s d c ups r hw st arrs g a row x h hs hn hst hchk hpois rd r1
    exact ⟨next_work hw (Chip.vxDrainRead_done ups h hs hn hst hchk hpois), (Chip.row_of_cmp (Chip.cmp_busy ..) (st - 2) a row).trans (Chip.row_setRow ..)⟩

end Sys2Proof.Machine
end

section
/-! Window operators (R112–R135): what the commands of a WF do, each by its cases. -/
namespace Sys2Proof.Machine

section
variable {c : Chip} {st : Nat} {r : Run} (hr : c.curRun (stKey st 0) = some r) (ht : dType r.desc = 2)
include hr ht

/-- A WF command that has not begun is taken, with its dead taps counted in each batch of a WF_CONV and once in a WF_POOL (R114, R135). -/
theorem Chip.wfTake_taken {op : Nat} (hb : r.begun = false) (ho : dOp r.desc = op) :
    c.wfTake st op = ((c.setRun (stKey st 0) { r with begun := true }).setWf st { c.wfOf st with pos := 0 }).addReg (stDie st) (wfBlk ((stIdx st - 32) / 4) + 4)
      ((wfKh r.desc * wfKw r.desc - (liveTaps r.desc).length) * (if op = 1 then wfBatches r.desc else 1)) := by
  simp [Chip.wfTake, hr, hb, ht, ho]

/-- With room in the buffer and its data held, the next vector of the command is delivered. -/
theorem Chip.wfVectorDeliver_held (ups : Upsets) (hb : r.begun = true) (hd : r.inDone = false) (hp : (c.wfOf st).pos < wfTotal r.desc) (hl : (c.wfOf st).buf.length < 4) :
    let x := c.wfVector st r ups (c.wfOf st).pos
    x.1.held = true → c.wfVectorDeliver st ups = x.1.chip.wfDelivered st r (c.wfOf st) x.1 x.2 := by
  intro x hh
  simp [Chip.wfVectorDeliver, hr, ht, hb, hd, show (c.wfVector st r ups (c.wfOf st).pos).1.held = true from hh, Nat.not_le.mpr hp, Nat.not_le.mpr hl, x]

end

/-- A delivered vector stands last in the buffer, and the next one is due. -/
theorem Chip.wfOf_wfDelivered (c : Chip) (st : Nat) (r : Run) (w : Wf) (x : PixRead) (v : Vec) :
    (c.wfDelivered st r w x v).wfOf st = { pos := w.pos + 1, buf := w.buf ++ [v] } := Chip.wfOf_setWf ..

/-- Settles O15: each clause is the lemma of its operation's case, and the vector delivered is read back from the buffer. -/
theorem windowVectorsDelivered : Obligations.WindowVectorsDelivered := by
  intro s d c r hw st k w dead took o hr ht
  refine ⟨fun hb ho => next_work hw (Chip.wfTake_taken hr ht hb ho), fun hb ho => next_work hw ?_,
    fun ups hb hd hp hl hh => ⟨next_work hw (Chip.wfVectorDeliver_held hr ht ups hb hd hp hl hh), Chip.wfOf_wfDelivered ..⟩⟩
  exact (Chip.wfTake_taken hr ht hb ho).trans (congrArg (took.addReg (stDie st) (o + 4)) (Nat.mul_one dead))

end Sys2Proof.Machine
end

section
/-! The box station (R126–R136): the run of a BX_NMS command once its boxes are kept, and that the reads and counts before leave the station's runs. -/
namespace Sys2Proof.Machine

/-! ### A station's current run -/

theorem Chip.curRun_of_fab {c e : Chip} (h : e.fab = c.fab) (k : Nat) : e.curRun k = c.curRun k :=
  congrArg (fun f : Fab => (tabGet ({} : Station) f.stations k).runs.getLast?) h

/-- The current run, replaced by one with its list index. -/
theorem Chip.curRun_setRun {c : Chip} {k : Nat} {r x : Run} (h : c.curRun k = some r) (hx : x.ix = r.ix) : (c.setRun k x).curRun k = some x := by
  unfold Chip.curRun at h
  simp [Chip.curRun, Chip.setRun, List.getLast?_map, h, hx]

/-! ### What a BX_NMS reads -/

/-- The rows of anchors, of a command with a third input (R126). -/
def Chip.bxAnchors (c : Chip) (r : Run) : Chip × List (List Nat) × Bool := if 3 ≤ dNin r.desc then c.bxRows r 2 else (c, [], false)

theorem Chip.bxAnchors_rows (c : Chip) (r : Run) : (c.bxAnchors r).2.1 = if 3 ≤ dNin r.desc then (c.bxRows r 2).2.1 else [] :=
  apply_ite (fun x : Chip × List (List Nat) × Bool => x.2.1) ..

theorem Chip.fab_bxRows (c : Chip) (r : Run) (j : Nat) : (c.bxRows r j).1.fab = c.fab :=
  (Chip.bxRows_follows r j (Kept.but_follows [.free] c) (Kept.but_free _ c)).fab_eq (by decide)

theorem Chip.fab_bxAnchors (c : Chip) (r : Run) : (c.bxAnchors r).1.fab = c.fab := by
  rw [Chip.bxAnchors]
  split
  · exact Chip.fab_bxRows c r 2
  · rfl

theorem Chip.fab_busy (c : Chip) (st n : Nat) : (c.busy st n).fab = c.fab :=
  (Chip.busy_follows st n (Kept.but_follows [.regs] c) (Kept.but_free _ c)).fab_eq (by decide)

/-- The boxes of a command, decoded with their anchors (R128). -/
def bxBoxList (d : Nat) (rows anchors : List (List Nat)) : List BBox := rows.zipIdx.map (fun b => bxDecode d b.1 (anchors.getD b.2 []))

/-- The candidates of the finite boxes, and their NaN scores (R129). -/
def bxPerBox (d : Nat) (boxes : List BBox) (scores : List (List Nat)) : List (List Cand × Nat) :=
  boxes.zipIdx.map (fun b => if b.1.finite then boxCands d b.2 b.1 (scores.getD b.2 []) else ([], 0))

/-- The candidates of a command in the order of R130. -/
def bxSorted (d : Nat) (rows anchors scores : List (List Nat)) : List Cand := sortCands ((bxPerBox d (bxBoxList d rows anchors) scores).flatMap (·.1))

/-! ### What a BX_NMS leaves -/

/-- The tile of the kept boxes (R133). -/
def bxTile (kept : List Cand) : OutTile := { k := 0, fmt := 0x20, lay := 3, h := 1, w := kept.length, c := 1, n := 1, data := kept.flatMap boxRecord }

/-- A BX_NMS command that has kept boxes: its registers' values wait in `acc` for its end (R136). `free` decides its cycles within their bound (R134). -/
def Run.nmsEnded (r : Run) (cands kept : List Cand) (free : Nat) (pois : Bool) : Run :=
  { r with
    acc := [cands.length, cands.length - (cands.take (bxPreK r.desc)).length, kept.length + (b2n (decide (bxKeepMax r.desc ≤ kept.length))) <<< 11,
      free % (bxBound r.desc cands.length kept.length + 1)],
    pois := pois, ins := r.ins.map (fun t => { t with used := true }), made := dTiles r.desc, inDone := true, begun := true }

/-- An ended BX_NMS with its output: an EOS marker where no box is kept, else the tile of the kept boxes and the markers that follow it (R133). -/
def Run.nmsOut (r : Run) (kept : List Cand) : Run :=
  if kept.isEmpty then { r with outs := r.outs ++ [eosTile 0 r.prov] } else (r.emit (bxTile kept)).closeOuts

/-- EOS markers add to the outputs and change nothing else. -/
theorem Run.closeOuts_eq (r : Run) : ∃ rest, r.closeOuts = { r with outs := r.outs ++ rest } := by
  rw [Run.closeOuts]
  split
  · exact ⟨_, rfl⟩
  · exact ⟨[], by rw [List.append_nil]⟩

/-- A command with no box kept leaves an EOS marker, and one with boxes kept leaves their tile first; the output changes no other part of the run. -/
theorem Run.nmsOut_eq (r : Run) (kept : List Cand) :
    ∃ o rest, r.nmsOut kept = { r with outs := r.outs ++ o :: rest } ∧ (kept = [] → o.eos = true ∧ rest = []) ∧
      (kept ≠ [] → o.eos = false ∧ o.data = kept.flatMap boxRecord ∧ o.w = kept.length) := by
  cases kept with
  | nil => exact ⟨eosTile 0 r.prov, [], rfl, fun _ => ⟨rfl, rfl⟩, fun h => absurd rfl h⟩
  | cons x t =>
    obtain ⟨rest, hrest⟩ := Run.closeOuts_eq (r.emit (bxTile (x :: t)))
    refine ⟨{ bxTile (x :: t) with pois := r.pois, prov := r.prov }, rest, hrest.trans ?_, fun h => absurd h (List.cons_ne_nil x t), fun _ => ⟨rfl, rfl, rfl⟩⟩
    simp [Run.emit, bxTile]

theorem Run.ix_nmsOut (r : Run) (kept : List Cand) : (r.nmsOut kept).ix = r.ix := by
  obtain ⟨o, rest, hout, -⟩ := r.nmsOut_eq kept
  rw [hout]

/-- With every input tile held, the command's run has ended with the boxes that suppression keeps of its best candidates. -/
theorem Chip.curRun_bxNms {c : Chip} {st : Nat} {r : Run} (hr : c.curRun (stKey st 0) = some r) (ht : dType r.desc = 5) (ho : dOp r.desc = 1) (hd : r.inDone = false)
    (hs : r.status = 0) (h0 : dTiles r.desc ≤ r.taken) (h1 : dTiles r.desc ≤ r.taken1) (h2 : 3 ≤ dNin r.desc → dTiles r.desc ≤ r.taken2) :
    let bs := c.bxRows r 0
    let ss := bs.1.bxRows r 1
    let an := ss.1.bxAnchors r
    let cands := bxSorted r.desc bs.2.1 an.2.1 ss.2.1
    let kept := suppress r.desc (cands.take (bxPreK r.desc)) []
    ∃ free pois, (c.bxNms st).curRun (stKey st 0) = some ((r.nmsEnded cands kept free pois).nmsOut kept) := by
  intro bs ss an cands kept
  have hrun : (c.curRun (stKey st 0)).filter (fun r => dType r.desc == 5 && dOp r.desc == 1 && !r.inDone && r.status == 0) = some r := by
    simp [hr, ht, ho, hd, hs]
  have hheld : ¬ (r.taken < dTiles r.desc ∨ r.taken1 < dTiles r.desc ∨ (3 ≤ dNin r.desc ∧ r.taken2 < dTiles r.desc)) := by omega
  refine ⟨an.1.draw.1, r.pois || bs.2.2 || ss.2.2 || an.2.2, ?_⟩
  rw [Chip.bxNms, hrun]
  refine (congrArg (Chip.curRun · _) (if_neg hheld)).trans (Chip.curRun_setRun ((Chip.curRun_of_fab ?_ _).trans hr) (Run.ix_nmsOut (r.nmsEnded ..) kept))
  exact (Chip.fab_busy ..).trans ((Chip.fab_bxAnchors ss.1 r).trans ((Chip.fab_bxRows bs.1 r 1).trans (Chip.fab_bxRows c r 0)))

/-- Settles O20: the run that `Chip.curRun_bxNms` gives has the counts of `Run.nmsEnded` and the output of `Run.nmsOut_eq`. -/
theorem boxNmsKeepsBestBoxes : Obligations.BoxNmsKeepsBestBoxes := by
  intro s d r hw st n hr ht ho hd hs h0 h1 h2 bs ss an boxes per cands kept
  obtain ⟨free, pois, hend⟩ := Chip.curRun_bxNms hr ht ho hd hs h0 h1 h2
  have hcands : bxSorted r.desc bs.2.1 (ss.1.bxAnchors r).2.1 ss.2.1 = cands := congrArg (fun a => bxSorted r.desc bs.2.1 a ss.2.1) (Chip.bxAnchors_rows ss.1 r)
  rw [hcands] at hend
  obtain ⟨o, rest, hout, hnone, hsome⟩ := (r.nmsEnded cands kept free pois).nmsOut_eq kept
  refine ⟨_, _, next_work hw rfl, hend.trans (congrArg some hout), rfl, hs, rfl, ?_, ?_, ?_, ?_⟩
  · exact congrArg (cands.length - ·) List.length_take
  · exact Nat.lt_succ_iff.mp (Nat.mod_lt _ (Nat.succ_pos _))
  · intro hk
    obtain ⟨heos, hrest⟩ := hnone hk
    exact ⟨o, congrArg (fun l => r.outs ++ o :: l) hrest, heos⟩
  · intro hk
    exact ⟨o, rest, rfl, hsome hk⟩

end Sys2Proof.Machine
end

section
/-! Integer rounding (R142): the magnitude of an exact quotient that each mode gives, and the quotient as that magnitude with the dividend's sign. -/
namespace Sys2Proof.Machine

/-! ### A magnitude with the sign of the dividend -/

/-- The magnitude `n` with the sign of `x`. -/
def withSign (x : Int) (n : Nat) : Int := if x < 0 then -(n : Int) else n

theorem natAbs_withSign_mul (x : Int) (n d : Nat) : (withSign x n * d).natAbs = n * d := by
  rw [Int.natAbs_mul, Int.natAbs_natCast, withSign]
  split <;> simp

theorem natAbs_withSign_mul_sub (x : Int) (n d : Nat) : (withSign x n * d - x).natAbs = ((n * d : Nat) - (x.natAbs : Int)).natAbs := by
  rw [withSign]
  split
  · rw [Int.neg_mul]; omega
  · omega

theorem withSign_mul_nonneg (x : Int) (n : Nat) : 0 ≤ withSign x n * x := by
  rw [withSign]
  split
  next h => exact Int.mul_nonneg_of_nonpos_of_nonpos (by omega) (by omega)
  next h => exact Int.mul_nonneg (Int.natCast_nonneg n) (by omega)

theorem withSign_emod_two (x : Int) {n : Nat} (h : n % 2 = 0) : withSign x n % 2 = 0 := by
  rw [withSign]
  split <;> omega

/-! ### The magnitudes -/

/-- Quotient to nearest, ties away from zero. -/
def divAway (a d : Nat) : Nat := if 2 * (a % d) < d then a / d else a / d + 1

section
variable (a : Nat) {d : Nat} (hd : 0 < d)
include hd

theorem divRne_near : 2 * ((divRne a d * d : Nat) - (a : Int)).natAbs ≤ d := by
  have hdiv := Nat.div_add_mod' a d
  have hmod := Nat.mod_lt a hd
  simp only [divRne]
  split
  · omega
  · split
    · rw [Nat.add_one_mul (a / d)]; omega
    · rcases Nat.mod_two_eq_zero_or_one (a / d) with h | h <;> rw [h, Nat.add_mul] <;> omega

theorem divRne_tie (h : 2 * ((divRne a d * d : Nat) - (a : Int)).natAbs = d) : divRne a d % 2 = 0 := by
  have hdiv := Nat.div_add_mod' a d
  have hmod := Nat.mod_lt a hd
  simp only [divRne] at h ⊢
  split_ifs at h ⊢
  · omega
  · rw [Nat.add_one_mul (a / d)] at h; omega
  · omega

theorem divAway_near : 2 * ((divAway a d * d : Nat) - (a : Int)).natAbs ≤ d := by
  have hdiv := Nat.div_add_mod' a d
  have hmod := Nat.mod_lt a hd
  rw [divAway]
  split
  · omega
  · rw [Nat.add_one_mul (a / d)]; omega

theorem divAway_tie (h : 2 * ((divAway a d * d : Nat) - (a : Int)).natAbs = d) : a ≤ divAway a d * d := by
  have hdiv := Nat.div_add_mod' a d
  have hmod := Nat.mod_lt a hd
  rw [divAway] at h ⊢
  split_ifs at h ⊢
  · omega
  · rw [Nat.add_one_mul (a / d)]; omega

end

/-! ### The modes -/

theorem roundDiv_even (x : Int) (d : Nat) : roundDiv 0 x d = withSign x (divRne x.natAbs d) := rfl
theorem roundDiv_away (x : Int) (d : Nat) : roundDiv 1 x d = withSign x (divAway x.natAbs d) := rfl
theorem roundDiv_zero (x : Int) (d : Nat) : roundDiv 2 x d = withSign x (x.natAbs / d) := rfl

/-- Toward −∞ is the floor of the quotient. -/
theorem roundDiv_floor (x : Int) {d : Nat} (hd : 0 < d) : roundDiv 3 x d = x / d := by
  have hdiv : ((x.natAbs / d * d : Nat) : Int) + (x.natAbs % d : Nat) = x.natAbs := by exact_mod_cast Nat.div_add_mod' x.natAbs d
  have hmod := Nat.mod_lt x.natAbs hd
  rw [Nat.cast_mul] at hdiv
  symm
  simp only [roundDiv]
  split_ifs with h1 h2
  · rw [Int.ediv_eq_iff_of_pos (by omega), Int.sub_mul, Int.neg_mul]; omega
  · rw [Int.ediv_eq_iff_of_pos (by omega), Int.neg_mul]; omega
  · rw [Int.ediv_eq_iff_of_pos (by omega)]; omega

/-- Settles O11: modes 0 to 2 give the dividend's sign to the magnitudes above, and mode 3 is the floor. -/
theorem integerRoundingModes : Obligations.IntegerRoundingModes := by
  intro x d hd
  have hd' : (0 : Int) < d := Int.natCast_pos.mpr hd
  have hdiv := Nat.div_add_mod' x.natAbs d
  have hmod := Nat.mod_lt x.natAbs hd
  rw [roundDiv_even, roundDiv_away, roundDiv_zero, roundDiv_floor x hd]
  simp only [natAbs_withSign_mul_sub, natAbs_withSign_mul]
  refine ⟨?_, fun h => withSign_emod_two x (divRne_tie _ hd h), divAway_tie _ hd, Nat.div_mul_le_self _ d, ?_, withSign_mul_nonneg x _,
    Int.ediv_mul_le x hd'.ne', Int.lt_ediv_add_one_mul_self x hd'⟩
  · intro rnd hrnd
    match rnd, hrnd with
    | 0, _ => rw [roundDiv_even, natAbs_withSign_mul_sub]; exact divRne_near _ hd
    | 1, _ => rw [roundDiv_away, natAbs_withSign_mul_sub]; exact divAway_near _ hd
  · rw [← Int.natAbs_neg, Int.neg_sub, natAbs_withSign_mul_sub]; omega

end Sys2Proof.Machine
end

section
/-! Rows and reductions of a VX (R146, R147, R151, R152): the next tile of a VX_ROW, and of a VX_REDUCE without a lane fault along each axis. -/
namespace Sys2Proof.Machine

/-- The next tile of a VX_ROW, with the tables of its kind read (R146). -/
theorem Chip.vxRow_tile {c : Chip} {st : Nat} {r : Run} {t : InTile} (ups : Upsets) (h : c.vxRun st 2 = some r) (ht : r.nextIn = some t) :
    let a := c.tileVals r t
    let kind := vrKind r.desc
    let g := a.1.rowTable st r ups (kind == 1 || kind == 2) (vrGamma r.desc) (hC t.hdr)
    let b := g.1.rowTable st r ups (kind == 1) (vrBeta r.desc) (hC t.hdr)
    ∀ x y, g.2 = .ok x → b.2 = .ok y →
    let ys := (chunks (hC t.hdr) a.2.2).flatMap (rowOp kind (vrEps r.desc) x.1 y.1)
    let lay := keepLay (hLay t.hdr) (vrOutFmt r.desc)
    let cv := convTile (vrOutFmt r.desc) lay (hH t.hdr) (hW t.hdr) (hC t.hdr) (hN t.hdr) ys
    let r1 := { a.2.1 with pois := a.2.1.pois || x.2 || y.2 }
    let o : OutTile := { k := 0, fmt := vrOutFmt r.desc, lay := lay, h := hH t.hdr, w := hW t.hdr, c := hC t.hdr, n := hN t.hdr, data := cv.1 }
    c.vxRow st ups = ((b.1.addReg (stDie st) (vxOff st + 0x10) cv.2).busy st (cdiv ys.length 64)).setRun (stKey st 0) ((r1.emit o).advance t.ord) := by
  intro a kind g b x y hg hb
  simp only [a, kind, g, b] at hg hb
  simp only [Chip.vxRow, h, ht, hg, hb, a, kind, g, b]

/-! ### Reductions -/

/-- A map over indexed elements that uses no index. -/
theorem map_fst_zipIdx {α β : Type} (f : α → β) (l : List α) : l.zipIdx.map (fun x => f x.1) = l.map f := by
  rw [← Function.comp_def f Prod.fst, ← List.map_map, List.zipIdx_map_fst]

/-- The reduction of a position over its channels, without a lane fault (axis 1 of R147). -/
def redOfRow (kind : Nat) (int : Bool) (row : List Nat) : Red := row.zipIdx.foldl (fun x v => redSlip kind int 0 x v.2 v.1) {}

/-- The reductions of a tile's channels over its positions, from place `p` on, without a lane fault (axis 0 of R147). -/
def redsThrough (kind : Nat) (int : Bool) (p : Nat) (rows : List (List Nat)) (l : List Red) : List Red :=
  rows.zipIdx.foldl (fun l row => (l.zip row.1).map (fun x => redSlip kind int 0 x.1 (p + row.2) x.2)) l

section
variable {c : Chip} {st : Nat} {r : Run} {t : InTile} (h : c.vxRun st 3 = some r) (ht : r.nextIn = some t)
include h ht

/-- Over channels, a tile of one channel for each input tile. -/
theorem Chip.vxReduce_channels (hx : vrAxis r.desc = true) :
    let a := c.tileVals r t
    let kind := vrKind r.desc
    let int := workInt (hFmt t.hdr)
    let reds := (chunks (hC t.hdr) a.2.2).map (redOfRow kind int)
    let o := redTile kind (vrRnd r.desc) (vrOutFmt r.desc) int (hH t.hdr) (hW t.hdr) 1 (hN t.hdr) reds
    (∀ x ∈ reds, x.bad = false) →
    c.vxReduce st none = ((a.1.addReg (stDie st) (vxOff st + 0x10) o.2).busy st (cdiv a.2.2.length 64)).setRun (stKey st 0)
      ((a.2.1.emit { k := 0, fmt := vrOutFmt r.desc, h := hH t.hdr, w := hW t.hdr, c := 1, n := hN t.hdr, data := o.1 }).advance t.ord) := by
  intro a kind int reds o hgood
  have hany : reds.any (·.bad) = false := by simpa using hgood
  have hreds : (chunks (hC t.hdr) a.2.2).zipIdx.map (fun row => row.1.zipIdx.foldl (fun x v => redSlip kind int 0 x v.2 v.1) {}) = reds :=
    map_fst_zipIdx (redOfRow kind int) _
  simp only [reds, a, kind, int] at hany hreds
  simp only [Chip.vxReduce, h, ht, hx, Option.bind_none, if_true, Bool.true_or, hreds, hany, Bool.false_eq_true, if_false, reds, a, kind, int, o]

/-- Over positions, the reductions are carried to the next tile, and a tile of one position follows the last. -/
theorem Chip.vxReduce_positions (hx : vrAxis r.desc = false) :
    let a := c.tileVals r t
    let rows := chunks (hC t.hdr) a.2.2
    let kind := vrKind r.desc
    let int := workInt (hFmt t.hdr)
    let reds := redsThrough kind int r.pos rows (if r.acc.isEmpty then List.replicate (hC t.hdr) {} else r.reds)
    let r1 := { a.2.1 with acc := reds.map (fun (x : Red) => x.val), acc2 := reds.map (fun (x : Red) => x.idx), pos := r.pos + rows.length }
    let o := redTile kind (vrRnd r.desc) (vrOutFmt r.desc) int 1 1 (hC t.hdr) 1 reds
    (∀ x ∈ reds, x.bad = false) →
    c.vxReduce st none =
      if dTiles r.desc ≤ r.made + 1 then ((a.1.addReg (stDie st) (vxOff st + 0x10) o.2).busy st (cdiv a.2.2.length 64)).setRun (stKey st 0)
        ((r1.emit { k := 0, fmt := vrOutFmt r.desc, h := 1, w := 1, c := hC t.hdr, n := 1, data := o.1 }).advance t.ord)
      else (a.1.busy st (cdiv a.2.2.length 64)).setRun (stKey st 0) (r1.advance t.ord) := by
  intro a rows kind int reds r1 o hgood
  have hany : reds.any (·.bad) = false := by simpa using hgood
  have hmap : ∀ (p : Nat) (l : List (Red × Nat)), l.zipIdx.map (fun x => redSlip kind int 0 x.1.1 p x.1.2) = l.map (fun x => redSlip kind int 0 x.1 p x.2) :=
    fun p l => map_fst_zipIdx (fun x : Red × Nat => redSlip kind int 0 x.1 p x.2) l
  simp only [reds, redsThrough, a, kind, int, rows] at hany hmap
  simp only [Chip.vxReduce, h, ht, hx, Option.bind_none, Bool.false_or, hmap, hany, Bool.false_eq_true, if_false, reds, redsThrough, a, rows, kind, int, r1, o]
  by_cases hl : dTiles r.desc ≤ r.made + 1 <;> simp only [hl, decide_true, decide_false, if_true, if_false, Bool.false_eq_true]

end

/-- Settles O17: each clause is the lemma of its operation's case. -/
theorem vectorRowsAndReductions : Obligations.VectorRowsAndReductions := by
  constructor
  · intro s d c ups r t hw st a kind g b h ht x y hg hb
    exact next_work hw (Chip.vxRow_tile ups h ht x y hg hb)
  · intro s d c r t hw st a rows kind f int step h ht
    exact ⟨fun hx hgood => next_work hw (Chip.vxReduce_channels h ht hx hgood), fun hx hgood => next_work hw (Chip.vxReduce_positions h ht hx hgood)⟩

end Sys2Proof.Machine
end

section
/-! Indexed commands of a VX (R148–R150): the next tile of a gather, a scatter and a scatter-add, with no bound passed and no lane fault. -/
namespace Sys2Proof.Machine

/-- An addition without a lane fault fails no residue check. -/
theorem bad_addStores (s x : Store) (hx : x ∈ addStores s none) : x.bad = false := by
  obtain ⟨y, -, rfl⟩ := List.mem_map.mp hx
  rfl

section
variable {c : Chip} {st : Nat} {r : Run} {t : InTile} (ht : r.nextIn = some t)
include ht

/-- A gather whose rows are all in bounds forms its tile of them. -/
theorem Chip.vxGather_tile (ups : Upsets) (h : c.vxRun st 4 = some r) :
    let ix := c.indices r t
    let g := (ix.1.addReg (stDie st) (vxOff st + 0x14) (oorCount r.desc ix.2.2)).gatherRows st r ups ix.2.2 [] false
    ∀ b, g.2 = .ok b →
    c.vxGather st ups = (g.1.busy st (max 1 (ix.2.2.length * cdiv (vtRowBytes r.desc) 64))).setRun (stKey st 0)
      (({ ix.2.1 with pois := ix.2.1.pois || b.2 }.emit
        { k := 0, fmt := vtFmt r.desc, h := hH t.hdr, w := hW t.hdr, c := vtC r.desc, n := hN t.hdr * hC t.hdr, data := b.1 }).advance t.ord) := by
  intro ix g b hg
  simp only [ix, g] at hg
  simp only [Chip.vxGather, h, ht, hg, ix, g]

variable {u : InTile} (hu : r.paired 1 t.ord = some u)
include hu

/-- A scatter whose rows are all in bounds issues its stores. -/
theorem Chip.vxScatter_tile (h : c.vxRun st 5 = some r) :
    let ix := c.indices r u
    let rd := ix.1.payload t
    let c1 := rd.1.addReg (stDie st) (vxOff st + 0x14) (oorCount r.desc ix.2.2)
    let x := c1.scatterRows st r (tileRows t.hdr rd.2.1 rd.2.2) ix.2.2.zipIdx []
    x.2 = none →
    c.vxScatter st = (c1.busy st (max 1 ix.2.2.length)).setRun (stKey st 0)
      ({ ix.2.1 with stores := r.stores ++ x.1.map (fun (y : Nat × Store) => y.2) }.advance t.ord) := by
  intro ix rd c1 x hx
  simp only [ix, rd, c1, x] at hx
  simp only [Chip.vxScatter, h, ht, hu, Option.bind_some, hx, ix, rd, c1, x]

/-- A scatter-add whose rows are all in bounds issues an addition for each of their elements. -/
theorem Chip.vxScatadd_tile (h : c.vxRun st 6 = some r) :
    let ix := c.indices r u
    let rd := ix.1.payload t
    let c1 := rd.1.addReg (stDie st) (vxOff st + 0x14) (oorCount r.desc ix.2.2)
    let x := c1.scatterRows st r (tileRows t.hdr rd.2.1 rd.2.2) ix.2.2.zipIdx []
    let adds := x.1.flatMap (fun (y : Nat × Store) => addStores y.2 none)
    x.2 = none →
    c.vxScatadd st none = (c1.busy st (max 1 adds.length)).setRun (stKey st 0)
      ({ ix.2.1 with stores := r.stores ++ adds, pois := ix.2.1.pois || !rd.2.2.isEmpty }.advance t.ord) := by
  intro ix rd c1 x adds hx
  have hgood : adds.any (·.bad) = false := by
    refine List.any_eq_false.mpr fun a ha => ?_
    obtain ⟨y, -, hy⟩ := List.mem_flatMap.mp ha
    exact Bool.not_eq_true _ ▸ bad_addStores y.2 a hy
  simp only [ix, rd, c1, x, adds] at hx hgood
  simp only [Chip.vxScatadd, h, ht, hu, Option.bind_some, Option.bind_none, hx, hgood, Bool.false_eq_true, if_false, ix, rd, c1, x, adds]

end

end Sys2Proof.Machine
end

section
/-! The test-blank comparator (R153, R164, R358): the next triple, and what the result after the last leaves in the block's registers. -/
namespace Sys2Proof.Machine

/-- The next triple is counted, and the last gives the result. -/
theorem Chip.vxBlankcmp_triple {c : Chip} {st : Nat} {r : Run} {t u v : InTile} (h : c.vxRun st 7 = some r) (ht : r.nextIn = some t) (hu : r.paired 1 t.ord = some u)
    (hv : r.paired 2 t.ord = some v) :
    let x := c.readTriple t u v
    let el := tripleElems t u v x.2.1 x.2.2.1 x.2.2.2
    let r1 := (r.countFails (tripleFails (hFmt t.hdr) el)).advance t.ord
    let c1 := (x.1.setRun (stKey st 0) r1).busy st (max 1 el.length)
    c.vxBlankcmp st = if r1.inDone then c1.blankResult st r1 else c1 := by
  intro x el r1 c1
  simp only [Chip.vxBlankcmp, h, ht, hu, hv, Option.bind_some, x, el, r1, c1]

/-- The end of the work on a place changes no count of the run. -/
theorem Run.acc_advance (r : Run) (n : Nat) : (r.advance n).acc = r.acc := by
  unfold Run.advance Run.closeOuts
  dsimp only
  split
  · split <;> rfl
  · rfl

/-! ### Registers of a raised bit and of a latched error -/

/-- Registers of one die are apart where their offsets differ. -/
theorem regKey_ne (d : Nat) {o off : Nat} (h : o ≠ off) : regKey d o ≠ regKey d off := fun hk => h (Nat.add_left_cancel hk)

/-- A write leaves the die's registers of other offsets. -/
theorem Chip.reg_setReg_off (c : Chip) (d v : Nat) {o off : Nat} (h : o ≠ off) : (c.setReg d off v).reg d o = c.reg d o :=
  c.reg_setReg_ne d off v d o (regKey_ne d h)

/-- A raised bit leaves the die's registers of other offsets. -/
theorem Chip.reg_raise_off (c : Chip) (d i cause : Nat) (esc : Bool) (cls : Nat) {o off : Nat} (h : o ≠ off) : (c.raise d off i cause esc cls).reg d o = c.reg d o := by
  have hor : (c.orReg d off (1 <<< i)).reg d o = c.reg d o := c.reg_setReg_off d _ h
  rw [Chip.raise]
  split
  · exact hor
  · split <;> exact hor

/-- With the status register zero, a first error's registers are written in order. -/
theorem Chip.latchIf_zero {c : Chip} {d stat : Nat} (h : c.reg d stat = 0) (l : List (Nat × Nat)) :
    c.latchIf d stat l = eachDo l (fun p c => c.setReg d p.1 p.2) c := if_pos h

/-- The place of the first failing element in BLK_DETAIL. -/
theorem bits_blankDetail (op ix elem : Nat) : bits ((op % 1024 + (ix % 16) <<< 10 + (elem % 65536) <<< 14) % 2 ^ 32) 29 14 = elem % 65536 := by
  simp only [bits, Nat.shiftLeft_eq, Nat.shiftRight_eq_div_pow]
  omega

/-! ### The result of a comparison -/

section
variable (c : Chip) (st : Nat) (r : Run)

/-- Without a failure, nothing is raised. -/
theorem Chip.flt_blankResult (h : r.acc.getD 0 0 = 0) : (c.blankResult st r).flt = c.flt := by
  simp only [Chip.blankResult, h, if_true]
  rfl

variable {c st r} (h : r.acc.getD 0 0 ≠ 0)
include h

/-- A failure sets its bit. -/
theorem Chip.bit_blankResult : bit ((c.blankResult st r).reg (stDie st) blkBlk) 0 = true := by
  simp only [Chip.blankResult, h, if_false]
  exact Chip.bit_raise _ _ _ _ (by decide) _ _

/-- The first failure's registers: the place of the element, and the tile. -/
theorem Chip.reg_blankResult (hz : c.reg (stDie st) blkBlk = 0) :
    (c.blankResult st r).fld (stDie st) (blkBlk + 4) 29 14 = r.acc.getD 2 0xFFFF % 65536 ∧ (c.blankResult st r).reg (stDie st) (blkBlk + 0x24) = r.acc.getD 1 0xFFFF % 65536 := by
  have hzero : (Chip.failBlank (c.setReg (stDie st) (blkBlk + 0x18) ((c.nowNs - c.wrk.slotNs) * 8 / 10)) (stDie st)).reg (stDie st) blkBlk = 0 :=
    (c.reg_setReg_off _ _ (by decide)).trans hz
  simp only [Chip.blankResult, h, if_false, Chip.fld, Chip.latchIf_zero hzero, eachDo, List.foldl_cons, List.foldl_nil]
  simp (disch := decide) only [Chip.reg_raise_off, Chip.reg_setReg_off, Chip.reg_setReg_self, bits_blankDetail, true_and]
  exact Nat.mod_eq_of_lt (by omega)

end

theorem stDie_coreStn (d : Nat) (k : CoreIx) {i : Nat} (hi : i < 4) : stDie (coreStn d k i) = d := by
  have := k.isLt
  simp only [stDie, coreStn]
  omega

/-- Settles O18: each command by the lemma of its case, and the registers and lines of a comparison by those of its result. -/
theorem vectorIndexedAndBlank : Obligations.VectorIndexedAndBlank := by
  constructor
  · intro s d c ups r t hw st ht
    refine ⟨fun h b hg => next_work hw (Chip.vxGather_tile ht ups h b hg), fun u hu hx => ⟨fun h => ?_, fun h => ?_⟩⟩
    · exact next_work hw (Chip.vxScatter_tile ht hu h hx)
    · exact next_work hw (Chip.vxScatadd_tile ht hu h hx)
  · intro s d c r t u v hw st x el fails r1 c1 h ht hu hv
    have hd : stDie st = d + 1 := stDie_coreStn (d + 1) c (by decide)
    refine ⟨next_work hw (Chip.vxBlankcmp_triple h ht hu hv), ?_, c1.flt_blankResult st r1, fun hn hz => ?_⟩
    · exact congrArg (·.getD 0 0) (Run.acc_advance (r.countFails fails) t.ord)
    · rw [← hd] at hz ⊢
      obtain ⟨helem, htile⟩ := Chip.reg_blankResult hn hz
      exact ⟨helem, htile, Chip.bit_blankResult hn⟩

end Sys2Proof.Machine
end

section
/-! Remote windows (R173, R184, R185, R229): a request at its owning die, refused, written or read, and a status at its sender. -/
namespace Sys2Proof.Machine

/-! ### Requests at the owning die -/

section
variable {c : Chip} {k st : Nat} (ups : Upsets) {r : Run} {q : WReq} {rest : List WReq} (hst : k / 4 = st) (hr : c.asker k = some (r, q, rest))
include hst hr

/-- A request that fails a check is counted at the window and answered with the check's status. -/
theorem Chip.remoteRequestArrive_refused :
    let src := stDie st
    let part := c.jobPart (dJob r.desc)
    let ok := c.winCheck src part q
    let c1 := c.addReg q.die (winBlk q.win + (if ok = stWindowClosed then 0x10 else 0x14)) 1
    let c2 := if q.wr then (if q.cid = 0 then c1 else c1.carryReq r q rest src part (q.cid - 1) q.data)
      else if r.cids = [] then c1 else c1.carryReq r q rest src part (r.cids.headD 0) []
    ok ≠ stOk →
    c.remoteRequestArrive k ups = c2.setRun k { r with reqs := rest, rets := r.rets ++ [{ req := q, status := ok, region := c.winRegion q.die q.win }] } := by
  subst hst
  intro src part ok c1 c2 hok
  simp only [Chip.remoteRequestArrive, hr, if_pos hok, List.isEmpty_iff, c2, c1, ok, part, src]

/-- An accepted write is stored at the window's address. -/
theorem Chip.remoteRequestArrive_write (hw : q.wr = true) :
    let src := stDie st
    let job := dJob r.desc
    let part := c.jobPart job
    let who : Reader := { kind := 0, job := job, part := part, safety := c.isSafety part, st := k / 4 }
    let c1 := c.write (c.winStart q.die q.win + q.off) q.data q.pois who ups
    c.winCheck src part q = stOk →
    c.remoteRequestArrive k ups = (if q.cid = 0 then c1 else c1.carryReq r q rest src part (q.cid - 1) q.data).setRun k
      { r with reqs := rest, rets := r.rets ++ [{ req := q, status := stOk }] } := by
  subst hst
  intro src job part who c1 hok
  simp only [Chip.remoteRequestArrive, hr, hok, hw, ne_eq, not_true_eq_false, if_true, if_false, c1, who, part, job, src]

/-- The data of an accepted read go back in the command's one contribution from the owning die. -/
theorem Chip.remoteRequestArrive_read (hw : q.wr = false) :
    let src := stDie st
    let job := dJob r.desc
    let part := c.jobPart job
    let who : Reader := { kind := 0, job := job, part := part, safety := c.isSafety part, st := k / 4 }
    let rd := c.read who ups (c.winStart q.die q.win + q.off) q.len
    let o := rd.1.openContrib q.die src part job
    let key := if r.cids = [] then conKey src q.die o.1 else r.cids.headD 0
    let c1 := (if r.cids = [] then o.2 else rd.1).sendData
      { ty := 4, src := q.die, dst := src, part := part, target := q.win, offset := q.off / 8, contrib := key % 8192 } rd.2.1 rd.2.2
    c.winCheck src part q = stOk →
    c.remoteRequestArrive k ups = (c1.carryReq r q rest src part key rd.2.1).setRun k
      { r with reqs := rest, cids := [key], rets := r.rets ++ [{ req := q, status := stOk, data := rd.2.1, pois := rd.2.2 }] } := by
  subst hst
  intro src job part who rd o key c1 hok
  have hkey : (if r.cids = [] then (conKey src q.die o.1, o.2) else (r.cids.headD 0, rd.1)) = (key, if r.cids = [] then o.2 else rd.1) := by
    unfold key
    split <;> rfl
  simp only [Chip.remoteRequestArrive, hr]
  rw [if_neg (not_not_intro hok), if_neg (by simp [hw])]
  simp only [List.isEmpty_iff]
  rw [hkey]

end

/-- What a refused request changes beside its command leaves memory. -/
theorem Chip.mem_refusedReq (c : Chip) (r : Run) (q : WReq) (rest : List WReq) (src part : Nat) :
    (if q.wr then (if q.cid = 0 then c else c.carryReq r q rest src part (q.cid - 1) q.data)
      else if r.cids = [] then c else c.carryReq r q rest src part (r.cids.headD 0) []).mem = c.mem := by
  simp only [apply_ite Chip.mem, Chip.mem_carryReq, ite_self]

/-! ### Statuses at the sender -/

section
variable {c : Chip} {k st : Nat} {r : Run} {x : WRet} {rest : List WRet} (hr : (c.station k).runs.find? (fun r => !r.rets.isEmpty) = some r) (hx : r.rets = x :: rest)
include hr hx

/-- BOUND ends the command with a bound fault. -/
theorem Chip.remoteStatusReturn_bound (h : x.status = stBound) :
    c.remoteStatusReturn k = c.boundFault k r x.region x.req.off (1 <<< 18 + x.req.win <<< 19 + x.req.die <<< 25) := by
  simp only [Chip.remoteStatusReturn, hr, hx, h, if_true]

/-- Another status is taken into the command, and a DM counts a closed window. -/
theorem Chip.remoteStatusReturn_taken (hst : k / 4 = st) (h : x.status ≠ stBound) :
    let shut := x.status == stWindowClosed
    let data := if shut then List.replicate x.req.len 0#8 else x.data
    let pois := if shut then List.range x.req.len else x.pois
    let r1 := { r with rets := rest, closed := r.closed || shut, acc2 := if shut && stType st == 6 then r.acc2 ++ [x.req.place] else r.acc2 }
    let r2 := if x.req.wr then r1 else { r1 with buf := placeBytes r1.buf x.req.place data, bufPois := r1.bufPois ++ pois.map (· + x.req.place) }
    c.remoteStatusReturn k = if shut && stType st == 4
      then (c.setRun k r2).addReg (stDie st) (dmBlk (if stDie st = 0 then stIdx st - 72 else (stIdx st - 32) / 4) + 0xC) 1 else c.setRun k r2 := by
  subst hst
  simp only [Chip.remoteStatusReturn, hr, hx, if_neg h]

end

/-- The station of a command's key, with the partition where it is an XD. -/
theorem stKey_part_div (st : Stn) (p : Part) : stKey st (if isXd st then p else 0) / 4 = st :=
  stKey_div _ _ (by split; exacts [p.isLt, by decide])

/-- Settles O29: a request by the outcome of its checks, a status by whether it is BOUND. -/
theorem remoteRequestsServed : Obligations.RemoteRequestsServed := by
  constructor
  · intro s st p ups r q rest hl k src job part a who ok hr
    refine ⟨fun hok => ⟨next_live hl (Chip.remoteRequestArrive_refused ups (stKey_part_div st p) hr hok), ?_⟩,
      fun hok hw => next_live hl (Chip.remoteRequestArrive_write ups (stKey_part_div st p) hr hw hok), fun hok hw => next_live hl (Chip.remoteRequestArrive_read ups (stKey_part_div st p) hr hw hok)⟩
    exact (Chip.mem_refusedReq ..).trans (Chip.addReg_mem ..)
  · intro s st p r x rest hl k shut data pois r1 r2 dm hr hx
    exact ⟨fun h => next_live hl (Chip.remoteStatusReturn_bound hr hx h), fun h => next_live hl (Chip.remoteStatusReturn_taken hr hx (stKey_part_div st p) h)⟩

end Sys2Proof.Machine
end

section
/-! SRAM maintenance (R188, R190, R192): write-backs, and the scrub engines of the buffers. -/
namespace Sys2Proof.Machine

/-- A command of a buffer while no spindle lock holds, outside PARK. -/
theorem next_hsd {s : State} {d : Nat} {f : Chip → Chip} {c : Chip} (hl : s.chip.isLive) (h : f s.chip = c) :
    (.next (s.put (s.chip.hsd d f)) : Host.Outcome State Fault Refusal) = .next (s.put c) := by
  rw [Chip.hsd]
  split
  · exact next_awake hl.1 h
  · exact next_live hl h

/-- The first word of the die that waits to be written back no longer waits. -/
theorem Chip.sramWriteback_found {c : Chip} {d : Nat} {e : Nat × Bool} (h : c.ecc.wb.find? (fun e => e.1 / 2 ^ 41 == d) = some e) :
    c.sramWriteback d = { c with ecc := { c.ecc with wb := tabSet false c.ecc.wb e.1 false } } := by
  simp only [Chip.sramWriteback, h]

/-- Whether the next line of a buffer's scrub engine lies in a drain-store row in use. -/
def Chip.scrubSkips (c : Chip) (d b : Nat) : Bool :=
  match scrubRow d b (c.scrubAt d b % 2 ^ 20) with
  | some k => (tabGet {} c.cmp.rows k).st != .free
  | none => false

/-- The engine of a buffer moved on from `x`, passes × 2^20 + position, with the die's count of passes. -/
def Chip.scrubMoved (c : Chip) (d b x : Nat) : Chip :=
  let c1 := { c with ecc := { c.ecc with scrub := tabSet 0 c.ecc.scrub (d * 32 + b) (if scrubLines d b ≤ x % 2 ^ 20 + 1 then (x / 2 ^ 20 + 1) * 2 ^ 20 else x + 1) } }
  c1.setReg d (sramBlk + 0x14) (c1.scrubPasses d)

theorem Chip.scrubSkips_iff (c : Chip) (d b : Nat) :
    c.scrubSkips d b = true ↔ ∃ k, scrubRow d b (c.scrubAt d b % 2 ^ 20) = some k ∧ (tabGet {} c.cmp.rows k).st ≠ .free := by
  rw [Chip.scrubSkips]
  cases scrubRow d b (c.scrubAt d b % 2 ^ 20) <;> simp

section
variable {c : Chip} {d b : Nat} (ups : Upsets) (hb : b ∈ scrubBufs d)
include hb

/-- A scrub reads its next line, unless it passes over it, and moves on. -/
theorem Chip.sramScrub_buf :
    c.sramScrub d b ups = (if c.scrubSkips d b then c else (c.read { kind := 1 } ups (scrubAddr d b (c.scrubAt d b % 2 ^ 20)) 64).1).scrubMoved d b (c.scrubAt d b) := by
  rw [Chip.sramScrub, if_neg (by simp [hb])]
  rfl

/-- A drain-store row in use is passed over. -/
theorem Chip.sramScrub_skips (h : c.scrubSkips d b = true) : c.sramScrub d b ups = c.scrubMoved d b (c.scrubAt d b) := by
  rw [Chip.sramScrub_buf ups hb, if_pos h]

/-- Any other line is read. -/
theorem Chip.sramScrub_reads (h : ¬ c.scrubSkips d b = true) :
    c.sramScrub d b ups = (c.read { kind := 1 } ups (scrubAddr d b (c.scrubAt d b % 2 ^ 20)) 64).1.scrubMoved d b (c.scrubAt d b) := by
  rw [Chip.sramScrub_buf ups hb, if_neg h]

/-- A forced scrub raises SRAM_ERR_STATUS[3], with its line latched as a first error's, and then reads the line. -/
theorem Chip.sramScrubForced_buf :
    let l := c.latchIf d sramBlk [(sramBlk + 4, sramDetail (c.decode (scrubAddr d b (c.scrubAt d b % 2 ^ 20)))), (sramBlk + 8, c.turn32)]
    c.sramScrubForced d b ups = (l.raise d sramBlk 3 0).sramScrub d b ups := by
  simp [Chip.sramScrubForced, hb]

end

end Sys2Proof.Machine
end

section
/-! The DDR5 controllers (R199, R200, R203, R206, R208–R211, R218): requests, refresh, RFM, MR4, the DQS oscillator check and the metering window, each by its cases. -/
namespace Sys2Proof.Machine

/-! ### Requests -/

theorem Chip.mem_access (c : Chip) (d a n : Nat) (wr : Bool) (own : Option Nat) : (c.access d a n wr own).mem = c.mem :=
  (Chip.access_follows d a n wr own (Kept.but_follows [.regs, .ecc, .free] c) (Kept.but_free _ c)).mem_eq (by decide)

theorem Chip.mem_upset (c : Chip) (who : Reader) (u : Upset) : (c.upset who u).mem = c.mem :=
  (Chip.upset_follows who u (Kept.but_follows [.regs, .ecc, .flt] c) (Kept.but_free _ c)).mem_eq (by decide)

section
variable {c : Chip} {d : Nat} {r : DdrReq} (ups : Upsets) (ha : r.addr.toNat < c.usable d)
include ha

theorem Chip.ddrRequest_read (hr : r.data = none) :
    c.ddrRequest d r ups = (c.read (c.ddrReader r.who) ups (dieBase d + r.addr.toNat) (inLine r.addr.toNat r.len)).1 := by
  simp only [Chip.ddrRequest, hr, if_neg (Nat.not_le.mpr ha)]

/-- Of what a write does, only the store of its bytes within the line reaches memory. -/
theorem Chip.mem_ddrRequest_write {b : Bytes} (hr : r.data = some b) :
    (c.ddrRequest d r ups).mem = memWrite c.mem (dieBase d + r.addr.toNat) (b.take (inLine r.addr.toNat b.length)) := by
  have hmarks : ∀ (p : Prop) [Decidable p] (w : Nat) (m : Chip), (if p then m.setPois w false else m).mem = m.mem := fun p _ w m => by split <;> rfl
  simp only [Chip.ddrRequest, hr, if_neg (Nat.not_le.mpr ha)]
  rw [eachDo_mem fun w m => hmarks _ w m, Chip.poke, eachDo_mem fun u m => m.mem_upset _ u, Chip.mem_access]
  rfl

end

/-! ### Refresh and RFM -/

/-- A refresh moves the rank to its next bank. -/
theorem Chip.refs_ddrRefresh (c : Chip) (d sub rank : Nat) :
    tabGet 0 (c.ddrRefresh d sub rank).ecc.refs ((d * 2 + sub) * 2 + rank) = (tabGet 0 c.ecc.refs ((d * 2 + sub) * 2 + rank) + 1) % 4 :=
  tabGet_tabSet_self 0 _ _ _

/-- Without a RAAIMT, or with the bank's count below it, no RFM is issued. -/
theorem Chip.rfm_notDue {c : Chip} {d sub b : Nat} (h : (tabGet (0, 0) c.ecc.rfm d).1 = 0 ∨ tabGet 0 c.ecc.raa (bankKey d sub b) < (tabGet (0, 0) c.ecc.rfm d).1) :
    c.rfm d sub b = c := if_pos h

theorem Chip.rfm_due {c : Chip} {d sub b : Nat} (h0 : (tabGet (0, 0) c.ecc.rfm d).1 ≠ 0) (h : (tabGet (0, 0) c.ecc.rfm d).1 ≤ tabGet 0 c.ecc.raa (bankKey d sub b)) :
    c.rfm d sub b = c.rfmBank d sub b := if_neg (by omega)

/-- An RFM lowers its bank's count by RAAIMT. -/
theorem Chip.raa_rfmBank (c : Chip) (d sub b : Nat) :
    tabGet 0 (c.rfmBank d sub b).ecc.raa (bankKey d sub b) = tabGet 0 c.ecc.raa (bankKey d sub b) - (tabGet (0, 0) c.ecc.rfm d).1 :=
  tabGet_tabSet_self 0 _ _ _

/-! ### MR4 -/

/-- A first error's registers leave the die's registers of other offsets. -/
theorem Chip.reg_latchIf_off (c : Chip) (d stat : Nat) {l : List (Nat × Nat)} {o : Nat} (ho : ∀ p ∈ l, o ≠ p.1) : (c.latchIf d stat l).reg d o = c.reg d o := by
  rw [Chip.latchIf]
  split
  · exact eachDo_reg (fun p hp c => c.reg_setReg_off d p.2 (ho p hp)) c
  · rfl

section
variable (c : Chip) (d sub rank code : Nat)

/-- The rank's code is kept, and twice the rate is asked for where either rank needs it. -/
theorem Chip.mr4Read_cool :
    let c1 := c.setFld d (ddrBlk sub + 0x2C) (4 * rank + 2) (4 * rank) code
    let twice := mr4Twice (bits (c1.reg d (ddrBlk sub + 0x2C)) 2 0) || mr4Twice (bits (c1.reg d (ddrBlk sub + 0x2C)) 6 4) || false
    c.mr4Read d sub rank code false = c1.setFld d (ddrBlk sub + 0x2C) 8 8 (b2n twice) := rfl

/-- Above the operating limit DDR_ERR_STATUS[5] is raised. -/
theorem Chip.bit_mr4Read_hot : bit ((c.mr4Read d sub rank code true).reg d (ddrBlk sub + 4)) 5 = true := by
  rw [Chip.mr4Read, if_pos rfl]
  exact Chip.bit_raise _ _ _ _ (by decide) _ _

/-- The error above the operating limit leaves the rates. -/
theorem Chip.reg_mr4Read_hot :
    let c1 := c.setFld d (ddrBlk sub + 0x2C) (4 * rank + 2) (4 * rank) code
    let twice := mr4Twice (bits (c1.reg d (ddrBlk sub + 0x2C)) 2 0) || mr4Twice (bits (c1.reg d (ddrBlk sub + 0x2C)) 6 4) || true
    (c.mr4Read d sub rank code true).reg d (ddrBlk sub + 0x2C) = (c1.setFld d (ddrBlk sub + 0x2C) 8 8 (b2n twice)).reg d (ddrBlk sub + 0x2C) := by
  rw [Chip.mr4Read, if_pos rfl, Chip.reg_raise_off _ _ _ _ _ _ (by omega)]
  exact Chip.reg_latchIf_off _ _ _ (by simp)

end

/-! ### The DQS oscillator check -/

/-- What follows a chip in everything but parts other than the memories' state has that state. -/
theorem Kept.Follows.ecc_eq {l : List Comp} {c d : Chip} (h : (Kept.but l c).Follows d) (hl : Comp.ecc ∉ l) : d.ecc = c.ecc :=
  h.same .ecc (by simp [Kept.but, hl])

/-- A latched and raised error leaves the memories' state. -/
theorem Chip.ecc_raise_latchIf (c : Chip) (d off i cause : Nat) (l : List (Nat × Nat)) : ((c.latchIf d off l).raise d off i cause).ecc = c.ecc :=
  have hm := Kept.but_free [.regs, .flt] c
  (Chip.raise_follows d off i cause false 0 (Chip.latchIf_follows d off l (Kept.but_follows _ c) (hm.sub (by decide))) hm).ecc_eq (by decide)

section
variable (c : Chip) (d sub rank count : Nat)

/-- The rank's count stands in its register, and in the die's first full-load turn the rank is re-validated. -/
def Chip.dqsCounted : Chip :=
  (if tabGet 0 c.wrk.full d = c.turn + 1 then { c with ecc := { c.ecc with reval := tabSet false c.ecc.reval ((d * 2 + sub) * 2 + rank) true } } else c).setFld
    d (ddrBlk sub + 0x38) (16 * rank + 15) (16 * rank) count

/-- The delays are updated to the count, and the update is counted. -/
def Chip.dqsUpdated : Chip :=
  let c1 := c.dqsCounted d sub rank count
  Chip.addReg { c1 with ecc := { c1.ecc with osc := tabSet 0 c1.ecc.osc ((d * 2 + sub) * 2 + rank) count } } d (ddrBlk sub + 0x34) 1

/-- How far a count lies from the rank's count of the last training. -/
def Chip.dqsDrift : Nat :=
  let ref := tabGet 0 c.ecc.osc ((d * 2 + sub) * 2 + rank)
  if count < ref then ref - count else count - ref

variable {c d sub rank count}

theorem Chip.dqsCheck_within (ok : Bool) (h : 50 * c.dqsDrift d sub rank count ≤ tabGet 0 c.ecc.osc ((d * 2 + sub) * 2 + rank)) :
    c.dqsCheck d sub rank count ok = c.dqsCounted d sub rank count := if_pos h

section
variable (h : tabGet 0 c.ecc.osc ((d * 2 + sub) * 2 + rank) < 50 * c.dqsDrift d sub rank count)
include h

theorem Chip.dqsCheck_updated : c.dqsCheck d sub rank count true = c.dqsUpdated d sub rank count := if_neg (Nat.not_le.mpr h)

/-- Where the margin stays low after the update, an error is latched and DDR_ERR_STATUS[4] raised. -/
theorem Chip.dqsCheck_lowMargin :
    let c2 := c.dqsUpdated d sub rank count
    let o := ddrBlk sub
    c.dqsCheck d sub rank count false = (c2.latchIf d (o + 4) [(o + 8, rank), (o + 0xC, 0), (o + 0x10, 0), (o + 0x14, c2.turn32)]).raise d (o + 4) 4 0x0A :=
  if_neg (Nat.not_le.mpr h)

end

end

/-! ### The metering window -/

/-- A key cut away answers the default. -/
theorem tabGet_tabKeep_cut {α : Type} {p : Nat → Bool} {i : Nat} (h : p i = false) (d : α) (t : Tab α) : tabGet d (tabKeep p t) i = d := by
  induction t with
  | nil => rfl
  | cons kv t ih =>
    obtain ⟨k, w⟩ := kv
    by_cases hp : p k = true
    · have hk : i ≠ k := fun hk => by simp [← hk, h] at hp
      simpa [tabKeep, tabGet, hk, hp] using ih
    · simpa [tabKeep, hp] using ih

/-- A loop with a step to do, each of whose steps leaves a property, ends with it. -/
theorem eachDo_establishes {α : Type} {f : α → Chip → Chip} {P : Chip → Prop} (hf : ∀ x c, P (f x c)) {l : List α} (hl : l ≠ []) (c : Chip) : P (eachDo l f c) := by
  rw [eachDo, ← List.dropLast_append_getLast hl, List.foldl_append]
  exact hf _ _

/-- A partition that waited and was served below its reservation raises DDR_ERR_STATUS[7]. -/
theorem Chip.bit_resWindowEnd {c : Chip} {d waiting p : Nat} (hp : p < 4) (hw : bit waiting p = true) (hs : tabGet 0 c.ecc.served (d * 4 + p) < c.reserved d p) :
    bit ((c.resWindowEnd d waiting).reg d (ddrBlk 0 + 4)) 7 = true := by
  refine eachDo_establishes (P := fun m => bit (m.reg d (ddrBlk 0 + 4)) 7 = true) (fun p m => Chip.bit_raise _ _ _ _ (by decide) _ _) (List.ne_nil_of_mem (a := p) ?_) c
  simp [hp, hw, hs]

/-- A new window begins with nothing served. -/
theorem Chip.served_resWindowEnd (c : Chip) (d waiting : Nat) {p : Nat} (hp : p < 4) : tabGet 0 (c.resWindowEnd d waiting).ecc.served (d * 4 + p) = 0 :=
  have hkey : ((d * 4 + p) / 4 != d) = false := by
    rw [bne_eq_false_iff_eq]
    omega
  tabGet_tabKeep_cut (p := fun k => k / 4 != d) hkey _ _

/-! ### The statement -/

/-- Settles O30: each clause is the lemma of its operation's case. -/
theorem memoryControllersServe : Obligations.MemoryControllersServe := by
  refine ⟨fun s d buf ups hl => ?_, fun s d hl => ?_, fun s d sub hl => ?_⟩
  · refine ⟨fun e he => next_hsd hl (Chip.sramWriteback_found he), fun hb => ⟨fun hu => ?_, fun hu => ?_, ?_, ?_⟩⟩
    · exact next_hsd hl (Chip.sramScrub_skips ups hb ((Chip.scrubSkips_iff ..).mpr hu))
    · exact next_hsd hl (Chip.sramScrub_reads ups hb (mt (Chip.scrubSkips_iff ..).mp hu))
    · exact next_hsd hl (Chip.sramScrubForced_buf ups hb)
    · exact Chip.bit_raise _ _ _ _ (by decide) _ _
  · refine ⟨fun r ups ha hr => ?_, fun r ups b ha hr => ?_, fun sub rank => ?_, fun sub bank => ⟨fun h => ?_, fun h0 h => ?_⟩, fun sub rank code hot => ⟨?_, ?_⟩⟩
    · exact next_live hl (Chip.ddrRequest_read ups ha hr)
    · exact ⟨_, next_live hl rfl, Chip.mem_ddrRequest_write ups ha hr⟩
    · exact ⟨_, next_live hl rfl, rfl, rfl, rfl, Chip.refs_ddrRefresh ..⟩
    · exact next_live hl (Chip.rfm_notDue h)
    · exact ⟨_, next_live hl (Chip.rfm_due h0 h), rfl, Chip.raa_rfmBank ..⟩
    · rintro rfl
      exact next_live hl (Chip.mr4Read_cool ..)
    · rintro rfl
      exact ⟨_, next_live hl rfl, Chip.bit_mr4Read_hot .., Chip.reg_mr4Read_hot ..⟩
  · refine ⟨fun rank count ok => ⟨fun h => ?_, ?_, ?_⟩, fun ups => next_live hl rfl, fun waiting p hw hs => ?_⟩
    · exact next_live hl (Chip.dqsCheck_within ok h)
    · rintro h rfl
      exact next_live hl (Chip.dqsCheck_updated h)
    · rintro h rfl
      exact ⟨_, next_live hl (Chip.dqsCheck_lowMargin h), Chip.bit_raise _ _ _ _ (by decide) _ _, congrArg Ecc.osc (Chip.ecc_raise_latchIf ..)⟩
    · exact ⟨_, next_live hl rfl, Chip.bit_resWindowEnd p.isLt hw hs, fun i => Chip.served_resWindowEnd _ _ _ i.isLt⟩

end Sys2Proof.Machine
end

section
/-! The collectives of an XD's list (R230, R240, R243, R244): what one invocation does with the command at the front of the list. -/
namespace Sys2Proof.Machine

section
variable {c : Chip} {k op : Nat} {r : Run} (ord : List Nat) (flt : Option (Nat × BitVec 32))

/-- A collective that gathers nothing sends, forms and ends. -/
theorem Chip.collective_sends (h : c.xdRun k op = some r) (ho : op ≠ 6) :
    let x := c.collSend k { r with begun := true }
    c.collective k op ord flt = ((x.1.collForm k x.2 ord flt).collEnd k).shareOut (stDie (k / 4)) := by
  simp only [Chip.collective, h, ho, if_false]

/-- An all-reduce also gathers the reduced tiles of the other members before it forms its own. -/
theorem Chip.collective_gathers (h : c.xdRun k 6 = some r) :
    let x := c.collSend k { r with begun := true }
    let g := x.1.collGather k x.2
    c.collective k 6 ord flt = ((g.1.collForm k g.2 ord flt).collEnd k).shareOut (stDie (k / 4)) := by
  simp only [Chip.collective, h, if_true]

end

/-- Settles O22: an invocation by whether its collective gathers, which only the all-reduce does. -/
theorem collectivesSendFormEnd : Obligations.CollectivesSendFormEnd := by
  intro s d p ord flt r hw k x g fin
  refine ⟨fun h => ?_, fun h => ?_, fun h => ?_, fun h => ?_⟩
  · exact next_work hw (Chip.collective_sends [] none h (by decide))
  · exact next_work hw (Chip.collective_sends [] none h (by decide))
  · exact next_work hw (Chip.collective_sends _ flt h (by decide))
  · exact next_work hw (Chip.collective_gathers _ flt h)

end Sys2Proof.Machine
end

section
/-! Trailers, tallies and failed contributions (R233–R236, R239): how a contribution is decided, and the turn record that its failure leaves. -/
namespace Sys2Proof.Machine

/-! ### Turn records -/

section
variable (c : Chip) (t p : Nat)

/-- A record set to FAILED is FAILED, whatever it was. -/
theorem Chip.record_setRecord_failed : (c.setRecord t p 2).record t p = 2 := by
  rw [Chip.setRecord]
  split
  · assumption
  · simp only [Chip.record, tabGet_tabSet_self]

variable {c t p} in
/-- FAILED is final. -/
theorem Chip.setRecord_of_failed (h : c.record t p = 2) (v : Nat) : c.setRecord t p v = c := if_pos h

end

/-! ### Trailers and tallies -/

section
variable {c : Chip} {d src num : Nat} {tr : Trailer} (hk : c.hasContrib (conKey d src num) = true) (hp : (c.contrib (conKey d src num)).st = .pending)
include hk hp

theorem Chip.trailerArrive_matches (hx : (c.contrib (conKey d src num)).expects tr = true) :
    c.trailerArrive d src num tr = (c.verify d src num).updateRecord (c.contrib (conKey d src num)).part := by
  simp [Chip.trailerArrive, hk, hp, hx]

theorem Chip.trailerArrive_differs (hx : (c.contrib (conKey d src num)).expects tr = false) :
    c.trailerArrive d src num tr = (c.contribFail d src num 0).updateRecord (c.contrib (conKey d src num)).part := by
  simp [Chip.trailerArrive, hk, hp, hx]

end

section
variable (c : Chip) (d src p n : Nat)

/-- The chip with a tally's count kept and every pending contribution that it names failed. -/
def Chip.tallied : Chip :=
  eachDo (((c.contribsFrom p src d).take n).filter (fun e => e.2.st == .pending)) (fun e c => c.contribFail d src (e.1 % 8192) 1)
    { c with lnk := { c.lnk with tallies := tabSet 0 c.lnk.tallies ((d * 8 + src) * 4 + p) (n + 1) } }

/-- A tally decides the record of its partition, FAILED where it counts more than were seen. -/
theorem Chip.tallyArrive_eq :
    let c2 := c.tallied d src p n
    c.tallyArrive d src p n = Chip.updateRecord (if n ≤ (c.contribsFrom p src d).length then c2
      else ((c2.xdLatch d src 0 p 0 0).raise d (xdBlkOf d src) 1 0x10 (esc := c2.isSafety p)).setRecord c2.turn32 p 2) p := by
  simp only [← Nat.not_lt, ite_not]
  rfl

end

/-! ### A failed contribution -/

/-- A raised bit leaves every other register. -/
theorem Chip.reg_raise_ne (c : Chip) (d off i cause : Nat) (esc : Bool) (cls : Nat) {e o : Nat} (h : regKey e o ≠ regKey d off) :
    (c.raise d off i cause esc cls).reg e o = c.reg e o := by
  have hor : (c.orReg d off (1 <<< i)).reg e o = c.reg e o := c.reg_setReg_ne _ _ _ _ _ h
  rw [Chip.raise]
  split
  · exact hor
  · split <;> exact hor

/-- The turn's number lies outside the block of a link. -/
theorem regKey_turn_ne_xdBlkOf (d : Nat) {src o : Nat} (hs : src < 8) (hlo : xdBlkOf d src ≤ o) (hhi : o < xdBlkOf d src + 0x40) : regKey 0 tsBlk ≠ regKey d o := by
  have hblk : xdBlk ≤ xdBlkOf d src ∧ xdBlkOf d src ≤ xdBlk + 0x1C0 := by rw [xdBlkOf]; split <;> omega
  simp only [regKey, tsBlk, xdBlk] at *
  omega

section
variable (c : Chip) (d src : Nat)

theorem Chip.turn32_xdLatch (hs : src < 8) (num part job m : Nat) : (c.xdLatch d src num part job m).turn32 = c.turn32 := by
  simp only [Chip.xdLatch, Chip.latchIf]
  split
  · refine eachDo_reg (fun e he k => k.reg_setReg_ne _ _ _ _ _ ?_) c
    obtain rfl | rfl : e = _ ∨ e = _ := by simpa using he
    · exact regKey_turn_ne_xdBlkOf d hs (by omega) (by omega)
    · exact regKey_turn_ne_xdBlkOf d hs (by omega) (by omega)
  · rfl

variable (num i : Nat)

/-- A failed contribution is marked, and its error registers are latched. -/
def Chip.contribLatched : Chip :=
  let k := conKey d src num
  let x := c.contrib k
  (c.setContrib k { x with st := .failed }).xdLatch d src num x.part x.job 0

/-- A failed contribution's digest line is raised, as an escalation for a SAFETY partition. -/
def Chip.contribReported : Chip :=
  let c1 := c.contribLatched d src num
  c1.raise d (xdBlkOf d src) i 0x10 (esc := c1.isSafety (c.contrib (conKey d src num)).part)

theorem Chip.turn32_contribReported (hs : src < 8) : (c.contribReported d src num i).turn32 = c.turn32 :=
  have hraise : (c.contribReported d src num i).turn32 = (c.contribLatched d src num).turn32 :=
    Chip.reg_raise_ne _ _ _ _ _ _ _ (regKey_turn_ne_xdBlkOf d hs (by omega) (by omega))
  hraise.trans (Chip.turn32_xdLatch _ d src hs ..)

/-- The report of a failure leaves the configuration, and with it the classes of the partitions. -/
theorem Chip.isSafety_contribReported (t p q : Nat) : ((c.contribReported d src num i).setRecord t p 2).isSafety q = c.isSafety q := by
  let z := Kept.but [.regs, .lnk, .flt, .wrk] c
  have hm : z.Free [.regs, .lnk, .flt, .wrk] := Kept.but_free _ c
  have hlatch : z.Follows (c.contribLatched d src num) :=
    Chip.xdLatch_follows _ _ _ _ _ _ (Chip.setContrib_follows _ _ (Kept.but_follows _ c) (hm.sub (by decide))) (hm.sub (by decide))
  have hraise : z.Follows (c.contribReported d src num i) := Chip.raise_follows _ _ _ _ _ _ hlatch (hm.sub (by decide))
  have hcfg : ((c.contribReported d src num i).setRecord t p 2).cfg = c.cfg := (Chip.setRecord_follows t p 2 hraise (hm.sub (by decide))).same .cfg rfl
  simp only [Chip.isSafety, Chip.cfgBy, Chip.cfgRec, hcfg]

/-- A SAFETY contribution's failure is reported and fails the turn record, and nothing else. -/
theorem Chip.contribFail_safety (hs : src < 8) :
    let p := (c.contrib (conKey d src num)).part
    c.isSafety p = true → c.contribFail d src num i = (c.contribReported d src num i).setRecord c.turn32 p 2 := by
  intro p hsafe
  have hturn := c.turn32_contribReported d src num i hs
  rw [← hturn]
  exact if_pos ((c.isSafety_contribReported d src num i _ p p).trans hsafe)

end

/-! ### The statement -/

/-- Settles O32: a trailer by whether it matches, a tally by `Chip.tallyArrive_eq`, and a failure by the record that `Chip.contribFail_safety` sets. -/
theorem digestsDecideContributions : Obligations.DigestsDecideContributions := by
  refine ⟨fun s d src hl => ⟨fun num tr => ?_, fun p n => ?_⟩, fun c dst src num i _ hs _ _ _ => ?_⟩
  · intro k x hk hp
    exact ⟨fun hx => next_live hl (Chip.trailerArrive_matches hk hp hx), fun hx => next_live hl (Chip.trailerArrive_differs hk hp hx)⟩
  · exact next_live hl (Chip.tallyArrive_eq ..)
  · intro p _
    refine ⟨fun hsafe => ?_, fun v hv => ?_⟩
    · rw [c.contribFail_safety dst src num i hs hsafe]
      exact Chip.record_setRecord_failed ..
    · rw [Chip.setRecord_of_failed hv v]
      exact hv

end Sys2Proof.Machine
end

section
/-! Faults of a sensor port (R264, R270, R272, R335): a lost link, a current sample, the retry after a trip and a low eye margin, each by its cases. -/
namespace Sys2Proof.Machine

section
variable {c : Chip} {p : Nat}

/-- A lost link that was up drops the port's images, is down, and sets its status bit. -/
theorem Chip.sensorLost_up (h : bit (c.reg 0 (spBlk p)) 5 = true) :
    c.sensorLost p = (((c.dropPort p).setFld 0 (spBlk p) 5 5 0).spLatch p 0 4 0 0).raise 0 (spBlk p + 4) 2 0x1C := by
  simp [Chip.sensorLost, h]

/-! ### Current samples -/

/-- The chip with a sample of `m` mA shown by the port, and the highest one so far (R270). -/
def Chip.pocNoted (c : Chip) (p m : Nat) : Chip :=
  (c.setFld 0 (spBlk p + 0x14) 9 0 m).setFld 0 (spBlk p + 0x14) 25 16 (max (c.fld 0 (spBlk p + 0x14) 25 16) m)

/-- The port switched off by a sample of `m` mA: its images dropped, for good where this was its last try (R272). -/
def Chip.pocTripped (c : Chip) (p m : Nat) (last : Bool) : Chip :=
  let b := spBlk p
  let c3 := ((c.dropPort p).setFld 0 b 6 6 0).setFld 0 b 7 7 (b2n last)
  ((c3.modSp p (fun x => { x with high := 0, offNs := c3.nowNs })).spLatch p 0 4 m 0).raise 0 (b + 4) 1 0x1C

section
variable {ma : Nat} (hon : bit (c.reg 0 (spBlk p)) 6 = true)
include hon

/-- A sample within the trip current ends the run of samples above it. -/
theorem Chip.pocSample_within (hm : min 1023 ma ≤ c.sport p 17 1023) (hmax : min 1023 ma ≠ 1023) :
    c.pocSample p ma = (c.pocNoted p (min 1023 ma)).modSp p (fun x => { x with high := 0 }) := by
  simp [Chip.pocSample, hon, Nat.not_lt.mpr hm, hmax, Chip.pocNoted]

variable (hm : c.sport p 17 1023 < min 1023 ma ∨ min 1023 ma = 1023)
include hm

/-- The first two samples in a row above the trip current are counted. -/
theorem Chip.pocSample_counted (hn : (c.sp p).high < 2) :
    c.pocSample p ma = (c.pocNoted p (min 1023 ma)).modSp p (fun x => { x with high := (c.sp p).high + 1 }) := by
  have hhot : (decide (c.sport p 17 1023 < min 1023 ma) || min 1023 ma == 1023) = true := by simpa using hm
  have hlow : (c.sp p).high + 1 < 3 := by omega
  simp only [Chip.pocSample, hon, hhot, hlow, Bool.not_true, Bool.false_eq_true, if_false, if_true, Chip.pocNoted]

/-- The third one switches the port off. -/
theorem Chip.pocSample_trips (hn : 2 ≤ (c.sp p).high) :
    let c1 := c.pocNoted p (min 1023 ma)
    c.pocSample p ma = c1.pocTripped p (min 1023 ma) (decide (c.sport p 19 1 ≤ c1.fld 0 (spBlk p) 9 8)) := by
  have hhot : (decide (c.sport p 17 1023 < min 1023 ma) || min 1023 ma == 1023) = true := by simpa using hm
  have hthird : ¬ (c.sp p).high + 1 < 3 := by omega
  simp only [Chip.pocSample, hon, hhot, hthird, Bool.not_true, Bool.false_eq_true, if_false, if_true]
  rfl

end

/-! ### Retries and eye margins -/

/-- A port that a trip switched off, with a retry left, comes on again 100 ms after it. -/
theorem Chip.pocRetry_off (hoff : bit (c.reg 0 (spBlk p)) 6 = false) (hretry : bit (c.reg 0 (spBlk p)) 7 = false) (hcoax : c.sport p 14 0 ≠ 0) (hns : (c.sp p).offNs ≠ 0) :
    c.pocRetry p = ((c.advanceTo ((c.sp p).offNs + 100000000)).setFld 0 (spBlk p) 6 6 1).setFld 0 (spBlk p) 9 8 (bits (c.reg 0 (spBlk p)) 9 8 + 1) := by
  simp [Chip.pocRetry, hoff, hretry, hcoax, hns]

/-- A low margin of a port in use raises its FSW bit. -/
theorem Chip.eyeCheck_low (h : bits (c.reg 0 (spBlk p)) 1 0 ≠ 0) : c.eyeCheck p true = c.rise { bit := 4, cause := 0x1C, die := 0, src := 0 } := by
  simp [Chip.eyeCheck, h]

end

/-! ### The statement -/

/-- Settles O35: each clause is the lemma of its operation's case. -/
theorem sensorPortFaultsHandled : Obligations.SensorPortFaultsHandled := by
  intro s sp hl
  refine ⟨fun hup => ?_, fun ma hon => ⟨fun hm hmax => ?_, fun hm => ⟨fun hn => ?_, fun hn => ?_⟩⟩, fun hoff hretry hcoax hns => ?_, fun huse => ?_⟩
  · exact next_live hl (Chip.sensorLost_up hup)
  · exact next_live hl (Chip.pocSample_within hon hm hmax)
  · exact next_live hl (Chip.pocSample_counted hon hm hn)
  · exact next_live hl (Chip.pocSample_trips hon hm hn)
  · exact next_live hl (Chip.pocRetry_off hoff hretry hcoax hns)
  · exact next_live hl (Chip.eyeCheck_low huse)

end Sys2Proof.Machine
end

section
/-! Requests of the mailbox (R446, R450, R453, R454): a request that `Chip.asks` describes is carried out on the chip that has heard it, and answered. -/
namespace Sys2Proof.Machine

/-- What a port does while it hears. -/
theorem Chip.onPort_hears {c : Chip} {n : Nat} (f : Chip → Chip) (h : c.hears n) : c.onPort n f = f c := by
  obtain ⟨hl, hp⟩ := h
  exact if_neg (by simpa [hl] using hp)

/-- A port's command while it hears. -/
theorem next_onPort {s : State} {n : Nat} {f : Chip → Chip} {c : Chip} (hp : s.chip.hears n) (h : f s.chip = c) :
    (.next (s.put (s.chip.onPort n f)) : Host.Outcome State Fault Refusal) = .next (s.put c) := next_put ((Chip.onPort_hears f hp).trans h)

/-- A session that is no partition's holds every privilege. -/
theorem Chip.holds_of_mgmt (c : Chip) {n : Nat} (hn : 4 ≤ n) (p : Option Nat) : c.holds n p = true := by
  cases p <;> simp [Chip.holds, hn]

/-- A management session may send what its kind may. -/
theorem ReqKind.from_mgmt (k : ReqKind) {n : Nat} (hlo : 4 ≤ n) (hhi : n < 8) : k.from n = k.mgmt := by
  rw [ReqKind.from, if_neg (Nat.not_lt.mpr hlo), if_pos hhi]

/-- A session that a host opened may send what partition and management sessions may. -/
theorem ReqKind.from_host {k : ReqKind} (hp : k.part = true) (hm : k.mgmt = true) {n : Nat} (hn : n < 8) : k.from n = true := by
  simp [ReqKind.from, hp, hm, hn]

/-- Hearing a peer opens and closes no session. -/
theorem Chip.sessOpen_notePeer (c : Chip) (n : Nat) (m : Dgram) : (c.notePeer n m).sessOpen n = c.sessOpen n := by
  simp [Chip.sessOpen, Chip.isNeg, Chip.notePeer]

/-- A new request in its form, from a session that may send it and holds its privilege, is carried out on the chip that keeps its number, and answered. -/
theorem Chip.serve_new {c d e : Chip} {n status : Nat} {r : Req} {k : ReqKind} {act : Chip → Nat × Bytes × Chip} {body : Bytes}
    (hd : c.modSess n (fun y => { y with rx := r.seq, live := true, cache := [] }) = d) (hnew : (c.sess n).live = true → r.seq = ((c.sess n).rx + 1) % 2 ^ 32 ∧ r.seq ≠ (c.sess n).rx)
    (hhost : r.ty ∈ hostTys) (hclean : r.clean = true) (hfrom : k.from n = true) (hpart : n < 4 → r.sess = n ∧ d.partServed n = true) (hbody : k.bodyOk r.body = true)
    (hneed : d.holds n (k.need d n r.body) = true) (hact : act d = (status, body, e)) : c.serve n r k act = e.reply n r.seq status body := by
  have hretry : ¬ ((c.sess n).live && r.seq == (c.sess n).rx) = true := by simpa using fun hl => (hnew hl).2
  have hseq : ¬ ((c.sess n).live && r.seq != ((c.sess n).rx + 1) % 2 ^ 32) = true := by simpa using fun hl => (hnew hl).1
  have hform : ¬ (!hostTys.contains r.ty || !r.clean || !k.from n || (decide (n < 4) && r.sess != n) || !k.bodyOk r.body) = true := by
    simpa [hhost, hclean, hfrom, hbody] using fun hn => (hpart hn).1
  have hserved : ¬ (n < 4 ∧ (!d.partServed n) = true) := by simpa using fun hn => (hpart hn).2
  rw [Chip.serve]
  simp only [hd]
  rw [if_neg hretry, if_neg hseq, if_neg hform, if_neg (by simp [hneed]), if_neg hserved, hact]

/-- A request that `Chip.asks` describes, of its command's type and form, from a session that may send it and holds its privilege, is carried out on the chip that has heard it. -/
theorem Chip.request_served {c e : Chip} {m : Dgram} {sig : Bool} {n status : Nat} {r : Req} {k : ReqKind} {act : Chip → Nat → Req → Nat × Bytes × Chip} {body : Bytes}
    (h : c.asks m sig n r) (hty : r.ty = k.ty) (hhost : k.ty ∈ hostTys) (hmine : k.mine r.body = true) (hfrom : k.from n = true) (hbody : k.bodyOk r.body = true)
    (hneed : (c.heard m n r).holds n (k.need (c.heard m n r) n r.body) = true) (hact : act (c.heard m n r) n r = (status, body, e)) :
    c.request m sig k act = e.reply n r.seq status body := by
  obtain ⟨-, hroute, hopen, hclean, hnew, hpart⟩ := h
  have hsome : n ≠ 256 := by
    rintro rfl
    simp [Chip.sessOpen] at hopen
  have htakes : k.takes r = true := by simp [ReqKind.takes, hty, hmine]
  simp only [Chip.request, hroute, htakes, hsome, if_false, Chip.sessOpen_notePeer, hopen, Bool.not_true, Bool.false_eq_true]
  exact Chip.serve_new rfl (by simpa [Chip.notePeer] using hnew) (hty ▸ hhost) hclean hfrom hpart hbody hneed hact

end Sys2Proof.Machine
end

section
/-! Requests that act on the device (R264, R272, R306, R465, R466): reads and writes of registers, cleared faults, steps of the time base and switched ports. -/
namespace Sys2Proof.Machine

/-- The chip with port `p`'s power switched on or off, and without power no images of it in progress (R264, R272). -/
def Chip.pocSwitched (c : Chip) (p on : Nat) : Chip :=
  let c1 := c.setFld 0 (spBlk p) 6 6 on
  if on = 0 then (c1.dropPort p).modSp p (fun y => { y with high := 0, offNs := 0 }) else c1

section
variable {c : Chip} {m : Dgram} {r : Req} {n : Nat} (h : c.asks m false n r)
include h

/-! ### Registers -/

/-- A read of 1 to 256 words that lie in the address space is answered with them. -/
theorem Chip.regReadMsg_served (ups : Upsets) (hlo : 4 ≤ n) (hhi : n < 8) (hty : r.ty = 0x21) (hlen : r.body.length = 16) (hz : zeroAt r.body 10 6 = true) (ha : leAt r.body 0 8 % 4 = 0)
    (hend : leAt r.body 0 8 + 4 * leAt r.body 8 2 ≤ 2 ^ 48) (hk : within (leAt r.body 8 2) 1 256 = true) :
    let w := ((c.heard m n r).setErr false).mgmtWords ups n (leAt r.body 8 2) (leAt r.body 0 8)
    c.regReadMsg m ups = w.2.reply n r.seq 0 w.1 := by
  have hrange : ¬ (leAt r.body 0 8 % 4 != 0 || decide (2 ^ 48 < leAt r.body 0 8 + 4 * leAt r.body 8 2) || !within (leAt r.body 8 2) 1 256) = true := by
    rw [ha, hk, decide_eq_false (Nat.not_lt.mpr hend)]
    decide
  exact Chip.request_served h hty (by decide) rfl (ReqKind.from_mgmt _ hlo hhi) (by simp [hlen, hz]) (Chip.holds_of_mgmt _ hlo _) (if_neg hrange)

/-- A write to an aligned address of a control space writes its register. -/
theorem Chip.regWriteMsg_served {i : Fin 4} {d off : Nat} (hn : n = 4 + i) (hty : r.ty = 0x22) (hlen : r.body.length = 16) (hz : zeroAt r.body 12 4 = true) (ha : leAt r.body 0 8 % 4 = 0)
    (hlt : leAt r.body 0 8 < 2 ^ 48) (hd : (c.heard m n r).decode (leAt r.body 0 8) = .ctl d off) :
    c.regWriteMsg m = ((c.heard m n r).writeReg (.mgmt i) d off (leAt r.body 8 4)).reply n r.seq 0 [] := by
  have hlo : 4 ≤ n := by omega
  have hhi : n < 8 := by omega
  have hi : (⟨(n - 4) % 4, Nat.mod_lt _ (by decide)⟩ : Fin 4) = i := Fin.ext (by simp only [hn]; omega)
  have htarget : (if leAt r.body 0 8 % 4 = 0 ∧ leAt r.body 0 8 < 2 ^ 48 then (c.heard m n r).decode (leAt r.body 0 8) else .unlisted) = .ctl d off := (if_pos ⟨ha, hlt⟩).trans hd
  exact Chip.request_served h hty (by decide) rfl (ReqKind.from_mgmt _ hlo hhi) (by simp [hlen, hz]) (Chip.holds_of_mgmt _ hlo _) (by simp only [htarget, hi])

/-! ### Faults and the time base -/

variable (hn : n < 8)
include hn

/-- FAULT_CLEAR clears the bits of its mask with their sources, and names those that are clear. -/
theorem Chip.faultClearMsg_served (hty : r.ty = 0x23) (hlen : r.body.length = 8) (hh : (c.heard m n r).holds n (some 2) = true) :
    let c1 := eachDo (bitList 64 (leAt r.body 0 8)) (fun b c => c.faultClearBit b) (c.heard m n r)
    c.faultClearMsg m = c1.reply n r.seq 0 (toLE 8 (leAt r.body 0 8 - (leAt r.body 0 8 &&& c1.fsw))) :=
  Chip.request_served h hty (by decide) rfl (ReqKind.from_host rfl rfl hn) (by simp [hlen]) hh rfl

/-- TIME_STEP queues its step and traces it. -/
theorem Chip.timeStepMsg_served (hty : r.ty = 0x24) (hlen : r.body.length = 8) (hh : (c.heard m n r).holds n (some 3) = true) :
    let y := c.heard m n r
    let x := leAt r.body 0 8
    c.timeStepMsg m = (Chip.shav { y with net := { y.net with steps := y.net.steps ++ [sext 64 x] } } 2 1 0x0013 (x % 2 ^ 32) (x / 2 ^ 32) 0).reply n r.seq 0 [] :=
  Chip.request_served h hty (by decide) rfl (ReqKind.from_host rfl rfl hn) (by simp [hlen]) hh rfl

/-! ### Power over coax -/

/-- A coax port that is there to switch, of no SAFETY partition, is switched. -/
theorem Chip.pocSwitchMsg_served (hty : r.ty = 0x25) (hlen : r.body.length = 8) (hz : zeroAt r.body 2 6 = true) (hh : (c.heard m n r).holds n (some 6) = true) :
    let y := c.heard m n r
    let p := leAt r.body 0 1
    p < 24 → leAt r.body 1 1 < 2 → y.sport p 1 0 = 1 → y.isSafety (y.sport p 2 0) = false → y.sport p 14 0 ≠ 0 → bit (y.reg 0 (spBlk p)) 7 = false → bit (y.reg 0 (spBlk p)) 10 = false →
    c.pocSwitchMsg m = (y.pocSwitched p (leAt r.body 1 1)).reply n r.seq 0 [] := by
  intro y p hp hon hsink hqm hcoax hretries hoff
  have hbody : ¬ (24 ≤ p ∨ 2 ≤ leAt r.body 1 1) := by omega
  have hsafe : ¬ (y.sport p 1 0 != 0 && y.isSafety (y.sport p 2 0)) = true := by simp [hqm]
  have hthere : ¬ (y.sport p 1 0 != 1 || y.sport p 14 0 == 0 || bit (y.reg 0 (spBlk p)) 7 || bit (y.reg 0 (spBlk p)) 10) = true := by simp [hsink, hcoax, hretries, hoff]
  exact Chip.request_served h hty (by decide) rfl (ReqKind.from_host rfl rfl hn) (by simp [hlen, hz]) hh ((if_neg hbody).trans ((if_neg hsafe).trans (if_neg hthere)))

end

/-! ### The statement -/

/-- Settles O54: each clause is the request's lemma, on the port that brought it. -/
theorem mailboxActsOnDevice : Obligations.MailboxActsOnDevice := by
  intro s m r n ups h
  have hp : s.chip.hears m.port := h.1
  refine ⟨fun hlo hhi hty hlen hz ha hend hk => ?_, fun i d off hn hty hlen hz ha hlt hd => ?_, fun hn hty hlen hh => ?_, fun hn hty hlen hh => ?_, fun hn hty hlen hz hh => ?_⟩
  · exact next_onPort hp (Chip.regReadMsg_served h ups hlo hhi hty hlen hz ha hend hk)
  · exact next_onPort hp (Chip.regWriteMsg_served h hn hty hlen hz ha hlt hd)
  · exact next_onPort hp (Chip.faultClearMsg_served h hn hty hlen hh)
  · exact next_onPort hp (Chip.timeStepMsg_served h hn hty hlen hh)
  · intro p x hlt hsink hqm hcoax hretries hoff
    have hswitch := fun hon => Chip.pocSwitchMsg_served h hn hty hlen hz hh hlt hon hsink hqm hcoax hretries hoff
    refine ⟨fun hon => ?_, fun hon => ?_⟩
    · exact next_onPort hp ((hswitch (by omega)).trans (by rw [hon]; rfl))
    · exact next_onPort hp ((hswitch (by omega)).trans (by rw [hon]; rfl))

end Sys2Proof.Machine
end

section
/-! Frame Start of a stream whose number is none (R258, R265, R280): the drop of its image in progress is counted in a register outside the sensor ports. -/
namespace Sys2Proof.Machine

/-- A running sink port 0 with an image in progress of the stream of its virtual channel 0. The stream's record bears the number 32304, none of R280's 0 to 47, and the ring is a lidar's of
number 32256, whose LD_STAT would lie at `tsBlk`: a drop is counted in the turn's number. -/
def strayStreamState : State :=
  ⟨[], { cfg := [⟨0x0402, [32304]⟩, ⟨0x0502, [32256]⟩]
         sns := { ports := [(0, { si := true })], rings := [(32304, { img := some { ent := 0, tag := 0, ts := 0, bound := 0 } })] }
         regs := [(regKey 0 (spBlk 0), 0x21#32), (regKey 0 (tsBlk + 0x10), 1#32)] }⟩

/-- The tag of entry 0 of the stray stream's ring. -/
def strayTag (s : State) : Nat := ((s.chip.ring 32304).ent 0).tag

/-- A Frame Start claims the entry with the turn that it fell in, turn 0. -/
theorem strayTag_frameStart {t : State} (h : exec (.frameStartPacket 0 0 0 0 .ok ⟨0, 0⟩) strayStreamState = .next t) : strayTag t = 0 := by
  rw [← Host.Outcome.next.inj h]
  decide

/-- Refutes O33: the clause of a claimed entry takes the image's turn tag after the drop of the one in progress, where the model takes it before. In `strayStreamState`, whose stream number lies
outside R280's range, the drop is counted in the turn's number, so that the statement's tag is 67109120 (the count in bit 8 and the reason in bit 26) and the model's 0. -/
theorem not_imagesCollectedAndWritten : ¬ Obligations.ImagesCollectedAndWritten := by
  rintro ⟨hstart, -, -⟩
  obtain ⟨-, hgood⟩ := hstart strayStreamState 0 0 0 0 .ok ⟨0, 0⟩ 32304 ⟨0, 0, 3, 0, 65536, 1, 0, 0, 3, [64]⟩ 67109120 (by decide) (by decide) (by decide) (by decide) (by decide)
  obtain ⟨-, hsync⟩ := hgood (by decide) (by decide) (by decide)
  obtain ⟨-, hfirst⟩ := hsync (by decide)
  obtain ⟨hclaim, -⟩ := hfirst (by decide)
  exact absurd (strayTag_frameStart (hclaim 0 (by decide))) (by decide)

end Sys2Proof.Machine
end

section
/-! A step that lets a tick pass, and what every command but a power-on reset leaves of the time bus and of FL1 (R299–R301). -/
namespace Sys2Proof.Machine

/-- Settles O2: the step is `idle`. -/
theorem emptyQueueLetsTickPass : Obligations.EmptyQueueLetsTickPass :=
  fun s h => ⟨idle s, by rw [step, h], h, rfl⟩

/-- No command writes FL1: a power-on reset keeps what outlasts power. -/
theorem exec_fl1 {i : Instr} {s t : State} (h : exec i s = .next t) : t.chip.nv.fl1 = s.chip.nv.fl1 := by
  obtain ⟨-, ⟨b, l, f, -, ht⟩ | hf⟩ := exec_cases h
  · rw [ht]
    exact (s.chip.powerOn_keeps b l f).2.2
  · exact hf.fl1

/-- A command but a power-on reset does not turn the tick count back. -/
theorem exec_tick {i : Instr} {s t : State} (h : exec i s = .next t) (hi : ∀ b l f, i ≠ .powerOnReset b l f) : s.chip.tb.tick ≤ t.chip.tb.tick := by
  obtain ⟨-, ⟨b, l, f, hp, -⟩ | hf⟩ := exec_cases h
  · exact absurd hp (hi b l f)
  · exact hf.tick

/-- Settles O6: a tick raises the count by one, and each command is followed by `exec_fl1` and `exec_tick`. -/
theorem ticksNeverRunBack : Obligations.TicksNeverRunBack := by
  intro s t h
  obtain ⟨-, rfl⟩ | ⟨i, rest, hq, hi⟩ := step_cases h
  · exact ⟨rfl, fun _ => Nat.le_succ _⟩
  · refine ⟨exec_fl1 (s := { s with pending := rest }) hi, fun hp => exec_tick (s := { s with pending := rest }) hi fun b l f he => hp b l f ?_⟩
    rw [hq, List.head?_cons, he]

end Sys2Proof.Machine
end

section
/-! The time base under its master (R301–R305): a Sync received, a change of adj, the end of the wait for a Sync, and the 802.1AS messages that leave. -/
namespace Sys2Proof.Machine

variable {c : Chip} {n : Nat}

/-! ### Syncs received -/

/-- The chip that has noted a Sync: the offset stands in its register, and adj has its target within the limit (R303). -/
def Chip.syncNoted (c : Chip) (off want : Int) : Chip :=
  let c1 := c.setReg 0 (timeBlk + 0x14) (satReg off)
  { c1 with net := { c1.net with syncNs := c1.nowNs, want := clampInt (-c.adjLimit) c.adjLimit want } }

section
variable (off want : Int) (hm : c.timeRec 0 0 = 1) (hs : c.eport n 12 0 = 2) (hup : c.linkUp n = true) (ha : (c.ep n).asCapable = true)
include hm hs hup ha

/-- A Sync of a device that has had its lock. -/
theorem Chip.syncReceive_locked (ht : 2 ≤ c.tbState) : c.syncReceive n off want = (c.syncNoted off want).setTb 2 := by
  rw [Chip.syncReceive, if_neg (by simp [hm, hs, hup, ha])]
  split
  · omega
  · omega
  · rfl

/-- The first Sync of all: its offset is removed by a step, at once while no turn has started and else at the boundary. -/
theorem Chip.syncReceive_first (ht : c.tbState < 2) :
    c.syncReceive n off want = if c.turnState = 0 then ((c.syncNoted off want).stepTime (-off)).setTb 2
      else Chip.setTb { c.syncNoted off want with net := { (c.syncNoted off want).net with lockStep := some (-off) } } 1 := by
  rw [Chip.syncReceive, if_neg (by simp [hm, hs, hup, ha])]
  obtain h | h : c.tbState = 0 ∨ c.tbState = 1 := by omega
  · rw [h]; rfl
  · rw [h]; rfl

end

/-! ### Changes of adj -/

/-- A clamped value lies within its bounds. -/
theorem clampInt_mem {lo hi : Int} (h : lo ≤ hi) (x : Int) : lo ≤ clampInt lo hi x ∧ clampInt lo hi x ≤ hi := by
  unfold clampInt
  split
  · omega
  · split <;> omega

/-- The adj that a change reaches. -/
def Chip.adjNext (c : Chip) : Int := clampInt (-c.adjLimit) c.adjLimit (c.tb.adj + clampInt (-c.adjSlope) c.adjSlope (c.net.want - c.tb.adj))

theorem Chip.adjNext_mem (c : Chip) : -c.adjLimit ≤ c.adjNext ∧ c.adjNext ≤ c.adjLimit := by
  have h0 : 0 ≤ c.adjLimit := Int.natCast_nonneg _
  exact clampInt_mem (by omega) _

/-- A change of adj begins a segment, a millisecond after the last one or later. -/
theorem Chip.tb_adjSlew (hm : c.timeRec 0 0 = 1) (ht : c.tbState ≠ 3) :
    c.adjSlew.tb.adj = c.adjNext ∧ c.adjSlew.tb.k0 = c.adjSlew.tb.tick ∧ c.adjSlew.tb.tick = max c.tb.tick (c.net.adjTick + 250000) := by
  have hon : ¬ (c.timeRec 0 0 ≠ 1 || c.tbState == 3) = true := by simp [hm, ht]
  rw [Chip.adjSlew, if_neg hon]
  exact ⟨rfl, rfl, rfl⟩

/-- HOLDOVER keeps adj. -/
theorem Chip.adjSlew_holdover (ht : c.tbState = 3) : c.adjSlew = c := by
  simp [Chip.adjSlew, ht]

/-! ### HOLDOVER -/

theorem Chip.syncTimeout_locked (ht : c.tbState = 2) (hm : c.timeRec 0 0 = 1) : c.syncTimeout = (c.advanceTo (c.net.syncNs + 3 * c.syncInterval)).holdover := by
  simp [Chip.syncTimeout, ht, hm]

theorem Chip.tbState_holdover (c : Chip) : c.holdover.tbState = 3 := by
  have hreg : c.holdover.reg 0 (timeBlk + 0x10) = (c.setTb 3).reg 0 (timeBlk + 0x10) := (c.setTb 3).reg_raise_off 0 0 0x1E false 0 (by decide)
  rw [Chip.tbState, Chip.fld, hreg]
  exact c.fld_setFld_self 0 (timeBlk + 0x10) 1 0 3 (by decide) (by decide)

/-! ### Messages that leave -/

section
variable (hon : c.ptpOn n = true)
include hon

theorem Chip.syncSend_master (hs : c.eport n 12 0 = 1) :
    c.syncSend n = (c.ptpSend n 0 64 []).ptpSend n 8 94 (toBE 8 c.nowNs ++ toBE 2 c.nowFrac ++ toBE 4 0) := by
  simp [Chip.syncSend, hs, hon]

theorem Chip.announce_master (hs : c.eport n 12 0 = 1) :
    c.announce n = if c.tbState = 2 then c.ptpSend n 11 94 c.net.gm
      else c.ptpSend n 11 94 (toLE 1 (c.timeRec 7 248) ++ toLE 1 (c.timeRec 9 248) ++ toBE 3 0 ++ toLE 1 (c.timeRec 8 248) ++ c.clockId) := by
  simp [Chip.announce, hs, hon]

/-- An exchange leaves the mean delay with the port, and that of the slave port in its register. -/
theorem Chip.pdelay_measured (mpd : Nat) :
    ((c.pdelay n mpd).ep n).mpd = mpd ∧ ((c.pdelay n mpd).ep n).asCapable = decide (mpd ≤ c.timeRec 5 800) ∧
      (c.eport n 12 0 = 2 → (c.pdelay n mpd).reg 0 (timeBlk + 0x18) = mpd % 2 ^ 32) := by
  have hep : (c.pdelay n mpd).ep n = { (c.ptpSend n 2 72 []).ep n with mpd := mpd, asCapable := decide (mpd ≤ c.timeRec 5 800) } := by
    rw [Chip.pdelay, if_neg (by simp [hon])]
    split
    · exact Chip.ep_modEp ..
    · exact Chip.ep_modEp ..
  refine ⟨by rw [hep], by rw [hep], fun hs => ?_⟩
  rw [Chip.pdelay, if_neg (by simp [hon]), if_pos hs]
  exact Chip.reg_setReg_self ..

end

/-! ### The statement -/

/-- Settles O46: each clause is the lemma of its operation's case. -/
theorem timeBaseFollowsMaster : Obligations.TimeBaseFollowsMaster := by
  refine ⟨fun s => ⟨fun n off want hp hm hs hup ha => ⟨fun ht => ?_, fun ht h0 => ?_, fun ht h0 => ?_⟩, fun hl hm ht => ?_, fun ht => ?_, fun hl ht hm => ?_⟩,
    fun s n hp hon => ⟨fun hs => ?_, fun hs => ?_, fun mpd => ?_⟩⟩
  · exact next_onPort hp (Chip.syncReceive_locked off want hm hs hup ha ht)
  · exact next_onPort hp ((Chip.syncReceive_first off want hm hs hup ha ht).trans (if_pos h0))
  · exact next_onPort hp ((Chip.syncReceive_first off want hm hs hup ha ht).trans (if_neg h0))
  · obtain ⟨hadj, hk0, htick⟩ := Chip.tb_adjSlew hm ht
    obtain ⟨hlo, hhi⟩ := s.chip.adjNext_mem
    exact ⟨s.put s.chip.adjSlew, next_awake hl rfl, hadj, hadj ▸ hlo, hadj ▸ hhi, hk0, htick⟩
  · have hstay : s.chip.awake (·.adjSlew) = s.chip := by rw [Chip.awake, Chip.adjSlew_holdover ht, ite_self]
    exact next_put hstay
  · exact ⟨next_awake hl (Chip.syncTimeout_locked ht hm), Chip.tbState_holdover _⟩
  · exact next_onPort hp (Chip.syncSend_master hon hs)
  · exact next_onPort hp (Chip.announce_master hon hs)
  · exact ⟨s.put (s.chip.pdelay n mpd), next_onPort hp rfl, Chip.pdelay_measured hon mpd⟩

end Sys2Proof.Machine
end

section
/-! Ethernet ports that send (R290–R293), the packet number of a secure association (R289) and the state of a link (R288), each by its cases. -/
namespace Sys2Proof.Machine

variable {c : Chip} {n : Nat}

/-! ### Frames that start -/

/-- With no frame on the wire, no time passes before the next may start. -/
theorem Chip.wireFree_idle (hw : (c.ep n).wire = none) : c.wireFree n = c := by simp [Chip.wireFree, hw]

/-- With no scheduled frame, the guard band holds nothing back. -/
theorem Chip.guardOk_nil (h1 : (c.ep n).tq1 = []) (f : Frame) : c.guardOk n f = true := by simp [Chip.guardOk, h1]

section
variable {f : Frame} {rest : List Frame} (hup : c.linkUp n = true) (hw : (c.ep n).wire = none) (hs : c.maySend n f = true)
include hup hw hs

section
variable (h1 : (c.ep n).tq1 = [])
include h1

theorem Chip.tqStart_tq0 (h0 : (c.ep n).tq0 = f :: rest) :
    c.tqStart n = (c.modEp n (fun x => { x with tq0 := x.tq0.drop 1 })).startFrame n f := by
  simp [Chip.tqStart, hup, Chip.wireFree_idle hw, h1, h0, Option.filter, hs, Chip.guardOk_nil h1]

theorem Chip.tqStart_tq2 (h0 : (c.ep n).tq0 = []) (h2 : (c.ep n).tq2 = f :: rest) :
    c.tqStart n = (c.modEp n (fun x => { x with tq2 := x.tq2.drop 1 })).startFrame n f := by
  simp [Chip.tqStart, hup, Chip.wireFree_idle hw, h1, h0, h2, Option.filter, hs, Chip.guardOk_nil h1]

theorem Chip.tqStart_tq3 (h0 : (c.ep n).tq0 = []) (h2 : (c.ep n).tq2 = []) (h3 : (c.ep n).tq3 = f :: rest) :
    c.tqStart n = (c.modEp n (fun x => { x with tq3 := x.tq3.drop 1 })).startFrame n f := by
  simp [Chip.tqStart, hup, Chip.wireFree_idle hw, h1, h0, h2, h3, Option.filter, hs, Chip.guardOk_nil h1]

end

/-- The head of TQ1 waits for its launch time less the transmit correction. -/
theorem Chip.tq1Launch_waits (h1 : (c.ep n).tq1 = f :: rest) : c.tq1Launch n = (c.advanceTo (f.due - c.txCorr n)).launchHead n f := by
  have hfree : (c.advanceTo (f.due - c.txCorr n)).wireFree n = c.advanceTo (f.due - c.txCorr n) := Chip.wireFree_idle hw
  simp only [Chip.tq1Launch, h1, List.head?_cons, hup, hs, Bool.not_true, Bool.or_self, Bool.false_eq_true, if_false, hfree]

end

/-- The head of TQ1 with the wire free: on time, become the head too late, or leaving late. -/
theorem Chip.launchHead_idle (f : Frame) (hw : (c.ep n).wire = none) :
    let c1 := c.modEp n (fun x => { x with tq1 := x.tq1.drop 1, headNs := c.nowNs })
    c.launchHead n f = if ¬ f.due + launchTol n < c.nowNs + c.txCorr n then c1.startFrame n f
      else if f.due + c.eport n 19 0 * 1000 < (c.ep n).headNs then ((c1.addReg 0 (epBlk n + 0x20) 1).epLatch n 0 0 0 (f.part - 1)).raise 0 (epBlk n + 4) 2 0x1D
      else (c1.addReg 0 (epBlk n + 0x24) 1).startFrame n f := by
  simp [Chip.launchHead, hw]

/-! ### The packet number and the link's state -/

theorem Chip.rekey_due (hs : c.eport n 8 0 = 1) (hpn : (if c.eport n 9 1 < 2 then 0xC0000000 else 2 ^ 62) ≤ (c.ep n).pn) :
    c.rekey n = (c.modEp n (fun x => { x with pn := 0, rxPn := 0 })).mkaSend n := if_pos ⟨hs, hpn⟩

/-- A reading is stored, and the last of a run of low ones is reported. -/
theorem Chip.sqiRead_stored (v : Nat) (hr : c.role n ≠ 0) (hn : n < 8) :
    let run := if v < c.eport n 15 3 then (c.ep n).sqiRun + 1 else 0
    let c1 := (c.setFld 0 (epBlk n) 6 4 v).modEp n (fun x => { x with sqiRun := run })
    c.sqiRead n v = if run ≠ 0 ∧ c.eport n 16 50 ≤ run then (c1.epLatch n 0 0 0 0).raise 0 (epBlk n + 4) 0 0x1D else c1 :=
  if_neg (by omega)

theorem Chip.linkDrop_up (hup : c.linkUp n = true) :
    let c1 := (c.lidarsOf n).foldl (fun c s => match (c.ring s).img with | some i => c.lidarDrop s i.frameNo 4 | none => c) c
    c.linkDrop n = (((c1.setFld 0 (epBlk n) 3 3 0).setFld 0 (epBlk n) 7 7 0).epLatch n 0 0 0 0).raise 0 (epBlk n + 4) 1 0x1D :=
  if_neg (by simp [hup])

/-- MKA leaves the registers. -/
theorem Chip.reg_mkaSend (c : Chip) (n d o : Nat) : (c.mkaSend n).reg d o = c.reg d o := by
  rw [Chip.mkaSend]
  split <;> rfl

/-- Setting a port's link up leaves its fault bit. -/
theorem Chip.linkUp_portUp (h8 : bit (c.reg 0 (epBlk n)) 8 = false) : (c.portUp n).linkUp n = true := by
  have hreg : (c.portUp n).reg 0 (epBlk n) = putBits (putBits (c.reg 0 (epBlk n)) 3 3 1) 7 7 0 := by
    rw [Chip.portUp, Chip.reg_mkaSend, Chip.reg_setFld _ _ _ _ _ _ (by decide) (by decide), Chip.reg_setFld _ _ _ _ _ _ (by decide) (by decide)]
  have h3 : bit ((c.portUp n).reg 0 (epBlk n)) 3 = true := by simp [hreg, bit, testBit_putBits]
  have hoff : bit ((c.portUp n).reg 0 (epBlk n)) 8 = false := by simpa [hreg, bit, testBit_putBits] using h8
  rw [Chip.linkUp, h3, hoff]; rfl

theorem Chip.linkIsUp_trained (hr : c.role n ≠ 0) (h8 : bit (c.reg 0 (epBlk n)) 8 = false) : c.linkIsUp n = c.portUp n := by
  simp [Chip.linkIsUp, hr, h8]

/-! ### The statement -/

/-- Settles O37: each clause is the lemma of its operation's case. -/
theorem ethernetSendsAndFollowsLink : Obligations.EthernetSendsAndFollowsLink := by
  refine ⟨fun s n f rest hp hup hw => ⟨fun h1 hs => ⟨fun h0 => ?_, fun h0 h2 => ?_, fun h0 h2 h3 => ?_⟩, fun h1 hs => ?_⟩,
    fun s n hp => ⟨fun hs hpn => ?_, fun v hr hn => ?_, fun hup => ?_, fun hr h8 => ⟨?_, Chip.linkUp_portUp h8⟩⟩⟩
  · exact next_onPort hp (Chip.tqStart_tq0 hup hw hs h1 h0)
  · exact next_onPort hp (Chip.tqStart_tq2 hup hw hs h1 h0 h2)
  · exact next_onPort hp (Chip.tqStart_tq3 hup hw hs h1 h0 h2 h3)
  · intro c1 _ c2 late past
    have hw1 : (c1.ep n).wire = none := hw
    exact next_onPort hp ((Chip.tq1Launch_waits hup hw hs h1).trans (Chip.launchHead_idle f hw1))
  · exact next_onPort hp (Chip.rekey_due hs hpn)
  · exact next_onPort hp (Chip.sqiRead_stored v hr hn)
  · exact next_onPort hp (Chip.linkDrop_up hup)
  · exact next_onPort hp (Chip.linkIsUp_trained hr h8)

end Sys2Proof.Machine
end

section
/-! Ethernet frames received (R285, R286, R289, R294, R298) and the end of a lidar's window (R295, R296), each by its cases. -/
namespace Sys2Proof.Machine

variable {c : Chip} {n : Nat} {f : EthFrame} (cap : Capture)

/-! ### Frames discarded -/

section
variable (hr : c.role n ≠ 0) (hup : c.linkUp n = true)
include hr hup

theorem Chip.ethReceive_badFcs (hf : f.fcsOk = false) : c.ethReceive n f cap = c.addReg 0 (epBlk n + 0x18) 1 := by
  simp [Chip.ethReceive, hr, hup, hf]

/-- A frame too long, or with a tag that is not the port's, is a loss of the lidar that it came from. -/
theorem Chip.ethReceive_foreign (hf : f.fcsOk = true) (h : maxFrame n < f.bytes.length + 4 ∨ ∃ v, (etherParse f.bytes).1 = some v ∧ v ≠ c.eport n 5 0) :
    c.ethReceive n f cap = (c.addReg 0 (epBlk n + 0x18) 1).lidarLoss n
      (if (etherParse f.bytes).2.1 = 0x0800 then ipParse (etherParse f.bytes).2.2 else none) (c.capture cap - (c.rxCorr n).1) := by
  obtain h | ⟨v, hv, hne⟩ := h
  · simp [Chip.ethReceive, hr, hup, hf, h]
  · simp [Chip.ethReceive, hr, hup, hf, hv, hne]

section
variable (hf : f.fcsOk = true) (hlen : f.bytes.length + 4 ≤ maxFrame n) (htag : ∀ v, (etherParse f.bytes).1 = some v → v = c.eport n 5 0)
include hf hlen htag

/-- A frame of a good length that bears no foreign tag: what MACsec asks of it, and what it does then. -/
theorem Chip.ethReceive_wellFormed :
    let secure := c.eport n 8 0 == 1 && !decide ((etherParse f.bytes).2.1 = 0x888E ∨ (etherParse f.bytes).2.1 = 0x88F7)
    c.ethReceive n f cap = if secure && !bit (c.reg 0 (epBlk n)) 7 then c.addReg 0 (epBlk n + 0x18) 1
      else if secure && (!f.macsecOk || c.replayed n f.pn) then c.addReg 0 (epBlk n + 0x28) 1
      else (if secure then c.modEp n (fun x => { x with rxPn := max x.rxPn (f.pn + 1) }) else c).ethTake n f cap := by
  have hlen' : ¬ maxFrame n < f.bytes.length + 4 := Nat.not_lt.mpr hlen
  cases hv : (etherParse f.bytes).1 with
  | none => simp [Chip.ethReceive, hr, hup, hf, hlen', hv]
  | some v => simp [Chip.ethReceive, hr, hup, hf, hlen', hv, htag v hv]

section
variable (hsec : c.eport n 8 0 = 1) (hmka : (etherParse f.bytes).2.1 ≠ 0x888E) (hptp : (etherParse f.bytes).2.1 ≠ 0x88F7)
include hsec hmka hptp

theorem Chip.ethReceive_unassociated (h7 : bit (c.reg 0 (epBlk n)) 7 = false) : c.ethReceive n f cap = c.addReg 0 (epBlk n + 0x18) 1 := by
  rw [Chip.ethReceive_wellFormed cap hr hup hf hlen htag, if_pos (by simp [hsec, hmka, hptp, h7])]

/-- A frame that fails MACsec or falls before the replay window. -/
theorem Chip.ethReceive_secFail (h7 : bit (c.reg 0 (epBlk n)) 7 = true) (h : f.macsecOk = false ∨ f.pn + c.eport n 11 0 < (c.ep n).rxPn) :
    c.ethReceive n f cap = c.addReg 0 (epBlk n + 0x28) 1 := by
  rw [Chip.ethReceive_wellFormed cap hr hup hf hlen htag, if_neg (by simp [h7]), if_pos (by simp [hsec, hmka, hptp, Chip.replayed, h])]

end

/-- An IPv4 frame that MACsec, where it runs, accepts. -/
theorem Chip.ethReceive_ip (hsec : c.eport n 8 0 = 1 → bit (c.reg 0 (epBlk n)) 7 = true ∧ f.macsecOk = true ∧ (c.ep n).rxPn ≤ f.pn + c.eport n 11 0)
    (hip : (etherParse f.bytes).2.1 = 0x0800) :
    c.ethReceive n f cap = (if c.eport n 8 0 = 1 then c.modEp n (fun x => { x with rxPn := max x.rxPn (f.pn + 1) }) else c).ethTake n f cap := by
  rw [Chip.ethReceive_wellFormed cap hr hup hf hlen htag]
  by_cases h : c.eport n 8 0 = 1
  · obtain ⟨h7, hok, hpn⟩ := hsec h
    simp [h, hip, h7, hok, Chip.replayed, Nat.not_lt.mpr hpn]
  · simp [h]

end

end

/-! ### Datagrams taken -/

section
variable {u : Udp} (hip : (etherParse f.bytes).2.1 = 0x0800) (hu : ipParse (etherParse f.bytes).2.2 = some u) (ht : c.roleTakes n u = true) (hs : u.sumOk = true)
include hip hu ht hs

theorem Chip.ethTake_datagram (hr : c.role n ≠ 3) : c.ethTake n f cap = ((c.hsPut 5 0 (24 + n) 0 f.bytes).addReg 0 (epBlk n + 0x14) 1).forward n f.bytes := by
  simp [Chip.ethTake, hip, hu, ht, hs, hr]

theorem Chip.ethTake_lidar {l : Nat} (hr : c.role n = 3) (hl : c.lidarOf n u = some l) :
    c.ethTake n f cap = ((c.hsPut 5 0 (24 + n) 0 f.bytes).lidarPacket n l (c.capture cap - (c.rxCorr n).1) (2 + (c.rxCorr n).2 + capWiden cap) (cap.ext != 0) u.body).forward n f.bytes := by
  simp [Chip.ethTake, hip, hu, ht, hs, hr, hl]

end

/-! ### The end of a lidar's window -/

/-- The SI writes what it has not yet taken of the frame, if anything. -/
theorem Chip.takeLidar_eq (c : Chip) (g : RingCfg) (s : Nat) (i : Img) :
    let old := (lidarBody { i with lines := i.lines.take i.took }).length
    let o := if i.opened then (i.num, c) else c.openContrib 0 g.die (c.ringPart s) 255
    let left := (lidarBody i).drop old
    c.takeLidar g s i = (if left = [] then o.2 else o.2.ingestBytes g s i.ent (64 + old) o.1 (c.ringPart s) left true, { i with took := i.lines.length, opened := true, num := o.1 }) := by
  simp only [Chip.takeLidar, List.isEmpty_iff]

theorem Chip.lidarEnd_frame {l : Nat} {i : Img} {g : RingCfg} {v : List Nat} (hi : (c.ring (48 + l)).img = some i) (hg : c.ringCfg (48 + l) = some g) (hv : c.lidar l = some v) :
    let c0 := c.advanceTo (c.startOf i.frameNo + v.getD 4 0 * 1000 + c.periodNs * g.div)
    let x := c0.takeLidar g (48 + l) i
    let r := c.ring (48 + l)
    let h := entryHdr 2 0 l (i.tag % 2 ^ 32) i.ts i.bound (b2n i.stretch + 8 * b2n (r.lossy.contains i.frameNo)) (min 0xFFFF i.emb.length) (sumOver i.emb (·.length)) (r.ready + 1) g.offs
    let c2 := x.1.ingestBytes g (48 + l) i.ent 0 x.2.num (c0.ringPart (48 + l)) h false
    c.lidarEnd l = (c2.setRing (48 + l) { (c2.ring (48 + l)).setEnt i.ent ⟨.verifying, i.tag⟩ with
      img := none, lossy := r.lossy.filter (fun w => decide (i.frameNo < w)) }).sendTrailer 0 g.die (c0.ringPart (48 + l)) x.2.num := by
  simp only [Chip.lidarEnd, hi, hg, hv]
  rfl

/-! ### The statement -/

/-- Settles O36: each clause is the lemma of its operation's case. -/
theorem ethernetFramesDelivered : Obligations.EthernetFramesDelivered := by
  refine ⟨fun s n f cap hp hr hup => ⟨fun hf => ?_, fun hf h => ?_, fun hf hlen hb hsec hmka hptp => ?_⟩,
    fun s => ⟨fun n f cap u hp hr hup hf hlen htag hsec hip hu ht hs => ⟨fun h3 => ?_, fun l h3 hl => ?_⟩, fun l i g v hw hi hg hv => ?_⟩⟩
  · exact next_onPort hp (Chip.ethReceive_badFcs cap hr hup hf)
  · exact next_onPort hp (Chip.ethReceive_foreign cap hr hup hf h)
  · have htag : ∀ v, (etherParse f.bytes).1 = some v → v = s.chip.eport n 5 0 := fun v hv => by_contra fun hne => hb ⟨v, hv, hne⟩
    exact ⟨fun h7 => next_onPort hp (Chip.ethReceive_unassociated cap hr hup hf hlen htag hsec hmka hptp h7),
      fun h7 h => next_onPort hp (Chip.ethReceive_secFail cap hr hup hf hlen htag hsec hmka hptp h7 h)⟩
  · exact next_onPort hp ((Chip.ethReceive_ip cap hr hup hf hlen htag hsec hip).trans (Chip.ethTake_datagram cap hip hu ht hs h3))
  · exact next_onPort hp ((Chip.ethReceive_ip cap hr hup hf hlen htag hsec hip).trans (Chip.ethTake_lidar cap hip hu ht hs h3 hl))
  · refine next_work hw ((Chip.lidarEnd_frame hi hg hv).trans ?_)
    rw [Chip.takeLidar_eq]

end Sys2Proof.Machine
end

section
/-! Resets of the whole device (R383, R430, R507), the start of turns (R304, R419), the ends of state moves (R503, R505, R506) and of updates (R354, R439), each by its cases. -/
namespace Sys2Proof.Machine

variable {c : Chip}

/-! ### Trace points -/

/-- What leaves the register table leaves each register. -/
theorem Chip.reg_of_regs {c e : Chip} (h : e.regs = c.regs) (d o : Nat) : e.reg d o = c.reg d o := congrArg (fun t : Tab Word => (tabGet 0#32 t (regKey d o)).toNat) h

/-- A trace point leaves every register of the headstock die but the ring's own. -/
theorem Chip.reg_shav (c : Chip) (source level tp a0 a1 a2 : Nat) {o : Nat} (h : o < startBlk + 0x1C ∨ startBlk + 0x24 < o) :
    (c.shav source level tp a0 a1 a2).reg 0 o = c.reg 0 o := by
  have hset : ∀ (k : Chip) (v : Nat), (k.setReg 0 (startBlk + 0x1C) v).reg 0 o = k.reg 0 o := fun k v => k.reg_setReg_off 0 v (by omega)
  have hmirror : ∀ (k : Chip) (e : Nat), (k.mirror e).reg 0 o = k.reg 0 o := fun k e => k.reg_setReg_off 0 _ (by omega)
  rw [Chip.shav]
  split
  · exact c.reg_setReg_off 0 _ (by omega)
  · refine Eq.trans ?_ (hset c (c.reg 0 (startBlk + 0x1C) + 1))
    dsimp only
    split
    · exact (hmirror _ _).trans (Chip.reg_of_regs (by rfl) 0 o)
    · exact Chip.reg_of_regs (by rfl) 0 o

/-- A trace point below level 2 is not mirrored. -/
theorem Chip.nv_shav (c : Chip) (source tp a0 a1 a2 : Nat) {level : Nat} (h : level < 2) : (c.shav source level tp a0 a1 a2).nv = c.nv := by
  rw [Chip.shav]
  split
  · rfl
  · rw [if_neg (Nat.not_le.mpr h)]; rfl

/-! ### Resets -/

/-- Power applied, or the pin low for 10 µs outside the safe state. -/
theorem Chip.powerOn_runs {byPin : Bool} {low : Nat} (f : Findings) (h : byPin = false ∨ (c.classA = false ∧ 10000 ≤ low)) :
    c.powerOn byPin low f = c.dropStaged.coldParts.startSeq f true 1 := by
  refine if_neg ?_
  obtain h | ⟨ha, hlow⟩ := h
  · simp [h]
  · simp [ha, hlow]

/-- RESET_N low for 1 µs outside the safe state, with no image from ROM recovery. -/
theorem Chip.warmStart_pin {low : Nat} (f : Findings) (hw : (bit (c.reg 0 startBlk) 5 && c.fld 0 (startBlk + 0x18) 1 0 == 3) = false) (ha : c.classA = false) (hlow : 1000 ≤ low) :
    c.warmStart low f = c.dropStaged.warmParts.startSeq f false 2 := by
  simp [Chip.warmStart, hw, ha, Nat.not_lt.mpr hlow]

/-! ### The start of turns -/

/-- The chip with the time base as turns will start under it: locked, or run on to the end of the wait and reported (R304). -/
def Chip.turnsTimed (c : Chip) : Chip :=
  let c1 := if c.tbState = 2 then c else c.advanceTo (c.boot.ns + c.timeRec 6 0 * 1000000)
  if c1.tbState ≠ 2 then c1.raise 0 (timeBlk + 0x1C) 1 0x1E else c1

/-- The chip with the collector armed and the first turn's grid instant chosen (R320, R384). -/
def Chip.turnsArmed (c : Chip) : Chip :=
  let c2 := c.turnsTimed
  let c3 := ({ c2 with flt := { c2.flt with armed := true } }).setReg 0 (startBlk + 4) (min 0xFFFF ((c2.nowNs - c2.boot.ns) / 1000000))
  { c3 with wrk := { c3.wrk with firstNs := c3.gridAt (c3.nowNs + 1000000) } }

/-- After step 11 step 12 runs, and is reported. -/
theorem Chip.startTurns_ready (hs : c.stopped = false) (h11 : c.fld 0 startBlk 3 0 = 11) (hh : c.awaitsHello = false) :
    c.startTurns = ((c.turnsArmed.chooseFull 0).raiseSvn.stepDone 12).sendStartReport 0 := if_neg (by simp [hs, h11, hh])

/-- What runs before the collector is armed leaves the start's results. -/
theorem Chip.boot_turnsArmed (c : Chip) : c.turnsArmed.boot = c.boot := by
  have hm := Kept.but_free [.tb, .regs, .flt] c
  have h1 : (Kept.but [.tb, .regs, .flt] c).Follows (if c.tbState = 2 then c else c.advanceTo (c.boot.ns + c.timeRec 6 0 * 1000000)) :=
    follows_ite (Kept.but_follows _ c) (Chip.advanceTo_follows _ (Kept.but_follows _ c) (hm.sub (by decide)))
  have h2 : (Kept.but [.tb, .regs, .flt] c).Follows c.turnsTimed := follows_ite (Chip.raise_follows _ _ _ _ _ _ h1 (hm.sub (by decide))) h1
  exact h2.boot_eq (by decide)

/-- What runs after the collector is armed leaves it armed. -/
theorem Chip.armed_afterArming (c : Chip) : (((c.turnsArmed.chooseFull 0).raiseSvn.stepDone 12).sendStartReport 0).flt.armed = true := by
  have hm := Kept.but_free [.regs, .wrk, .obs, .nv, .otp, .net, .ses] c.turnsArmed
  have hfull := Chip.chooseFull_follows 0 (Kept.but_follows _ c.turnsArmed) (hm.sub (by decide))
  have hstep := Chip.stepDone_follows 12 (Chip.raiseSvn_follows hfull (hm.sub (by decide))) (hm.sub (by decide))
  have hflt : (((c.turnsArmed.chooseFull 0).raiseSvn.stepDone 12).sendStartReport 0).flt = c.turnsArmed.flt :=
    (Chip.sendStartReport_follows 0 hstep (hm.sub (by decide))).same .flt rfl
  rw [hflt]; rfl

/-- A completed step stands in START_STATE, and the report leaves it there. -/
theorem Chip.fld_stepReported (c : Chip) {m : Nat} (hm : m < 16) : ((c.stepDone m).sendStartReport 0).fld 0 startBlk 3 0 = m := by
  have hregs : ((c.stepDone m).sendStartReport 0).regs = (c.stepDone m).regs :=
    (Chip.sendStartReport_follows 0 (Kept.but_follows [.net, .ses] _) (Kept.but_free _ _)).same .regs rfl
  have hreg : ((c.stepDone m).sendStartReport 0).reg 0 startBlk = (c.setFld 0 startBlk 3 0 m).reg 0 startBlk :=
    (Chip.reg_of_regs hregs 0 startBlk).trans (Chip.reg_shav _ _ _ _ _ _ _ (by decide))
  have hfld : (c.setFld 0 startBlk 3 0 m).fld 0 startBlk 3 0 = m % 2 ^ (3 + 1 - 0) := c.fld_setFld_self 0 startBlk 3 0 m (by decide) (by decide)
  rw [Chip.fld, hreg]
  exact hfld.trans (Nat.mod_eq_of_lt hm)

/-- Raised thermometers are not lowered by the report of the step. -/
theorem Chip.svn_stepReported (c : Chip) (m : Nat) :
    c.boot.fwSvn ≤ ((c.raiseSvn.stepDone m).sendStartReport 0).nv.otp.svnFw ∧ c.boot.cfgSvn ≤ ((c.raiseSvn.stepDone m).sendStartReport 0).nv.otp.svnCfg := by
  have hm := Kept.but_free [.regs, .obs, .nv, .net, .ses] c.raiseSvn
  have hstep := Chip.stepDone_follows m (Kept.but_follows _ c.raiseSvn) (hm.sub (by decide))
  obtain ⟨-, -, -, hfw, hcfg, -⟩ := (Chip.sendStartReport_follows 0 hstep (hm.sub (by decide))).otp
  exact ⟨(Nat.le_max_right _ _).trans hfw, (Nat.le_max_right _ _).trans hcfg⟩

/-- Turns that start: the collector is armed, step 12 is done, and the versions that run are the least that OTP admits. -/
theorem Chip.startTurns_started (hs : c.stopped = false) (h11 : c.fld 0 startBlk 3 0 = 11) (hh : c.awaitsHello = false) :
    c.startTurns.flt.armed = true ∧ c.startTurns.fld 0 startBlk 3 0 = 12 ∧ c.boot.fwSvn ≤ c.startTurns.nv.otp.svnFw ∧ c.boot.cfgSvn ≤ c.startTurns.nv.otp.svnCfg := by
  have hboot : (c.turnsArmed.chooseFull 0).boot = c.boot := c.boot_turnsArmed
  rw [Chip.startTurns_ready hs h11 hh, ← hboot]
  exact ⟨c.armed_afterArming, Chip.fld_stepReported _ (by decide), Chip.svn_stepReported _ 12⟩

/-! ### The ends of state moves -/

section
variable (f : Findings)

theorem Chip.endMove_park (h : c.pwr.move = 2) : c.endMove f = c.enterPark := by rw [Chip.endMove, h]; rfl

theorem Chip.endMove_resume (h : c.pwr.move = 3) : c.endMove f = c.endResume f := by rw [Chip.endMove, h]; rfl

theorem Chip.endMove_idle (h : c.pwr.move = 4) : c.endMove f = c.restart := by rw [Chip.endMove, h]; rfl

end

/-- Turns that restart do so in ACTIVE. -/
theorem Chip.pwrState_restart (c : Chip) : c.restart.pwrState = 0 := by
  have hreg : c.restart.reg 0 pwrBlk = 0 := (Chip.reg_of_regs (by rfl) 0 pwrBlk).trans (c.reg_setReg_self 0 pwrBlk 0)
  rw [Chip.pwrState, Chip.fld, hreg]; rfl

/-! ### The ends of updates -/

section
variable {x : Xfer} (hx : c.boot.staged = some x)
include hx

theorem Chip.updWritten_failed : c.updWritten false = c.updFailed x := by
  simp only [Chip.updWritten, hx, Bool.not_false, if_true]

/-- An image but a package needs no more than its place in FL0. -/
theorem Chip.updWritten_image (hk : x.kind ≠ 3) : c.updWritten true = (((c.updStored x).updState 3).setFld 0 (startBlk + 0x18) 3 3 0).updTrace x.kind 2 0 := by
  simp [Chip.updWritten, hx, hk]

theorem Chip.staged_dropStaged : c.dropStaged.boot.staged = none := by
  rw [Chip.dropStaged, hx]

/-- An image written: the update has ended well, nothing is staged, and FL0 holds the image. -/
theorem Chip.updWritten_holds (hk : x.kind ≠ 3) :
    (c.updWritten true).fld 0 (startBlk + 0x18) 1 0 = 3 ∧ (c.updWritten true).boot.staged = none ∧
      (c.updWritten true).nv.fl0 = flashWrite c.dropStaged.nv.fl0 (updRegion x.kind c.pushSlot).1 x.data := by
  rw [Chip.updWritten_image hx hk]
  refine ⟨?_, ?_, ?_⟩
  · have hreg : ∀ k : Chip, (k.updTrace x.kind 2 0).reg 0 (startBlk + 0x18) = k.reg 0 (startBlk + 0x18) := fun k => k.reg_shav _ _ _ _ _ _ (by decide)
    have hstate : ((c.updStored x).updState 3).fld 0 (startBlk + 0x18) 1 0 = 3 := Chip.fld_setFld_self _ 0 (startBlk + 0x18) 1 0 3 (by decide) (by decide)
    rw [Chip.fld, hreg]
    exact (Chip.fld_setFld_ne _ 0 (startBlk + 0x18) 3 3 0 1 0 (by decide) (by decide) (by decide)).trans hstate
  · have hboot : ∀ k : Chip, (k.updTrace x.kind 2 0).boot = k.boot := fun k =>
      (Chip.updTrace_follows _ _ _ (Kept.but_follows [.regs, .obs, .nv] k) (Kept.but_free _ k)).boot_eq (by decide)
    rw [hboot]
    exact Chip.staged_dropStaged hx
  · have hnv : ∀ k : Chip, (k.updTrace x.kind 2 0).nv = k.nv := fun k => k.nv_shav _ _ _ _ _ (by decide)
    rw [hnv]; rfl

end

/-! ### The statement -/

/-- Settles O52: each clause is the lemma of its operation's case. -/
theorem resetsStartTheDevice : Obligations.ResetsStartTheDevice := by
  refine fun s => ⟨fun byPin low f h => next_put (Chip.powerOn_runs f h), fun low f hw ha hlow => next_put (Chip.warmStart_pin f hw ha hlow), fun hl hs h11 hh => ?_,
    fun f hl => ⟨fun h => ?_, fun h => ?_, fun h => ⟨?_, s.chip.pwrState_restart⟩⟩, fun x hl hx => ⟨?_, fun hk => ?_⟩⟩
  · exact ⟨s.put s.chip.startTurns, next_awake hl rfl, Chip.startTurns_started hs h11 hh⟩
  · exact next_awake hl (Chip.endMove_park f h)
  · exact next_awake hl (Chip.endMove_resume f h)
  · exact next_awake hl (Chip.endMove_idle f h)
  · exact next_awake hl (Chip.updWritten_failed hx)
  · exact ⟨s.put (s.chip.updWritten true), next_awake hl rfl, Chip.updWritten_holds hx hk⟩

end Sys2Proof.Machine
end

section
/-! Turns begun and ended (R320, R321, R324): the registers of a turn that begins, and what TURN_BOUNDARY does in each state of the turns. -/
namespace Sys2Proof.Machine

/-! ### The turn that begins -/

/-- A write leaves the die's register pairs of other offsets. -/
theorem Chip.reg64_setReg_off (c : Chip) (d v : Nat) {o off : Nat} (hlo : o ≠ off) (hhi : o + 4 ≠ off) : (c.setReg d off v).reg64 d o = c.reg64 d o := by
  rw [Chip.reg64, Chip.reg64, c.reg_setReg_off d v hlo, c.reg_setReg_off d v hhi]

/-- A write of a register pair leaves the die's pairs apart from it. -/
theorem Chip.reg64_setReg64_off (c : Chip) (d v : Nat) {o off : Nat} (h : o + 8 ≤ off ∨ off + 8 ≤ o) : (c.setReg64 d off v).reg64 d o = c.reg64 d o := by
  rw [Chip.setReg64, Chip.reg64_setReg_off _ d _ (by omega) (by omega), Chip.reg64_setReg_off _ d _ (by omega) (by omega)]

section
variable (c : Chip) (t : Nat) (stepped : Bool)

theorem Chip.turn_beginTurn : (c.beginTurn t stepped).turn = t % 2 ^ 64 := by
  rw [Chip.turn, Chip.beginTurn, Chip.reg64_setReg_off _ 0 _ (by decide) (by decide), Chip.reg64_setReg64_off _ 0 _ (by decide), Chip.reg64_setReg64]

/-- A turn that begins leaves the time base as it is. -/
theorem Chip.nowNs_beginTurn : (c.beginTurn t stepped).nowNs = c.nowNs := by
  have htb : (c.beginTurn t stepped).tb = c.tb := by rfl
  rw [Chip.nowNs, Chip.nowF, htb, Chip.nowNs, Chip.nowF]

theorem Chip.turnStart_beginTurn : (c.beginTurn t stepped).turnStart = (c.beginTurn t stepped).nowNs % 2 ^ 64 := by
  rw [c.nowNs_beginTurn, Chip.turnStart, Chip.beginTurn, Chip.reg64_setReg_off _ 0 _ (by decide) (by decide), Chip.reg64_setReg64]

/-- TURN_STATE of a turn that begins: running, with bit 2 where a time step lengthened or shortened the turn before. -/
theorem Chip.stateReg_beginTurn : (c.beginTurn t stepped).reg 0 (tsBlk + 0x10) = 1 + 4 * b2n stepped := by
  rw [Chip.beginTurn, Chip.reg_setReg_self]
  cases stepped <;> rfl

theorem Chip.turnState_beginTurn : (c.beginTurn t stepped).turnState = 1 := by
  rw [Chip.turnState, Chip.fld, Chip.stateReg_beginTurn]
  cases stepped <;> rfl

theorem Chip.stepBit_beginTurn : bit ((c.beginTurn t stepped).reg 0 (tsBlk + 0x10)) 2 = stepped := by
  rw [Chip.stateReg_beginTurn]
  cases stepped <;> rfl

end

/-! ### The boundary by the state of the turns -/

section
variable {c : Chip} (env : BoundaryEnv)

/-- In the safe state no turn begins. -/
theorem Chip.turnBoundary_stopped (h : c.turnState = 2) : c.turnBoundary env = c := if_pos h

/-- Once the pins have left fault level, turn 0 begins; START_TURNS then reports its last step. -/
theorem Chip.turnBoundary_first (h : c.turnState = 0) (ha : c.flt.armed = true) :
    ∃ (e : Chip) (ms : Nat), c.turnBoundary env = ((e.beginTurn 0 false).setFld 0 startBlk 3 0 13).shav 2 1 0x0001 13 ms 0 :=
  ⟨_, _, (if_neg (by simp [h])).trans ((if_pos h).trans (if_neg (by simp [ha])))⟩

/-- The report of turn 0's start leaves the turn's registers. -/
theorem Chip.reg_started (c : Chip) (ms : Nat) {o : Nat} (h : o < startBlk) : ((c.setFld 0 startBlk 3 0 13).shav 2 1 0x0001 13 ms 0).reg 0 o = c.reg 0 o :=
  (Chip.reg_shav _ _ _ _ _ _ _ (.inl (Nat.lt_add_right _ h))).trans (c.reg_setReg_off 0 _ (Nat.ne_of_lt h))

/-- Turn 0 runs once it has begun. -/
theorem Chip.turnBoundary_firstRuns (h : c.turnState = 0) (ha : c.flt.armed = true) : (c.turnBoundary env).turn = 0 ∧ (c.turnBoundary env).turnState = 1 := by
  obtain ⟨e, ms, he⟩ := Chip.turnBoundary_first env h ha
  rw [he, Chip.turn, Chip.reg64, Chip.turnState, Chip.fld, Chip.reg_started _ ms (by decide), Chip.reg_started _ ms (by decide), Chip.reg_started _ ms (by decide)]
  exact ⟨e.turn_beginTurn 0 false, e.turnState_beginTurn 0 false⟩

/-- A boundary of running turns that no spindle lock is armed for. -/
theorem Chip.turnBoundary_next (h : c.turnState = 1) (hl : c.locked = false) (hs : c.fld 0 (obsBlk + 0x1C) 1 0 ≠ 1) :
    let b := (c.advanceTo c.turnEnd).boundaryStep
    let c2 := (b.2.closeTurn.boundaryCounters env).boundaryPower
    c.turnBoundary env = c2.boundaryWork (c.turn + 1) (c2.pwrState == 0 && (!c2.pwr.idleTurns || decide (c2.wrk.firstNs ≤ c2.nowNs))) b.1 := by
  have hspl : ¬ ((c.advanceTo c.turnEnd).fld 0 (obsBlk + 0x1C) 1 0 = 1 ∧ (c.advanceTo c.turnEnd).reg64 0 (obsBlk + 0x20) = c.turn + 1) := fun hk => hs hk.1
  have hlock : ¬ (c.advanceTo c.turnEnd).locked = true := by simpa [Chip.locked] using hl
  rw [Chip.turnBoundary, if_neg (by simp [h]), if_neg (by simp [h])]
  dsimp only
  rw [if_neg hspl, if_neg hlock]

/-- The work of a boundary ends with the turn's begin. -/
theorem Chip.boundaryWork_begins (c : Chip) (t : Nat) (run stepped : Bool) : ∃ e : Chip, c.boundaryWork t run stepped = e.beginTurn t stepped := ⟨_, rfl⟩

/-- With no time step accepted, none is taken (R304, R306). -/
theorem Chip.boundaryStep_none (hs : c.net.steps = []) (hl : c.net.lockStep = none) : c.boundaryStep.1 = false := by
  simp [Chip.boundaryStep, hs, hl]

end

/-! ### The statement -/

/-- Settles O38: a boundary by the state of the turns, each of which but the stopped one ends with `Chip.beginTurn`. -/
theorem boundaryBeginsNextTurn : Obligations.BoundaryBeginsNextTurn := by
  refine ⟨fun s env hl h1 hs => ?_, fun s env hl => ⟨fun h0 ha => ?_, fun h2 => ?_⟩⟩
  · have hnext := Chip.turnBoundary_next env h1 hl hs
    obtain ⟨e, he⟩ := Chip.boundaryWork_begins _ (s.chip.turn + 1) _ (s.chip.advanceTo s.chip.turnEnd).boundaryStep.1
    have hbegun := hnext.trans he
    exact ⟨next_awake hl hnext, s.put _, next_awake hl hbegun, e.turn_beginTurn _ _, e.turnState_beginTurn _ _, e.turnStart_beginTurn _ _,
      fun hst hlk => (e.stepBit_beginTurn _ _).trans (Chip.boundaryStep_none hst hlk)⟩
  · exact ⟨s.put _, next_awake hl rfl, Chip.turnBoundary_firstRuns env h0 ha⟩
  · exact next_awake hl (Chip.turnBoundary_stopped env h2)

end Sys2Proof.Machine
end

section
/-! Tasks of a job (R323, R327, R328, R464, R509): their release, the expiry of their budgets and deadlines, the Carver's reset of a station, and the first cause that a job's end keeps. -/
namespace Sys2Proof.Machine

variable {c : Chip}

/-! ### Release, budgets and deadlines -/

theorem Chip.taskRelease_launched {j : Nat} (hr : c.running = true) (hl : c.launched j = true) (hd : c.jobDead j = false) (ht : ∀ t ∈ c.jobTasks j, (c.task t.1 t.2).released = false) :
    let c1 := c.advanceTo (c.turnStart + c.cfgBy 0x0702 j 5 50 * 1000)
    let c2 := eachDo (c1.wrk.hsdWins.filter (fun x => dJob x == j)) (fun x c => c.openHsd j x) c1
    let c3 := eachDo (c.jobTasks j) (fun t c => c.setTask t.1 t.2 { c.task t.1 t.2 with released := true }) c2
    c.taskRelease j = (eachDo (c.jobTasks j) (fun t c => if (c.keysOfTask t.1 t.2).any (c.jobLeft j) then c else c.endTask t.1 t.2) c3).settle := by
  have hnone : (c.jobTasks j).any (fun t => (c.task t.1 t.2).released) = false := List.any_eq_false.mpr (fun t h => by simp [ht t h])
  exact if_neg (by simp [hr, hl, hd, hnone])

theorem Chip.budgetExpiry_runs {d k : Nat} (hr : c.running = true) (hv : bit (c.owner d k) 0 = true) (hrel : (c.task d k).released = true) (hend : (c.task d k).ended = false)
    (hd : c.jobDead (bits (c.owner d k) 6 1) = false) :
    c.budgetExpiry d k =
      ((c.advanceTo (c.budgetNs (c.cfgBy 0x0702 (bits (c.owner d k) 6 1) 5 50) (c.task d k).budget)).timeFault d k 0).missJob d (bits (c.owner d k) 6 1) 2 :=
  if_neg (by simp [hr, hv, hrel, hend, hd])

theorem Chip.deadlineExpiry_missed {j : Nat} {t : Nat × Nat} {ts : List (Nat × Nat)} (hr : c.running = true) (hl : c.launched j = true) (hd : c.jobDead j = false) :
    let c1 := c.advanceTo (c.turnStart + c.cfgBy 0x0702 j 6 0 * 1000)
    (c1.jobTasks j).filter (fun t => !(c1.task t.1 t.2).ended) = t :: ts →
    c.deadlineExpiry j = (eachDo (t :: ts) (fun t c => c.timeFault t.1 t.2 1) c1).missJob t.1 j 3 := by
  intro c1 hleft
  rw [Chip.deadlineExpiry, if_neg (by simp [hr, hl, hd])]
  dsimp only
  rw [hleft]

/-- A station with a command of a terminated job in one of its contexts is reset. -/
theorem Chip.carverReset_busy {st p : Nat} (hp : p < 4) {r : Run} (hr : r ∈ (c.realStation (stKey st p)).runs) (hd : c.jobDead (dJob r.desc) = true) :
    c.carverReset st = (c.stationReset st).settle :=
  if_pos (List.any_eq_true.mpr ⟨p, List.mem_range.mpr hp, List.any_eq_true.mpr ⟨r, hr, hd⟩⟩)

/-! ### A job's end -/

/-- A job whose end is decided keeps its first cause. -/
theorem Chip.endJob_decided {j : Nat} (code : Nat) (h : (c.job j).code ≠ 0) : c.endJob j code = c :=
  if_pos (by simp [Chip.jobDead, h])

/-- A job's end leaves every other job's state. -/
theorem Chip.job_endJob_ne (c : Chip) (code : Nat) {i j : Nat} (h : i ≠ j) : (c.endJob j code).job i = c.job i := by
  by_cases hk : (c.jobDead j || j == 255) = true
  · rw [Chip.endJob, if_pos hk]
  · obtain ⟨hd, hj⟩ : c.jobDead j = false ∧ j ≠ 255 := by simpa using hk
    have hend : ∀ m : Chip, (eachDo m.liveKeys (fun k c => c.endJobAt k j 4) m).wrk = m.wrk := fun m =>
      (follows_eachDo (fun k _ h => Chip.endJobAt_follows k j 4 h (Kept.but_free [.regs, .fab] m)) m.liveKeys (Kept.but_follows [.regs, .fab] m)).wrk_eq (by decide)
    rw [Chip.job, (c.endJob_live hd hj).2, hend]
    exact c.job_setJob_ne _ h

/-! ### The statement -/

/-- Settles O40: each clause is the lemma of its operation's case. -/
theorem tasksReleasedAndSupervised : Obligations.TasksReleasedAndSupervised := by
  refine ⟨fun s => ⟨fun j hw hr hl hd ht => ?_, fun d k hw hr hv hrel hend hd => ?_, fun j t ts hw hr hl hd hleft => ?_, fun st p hlive hbusy => ?_⟩,
    fun c j code hj hcode => ⟨fun h0 => ?_, Chip.endJob_decided code, fun i hi => c.job_endJob_ne code hi⟩⟩
  · exact next_work hw (Chip.taskRelease_launched hr hl hd ht)
  · exact next_work hw (Chip.budgetExpiry_runs hr hv hrel hend hd)
  · exact next_work hw (Chip.deadlineExpiry_missed hr hl hd hleft)
  · obtain ⟨i, r, hmem, hdead⟩ := hbusy
    exact next_live hlive (Chip.carverReset_busy i.isLt hmem hdead)
  · exact c.code_endJob (by simp [Chip.jobDead, h0]) (by omega)

end Sys2Proof.Machine
end

section
/-! The test-blank slot (R325, R347): its start, its end and the verdict on a die, each by its cases. -/
namespace Sys2Proof.Machine

variable {c : Chip}

theorem Chip.slotStart_due (hr : c.running = true) (hs : c.wrk.slotNs = 0) :
    let c1 := c.advanceTo (c.turnStart + c.cfg1 0x0701 3 0 * 1000)
    let c2 := { c1.orReg 0 (tsBlk + 0x10) 8 with wrk := { c1.wrk with slotNs := c1.nowNs } }
    c.slotStart = eachDo ((List.range 8).drop 1) (fun d c => c.holdDie d) c2 :=
  if_neg (by simp [hr, hs])

theorem Chip.slotEnd_running (h : bit (c.reg 0 (tsBlk + 0x10)) 3 = true) :
    let c2 := (c.advanceTo (c.wrk.slotNs + c.cfg1 0x0701 4 0 * 1000)).setFld 0 (tsBlk + 0x10) 3 3 0
    c.slotEnd = eachDo ((c2.fab.held.map (fun h => h.1 / 4)).eraseDups) (fun st c => c.resume st) c2 :=
  if_neg (by simp [h])

/-! ### The verdict -/

/-- A noted verdict reads back: the events of ready instants that go with it are the partitions' own. -/
theorem Chip.verdict_noteVerdict (c : Chip) (d v : Nat) : tabGet 0 (c.noteVerdict d v).wrk.verdicts d = v := by
  have hend : ∀ (l : List Nat) (m : Chip), (eachDo l (fun p c => c.noteEnd p) m).wrk.verdicts = m.wrk.verdicts := by
    intro l
    induction l with
    | nil => exact fun _ => rfl
    | cons p l ih => exact fun m => ih (m.noteEnd p)
  rw [Chip.noteVerdict, hend]
  exact tabGet_tabSet_self 0 v c.wrk.verdicts d

section
variable {d : Nat} (hs : c.wrk.slotNs ≠ 0) (he : bit (c.reg 0 (tsBlk + 0x10)) 3 = false) (hf : c.fenced d = false) (hr : c.running = true)
  (hv : tabGet 0 c.wrk.verdicts d = 0) (hlate : c.lateBlank d = none)
include hs he hf hr hv

/-- The verdict falls due once the slot has ended. -/
theorem Chip.verdictDue : ¬ (c.wrk.slotNs = 0 || bit (c.reg 0 (tsBlk + 0x10)) 3 || c.fenced d || !c.running || tabGet 0 c.wrk.verdicts d != 0) = true := by
  simp [hs, he, hf, hr, hv]

include hlate

/-- A die without a failing or late blank passes, and its run of failing turns ends. -/
theorem Chip.blankVerdict_passes (hbad : tabGet false c.wrk.blankBad d = false) :
    c.blankVerdict d = ((c.advanceTo (c.wrk.slotNs + (c.cfg1 0x0701 4 0 + 50) * 1000)).noteVerdict d 1).setFld d (blkBlk + 0x1C) 3 0 0 := by
  have h1 : ∀ ns, (c.advanceTo ns).lateBlank d = none := fun _ => hlate
  have h2 : ∀ ns, tabGet false (c.advanceTo ns).wrk.blankBad d = false := fun _ => hbad
  rw [Chip.blankVerdict, if_neg (Chip.verdictDue hs he hf hr hv)]
  simp only [h1, h2, Option.isSome_none, Bool.false_or, Bool.not_false, Bool.false_eq_true, if_true, if_false]

/-- A die with a failing blank fails, whether or not its run of failing turns drives the safe state. -/
theorem Chip.blankVerdict_fails (hbad : tabGet false c.wrk.blankBad d = true) : tabGet 0 (c.blankVerdict d).wrk.verdicts d = 2 := by
  have h1 : ∀ ns, (c.advanceTo ns).lateBlank d = none := fun _ => hlate
  have h2 : ∀ ns, tabGet false (c.advanceTo ns).wrk.blankBad d = true := fun _ => hbad
  rw [Chip.blankVerdict, if_neg (Chip.verdictDue hs he hf hr hv)]
  simp only [h1, h2, Option.isSome_none, Bool.false_or, Bool.not_true, Bool.false_eq_true, if_true, if_false]
  split <;> exact Chip.verdict_noteVerdict _ d 2

end

/-! ### The statement -/

/-- Settles O42: each clause is the lemma of its operation's case. -/
theorem blankSlotRunsAndJudges : Obligations.BlankSlotRunsAndJudges := by
  refine fun s hw => ⟨fun hr hs => ?_, fun h => ?_, fun d hs he hf hr hv hlate => ⟨fun hgood => ?_, fun hbad => ?_⟩⟩
  · exact next_work hw (Chip.slotStart_due hr hs)
  · exact next_work hw (Chip.slotEnd_running h)
  · exact next_work hw (Chip.blankVerdict_passes hs he hf hr hv hlate hgood)
  · exact ⟨s.put _, next_work hw rfl, Chip.blankVerdict_fails hs he hf hr hv hlate hbad⟩

end Sys2Proof.Machine
end

section
/-! Tests in the field (R330, R332, R336, R337): a self-test segment of the core that rests, and a clock window of an island, each by its cases. -/
namespace Sys2Proof.Machine

variable {c : Chip} {d k : Nat}

/-- A segment of the resting core of a die that still has one counts by its verdict. -/
theorem Chip.segmentDone_resting (hf : c.fenced d = false) (hr : c.running = true) (ht : c.testCore d c.turn = some k) (h9 : bit (c.reg d (tsBlk + 0xC)) 13 = false) :
    c.segmentDone d k .pass = c.segPass d k ∧ c.segmentDone d k .other = c.segFail d k ⟨2, d, k, 0xFF, 0⟩ :=
  have hdue : ¬ (c.fenced d || !c.running || c.testCore d c.turn != some k || (bit (c.reg d (tsBlk + 0xC)) 13 && !c.coreIdle d k)) = true := by simp [hf, hr, ht, h9]
  ⟨if_neg hdue, if_neg hdue⟩

/-- Below the last segment, a passed one advances the checkpoint by one. -/
theorem Chip.checkpoint_segPass (h : c.fld d (tsBlk + 0x10 + 4 * k) 5 0 < 47) : (c.segPass d k).fld d (tsBlk + 0x10 + 4 * k) 5 0 = c.fld d (tsBlk + 0x10 + 4 * k) 5 0 + 1 := by
  have hless : c.fld d (tsBlk + 0x10 + 4 * k) 5 0 + 1 < 48 := Nat.succ_lt_succ h
  rw [Chip.segPass, if_pos hless, Chip.fld_setFld_self _ _ _ 5 0 _ (by decide) (by decide)]
  exact Nat.mod_eq_of_lt (hless.trans (by decide))

/-- A window of a die's island, which counts for its sustained clock in the ten islands of cores and die buffer. -/
theorem Chip.clockWindow_present (hf : c.fenced d = false) (i n ext : Nat) :
    c.clockWindow d i n ext = if i < 10 then ((c.noteExt d i ext).countIdle d i n).sustain d i n else (c.noteExt d i ext).countIdle d i n :=
  if_neg (by simp [hf])

/-- Settles O43: each clause is the lemma of its operation's case. -/
theorem coresAndClocksTested : Obligations.CoresAndClocksTested := by
  refine fun s => ⟨fun d k hlive hf hr ht h9 => ?_, fun d i n ext hlive hf => ?_, fun b hl => next_awake hl rfl⟩
  · obtain ⟨hpass, hfail⟩ := Chip.segmentDone_resting hf hr ht h9
    exact ⟨next_live hlive hpass, next_live hlive hfail, Chip.checkpoint_segPass⟩
  · exact next_live hlive (Chip.clockWindow_present hf i n ext.toNat)

end Sys2Proof.Machine
end

section
/-! One-time-programmable memory through every step (R416, R418, R419), the step that runs the front command, and the state before the start sequence (R384, R434, R511). -/
namespace Sys2Proof.Machine

/-- A command only moves one-time-programmable memory forward, a power-on reset as well. -/
theorem exec_otp {i : Instr} {s t : State} (h : exec i s = .next t) : s.chip.nv.otp.goesTo t.chip.nv.otp := by
  obtain ⟨-, ⟨b, l, f, -, ht⟩ | hf⟩ := exec_cases h
  · rw [ht]
    exact (s.chip.powerOn_keeps b l f).2.1
  · exact hf.otp

/-- Settles O5: a tick leaves one-time-programmable memory, and every command moves it forward by `exec_otp`. -/
theorem everyStepOnlyFusesOtp : Obligations.EveryStepOnlyFusesOtp := by
  intro s t h
  obtain ⟨-, rfl⟩ | ⟨i, rest, -, hi⟩ := step_cases h
  · exact Otp.goesTo_refl _
  · exact exec_otp (s := { s with pending := rest }) hi

/-- Settles O1: the step takes the queue apart. -/
theorem stepRunsFrontCommand : Obligations.StepRunsFrontCommand :=
  fun s i rest h => by rw [step, h]

/-- Settles O3: every field stands at its default, where the stores list nothing and each register reads 0. -/
theorem resetStateIsQuiet : Obligations.ResetStateIsQuiet :=
  ⟨rfl, ⟨rfl, rfl, rfl, rfl, rfl⟩, rfl, rfl, rfl, rfl, rfl, rfl, rfl, rfl, rfl, by decide⟩

end Sys2Proof.Machine
end

section
/-! The fault collector (R374–R382): what an event that finds its bit clear leaves in the FSW and its registers, the first class A event, and the clearing of a bit, each by its cases. -/
namespace Sys2Proof.Machine

/-! ### The FSW and the classes of its bits -/

theorem Chip.fsw_lt (c : Chip) : c.fsw < 2 ^ 64 := by
  have hlo := c.reg_lt 0 fcBlk
  have hhi := c.reg_lt 0 (fcBlk + 4)
  simp only [Chip.fsw, Chip.reg64]
  omega

/-- A set bit taken off a word. -/
theorem testBit_sub_shiftLeft {x b : Nat} (h : x.testBit b = true) (i : Nat) : (x - 1 <<< b).testBit i = (x.testBit i && !decide (b = i)) := by
  have hand : x &&& 1 <<< b = 1 <<< b := by rw [Nat.one_shiftLeft, Nat.and_two_pow, h, Bool.toNat_true, one_mul]
  have hsub := testBit_sub_and x (1 <<< b) i
  rwa [hand, Nat.one_shiftLeft, Nat.testBit_two_pow, ← Nat.one_shiftLeft] at hsub

/-- The chip with word `w` in the FSW and class `k` latched for bit `b` (R398). -/
def Chip.setFsw (c : Chip) (w b k : Nat) : Chip := (c.setReg64 0 fcBlk w).setFld 0 (fcBlk + 8 + 4 * (b / 16)) (2 * (b % 16) + 1) (2 * (b % 16)) k

section
variable (c : Chip) (w : Nat) {b : Nat} (k : Nat)

theorem Chip.fsw_setFsw : (c.setFsw w b k).fsw = w % 2 ^ 64 := by
  rw [Chip.fsw, Chip.setFsw, Chip.setFld, Chip.reg64_setReg_off _ 0 _ (by omega) (by omega), Chip.reg64_setReg64]

theorem Chip.fcls_setFsw : (c.setFsw w b k).fcls b = k % 4 := by
  rw [Chip.fcls, Chip.setFsw, Chip.fld_setFld_self _ _ _ _ _ _ (by omega) (by omega), show 2 * (b % 16) + 1 + 1 - 2 * (b % 16) = 2 by omega]; rfl

/-- The registers outside the FSW and its classes stay. -/
theorem Chip.reg_setFsw_off (hb : b < 64) {o : Nat} (ho : o < fcBlk ∨ fcBlk + 0x18 ≤ o) : (c.setFsw w b k).reg 0 o = c.reg 0 o := by
  rw [Chip.setFsw, Chip.setFld, Chip.reg_setReg_off _ 0 _ (by omega), Chip.setReg64, Chip.reg_setReg_off _ 0 _ (by omega), Chip.reg_setReg_off _ 0 _ (by omega)]

end

/-! ### Events -/

/-- The chip with event `r` of class `k` latched at time `t`: its FSW bit, class and FDET, and the copy of the word that outlasts a warm reset (R374, R376, R398). -/
def Chip.noteEvent (c : Chip) (r : Rise) (t k : Nat) : Chip :=
  (((((c.setFsw (c.fsw ||| 1 <<< r.bit) r.bit k).setReg64 0 (fdet r.bit) (t / 4294967296)).setReg 0 (fdet r.bit + 8) (r.cause + r.die <<< 8 + r.src <<< 11 + 2 <<< 16)).setReg 0
    (fdet r.bit + 12) c.turn32).setReg64 0 (pwrBlk + 0x1C) (c.reg64 0 (pwrBlk + 0x1C) ||| 1 <<< r.bit))

/-- A class A event that finds its bit clear is latched and enters the safe state. -/
theorem Chip.latchEvent_classA {c : Chip} {r : Rise} (t : Nat) (hnew : c.fsw.testBit r.bit = false) (hk : c.riseClass r = 1) : c.latchEvent r t = (c.noteEvent r t 1).safeState r t := by
  simp only [Chip.latchEvent, hnew, hk, Bool.false_eq_true, if_false]
  rfl

theorem Chip.flt_noteEvent (c : Chip) (r : Rise) (t k : Nat) : (c.noteEvent r t k).flt = c.flt := by
  rw [Chip.noteEvent, Chip.setReg64_flt, Chip.setReg_flt, Chip.setReg_flt, Chip.setReg64_flt, Chip.setFsw, Chip.setFld_flt, Chip.setReg64_flt]

section
variable (c : Chip) {r : Rise} (t k : Nat) (hb : r.bit < 64)
include hb

/-- The registers that an event latches nothing in stay. -/
theorem Chip.reg_noteEvent_off {o : Nat} (h : (o < fcBlk ∨ fcBlk + 0x18 ≤ o) ∧ (o < fcBlk + 0x80 ∨ fcBlk + 0x480 ≤ o) ∧ (o < pwrBlk + 0x1C ∨ pwrBlk + 0x24 ≤ o)) :
    (c.noteEvent r t k).reg 0 o = c.reg 0 o := by
  obtain ⟨hword, hdet, hpwr⟩ := h
  simp only [Chip.noteEvent, Chip.setReg64, fdet]
  repeat rw [Chip.reg_setReg_off _ 0 _ (by omega)]
  exact c.reg_setFsw_off _ k hb hword

/-- What is latched beside the FSW and its classes leaves them. -/
theorem Chip.reg_noteEvent_fsw {o : Nat} (hlo : fcBlk ≤ o) (hhi : o < fcBlk + 0x18) :
    (c.noteEvent r t k).reg 0 o = (c.setFsw (c.fsw ||| 1 <<< r.bit) r.bit k).reg 0 o := by
  simp only [Chip.noteEvent, Chip.setReg64, fdet]
  have hpwr : fcBlk + 0x18 ≤ pwrBlk := by decide
  repeat rw [Chip.reg_setReg_off _ 0 _ (by omega)]

theorem Chip.fsw_noteEvent : (c.noteEvent r t k).fsw = c.fsw ||| 1 <<< r.bit := by
  have hbit : 1 <<< r.bit < 2 ^ 64 := by rw [Nat.one_shiftLeft]; exact Nat.pow_lt_pow_right (by decide) hb
  calc (c.noteEvent r t k).fsw = (c.setFsw (c.fsw ||| 1 <<< r.bit) r.bit k).fsw := by
        simp only [Chip.fsw, Chip.reg64, c.reg_noteEvent_fsw t k hb (Nat.le_refl fcBlk) (by decide), c.reg_noteEvent_fsw t k hb (Nat.le_add_right fcBlk 4) (by decide)]
    _ = (c.fsw ||| 1 <<< r.bit) % 2 ^ 64 := c.fsw_setFsw _ k
    _ = c.fsw ||| 1 <<< r.bit := Nat.mod_eq_of_lt (Nat.or_lt_two_pow c.fsw_lt hbit)

theorem Chip.fcls_noteEvent : (c.noteEvent r t k).fcls r.bit = k % 4 := by
  rw [Chip.fcls, Chip.fld, c.reg_noteEvent_fsw t k hb (by omega) (by omega)]
  exact c.fcls_setFsw _ k

end

/-! ### The safe state -/

/-- The chip that keeps event `r` as the first of a class A sequence (R379, R382). -/
def Chip.keepFirst (c : Chip) (r : Rise) (t : Nat) : Chip :=
  { c.setReg 0 (fcBlk + 0x1C) (r.bit + 64 + r.cause <<< 8) with flt := { c.flt with seq := some (c.seqOf r t) } }

/-- The first class A event, outside a spindle lock: it is kept, and the device falls silent. -/
theorem Chip.safeState_first {c : Chip} (r : Rise) (t : Nat) (hs : c.flt.seq = none) (hl : c.locked = false) :
    c.safeState r t = (((c.keepFirst r t).shav 2 4 0x0030 1 r.bit r.cause).silence).shav 2 4 0x0030 2 r.bit r.cause := by
  rw [Chip.safeState, hs]
  exact if_neg (by simp [hl])

theorem Chip.reg_keepFirst (c : Chip) (r : Rise) (t o : Nat) : (c.keepFirst r t).reg 0 o = (c.setReg 0 (fcBlk + 0x1C) (r.bit + 64 + r.cause <<< 8)).reg 0 o :=
  Chip.reg_of_regs (by rfl) 0 o

theorem Chip.reg_silence (c : Chip) (o : Nat) : c.silence.reg 0 o = (c.setFld 0 (tsBlk + 0x10) 1 0 2).reg 0 o := Chip.reg_of_regs (by rfl) 0 o

theorem Chip.net_shav (c : Chip) (source level tp a0 a1 a2 : Nat) : (c.shav source level tp a0 a1 a2).net = c.net :=
  (Chip.shav_follows source level tp a0 a1 a2 (Kept.but_follows [.regs, .obs, .nv] c) (Kept.but_free _ c)).same .net rfl

section
variable {c : Chip} (r : Rise) (t : Nat) (hs : c.flt.seq = none) (hl : c.locked = false)
include hs hl

/-- The first class A event writes FIRST_A, the turn's state and the ring's registers, and no other register. -/
theorem Chip.reg_safeState_off {o : Nat} (hfirst : o ≠ fcBlk + 0x1C) (hturn : o ≠ tsBlk + 0x10) (hring : o < startBlk + 0x1C ∨ startBlk + 0x24 < o) :
    (c.safeState r t).reg 0 o = c.reg 0 o := by
  rw [Chip.safeState_first r t hs hl, Chip.reg_shav _ _ _ _ _ _ _ hring, Chip.reg_silence, Chip.reg_setFld_ne _ _ _ _ _ _ _ _ (regKey_ne 0 hturn),
    Chip.reg_shav _ _ _ _ _ _ _ hring, Chip.reg_keepFirst, c.reg_setReg_off 0 _ hfirst]

theorem Chip.firstA_safeState : (c.safeState r t).reg 0 (fcBlk + 0x1C) = (r.bit + 64 + r.cause <<< 8) % 2 ^ 32 := by
  rw [Chip.safeState_first r t hs hl, Chip.reg_shav _ _ _ _ _ _ _ (by decide), Chip.reg_silence, Chip.reg_setFld_ne _ _ _ _ _ _ _ _ (by decide),
    Chip.reg_shav _ _ _ _ _ _ _ (by decide), Chip.reg_keepFirst, c.reg_setReg_self]

theorem Chip.turnState_safeState : (c.safeState r t).turnState = 2 := by
  rw [Chip.turnState, Chip.fld, Chip.safeState_first r t hs hl, Chip.reg_shav _ _ _ _ _ _ _ (by decide), Chip.reg_silence]
  exact Chip.fld_setFld_self _ 0 (tsBlk + 0x10) 1 0 2 (by decide) (by decide)

theorem Chip.silent_safeState : (c.safeState r t).net.silent = true := by
  rw [Chip.safeState_first r t hs hl, Chip.net_shav]
  rfl

end

/-- FIRST_A names its bit and shows class A. -/
theorem bits_firstA {b : Nat} (hb : b < 64) (cause : Nat) :
    bits ((b + 64 + cause <<< 8) % 2 ^ 32) 5 0 = b ∧ bit ((b + 64 + cause <<< 8) % 2 ^ 32) 6 = true := by
  simp only [bits, bit, Nat.shiftRight_zero, Nat.shiftLeft_eq, Nat.testBit_eq_decide_div_mod_eq]
  exact ⟨by omega, decide_eq_true (by omega)⟩

/-- Settles O49: the event is latched as `Chip.noteEvent` says, and the safe state leaves the FSW and its classes. -/
theorem classAEventEntersSafeState : Obligations.ClassAEventEntersSafeState := by
  intro c r t hb hnew hk hseq hl
  have hword := c.fsw_noteEvent t 1 hb
  have hcls := c.fcls_noteEvent t 1 hb
  have hlock : (c.noteEvent r t 1).locked = false := by rw [Chip.locked, c.reg_noteEvent_off t 1 hb (by decide)]; exact hl
  have hs : (c.noteEvent r t 1).flt.seq = none := by rw [Chip.flt_noteEvent]; exact hseq
  have hreg : ∀ o, fcBlk ≤ o → o < fcBlk + 0x18 → ((c.noteEvent r t 1).safeState r t).reg 0 o = (c.noteEvent r t 1).reg 0 o := fun o hlo hhi =>
    Chip.reg_safeState_off r t hs hlock (by omega) (by simp only [fcBlk, tsBlk] at *; omega) (.inl (by simp only [fcBlk, startBlk] at *; omega))
  have hfirst := Chip.firstA_safeState r t hs hlock
  obtain ⟨hfirstBit, hfirstA⟩ := bits_firstA hb r.cause
  have hA : ((c.noteEvent r t 1).safeState r t).classA = true := by rw [Chip.classA, hfirst]; exact hfirstA
  rw [Chip.latchEvent_classA t hnew hk]
  refine ⟨?_, ?_, hA, ?_, ?_, ?_, Chip.silent_safeState r t hs hlock⟩
  · rw [Chip.fsw, Chip.reg64, hreg _ (by decide) (by decide), hreg _ (by decide) (by decide)]
    exact (congrArg (·.testBit r.bit) hword).trans (by rw [Nat.testBit_or, Nat.one_shiftLeft, Nat.testBit_two_pow_self, Bool.or_true])
  · rw [Chip.fcls, Chip.fld, hreg _ (by omega) (by omega)]
    exact hcls
  · simp [Chip.fltLevel, hA]
  · rw [Chip.running, Chip.turnState_safeState r t hs hlock]
    rfl
  · rw [hfirst, hfirstBit]

/-! ### Clearing -/

section
variable {c : Chip} {b : Nat}

/-- A bit of class A stays. -/
theorem Chip.clearBit_classA (h : c.fcls b = 1) : c.clearBit b = c := if_pos (by simp [h])

/-- A bit whose line is high stays. -/
theorem Chip.clearBit_high (h : c.lineHigh b = true) : c.clearBit b = c := if_pos (by simp [h])

/-- A latched bit of class B or C whose line is low is cleared. -/
theorem Chip.clearBit_low (hset : c.fsw.testBit b = true) (hcls : c.fcls b ≠ 1) (hlow : c.lineHigh b = false) :
    c.clearBit b = (c.dropLost b).setFsw (c.fsw - 1 <<< b) b 0 := if_neg (by simp [hset, hcls, hlow])

end

/-- Settles O48: each clause is the operation's case, and a cleared bit is taken off the word (`testBit_sub_shiftLeft`). -/
theorem collectorLatchesAndClears : Obligations.CollectorLatchesAndClears := by
  refine ⟨fun s => ⟨fun b ph r hr => ?_, fun b cause hl => ?_, fun mask who hl hopen => ?_⟩,
    fun c b _ => ⟨Chip.clearBit_classA, Chip.clearBit_high, fun hset hcls hlow => ?_⟩⟩
  · exact next_put (by rw [Chip.errorLatch, hr])
  · exact next_awake hl (if_pos rfl)
  · exact next_awake hl (if_pos hopen)
  · have hword : (c.clearBit b).fsw = c.fsw - 1 <<< b := by
      rw [Chip.clearBit_low hset hcls hlow, Chip.fsw_setFsw, Nat.mod_eq_of_lt (Nat.lt_of_le_of_lt (Nat.sub_le _ _) c.fsw_lt)]
    rw [hword]
    refine ⟨by simp [testBit_sub_shiftLeft hset], fun i _ hne => ?_⟩
    simp [testBit_sub_shiftLeft hset, Ne.symm hne]

end Sys2Proof.Machine
end

section
/-! Fault records and reports (R382, R393, R394): the record of a class A sequence, its size, and the copies of its report. -/
namespace Sys2Proof.Machine

theorem length_padTo (n : Nat) (b : Bytes) : (padTo n b).length = n := by
  rw [padTo, List.length_append, List.length_take, List.length_replicate]
  omega

theorem length_flatMap_toLE {α : Type} (l : List α) (k : Nat) (f : α → Nat) : (l.flatMap (fun i => toLE k (f i))).length = l.length * k := by
  simp [List.length_flatMap, length_toLE]

/-- A fault record has 256 bytes, however many later events its sequence has. -/
theorem Chip.length_faultRecord (c : Chip) (x : Seq) (flags : Nat) (steps : List Nat) (seqNo : Nat) : (c.faultRecord x flags steps seqNo).length = 256 := by
  unfold Chip.faultRecord
  extract_lets ls b
  have hb : b.length = 252 := by
    simp only [b, List.length_append, length_toLE, length_padTo, length_flatMap_toLE, List.length_range]
  rw [List.length_append, length_toLE, hb]

section
variable {c : Chip} {x : Seq} (hx : c.flt.seq = some x) (hl : c.locked = false)
include hx hl

/-- A sequence without a record: it is composed, and stored in the lowest erased slot, if there is one. -/
theorem Chip.recordWritten_first (hr : x.record = []) :
    let d := c.drawSteps
    let sec := x.bit == 1
    let c1 := d.2.countRecord
    let r := c1.faultRecord x (b2n (!sec) + 2 * b2n sec + 4 + 1 <<< 3 + 32 * b2n c.freeRecord.isNone)
      [d.1.getD 0 0 % 41, d.1.getD 1 0 % 41, d.1.getD 2 0 % 1001, c.nowNs - x.ns] c1.nv.log.records
    c.recordWritten = ((((c1.storeRecord x c.freeRecord r).orReg 0 (fcBlk + 0x18) (128 * b2n c.freeRecord.isSome)).shav 0 4 0x0030 4 x.bit x.cause).mirrorTail) := by
  rw [Chip.recordWritten, hx]
  exact if_neg (by simp [hr, hl])

/-- The second and the third copy. -/
theorem Chip.resend_copy (h : x.copies = 1 ∨ x.copies = 2) :
    c.resend = Chip.sendReport { c with flt := { c.flt with seq := some { x with copies := x.copies + 1 } } } x.report := by
  have hno : ¬ (x.copies = 0 ∨ 3 ≤ x.copies ∨ c.locked = true) := by
    simp only [hl, Bool.false_eq_true, or_false]
    omega
  rw [Chip.resend, hx]
  exact if_neg hno

end

/-- Settles O50: the record's and the copies' cases. -/
theorem faultRecordKeptAndReported : Obligations.FaultRecordKeptAndReported :=
  fun _ _ hx hl => ⟨fun hr => ⟨next_put (Chip.recordWritten_first hx hl hr), Chip.length_faultRecord _ _ _ _ _⟩, fun h => next_put (Chip.resend_copy hx hl h)⟩

end Sys2Proof.Machine
end

section
/-! Lockstep units and the Safety Status Port (R384–R392): reads of the FLT balls, mismatches, verdicts, agreement reads, halts, and the port's transactions, each by its cases. -/
namespace Sys2Proof.Machine

/-! ### Lockstep -/

section
variable {c : Chip} {u : Nat}

/-- A unit that runs halts on a mismatch, and its line rises. -/
theorem Chip.lsMismatch_runs (h : c.unitRuns u = true) :
    c.lsMismatch u = (c.modUnit u (fun x => { x with halted := true })).rise
      { bit := if u = 0 then 0 else 8 * u + 5, cause := 0x11, die := u, src := if u = 0 then 0 else 14, cls := 1 } := if_neg (by simp [h])

/-- The copy that a verdict names, + 1, or 0 (R391). -/
def Chip.lsNamed (c : Chip) (u : Nat) : LsVerdict → Nat
  | .first => 1 + bits (c.reg 0 (lsUnit u)) 1 0
  | .second => 1 + bits (c.reg 0 (lsUnit u)) 3 2
  | _ => 0

/-- The chip with a unit's verdict kept and shown. -/
def Chip.lsJudged (c : Chip) (u : Nat) (v : LsVerdict) : Chip :=
  { c with nv := { c.nv with verdicts := tabSet 0 c.nv.verdicts u (lsCode v + 8 * c.lsNamed u v) } }.setFld 0 (lsUnit u) 15 8 (lsCode v)

/-- A halted unit's verdict is kept; in a class A sequence its step is traced. -/
theorem Chip.lsVerdict_halted (v : LsVerdict) (h : (c.unit u).halted = true) :
    c.lsVerdict u v = match c.flt.seq with
      | some x => (c.lsJudged u v).shav 0 4 0x0030 3 x.bit x.cause
      | none => c.lsJudged u v := by
  rw [Chip.lsVerdict, if_neg (by simp [h])]
  cases v <;> rfl

/-- An agreement read of a unit that runs gives the AND, and is counted where the copies differ. -/
theorem Chip.agreement_runs {a b : Nat} (h : c.unitRuns u = true) :
    c.agreement u a b =
      let c1 := c.modUnit u (fun x => { x with value := a &&& b, pending := a ||| b })
      if a = b then c1 else c1.setFld 0 (lsUnit u) 31 16 (min 0xFFFF (c.fld 0 (lsUnit u) 31 16 + 1)) := if_neg (by simp [h])

end

/-- A trace point leaves the verdicts. -/
theorem Chip.verdicts_shav (c : Chip) (source level tp a0 a1 a2 : Nat) : (c.shav source level tp a0 a1 a2).nv.verdicts = c.nv.verdicts := by
  rw [Chip.shav]
  split
  · rfl
  · dsimp only
    split <;> rfl

theorem lsCode_lt (v : LsVerdict) : lsCode v < 8 := by cases v <;> decide

theorem Chip.lsJudged_shows (c : Chip) (u : Nat) (v : LsVerdict) : (c.lsJudged u v).fld 0 (lsUnit u) 15 8 = lsCode v ∧ tabGet 0 (c.lsJudged u v).nv.verdicts u % 8 = lsCode v := by
  have hlt := lsCode_lt v
  refine ⟨?_, ?_⟩
  · rw [Chip.lsJudged, Chip.fld_setFld_self _ _ _ _ _ _ (by decide) (by decide)]
    exact Nat.mod_eq_of_lt (by omega)
  · rw [Chip.lsJudged, Chip.setFld_nv, tabGet_tabSet_self]
    omega

/-- A halted unit's verdict shows in LS_UNIT and stands where the next start finds it. -/
theorem Chip.lsVerdict_shows {c : Chip} {u : Nat} (hu : u < 8) (v : LsVerdict) (h : (c.unit u).halted = true) :
    (c.lsVerdict u v).fld 0 (lsUnit u) 15 8 = lsCode v ∧ tabGet 0 (c.lsVerdict u v).nv.verdicts u % 8 = lsCode v := by
  rw [Chip.lsVerdict_halted v h]
  split
  · have hoff : lsUnit u < startBlk + 0x1C := by simp only [lsUnit, fcBlk, startBlk]; omega
    rw [Chip.fld, Chip.reg_shav _ _ _ _ _ _ _ (.inl hoff), Chip.verdicts_shav]
    exact c.lsJudged_shows u v
  · exact c.lsJudged_shows u v

/-! ### The Safety Status Port -/

theorem crcBits_lt {w poly : Nat} (hp : poly < 2 ^ w) (n : Nat) {r : Nat} (hr : r < 2 ^ w) : crcBits w poly n r < 2 ^ w := by
  induction n generalizing r with
  | zero => exact hr
  | succ n ih =>
    refine ih ?_
    rw [crcBit]
    split
    · exact Nat.xor_lt_two_pow (Nat.mod_lt _ (Nat.two_pow_pos w)) hp
    · exact Nat.mod_lt _ (Nat.two_pow_pos w)

theorem crc16_lt (b : Bytes) : crc16 b < 2 ^ 16 := by
  have hstep : ∀ (b : Bytes) (r : Nat), r < 2 ^ 16 → b.foldl (fun r x => crcBits 16 0x1021 8 (r ^^^ (x.toNat <<< (16 - 8)))) r < 2 ^ 16 := by
    intro b
    induction b with
    | nil => exact fun r hr => hr
    | cons x b ih =>
      intro r hr
      have hx : x.toNat <<< (16 - 8) < 2 ^ 16 := by
        rw [Nat.shiftLeft_eq]
        have := x.isLt
        omega
      exact ih _ (crcBits_lt (by decide) 8 (Nat.xor_lt_two_pow hr hx))
  exact hstep b 0xFFFF (by decide)

section
variable (c : Chip) (hi lo v : Nat)

/-- SSP_COUNT shows no class of an FSW bit. -/
theorem Chip.anyClass_setSspCount (k : Nat) : (c.setFld 0 (fcBlk + 0x24) hi lo v).anyClass k = c.anyClass k := by
  have hcls : ∀ b ∈ List.range 64, (c.setFld 0 (fcBlk + 0x24) hi lo v).fcls b = c.fcls b := fun b hb => by
    have := List.mem_range.mp hb
    exact congrArg (bits · _ _) (c.reg_setReg_off 0 _ (by omega))
  rw [Chip.anyClass, Chip.anyClass, Bool.eq_iff_iff, List.any_eq_true, List.any_eq_true]
  exact exists_congr fun b => and_congr_right fun hb => by rw [hcls b hb]

/-- The frame shows nothing of SSP_COUNT. -/
theorem Chip.sspFrame_setSspCount (n : Nat) : (c.setFld 0 (fcBlk + 0x24) hi lo v).sspFrame n = c.sspFrame n := by
  have hreg : ∀ o, o ≠ fcBlk + 0x24 → (c.setFld 0 (fcBlk + 0x24) hi lo v).reg 0 o = c.reg 0 o := fun o ho => c.reg_setReg_off 0 _ ho
  simp only [Chip.sspFrame, Chip.sspSummary, Chip.fsum, Chip.fltLevel, Chip.gateClosed, Chip.running, Chip.turnState, Chip.classA, Chip.locked, Chip.pwrState, Chip.fsw, Chip.turn,
    Chip.reg64, Chip.fld, Chip.cfg1, Chip.setFld_flt, Chip.setFld_cfg, c.anyClass_setSspCount, hreg (fcBlk + 0x1C) (by decide), hreg (fcBlk + 0x18) (by decide), hreg fcBlk (by decide),
    hreg (fcBlk + 4) (by decide), hreg (fcBlk + 0x28) (by decide), hreg (tsBlk + 0x10) (by decide), hreg tsBlk (by decide), hreg (tsBlk + 4) (by decide), hreg (obsBlk + 0x28) (by decide),
    hreg pwrBlk (by decide)]

end

/-- A fall of chip select counts, and freezes the frame of the new count. -/
theorem Chip.ssp_sspFall (c : Chip) :
    c.sspFall.flt.ssp.count = (c.flt.ssp.count + 1) % 256 ∧
      c.sspFall.flt.ssp.frame = (c.setFld 0 (fcBlk + 0x24) 15 0 (min 0xFFFF (c.fld 0 (fcBlk + 0x24) 15 0 + 1))).sspFrame ((c.flt.ssp.count + 1) % 256) :=
  ⟨rfl, (c.sspFrame_setSspCount _ _ _ _).symm⟩

theorem leAt_lt (b : Bytes) (off n : Nat) : leAt b off n < 256 ^ n := by
  have hfrom : ∀ l : Bytes, fromLE l < 256 ^ l.length := by
    intro l
    induction l with
    | nil => exact Nat.one_pos
    | cons x l ih =>
      have := x.isLt
      rw [fromLE, List.length_cons, pow_succ]
      omega
  exact (hfrom _).trans_le (Nat.pow_le_pow_right (by decide) (by simp [slice]))

theorem Chip.reg_withFlt (c : Chip) (f : Flt) (d o : Nat) : ({ c with flt := f } : Chip).reg d o = c.reg d o := rfl

section
variable {c : Chip} {m : Bytes} (hlen : m.length = 16) (hset : ∃ b ∈ m, b ≠ 0#8)
include hlen hset

/-- A transaction of 16 bytes that are not all zero is a challenge. -/
theorem Chip.challenge_form : ¬ (m.length ≠ 16 ∨ m.all (· == 0#8) = true) := by
  obtain ⟨b, hb, hne⟩ := hset
  rintro (h | h)
  · exact h hlen
  · exact hne (by simpa using List.all_eq_true.mp h b hb)

/-- A challenge whose check fails is counted. -/
theorem Chip.sspChallenge_bad (hcrc : crc16 (m.take 14) ≠ leAt m 14 2) : c.sspChallenge m = c.setFld 0 (fcBlk + 0x24) 23 16 (min 0xFF (c.fld 0 (fcBlk + 0x24) 23 16 + 1)) := by
  rw [Chip.sspChallenge, if_neg (Chip.challenge_form hlen hset), if_pos (.inl hcrc)]

/-- A good challenge with a new sequence number is kept, and its response is due. -/
theorem Chip.sspChallenge_good (hcfg : c.cfg ≠ []) (hcrc : crc16 (m.take 14) = leAt m 14 2) (hzero : ∀ b ∈ slice m 3 11, b = 0#8) (hnew : leAt m 2 1 + 1 ≠ c.flt.ssp.last) :
    c.sspChallenge m =
      let c1 := (c.setReg 0 (fcBlk + 0x28) (leAt m 0 2)).setFld 0 (fcBlk + 0x24) 31 24 (leAt m 2 1)
      { c1 with flt := { c1.flt with ssp := { c1.flt.ssp with
          accepted := c1.flt.ssp.accepted + 1, last := leAt m 2 1 + 1, due := some (c.nowNs + c.cfg1 0x0801 69 200 * 1000), valid := false } } } := by
  have hgood : ¬ (crc16 (m.take 14) ≠ leAt m 14 2 ∨ (slice m 3 11).any (· != 0#8) = true) := by
    rintro (h | h)
    · exact h hcrc
    · obtain ⟨b, hb, hne⟩ := List.any_eq_true.mp h
      exact (bne_iff_ne.mp hne) (hzero b hb)
  rw [Chip.sspChallenge, if_neg (Chip.challenge_form hlen hset), if_neg hgood, if_neg (by simpa using ⟨hcfg, hnew⟩)]

/-- What shows of a good challenge. -/
theorem Chip.sspChallenge_shows (hcfg : c.cfg ≠ []) (hcrc : crc16 (m.take 14) = leAt m 14 2) (hzero : ∀ b ∈ slice m 3 11, b = 0#8) (hnew : leAt m 2 1 + 1 ≠ c.flt.ssp.last) :
    let d := c.sspChallenge m
    d.flt.ssp.valid = false ∧ d.flt.ssp.due = some (c.nowNs + c.cfg1 0x0801 69 200 * 1000) ∧ d.fld 0 (fcBlk + 0x28) 15 0 = leAt m 0 2 ∧
      d.flt.ssp.accepted = c.flt.ssp.accepted + 1 := by
  intro d
  have hd : d = _ := Chip.sspChallenge_good hlen hset hcfg hcrc hzero hnew
  have hch : d.reg 0 (fcBlk + 0x28) = leAt m 0 2 % 2 ^ 32 := by
    rw [hd, Chip.reg_withFlt, Chip.setFld, Chip.reg_setReg_off _ _ _ (by decide), Chip.reg_setReg_self]
  have hlt : leAt m 0 2 < 65536 := leAt_lt m 0 2
  refine ⟨by rw [hd], by rw [hd], ?_, by simp only [hd, Chip.setFld_flt, Chip.setReg_flt]⟩
  rw [Chip.fld, hch]
  simp [bits]
  omega

end

/-- The Turner publishes a response when it is due. -/
theorem Chip.wdReady_due {c : Chip} {due : Nat} (hd : c.flt.ssp.due = some due) (hl : c.locked = false) (hA : c.classA = false) (hr : c.unitRuns 0 = true) :
    c.wdReady =
      let c2 := (c.advanceTo due).setFld 0 (fcBlk + 0x28) 31 16 (c.wdResponse (c.fld 0 (fcBlk + 0x28) 15 0) (c.fld 0 (fcBlk + 0x24) 31 24) (c.flt.ssp.accepted % 256))
      { c2 with flt := { c2.flt with ssp := { c2.flt.ssp with due := none, valid := true } } } := by
  rw [Chip.wdReady, hd]
  exact if_neg (by simp [hl, hA, hr])

/-- What shows of the published response. -/
theorem Chip.wdReady_shows {c : Chip} {due : Nat} (hd : c.flt.ssp.due = some due) (hl : c.locked = false) (hA : c.classA = false) (hr : c.unitRuns 0 = true) :
    c.wdReady.flt.ssp.valid = true ∧ c.wdReady.flt.ssp.due = none ∧
      c.wdReady.fld 0 (fcBlk + 0x28) 31 16 = c.wdResponse (c.fld 0 (fcBlk + 0x28) 15 0) (c.fld 0 (fcBlk + 0x24) 31 24) (c.flt.ssp.accepted % 256) := by
  rw [Chip.wdReady_due hd hl hA hr]
  refine ⟨rfl, rfl, ?_⟩
  rw [Chip.fld, Chip.reg_withFlt, ← Chip.fld, Chip.fld_setFld_self _ _ _ _ _ _ (by decide) (by decide)]
  exact Nat.mod_eq_of_lt (crc16_lt _)

/-- What shows of an agreement read by a unit that runs. -/
theorem Chip.agreement_shows {c : Chip} {u a b : Nat} (h : c.unitRuns u = true) :
    ((c.agreement u a b).unit u).value = a &&& b ∧ ((c.agreement u a b).unit u).pending = a ||| b ∧
      (a ≠ b → (c.agreement u a b).fld 0 (lsUnit u) 31 16 = min 0xFFFF (c.fld 0 (lsUnit u) 31 16 + 1)) := by
  have hunit := c.unit_modUnit u (fun x => { x with value := a &&& b, pending := a ||| b })
  rw [Chip.agreement_runs h]
  dsimp only
  split
  · exact ⟨by rw [hunit], by rw [hunit], fun hne => absurd ‹a = b› hne⟩
  · rw [Chip.unit, Chip.setFld_flt, ← Chip.unit, hunit, Chip.fld_setFld_self _ _ _ _ _ _ (by decide) (by decide)]
    exact ⟨rfl, rfl, fun _ => Nat.mod_eq_of_lt (by omega)⟩

/-! ### The statement -/

/-- Settles O51: each clause is the operation's lemma for its case. -/
theorem lockstepAndSafetyPort : Obligations.LockstepAndSafetyPort := by
  refine ⟨fun s u => ⟨fun n p hne => ?_, fun n heq => ?_, fun hl hr => ?_, fun v hl hh => ?_, fun a b hl hr => ?_, fun hl hu => ?_⟩,
    fun s => ⟨⟨_, rfl, s.chip.ssp_sspFall⟩, fun m hlen hset => ⟨fun hcfg hcrc hzero hnew => ?_, fun hcrc => ?_⟩, fun due hd hl hA hr => ?_⟩⟩
  · exact next_put (if_pos (by simpa using hne))
  · exact next_put (by simp [Chip.readback, heq])
  · refine ⟨_, next_awake hl (Chip.lsMismatch_runs hr), ?_, _, rfl, ?_, rfl, rfl⟩
    · simp [State.put, Chip.unitRuns, Chip.unit, Chip.modUnit, Chip.rise]
    · simp
  · exact ⟨_, next_awake hl rfl, Chip.lsVerdict_shows u.isLt v hh⟩
  · obtain ⟨hvalue, hpending, hcount⟩ := s.chip.agreement_shows (a := a.toNat) (b := b.toNat) hr
    exact ⟨_, next_awake hl rfl, hvalue.trans (BitVec.toNat_and a b).symm, hpending.trans (BitVec.toNat_or a b).symm, fun hne => hcount (fun h => hne (BitVec.eq_of_toNat_eq h))⟩
  · have hunit := s.chip.unit_modUnit u (fun x => { x with debug := true })
    have hhalt : s.chip.debugHalt u = s.chip.modUnit u (fun x => { x with debug := true }) := if_pos hu
    refine ⟨_, next_awake hl hhalt, ?_, by rw [State.put, hunit], rfl⟩
    exact (congrArg (fun x : Lock => !x.halted && !x.debug) hunit).trans (Bool.and_false _)
  · exact ⟨_, rfl, Chip.sspChallenge_shows hlen hset hcfg hcrc hzero hnew⟩
  · refine ⟨_, next_put (Chip.sspChallenge_bad hlen hset hcrc), rfl, ?_⟩
    exact (Chip.fld_setFld_self _ _ _ _ _ _ (by decide) (by decide)).trans (Nat.mod_eq_of_lt (by omega))
  · exact ⟨_, rfl, Chip.wdReady_shows hd hl hA hr⟩

end Sys2Proof.Machine
end

section
/-! The egress gate (R360–R363, R368): what the EG does with its next tile, the gate's decision of a turn, and the launch of a partition's results. -/
namespace Sys2Proof.Machine

/-! ### Counters leave other registers -/

/-- A counter pair raised leaves every other register. -/
theorem Chip.reg_addReg48_ne (c : Chip) (d off n e o : Nat) (hlo : regKey e o ≠ regKey d off) (hhi : regKey e o ≠ regKey d (off + 4)) :
    (c.addReg48 d off n).reg e o = c.reg e o := by
  rw [Chip.addReg48, Chip.setReg64, Chip.reg_setReg_ne _ _ _ _ _ _ hhi, Chip.reg_setReg_ne _ _ _ _ _ _ hlo]

/-- A station's busy count leaves the registers below the counter blocks. -/
theorem Chip.reg_busy_off (c : Chip) (st n e : Nat) {o : Nat} (hst : regKey e o < regKey (stDie st) 0x150000) : (c.busy st n).reg e o = c.reg e o := by
  rw [Chip.busy]
  split
  · rfl
  · simp only [regKey, cntBlk] at hst ⊢
    rw [Chip.reg_addReg48_ne _ _ _ _ _ _ (by simp only [regKey]; omega) (by simp only [regKey]; omega),
      Chip.reg_addReg48_ne _ _ _ _ _ _ (by simp only [regKey]; omega) (by simp only [regKey]; omega)]

/-! ### The EG's next tile -/

/-- The first tile of a run that takes messages: one still PROVISIONAL waits for its contribution, another is read into staging. -/
theorem Chip.egMsg_next {c : Chip} {p : Nat} {bad : ReadFault} {r : Run} {t : InTile} (hr : c.curRun (egKey p) = some r) (hty : dType r.desc = 8) (hop : dOp r.desc = 1)
    (hdone : r.inDone = false) (hst : r.status = 0) (ht : r.nextIn = some t) :
    c.egMsg p bad = if t.prov && (c.contrib (hdrContrib t.hdr)).st == .pending then c else c.egTile p bad r t := by
  have hcur : (c.curRun (egKey p)).filter (fun r => dType r.desc == 8 && dOp r.desc == 1 && !r.inDone && r.status == 0) = some r := by
    rw [hr, Option.filter_some]
    exact if_pos (by simp [hty, hop, hdone, hst])
  rw [Chip.egMsg, hcur]
  dsimp only
  rw [ht]

/-- What the EG does after a tile leaves the gate's status. -/
theorem Chip.reg_egDone (c : Chip) (p : Nat) (r : Run) (d o : Nat) : (c.egDone p r).reg d o = c.reg d o := rfl

/-- A condition that fails shows in the gate's status. -/
theorem Chip.bit_gateFail (c : Chip) (p cause msg die : Nat) {i : Nat} (hi : i < 32) : bit ((c.gateFail p cause msg die i).reg 0 (gateBlk p)) i = true :=
  Chip.bit_raise _ 0 (gateBlk p) _ hi false 0

/-- A poisoned tile shows in the gate's status. -/
theorem Chip.bit_egTile_poison (c : Chip) {p : Nat} (hp : p < 4) (bad : ReadFault) (r : Run) {t : InTile} (ht : t.pois = true) :
    bit ((c.egTile p bad r t).reg 0 (gateBlk p)) 3 = true := by
  have hfail := Chip.bit_gateFail (c.payload t).1 p 3 (egMsgId r.desc) (qProd (c.qdesc t.q) / 128) (i := 3) (by decide)
  have hdie : stDie (64 + p) = 0 := by simp only [stDie]; omega
  have hbusy : ∀ x : Chip, (x.busy (64 + p) 1).reg 0 (gateBlk p) = x.reg 0 (gateBlk p) := fun x =>
    x.reg_busy_off _ _ _ (by simp only [hdie, regKey, gateBlk]; omega)
  unfold Chip.egTile
  extract_lets rd sl die msg data mark crc c1 tile r0 r1 c2
  have hc1 : c1 = rd.1.gateFail p 3 msg die 3 := if_pos (by simp only [mark, ht, Bool.true_or])
  have hc2 : bit (c2.reg 0 (gateBlk p)) 3 = true := by
    rw [hbusy, hc1]
    exact hfail
  split
  · rw [Chip.reg_egDone, Chip.setRun_reg]
    exact hc2
  · split
    · rw [Chip.reg_egDone, Chip.setRun_reg]
      exact hc2
    · rw [Chip.setRun_reg]
      exact hc2

/-! ### The gate's decision and the launch -/

section
variable {c : Chip} {p : Nat}

/-- The gate decides a turn that is open. -/
theorem Chip.gateDecide_open (h : c.gateOpen p = true) :
    c.gateDecide p =
      let c1 := c.settle
      let f := c1.gateCause p
      if f.1 ≠ 0 then c1.withhold p f.1 f.2.1 f.2.2 else if c1.gateReady p then c1.release p else c1 := if_neg (by simp [h])

/-- The launch of a partition that started a turn: an undecided turn is withheld first. -/
theorem Chip.resultLaunch_started (hrun : c.running = true) (hpwr : c.pwrState = 0) (hst : (c.part p).started = true) :
    c.resultLaunch p =
      let c1 := (c.advanceTo (c.launchNs p - c.txCorr (c.sessPort (c.sessOf p)))).settle
      let c2 := if c1.gateOpen p then c1.withhold p (if (c1.gateCause p).1 = 0 then 6 else (c1.gateCause p).1) (c1.gateCause p).2.1 (c1.gateCause p).2.2 else c1
      if c2.negotiated p then c2.tq1Launch (c2.sessPort (c2.sessOf p)) else c2 := if_neg (by simp [hrun, hpwr, hst])

end

/-- Settles O44: the tile's cases, the gate's three outcomes, and the launch of a decided and of an undecided turn. -/
theorem egressAndGateDecide : Obligations.EgressAndGateDecide := by
  refine ⟨fun s p bad r t hw hr hty hop hdone hst ht => ?_, fun s p hl => ⟨fun hopen => ?_, fun hrun hpwr hstart => ?_⟩⟩
  · have hnext := Chip.egMsg_next (bad := bad) hr hty hop hdone hst ht
    refine ⟨fun hprov hpend => ?_, fun hprov => ?_, fun _ hpois => s.chip.bit_egTile_poison p.isLt bad r hpois⟩
    · exact next_work hw (hnext.trans (if_pos (by simp [hprov, hpend])))
    · exact next_work hw (hnext.trans (if_neg (by simp [hprov])))
  · have hdec := Chip.gateDecide_open hopen
    refine ⟨fun hfail => ?_, fun hnone hready => ?_, fun hnone hready => ?_⟩
    · exact next_awake hl (hdec.trans (if_pos hfail))
    · exact next_awake hl (hdec.trans ((if_neg (not_not.mpr hnone)).trans (if_pos hready)))
    · exact next_awake hl (hdec.trans ((if_neg (not_not.mpr hnone)).trans (if_neg (ne_true_of_eq_false hready))))
  · have hlaunch := Chip.resultLaunch_started hrun hpwr hstart
    intro c1
    refine ⟨fun hdecided hneg => ?_, fun hopen hnone => ?_⟩
    · refine next_awake hl (hlaunch.trans ?_)
      dsimp only
      rw [if_neg (ne_true_of_eq_false hdecided)]
      exact if_pos hneg
    · refine next_awake hl (hlaunch.trans ?_)
      dsimp only
      rw [if_pos hopen, if_pos hnone]

end Sys2Proof.Machine
end

section
/-! Requests of management sessions (R503, R508, R509): a station reset, power states, and the reset of a partition. -/
namespace Sys2Proof.Machine

/-! ### A station reset -/

/-- Every context that is replaced in turn is the new one. -/
theorem Chip.station_eachDo {α : Type} {k : α → Nat} {l : List α} {x : α} (h : x ∈ l) (v : Station) (c : Chip) :
    (eachDo l (fun y c => c.setStation (k y) v) c).station (k x) = v := by
  have hkeep : ∀ (l : List α) (c : Chip), c.station (k x) = v → (eachDo l (fun y c => c.setStation (k y) v) c).station (k x) = v := by
    intro l
    induction l with
    | nil => exact fun c hc => hc
    | cons y l ih =>
      intro c hc
      refine ih _ ?_
      by_cases hk : k x = k y
      · rw [hk, Chip.station_setStation]
      · rw [Chip.station_setStation_ne _ _ hk, hc]
  induction l generalizing c with
  | nil => exact absurd h List.not_mem_nil
  | cons y l ih =>
    rcases List.mem_cons.mp h with rfl | hx
    · exact hkeep l _ (c.station_setStation _ v)
    · exact ih hx _

/-- Registers of a die's counter blocks are apart from those at other offsets, on any die. -/
theorem regKey_cntBlk_ne {d e s o k : Nat} (hs : s < 128) (hk : k < 0x200) (ho : o < 2 ^ 24) (h : o < 0x150000 ∨ 0x160000 ≤ o) : regKey e o ≠ regKey d (cntBlk s + k) := by
  simp only [regKey, cntBlk]
  omega

theorem Chip.fab_clearCounters (c : Chip) (d s : Nat) :
    (eachDo ((List.range 4) ++ (List.range 22).map (· + 8)) (fun i c => c.setReg d (cntBlk s + 0x80 + 4 * i) 0) c).fab = c.fab :=
  List.foldlRecOn (motive := fun e : Chip => e.fab = c.fab) _ _ rfl (fun _ he _ _ => he)

/-- The counters a reset clears leave the registers outside the counter blocks. -/
theorem Chip.reg_clearCounters (c : Chip) {d e s o : Nat} (hs : s < 128) (ho : o < 2 ^ 24) (h : o < 0x150000 ∨ 0x160000 ≤ o) :
    (eachDo ((List.range 4) ++ (List.range 22).map (· + 8)) (fun i c => c.setReg d (cntBlk s + 0x80 + 4 * i) 0) c).reg e o = c.reg e o :=
  eachDo_reg (fun i hi c => by
    have hlt : i < 30 := by
      simp only [List.mem_append, List.mem_map, List.mem_range] at hi
      omega
    rw [Nat.add_assoc]
    exact c.reg_setReg_ne _ _ _ _ _ (regKey_cntBlk_ne hs (by omega) ho h)) c

/-- A station's list registers as a reset leaves them: zero, with the status ABORTED. -/
def Chip.clearList (c : Chip) (d o : Nat) : Chip := (((c.setReg64 d (o + 4) 0).setReg d (o + 0xC) 0).setReg d (o + 0x10) 0).setFld d (o + 0x14) 6 0 stAborted

theorem Chip.clearList_shows (c : Chip) (d o : Nat) :
    (c.clearList d o).reg64 d (o + 4) = 0 ∧ (c.clearList d o).reg d (o + 0xC) = 0 ∧ (c.clearList d o).reg d (o + 0x10) = 0 ∧ (c.clearList d o).fld d (o + 0x14) 6 0 = stAborted := by
  refine ⟨?_, ?_, ?_, Chip.fld_setFld_self _ _ _ _ _ _ (by decide) (by decide)⟩
  · rw [Chip.clearList, Chip.setFld, Chip.reg64_setReg_off _ d _ (by omega) (by omega), Chip.reg64_setReg_off _ d _ (by omega) (by omega),
      Chip.reg64_setReg_off _ d _ (by omega) (by omega), Chip.reg64_setReg64, Nat.zero_mod]
  · rw [Chip.clearList, Chip.setFld, Chip.reg_setReg_off _ d _ (by omega), Chip.reg_setReg_off _ d _ (by omega), Chip.reg_setReg_self, Nat.zero_mod]
  · rw [Chip.clearList, Chip.setFld, Chip.reg_setReg_off _ d _ (by omega), Chip.reg_setReg_self, Nat.zero_mod]

/-- Registers outside the list registers stay. -/
theorem Chip.reg_clearList_ne (c : Chip) {d e o p : Nat} (h : ∀ k < 0x18, regKey e p ≠ regKey d (o + k)) : (c.clearList d o).reg e p = c.reg e p := by
  rw [Chip.clearList, Chip.setFld, Chip.reg_setReg_ne _ _ _ _ _ _ (h 0x14 (by decide)), Chip.reg_setReg_ne _ _ _ _ _ _ (h 0x10 (by decide)),
    Chip.reg_setReg_ne _ _ _ _ _ _ (h 0xC (by decide)), Chip.setReg64, Chip.reg_setReg_ne _ _ _ _ _ _ (h 8 (by decide)), Chip.reg_setReg_ne _ _ _ _ _ _ (h 4 (by decide))]

section
variable (c : Chip) (st : Nat)

/-- A station reset leaves the queues. -/
theorem Chip.queues_stationReset : (c.stationReset st).fab.queues = c.fab.queues := by
  unfold Chip.stationReset
  extract_lets d o c1 keep fab0 cmp0 c2 c3 c4
  have hc1 : c1.fab.queues = c.fab.queues := eachDo_queues (f := fun p c => c.setStation (stKey st p) {}) (fun _ _ => rfl) _ c
  rw [Chip.setFld_fab, c3.fab_clearCounters d (stIdx st)]
  exact hc1

/-- A station reset ends the station's commands in every partition. -/
theorem Chip.station_stationReset {p : Nat} (hp : p < 4) : (c.stationReset st).station (stKey st p) = {} := by
  unfold Chip.stationReset
  extract_lets d o c1 keep fab0 cmp0 c2 c3 c4
  have hc1 : c1.station (stKey st p) = {} := Chip.station_eachDo (k := stKey st) (List.mem_range.mpr hp) {} c
  rw [Chip.station, Chip.setFld_fab, c3.fab_clearCounters d (stIdx st)]
  exact hc1

/-- The list registers are zero after a station reset, the status is ABORTED, and the reset is counted. -/
theorem Chip.regs_stationReset :
    (c.stationReset st).reg64 (stDie st) (stBlk (stIdx st) + 4) = 0 ∧ (c.stationReset st).reg (stDie st) (stBlk (stIdx st) + 0xC) = 0 ∧
      (c.stationReset st).reg (stDie st) (stBlk (stIdx st) + 0x10) = 0 ∧ (c.stationReset st).fld (stDie st) (stBlk (stIdx st) + 0x14) 6 0 = stAborted ∧
      (c.stationReset st).fld 0 (pwrBlk + 0x18) 15 0 = min 0xFFFF (c.fld 0 (pwrBlk + 0x18) 15 0 + 1) := by
  have hidx : stIdx st < 128 := Nat.mod_lt _ (by decide)
  unfold Chip.stationReset
  extract_lets d o c1 keep fab0 cmp0 c2 c3 c4
  have hblk : o + 0x18 ≤ 0x50000 := by
    simp only [o, stBlk]
    omega
  have hlist : ∀ k < 0x18, ∀ v, (c4.setFld 0 (pwrBlk + 0x18) 15 0 v).reg d (o + k) = (c2.clearList d o).reg d (o + k) := fun k hk v => by
    rw [Chip.setFld, Chip.reg_setReg_ne _ _ _ _ _ _ (by simp only [regKey, pwrBlk]; omega)]
    exact c3.reg_clearCounters hidx (by omega) (.inl (by omega))
  have hc1 : c1.reg 0 (pwrBlk + 0x18) = c.reg 0 (pwrBlk + 0x18) := eachDo_reg (f := fun p c => c.setStation (stKey st p) {}) (fun _ _ _ => rfl) c
  have hcount : c4.reg 0 (pwrBlk + 0x18) = c.reg 0 (pwrBlk + 0x18) := by
    refine (c3.reg_clearCounters hidx (by decide) (.inr (by decide))).trans (Eq.trans ?_ hc1)
    exact c2.reg_clearList_ne (fun k hk => by simp only [regKey, pwrBlk]; omega)
  obtain ⟨hbase, hlen, hnext, hstatus⟩ := c2.clearList_shows d o
  refine ⟨?_, (hlist 0xC (by decide) _).trans hlen, (hlist 0x10 (by decide) _).trans hnext, ?_, ?_⟩
  · rw [Chip.reg64, hlist 4 (by decide), show o + 4 + 4 = o + 8 from rfl, hlist 8 (by decide)]
    exact hbase
  · rw [Chip.fld, hlist 0x14 (by decide)]
    exact hstatus
  · rw [Chip.fld_setFld_self _ _ _ _ _ _ (by decide) (by decide), Chip.fld, hcount, ← Chip.fld]
    exact Nat.mod_eq_of_lt (by omega)

end

/-- Settles O41: the request is taken, and the reset's frame and registers. -/
theorem stationResetClearsStation : Obligations.StationResetClearsStation := by
  intro s st who hl hopen hreal
  have hreset : s.chip.askStationReset st who = (s.chip.stationReset st).settle := if_pos (by simp [hopen, hreal])
  exact ⟨next_awake hl hreset, s.chip.queues_stationReset st, fun p => s.chip.station_stationReset st p.isLt, s.chip.regs_stationReset st⟩

/-! ### Power states and partition resets -/

section
variable {c : Chip} {who : Src} (h : c.takesPower who = true)
include h

/-- A request for IDLE or PARK waits for the next boundary. -/
theorem Chip.askQuiet_taken (hp : c.pwrState ≠ 2) (v : Nat) : c.askQuiet v who = Chip.setFld { c with pwr := { c.pwr with want := v } } 0 pwrBlk 2 2 1 :=
  if_neg (by simp [h, hp])

/-- A request for ACTIVE starts the resume. -/
theorem Chip.askActive_taken (hp : c.pwrState ≠ 0) :
    c.askActive who = { c.setReg 0 pwrBlk 3 with pwr := { c.pwr with move := if c.pwrState = 2 then 3 else 4, want := 0 } } := if_neg (by simp [h, hp])

end

/-- The resume shows in PWR_STATE. -/
theorem Chip.pwrState_setReg (c : Chip) (w : Pwr) : Chip.pwrState { c.setReg 0 pwrBlk 3 with pwr := w } = 3 :=
  congrArg (bits · 1 0) (c.reg_setReg_self 0 pwrBlk 3)

/-- A request that is not taken changes nothing. -/
theorem Chip.ask_refused {c : Chip} {who : Src} (h : c.takesPower who = false) (v : Nat) : c.askQuiet v who = c ∧ c.askActive who = c :=
  ⟨if_pos (by simp [h]), if_pos (by simp [h])⟩

/-- Settles O57: requests taken and not taken. -/
theorem powerRequestsTaken : Obligations.PowerRequestsTaken := by
  intro s who hl
  refine ⟨fun h hp => ⟨next_awake hl (Chip.askQuiet_taken h hp 1), next_awake hl (Chip.askQuiet_taken h hp 2)⟩,
    fun h hp => ⟨_, next_awake hl (Chip.askActive_taken h hp), Chip.pwrState_setReg _ _, rfl, rfl⟩,
    fun p hopen hpart => next_awake hl (if_pos (by simp [hopen, hpart])), fun h => ?_⟩
  exact ⟨next_awake hl (Chip.ask_refused h 1).1, next_awake hl (Chip.ask_refused h 2).1, next_awake hl (Chip.ask_refused h 1).2⟩

end Sys2Proof.Machine
end

section
/-! Monitors (R377, R496, R499, R501, R512, R535): trips and warnings, ageing readings, and what a PMBus poll keeps. -/
namespace Sys2Proof.Machine

/-! ### Trips and warnings -/

/-- A domain that is not on and does not report good trips, unless its die is fenced. -/
theorem Chip.domTimeout_off {c : Chip} {dom : Nat} (hoff : bit (c.reg 0 (pwrBlk + 8)) (domBit dom) = false) (hd : c.fenced (domDie dom) = false) : c.domTimeout dom = c.supplyTrip dom :=
  if_neg (by simp [hoff, hd])

/-- A field of one bit that is written shows that bit. -/
theorem Chip.bit_setFld (c : Chip) (d off v : Nat) {i : Nat} (hi : i < 32) : bit ((c.setFld d off i i v).reg d off) i = decide (v % 2 = 1) := by
  have hfld : (c.setFld d off i i v).reg d off >>> i % 2 = v % 2 := by
    have := c.fld_setFld_self d off i i v le_rfl hi
    rwa [Chip.fld, bits, Nat.add_sub_cancel_left] at this
  rw [bit, Nat.testBit_eq_decide_div_mod_eq, ← Nat.shiftRight_eq_div_pow, hfld]

theorem Chip.flt_warm (c : Chip) (d i : Nat) : (c.warm d i).flt = c.flt := by rw [Chip.warm, Chip.setFld_flt]

theorem Chip.flt_cool (c : Chip) (d : Nat) : (c.cool d).flt = c.flt := by rw [Chip.cool, Chip.setFld_flt]

/-- A thermal trip's event. -/
theorem Chip.rises_thermalTrip (c : Chip) (d i : Nat) :
    (c.thermalTrip d i).flt.rises = c.flt.rises ++ [{ bit := supplyBit d, cause := 0x1A, die := d, src := if d = 0 then 0 else 16, cls := 1 }] := by
  rw [Chip.thermalTrip, Chip.monitor, Chip.rise, c.flt_warm]

/-- A thermal warning shows in MON_STATUS. -/
theorem Chip.bit_warm (c : Chip) {d : Nat} (hd : d < 8) (i : Nat) : bit ((c.warm d i).reg 0 (pwrBlk + 0x24)) d = true := Chip.bit_setFld _ 0 (pwrBlk + 0x24) 1 (by omega)

/-- A die that has cooled shows no warning. -/
theorem Chip.bit_cool (c : Chip) {d : Nat} (hd : d < 8) : bit ((c.cool d).reg 0 (pwrBlk + 0x24)) d = false := Chip.bit_setFld _ 0 (pwrBlk + 0x24) 0 (by omega)

/-! ### Ageing -/

/-- An oscillator's first count is kept. -/
theorem Chip.ageing_first {c : Chip} {d i : Nat} (n : Nat) (hd : c.fenced d = false) (h : tabGet 0 c.nv.log.rings (d * 16 + i) = 0) :
    c.ageing d i n = { c with nv := { c.nv with log := { c.nv.log with rings := tabSet 0 c.nv.log.rings (d * 16 + i) n } } } := by
  rw [Chip.ageing, if_neg (ne_true_of_eq_false hd)]
  exact if_pos h

/-- A later count that is a whole slowdown below the first shows it. -/
theorem Chip.ageing_whole {c : Chip} {d i n k : Nat} (hd : c.fenced d = false) (h : tabGet 0 c.nv.log.rings (d * 16 + i) = k) (hk : k ≠ 0) (hn : n ≤ k) (hmod : (k - n) * 10000 % k = 0) :
    c.ageing d i n = c.setReg d (pwrBlk + 0x40 + 4 * i) (wrap 16 (((k - n) * 10000 / k : Nat) : Int)) := by
  have hnum : ((k : Int) - n) * 10000 = (((k - n) * 10000 : Nat) : Int) := by
    rw [Nat.cast_mul, Nat.cast_sub hn]
    rfl
  rw [Chip.ageing, if_neg (ne_true_of_eq_false hd)]
  dsimp only
  rw [h, if_neg hk, hnum, if_pos (by exact_mod_cast hmod), Int.natCast_ediv]

/-- A number that fits is its own wrap. -/
theorem wrap_natCast {w x : Nat} (h : x < 2 ^ w) : wrap w (x : Int) = x := by
  rw [wrap, ← Int.natCast_mod, Int.toNat_natCast, Nat.mod_eq_of_lt h]

/-! ### PMBus -/

/-- The last reading of a poll stands where its device's readings are kept. -/
theorem Chip.pm_pmPoll (c : Chip) {reads : PmReads} {x : PmRead} (h : x ∈ reads.getLast?) :
    tabGet 0 (c.pmPoll reads).pwr.pm x.addr = x.volt.toNat + x.curr.toNat * 65536 + x.temp.toNat * 4294967296 := by
  obtain ⟨l, rfl⟩ := List.getLast?_eq_some_iff.mp h
  rw [Chip.pmPoll, List.foldl_append, List.foldl_cons, List.foldl_nil, tabGet_tabSet_self]

/-- Settles O58: each monitor's effect. -/
theorem monitorsRaiseClassA : Obligations.MonitorsRaiseClassA := by
  intro s
  refine ⟨fun dom => ⟨rfl, rfl, fun hl hoff hd => next_awake hl (Chip.domTimeout_off hoff hd)⟩, rfl, fun d i => rfl, fun d i => ?_, fun d i n hl hd => ⟨fun h => ?_, fun k h hk hn hmod hlt => ?_⟩,
    fun reads hl => ⟨_, next_awake hl rfl, fun x hx => s.chip.pm_pmPoll hx⟩, fun hl => ⟨next_awake hl rfl, next_awake hl rfl⟩⟩
  · exact ⟨_, _, _, rfl, s.chip.bit_warm d.isLt i, s.chip.flt_warm d i, rfl, ⟨_, s.chip.rises_thermalTrip d i, rfl, rfl, rfl⟩, rfl, s.chip.bit_cool d.isLt, s.chip.flt_cool d⟩
  · exact ⟨_, next_live hl (Chip.ageing_first n hd h), tabGet_tabSet_self _ _ _ _, rfl⟩
  · refine ⟨_, next_live hl (Chip.ageing_whole hd h hk hn hmod), ?_⟩
    rw [wrap_natCast (by omega)]
    exact (Chip.reg_setReg_self _ _ _ _).trans (Nat.mod_eq_of_lt (by omega))

end Sys2Proof.Machine
end

section
/-! The debug port and the spindle lock (R490–R494): what a lock keeps, the writes that arm it, and the reads of the scan network. -/
namespace Sys2Proof.Machine

/-! ### A lock -/

section
variable {c : Chip} (hu : c.obs.unlocked = true) (hA : c.classA = false) (hl : c.locked = false)
include hu hA hl

/-- A trigger locks the spindle while the port is unlocked, no class A is latched and no lock holds. -/
theorem Chip.spLock_takes (src b : Nat) :
    c.spLock src b =
      let c1 := c.setReg 0 (obsBlk + 0x28) (1 + src <<< 1 + b <<< 3)
      let c2 := (c1.setReg64 0 (obsBlk + 0x2C) c1.nowNs).setReg 0 (obsBlk + 0x34) c1.turn32
      { c2 with net := { c2.net with ports := tabMap {} (fun _ x => { x with wire := none }) c2.net.ports },
                sns := { c2.sns with ports := tabMap {} (fun _ x => { x with so := none }) c2.sns.ports } } := if_neg (by simp [hu, hA, hl])

/-- What a lock writes: SPL_STATUS, the time and the turn. -/
theorem Chip.regs_spLock (src b : Nat) :
    (c.spLock src b).regs =
      (((c.setReg 0 (obsBlk + 0x28) (1 + src <<< 1 + b <<< 3)).setReg64 0 (obsBlk + 0x2C) c.nowNs).setReg 0 (obsBlk + 0x34) c.turn32).regs := by
  rw [Chip.spLock_takes hu hA hl src b]
  dsimp only
  rw [Chip.turn32, Chip.reg_setReg_off _ 0 _ (by decide)]
  rfl

/-- The registers of a lock. -/
theorem Chip.spLock_shows (src b : Nat) :
    (c.spLock src b).reg 0 (obsBlk + 0x28) = (1 + src <<< 1 + b <<< 3) % 2 ^ 32 ∧ (c.spLock src b).reg64 0 (obsBlk + 0x2C) = c.nowNs % 2 ^ 64 ∧
      (c.spLock src b).reg 0 (obsBlk + 0x34) = c.turn32 ∧ (c.spLock src b).reg 0 (obsBlk + 0x1C) = c.reg 0 (obsBlk + 0x1C) := by
  have hreg := Chip.reg_of_regs (Chip.regs_spLock hu hA hl src b) 0
  have hturn : c.turn32 < 2 ^ 32 := (tabGet 0#32 c.regs _).isLt
  refine ⟨?_, ?_, ?_, ?_⟩
  · rw [hreg, Chip.reg_setReg_off _ 0 _ (by decide), Chip.setReg64, Chip.reg_setReg_off _ 0 _ (by decide), Chip.reg_setReg_off _ 0 _ (by decide), Chip.reg_setReg_self]
  · rw [Chip.reg64, hreg, hreg, ← Chip.reg64, Chip.reg64_setReg_off _ 0 _ (by decide) (by decide), Chip.reg64_setReg64]
  · rw [hreg, Chip.reg_setReg_self, Nat.mod_eq_of_lt hturn]
  · rw [hreg, Chip.reg_setReg_off _ 0 _ (by decide), Chip.setReg64, Chip.reg_setReg_off _ 0 _ (by decide), Chip.reg_setReg_off _ 0 _ (by decide), Chip.reg_setReg_off _ 0 _ (by decide)]

/-- The spindle is locked. -/
theorem Chip.locked_spLock (src b : Nat) : (c.spLock src b).locked = true := by
  rw [Chip.locked, (Chip.spLock_shows hu hA hl src b).1, bit, Nat.testBit_eq_decide_div_mod_eq, Nat.shiftLeft_eq, Nat.shiftLeft_eq]
  exact decide_eq_true (by omega)

end

/-! ### Arming -/

section
variable {c : Chip} (hu : c.obs.unlocked = true)
include hu

/-- The debug port writes SPL_ARM, and mode 3 acts. -/
theorem Chip.writeReg_splArm {off : Nat} (ho : off = obsBlk + 0x1C) (v : Nat) : c.writeReg .debug 0 off v = (c.setReg 0 off (v &&& 0xFF)).armNow := by
  have hw : isW1c 0 off = false := by rw [ho]; decide
  have hm : rwMask 0 off = 0xFF := by rw [ho]; decide
  have hheld : c.writeHeld .debug 0 off = false := by rw [ho]; rfl
  have hoff : off ≠ fcBlk ∧ off ≠ fcBlk + 4 ∧ off ≠ fcBlk + 0x20 ∧ off ≠ pwrBlk + 4 ∧ off ≠ pwrBlk + 0x14 ∧ off % 4 = 0 := by rw [ho]; decide
  simpa [Chip.writeReg, Chip.reaches, hu, Chip.dieOn, hw, hm, hheld, hoff] using fun hne => absurd ho hne

/-- The debug port writes the words of SPL_TURN. -/
theorem Chip.writeReg_splTurn {off v : Nat} (ho : off = obsBlk + 0x20 ∨ off = obsBlk + 0x24) (hv : v < 2 ^ 32) : c.writeReg .debug 0 off v = c.setReg 0 off v := by
  have hw : isW1c 0 off = false := by rcases ho with rfl | rfl <;> decide
  have hm : rwMask 0 off = 0xFFFFFFFF := by rcases ho with rfl | rfl <;> decide
  have hheld : c.writeHeld .debug 0 off = false := by rcases ho with rfl | rfl <;> rfl
  have hoff : off ≠ fcBlk ∧ off ≠ fcBlk + 4 ∧ off ≠ fcBlk + 0x20 ∧ off ≠ pwrBlk + 4 ∧ off ≠ pwrBlk + 0x14 ∧ off ≠ obsBlk + 0x1C ∧ off % 4 = 0 := by
    rcases ho with rfl | rfl <;> decide
  have hand : v &&& 0xFFFFFFFF = v := (Nat.and_two_pow_sub_one_eq_mod v 32).trans (Nat.mod_eq_of_lt hv)
  simp [Chip.writeReg, Chip.reaches, hu, Chip.dieOn, hw, hm, hheld, hoff, hand]

/-- A mode and a bit are kept as SPL_ARM. -/
theorem Chip.arm_debug {m b : Nat} (hm : m < 4) (hb : b < 64) : c.arm .debug m b = (c.setReg 0 (obsBlk + 0x1C) (m + 4 * b)).armNow := by
  have hval : (m + b <<< 2) &&& 0xFF = m + 4 * b := by
    rw [Nat.shiftLeft_eq]
    exact (Nat.and_two_pow_sub_one_eq_mod _ 8).trans (by omega)
  rw [Chip.arm, Chip.writeReg_splArm hu rfl, hval]

/-- A mode other than 3 only arms. -/
theorem Chip.arm_waits {m b : Nat} (hm : m < 3) (hb : b < 64) : c.arm .debug m b = c.setReg 0 (obsBlk + 0x1C) (m + 4 * b) := by
  have hmode : (c.setReg 0 (obsBlk + 0x1C) (m + 4 * b)).fld 0 (obsBlk + 0x1C) 1 0 ≠ 3 := by
    rw [Chip.fld, Chip.reg_setReg_self, bits, Nat.shiftRight_zero]
    omega
  rw [Chip.arm_debug hu (by omega) hb]
  exact if_neg hmode

/-- Mode 3 locks at once. -/
theorem Chip.arm_now : c.arm .debug 3 0 = (c.setReg 0 (obsBlk + 0x1C) 3).spLock 3 0 := by
  have hmode : (c.setReg 0 (obsBlk + 0x1C) 3).fld 0 (obsBlk + 0x1C) 1 0 = 3 := by
    rw [Chip.fld, Chip.reg_setReg_self]
    rfl
  rw [Chip.arm_debug hu (by decide) (by decide)]
  exact if_pos hmode

/-- Mode 1 keeps its turn. -/
theorem Chip.armTurn_debug {t : Nat} (ht : t < 2 ^ 64) : c.armTurn .debug t = (c.setReg64 0 (obsBlk + 0x20) t).setReg 0 (obsBlk + 0x1C) 1 := by
  rw [Chip.armTurn, Chip.writeReg_splTurn hu (.inl rfl) (Nat.mod_lt _ (by decide)), Chip.writeReg_splTurn (c := c.setReg 0 _ _) hu (.inr rfl) (by omega)]
  exact Chip.arm_waits (c := (c.setReg 0 _ _).setReg 0 _ _) hu (by decide) (by decide)

end

/-- A write of SPL_ARM is no lock. -/
theorem Chip.locked_setArm (c : Chip) (v : Nat) : (c.setReg 0 (obsBlk + 0x1C) v).locked = c.locked := congrArg (bit · 0) (c.reg_setReg_off 0 v (by decide))

theorem Chip.classA_setArm (c : Chip) (v : Nat) : (c.setReg 0 (obsBlk + 0x1C) v).classA = c.classA := congrArg (bit · 6) (c.reg_setReg_off 0 v (by decide))

/-- What shows of a turn's trigger. -/
theorem Chip.armTurn_shows {c : Chip} (hu : c.obs.unlocked = true) (hl : c.locked = false) {t : Nat} (ht : t < 2 ^ 64) :
    (c.armTurn .debug t).locked = false ∧ (c.armTurn .debug t).reg 0 (obsBlk + 0x1C) = 1 ∧ (c.armTurn .debug t).reg64 0 (obsBlk + 0x20) = t := by
  rw [Chip.armTurn_debug hu ht]
  refine ⟨?_, Chip.reg_setReg_self _ _ _ _, ?_⟩
  · rw [Chip.locked_setArm, Chip.locked, Chip.setReg64, Chip.reg_setReg_off _ 0 _ (by decide), Chip.reg_setReg_off _ 0 _ (by decide)]
    exact hl
  · rw [Chip.reg64_setReg_off _ 0 _ (by decide) (by decide), Chip.reg64_setReg64, Nat.mod_eq_of_lt ht]

/-- What shows of mode 3. -/
theorem Chip.arm_now_shows {c : Chip} (hu : c.obs.unlocked = true) (hA : c.classA = false) (hl : c.locked = false) :
    (c.arm .debug 3 0).locked = true ∧ (c.arm .debug 3 0).fld 0 (obsBlk + 0x28) 2 1 = 3 ∧ (c.arm .debug 3 0).reg 0 (obsBlk + 0x1C) = 3 := by
  have hA1 : (c.setReg 0 (obsBlk + 0x1C) 3).classA = false := (c.classA_setArm 3).trans hA
  have hl1 : (c.setReg 0 (obsBlk + 0x1C) 3).locked = false := (c.locked_setArm 3).trans hl
  obtain ⟨hstatus, -, -, harm⟩ := Chip.spLock_shows (c := c.setReg 0 (obsBlk + 0x1C) 3) hu hA1 hl1 3 0
  rw [Chip.arm_now hu]
  refine ⟨Chip.locked_spLock (c := c.setReg 0 (obsBlk + 0x1C) 3) hu hA1 hl1 3 0, ?_, harm.trans (Chip.reg_setReg_self _ _ _ _)⟩
  rw [Chip.fld, hstatus]
  rfl

/-! ### The scan network -/

section
variable {c : Chip} (hl : c.locked = true)
include hl

/-- A scan during a lock answers. -/
theorem Chip.scan_reg (d : Die) (off : BitVec 24) : c.scan (.reg d off) = c.answer (c.regVal d off.toNat) := if_neg (by simp [hl])

theorem Chip.scan_fifo (k d u out i) : c.scan (.fifo k d u out i) = c.answer (c.fifoEntry k d u (b2n out) i) := if_neg (by simp [hl])

/-- A word of a die buffer is read. -/
theorem Chip.scan_db {a : BitVec 48} {d off : Nat} (ha : c.decode a.toNat = .db d off) (hd : c.dieOn d = true) : c.scan (.sram a) = c.answer (c.scanWord a.toNat) := by
  rw [Chip.scan, if_neg (by simp [hl]), ha]
  exact congrArg c.answer (if_pos hd)

/-- DDR5 cannot be read. -/
theorem Chip.scan_ddr {a : BitVec 48} {d off : Nat} (ha : c.decode a.toNat = .ddr d off) : c.scan (.sram a) = c.answer 0 := by
  rw [Chip.scan, if_neg (by simp [hl]), ha]

end

/-- Settles O59: each trigger's lock, each mode's registers, and each target of a scan. -/
theorem spindleLockStopsDevice : Obligations.SpindleLockStopsDevice := by
  intro s
  refine ⟨rfl, rfl, fun hu hA hl => ⟨fun ns hns => ?_, ?_, fun b => ?_, fun turn => ?_⟩, fun hl => ⟨fun d off => ?_, fun a d off ha hd => ?_, fun a d off ha => ?_, fun k d u out i => ?_⟩⟩
  · obtain ⟨hstatus, htime, hturn, -⟩ := Chip.spLock_shows hu hA hl 0 0
    exact ⟨_, next_put (if_pos hns), Chip.locked_spLock hu hA hl 0 0, hstatus, htime, hturn⟩
  · exact ⟨_, next_awake hl rfl, Chip.arm_now_shows hu hA hl⟩
  · refine ⟨_, next_awake hl (Chip.arm_waits hu (by decide) b.isLt), (Chip.locked_setArm _ _).trans hl, (Chip.reg_setReg_self _ _ _ _).trans ?_⟩
    omega
  · exact ⟨_, next_awake hl rfl, Chip.armTurn_shows hu hl turn.isLt⟩
  · exact next_put (Chip.scan_reg hl d off)
  · exact next_put (Chip.scan_db hl ha hd)
  · exact next_put (Chip.scan_ddr hl ha)
  · exact next_put (Chip.scan_fifo hl k d u out i)

end Sys2Proof.Machine
end

section
/-! A dump whose bytes are all sent while its area still holds them (R488, R489). -/
namespace Sys2Proof.Machine

/-- In turn 1, the dump of partition 0's turn 0 that has sent the one byte of its area on CD1. -/
def sentDump : Dump := { part := 0, turn := 0, limit := 0, sess := 0, ref := 0, layer := 0, opId := 0, outIx := 0, job := 0, die := 1, sentBytes := 1 }

/-- A device with that dump alone. -/
def sentDumpState : State := ⟨[], { regs := [(regKey 0 tsBlk, 1#32)], obs := { dumps := [sentDump], dump := [(1, [0#8])] } }⟩

/-- DUMP_SEND keeps the dump: with no message left it goes back to the first byte, which is unsent again. -/
theorem length_dumps_sentDump {t : State} (h : exec (.dumpSend 0) sentDumpState = .next t) : t.chip.obs.dumps.length = 1 := by
  rw [← Host.Outcome.next.inj h]
  decide

/-- Refutes O56: the clause of DUMP_SEND with nothing left to send frees the area whatever was sent before. In `sentDumpState` the model returns to offset 0, finds the area's byte unsent and
keeps the dump. -/
theorem not_observationServed : ¬ Obligations.ObservationServed := by
  intro hserved
  obtain ⟨-, -, hdump⟩ := hserved sentDumpState
  obtain ⟨t, ht, hfreed⟩ := hdump 0 sentDump (by decide) (by decide) (by decide) (by decide)
  exact absurd ((congrArg List.length hfreed).symm.trans (length_dumps_sentDump ht)) (by decide)

end Sys2Proof.Machine
end

section
/-! Messages and sessions of the mailbox (R448, R452–R460): fields of a message that the device sends, what a reply leaves of its session, and the life of a session. -/
namespace Sys2Proof.Machine

/-! ### Fields of a sent message -/

section
variable (h : MsgHdr) (len : Nat) (t : Bytes)

theorem MsgHdr.length_bytes : (h.bytes len).length = 32 := by simp only [MsgHdr.bytes, List.length_append, length_toLE]

/-- The type stands at byte 6 of a message. -/
theorem MsgHdr.leAt_ty : leAt (h.bytes len ++ t) 6 2 = h.ty % 65536 := by
  simp only [MsgHdr.bytes, leAt, slice, toLE, List.cons_append, List.nil_append, List.drop_succ_cons, List.drop_zero, List.take_succ_cons, List.take_zero, fromLE, BitVec.toNat_ofNat]
  omega

/-- The status stands at byte 10. -/
theorem MsgHdr.leAt_status : leAt (h.bytes len ++ t) 10 2 = h.status % 65536 := by
  simp only [MsgHdr.bytes, leAt, slice, toLE, List.cons_append, List.nil_append, List.drop_succ_cons, List.drop_zero, List.take_succ_cons, List.take_zero, fromLE, BitVec.toNat_ofNat]
  omega

/-- The body follows the 32 bytes of the header. -/
theorem MsgHdr.slice_body {b : Bytes} {n : Nat} (hb : b.length = n) : slice (h.bytes len ++ (b ++ t)) 32 n = b := by
  rw [slice, List.drop_left' (h.length_bytes len), List.take_left' hb]

end

/-- A message is not empty. -/
theorem plainMsg_ne_nil (h : MsgHdr) (body : Bytes) : plainMsg h body ≠ [] := by
  intro hnil
  have hlen : (plainMsg h body).length = 0 := congrArg List.length hnil
  simp [plainMsg, h.length_bytes] at hlen

theorem leAt_status_plainMsg (h : MsgHdr) (body : Bytes) : leAt (plainMsg h body) 10 2 = h.status % 65536 := by
  rw [plainMsg, List.append_assoc]
  exact h.leAt_status _ _

/-! ### What a reply leaves of its session -/

section
variable (c : Chip) (n : Nat)

theorem Chip.sess_queueFrame (port q : Nat) (f : Frame) (i : Nat) : (c.queueFrame port q f).sess i = c.sess i := rfl

/-- A message sent takes the session's next number. -/
theorem Chip.sess_tell (q ty flags status ref : Nat) (body : Bytes) :
    (c.tell n q ty flags status ref body).2.sess n = { c.sess n with tx := ((c.sess n).tx + 1) % 2 ^ 32 } := by
  rw [Chip.tell, Chip.sess_queueFrame, Chip.nextSeq, Chip.sess_modSess]

/-- A reply takes the session's next number and is cached. -/
theorem Chip.sess_reply (ref status : Nat) (body : Bytes) :
    ∃ b, b ≠ [] ∧ leAt b 10 2 = status % 65536 ∧ (c.reply n ref status body).sess n = { c.sess n with tx := ((c.sess n).tx + 1) % 2 ^ 32, cache := b } := by
  have hcount : (if status = 0 then c else c.addReg 0 (mbBlk + 0x18) 1).sess n = c.sess n := by split <;> rfl
  rw [Chip.reply]
  dsimp only
  rw [Chip.sess_modSess, Chip.sess_tell, hcount]
  exact ⟨_, plainMsg_ne_nil _ _, leAt_status_plainMsg _ _, rfl⟩

/-- A session that has ended is as if it never was. -/
theorem Chip.sess_endSession : (c.endSession n).sess n = {} := Chip.sess_modSess _ n _

end

/-! ### Partition sessions -/

section
variable {c : Chip} {m : Dgram} {r : Req} {n : Nat}

/-- What shows of a HELLO_ACK: the negotiation waits for the boundary. -/
theorem Chip.helloAck_shows (c : Chip) (n : Nat) (r : Req) (g : Neg) : ((c.helloAck n r g).sess n).next = some (some g) ∧ ((c.helloAck n r g).sess n).neg = (c.sess n).neg := by
  rw [Chip.helloAck, Chip.sess_modSess, Chip.sess_queueFrame, Chip.sess_modSess]
  exact ⟨rfl, rfl⟩

/-- A HELLO in its form, of a served partition, is acknowledged with what it negotiates. -/
theorem Chip.hello_negotiates {g : Neg} (hroute : c.route m false = .to n r) (hn : n < 4) (hty : r.ty = 1) (hclean : r.clean = true) (hsess : r.sess = n) (hlen : r.body.length = 16)
    (hz : zeroAt r.body 4 12 = true) (hserved : c.partServed n = true) (hretry : ((c.sess n).live && r.seq == (c.sess n).rx && leAt (c.sess n).cache 6 2 == 2) = false)
    (hg : c.negotiate n r = some g) : c.hello m = c.helloAck n r g := by
  rw [Chip.hello, hroute]
  dsimp only
  rw [if_neg (not_not.mpr hty), if_neg (Nat.not_le.mpr hn), if_neg (ne_true_of_eq_false hretry), if_neg (by simp [hclean, hsess, hlen, hz]), if_neg (by simp [hserved]), hg]

/-- A BYE that is asked for ends what a partition session has negotiated at the next boundary. -/
theorem Chip.byeReply_served (h : c.asks m false n r) (hn : n < 8) (hty : r.ty = 3) (hb : r.body = []) :
    c.byeReply m = (if n < 4 then (c.heard m n r).modSess n (fun x => { x with next := some none }) else c.heard m n r).reply n r.seq 0 [] :=
  Chip.request_served h hty (by decide) rfl (ReqKind.from_host rfl rfl hn) (by simp [hb]) rfl rfl

/-- A partition session's BYE does no more. -/
theorem Chip.bye_partition (h : c.asks m false n r) (hn : n < 4) (hty : r.ty = 3) (hb : r.body = []) :
    c.bye m = ((c.heard m n r).modSess n (fun x => { x with next := some none })).reply n r.seq 0 [] := by
  have ⟨_, hroute, _⟩ := h
  rw [Chip.bye, hroute]
  dsimp only
  rw [if_neg (by simp [Nat.not_le.mpr hn]), Chip.byeReply_served h (by omega) hty hb, if_pos hn]

/-! ### Management sessions -/

/-- A session that has heard a request keeps all but its number, its cache and its peer. -/
theorem Chip.sess_heard (c : Chip) (m : Dgram) (n : Nat) (r : Req) :
    (c.heard m n r).sess n =
      { c.sess n with lastNs := c.nowNs, mac := m.srcMac.toNat, ip := m.srcIp.toNat, udp := m.srcUdp.toNat, port := m.port, rx := r.seq, live := true, cache := [] } := by
  rw [Chip.heard, Chip.sess_modSess, Chip.notePeer, Chip.sess_modSess]

/-- A management session's BYE ends it at once. -/
theorem Chip.bye_mgmt (h : c.asks m false n r) (hlo : 4 ≤ n) (hhi : n < 8) (hlive : (c.sess n).live = true) (hty : r.ty = 3) (hb : r.body = []) :
    c.bye m = (c.byeReply m).endSession n := by
  have ⟨_, hroute, hasked, _, hnew, _⟩ := h
  have hopen : (c.sess n).isOpen = true := by rwa [Chip.sessOpen, if_neg (by omega), if_pos hhi] at hasked
  obtain ⟨-, hseq⟩ := hnew hlive
  obtain ⟨b, hne, hstatus, hsess⟩ := (c.heard m n r).sess_reply n r.seq 0 []
  have hreply : c.byeReply m = (c.heard m n r).reply n r.seq 0 [] := by rw [Chip.byeReply_served h hhi hty hb, if_neg (by omega)]
  rw [Chip.bye, hroute]
  dsimp only
  rw [hreply, hsess, c.sess_heard]
  exact if_pos (by simp [hlo, hhi, hseq, hopen, hne, hstatus])

/-- A MGMT_OPEN in its form, of no session that was answered already, reserves the lowest free session. -/
theorem Chip.mgmtOpen_free (hrec : c.recovering = false) (hup : c.linkUp m.port = true) (hrole : c.role m.port = 2) (hudp : m.dstUdp.toNat = 19290)
    (hmsg : parseMsg m.body false = some r) (hty : r.ty = 4) (hclean : r.clean = true) (hb : r.body = []) (hagain : c.reopened m r = none)
    (hfree : [4, 5, 6, 7].find? (fun s => !c.inUse s) = some n) : c.mgmtOpen m = c.challenge m r n := by
  rw [Chip.mgmtOpen, if_neg (by simp [hrec, hup, hrole, hudp]), hmsg]
  dsimp only
  rw [if_neg (not_not.mpr hty), hagain]
  dsimp only
  rw [if_neg (by simp [hclean, hb]), hfree]

/-- The challenged session is reserved, and not yet open. -/
theorem Chip.challenge_shows (c : Chip) (m : Dgram) (r : Req) (n : Nat) : ((c.challenge m r n).sess n).reserved = true ∧ ((c.challenge m r n).sess n).isOpen = false := by
  rw [Chip.challenge, Chip.sess_modSess, Chip.sess_tell, Chip.sess_modSess]
  exact ⟨rfl, rfl⟩

/-- A MGMT_AUTH over the session's nonce, signed by a good slot, opens it. -/
theorem Chip.mgmtAuth_opens (hroute : c.route m true = .to n r) (hlo : 4 ≤ n) (hhi : n < 8) (hty : r.ty = 6) (hclean : r.clean = true) (hlen : r.body.length = 36) (hz : zeroAt r.body 1 3 = true)
    (hopen : (c.sess n).isOpen = false) (hnew : (c.sess n).live = true → r.seq = ((c.sess n).rx + 1) % 2 ^ 32 ∧ r.seq ≠ (c.sess n).rx) (hslot : leAt r.body 0 1 ≤ 3)
    (hgood : c.slotGood (leAt r.body 0 1) = true) (hnonce : leAt r.body 4 32 = (c.sess n).nonce) :
    c.mgmtAuth m true = ((c.heard m n r).modSess n (fun x => { x with isOpen := true })).reply n r.seq 0 [] := by
  have hheard := c.sess_heard m n r
  have hslots : (c.heard m n r).slotGood (leAt r.body 0 1) = true := hgood
  rw [Chip.mgmtAuth, hroute]
  dsimp only
  rw [if_neg (by simp [ReqKind.takes, hty]), if_neg (by omega), if_neg (by omega)]
  refine Chip.serve_new (d := c.heard m n r) rfl (by simpa [Chip.notePeer] using hnew) (by rw [hty]; decide) hclean (ReqKind.from_mgmt _ hlo hhi) (fun hn => by omega)
    (by simp [hlen, hz]) rfl ?_
  rw [if_neg (by simp [hheard, hopen]), if_neg (by omega), if_neg (by simp [hslots, hheard, hnonce])]

end

/-! ### Timeouts -/

section
variable {c : Chip} {n : Nat}

theorem Chip.authTimeout_reserved (hres : (c.sess n).reserved = true) (hopen : (c.sess n).isOpen = false) :
    c.authTimeout n = (c.advanceTo ((c.sess n).lastNs + 5000000000)).endSession n := if_neg (by simp [hres, hopen])

theorem Chip.sessTimeout_open (hopen : (c.sess n).isOpen = true) : c.sessTimeout n = (c.advanceTo ((c.sess n).lastNs + 60000000000)).endSession n := if_neg (by simp [hopen])

end

/-- Settles O53: each message by its lemma, on the port that brought it, and the timeouts. -/
theorem sessionsOpenAndEnd : Obligations.SessionsOpenAndEnd := by
  intro s m r n
  refine ⟨fun g hp hroute hn hty hclean hsess hlen hz hserved hretry hg => ?_, fun h hn hty hb => ?_, fun h hlo hhi hlive hty hb => ?_,
    fun hp hrec hup hrole hudp hmsg hty hclean hb hagain hfree => ?_, fun hp hroute hlo hhi hty hclean hlen hz hopen hnew hslot hgood hnonce => ?_,
    fun i hl => ⟨fun hres hopen => ?_, fun hopen => ?_⟩⟩
  · exact ⟨next_onPort hp (Chip.hello_negotiates hroute hn hty hclean hsess hlen hz hserved hretry hg), Chip.helloAck_shows _ _ _ _⟩
  · exact next_onPort h.1 (Chip.bye_partition h hn hty hb)
  · have hended := Chip.sess_endSession (s.chip.byeReply m) n
    refine ⟨_, next_onPort h.1 (Chip.bye_mgmt h hlo hhi hlive hty hb), hended, ?_⟩
    rw [State.put, Chip.sessOpen, if_neg (by omega), if_pos hhi, hended]
  · exact ⟨next_onPort hp (Chip.mgmtOpen_free hrec hup hrole hudp hmsg hty hclean hb hagain hfree), Chip.challenge_shows _ _ _ _⟩
  · exact next_onPort hp (Chip.mgmtAuth_opens hroute hlo hhi hty hclean hlen hz hopen hnew hslot hgood hnonce)
  · exact next_awake hl (Chip.authTimeout_reserved hres hopen)
  · exact next_awake hl (Chip.sessTimeout_open hopen)

end Sys2Proof.Machine
end

section
/-! Transfers, attestation, keys and records (R393, R417–R420, R439, R467): each request by its cases, what an ATTEST holds, and what a revocation leaves of the key slots. -/
namespace Sys2Proof.Machine

section
variable {c : Chip} {m : Dgram} {r : Req} {n : Nat}

/-! ### Transfers -/

section
variable (h : c.asks m false n r) (hn : (4 ≤ n ∧ n < 8) ∨ n = 255)
include h hn

/-- What the request that is this transfer's kind does, from a management session or the ROM's host. -/
theorem Chip.transfer_served {k : ReqKind} {act : Chip → Nat → Req → Nat × Bytes × Chip} {status : Nat} {e : Chip} (hm : k.mgmt = true) (hr : k.recov = true) (hty : r.ty = k.ty)
    (hhost : k.ty ∈ hostTys) (hmine : k.mine r.body = true) (hbody : k.bodyOk r.body = true) (hact : act (c.heard m n r) n r = (status, [], e)) :
    c.request m false k act = e.reply n r.seq status [] := by
  have hfrom : k.from n = true := by
    rcases hn with ⟨hlo, hhi⟩ | rfl
    · exact (k.from_mgmt hlo hhi).trans hm
    · exact hr
  exact Chip.request_served h hty hhost hmine hfrom hbody (Chip.holds_of_mgmt _ (by omega) _) hact

/-- A transfer of an accepted kind and size begins where none is under way and nothing is staged. -/
theorem Chip.xferBegin_free (hty : r.ty = 0x30) (hlen : r.body.length = 8) (hz : zeroAt r.body 1 3 = true) (hfree : c.ses.xfer = none) (hstaged : c.boot.staged = none)
    (hkind : within (leAt r.body 0 1) 1 (if n = 255 then 2 else 3) = true)
    (hsize : within (leAt r.body 4 4) 1 (if leAt r.body 0 1 = 1 then 0xC00000 else if leAt r.body 0 1 = 2 then 0x200000 else 0x800000) = true) :
    let h := c.heard m n r
    let c1 := { h with ses := { h.ses with xfer := some { sess := n, kind := leAt r.body 0 1, total := leAt r.body 4 4 } } }
    c.xferBegin m = (((c1.updState 1).setFld 0 (startBlk + 0x18) 3 2 (b2n (leAt r.body 0 1 == 2))).updTrace (leAt r.body 0 1) 0 0).reply n r.seq 0 [] := by
  have hx : (c.heard m n r).ses.xfer = none := hfree
  have hs : (c.heard m n r).boot.staged = none := hstaged
  refine Chip.transfer_served h hn rfl rfl hty (by decide) rfl (by simp [hlen, hz]) ?_
  dsimp only
  rw [if_neg (by simp [hx, hs]), if_neg (by rw [hkind, hsize]; decide)]

variable {x : Xfer} (hx : c.ses.xfer = some x) (hown : x.sess = n)
include hx hown

/-- Data in order is kept. -/
theorem Chip.xferData_inOrder (hty : r.ty = 0x31) (hlen : within r.body.length 72 1032 = true) (hz : zeroAt r.body 4 4 = true) (hoff : leAt r.body 0 4 = x.data.length)
    (hfit : x.data.length + (r.body.length - 8) ≤ x.total) :
    let h := c.heard m n r
    c.xferData m = Chip.reply { h with ses := { h.ses with xfer := some { x with data := x.data ++ r.body.drop 8 } } } n r.seq 0 [] := by
  have hxh : (c.heard m n r).ses.xfer = some x := hx
  refine Chip.transfer_served h hn rfl rfl hty (by decide) rfl (by simp [hlen, hz]) ?_
  dsimp only
  rw [hxh]
  dsimp only
  rw [if_neg (not_not.mpr hown), if_neg (by rw [List.length_drop]; omega)]

/-- The end of a transfer: the image staged, or refused with its status. -/
theorem Chip.xferEnd_ends (hty : r.ty = 0x32) (hb : r.body = []) (sig : Bool) :
    let h := c.heard m n r
    let c1 := { h with ses := { h.ses with xfer := none } }
    let st := h.xferStatus x sig
    c.xferEnd m sig =
      if st = 0 then ((Chip.updState { c1 with boot := { c1.boot with staged := some x } } 2).updTrace x.kind 1 0).reply n r.seq 0 []
      else (((c1.updState 0).orReg 0 (startBlk + 0x18) 8).updTrace x.kind 1 st).reply n r.seq st [] := by
  intro y c1 st
  have hxh : y.ses.xfer = some x := hx
  have hform : ({ ty := 0x32, mgmt := true, recov := true, bodyOk := fun b => b.isEmpty, need := fun _ _ _ => some 4 } : ReqKind).bodyOk r.body = true := by simp [hb]
  by_cases hst : st = 0
  · rw [if_pos hst]
    refine Chip.transfer_served h hn rfl rfl hty (by decide) rfl hform ?_
    dsimp only
    rw [hxh]
    dsimp only
    rw [if_neg (not_not.mpr hown)]
    exact if_pos hst
  · rw [if_neg hst]
    refine Chip.transfer_served h hn rfl rfl hty (by decide) rfl hform ?_
    dsimp only
    rw [hxh]
    dsimp only
    rw [if_neg (not_not.mpr hown)]
    exact if_neg hst

end

/-! ### Keys -/

/-- A slot that is revoked is good no more. -/
theorem Chip.slotGood_revoke_self (c : Chip) (i : Nat) : (c.revoke i).slotGood i = false := by
  have hbit : bit (c.revoke i).nv.otp.revoked i = true := by
    rw [Chip.revoke, Chip.setFld_nv, bit, Nat.testBit_or, Nat.one_shiftLeft, Nat.testBit_two_pow_self, Bool.or_true]
  rw [Chip.slotGood, hbit, Bool.not_true, Bool.and_false]

/-- Another slot stays as it was. -/
theorem Chip.slotGood_revoke_ne (c : Chip) {i k : Nat} (hne : i ≠ k) : (c.revoke i).slotGood k = c.slotGood k := by
  have hbit : bit (c.revoke i).nv.otp.revoked k = bit c.nv.otp.revoked k := by
    rw [Chip.revoke, Chip.setFld_nv, bit, Nat.testBit_or, Nat.one_shiftLeft, Nat.testBit_two_pow_of_ne hne, Bool.or_false, bit]
  rw [Chip.slotGood, Chip.slotGood, hbit, Chip.revoke, Chip.setFld_nv]

/-- A reply leaves what outlasts power. -/
theorem Chip.nv_reply (c : Chip) (n ref status : Nat) (body : Bytes) : (c.reply n ref status body).nv = c.nv :=
  (Chip.reply_follows _ _ _ _ (Kept.but_follows [.regs, .net, .ses] c) (Kept.but_free _ c)).same .nv rfl

theorem Chip.slotGood_reply (c : Chip) (n ref status : Nat) (body : Bytes) (k : Nat) : (c.reply n ref status body).slotGood k = c.slotGood k := by
  rw [Chip.slotGood, Chip.nv_reply, Chip.slotGood]

/-- A KEY_REVOKE over the session's nonce, signed by another good slot, revokes its slot. -/
theorem Chip.keyRevoke_served (h : c.asks m true n r) (hlo : 4 ≤ n) (hhi : n < 8) (hty : r.ty = 0x35) (hlen : r.body.length = 36) (hz : zeroAt r.body 2 2 = true) (hrev : leAt r.body 0 1 ≤ 3)
    (hby : leAt r.body 1 1 ≤ 3) (hne : leAt r.body 0 1 ≠ leAt r.body 1 1) (hgood : c.slotGood (leAt r.body 1 1) = true) (hnonce : leAt r.body 4 32 = (c.sess n).nonce) :
    c.keyRevoke m true = ((c.heard m n r).revoke (leAt r.body 0 1)).reply n r.seq 0 [] := by
  have hslot : (c.heard m n r).slotGood (leAt r.body 1 1) = true := hgood
  refine Chip.request_served h hty (by decide) rfl (ReqKind.from_mgmt _ hlo hhi) (by simp [hlen, hz]) (Chip.holds_of_mgmt _ hlo _) ?_
  dsimp only
  rw [if_neg (by omega), if_neg (by simp [hslot, c.sess_heard, hnonce])]

/-! ### Records -/

/-- A RECORD_ACK that names a record lets its slot be erased. -/
theorem Chip.recordAck_served {i : Nat} (h : c.asks m false n r) (hlo : 4 ≤ n) (hhi : n < 8) (hty : r.ty = 0x36) (hlen : r.body.length = 4)
    (hhit : (List.range 64).find? (fun i => let x := flashRead c.nv.fl0 (0xE50000 + 256 * i) 256; leAt x 0 4 == 0x5246594B && leAt x 140 4 == leAt r.body 0 4) = some i) :
    let h := c.heard m n r
    c.recordAck m = Chip.reply { h with nv := { h.nv with acked := tabSet false h.nv.acked i true } } n r.seq 0 [] := by
  have hfound : (List.range 64).find? (fun i => let x := flashRead (c.heard m n r).nv.fl0 (0xE50000 + 256 * i) 256; leAt x 0 4 == 0x5246594B && leAt x 140 4 == leAt r.body 0 4) = some i := hhit
  refine Chip.request_served h hty (by decide) rfl (ReqKind.from_mgmt _ hlo hhi) (by simp [hlen]) (Chip.holds_of_mgmt _ hlo _) ?_
  dsimp only
  rw [hfound]

/-! ### Attestation -/

/-- The chip that has heard an ATTEST_REQ, its last reply still cached. -/
def Chip.attestHeard (c : Chip) (m : Dgram) (n : Nat) (r : Req) : Chip := (c.notePeer n m).modSess n (fun y => { y with rx := r.seq, live := true })

/-- An ATTEST_REQ in its form is answered by a signed ATTEST over its nonce, which is cached. -/
theorem Chip.attest_signs (h : c.asks m false n r) (hlo : 4 ≤ n) (hhi : n < 8) (hlive : (c.sess n).live = true) (hty : r.ty = 0x33) (hlen : r.body.length = 32) :
    let c1 := c.attestHeard m n r
    let x := c1.nextSeq n
    let b := x.2.signedMsg { ty := 0x34, sess := n, flags := 1, seq := x.1, ref := r.seq } (c1.attestBody r.body)
    c.attest m = (b.2.queueFrame (b.2.sessPort n) 2 (b.2.sessFrame n b.1)).modSess n (fun y => { y with cache := b.1 }) := by
  obtain ⟨-, hroute, hopen, hclean, hnew, -⟩ := h
  obtain ⟨hseq, -⟩ := hnew hlive
  rw [Chip.attest, hroute]
  dsimp only
  exact if_neg (by simpa [hty, hhi, ReqKind.from_mgmt _ hlo hhi, hopen, hclean, hlen] using hseq)

theorem Chip.sess_signedMsg (c : Chip) (h : MsgHdr) (body : Bytes) (i : Nat) : (c.signedMsg h body).2.sess i = c.sess i := rfl

/-- What shows of an ATTEST: the request's number is kept, and the cached reply bears its type and the host's nonce. -/
theorem Chip.attest_shows (h : c.asks m false n r) (hlo : 4 ≤ n) (hhi : n < 8) (hlive : (c.sess n).live = true) (hty : r.ty = 0x33) (hlen : r.body.length = 32) :
    ((c.attest m).sess n).rx = r.seq ∧ leAt ((c.attest m).sess n).cache 6 2 = 0x34 ∧ slice ((c.attest m).sess n).cache 32 32 = r.body ∧ (c.attest m).nv.otp = c.nv.otp := by
  rw [Chip.attest_signs h hlo hhi hlive hty hlen, Chip.sess_modSess, Chip.sess_queueFrame, Chip.sess_signedMsg, Chip.nextSeq, Chip.sess_modSess, Chip.attestHeard, Chip.sess_modSess]
  refine ⟨rfl, ?_, ?_, rfl⟩
  · simp only [Chip.signedMsg, List.append_assoc]
    exact MsgHdr.leAt_ty _ _ _
  · simp only [Chip.signedMsg, Chip.attestBody, List.append_assoc]
    exact MsgHdr.slice_body _ _ _ hlen

end

/-- Settles O55: each request by its lemma, on the port that brought it. -/
theorem transfersKeysRecordsServed : Obligations.TransfersKeysRecordsServed := by
  intro s m r n
  refine ⟨fun h hn => ⟨fun hty hlen hz hfree hstaged => ?_, fun x hx hown => ⟨fun hty hlen hz hoff hfit => ?_, fun sig hty hb hst => ?_, fun sig hty hb hst => ?_⟩⟩,
    fun hlo hhi => ⟨fun h hlive hty hlen => ?_, fun h hty hlen hz hrev hby hne hgood hnonce => ⟨?_, ?_, ?_⟩, fun i h hty hlen hhit => ?_⟩⟩
  · exact fun hkind hsize => next_onPort h.1 (Chip.xferBegin_free h hn hty hlen hz hfree hstaged hkind hsize)
  · exact next_onPort h.1 (Chip.xferData_inOrder h hn hx hown hty hlen hz hoff hfit)
  · exact next_onPort h.1 ((Chip.xferEnd_ends h hn hx hown hty hb sig).trans (if_pos hst))
  · exact next_onPort h.1 ((Chip.xferEnd_ends h hn hx hown hty hb sig).trans (if_neg hst))
  · exact ⟨_, next_onPort h.1 rfl, Chip.attest_shows h hlo hhi hlive hty hlen⟩
  · exact next_onPort h.1 (Chip.keyRevoke_served h hlo hhi hty hlen hz hrev hby hne hgood hnonce)
  · rw [Chip.slotGood_reply, Chip.slotGood_revoke_self]
  · rw [Chip.slotGood_reply, Chip.slotGood_revoke_ne _ hne]
    exact hgood
  · exact next_onPort h.1 (Chip.recordAck_served h hlo hhi hty hlen hhit)

end Sys2Proof.Machine
end
